-- ==== Sys2Proof/Word.lean ====
section
/-!
DEFINITION. The word types of the F9 and the type of sparse tables (memories, register files) that every
other file uses. The operations over them stand in Machine/Sparse.lean.
-/
namespace Sys2Proof

/-- A byte, the unit of every memory (R8). -/
abbrev Byte := BitVec 8
/-- A 32-bit word: an instruction word (R35) or one lane of a lane register (R65). -/
abbrev Word := BitVec 32
/-- A 64-bit word: a uniform register (R105), an address, a lane pair. -/
abbrev Dword := BitVec 64
/-- One bit for each of the 32 lanes of a group; bit L is lane L (R204). -/
abbrev Mask := BitVec 32

/-- A sparse table: (key, value) pairs with strictly rising keys and no entry equal to what an unlisted key
reads as, so that equal tables are equal lists (`Sparse.wf` in Machine/Sparse.lean). -/
abbrev Sparse (α : Type) := List (Nat × α)

/-- A byte memory: a sparse table of bytes, the cells of `Host.Cell`. -/
abbrev Memory := Sparse Byte

end Sys2Proof
end

