-- ==== Sys2Proof/Config.lean ====
section
/-!
DEFINITION. What one F9 fixes and what the spec leaves open: free values, as constants without a body. A statement
about any of them holds for every value.
-/
namespace Sys2Proof.Config

/-- The free bit number `n`: the choices of agents whose order or timing the spec does not fix (log 4). -/
opaque freeBool : Nat → Bool

/-- The free word number `n`: values the spec leaves open (log 5). -/
opaque freeWord : Nat → Word

/-- How far the Postmark count moves with step `n` of the model (R3, R444, R455; log 6). -/
opaque postmarkTick : Nat → Dword

/-- Whether a P-521 ECDSA signature (r, s) over a SHA-512 digest verifies under a key: slot `k` of partition `p` is key
32 + 16p + k, the key of the configuration record that signs microcode is 16, the key under which the configuration record
and the firmware are signed is 0 (R10, R350, R401, R447; log 7). -/
opaque ecdsaVerifies : (key : Nat) → (digest r s : Nat) → Bool

/-- The P-521 ECDSA signature (r, s) of a SHA-512 digest under a private key (R453; log 7). -/
opaque ecdsaSign : (secret digest : Nat) → Nat × Nat

/-- The pattern an approximate special function answers, by its minor, format, source pattern and `%mode` FTZ
(R115; log 8): used only where it lies within the bound that R115 gives. -/
opaque approx : (minor kind src : Nat) → (ftz : Bool) → Nat

/-- The bytes of the firmware that the root monitor loads, which the spec names without giving them (R453; log 7). -/
opaque firmwareBytes : List Byte

/-- The signed bytes of a configuration record and its signature (r, s), whose places the spec does not give (R10, R447;
log 7). -/
opaque recordSignature : (record : List Byte) → List Byte × Nat × Nat

/-- The signature (r, s) of the loaded firmware (R10; log 7). -/
opaque firmwareSignature : Nat × Nat

/-- The power-on personality that a configuration record gives an edge group (R429; log 19). -/
opaque configPersonality : (record : List Byte) → (group : Nat) → Nat

end Sys2Proof.Config
end

