-- ==== Sys2Proof/Syntax.lean ====
section
/-!
DEFINITION. The abstract syntax of the F9's steps: one constructor of `Instr` for each row of
spec/opcode_table.json. The rows with a word are instructions and carry the fields of their words (R35 to R47);
the rows without a word are the events of the other agents (engines, queue controllers, Sorting Office, host,
debugger) and carry the inputs those agents bring.
-/
namespace Sys2Proof

/-- The type codes of R48, in code order 0 to 15. -/
inductive Ty
  | b32 | u32 | i64 | u64 | f32 | f64 | f16 | bf16 | f16x2 | bf16x2 | i16x2 | i8x4 | e4m3x4 | e5m2x4 | e2m1x8 | bfp
  deriving DecidableEq, Repr

/-- The rounding codes of R49; `mode` is code 000, which takes the rounding field of `%mode`. -/
inductive Rnd
  | mode | rne | rz | ru | rd | rna | rs
  deriving DecidableEq, Repr

/-- The space codes of R50 that are not reserved; `priv` is the space spelled .private. -/
inductive Space
  | global | team | cluster | scratch | priv | param
  deriving DecidableEq, Repr

/-- The scope codes of R51. -/
inductive Scope
  | grp | team | clu | die | pkg | sys
  deriving DecidableEq, Repr

/-- The sem codes of R51. -/
inductive Sem
  | rlx | acq | rel | acqrel
  deriving DecidableEq, Repr

/-- The fields of a lane-set short form after its op (R36). -/
structure LaneShort where
  d : BitVec 6
  a : BitVec 6
  b : BitVec 6
  sk : BitVec 2
  nw : Bool
  g : BitVec 3
  deriving DecidableEq, Repr

/-- The fields of a uniform-set short form after its op (R37). -/
structure UniShort where
  d : BitVec 6
  a : BitVec 6
  b : BitVec 6
  sk : BitVec 2
  g : BitVec 3
  deriving DecidableEq, Repr

/-- The EA extension word (R42). -/
structure EA where
  t : Ty
  rnd : Rnd
  sat : Bool
  gn : Bool
  c : BitVec 6
  xc : Bool
  imm : BitVec 16
  deriving DecidableEq, Repr

/-- The EI extension word (R44). -/
structure EI where
  imm : BitVec 32
  deriving DecidableEq, Repr

/-- The EM extension word (R45). -/
structure EM where
  space : Space
  t : Ty
  ord : Bool
  gn : Bool
  scope : Scope
  sem : Sem
  c : BitVec 6
  offset : BitVec 12
  deriving DecidableEq, Repr

/-- The EB extension word (R46); its bits [26:24] are reserved and zero. -/
structure EB where
  kind : Bool
  pred : BitVec 3
  neg : Bool
  offset : BitVec 24
  deriving DecidableEq, Repr

/-- The EX extension word (R47); its bits [7:0] are reserved and zero. -/
structure EX where
  fb : BitVec 6
  tile : BitVec 4
  row : BitVec 6
  mrows : BitVec 2
  kfrac : BitVec 2
  mode : BitVec 2
  fin : Bool
  sp : Bool
  deriving DecidableEq, Repr

/-- A command written to a QC command port (R309), less its OP: the QC's die, the queue context whose doorbell
page it arrived through (R424), and the two 64-bit halves' fields. -/
structure QcCommand where
  die : Nat
  ctx : Nat
  handle : Dword
  arg : BitVec 60
  deriving DecidableEq, Repr

/-- A host's answer to an ATS translation request (R385). -/
inductive AtsAnswer
  | translated (hostPage : Nat) (write : Bool)
  | untranslated
  deriving DecidableEq, Repr

/-- What an answer answers (R428). -/
inductive PacketKind
  | write | read | atomic
  deriving DecidableEq, Repr

/-- What a fabric packet asks of its destination (R429, R434), or answers: with success and the bytes read, or with the status
RESET (R428). `line` writes some bytes of one 128-byte line, given as (address, byte) (R243). -/
inductive PacketOp
  | write (pa : Nat) (data : List Byte)
  | line (pa : Nat) (bytes : List (Nat × Byte))
  | read (pa : Nat) (len : Nat)
  | addTo (pa : Nat) (v : Dword)
  | planes (bits : BitVec 128)
  | answer (what : PacketKind) (ok : Bool) (data : List Byte)
  deriving DecidableEq, Repr

/-- A UAL packet: the header fields of R435, the plane it arrived on, and its request. -/
structure Packet where
  age : BitVec 8
  src : BitVec 9
  dst : BitVec 9
  pasid : BitVec 20
  gen : BitVec 8
  pnum : BitVec 10
  plane : Nat
  op : PacketOp
  deriving DecidableEq, Repr

/-- A register as the debugger names it (R390): a lane register of frame `fn` in one lane, a uniform register, a
lane predicate's mask, a uniform predicate, or a special register. -/
inductive DebugReg
  | lane (fn : Nat) (r : Nat) (l : Nat)
  | uni (n : Nat)
  | pred (n : Nat)
  | upred (n : Nat)
  | special (n : Nat)
  deriving DecidableEq, Repr

/-- Who writes a register that has no row of its own: the root monitor, a partition's service core or the host (R420), or
hart `n` of a die's Sorting Office, which writes its own custom CSRs (R347). -/
inductive RegWriter
  | rootMonitor
  | serviceCore (part : Nat)
  | host
  | hart (die : Nat) (n : Nat)
  deriving DecidableEq, Repr

/-- What the service core does when a LOAD's checks pass (R401): the memory it fills with the executable's
sections and page tables, as (physical address, bytes) pairs. -/
structure LoadAnswer where
  writes : List (Nat × List Byte)
  deriving DecidableEq, Repr

/-- One step of the F9: one constructor for each row of the opcode table. -/
inductive Instr
  /-- IADD (R94). Short-form lane integer add of two sources, element by element, with optional saturation. -/
  | iadd (w : LaneShort)
  /-- ISUB (R94). Short-form lane integer subtract. -/
  | isub (w : LaneShort)
  /-- IMUL (R94). Short-form lane integer multiply keeping the low bits or saturating. -/
  | imul (w : LaneShort)
  /-- IMIN (R94). Short-form lane integer minimum. -/
  | imin (w : LaneShort)
  /-- IMAX (R94). Short-form lane integer maximum. -/
  | imax (w : LaneShort)
  /-- AND (R95). Short-form lane bitwise AND. -/
  | and (w : LaneShort)
  /-- OR (R95). Short-form lane bitwise OR. -/
  | or (w : LaneShort)
  /-- XOR (R95). Short-form lane bitwise XOR. -/
  | xor (w : LaneShort)
  /-- SHL (R95). Short-form lane shift left by an unsigned count. -/
  | shl (w : LaneShort)
  /-- SHR (R95). Short-form lane logical shift right. -/
  | shr (w : LaneShort)
  /-- SHA (R95). Short-form lane arithmetic shift right. -/
  | sha (w : LaneShort)
  /-- MOV (R101). Short-form 32-bit move from a lane register, latch or uniform register. -/
  | mov (w : LaneShort)
  /-- FADD (R111). Short-form floating-point add with rounding under %mode. -/
  | fadd (w : LaneShort)
  /-- FSUB (R111). Short-form floating-point subtract. -/
  | fsub (w : LaneShort)
  /-- FMUL (R111). Short-form floating-point multiply. -/
  | fmul (w : LaneShort)
  /-- FMIN (R112). Short-form floating-point minimum preferring the non-NaN source. -/
  | fmin (w : LaneShort)
  /-- FMAX (R112). Short-form floating-point maximum preferring the non-NaN source. -/
  | fmax (w : LaneShort)
  /-- FSCL (R113). Short-form scaling of a float by a power of two. -/
  | fscl (w : LaneShort)
  /-- VSR (R209). Read of a lane special register such as %lane or %flow. -/
  | vsr (w : LaneShort)
  /-- IADD_EXT (R94). Lane integer add with an EA extension word carrying type, sat, gn or an imm16 source. -/
  | iaddExt (w : LaneShort) (e : EA)
  /-- ISUB_EXT (R94). Lane integer subtract with an EA extension word. -/
  | isubExt (w : LaneShort) (e : EA)
  /-- IMUL_EXT (R94). Lane integer multiply with an EA extension word. -/
  | imulExt (w : LaneShort) (e : EA)
  /-- IMIN_EXT (R94). Lane integer minimum with an EA extension word. -/
  | iminExt (w : LaneShort) (e : EA)
  /-- IMAX_EXT (R94). Lane integer maximum with an EA extension word. -/
  | imaxExt (w : LaneShort) (e : EA)
  /-- AND_EXT (R95). Lane bitwise AND with an EA extension word. -/
  | andExt (w : LaneShort) (e : EA)
  /-- OR_EXT (R95). Lane bitwise OR with an EA extension word. -/
  | orExt (w : LaneShort) (e : EA)
  /-- XOR_EXT (R95). Lane bitwise XOR with an EA extension word. -/
  | xorExt (w : LaneShort) (e : EA)
  /-- SHL_EXT (R95). Lane shift left with an EA extension word. -/
  | shlExt (w : LaneShort) (e : EA)
  /-- SHR_EXT (R95). Lane logical shift right with an EA extension word. -/
  | shrExt (w : LaneShort) (e : EA)
  /-- SHA_EXT (R95). Lane arithmetic shift right with an EA extension word. -/
  | shaExt (w : LaneShort) (e : EA)
  /-- IMAD (R96). Lane integer multiply-add a*b+c, exact then wrapped or saturated. -/
  | imad (w : LaneShort) (e : EA)
  /-- IMADW (R96). Lane widening 32x32 multiply plus 64-bit addend into a register pair. -/
  | imadw (w : LaneShort) (e : EA)
  /-- LOP3 (R96). Lane three-input bitwise function selected by an 8-bit table. -/
  | lop3 (w : LaneShort) (e : EA)
  /-- BFX (R97). Lane bit-field extract with sign or zero extension. -/
  | bfx (w : LaneShort) (e : EA)
  /-- BFI (R97). Lane bit-field insert. -/
  | bfi (w : LaneShort) (e : EA)
  /-- IBIT (R98). Lane population count, leading or trailing zero count, or bit reverse. -/
  | ibit (w : LaneShort) (e : EA)
  /-- PRMT (R99). Lane byte permutation of two sources under four selector nibbles. -/
  | prmt (w : LaneShort) (e : EA)
  /-- SEL (R100). Lane select of source a or b by a predicate. -/
  | sel (w : LaneShort) (e : EA)
  /-- ICMP (R102). Lane integer comparison writing a predicate. -/
  | icmp (w : LaneShort) (e : EA)
  /-- PSET (R103). Lane predicate logic combining two predicates. -/
  | pset (w : LaneShort) (e : EA)
  /-- PMOV_REG (R104). Copy of the lane predicates into a lane register. -/
  | pmovReg (w : LaneShort) (e : EA)
  /-- PMOV_PRED (R104). Load of selected lane predicates from register bits. -/
  | pmovPred (w : LaneShort) (e : EA)
  /-- FADD_EXT (R111). Floating-point add with an EA extension word. -/
  | faddExt (w : LaneShort) (e : EA)
  /-- FSUB_EXT (R111). Floating-point subtract with an EA extension word. -/
  | fsubExt (w : LaneShort) (e : EA)
  /-- FMUL_EXT (R111). Floating-point multiply with an EA extension word. -/
  | fmulExt (w : LaneShort) (e : EA)
  /-- FFMA (R111). Fused floating-point multiply-add with one rounding. -/
  | ffma (w : LaneShort) (e : EA)
  /-- FMIN_EXT (R112). Floating-point minimum with an EA extension word. -/
  | fminExt (w : LaneShort) (e : EA)
  /-- FMAX_EXT (R112). Floating-point maximum with an EA extension word. -/
  | fmaxExt (w : LaneShort) (e : EA)
  /-- FSCL_EXT (R113). Floating-point scaling with an EA extension word. -/
  | fsclExt (w : LaneShort) (e : EA)
  /-- FCMP (R114). Floating-point comparison writing a predicate. -/
  | fcmp (w : LaneShort) (e : EA)
  /-- FSF (R115). Special function: rcp, rsq, sqrt, exp2, log2, sin, cos or tanh. -/
  | fsf (w : LaneShort) (e : EA)
  /-- CVT (R119). Conversion between number formats in scalar, pack, unpack or repack form. -/
  | cvt (w : LaneShort) (e : EA)
  /-- DOT (R120). Packed dot product accumulated into a 32-bit register. -/
  | dot (w : LaneShort) (e : EA)
  /-- SHFL (R123). Cross-lane shuffle within segments under an edge mode. -/
  | shfl (w : LaneShort) (e : EA)
  /-- VOTE (R124). Cross-lane ballot, any, all, count or read-first-active into a uniform register. -/
  | vote (w : LaneShort) (e : EA)
  /-- REDUX (R125). Cross-lane reduction into a uniform register. -/
  | redux (w : LaneShort) (e : EA)
  /-- SCAN (R126). Cross-lane inclusive or exclusive prefix scan. -/
  | scan (w : LaneShort) (e : EA)
  /-- RKADM (R167). Per-lane test of a candidate against the threshold %thr into a predicate. -/
  | rkadm (w : LaneShort) (e : EA)
  /-- RKINS (R168). Insertion of a candidate into a lane-local ranked list. -/
  | rkins (w : LaneShort) (e : EA)
  /-- RELBL (R219). Per-lane request to relabel the lane's item to a new flow and class. -/
  | relbl (w : LaneShort) (e : EA)
  /-- ITEM_DONE (R221). Completion of each lane's item, resolving slots and releasing locks. -/
  | itemDone (w : LaneShort) (e : EA)
  /-- ITEM_SKIP (R222). Resolution of a parked item in a fault queue by discarding it. -/
  | itemSkip (w : LaneShort) (e : EA)
  /-- ITEM_YIELD (R223). Request of a GPK fill for the split's empty and vacant lanes. -/
  | itemYield (w : LaneShort) (e : EA)
  /-- ITEM_DEFER (R224). Move of each lane's item to the tail of another queue. -/
  | itemDefer (w : LaneShort) (e : EA)
  /-- MOV_IMM (R101). Move of a 32-bit immediate from an EI word to every active lane. -/
  | movImm (w : LaneShort) (e : EI)
  /-- LDA (R149). Load of 32-bit words from the group's accumulator memory. -/
  | lda (w : LaneShort) (e : EM)
  /-- STA (R149). Store of 32-bit words to accumulator memory, optionally ordered or releasing. -/
  | sta (w : LaneShort) (e : EM)
  /-- LD (R245). Lane load from a memory space, optionally acquiring. -/
  | ld (w : LaneShort) (e : EM)
  /-- ST (R245). Lane store to a memory space, optionally releasing or ordered. -/
  | st (w : LaneShort) (e : EM)
  /-- LDK (R247). Read from a parameter window with overflow flagging. -/
  | ldk (w : LaneShort) (e : EM)
  /-- LDC (R248). Collective load of up to 16 rows of 128 bytes into registers. -/
  | ldc (w : LaneShort) (e : EM)
  /-- STC (R248). Collective store of up to 16 register rows to memory. -/
  | stc (w : LaneShort) (e : EM)
  /-- CPL (R252). Per-lane copy of 4, 8 or 16 bytes into team memory. -/
  | cpl (w : LaneShort) (e : EM)
  /-- ATOM (R288). Atomic read-modify-write at the location's home. -/
  | atom (w : LaneShort) (e : EM)
  /-- ATOMC (R289). Atomic compare-and-swap at the location's home. -/
  | atomc (w : LaneShort) (e : EM)
  /-- QENQ (R311). Per-lane enqueue or re-injection of a record into a queue. -/
  | qenq (w : LaneShort) (e : EM)
  /-- QDEQ (R312). Per-lane dequeue of a record from the head of a queue. -/
  | qdeq (w : LaneShort) (e : EM)
  /-- QSTEAL (R312). Per-lane take of a record from the tail of a queue. -/
  | qsteal (w : LaneShort) (e : EM)
  /-- MMA (R141). Dense matrix instruction joining or forming a matrix step. -/
  | mma (w : LaneShort) (e : EX)
  /-- MMS (R141). Sparse matrix instruction joining or forming a matrix step. -/
  | mms (w : LaneShort) (e : EX)
  /-- MRK (R161). Matrix step into a staging tile, optionally with a fin phase that offers to lists. -/
  | mrk (w : LaneShort) (e : EX)
  /-- UADD (R105). Short-form uniform 64-bit add. -/
  | uadd (w : UniShort)
  /-- USUB (R105). Short-form uniform subtract. -/
  | usub (w : UniShort)
  /-- UMUL (R105). Short-form uniform multiply, low 64 bits. -/
  | umul (w : UniShort)
  /-- UMIN (R105). Short-form uniform signed minimum. -/
  | umin (w : UniShort)
  /-- UMAX (R105). Short-form uniform signed maximum. -/
  | umax (w : UniShort)
  /-- UAND (R105). Short-form uniform bitwise AND. -/
  | uand (w : UniShort)
  /-- UOR (R105). Short-form uniform bitwise OR. -/
  | uor (w : UniShort)
  /-- UXOR (R105). Short-form uniform bitwise XOR. -/
  | uxor (w : UniShort)
  /-- USHL (R105). Short-form uniform shift left. -/
  | ushl (w : UniShort)
  /-- USHR (R105). Short-form uniform logical shift right. -/
  | ushr (w : UniShort)
  /-- USHA (R105). Short-form uniform arithmetic shift right. -/
  | usha (w : UniShort)
  /-- UMOV (R105). Short-form uniform move of a register, immediate or special register. -/
  | umov (w : UniShort)
  /-- BRX (R197). Indirect branch of the whole split to an address in a uniform register. -/
  | brx (w : UniShort)
  /-- CALLX (R198). Indirect call requesting a new frame with overlap. -/
  | callx (w : UniShort)
  /-- RET (R199). Return from the top frame, resolving deferred entries and filling the caller. -/
  | ret (w : UniShort)
  /-- UNWIND (R200). Removal of the top n frames and return to the n-th frame's RPC. -/
  | unwind (w : UniShort)
  /-- RCV (R201). Reconvergence point: resolves deferred entries, parks or merges splits. -/
  | rcv (w : UniShort)
  /-- EXIT (R202). End of the split's active lanes, completing their items. -/
  | exit (w : UniShort)
  /-- WAITC (R258). Wait until an engine class counter is at most a threshold. -/
  | waitc (w : UniShort)
  /-- CPB (R253). Block copy of up to three dimensions between memory spaces. -/
  | cpb (w : UniShort)
  /-- CPCLOSE (R255). Closing of the group's open copy batch with a new number. -/
  | cpclose (w : UniShort)
  /-- CPWAIT (R256). Wait for completion of every closed batch at or below a number. -/
  | cpwait (w : UniShort)
  /-- FRES (R319). Resolution of a future and start of its waiter walk. -/
  | fres (w : UniShort)
  /-- FREG (R320). Registration of a waiter node on a future. -/
  | freg (w : UniShort)
  /-- TSPAWN (R321). Release of a task's creation hold by one decrement. -/
  | tspawn (w : UniShort)
  /-- TDONE (R321). Completion of a task, resolving its future and decrementing successors. -/
  | tdone (w : UniShort)
  /-- ASY (R169). Submission of an Assay request descriptor. -/
  | asy (w : UniShort)
  /-- GNODE (R326). Copy of n records into a graph node's record queue. -/
  | gnode (w : UniShort)
  /-- SVC (R387). Posting of a service call request into the partition's call ring. -/
  | svc (w : UniShort)
  /-- SRD (R364). Read of a special register into a uniform register. -/
  | srd (w : UniShort)
  /-- SRD_FAULT_WORD (R364). Read of a fault word of the current handler entry. -/
  | srdFaultWord (w : UniShort)
  /-- SWR (R366). Write of a special register from a uniform register. -/
  | swr (w : UniShort)
  /-- TRAP (R362). Raise of the TRAP fault with a code. -/
  | trap (w : UniShort)
  /-- HRET (R363). Return from handler mode, a save routine or a restore routine. -/
  | hret (w : UniShort)
  /-- BKPT (R362). Breakpoint: debug stop if attached, otherwise the BKPT fault. -/
  | bkpt (w : UniShort)
  /-- UADD_EXT (R105). Uniform add with a 32-bit immediate in an EI word. -/
  | uaddExt (w : UniShort) (e : EI)
  /-- USUB_EXT (R105). Uniform subtract with an EI word. -/
  | usubExt (w : UniShort) (e : EI)
  /-- UMUL_EXT (R105). Uniform multiply with an EI word. -/
  | umulExt (w : UniShort) (e : EI)
  /-- UMIN_EXT (R105). Uniform signed minimum with an EI word. -/
  | uminExt (w : UniShort) (e : EI)
  /-- UMAX_EXT (R105). Uniform signed maximum with an EI word. -/
  | umaxExt (w : UniShort) (e : EI)
  /-- UAND_EXT (R105). Uniform bitwise AND with an EI word. -/
  | uandExt (w : UniShort) (e : EI)
  /-- UOR_EXT (R105). Uniform bitwise OR with an EI word. -/
  | uorExt (w : UniShort) (e : EI)
  /-- UXOR_EXT (R105). Uniform bitwise XOR with an EI word. -/
  | uxorExt (w : UniShort) (e : EI)
  /-- USHL_EXT (R105). Uniform shift left with an EI word. -/
  | ushlExt (w : UniShort) (e : EI)
  /-- USHR_EXT (R105). Uniform logical shift right with an EI word. -/
  | ushrExt (w : UniShort) (e : EI)
  /-- USHA_EXT (R105). Uniform arithmetic shift right with an EI word. -/
  | ushaExt (w : UniShort) (e : EI)
  /-- UMOV_EXT (R105). Uniform move of a sign-extended 32-bit immediate. -/
  | umovExt (w : UniShort) (e : EI)
  /-- UMAD (R106). Uniform 64-bit multiply-add. -/
  | umad (w : UniShort) (e : EA)
  /-- UBFX (R107). Uniform 64-bit bit-field extract. -/
  | ubfx (w : UniShort) (e : EA)
  /-- USEL (R107). Uniform select by a q predicate. -/
  | usel (w : UniShort) (e : EA)
  /-- UCMP (R102). Uniform comparison writing a q predicate. -/
  | ucmp (w : UniShort) (e : EA)
  /-- BAR_INIT (R234). Initialisation of a named barrier's expected count. -/
  | barInit (w : UniShort) (e : EA)
  /-- BAR_ARRIVE (R234). Arrival at a named barrier, lowering PEND. -/
  | barArrive (w : UniShort) (e : EA)
  /-- BAR_WAIT (R234). Wait on a named barrier until its phase parity changes. -/
  | barWait (w : UniShort) (e : EA)
  /-- BAR_ARRWAIT (R234). Arrival at a barrier followed by a wait on its phase. -/
  | barArrwait (w : UniShort) (e : EA)
  /-- BAR_EXPECT (R234). Raise of a barrier's outstanding byte count TX. -/
  | barExpect (w : UniShort) (e : EA)
  /-- FENCE_ACQ (R290). Acquire fence at a scope. -/
  | fenceAcq (w : UniShort) (e : EA)
  /-- FENCE_REL (R290). Release fence at a scope. -/
  | fenceRel (w : UniShort) (e : EA)
  /-- FENCE_ACQREL (R290). Release then acquire fence at a scope. -/
  | fenceAcqrel (w : UniShort) (e : EA)
  /-- FENCE_SC (R290). Sequentially consistent fence waiting for acknowledgement of earlier writes. -/
  | fenceSc (w : UniShort) (e : EA)
  /-- ACC_ACQ (R148). Request for a tile's token on the group side. -/
  | accAcq (w : UniShort) (e : EA)
  /-- ACC_REL (R148). Return of a tile's token. -/
  | accRel (w : UniShort) (e : EA)
  /-- ACC_WIN (R148). Setting of a group's accumulator window by group 0. -/
  | accWin (w : UniShort) (e : EA)
  /-- ACC_ALLOC (R146). Non-blocking allocation of tiles from the engine's pool. -/
  | accAlloc (w : UniShort) (e : EA)
  /-- ACC_FREE (R146). Return of an allocated tile to the pool. -/
  | accFree (w : UniShort) (e : EA)
  /-- RKCFG (R160). Binding, unbinding or domain configuration of a ranked-list set. -/
  | rkcfg (w : UniShort) (e : EA)
  /-- RKRD (R163). Read of list entries into lane registers. -/
  | rkrd (w : UniShort) (e : EA)
  /-- RLOG_PUSH (R329). Push of a slot into a routing log when free. -/
  | rlogPush (w : UniShort) (e : EA)
  /-- RLOG_GET (R329). Wait for and acquire an occupied routing-log slot. -/
  | rlogGet (w : UniShort) (e : EA)
  /-- RLOG_RET (R329). Return of a routing-log slot to free. -/
  | rlogRet (w : UniShort) (e : EA)
  /-- PIPE_SEND (R330). Send of a buffer into a team-memory pipe slot. -/
  | pipeSend (w : UniShort) (e : EA)
  /-- PIPE_RECV (R330). Receive of a pipe slot into a buffer. -/
  | pipeRecv (w : UniShort) (e : EA)
  /-- HCOH_FLUSH (R388). Write-back of dirty host-cache lines in a range. -/
  | hcohFlush (w : UniShort) (e : EA)
  /-- HCOH_INVAL (R388). Invalidation of every device copy of host lines in a range. -/
  | hcohInval (w : UniShort) (e : EA)
  /-- CTX_DRAIN (R378). Wait until copies, engine counters, acknowledgements and atomics are drained. -/
  | ctxDrain (w : UniShort) (e : EA)
  /-- CTX_SVSPLIT (R379). Save of a split record or the group fields to the image. -/
  | ctxSvsplit (w : UniShort) (e : EA)
  /-- CTX_LDSPLIT (R379). Load of a split record or the group fields from the image. -/
  | ctxLdsplit (w : UniShort) (e : EA)
  /-- CTX_SVFRAME (R380). Eviction of a frame and save of its descriptor to the spill area. -/
  | ctxSvframe (w : UniShort) (e : EA)
  /-- CTX_LDFRAME (R380). Load of a frame from its descriptor and image. -/
  | ctxLdframe (w : UniShort) (e : EA)
  /-- CTX_SVLIST (R381). Save of barrier words, items and locks, or release-window entries. -/
  | ctxSvlist (w : UniShort) (e : EA)
  /-- CTX_SVLIST_LOAD (R381). Load of barrier words, items and locks, or release-window entries. -/
  | ctxSvlistLoad (w : UniShort) (e : EA)
  /-- BRA (R196). Relative branch, uniform or divergent on a lane predicate. -/
  | bra (w : UniShort) (e : EB)
  /-- CALL (R198). Relative call requesting a new frame with overlap. -/
  | call (w : UniShort) (e : EB)
  /-- MWAIT (R259). Wait until a memory counter reaches a target. -/
  | mwait (w : UniShort) (e : EM)
  /-- MSIG (R259). Atomic add to a memory counter, optionally releasing. -/
  | msig (w : UniShort) (e : EM)
  /-- RKMRG (R164). Read of a list image from memory and its merge into a list. -/
  | rkmrg (w : UniShort) (e : EM)
  /-- RESERVED_OP (R61). Issue of a word whose op is a reserved cell, raising ILLEGAL_ENCODING. -/
  | reservedOp (w : Word) (ext : Option Word)
  /-- RESULT_WRITEBACK (R22). Landing of a pipe result from a bank write queue into the register file. -/
  | resultWriteback (gid : Nat)
  /-- MEMORY_RESPONSE (R21). Arrival of a load, atomic or queue answer whose latency is not fixed. -/
  | memoryResponse (gid : Nat)
  /-- REFUSAL_URGENT (R24). A split's refusal count reaching 16 makes it urgent. -/
  | refusalUrgent (gid : Nat) (sp : Nat)
  /-- WAIT_COUNT_URGENT (R25). A split's wait count reaching 48 makes it urgent. -/
  | waitCountUrgent (gid : Nat) (sp : Nat)
  /-- FRAME_GRANT (R183). Grant of the head frame request once enough granules are free. -/
  | frameGrant (core : Nat) (sc : Nat)
  /-- ESE_TRIGGER (R185). Escape spill engine action after the head request waits 512 clk. -/
  | eseTrigger (core : Nat) (sc : Nat)
  /-- EVICTION_COMPLETE (R186). Acceptance of an evicted frame's writes, setting RES 0 and freeing granules. -/
  | evictionComplete (core : Nat) (sc : Nat)
  /-- FILL_COMPLETE (R187). Completion of a frame fill, setting RES 1 and resuming the waiting split. -/
  | fillComplete (gid : Nat) (fn : Nat)
  /-- PARK_TIMEOUT (R194). A parked split continues alone after 256 clk. -/
  | parkTimeout (gid : Nat) (sp : Nat)
  /-- MATRIX_STEP_ACCEPT (R138). Acceptance of a formed matrix step with the checks of R142. -/
  | matrixStepAccept (core : Nat) (eng : Nat)
  /-- MATRIX_STEP_START (R138). Start of an accepted step once the engine, token and clearing allow. -/
  | matrixStepStart (core : Nat) (eng : Nat)
  /-- MATRIX_STEP_WRITE (R138). Write of a step's target rows after its residue check, lowering class-0 counters. -/
  | matrixStepWrite (core : Nat) (eng : Nat) (fails : (List (Nat × Nat)))
  /-- PAIR_TIMEOUT (R137). Expiry of 4,096 clk without the partner quad of a pair step. -/
  | pairTimeout (core : Nat) (eng : Nat)
  /-- FIN_PHASE_END (R162). End of a fin phase that offered staging rows to lists. -/
  | finPhaseEnd (core : Nat) (eng : Nat)
  /-- THR_UPDATE (R166). Update of a bound group's %thr to the domain maximum. -/
  | thrUpdate (gid : Nat)
  /-- TILE_CLEAR_DONE (R146). End of the 64-clk clearing of a granted tile. -/
  | tileClearDone (core : Nat) (eng : Nat) (tile : Nat)
  /-- TOKEN_GRANT (R147). Passing of a tile token to a waiting group once earlier steps have written. -/
  | tokenGrant (core : Nat) (eng : Nat) (tile : Nat)
  /-- TOKEN_HANDOFF (R147). Return of a released token once the holder's sta writes have landed. -/
  | tokenHandoff (core : Nat) (eng : Nat) (tile : Nat)
  /-- MERGE_ACCEPT (R164). Acceptance of a list merge by the engine, raising the class-2 counter. -/
  | mergeAccept (core : Nat) (eng : Nat)
  /-- MERGE_COMPLETE (R164). Completion of a list merge, lowering the class-2 counter. -/
  | mergeComplete (core : Nat) (eng : Nat)
  /-- RKCFG_COMPLETE (R160). End of a binding configuration including domain clear. -/
  | rkcfgComplete (gid : Nat)
  /-- ASSAY_ACCEPT (R169). Acceptance of a routed request by an Assay unit. -/
  | assayAccept (stack : Nat)
  /-- ASSAY_COMPLETE (R173). Completion of an Assay request's records, lowering the class-3 counter. -/
  | assayComplete (stack : Nat)
  /-- GPK_FILL (R210). Group packer fill of target lanes from re-injection, held list and queue. -/
  | gpkFill (gid : Nat)
  /-- RELEASE_WINDOW_PERFORM (R216). Performance of held ordered writes once the release point passes. -/
  | releaseWindowPerform (core : Nat)
  /-- STALL (R229). Posting of STALL after an unresolved slot or lock blocks for the stall interval. -/
  | stall (die : Nat) (entry : Nat) (qkey : Nat)
  /-- FAULT_RECORD_WRITE (R314). Write of a waiting fault record once its fault queue has a slot. -/
  | faultRecordWrite (die : Nat)
  /-- DEFER_APPEND (R224). Append of held deferred descriptors as queue slots free. -/
  | deferAppend (die : Nat)
  /-- BAR_WAIT_RELEASE (R235). Waking of splits waiting on a completed barrier phase. -/
  | barWaitRelease (gid : Nat) (sp : Nat)
  /-- COPY_COMPLETE (R251). Completion of a copy with its batch, barrier, counter or future effect. -/
  | copyComplete (cid : Nat)
  /-- TILE_TRANSFER_COMPLETE (R249). Completion of an ldc or stc transfer, lowering the class-1 counter. -/
  | tileTransferComplete (gid : Nat)
  /-- TRANSLATION_WALK (R384). Completion of a page-table walk, or parking of an access on a V=0 entry. -/
  | translationWalk (tag : Nat)
  /-- ATS_RESPONSE (R385). Arrival of a PCIe ATS translation response. -/
  | atsResponse (tag : Nat) (ans : AtsAnswer)
  /-- PRI_RESPONSE (R385). Arrival of a PRI page response. -/
  | priResponse (tag : Nat) (ok : Bool)
  /-- HOST_ROUTE_TIMEOUT (R385). No host-route response within 100 ms gives PAGE. -/
  | hostRouteTimeout (tag : Nat)
  /-- ATS_INVALIDATION (R386). Host invalidation of a translation, completing when old accesses are done. -/
  | atsInvalidation (pasid : Nat) (va : Nat)
  /-- WRITE_ACK (R268). Home acknowledgement of a write, lowering the group's acknowledgement counter. -/
  | writeAck (gid : Nat)
  /-- CLOCK_MARKER (R267). Arrival of a vector-clock marker updating the applied vector. -/
  | clockMarker (src : Nat) (dst : Nat)
  /-- MWAIT_SATISFIED (R259). End of an mwait once the counter reaches its target. -/
  | mwaitSatisfied (gid : Nat) (sp : Nat)
  /-- OPEN (R309). QC command that reads and caches a QCB, opening the queue. -/
  | qcOpen (c : QcCommand)
  /-- CLOSE (R309). QC command that sets CLOSED on a queue. -/
  | qcClose (c : QcCommand)
  /-- NOTIFY (R308). QC command advancing TAIL of a software ring. -/
  | qcNotify (c : QcCommand)
  /-- FLUSH (R309). QC command writing the QCB back and possibly releasing the queue. -/
  | qcFlush (c : QcCommand)
  /-- NODE (R309). QC command binding or unbinding a graph node to a record queue. -/
  | qcNode (c : QcCommand)
  /-- RESIDENT (R327). QC command reporting a weight slot filled, returning deferred records. -/
  | qcResident (c : QcCommand)
  /-- QCB_WRITEBACK (R302). Write-back of HEAD and TAIL to memory within 1 µs of a change. -/
  | qcbWriteback (qkey : Nat)
  /-- TASK_DECREMENT (R316). Decrement of a task's PEND by a walk, launching it at zero. -/
  | taskDecrement (die : Nat)
  /-- NODE_RECORD_ARRIVAL (R327). Node engine handling of an arriving record against the weight slots. -/
  | nodeRecordArrival (qkey : Nat)
  /-- NODE_RESERVE (R325). Reservation of eligible records and enqueue of a node launch. -/
  | nodeReserve (qkey : Nat)
  /-- NODE_FLUSH_EXPIRY (R325). Expiry of a node's flush interval, launching a partial tile. -/
  | nodeFlushExpiry (qkey : Nat)
  /-- RESIDENCY (R328). Event posted when a waiting record exceeds the residency timeout. -/
  | residency (qkey : Nat)
  /-- SOTAKE_TAKE (R347). Sorting Office CSR write taking a record from a launch queue. -/
  | sotakeTake (die : Nat) (hart : Nat) (idx : Nat)
  /-- SOTAKE_PEEK (R347). Sorting Office CSR write peeking a launch queue's head record. -/
  | sotakePeek (die : Nat) (hart : Nat) (idx : Nat)
  /-- SONEED (R348). CSR write of a kernel descriptor address, making its needs readable. -/
  | soneed (die : Nat) (hart : Nat) (addr : Dword)
  /-- SOAVAIL (R347). CSR write selecting a core or sub-core whose free resources become readable. -/
  | soavail (die : Nat) (hart : Nat) (v : Dword)
  /-- SOPLACE_STAGE (R349). CSR write staging one cluster member for placement. -/
  | soplaceStage (die : Nat) (hart : Nat) (v : Dword)
  /-- SOPLACE_COMMIT (R349). CSR write committing a placement of staged and own teams. -/
  | soplaceCommit (die : Nat) (hart : Nat) (v : Dword)
  /-- SOPRE (R370). CSR write ordering pre-emption of a placement. -/
  | sopre (die : Nat) (hart : Nat) (v : Dword)
  /-- SORESM (R374). CSR write resuming a pre-empted placement on a core. -/
  | soresm (die : Nat) (hart : Nat) (v : Dword)
  /-- SOKILL (R347). CSR write killing a team. -/
  | sokill (die : Nat) (hart : Nat) (v : Dword)
  /-- SOEVT (R347). CSR read taking the next Sorting Office event. -/
  | soevt (die : Nat) (hart : Nat)
  /-- ILLEGAL_CSR_ACCESS (R347). Access to an unlisted custom CSR raising an illegal-instruction exception. -/
  | illegalCsrAccess (die : Nat) (hart : Nat) (csr : Nat)
  /-- PREEMPT_COMPLETE (R370). Completion of a team's saved image, freeing resources and writing PREEMPT. -/
  | preemptComplete (pid : Nat)
  /-- SAVE_TIMEOUT (R370). Kill of a team whose save routine misses hret within 2 ms. -/
  | saveTimeout (pid : Nat)
  /-- TIME_SLICE_EXPIRY (R345). Expiry of a team's slice while an equal-priority team waits. -/
  | timeSliceExpiry (pid : Nat)
  /-- TEAM_COMPLETION_COUNT (R346). Add to the launch's completion counter once the ended team's writes are performed. -/
  | teamCompletionCount (pid : Nat)
  /-- MICROCODE_LOAD (R350). Root monitor load of a verified Sorting Office microcode image. -/
  | microcodeLoad (die : Nat) (img : (List (BitVec 8))) (sig : (BitVec 1042)) (key : Nat)
  /-- HANDLER_ENTRY (R357). Entry to handler mode, freezing other splits and granting frame 511. -/
  | handlerEntry (gid : Nat)
  /-- HALT (R367). Rise of the partition halt line stopping every engine within the skid. -/
  | halt (part : Nat) (cause : (BitVec 8))
  /-- WATCHDOG (R369). Expiry of the context watchdog interval raising WATCHDOG. -/
  | watchdog (gid : Nat)
  /-- DEBUG_STOP (R389). Debug stop of one group at a chain boundary. -/
  | debugStop (gid : Nat)
  /-- DEBUG_STEP (R389). Single step of one instruction or chain of a stopped split. -/
  | debugStep (gid : Nat) (sp : Nat)
  /-- BREAKPOINT_STOP (R295). Stop of a group before a split issues at a breakpoint address. -/
  | breakpointStop (gid : Nat) (sp : Nat)
  /-- DEBUG_REGISTER_WRITE (R390). Debugger write to a register, held behind in-flight writes. -/
  | debugRegisterWrite (gid : Nat) (r : DebugReg) (v : Dword)
  /-- HOST_BAR2_WRITE (R418). Host write through BAR2 performed in posted order. -/
  | hostBar2Write (fn : Nat) (off : Nat) (data : (List (BitVec 8)))
  /-- FLR (R427). Function Level Reset of a VF: quarantine, GEN raise and team kill. -/
  | flr (vf : Nat)
  /-- FLR_CLEANUP (R427). Completion of a reset VF's service calls and connections with RESET. -/
  | flrCleanup (vf : Nat)
  /-- FLR_ALLOWANCE_EXPIRY (R427). Expiry of send allowances and reply reservations 2 ms after FLR. -/
  | flrAllowanceExpiry (vf : Nat)
  /-- FLR_COMPLETE (R427). Return of the VF's contexts to FREE after 4 ms and drained counters. -/
  | flrComplete (vf : Nat)
  /-- PEER_PACKET_RECEIVE (R428). Receipt of a fabric packet, performed or answered RESET. -/
  | peerPacketReceive (p : Packet)
  /-- PCTL_ENABLE (R420). Root monitor write of PCTL.EN enabling or disabling a partition. -/
  | pctlEnable (part : Nat) (en : Bool)
  /-- PCTL_HALT_REQUEST (R420). Write of PCTL bit 2 raising HALT_REQUEST. -/
  | pctlHaltRequest (part : Nat)
  /-- CMASK_WRITE (R423). Write of a partition's core mask, applying to later commits. -/
  | cmaskWrite (part : Nat) (word : Nat) (v : Dword)
  /-- FLTRSP (R426). Service-core answer to a parked page fault. -/
  | fltrsp (part : Nat) (v : Dword)
  /-- ATT_REQUEST (R453). Service-core write requesting an attestation report. -/
  | attRequest (part : Nat) (v : Dword)
  /-- ATTESTATION_REPORT (R453). Root monitor write of the signed report into the buffer. -/
  | attestationReport (part : Nat)
  /-- REGISTER_WRITE (R420). Write to a device or partition register without a row of its own. -/
  | registerWrite (who : RegWriter) (page : Nat) (off : Nat) (v : Dword)
  /-- EGCTL_GO (R432). Start of an edge-group personality switch. -/
  | egctlGo (n : Nat) (v : Dword)
  /-- EDGE_DRAIN_END (R432). End of the DRAIN step when no request is open or 200 µs pass. -/
  | edgeDrainEnd (n : Nat) (opens : List Nat)
  /-- QUIESCE_END (R432). End of QUIESCE once window invalidations complete. -/
  | quiesceEnd (n : Nat)
  /-- RETRAIN_END (R432). Link up or failure at the end of RETRAIN. -/
  | retrainEnd (n : Nat) (up : Bool)
  /-- EDGE_READY (R432). Root monitor write of STEP READY, setting the readiness bit. -/
  | edgeReady (n : Nat)
  /-- PLANE_MAP_UPDATE (R434). Application of a broadcast plane-map change. -/
  | planeMapUpdate (dev : Nat) (planes : (BitVec 128))
  /-- PACKET_RELAY (R437). Relay of a packet whose destination is another device. -/
  | packetRelay (p : Packet)
  /-- RELAY_DROP (R437). Drop after 1 ms of a packet whose destination lost every plane. -/
  | relayDrop (p : Packet)
  /-- QUICK_SAMPLE (R442). Ten-second sample of an island's monitors. -/
  | quickSample (isl : Nat) (margin : Nat) (vmv : (BitVec 16))
  /-- FULL_SWEEP (R440). Hourly sweep of an island's operating points. -/
  | fullSweep (isl : Nat) (fmax : Nat) (table : List (BitVec 16)) (allPass : Bool)
  /-- CLK_STEP (R441). Change of an island's clk by one 25 MHz step. -/
  | clkStep (isl : Nat) (up : Bool)
  /-- PISL_WRITE (R442). Root monitor write of an island's guard band or frequency cap. -/
  | pislWrite (isl : Nat) (v : Dword)
  /-- POWER_ON_RESET (R447). Power-on reset clearing the readiness map. -/
  | powerOnReset
  /-- SELF_TEST_DONE (R447). End of a function's self-test setting or leaving clear its readiness bit. -/
  | selfTestDone (bit : Nat) (pass : Bool)
  /-- CORESPARE (R451). Root monitor replacement of a failed core by a spare. -/
  | coreSpare (core : Nat) (phys : Nat) (trusted : Bool)
  /-- RECOVER (R452). Root monitor recovery after a halt, ending with the RECOVER event. -/
  | recover (part : Nat)
  /-- NOP (R425). Service call that does nothing. -/
  | svcNop (part : Nat)
  /-- MINT (R425). Service call minting a queue handle. -/
  | svcMint (part : Nat)
  /-- QCMD (R425). Service call writing a command to a QC port. -/
  | svcQcmd (part : Nat)
  /-- LOAD (R401). Service call verifying and mapping a signed executable. -/
  | svcLoad (part : Nat) (ok : LoadAnswer)
  /-- FETCH (R425). Service request filling a weight slot, then sending RESIDENT. -/
  | svcFetch (part : Nat) (bufAddr : Dword)
  /-- FOPEN (R425). Service call opening a host file. -/
  | svcFopen (part : Nat) (ok : Bool)
  /-- FWRITE (R425). Service call writing to a file, completing when durable. -/
  | svcFwrite (part : Nat) (ok : Bool)
  /-- FREAD (R425). Service call reading from a file. -/
  | svcFread (part : Nat) (ok : Bool) (data : (List (BitVec 8)))
  /-- FCLOSE (R425). Service call closing a file. -/
  | svcFclose (part : Nat)
  /-- RESUME (R425). Service call resuming a parked group. -/
  | svcResume (part : Nat)
  /-- KILL (R425). Service call killing a team. -/
  | svcKill (part : Nat)
  /-- CONTINUE (R294). Debugger resumption of the group of the last stop, passing N-1 breakpoints. -/
  | debugContinue (n : Nat)
  /-- POWER_REMOVAL (R5). Removal of power, ending the power-cycle span and its state. -/
  | powerRemoval
  /-- MANUFACTURE (R453). Manufacture, at which the part generates its Hallmark key pair and receives its lifetime state. -/
  | manufacture (secret : Nat) (cert : (List (BitVec 8))) (config : List (BitVec 8))
  /-- FUNCTION_LOSS (R452). Loss at run time of an HBM4E stack, an edge group or a die, clearing its readiness bit. -/
  | functionLoss (bit : Nat)
  /-- DRAIN_REQUEST_CUTOFF (R432). Expiry of 20 µs into DRAIN, after which the edge group takes no new requests. -/
  | drainRequestCutoff (n : Nat)
  /-- RESERVED_COMMAND (R309). A command-port write whose OP is 6 to 15, dropped with CMD_REFUSED. -/
  | reservedCommand (c : QcCommand) (op : (BitVec 4))
  deriving DecidableEq, Repr

end Sys2Proof
end

