-- ==== Sys2Proof/WellFormed.lean ====
section
/-!
DEFINITION. The static legality of an instruction: every condition of R61 that its fields alone decide, each with
a name. `Instr.illegal` answers the first condition an instruction breaks, `Instr.wellFormed` that it breaks none.
Conditions that depend on the machine (the frame bound of R57, the chain rules of R28, the split's convergence)
are checked where the instruction executes.
-/
namespace Sys2Proof

/-- Why a word is no instruction (R61): the name of the condition it breaks. -/
inductive Illegal
  | reservedOp        -- its op is a reserved cell of R52 or R54
  | extension         -- L disagrees with R41
  | reservedBits      -- a reserved field or bit is nonzero
  | typeCode          -- t outside the instruction's list
  | rounding          -- rnd 111, or rnd where the description requires 000
  | saturation        -- sat where the description requires 0
  | space             -- space 5 or 7, or a space the description does not list
  | scope             -- scope 6 or 7, or a scope where the description requires 0
  | semantics         -- a sem the description does not list
  | sourceKind        -- an sk value the instruction does not list
  | minor             -- a minor or comparison code outside its family
  | special           -- an unlisted special register number, or a write to a read-only one
  | guard             -- g = 0 with gn = 1, or a guard where none may stand
  | latch             -- a latch field with nonzero upper bits
  | oddPair           -- an odd register where a pair, or another multiple, is required
  | predicate         -- a predicate destination outside 1..7, a source outside 0..7
  | destination       -- d or nw nonzero where the instruction has no such destination
  | unused            -- a field that the description requires to be 0 is not
  | parameter         -- a parameter field outside its limits
  | matrixField       -- fb, mrows, kfrac, mode, fin, sp, row outside R47 and R141
  deriving DecidableEq, Repr

namespace Ty
/-- The code of a type (R48). -/
def toBits : Ty → BitVec 4
  | b32 => 0 | u32 => 1 | i64 => 2 | u64 => 3 | f32 => 4 | f64 => 5 | f16 => 6 | bf16 => 7
  | f16x2 => 8 | bf16x2 => 9 | i16x2 => 10 | i8x4 => 11 | e4m3x4 => 12 | e5m2x4 => 13 | e2m1x8 => 14 | bfp => 15

/-- Types that occupy register pairs (R48). -/
def wide : Ty → Bool
  | i64 | u64 | f64 => true
  | _ => false

/-- The access size in bytes (R244). -/
def size : Ty → Nat
  | i64 | u64 | f64 => 8
  | f16 | bf16 => 2
  | _ => 4
end Ty

/-- `req b r` demands `b`, and names the broken condition `r` where it fails. -/
def req (b : Bool) (r : Illegal) : Option Illegal := if b then none else some r

/-- The first broken condition of a list. -/
def firstIllegal : List (Option Illegal) → Option Illegal
  | [] => none
  | some r :: _ => some r
  | none :: rest => firstIllegal rest

namespace WellFormed

/-- An even register number (R57). -/
def even (r : BitVec 6) : Bool := r.getLsbD 0 == false

/-- R40: a guard negation needs a guard. -/
def gnOk (g : BitVec 3) (gn : Bool) : Option Illegal := req (!(gn && g == 0)) .guard

/-- R38: the latch fields that sk selects have bits [5:2] zero. -/
def latches (w : LaneShort) : Option Illegal :=
  req (!(w.sk == 1 && w.a.extractLsb' 2 4 != 0) && !(w.sk == 2 && w.b.extractLsb' 2 4 != 0)) .latch

/-- R27, R57: a lane destination of the given width; nw = 1 is encoded with d = 0. -/
def laneDst (w : LaneShort) (wide : Bool) : Option Illegal :=
  firstIllegal [req (!(w.nw && w.d != 0)) .destination, req (!wide || even w.d) .oddPair]

/-- R57: an instruction with no lane destination. -/
def noDst (w : LaneShort) : Option Illegal := req (w.d == 0 && !w.nw) .destination

/-- R57: a predicate destination in d, 1 to 7, with nw = 0. -/
def predDst (w : LaneShort) : Option Illegal :=
  firstIllegal [req (w.d != 0 && w.d.extractLsb' 3 3 == 0) .predicate, req (!w.nw) .destination]

/-- Source a of a wide read is an even register unless it is a latch (R91, R109). -/
def srcA (w : LaneShort) (wide : Bool) : Option Illegal := req (!wide || w.sk == 1 || even w.a) .oddPair

/-- Source b of a wide read is an even register when it is a lane register (R91, R109). -/
def srcB (w : LaneShort) (wide : Bool) : Option Illegal :=
  req (!wide || w.sk == 2 || w.sk == 3 || even w.b) .oddPair

/-- The fields of a 2S extension word (R42): imm16 replaces source b, or c, xc and [15:0] are 0. -/
def class2S (w : LaneShort) (e : EA) : Option Illegal :=
  firstIllegal
    [ req (e.c == 0) .unused
    , if e.xc then firstIllegal [req (w.b == 0) .unused, req (w.sk == 0 || w.sk == 1) .sourceKind]
      else req (e.imm == 0) .unused ]

/-- The third source of a 3S extension word (R42): an even register when wide, or a latch 0 to 3. -/
def class3S (e : EA) (wide : Bool) : Option Illegal :=
  if e.xc then req (e.c.extractLsb' 2 4 == 0) .latch else req (!wide || even e.c) .oddPair

/-- c = 0 and xc = 0 (classes P and M, R42). -/
def noC (e : EA) : Option Illegal := req (e.c == 0 && !e.xc) .unused

/-- rnd 000 and sat 0 where the description allows neither. -/
def noRnd (e : EA) : Option Illegal := req (e.rnd == .mode) .rounding
def noSat (e : EA) : Option Illegal := req (!e.sat) .saturation

/-- The minor of an M-class word (R42). -/
def minorOf (e : EA) : BitVec 4 := e.imm.extractLsb' 12 4

/-- The minor is the one the constructor stands for, and EA [11:0] is 0. -/
def minorIs (e : EA) (m : BitVec 4) : Option Illegal :=
  firstIllegal [req (minorOf e == m) .minor, req (e.imm.extractLsb' 0 12 == 0) .unused]

/-- Source b unused: b = 0 and sk 00 or 01. -/
def onlyA (w : LaneShort) : Option Illegal :=
  firstIllegal [req (w.b == 0) .unused, req (w.sk == 0 || w.sk == 1) .sourceKind]

/-- Integer types of R94 and R96. -/
def intTy : Ty → Bool
  | .b32 | .u32 | .i64 | .u64 | .i16x2 | .i8x4 => true
  | _ => false
/-- The scalar integer types t 0 to 3. -/
def scalarInt : Ty → Bool
  | .b32 | .u32 | .i64 | .u64 => true
  | _ => false
/-- The float types t 4 to 9 of R111. -/
def floatTy : Ty → Bool
  | .f32 | .f64 | .f16 | .bf16 | .f16x2 | .bf16x2 => true
  | _ => false

/-- The short form of a two-source instruction of default type: 32-bit sources and destination. -/
def short2S (w : LaneShort) : Option Illegal := firstIllegal [latches w, laneDst w false]

/-- R94: the integer arithmetic of class 2S with an extension word. -/
def int2S (satOk : Bool) (w : LaneShort) (e : EA) : Option Illegal :=
  firstIllegal
    [ gnOk w.g e.gn, req (intTy e.t) .typeCode, noRnd e, req (satOk || !e.sat) .saturation, latches w, class2S w e
    , laneDst w e.t.wide, srcA w e.t.wide, if e.xc then none else srcB w e.t.wide ]

/-- R95: logic (`count` false) and shifts (`count` true, whose count needs no pair). -/
def logic2S (count : Bool) (w : LaneShort) (e : EA) : Option Illegal :=
  firstIllegal
    [ gnOk w.g e.gn, req (scalarInt e.t) .typeCode, noRnd e, noSat e, latches w, class2S w e
    , laneDst w e.t.wide, srcA w e.t.wide, if e.xc || count then none else srcB w e.t.wide ]

/-- R111 to R113: float arithmetic of class 2S; `scale` is `fscl`, whose b is one register. -/
def float2S (rndOk scale : Bool) (w : LaneShort) (e : EA) : Option Illegal :=
  firstIllegal
    [ gnOk w.g e.gn, req (floatTy e.t) .typeCode, if rndOk then none else firstIllegal [noRnd e, noSat e]
    , latches w, class2S w e, laneDst w e.t.wide, srcA w e.t.wide
    , if e.xc || scale then none else srcB w e.t.wide ]

/-- The bit-field parameter of R97 for a word of `width` bits: width field [12:6], lsb [5:0], [15:13] zero. -/
def fieldParam (imm : BitVec 16) (width : Nat) : Option Illegal :=
  let wd := (imm.extractLsb' 6 7).toNat
  let lsb := (imm.extractLsb' 0 6).toNat
  req (imm.extractLsb' 13 3 == 0 && decide (1 ≤ wd) && decide (lsb + wd ≤ width)) .parameter

/-- The select parameter of R100: [15:4] zero. -/
def selParam (imm : BitVec 16) : Option Illegal := req (imm.extractLsb' 4 12 == 0) .parameter

/-- The four selector nibbles of R99 are at most 10. -/
def prmtParam (imm : BitVec 16) : Option Illegal :=
  req ((List.range 4).all fun i => decide ((imm.extractLsb' (4 * i) 4).toNat ≤ 10)) .parameter

/-- The element count of a packed type (R118), 1 for the others. -/
def elems : Ty → Nat
  | .f16x2 | .bf16x2 | .i16x2 => 2
  | .i8x4 | .e4m3x4 | .e5m2x4 => 4
  | .e2m1x8 => 8
  | _ => 1

/-- The type whose code is the given nibble (R48). -/
def tyOfBits (n : BitVec 4) : Ty :=
  match n.toNat with
  | 0 => .b32 | 1 => .u32 | 2 => .i64 | 3 => .u64 | 4 => .f32 | 5 => .f64 | 6 => .f16 | 7 => .bf16
  | 8 => .f16x2 | 9 => .bf16x2 | 10 => .i16x2 | 11 => .i8x4 | 12 => .e4m3x4 | 13 => .e5m2x4 | 14 => .e2m1x8
  | _ => .bfp

/-- The forms of `cvt` (R118). -/
inductive CvtForm
  | scalar | pack | unpack | repack
  deriving DecidableEq, Repr

/-- A scalar type of the `cvt` table: codes 0 to 7. -/
def cvtScalar (t : Ty) : Bool := decide (t.toBits.toNat ≤ 7)
/-- A packed float type of the `cvt` table. -/
def cvtPackedFloat : Ty → Bool
  | .f16x2 | .bf16x2 | .e4m3x4 | .e5m2x4 | .e2m1x8 => true
  | _ => false

/-- The form of the pair (source, destination), where R118 lists one. -/
def cvtForm (ts t : Ty) : Option CvtForm :=
  if cvtScalar ts && cvtScalar t then some .scalar
  else if (ts == .f32 || ts == .f16 || ts == .bf16) && cvtPackedFloat t then some .pack
  else if ts == .b32 && (t == .i16x2 || t == .i8x4) then some .pack
  else if cvtPackedFloat ts && (t == .f32 || t == .f64 || t == .f16 || t == .bf16) then some .unpack
  else if (ts == .i16x2 || ts == .i8x4) && (t == .b32 || t == .f32) then some .unpack
  else if (ts == .f16x2 && t == .bf16x2) || (ts == .bf16x2 && t == .f16x2)
       || (ts == .e4m3x4 && t == .e5m2x4) || (ts == .e5m2x4 && t == .e4m3x4) then some .repack
  else none

/-- R117, R118: the legality of a `cvt`. -/
def cvt (w : LaneShort) (e : EA) : Option Illegal :=
  let ts := tyOfBits (e.imm.extractLsb' 0 4)
  let sel := (e.imm.extractLsb' 4 3).toNat
  firstIllegal
    [ gnOk w.g e.gn, req (e.imm.extractLsb' 7 9 == 0) .parameter, noC e, latches w
    , match cvtForm ts e.t with
      | none => some .typeCode
      | some .scalar => firstIllegal [req (sel == 0) .parameter, onlyA w, srcA w ts.wide, laneDst w e.t.wide]
      | some .pack => firstIllegal [req (decide (2 * sel + 1 < elems e.t)) .parameter, laneDst w false]
      | some .unpack => firstIllegal [req (decide (sel < elems ts)) .parameter, onlyA w, laneDst w e.t.wide]
      | some .repack => firstIllegal [req (sel == 0) .parameter, onlyA w, laneDst w false] ]

/-- R123: the fields of `shfl`. -/
def shfl (w : LaneShort) (e : EA) : Option Illegal :=
  let edge := e.imm.extractLsb' 9 2
  let seg := (e.imm.extractLsb' 6 3).toNat
  let imm := e.imm.getLsbD 5
  firstIllegal
    [ gnOk w.g e.gn, req (e.t == .b32 || e.t == .u64) .typeCode, noRnd e, noSat e, noC e
    , req (decide ((minorOf e).toNat ≤ 3)) .minor
    , req (!e.imm.getLsbD 11 && edge != 3 && decide (seg ≤ 4)) .parameter
    , latches w, laneDst w e.t.wide, srcA w e.t.wide
    , if imm then onlyA w else req (e.imm.extractLsb' 0 5 == 0) .unused ]

/-- R124: the fields of `vote`. -/
def vote (w : LaneShort) (e : EA) : Option Illegal :=
  firstIllegal
    [ gnOk w.g e.gn, noRnd e, noSat e, noC e, req (!w.nw) .destination, req (decide ((minorOf e).toNat ≤ 4)) .minor
    , if minorOf e == 4 then
        firstIllegal [ req (e.t == .b32 || e.t == .u64) .typeCode, onlyA w, latches w, srcA w e.t.wide
                     , req (e.imm.extractLsb' 0 12 == 0) .unused ]
      else
        firstIllegal [ req (e.t == .b32) .typeCode, req (w.sk == 0) .sourceKind, req (w.b == 0) .unused
                     , req (w.a.extractLsb' 3 3 == 0) .predicate, req (e.imm.extractLsb' 1 11 == 0) .unused ] ]

/-- R125: the fields of `redux`. -/
def redux (w : LaneShort) (e : EA) : Option Illegal :=
  let m := (minorOf e).toNat
  firstIllegal
    [ gnOk w.g e.gn, noC e, req (!w.nw) .destination, req (decide (m ≤ 5)) .minor
    , req (e.imm.extractLsb' 0 12 == 0) .unused, onlyA w, latches w, srcA w e.t.wide
    , req (scalarInt e.t || (e.t == .f32 && decide (m ≤ 2))) .typeCode
    , req (!e.sat || (scalarInt e.t && m == 0)) .saturation
    , req (e.rnd == .mode || (e.t == .f32 && m == 0)) .rounding ]

/-- R126: the fields of `scan`. -/
def scan (w : LaneShort) (e : EA) : Option Illegal :=
  let op := (e.imm.extractLsb' 8 4).toNat
  firstIllegal
    [ gnOk w.g e.gn, noC e, noRnd e, req (decide ((minorOf e).toNat ≤ 1)) .minor, req (decide (op ≤ 5)) .parameter
    , req (e.imm.extractLsb' 0 8 == 0) .unused, req (scalarInt e.t) .typeCode
    , req (!e.sat || op == 0) .saturation, req (w.sk != 2) .sourceKind
    , if w.sk == 3 then none else req (w.b == 0) .unused
    , latches w, laneDst w e.t.wide, srcA w e.t.wide ]

/-- R218: the fields of `relbl`. -/
def relbl (w : LaneShort) (e : EA) : Option Illegal :=
  firstIllegal
    [ gnOk w.g e.gn, req (e.t == .b32) .typeCode, noRnd e, noSat e, noC e, predDst w, onlyA w, latches w
    , req (e.imm.extractLsb' 2 14 == 0) .unused, req (e.imm.extractLsb' 0 2 != 3) .parameter ]

/-- R221: the fields of `item`; `pred` when d is a predicate, `queue` when c names a handle register. -/
def item (m : BitVec 4) (pred queue ab : Bool) (w : LaneShort) (e : EA) : Option Illegal :=
  firstIllegal
    [ gnOk w.g e.gn, req (e.t == .b32) .typeCode, noRnd e, noSat e, req (!e.xc) .unused, minorIs e m
    , if pred then predDst w else noDst w, req (w.sk == 0) .sourceKind
    , req (ab || (w.a == 0 && w.b == 0)) .unused, req (queue || e.c == 0) .unused ]

/-- R167, R168: the type and common fields of the ranked-list lane instructions. -/
def ranked (w : LaneShort) (e : EA) : Option Illegal :=
  firstIllegal
    [ gnOk w.g e.gn, req (e.t == .b32 || e.t == .f32 || e.t == .bf16) .typeCode, noRnd e, noSat e, noC e
    , req (!w.nw) .destination, latches w ]

/-- R168: the parameter of `rkins` and its list registers. -/
def rkins (w : LaneShort) (e : EA) : Option Illegal :=
  let k := (e.imm.extractLsb' 0 4).toNat
  firstIllegal
    [ ranked w e, req (e.imm.extractLsb' 7 9 == 0 && decide (1 ≤ k) && decide (k ≤ 8)) .parameter
    , req (even w.d) .oddPair ]

/-- R45: the latch fields of a lane EM instruction; the lane-pair form has a even and c = 0. -/
def emAddr (w : LaneShort) (e : EM) : Option Illegal :=
  firstIllegal [ latches w, if w.sk == 3 then firstIllegal [req (even w.a) .oddPair, req (e.c == 0) .unused] else none ]

/-- Types 0 to 14. -/
def anyData : Ty → Bool
  | .bfp => false
  | _ => true

/-- Spaces 0 to 4 (R244). -/
def dataSpace : Space → Bool
  | .param => false
  | _ => true
/-- Spaces 0 to 3 (R248, R287). -/
def sharedSpace : Space → Bool
  | .global | .team | .cluster | .scratch => true
  | _ => false

/-- R149: `lda` and `sta`. -/
def acc (store : Bool) (w : LaneShort) (e : EM) : Option Illegal :=
  firstIllegal
    [ gnOk w.g e.gn, req (e.space == .global) .space, req (e.t == .b32 || e.t == .u32 || e.t == .f32) .typeCode, emAddr w e
    , if store then firstIllegal [noDst w, req (e.sem == .rlx || e.sem == .rel) .semantics]
      else firstIllegal [ laneDst w false, req (w.b == 0) .unused, req (w.sk != 2) .sourceKind
                        , req (e.sem == .rlx) .semantics, req (e.scope == .grp) .scope, req (!e.ord) .reservedBits ] ]

/-- R244: `ld`. -/
def ld (w : LaneShort) (e : EM) : Option Illegal :=
  firstIllegal
    [ gnOk w.g e.gn, req (dataSpace e.space) .space, req (anyData e.t) .typeCode, emAddr w e, laneDst w e.t.wide
    , req (w.b == 0) .unused, req (w.sk != 2) .sourceKind, req (e.sem == .rlx || e.sem == .acq) .semantics
    , req (!e.ord) .reservedBits ]

/-- R244: `st`. -/
def st (w : LaneShort) (e : EM) : Option Illegal :=
  firstIllegal
    [ gnOk w.g e.gn, req (dataSpace e.space) .space, req (anyData e.t) .typeCode, emAddr w e, noDst w
    , req (!e.t.wide || w.sk == 2 || even w.b) .oddPair, req (e.sem == .rlx || e.sem == .rel) .semantics ]

/-- R247: `ldk`. -/
def ldk (w : LaneShort) (e : EM) : Option Illegal :=
  firstIllegal
    [ gnOk w.g e.gn, req (e.space == .param) .space, req (anyData e.t) .typeCode, latches w, laneDst w e.t.wide
    , req (w.b == 0) .unused, req (w.sk == 0 || w.sk == 1) .sourceKind, req (e.sem == .rlx) .semantics
    , req (e.scope == .grp) .scope, req (!e.ord) .reservedBits, req (e.c.extractLsb' 3 3 == 0) .parameter ]

/-- R248: `ldc` and `stc`. -/
def tile (store : Bool) (w : LaneShort) (e : EM) : Option Illegal :=
  firstIllegal
    [ req (w.b.extractLsb' 4 2 == 0) .parameter, req (w.sk == 0) .sourceKind, req (!w.nw) .destination
    , req (w.g == 0 && !e.gn) .guard, req (sharedSpace e.space) .space, req (e.t == .b32) .typeCode
    , req (!e.ord) .reservedBits
    , req (e.sem == .rlx || e.sem == (if store then .rel else .acq)) .semantics ]

/-- R252: `cpl`. -/
def cpl (w : LaneShort) (e : EM) : Option Illegal :=
  let kind := w.d.extractLsb' 0 2
  firstIllegal
    [ gnOk w.g e.gn, req (w.d.extractLsb' 4 2 == 0 && w.d.extractLsb' 2 2 != 3 && kind != 3) .parameter
    , req (!w.nw) .destination, req (w.sk != 2) .sourceKind, emAddr w e, req (e.t == .b32) .typeCode
    , req (!e.ord) .reservedBits, req (e.sem == .rlx) .semantics, req (e.scope == .grp) .scope
    , req (e.space == .global || e.space == .cluster || e.space == .scratch) .space
    , req (kind != 0 || e.offset.extractLsb' 6 6 == 0) .unused ]

/-- R287: which types each minor of `atom` accepts. -/
def atomTy (minor : BitVec 4) (t : Ty) : Bool :=
  match minor.toNat with
  | 0 | 1 | 2 | 3 | 4 | 5 => scalarInt t
  | 6 => scalarInt t || t == .f32
  | 7 => t == .u32
  | 8 => t == .f32 || t == .bf16x2
  | _ => false

/-- R287: `atom`. -/
def atom (w : LaneShort) (e : EM) : Option Illegal :=
  let m := e.offset.extractLsb' 8 4
  firstIllegal
    [ gnOk w.g e.gn, req (sharedSpace e.space) .space, req (decide (m.toNat ≤ 8)) .minor, req (atomTy m e.t) .typeCode
    , emAddr w e, laneDst w e.t.wide, req (!e.t.wide || w.sk == 2 || even w.b) .oddPair, req (!e.ord) .reservedBits ]

/-- R289: `atomc`. -/
def atomc (w : LaneShort) (e : EM) : Option Illegal :=
  firstIllegal
    [ gnOk w.g e.gn, req (sharedSpace e.space) .space, req (scalarInt e.t) .typeCode, emAddr w e
    , req (!w.nw) .destination, req (!e.t.wide || even w.d) .oddPair
    , req (!e.t.wide || w.sk == 2 || even w.b) .oddPair, req (!e.ord) .reservedBits ]

/-- R310: the fields common to the queue instructions. -/
def queueOp (w : LaneShort) (e : EM) : Option Illegal :=
  firstIllegal
    [ gnOk w.g e.gn, req (e.space == .global) .space, req (e.t == .b32) .typeCode, req (!e.ord) .reservedBits
    , req (w.sk == 0) .sourceKind, req (!w.nw) .destination
    , req (w.a != 0 && w.a.extractLsb' 3 3 == 0) .predicate ]

/-- R310: `qenq`. -/
def qenq (w : LaneShort) (e : EM) : Option Illegal :=
  firstIllegal
    [ queueOp w e, req (w.d == 0) .destination, req (w.b.extractLsb' 0 2 == 0) .oddPair
    , req (e.sem == .rlx || e.sem == .rel) .semantics, req (e.offset.extractLsb' 1 11 == 0) .unused ]

/-- R310: `qdeq` and `qsteal`. -/
def qdeq (w : LaneShort) (e : EM) : Option Illegal :=
  firstIllegal
    [ queueOp w e, req (w.d.extractLsb' 0 2 == 0) .oddPair, req (w.b == 0) .unused
    , req (e.sem == .rlx || e.sem == .acq) .semantics, req (e.offset == 0) .unused ]

/-- R47, R141: the fields of a matrix instruction; `sp` is the flag the op requires. -/
def matrix (sp : Bool) (w : LaneShort) (e : EX) : Option Illegal :=
  let rows := if e.mrows == 0 then 64 else if e.mrows == 1 then 32 else 16
  firstIllegal
    [ req (w.sk == 0) .sourceKind, req (!w.nw) .destination, req (w.g == 0) .guard
    , req (w.d.extractLsb' 2 3 == 0) .reservedBits, req (e.mode == 1 || w.d.extractLsb' 0 2 == 0) .matrixField
    , req (w.a.extractLsb' 0 3 == 0) .oddPair, req (e.fb.extractLsb' 0 2 == 0) .matrixField
    , req (e.mrows != 3 && e.kfrac != 3 && e.mode != 3) .matrixField
    , req (e.row.extractLsb' 0 4 == 0 && decide (e.row.toNat + rows ≤ 64)) .matrixField
    , req (e.sp == sp) .matrixField ]

/-- R161: `mrk`: quad or solo, and fin only in quad mode. -/
def mrk (w : LaneShort) (e : EX) : Option Illegal :=
  firstIllegal [matrix false w e, req (e.mode != 2 && !(e.fin && e.mode == 1)) .matrixField]

/-- A special register number that R55 lists. -/
def special (a : BitVec 6) : Option Illegal := req (decide (a.toNat ≤ 15)) .special

/-- A special register that R55 marks RW. -/
def writable (a : BitVec 6) : Bool := a == 0 || a == 3 || a == 6 || a == 9 || a == 10

/-- Uniform sources under R39: sk is not 11, and a special number is a listed one. -/
def uniSrc (w : UniShort) : Option Illegal :=
  firstIllegal [req (w.sk != 3) .sourceKind, if w.sk == 2 then special w.a else none]

/-- R105: a uniform EI instruction with its immediate word. -/
def uniEI (w : UniShort) : Option Illegal :=
  firstIllegal
    [req (w.sk == 0 || w.sk == 2) .sourceKind, req (w.b == 0) .unused, if w.sk == 2 then special w.a else none]

/-- The fields of a uniform EA word that carries nothing but its minor and parameter. -/
def uniEA (w : UniShort) (e : EA) : Option Illegal :=
  firstIllegal [gnOk w.g e.gn, noRnd e, noSat e]

/-- R148 and others: a uniform EA instruction of type 0 with c = xc = 0. -/
def uniPlain (w : UniShort) (e : EA) : Option Illegal :=
  firstIllegal [uniEA w e, req (e.t == .b32) .typeCode, noC e]

/-- d, a, b are 0 and sk is 00, where the instruction has no operands. -/
def uniNone (w : UniShort) : Option Illegal :=
  firstIllegal [req (w.d == 0 && w.a == 0 && w.b == 0) .unused, req (w.sk == 0) .sourceKind]

/-- A tile or count operand (R148): the immediate b with a = 0, or S[a] with b = 0. -/
def tileOperand (w : UniShort) (lo hi : Nat) : Option Illegal :=
  if w.sk == 1 then firstIllegal [req (w.a == 0) .unused, req (decide (lo ≤ w.b.toNat) && decide (w.b.toNat ≤ hi)) .parameter]
  else if w.sk == 0 then req (w.b == 0) .unused
  else some .sourceKind

/-- R233: the fields of `bar`; `lnOk` where `.lanes` may stand. -/
def bar (m : BitVec 4) (lnOk : Bool) (w : UniShort) (e : EA) : Option Illegal :=
  firstIllegal
    [ uniPlain w e, req (!e.gn) .guard, req (minorOf e == m) .minor
    , req (!e.imm.getLsbD 11) .reservedBits, req (lnOk || !e.imm.getLsbD 10) .unused ]

/-- R234: the operand value of `init`, `arrive`, `arrwait` and `expect`. -/
def barValue (lanes : Bool) (w : UniShort) : Option Illegal :=
  if lanes then firstIllegal [req (w.a == 0 && w.b == 0) .unused, req (w.sk == 0) .sourceKind]
  else if w.sk == 0 then req (w.b == 0) .unused
  else if w.sk == 1 then req (w.a == 0) .unused
  else some .sourceKind

/-- R290: the fields of `fence`. -/
def fence (m : BitVec 4) (w : UniShort) (e : EA) : Option Illegal :=
  firstIllegal
    [ uniPlain w e, req (!e.gn) .guard, uniNone w, req (minorOf e == m) .minor
    , req (e.imm.extractLsb' 3 9 == 0) .unused, req (decide ((e.imm.extractLsb' 0 3).toNat ≤ 5)) .scope ]

/-- R329: `rlog`; `src` when c names a buffer, `dst` when d is a result. -/
def rlog (m : BitVec 4) (dst src : Bool) (w : UniShort) (e : EA) : Option Illegal :=
  firstIllegal
    [ uniEA w e, req (e.t == .b32) .typeCode, req (!e.xc) .unused, minorIs e m, req (w.sk == 0) .sourceKind
    , req (dst || w.d == 0) .unused, req (src || e.c == 0) .unused ]

/-- R330: `pipe`. -/
def pipe (m : BitVec 4) (w : UniShort) (e : EA) : Option Illegal :=
  firstIllegal
    [ uniEA w e, req (e.t == .b32) .typeCode, req (!e.xc) .unused, minorIs e m, req (w.sk == 0) .sourceKind
    , req (w.d == 0 && w.b == 0) .unused ]

/-- R388: `hcoh`. -/
def hcoh (m : BitVec 4) (w : UniShort) (e : EA) : Option Illegal :=
  firstIllegal
    [uniPlain w e, req (!e.gn) .guard, minorIs e m, req (w.d == 0) .unused, req (w.sk == 0) .sourceKind]

/-- R377: the fields common to `ctx`; `ld` is EA [0]. -/
def ctx (m : BitVec 4) (ld : Bool) (w : UniShort) (e : EA) : Option Illegal :=
  firstIllegal
    [ uniPlain w e, req (!e.gn) .guard, req (w.d == 0) .unused, req (minorOf e == m) .minor
    , req (e.imm.extractLsb' 1 11 == 0 && e.imm.getLsbD 0 == ld) .unused ]

/-- R46: EB fields of `bra` and `call`: g = 0, no operands. -/
def eb (w : UniShort) : Option Illegal :=
  firstIllegal [req (w.g == 0) .guard, req (w.a == 0 && w.b == 0) .unused, req (w.sk == 0) .sourceKind]

/-- R259: `msig` and `mwait`. -/
def counter (w : UniShort) (e : EM) (sem : Sem) : Option Illegal :=
  firstIllegal
    [ gnOk w.g e.gn, req (sharedSpace e.space) .space, req (e.t == .u64) .typeCode, req (!e.ord) .reservedBits
    , req (w.a == 0) .unused, req (w.sk == 0 || w.sk == 1) .sourceKind, req (e.sem == .rlx || e.sem == sem) .semantics ]

/-- R159: the `rkcfg` parameter: [14:12] zero. -/
def rkcfgParam (imm : BitVec 16) : Option Illegal := req (imm.extractLsb' 12 3 == 0) .parameter

/-- A word whose op is a reserved cell of R52 or R54; bit 31 selects the grid (R35). -/
def reservedCell (w : Word) : Bool :=
  let op := (w.extractLsb' 24 6).toNat
  if w.getLsbD 31 then op == 46 || op == 47 || decide (54 ≤ op) else op == 55 || decide (60 ≤ op)

end WellFormed

open WellFormed in
/-- The first condition of R61 that an instruction's fields break, or none. Events have no fields of a word and
break none; a `reservedOp` holds a word whose op is a reserved cell, with the word after it when L = 1. `unwind #n` with a other
than 0 is illegal, as an unused field is (R61); R200 names no value for a in that form (DEDUCED, log 142). -/
def Instr.illegal : Instr → Option Illegal
  | .iadd w | .isub w | .imul w | .imin w | .imax w | .and w | .or w | .xor w | .shl w | .shr w | .sha w => short2S w
  | .fadd w | .fsub w | .fmul w | .fmin w | .fmax w | .fscl w => short2S w
  | .mov w =>
    firstIllegal
      [ latches w, laneDst w false
      , if w.sk == 3 then req (w.a == 0) .unused else if w.sk == 2 then some .sourceKind else req (w.b == 0) .unused ]
  | .vsr w =>
    firstIllegal
      [ req (w.sk == 0) .sourceKind, req (w.b == 0) .unused, req (decide (w.a.toNat ≤ 4)) .special
      , laneDst w (w.a == 4) ]
  | .iaddExt w e | .isubExt w e | .imulExt w e => int2S true w e
  | .iminExt w e | .imaxExt w e => int2S false w e
  | .andExt w e | .orExt w e | .xorExt w e => logic2S false w e
  | .shlExt w e | .shrExt w e | .shaExt w e => logic2S true w e
  | .imad w e =>
    firstIllegal
      [ gnOk w.g e.gn, req (intTy e.t) .typeCode, noRnd e, latches w, req (e.imm == 0) .unused, class3S e e.t.wide
      , laneDst w e.t.wide, srcA w e.t.wide, srcB w e.t.wide ]
  | .imadw w e =>
    firstIllegal
      [ gnOk w.g e.gn, req (e.t == .b32 || e.t == .u32) .typeCode, noRnd e, latches w, req (e.imm == 0) .unused
      , class3S e true, laneDst w true ]
  | .lop3 w e =>
    firstIllegal
      [ gnOk w.g e.gn, req (e.t == .b32 || e.t == .u64) .typeCode, noRnd e, noSat e, latches w
      , req (e.imm.extractLsb' 0 8 == 0) .unused, class3S e e.t.wide, laneDst w e.t.wide, srcA w e.t.wide
      , srcB w e.t.wide ]
  | .bfx w e =>
    firstIllegal
      [ gnOk w.g e.gn, req (scalarInt e.t) .typeCode, noRnd e, noSat e, noC e, latches w, onlyA w
      , fieldParam e.imm (8 * e.t.size), laneDst w e.t.wide, srcA w e.t.wide ]
  | .bfi w e =>
    firstIllegal
      [ gnOk w.g e.gn, req (scalarInt e.t) .typeCode, noRnd e, noSat e, noC e, latches w
      , fieldParam e.imm (8 * e.t.size), laneDst w e.t.wide, srcA w e.t.wide, srcB w e.t.wide ]
  | .ibit w e =>
    firstIllegal
      [ gnOk w.g e.gn, req (e.t == .b32 || e.t == .u64) .typeCode, noRnd e, noSat e, noC e, latches w, onlyA w
      , req (decide ((minorOf e).toNat ≤ 3)) .minor, req (e.imm.extractLsb' 0 12 == 0) .unused
      , laneDst w (e.t.wide && minorOf e == 3), srcA w e.t.wide ]
  | .prmt w e =>
    firstIllegal
      [ gnOk w.g e.gn, req (e.t == .b32) .typeCode, noRnd e, noSat e, noC e, latches w, prmtParam e.imm, laneDst w false ]
  | .sel w e =>
    firstIllegal
      [ gnOk w.g e.gn, req (scalarInt e.t) .typeCode, noRnd e, noSat e, noC e, latches w, selParam e.imm
      , laneDst w e.t.wide, srcA w e.t.wide, srcB w e.t.wide ]
  | .icmp w e =>
    firstIllegal
      [ gnOk w.g e.gn, req (scalarInt e.t) .typeCode, noRnd e, noSat e, noC e, latches w
      , req (decide ((minorOf e).toNat ≤ 5)) .minor, req (e.imm.extractLsb' 0 12 == 0) .unused, predDst w
      , srcA w e.t.wide, srcB w e.t.wide ]
  | .pset w e =>
    firstIllegal
      [ gnOk w.g e.gn, req (e.t == .b32) .typeCode, noRnd e, noSat e, noC e, req (w.sk == 0) .sourceKind
      , req (decide ((minorOf e).toNat ≤ 3)) .minor, req (e.imm.extractLsb' 2 10 == 0) .unused, predDst w
      , req (w.a.extractLsb' 3 3 == 0 && w.b.extractLsb' 3 3 == 0) .predicate ]
  | .pmovReg w e =>
    firstIllegal
      [ gnOk w.g e.gn, req (e.t == .b32) .typeCode, noRnd e, noSat e, noC e, req (w.sk == 0) .sourceKind
      , req (w.a == 0 && w.b == 0) .unused, minorIs e 0, laneDst w false ]
  | .pmovPred w e =>
    firstIllegal
      [ gnOk w.g e.gn, req (e.t == .b32) .typeCode, noRnd e, noSat e, noC e, latches w, onlyA w, noDst w
      , req (minorOf e == 1) .minor, req (e.imm.extractLsb' 8 4 == 0 && !e.imm.getLsbD 0) .parameter ]
  | .faddExt w e | .fsubExt w e | .fmulExt w e => float2S true false w e
  | .fminExt w e | .fmaxExt w e => float2S false false w e
  | .fsclExt w e => float2S true true w e
  | .ffma w e =>
    firstIllegal
      [ gnOk w.g e.gn, req (floatTy e.t) .typeCode, latches w, req (e.imm == 0) .unused, class3S e e.t.wide
      , laneDst w e.t.wide, srcA w e.t.wide, srcB w e.t.wide ]
  | .fcmp w e =>
    firstIllegal
      [ gnOk w.g e.gn, req (e.t == .f32 || e.t == .f64 || e.t == .f16 || e.t == .bf16) .typeCode, noRnd e, noSat e, noC e
      , latches w, req (decide ((minorOf e).toNat ≤ 13)) .minor, req (e.imm.extractLsb' 0 12 == 0) .unused, predDst w
      , srcA w e.t.wide, srcB w e.t.wide ]
  | .fsf w e =>
    firstIllegal
      [ gnOk w.g e.gn, req (e.t == .f32 || e.t == .f16 || e.t == .bf16) .typeCode, noC e, latches w, onlyA w
      , req (decide ((minorOf e).toNat ≤ 7)) .minor, req (e.imm.extractLsb' 0 12 == 0) .unused, laneDst w false
      , req (e.rnd == .mode || minorOf e == 0 || minorOf e == 2) .rounding ]
  | .cvt w e => WellFormed.cvt w e
  | .dot w e =>
    firstIllegal
      [ gnOk w.g e.gn
      , req (e.t == .f16x2 || e.t == .bf16x2 || e.t == .e4m3x4 || e.t == .e5m2x4 || e.t == .i16x2 || e.t == .i8x4) .typeCode
      , req (e.rnd == .mode || !(e.t == .i16x2 || e.t == .i8x4)) .rounding, latches w, req (e.imm == 0) .unused
      , class3S e false, laneDst w false ]
  | .shfl w e => WellFormed.shfl w e
  | .vote w e => WellFormed.vote w e
  | .redux w e => WellFormed.redux w e
  | .scan w e => WellFormed.scan w e
  | .rkadm w e => firstIllegal [ranked w e, req (e.imm.extractLsb' 1 15 == 0) .unused, predDst w]
  | .rkins w e => WellFormed.rkins w e
  | .relbl w e => WellFormed.relbl w e
  | .itemDone w e => item 0 false false false w e
  | .itemSkip w e => item 1 false true true w e
  | .itemYield w e => item 2 true false false w e
  | .itemDefer w e => item 3 false true false w e
  | .movImm w _ =>
    firstIllegal [req (w.sk == 0) .sourceKind, req (w.a == 0 && w.b == 0) .unused, laneDst w false]
  | .lda w e => acc false w e
  | .sta w e => acc true w e
  | .ld w e => WellFormed.ld w e
  | .st w e => WellFormed.st w e
  | .ldk w e => WellFormed.ldk w e
  | .ldc w e => tile false w e
  | .stc w e => tile true w e
  | .cpl w e => WellFormed.cpl w e
  | .atom w e => WellFormed.atom w e
  | .atomc w e => WellFormed.atomc w e
  | .qenq w e => WellFormed.qenq w e
  | .qdeq w e | .qsteal w e => WellFormed.qdeq w e
  | .mma w e => firstIllegal [matrix false w e, req (!e.fin) .matrixField]
  | .mms w e => firstIllegal [matrix true w e, req (!e.fin) .matrixField]
  | .mrk w e => WellFormed.mrk w e
  | .uadd w | .usub w | .umul w | .umin w | .umax w | .uand w | .uor w | .uxor w | .ushl w | .ushr w | .usha w => uniSrc w
  | .umov w =>
    firstIllegal
      [ req (w.sk != 3) .sourceKind
      , if w.sk == 2 then firstIllegal [special w.a, req (w.b == 0) .unused] else req (w.a == 0) .unused ]
  | .uaddExt w _ | .usubExt w _ | .umulExt w _ | .uminExt w _ | .umaxExt w _ | .uandExt w _ | .uorExt w _ | .uxorExt w _
  | .ushlExt w _ | .ushrExt w _ | .ushaExt w _ => uniEI w
  | .umovExt w _ =>
    firstIllegal [req (w.sk == 0) .sourceKind, req (w.b == 0 && w.a == 0) .unused]
  | .brx w => firstIllegal [req (w.d == 0 && w.b == 0) .unused, req (w.sk == 0) .sourceKind]
  | .callx w =>
    firstIllegal [req (w.b == 0) .unused, req (w.sk == 0) .sourceKind, req (!w.d.getLsbD 0) .reservedBits]
  | .ret w => uniNone w
  | .unwind w =>
    firstIllegal
      [ req (w.d == 0) .unused
      , if w.sk == 1 then firstIllegal [req (w.a == 0) .unused, req (w.b != 0) .parameter]
        else if w.sk == 0 then req (w.b == 0) .unused else some .sourceKind ]
  | .rcv w => firstIllegal [uniNone w, req (w.g == 0) .guard]
  | .exit w => uniNone w
  | .waitc w =>
    firstIllegal
      [ req (w.d == 0) .unused, req (decide (w.a.toNat ≤ 4)) .parameter
      , req (w.sk == 0 || w.sk == 1) .sourceKind ]
  | .cpb w =>
    firstIllegal
      [ req (w.b == 0) .unused, req (w.sk == 0) .sourceKind, req (w.a.extractLsb' 0 3 == 0) .oddPair
      , req (w.d.extractLsb' 2 4 == 0) .reservedBits ]
  | .cpclose w => firstIllegal [req (w.a == 0 && w.b == 0) .unused, req (w.sk == 0) .sourceKind]
  | .cpwait w =>
    firstIllegal
      [ req (w.d == 0 && w.b == 0) .unused, req (w.sk == 0 || w.sk == 2) .sourceKind
      , if w.sk == 2 then special w.a else none ]
  | .fres w =>
    firstIllegal [req (w.d.extractLsb' 1 5 == 0) .reservedBits, req (w.sk == 0 || w.sk == 1) .sourceKind]
  | .freg w => firstIllegal [req (w.d == 0) .unused, req (w.sk == 0) .sourceKind]
  | .tspawn w => firstIllegal [req (w.d == 0 && w.b == 0) .unused, req (w.sk == 0) .sourceKind]
  | .tdone w => firstIllegal [req (w.d == 0) .unused, req (w.sk == 0 || w.sk == 1) .sourceKind]
  | .asy w => firstIllegal [req (w.d == 0 && w.b == 0) .unused, req (w.sk == 0) .sourceKind]
  | .gnode w => req (w.sk == 0 || w.sk == 1) .sourceKind
  | .svc w => firstIllegal [req (w.b == 0) .unused, req (w.sk == 0) .sourceKind]
  | .srd w => firstIllegal [req (w.sk == 2) .sourceKind, req (w.b == 0) .unused, special w.a]
  | .srdFaultWord w =>
    firstIllegal [req (w.sk == 1) .sourceKind, req (w.a == 0) .unused, req (decide (w.b.toNat ≤ 6)) .parameter]
  | .swr w => firstIllegal [req (w.d == 0) .unused, req (w.sk == 2) .sourceKind, req (writable w.a) .special]
  | .trap w | .bkpt w => firstIllegal [req (w.d == 0 && w.a == 0) .unused, req (w.sk == 1) .sourceKind]
  | .hret w =>
    firstIllegal
      [req (w.d == 0 && w.a == 0) .unused, req (w.sk == 1) .sourceKind, req (decide (w.b.toNat ≤ 1)) .parameter]
  | .umad w e =>
    firstIllegal
      [ gnOk w.g e.gn, req (e.t == .i64 || e.t == .u64) .typeCode, noRnd e, uniSrc w, req (!e.xc && e.imm == 0) .unused ]
  | .ubfx w e =>
    firstIllegal
      [ uniEA w e, req (e.t == .i64 || e.t == .u64) .typeCode, noC e, fieldParam e.imm 64
      , req (w.sk == 0 || w.sk == 2) .sourceKind, req (w.b == 0) .unused, uniSrc w ]
  | .usel w e => firstIllegal [uniEA w e, req (e.t == .u64) .typeCode, noC e, selParam e.imm, uniSrc w]
  | .ucmp w e =>
    firstIllegal
      [ uniEA w e, req (scalarInt e.t) .typeCode, noC e, req (decide ((minorOf e).toNat ≤ 5)) .minor
      , req (e.imm.extractLsb' 0 12 == 0) .unused, uniSrc w
      , req (w.d != 0 && w.d.extractLsb' 3 3 == 0) .predicate ]
  | .barInit w e => firstIllegal [bar 0 false w e, req (w.d == 0) .unused, barValue false w]
  | .barArrive w e => firstIllegal [bar 1 true w e, barValue (e.imm.getLsbD 10) w]
  | .barWait w e =>
    firstIllegal [bar 2 false w e, req (w.d == 0 && w.b == 0) .unused, req (w.sk == 0) .sourceKind]
  | .barArrwait w e => firstIllegal [bar 3 true w e, req (w.d == 0) .unused, barValue (e.imm.getLsbD 10) w]
  | .barExpect w e => firstIllegal [bar 4 false w e, req (w.d == 0) .unused, barValue false w]
  | .fenceAcq w e => fence 0 w e
  | .fenceRel w e => fence 1 w e
  | .fenceAcqrel w e => fence 2 w e
  | .fenceSc w e => fence 3 w e
  | .accAcq w e => firstIllegal [uniPlain w e, minorIs e 0, req (w.d == 0) .unused, tileOperand w 0 15]
  | .accRel w e => firstIllegal [uniPlain w e, minorIs e 1, req (w.d == 0) .unused, tileOperand w 0 15]
  | .accWin w e => firstIllegal [uniPlain w e, minorIs e 2, req (w.d == 0) .unused, req (w.sk == 0) .sourceKind]
  | .accAlloc w e => firstIllegal [uniPlain w e, minorIs e 3, tileOperand w 0 63]
  | .accFree w e => firstIllegal [uniPlain w e, minorIs e 4, req (w.d == 0) .unused, tileOperand w 0 15]
  | .rkcfg w e =>
    firstIllegal [uniPlain w e, rkcfgParam e.imm, req (w.d == 0) .unused, req (w.sk == 0) .sourceKind]
  | .rkrd w e =>
    firstIllegal
      [ uniPlain w e, req (w.sk == 0) .sourceKind, req (w.b == 0) .unused, req (even w.d) .oddPair
      , req (e.imm.extractLsb' 7 9 == 0 && decide ((e.imm.extractLsb' 0 7).toNat ≤ 125)) .parameter ]
  | .rlogPush w e => rlog 0 false true w e
  | .rlogGet w e => rlog 1 true false w e
  | .rlogRet w e => rlog 2 false false w e
  | .pipeSend w e => pipe 0 w e
  | .pipeRecv w e => pipe 1 w e
  | .hcohFlush w e => hcoh 0 w e
  | .hcohInval w e => hcoh 1 w e
  | .ctxDrain w e => firstIllegal [ctx 0 false w e, uniNone w]
  | .ctxSvsplit w e =>
    firstIllegal [ctx 1 false w e, req (w.sk == 1) .sourceKind, req (decide (w.b.toNat ≤ 4)) .parameter]
  | .ctxLdsplit w e =>
    firstIllegal [ctx 2 false w e, req (w.sk == 1) .sourceKind, req (decide (w.b.toNat ≤ 4)) .parameter]
  | .ctxSvframe w e => firstIllegal [ctx 3 false w e, tileOperand w 0 63]
  | .ctxLdframe w e => firstIllegal [ctx 4 false w e, tileOperand w 0 63]
  | .ctxSvlist w e =>
    firstIllegal [ctx 5 false w e, req (w.sk == 1) .sourceKind, req (decide (w.b.toNat ≤ 2)) .parameter]
  | .ctxSvlistLoad w e =>
    firstIllegal [ctx 5 true w e, req (w.sk == 1) .sourceKind, req (decide (w.b.toNat ≤ 2)) .parameter]
  | .bra w _ => firstIllegal [eb w, req (w.d == 0) .unused]
  | .call w e => firstIllegal [eb w, req (!w.d.getLsbD 0) .reservedBits, req (!e.kind) .parameter]
  | .mwait w e => counter w e .acq
  | .msig w e => firstIllegal [counter w e .rel, req (w.d == 0) .unused]
  | .rkmrg w e =>
    firstIllegal
      [ gnOk w.g e.gn, req (e.space == .global || e.space == .team || e.space == .cluster) .space, req (e.t == .b32) .typeCode
      , req (!e.ord) .reservedBits, req (e.sem == .rlx || e.sem == .acq) .semantics, req (w.d == 0 && w.b == 0) .unused
      , req (w.sk == 0) .sourceKind ]
  | .reservedOp w x => req (reservedCell w && x.isSome == w.getLsbD 30) .reservedOp
  | .resultWriteback .. | .memoryResponse .. | .refusalUrgent .. | .waitCountUrgent .. | .frameGrant ..
  | .eseTrigger .. | .evictionComplete .. | .fillComplete .. | .parkTimeout .. | .matrixStepAccept ..
  | .matrixStepStart .. | .matrixStepWrite .. | .pairTimeout .. | .finPhaseEnd .. | .thrUpdate .. | .tileClearDone ..
  | .tokenGrant .. | .tokenHandoff .. | .mergeAccept .. | .mergeComplete .. | .rkcfgComplete .. | .assayAccept ..
  | .assayComplete .. | .gpkFill .. | .releaseWindowPerform .. | .stall .. | .faultRecordWrite .. | .deferAppend ..
  | .barWaitRelease .. | .copyComplete .. | .tileTransferComplete .. | .translationWalk .. | .atsResponse ..
  | .priResponse .. | .hostRouteTimeout .. | .atsInvalidation .. | .writeAck .. | .clockMarker ..
  | .mwaitSatisfied .. | .qcOpen .. | .qcClose .. | .qcNotify .. | .qcFlush .. | .qcNode .. | .qcResident ..
  | .qcbWriteback .. | .taskDecrement .. | .nodeRecordArrival .. | .nodeReserve .. | .nodeFlushExpiry ..
  | .residency .. | .sotakeTake .. | .sotakePeek .. | .soneed .. | .soavail .. | .soplaceStage .. | .soplaceCommit ..
  | .sopre .. | .soresm .. | .sokill .. | .soevt .. | .illegalCsrAccess .. | .preemptComplete .. | .saveTimeout ..
  | .timeSliceExpiry .. | .teamCompletionCount .. | .microcodeLoad .. | .handlerEntry .. | .halt .. | .watchdog ..
  | .debugStop .. | .debugStep .. | .breakpointStop .. | .debugRegisterWrite .. | .hostBar2Write .. | .flr ..
  | .flrCleanup .. | .flrAllowanceExpiry .. | .flrComplete .. | .peerPacketReceive .. | .pctlEnable ..
  | .pctlHaltRequest .. | .cmaskWrite .. | .fltrsp .. | .attRequest .. | .attestationReport .. | .registerWrite ..
  | .egctlGo .. | .edgeDrainEnd .. | .quiesceEnd .. | .retrainEnd .. | .edgeReady .. | .planeMapUpdate ..
  | .packetRelay .. | .relayDrop .. | .quickSample .. | .fullSweep .. | .clkStep .. | .pislWrite ..
  | .powerOnReset .. | .selfTestDone .. | .coreSpare .. | .recover .. | .svcNop .. | .svcMint .. | .svcQcmd ..
  | .svcLoad .. | .svcFetch .. | .svcFopen .. | .svcFwrite .. | .svcFread .. | .svcFclose .. | .svcResume ..
  | .svcKill .. | .debugContinue .. | .powerRemoval .. | .manufacture .. | .functionLoss .. | .drainRequestCutoff ..
  | .reservedCommand .. => none

/-- An instruction that breaks no condition of R61 that its fields decide. -/
def Instr.wellFormed (i : Instr) : Bool := i.illegal == none

end Sys2Proof
end

