-- ==== Sys2Proof/Decode.lean ====
section
/-!
DEFINITION. Decoding of instruction words (R35 to R63) and the encoder beside it. `decode` reads an instruction
from the bytes at a program counter, little-endian (R8, R35), or names the condition of R61 that the word breaks.
A word whose op is a reserved cell of R52 or R54 decodes to the step RESERVED_OP.
-/
namespace Sys2Proof

/-- Why bytes are no instruction: too few of them, or the condition of R61 that the word breaks. -/
inductive DecodeError
  | truncated
  | illegal (r : Illegal)
  deriving DecidableEq, Repr

/-! ### Field codes (R48 to R51) -/

/-- R49. Code 7 is reserved. -/
def Rnd.ofBits (n : BitVec 3) : Option Rnd :=
  match n.toNat with
  | 0 => some .mode | 1 => some .rne | 2 => some .rz | 3 => some .ru | 4 => some .rd | 5 => some .rna | 6 => some .rs
  | _ => none
/-- R49. -/
def Rnd.toBits : Rnd → BitVec 3
  | .mode => 0 | .rne => 1 | .rz => 2 | .ru => 3 | .rd => 4 | .rna => 5 | .rs => 6

/-- R50. Codes 5 and 7 are reserved. -/
def Space.ofBits (n : BitVec 3) : Option Space :=
  match n.toNat with
  | 0 => some .global | 1 => some .team | 2 => some .cluster | 3 => some .scratch | 4 => some .priv | 6 => some .param
  | _ => none
/-- R50. -/
def Space.toBits : Space → BitVec 3
  | .global => 0 | .team => 1 | .cluster => 2 | .scratch => 3 | .priv => 4 | .param => 6

/-- R51. Codes 6 and 7 are reserved. -/
def Scope.ofBits (n : BitVec 3) : Option Scope :=
  match n.toNat with
  | 0 => some .grp | 1 => some .team | 2 => some .clu | 3 => some .die | 4 => some .pkg | 5 => some .sys
  | _ => none
/-- R51. -/
def Scope.toBits : Scope → BitVec 3
  | .grp => 0 | .team => 1 | .clu => 2 | .die => 3 | .pkg => 4 | .sys => 5

/-- R51. -/
def Sem.ofBits (n : BitVec 2) : Sem :=
  match n.toNat with
  | 0 => .rlx | 1 => .acq | 2 => .rel | _ => .acqrel
/-- R51. -/
def Sem.toBits : Sem → BitVec 2
  | .rlx => 0 | .acq => 1 | .rel => 2 | .acqrel => 3

/-! ### The words and their fields (R36, R37, R42 to R47) -/

/-- The fields of a lane short form (R36). -/
def LaneShort.ofWord (w : Word) : LaneShort :=
  { d := w.extractLsb' 18 6, a := w.extractLsb' 12 6, b := w.extractLsb' 6 6, sk := w.extractLsb' 4 2
    nw := w.getLsbD 3, g := w.extractLsb' 0 3 }
/-- The lane short form with op `op` and L = `l` (R36). -/
def LaneShort.toWord (op : BitVec 6) (l : Bool) (f : LaneShort) : Word :=
  0#1 ++ BitVec.ofBool l ++ op ++ f.d ++ f.a ++ f.b ++ f.sk ++ BitVec.ofBool f.nw ++ f.g

/-- The fields of a uniform short form (R37). -/
def UniShort.ofWord (w : Word) : UniShort :=
  { d := w.extractLsb' 18 6, a := w.extractLsb' 12 6, b := w.extractLsb' 6 6, sk := w.extractLsb' 4 2
    g := w.extractLsb' 0 3 }
/-- The uniform short form with op `op` and L = `l` (R37); bit 3 is zero. -/
def UniShort.toWord (op : BitVec 6) (l : Bool) (f : UniShort) : Word :=
  1#1 ++ BitVec.ofBool l ++ op ++ f.d ++ f.a ++ f.b ++ f.sk ++ 0#1 ++ f.g

/-- The EA extension word (R42). -/
def EA.ofWord (x : Word) : Except Illegal EA :=
  match Rnd.ofBits (x.extractLsb' 25 3) with
  | none => .error .rounding
  | some r =>
    .ok { t := WellFormed.tyOfBits (x.extractLsb' 28 4), rnd := r, sat := x.getLsbD 24, gn := x.getLsbD 23
          c := x.extractLsb' 17 6, xc := x.getLsbD 16, imm := x.extractLsb' 0 16 }
/-- The EA extension word (R42). -/
def EA.toWord (e : EA) : Word :=
  e.t.toBits ++ e.rnd.toBits ++ BitVec.ofBool e.sat ++ BitVec.ofBool e.gn ++ e.c ++ BitVec.ofBool e.xc ++ e.imm

/-- The EI extension word (R44). -/
def EI.ofWord (x : Word) : EI := { imm := x }
/-- The EI extension word (R44). -/
def EI.toWord (e : EI) : Word := e.imm

/-- The EM extension word (R45). -/
def EM.ofWord (x : Word) : Except Illegal EM :=
  match Space.ofBits (x.extractLsb' 29 3), Scope.ofBits (x.extractLsb' 20 3) with
  | none, _ => .error .space
  | _, none => .error .scope
  | some sp, some sc =>
    .ok { space := sp, t := WellFormed.tyOfBits (x.extractLsb' 25 4), ord := x.getLsbD 24, gn := x.getLsbD 23
          scope := sc, sem := Sem.ofBits (x.extractLsb' 18 2), c := x.extractLsb' 12 6, offset := x.extractLsb' 0 12 }
/-- The EM extension word (R45). -/
def EM.toWord (e : EM) : Word :=
  e.space.toBits ++ e.t.toBits ++ BitVec.ofBool e.ord ++ BitVec.ofBool e.gn ++ e.scope.toBits ++ e.sem.toBits
    ++ e.c ++ e.offset

/-- The EB extension word (R46); bits [26:24] are zero. -/
def EB.ofWord (x : Word) : Except Illegal EB :=
  if x.extractLsb' 24 3 == 0 then
    .ok { kind := x.getLsbD 31, pred := x.extractLsb' 28 3, neg := x.getLsbD 27, offset := x.extractLsb' 0 24 }
  else .error .reservedBits
/-- The EB extension word (R46). -/
def EB.toWord (e : EB) : Word :=
  BitVec.ofBool e.kind ++ e.pred ++ BitVec.ofBool e.neg ++ 0#3 ++ e.offset

/-- The EX extension word (R47); bits [7:0] are zero. -/
def EX.ofWord (x : Word) : Except Illegal EX :=
  if x.extractLsb' 0 8 == 0 then
    .ok { fb := x.extractLsb' 26 6, tile := x.extractLsb' 22 4, row := x.extractLsb' 16 6, mrows := x.extractLsb' 14 2
          kfrac := x.extractLsb' 12 2, mode := x.extractLsb' 10 2, fin := x.getLsbD 9, sp := x.getLsbD 8 }
  else .error .reservedBits
/-- The EX extension word (R47). -/
def EX.toWord (e : EX) : Word :=
  e.fb ++ e.tile ++ e.row ++ e.mrows ++ e.kfrac ++ e.mode ++ BitVec.ofBool e.fin ++ BitVec.ofBool e.sp ++ 0#8

/-! ### The opcode maps (R52, R54) -/

/-- The lane ops that may stand without an extension word (R52). -/
def laneShortOp : Nat → Option (LaneShort → Instr)
  | 0 => some .iadd
  | 1 => some .isub
  | 2 => some .imul
  | 4 => some .imin
  | 5 => some .imax
  | 6 => some .and
  | 7 => some .or
  | 8 => some .xor
  | 9 => some .shl
  | 10 => some .shr
  | 11 => some .sha
  | 16 => some .fadd
  | 17 => some .fsub
  | 18 => some .fmul
  | 20 => some .fmin
  | 21 => some .fmax
  | 59 => some .fscl
  | 27 => some .mov
  | 44 => some .vsr
  | _ => none

/-- The lane ops with an EA word, but for the families whose minor names a row of its own (R52). -/
def laneEAOp : Nat → Option (LaneShort → EA → Instr)
  | 0 => some .iaddExt
  | 1 => some .isubExt
  | 2 => some .imulExt
  | 4 => some .iminExt
  | 5 => some .imaxExt
  | 6 => some .andExt
  | 7 => some .orExt
  | 8 => some .xorExt
  | 9 => some .shlExt
  | 10 => some .shrExt
  | 11 => some .shaExt
  | 16 => some .faddExt
  | 17 => some .fsubExt
  | 18 => some .fmulExt
  | 20 => some .fminExt
  | 21 => some .fmaxExt
  | 59 => some .fsclExt
  | 3 => some .imad
  | 19 => some .ffma
  | 26 => some .dot
  | 56 => some .imadw
  | 58 => some .lop3
  | 12 => some .bfx
  | 13 => some .bfi
  | 15 => some .sel
  | 25 => some .cvt
  | 57 => some .prmt
  | 42 => some .rkins
  | 43 => some .rkadm
  | 45 => some .relbl
  | 14 => some .ibit
  | 22 => some .icmp
  | 23 => some .fcmp
  | 24 => some .fsf
  | 28 => some .shfl
  | 29 => some .vote
  | 30 => some .redux
  | 31 => some .scan
  | 40 => some .pset
  | _ => none

/-- The minors of `pmov` (R53). -/
def pmovMinor : Nat → Option (LaneShort → EA → Instr)
  | 0 => some .pmovReg
  | 1 => some .pmovPred
  | _ => none

/-- The minors of `item` (R53). -/
def itemMinor : Nat → Option (LaneShort → EA → Instr)
  | 0 => some .itemDone
  | 1 => some .itemSkip
  | 2 => some .itemYield
  | 3 => some .itemDefer
  | _ => none

/-- The lane ops with an EM word (R52). -/
def laneEMOp : Nat → Option (LaneShort → EM → Instr)
  | 32 => some .ld
  | 33 => some .st
  | 34 => some .atom
  | 35 => some .atomc
  | 36 => some .cpl
  | 37 => some .ldk
  | 38 => some .ldc
  | 39 => some .stc
  | 46 => some .lda
  | 47 => some .sta
  | 52 => some .qenq
  | 53 => some .qdeq
  | 54 => some .qsteal
  | _ => none

/-- The lane ops with an EX word (R52). -/
def laneEXOp : Nat → Option (LaneShort → EX → Instr)
  | 48 => some .mma
  | 49 => some .mms
  | 50 => some .mrk
  | _ => none

/-- The uniform ops that may stand without an extension word, but for `srd` (R54). -/
def uniShortOp : Nat → Option (UniShort → Instr)
  | 0 => some .uadd
  | 1 => some .usub
  | 2 => some .umul
  | 4 => some .umin
  | 5 => some .umax
  | 6 => some .uand
  | 7 => some .uor
  | 8 => some .uxor
  | 9 => some .ushl
  | 10 => some .ushr
  | 11 => some .usha
  | 14 => some .umov
  | 17 => some .brx
  | 19 => some .callx
  | 20 => some .ret
  | 21 => some .unwind
  | 22 => some .rcv
  | 23 => some .exit
  | 26 => some .waitc
  | 27 => some .cpb
  | 28 => some .cpclose
  | 29 => some .cpwait
  | 32 => some .fres
  | 33 => some .freg
  | 34 => some .tspawn
  | 35 => some .tdone
  | 40 => some .asy
  | 43 => some .gnode
  | 44 => some .svc
  | 49 => some .swr
  | 50 => some .trap
  | 51 => some .hret
  | 52 => some .bkpt
  | _ => none

/-- The uniform ops with an EI word (R54). -/
def uniEIOp : Nat → Option (UniShort → EI → Instr)
  | 0 => some .uaddExt
  | 1 => some .usubExt
  | 2 => some .umulExt
  | 4 => some .uminExt
  | 5 => some .umaxExt
  | 6 => some .uandExt
  | 7 => some .uorExt
  | 8 => some .uxorExt
  | 9 => some .ushlExt
  | 10 => some .ushrExt
  | 11 => some .ushaExt
  | 14 => some .umovExt
  | _ => none

/-- The uniform ops with an EA word, but for the minor families (R54). -/
def uniEAOp : Nat → Option (UniShort → EA → Instr)
  | 3 => some .umad
  | 12 => some .ubfx
  | 15 => some .usel
  | 13 => some .ucmp
  | 37 => some .rkcfg
  | 39 => some .rkrd
  | _ => none

/-- The minors of `bar` (R53). -/
def barMinor : Nat → Option (UniShort → EA → Instr)
  | 0 => some .barInit
  | 1 => some .barArrive
  | 2 => some .barWait
  | 3 => some .barArrwait
  | 4 => some .barExpect
  | _ => none

/-- The minors of `fence` (R53). -/
def fenceMinor : Nat → Option (UniShort → EA → Instr)
  | 0 => some .fenceAcq
  | 1 => some .fenceRel
  | 2 => some .fenceAcqrel
  | 3 => some .fenceSc
  | _ => none

/-- The minors of `acc` (R53). -/
def accMinor : Nat → Option (UniShort → EA → Instr)
  | 0 => some .accAcq
  | 1 => some .accRel
  | 2 => some .accWin
  | 3 => some .accAlloc
  | 4 => some .accFree
  | _ => none

/-- The minors of `rlog` (R53). -/
def rlogMinor : Nat → Option (UniShort → EA → Instr)
  | 0 => some .rlogPush
  | 1 => some .rlogGet
  | 2 => some .rlogRet
  | _ => none

/-- The minors of `pipe` (R53). -/
def pipeMinor : Nat → Option (UniShort → EA → Instr)
  | 0 => some .pipeSend
  | 1 => some .pipeRecv
  | _ => none

/-- The minors of `hcoh` (R53). -/
def hcohMinor : Nat → Option (UniShort → EA → Instr)
  | 0 => some .hcohFlush
  | 1 => some .hcohInval
  | _ => none

/-- The minors of `ctx` (R53); `svlist` is a load when EA [0] is 1 (R381). -/
def ctxMinor (ld : Bool) : Nat → Option (UniShort → EA → Instr)
  | 0 => some .ctxDrain
  | 1 => some .ctxSvsplit
  | 2 => some .ctxLdsplit
  | 3 => some .ctxSvframe
  | 4 => some .ctxLdframe
  | 5 => if ld then some .ctxSvlistLoad else some .ctxSvlist
  | _ => none

/-- The minor families of the uniform EA ops (R53, R54): none where the op is no family. -/
def uniFamily (op : Nat) (e : EA) : Option (Option (UniShort → EA → Instr)) :=
  let m := (WellFormed.minorOf e).toNat
  match op with
  | 24 => some (barMinor m)
  | 25 => some (fenceMinor m)
  | 36 => some (accMinor m)
  | 41 => some (rlogMinor m)
  | 42 => some (pipeMinor m)
  | 45 => some (hcohMinor m)
  | 53 => some (ctxMinor (e.imm.getLsbD 0) m)
  | _ => none

/-- The minor families of the lane EA ops (R52, R53). -/
def laneFamily (op : Nat) (e : EA) : Option (Option (LaneShort → EA → Instr)) :=
  let m := (WellFormed.minorOf e).toNat
  match op with
  | 41 => some (pmovMinor m)
  | 51 => some (itemMinor m)
  | _ => none

/-- The uniform ops with an EB word (R54). -/
def uniEBOp : Nat → Option (UniShort → EB → Instr)
  | 16 => some .bra
  | 18 => some .call
  | _ => none

/-- The uniform ops with an EM word (R54). -/
def uniEMOp : Nat → Option (UniShort → EM → Instr)
  | 30 => some .mwait
  | 31 => some .msig
  | 38 => some .rkmrg
  | _ => none

/-- The extension layout an op selects (R41). -/
inductive Layout
  | reserved | none | ea | ei | em | eb | ex
  deriving DecidableEq, Repr

/-- The layout of a lane op (R52). -/
def laneLayout (op : Nat) : Layout :=
  if op = 44 then .none
  else if op = 27 then .ei
  else if (laneEAOp op).isSome || op == 41 || op == 51 then .ea
  else if (laneEMOp op).isSome then .em
  else if (laneEXOp op).isSome then .ex
  else .reserved

/-- The layout of a uniform op (R54). -/
def uniLayout (op : Nat) : Layout :=
  if (uniEIOp op).isSome then .ei
  else if (uniShortOp op).isSome || op == 48 then .none
  else if (uniEAOp op).isSome || op == 24 || op == 25 || op == 36 || op == 41 || op == 42 || op == 45 || op == 53 then .ea
  else if (uniEBOp op).isSome then .eb
  else if (uniEMOp op).isSome then .em
  else .reserved

/-- The op field, bits [29:24]. -/
def opOf (w : Word) : Nat := (w.extractLsb' 24 6).toNat

/-- The layout of a word's op: bit 31 (S) selects the set (R35). -/
def layoutOf (w : Word) : Layout := if w.getLsbD 31 then uniLayout (opOf w) else laneLayout (opOf w)

/-- How many bytes an instruction with this short form has: 8 when L, bit 30, is 1 (R35). -/
def lengthOf (w : Word) : Nat := if w.getLsbD 30 then 8 else 4

/-- The constructor applied, or the named error where the table has none. -/
def orIllegal (r : Illegal) : Option Instr → Except Illegal Instr
  | some i => .ok i
  | none => .error r

/-- A short form without an extension word (L = 0). -/
def decodeShort (w : Word) : Except Illegal Instr :=
  if w.getLsbD 31 then
    if w.getLsbD 3 then .error .reservedBits
    else if opOf w = 48 then
      match (UniShort.ofWord w).sk.toNat with
      | 2 => .ok (.srd (UniShort.ofWord w))
      | 1 => .ok (.srdFaultWord (UniShort.ofWord w))
      | _ => .error .sourceKind
    else orIllegal .extension ((uniShortOp (opOf w)).map (· (UniShort.ofWord w)))
  else orIllegal .extension ((laneShortOp (opOf w)).map (· (LaneShort.ofWord w)))

/-- A lane short form with its extension word (L = 1). -/
def decodeLaneExt (w x : Word) : Except Illegal Instr :=
  let f := LaneShort.ofWord w
  match laneLayout (opOf w) with
  | .ei => .ok (.movImm f (EI.ofWord x))
  | .ea =>
    match EA.ofWord x with
    | .error r => .error r
    | .ok e =>
      match laneFamily (opOf w) e with
      | some m => orIllegal .minor (m.map (· f e))
      | none => orIllegal .extension ((laneEAOp (opOf w)).map (· f e))
  | .em =>
    match EM.ofWord x with
    | .error r => .error r
    | .ok e => orIllegal .extension ((laneEMOp (opOf w)).map (· f e))
  | .ex =>
    match EX.ofWord x with
    | .error r => .error r
    | .ok e => orIllegal .extension ((laneEXOp (opOf w)).map (· f e))
  | _ => .error .extension

/-- A uniform short form with its extension word (L = 1). -/
def decodeUniExt (w x : Word) : Except Illegal Instr :=
  let f := UniShort.ofWord w
  if w.getLsbD 3 then .error .reservedBits
  else
    match uniLayout (opOf w) with
    | .ei => orIllegal .extension ((uniEIOp (opOf w)).map (· f (EI.ofWord x)))
    | .ea =>
      match EA.ofWord x with
      | .error r => .error r
      | .ok e =>
        match uniFamily (opOf w) e with
        | some m => orIllegal .minor (m.map (· f e))
        | none => orIllegal .extension ((uniEAOp (opOf w)).map (· f e))
    | .em =>
      match EM.ofWord x with
      | .error r => .error r
      | .ok e => orIllegal .extension ((uniEMOp (opOf w)).map (· f e))
    | .eb =>
      match EB.ofWord x with
      | .error r => .error r
      | .ok e => orIllegal .extension ((uniEBOp (opOf w)).map (· f e))
    | _ => .error .extension

/-- The fields of a word and the word after it, before the conditions of R61 on their values. -/
def decodeRaw (w x : Word) : Except Illegal Instr :=
  if layoutOf w = .reserved then .ok (.reservedOp w (if w.getLsbD 30 then some x else none))
  else if w.getLsbD 30 then
    if w.getLsbD 31 then decodeUniExt w x else decodeLaneExt w x
  else decodeShort w

/-- The instruction of a short form `w` followed by the word `x` (read only when L = 1), or the condition of R61 it
breaks. -/
def decodeWords (w x : Word) : Except Illegal Instr :=
  match decodeRaw w x with
  | .error r => .error r
  | .ok i =>
    match i.illegal with
    | some r => .error r
    | none => .ok i

/-- The little-endian word at the head of a byte list (R8, R35). -/
def wordOfBytes : List Byte → Option (Word × List Byte)
  | b0 :: b1 :: b2 :: b3 :: rest => some (b3 ++ b2 ++ b1 ++ b0, rest)
  | _ => none

/-- The bytes of a word, little-endian (R8). -/
def bytesOfWord (w : Word) : List Byte :=
  [w.extractLsb' 0 8, w.extractLsb' 8 8, w.extractLsb' 16 8, w.extractLsb' 24 8]

/-- One instruction from the bytes at a program counter, and the bytes after it. -/
def decode (bs : List Byte) : Except DecodeError (Instr × List Byte) :=
  match wordOfBytes bs with
  | none => .error .truncated
  | some (w, rest) =>
    if w.getLsbD 30 then
      match wordOfBytes rest with
      | none => .error .truncated
      | some (x, rest') =>
        match decodeWords w x with
        | .error r => .error (.illegal r)
        | .ok i => .ok (i, rest')
    else
      match decodeWords w 0 with
      | .error r => .error (.illegal r)
      | .ok i => .ok (i, rest)

/-- The bytes of an instruction as the opcode table numbers its bits: `w`'s bits from 0 up, low byte first, the bits
above `nbits` zero up to the longest instruction (8 bytes). -/
def tableBytes (nbits w : Nat) : List Byte :=
  bytesOfWord (BitVec.ofNat 32 (w % 2 ^ nbits)) ++ bytesOfWord (BitVec.ofNat 32 (w % 2 ^ nbits / 2 ^ 32))

/-- What the decoder reads from a word of the opcode table. -/
def decodeTableWord (nbits w : Nat) : Option Instr :=
  match decode (tableBytes nbits w) with
  | .ok (i, _) => some i
  | .error _ => none

/-! ### The encoder -/

/-- The words of an instruction (R35 to R47, R52 to R54); an event has no words. -/
def encode : Instr → List Word
  | .iadd w => [w.toWord 0 false]
  | .isub w => [w.toWord 1 false]
  | .imul w => [w.toWord 2 false]
  | .imin w => [w.toWord 4 false]
  | .imax w => [w.toWord 5 false]
  | .and w => [w.toWord 6 false]
  | .or w => [w.toWord 7 false]
  | .xor w => [w.toWord 8 false]
  | .shl w => [w.toWord 9 false]
  | .shr w => [w.toWord 10 false]
  | .sha w => [w.toWord 11 false]
  | .fadd w => [w.toWord 16 false]
  | .fsub w => [w.toWord 17 false]
  | .fmul w => [w.toWord 18 false]
  | .fmin w => [w.toWord 20 false]
  | .fmax w => [w.toWord 21 false]
  | .fscl w => [w.toWord 59 false]
  | .mov w => [w.toWord 27 false]
  | .vsr w => [w.toWord 44 false]
  | .iaddExt w e => [w.toWord 0 true, e.toWord]
  | .isubExt w e => [w.toWord 1 true, e.toWord]
  | .imulExt w e => [w.toWord 2 true, e.toWord]
  | .iminExt w e => [w.toWord 4 true, e.toWord]
  | .imaxExt w e => [w.toWord 5 true, e.toWord]
  | .andExt w e => [w.toWord 6 true, e.toWord]
  | .orExt w e => [w.toWord 7 true, e.toWord]
  | .xorExt w e => [w.toWord 8 true, e.toWord]
  | .shlExt w e => [w.toWord 9 true, e.toWord]
  | .shrExt w e => [w.toWord 10 true, e.toWord]
  | .shaExt w e => [w.toWord 11 true, e.toWord]
  | .faddExt w e => [w.toWord 16 true, e.toWord]
  | .fsubExt w e => [w.toWord 17 true, e.toWord]
  | .fmulExt w e => [w.toWord 18 true, e.toWord]
  | .fminExt w e => [w.toWord 20 true, e.toWord]
  | .fmaxExt w e => [w.toWord 21 true, e.toWord]
  | .fsclExt w e => [w.toWord 59 true, e.toWord]
  | .imad w e => [w.toWord 3 true, e.toWord]
  | .ffma w e => [w.toWord 19 true, e.toWord]
  | .dot w e => [w.toWord 26 true, e.toWord]
  | .imadw w e => [w.toWord 56 true, e.toWord]
  | .lop3 w e => [w.toWord 58 true, e.toWord]
  | .bfx w e => [w.toWord 12 true, e.toWord]
  | .bfi w e => [w.toWord 13 true, e.toWord]
  | .sel w e => [w.toWord 15 true, e.toWord]
  | .cvt w e => [w.toWord 25 true, e.toWord]
  | .prmt w e => [w.toWord 57 true, e.toWord]
  | .rkins w e => [w.toWord 42 true, e.toWord]
  | .rkadm w e => [w.toWord 43 true, e.toWord]
  | .relbl w e => [w.toWord 45 true, e.toWord]
  | .ibit w e => [w.toWord 14 true, e.toWord]
  | .icmp w e => [w.toWord 22 true, e.toWord]
  | .fcmp w e => [w.toWord 23 true, e.toWord]
  | .fsf w e => [w.toWord 24 true, e.toWord]
  | .shfl w e => [w.toWord 28 true, e.toWord]
  | .vote w e => [w.toWord 29 true, e.toWord]
  | .redux w e => [w.toWord 30 true, e.toWord]
  | .scan w e => [w.toWord 31 true, e.toWord]
  | .pset w e => [w.toWord 40 true, e.toWord]
  | .pmovReg w e => [w.toWord 41 true, e.toWord]
  | .pmovPred w e => [w.toWord 41 true, e.toWord]
  | .itemDone w e => [w.toWord 51 true, e.toWord]
  | .itemSkip w e => [w.toWord 51 true, e.toWord]
  | .itemYield w e => [w.toWord 51 true, e.toWord]
  | .itemDefer w e => [w.toWord 51 true, e.toWord]
  | .movImm w e => [w.toWord 27 true, e.toWord]
  | .ld w e => [w.toWord 32 true, e.toWord]
  | .st w e => [w.toWord 33 true, e.toWord]
  | .atom w e => [w.toWord 34 true, e.toWord]
  | .atomc w e => [w.toWord 35 true, e.toWord]
  | .cpl w e => [w.toWord 36 true, e.toWord]
  | .ldk w e => [w.toWord 37 true, e.toWord]
  | .ldc w e => [w.toWord 38 true, e.toWord]
  | .stc w e => [w.toWord 39 true, e.toWord]
  | .lda w e => [w.toWord 46 true, e.toWord]
  | .sta w e => [w.toWord 47 true, e.toWord]
  | .qenq w e => [w.toWord 52 true, e.toWord]
  | .qdeq w e => [w.toWord 53 true, e.toWord]
  | .qsteal w e => [w.toWord 54 true, e.toWord]
  | .mma w e => [w.toWord 48 true, e.toWord]
  | .mms w e => [w.toWord 49 true, e.toWord]
  | .mrk w e => [w.toWord 50 true, e.toWord]
  | .uadd w => [w.toWord 0 false]
  | .usub w => [w.toWord 1 false]
  | .umul w => [w.toWord 2 false]
  | .umin w => [w.toWord 4 false]
  | .umax w => [w.toWord 5 false]
  | .uand w => [w.toWord 6 false]
  | .uor w => [w.toWord 7 false]
  | .uxor w => [w.toWord 8 false]
  | .ushl w => [w.toWord 9 false]
  | .ushr w => [w.toWord 10 false]
  | .usha w => [w.toWord 11 false]
  | .umov w => [w.toWord 14 false]
  | .brx w => [w.toWord 17 false]
  | .callx w => [w.toWord 19 false]
  | .ret w => [w.toWord 20 false]
  | .unwind w => [w.toWord 21 false]
  | .rcv w => [w.toWord 22 false]
  | .exit w => [w.toWord 23 false]
  | .waitc w => [w.toWord 26 false]
  | .cpb w => [w.toWord 27 false]
  | .cpclose w => [w.toWord 28 false]
  | .cpwait w => [w.toWord 29 false]
  | .fres w => [w.toWord 32 false]
  | .freg w => [w.toWord 33 false]
  | .tspawn w => [w.toWord 34 false]
  | .tdone w => [w.toWord 35 false]
  | .asy w => [w.toWord 40 false]
  | .gnode w => [w.toWord 43 false]
  | .svc w => [w.toWord 44 false]
  | .swr w => [w.toWord 49 false]
  | .trap w => [w.toWord 50 false]
  | .hret w => [w.toWord 51 false]
  | .bkpt w => [w.toWord 52 false]
  | .srd w => [w.toWord 48 false]
  | .srdFaultWord w => [w.toWord 48 false]
  | .uaddExt w e => [w.toWord 0 true, e.toWord]
  | .usubExt w e => [w.toWord 1 true, e.toWord]
  | .umulExt w e => [w.toWord 2 true, e.toWord]
  | .uminExt w e => [w.toWord 4 true, e.toWord]
  | .umaxExt w e => [w.toWord 5 true, e.toWord]
  | .uandExt w e => [w.toWord 6 true, e.toWord]
  | .uorExt w e => [w.toWord 7 true, e.toWord]
  | .uxorExt w e => [w.toWord 8 true, e.toWord]
  | .ushlExt w e => [w.toWord 9 true, e.toWord]
  | .ushrExt w e => [w.toWord 10 true, e.toWord]
  | .ushaExt w e => [w.toWord 11 true, e.toWord]
  | .umovExt w e => [w.toWord 14 true, e.toWord]
  | .umad w e => [w.toWord 3 true, e.toWord]
  | .ubfx w e => [w.toWord 12 true, e.toWord]
  | .usel w e => [w.toWord 15 true, e.toWord]
  | .ucmp w e => [w.toWord 13 true, e.toWord]
  | .rkcfg w e => [w.toWord 37 true, e.toWord]
  | .rkrd w e => [w.toWord 39 true, e.toWord]
  | .barInit w e => [w.toWord 24 true, e.toWord]
  | .barArrive w e => [w.toWord 24 true, e.toWord]
  | .barWait w e => [w.toWord 24 true, e.toWord]
  | .barArrwait w e => [w.toWord 24 true, e.toWord]
  | .barExpect w e => [w.toWord 24 true, e.toWord]
  | .fenceAcq w e => [w.toWord 25 true, e.toWord]
  | .fenceRel w e => [w.toWord 25 true, e.toWord]
  | .fenceAcqrel w e => [w.toWord 25 true, e.toWord]
  | .fenceSc w e => [w.toWord 25 true, e.toWord]
  | .accAcq w e => [w.toWord 36 true, e.toWord]
  | .accRel w e => [w.toWord 36 true, e.toWord]
  | .accWin w e => [w.toWord 36 true, e.toWord]
  | .accAlloc w e => [w.toWord 36 true, e.toWord]
  | .accFree w e => [w.toWord 36 true, e.toWord]
  | .rlogPush w e => [w.toWord 41 true, e.toWord]
  | .rlogGet w e => [w.toWord 41 true, e.toWord]
  | .rlogRet w e => [w.toWord 41 true, e.toWord]
  | .pipeSend w e => [w.toWord 42 true, e.toWord]
  | .pipeRecv w e => [w.toWord 42 true, e.toWord]
  | .hcohFlush w e => [w.toWord 45 true, e.toWord]
  | .hcohInval w e => [w.toWord 45 true, e.toWord]
  | .ctxDrain w e => [w.toWord 53 true, e.toWord]
  | .ctxSvsplit w e => [w.toWord 53 true, e.toWord]
  | .ctxLdsplit w e => [w.toWord 53 true, e.toWord]
  | .ctxSvframe w e => [w.toWord 53 true, e.toWord]
  | .ctxLdframe w e => [w.toWord 53 true, e.toWord]
  | .ctxSvlist w e => [w.toWord 53 true, e.toWord]
  | .ctxSvlistLoad w e => [w.toWord 53 true, e.toWord]
  | .bra w e => [w.toWord 16 true, e.toWord]
  | .call w e => [w.toWord 18 true, e.toWord]
  | .mwait w e => [w.toWord 30 true, e.toWord]
  | .msig w e => [w.toWord 31 true, e.toWord]
  | .rkmrg w e => [w.toWord 38 true, e.toWord]
  | .reservedOp w x => w :: x.toList
  | .resultWriteback .. | .memoryResponse .. | .refusalUrgent .. | .waitCountUrgent .. | .frameGrant ..
  | .eseTrigger .. | .evictionComplete .. | .fillComplete .. | .parkTimeout .. | .matrixStepAccept ..
  | .matrixStepStart .. | .matrixStepWrite .. | .pairTimeout .. | .finPhaseEnd .. | .thrUpdate .. | .tileClearDone ..
  | .tokenGrant .. | .tokenHandoff .. | .mergeAccept .. | .mergeComplete .. | .rkcfgComplete .. | .assayAccept ..
  | .assayComplete .. | .gpkFill .. | .releaseWindowPerform .. | .stall .. | .faultRecordWrite .. | .deferAppend ..
  | .barWaitRelease .. | .copyComplete .. | .tileTransferComplete .. | .translationWalk .. | .atsResponse ..
  | .priResponse .. | .hostRouteTimeout .. | .atsInvalidation .. | .writeAck .. | .clockMarker ..
  | .mwaitSatisfied .. | .qcOpen .. | .qcClose .. | .qcNotify .. | .qcFlush .. | .qcNode .. | .qcResident ..
  | .qcbWriteback .. | .taskDecrement .. | .nodeRecordArrival .. | .nodeReserve .. | .nodeFlushExpiry ..
  | .residency .. | .sotakeTake .. | .sotakePeek .. | .soneed .. | .soavail .. | .soplaceStage .. | .soplaceCommit ..
  | .sopre .. | .soresm .. | .sokill .. | .soevt .. | .illegalCsrAccess .. | .preemptComplete .. | .saveTimeout ..
  | .timeSliceExpiry .. | .teamCompletionCount .. | .microcodeLoad .. | .handlerEntry .. | .halt .. | .watchdog ..
  | .debugStop .. | .debugStep .. | .breakpointStop .. | .debugRegisterWrite .. | .hostBar2Write .. | .flr ..
  | .flrCleanup .. | .flrAllowanceExpiry .. | .flrComplete .. | .peerPacketReceive .. | .pctlEnable ..
  | .pctlHaltRequest .. | .cmaskWrite .. | .fltrsp .. | .attRequest .. | .attestationReport .. | .registerWrite ..
  | .egctlGo .. | .edgeDrainEnd .. | .quiesceEnd .. | .retrainEnd .. | .edgeReady .. | .planeMapUpdate ..
  | .packetRelay .. | .relayDrop .. | .quickSample .. | .fullSweep .. | .clkStep .. | .pislWrite ..
  | .powerOnReset .. | .selfTestDone .. | .coreSpare .. | .recover .. | .svcNop .. | .svcMint .. | .svcQcmd ..
  | .svcLoad .. | .svcFetch .. | .svcFopen .. | .svcFwrite .. | .svcFread .. | .svcFclose .. | .svcResume ..
  | .svcKill .. | .debugContinue .. | .powerRemoval .. | .manufacture .. | .functionLoss .. | .drainRequestCutoff ..
  | .reservedCommand .. => []

/-- The bytes of an instruction, its first word at the lowest address. -/
def encodeBytes (i : Instr) : List Byte := (encode i).flatMap bytesOfWord

/-- The bytes an instruction occupies; execution continues that far beyond its short form (R35). -/
def Instr.bytes (i : Instr) : Nat := 4 * (encode i).length

/-- The step is an instruction, which has words; the others are events. -/
def Instr.isInstruction (i : Instr) : Bool := !(encode i).isEmpty

end Sys2Proof
end

