-- ==== Sys2Proof/Machine/Sparse.lean ====
section
/-!
DEFINITION. Operations over sparse tables (`Sparse` in Word.lean): memories, register files, register pages. A
table lists strictly rising keys and no entry equal to the default, so that equal tables are equal lists.
-/
namespace Sys2Proof

/-- What a table holds at a key: the value first listed, or the default `z`. -/
def Sparse.get {α : Type} (z : α) : Sparse α → Nat → α
  | [], _ => z
  | (k, v) :: rest, n => if n = k then v else Sparse.get z rest n

/-- The table with nothing listed at key `n`. -/
def Sparse.drop {α : Type} : Sparse α → Nat → Sparse α
  | [], _ => []
  | (k, v) :: rest, n => if n = k then Sparse.drop rest n else (k, v) :: Sparse.drop rest n

/-- The table with value `v` at key `n`, keys kept rising and default values unlisted. -/
def Sparse.set {α : Type} [DecidableEq α] (z : α) : Sparse α → Nat → α → Sparse α
  | [], n, v => if v = z then [] else [(n, v)]
  | (k, w) :: rest, n, v =>
    if n < k then (if v = z then (k, w) :: Sparse.drop rest n else (n, v) :: (k, w) :: rest)
    else if n = k then (if v = z then Sparse.drop rest n else (n, v) :: rest)
    else (k, w) :: Sparse.set z rest n v

/-- The table's canonical form: keys strictly rising from `lo`, no default value listed. -/
def Sparse.wfFrom {α : Type} [DecidableEq α] (z : α) : Nat → Sparse α → Bool
  | _, [] => true
  | lo, (k, v) :: rest => decide (lo ≤ k) && decide (v ≠ z) && Sparse.wfFrom z (k + 1) rest

/-- The canonical form of a table. -/
def Sparse.wf {α : Type} [DecidableEq α] (z : α) (t : Sparse α) : Bool := Sparse.wfFrom z 0 t

/-- What a byte of memory that nothing has written reads as. DESIGN CHOICE (log 1): the spec gives no power-on
contents, and the model takes zero. -/
def emptyByte : Byte := 0

/-- One byte of a memory. -/
def Memory.get (m : Memory) (a : Nat) : Byte := Sparse.get emptyByte m a
/-- A memory with one byte written. -/
def Memory.set (m : Memory) (a : Nat) (b : Byte) : Memory := Sparse.set emptyByte m a b
/-- The canonical form of a memory. -/
def Memory.wf (m : Memory) : Bool := Sparse.wf emptyByte m

/-- `n` consecutive bytes from address `a` up. -/
def Memory.bytes (m : Memory) (a : Nat) : Nat → List Byte
  | 0 => []
  | n + 1 => m.get a :: Memory.bytes m (a + 1) n

/-- Bytes stored from address `a` up. -/
def Memory.store (m : Memory) (a : Nat) : List Byte → Memory
  | [] => m
  | b :: rest => Memory.store (m.set a b) (a + 1) rest

/-- The value of a byte string, its first byte lowest (R8). -/
def leNat : List Byte → Nat
  | [] => 0
  | b :: rest => b.toNat + 256 * leNat rest

/-- The low `n` bytes of a value, lowest first (R8). -/
def leBytes : Nat → Nat → List Byte
  | 0, _ => []
  | n + 1, v => BitVec.ofNat 8 v :: leBytes n (v / 256)

/-! ### Tables keyed by number whose entries exist or not -/

/-- The entry of a keyed list. -/
def lookupKey {α : Type} : List (Nat × α) → Nat → Option α
  | [], _ => none
  | (k, v) :: rest, n => if k = n then some v else lookupKey rest n

/-- The list with the entry at `n` replaced, or added in key order. -/
def insertKey {α : Type} : List (Nat × α) → Nat → α → List (Nat × α)
  | [], n, v => [(n, v)]
  | (k, w) :: rest, n, v =>
    if n < k then (n, v) :: (k, w) :: rest
    else if k = n then (n, v) :: rest
    else (k, w) :: insertKey rest n v

/-- The list without the entry at `n`. -/
def eraseKey {α : Type} : List (Nat × α) → Nat → List (Nat × α)
  | [], _ => []
  | (k, w) :: rest, n => if k = n then eraseKey rest n else (k, w) :: eraseKey rest n

/-- The list with the entry at `n`, where there is one, changed. -/
def modifyKey {α : Type} (l : List (Nat × α)) (n : Nat) (f : α → α) : List (Nat × α) :=
  match lookupKey l n with
  | none => l
  | some v => insertKey l n (f v)

/-- An entry put before the first that it may precede. -/
def insertBy {α : Type} (le : α → α → Bool) (x : α) : List α → List α
  | [] => [x]
  | y :: rest => if le x y then x :: y :: rest else y :: insertBy le x rest

/-- A list in the order of `le`; entries that may stand either way keep their order. -/
def orderBy {α : Type} (le : α → α → Bool) (l : List α) : List α := l.foldr (insertBy le) []

/-- The lowest number below `bound` that is no key of the list. -/
def lowestFree {α : Type} (l : List (Nat × α)) (bound : Nat) : Option Nat :=
  (List.range bound).find? fun n => (lookupKey l n).isNone

end Sys2Proof
end

