-- ==== Sys2Proof/Machine/Numerics.lean ====
section
/-!
DEFINITION. Numbers to the bit (R65 to R85): exact values of the float formats, rounding, NaN results, flushing,
saturation, and the integer ranges. A finite value is an exact dyadic (-1)^s · m · 2^e, so each operation is
computed exactly and narrowed once.
-/
namespace Sys2Proof.Machine

/-- The float formats that lane instructions and matrix operands use (R66, R68, R69). -/
inductive FKind
  | f16 | bf16 | f32 | f64 | e4m3 | e5m2 | e2m1
  deriving DecidableEq, Repr

/-- Width of the exponent field. -/
def FKind.ebits : FKind → Nat
  | .f16 => 5 | .bf16 => 8 | .f32 => 8 | .f64 => 11 | .e4m3 => 4 | .e5m2 => 5 | .e2m1 => 2
/-- Width of the fraction field. -/
def FKind.fbits : FKind → Nat
  | .f16 => 10 | .bf16 => 7 | .f32 => 23 | .f64 => 52 | .e4m3 => 3 | .e5m2 => 2 | .e2m1 => 1
/-- Width of a pattern. -/
def FKind.bits (k : FKind) : Nat := 1 + k.ebits + k.fbits
/-- The exponent bias (R66, R68, R69). -/
def FKind.bias (k : FKind) : Nat := 2 ^ (k.ebits - 1) - 1
/-- The exponent of the smallest normal. -/
def FKind.emin (k : FKind) : Int := 1 - (k.bias : Int)
/-- The formats with infinities and a whole exponent code for NaN. -/
def FKind.ieee : FKind → Bool
  | .e4m3 | .e2m1 => false
  | _ => true
/-- The formats that `%mode`.FTZ flushes (R80). -/
def FKind.flushes : FKind → Bool
  | .f32 | .f16 | .bf16 => true
  | _ => false

/-- An exact float value. A NaN keeps its sign and its fraction, left-aligned in 52 bits. -/
inductive FVal
  | nan (s : Bool) (frac : Nat)
  | inf (s : Bool)
  | fin (s : Bool) (m : Nat) (e : Int)
  deriving DecidableEq, Repr

/-- The result of an invalid operation (R81): it encodes as the canonical NaN. -/
def FVal.invalid : FVal := .nan false (2 ^ 51)

/-- A NaN. -/
def FVal.isNan : FVal → Bool
  | .nan _ _ => true
  | _ => false
/-- The sign bit. -/
def FVal.sign : FVal → Bool
  | .nan s _ | .inf s | .fin s _ _ => s
/-- A zero of either sign. -/
def FVal.isZero : FVal → Bool
  | .fin _ 0 _ => true
  | _ => false

/-- The value of a pattern of format `k`; `x` is the BF16 pattern of the E2M1 extra value (R66 to R70). A signalling
NaN extra value reads as the same NaN made quiet. -/
def FKind.decode (k : FKind) (x : BitVec 16) (p : Nat) : FVal :=
  let bf (q : Nat) : FVal :=
    let s := q / 2 ^ 15 % 2 == 1
    let e : Nat := q / 2 ^ 7 % 2 ^ 8
    let f : Nat := q % 2 ^ 7
    if e = 255 then (if f = 0 then .inf s else .nan s (f * 2 ^ 45))
    else if e = 0 then .fin s f (-133) else .fin s (f + 128) ((e : Int) - 134)
  let s := p / 2 ^ (k.ebits + k.fbits) % 2 == 1
  let e : Nat := p / 2 ^ k.fbits % 2 ^ k.ebits
  let f : Nat := p % 2 ^ k.fbits
  let v : FVal :=
    if e = 0 then .fin s f (k.emin - k.fbits) else .fin s (f + 2 ^ k.fbits) ((e : Int) - k.bias - k.fbits)
  match k with
  | .e2m1 =>
    if p % 16 = 8 then
      match bf x.toNat with
      | .nan t fr => .nan t (if fr / 2 ^ 51 % 2 == 1 then fr else fr + 2 ^ 51)
      | w => w
    else v
  | .e4m3 => if e = 15 ∧ f = 7 then .nan s (7 * 2 ^ 49) else v
  | _ => if e = 2 ^ k.ebits - 1 then (if f = 0 then .inf s else .nan s (f * 2 ^ (52 - k.fbits))) else v

/-- What rounding and NaN results depend on: the mode, `%mode`'s FTZ and CNAN, whether the result saturates, the draw
of R78 and the E2M1 extra value. -/
structure FEnv where
  rnd : Rnd
  ftz : Bool
  cnan : Bool
  sat : Bool
  draw : Word
  x : BitVec 16
  deriving DecidableEq, Repr

/-- The pattern of an infinity or, in the formats without one, of what R82 puts in its place; a NaN is canonical under
CNAN (R81). -/
def FKind.infBits (k : FKind) (cnan s : Bool) : Nat :=
  let sg := if s then 2 ^ (k.ebits + k.fbits) else 0
  match k with
  | .e4m3 => (if cnan then 0 else sg) + 0x7F
  | .e2m1 => sg + 7
  | _ => sg + (2 ^ k.ebits - 1) * 2 ^ k.fbits

/-- The pattern of the largest finite value (R67). -/
def FKind.maxBits (k : FKind) (s : Bool) : Nat :=
  let sg := if s then 2 ^ (k.ebits + k.fbits) else 0
  match k with
  | .e4m3 => sg + 0x7E
  | .e2m1 => sg + 7
  | _ => sg + (2 ^ k.ebits - 1) * 2 ^ k.fbits - 1

/-- The pattern of a NaN result in format `k` (R81). -/
def FKind.nanBits (k : FKind) (env : FEnv) (s : Bool) (frac : Nat) : Nat :=
  let sg := if s && !env.cnan then 2 ^ (k.ebits + k.fbits) else 0
  match k with
  | .e2m1 => if (env.x.toNat / 2 ^ 7 % 2 ^ 8 = 255) ∧ env.x.toNat % 2 ^ 7 ≠ 0 then 8 else 0
  | .e4m3 => sg + 0x7F
  | .e5m2 => sg + 0x7E
  | _ =>
    let top := frac / 2 ^ (52 - k.fbits)
    let quiet := if top / 2 ^ (k.fbits - 1) % 2 = 1 then top else top + 2 ^ (k.fbits - 1)
    sg + (2 ^ k.ebits - 1) * 2 ^ k.fbits + (if env.cnan then 2 ^ (k.fbits - 1) else quiet)

/-- Whether a magnitude `hi + lo/2^sh` is rounded away from zero (R77, R78); `s` is its sign. -/
def roundsAway (env : FEnv) (s : Bool) (hi lo sh : Nat) : Bool :=
  if lo = 0 then false
  else
    match env.rnd with
    | .rne | .mode => decide (2 * lo > 2 ^ sh) || (decide (2 * lo = 2 ^ sh) && decide (hi % 2 = 1))
    | .rna => decide (2 * lo ≥ 2 ^ sh)
    | .rz => false
    | .ru => !s
    | .rd => s
    | .rs => decide (lo * 2 ^ 24 / 2 ^ sh + env.draw.toNat % 2 ^ 24 ≥ 2 ^ 24)

/-- The overflow result of R82, or the largest finite value under `sat` (R83). -/
def FKind.overflow (k : FKind) (env : FEnv) (s : Bool) : Nat :=
  if env.sat then k.maxBits s
  else
    match env.rnd with
    | .rz => k.maxBits s
    | .ru => if s then k.maxBits s else k.infBits env.cnan s
    | .rd => if s then k.infBits env.cnan s else k.maxBits s
    | _ => k.infBits env.cnan s

/-- An exact zero or a result rounded to zero: E2M1 has no zero of sign 1 (R77). -/
def FKind.zeroBits (k : FKind) (s : Bool) : Nat :=
  if k = .e2m1 then 0 else if s then 2 ^ (k.ebits + k.fbits) else 0

/-- A nonzero magnitude m·2^e rounded and encoded (R77 steps 3 to 6). -/
def FKind.roundFin (k : FKind) (env : FEnv) (s : Bool) (m : Nat) (e : Int) : Nat :=
  let top : Int := e + Nat.log2 m
  if env.ftz && k.flushes && decide (top < k.emin) then k.zeroBits s
  else
    let q : Int := (if top < k.emin then k.emin else top) - k.fbits
    let hi0 : Nat := if q ≤ e then m * 2 ^ (e - q).toNat else m / 2 ^ (q - e).toNat
    let lo : Nat := if q ≤ e then 0 else m % 2 ^ (q - e).toNat
    let hi := if roundsAway env s hi0 lo (q - e).toNat then hi0 + 1 else hi0
    let sg := if s then 2 ^ (k.ebits + k.fbits) else 0
    if hi = 0 then k.zeroBits s
    else
      -- a carry out of the fraction moves to the next binade
      let (h, q') := if hi = 2 ^ (k.fbits + 1) then (2 ^ k.fbits, q + 1) else (hi, q)
      let field : Int := if h < 2 ^ k.fbits then 0 else q' + k.fbits + k.bias
      let body := (if h < 2 ^ k.fbits then h else field.toNat * 2 ^ k.fbits + (h - 2 ^ k.fbits))
      if body > k.maxBits false then k.overflow env s else sg + body

/-- A value rounded to format `k` (R77, R81 to R83). -/
def FKind.round (k : FKind) (env : FEnv) : FVal → Nat
  | .nan s f => k.nanBits env s f
  | .inf s => if env.sat then k.maxBits s else k.infBits env.cnan s
  | .fin s m e => if m = 0 then k.zeroBits s else k.roundFin env s m e

/-- A source of a flushing format under FTZ (R80). -/
def FKind.flush (k : FKind) (ftz : Bool) : FVal → FVal
  | .fin s m e =>
    if ftz && k.flushes && decide (m ≠ 0) && decide (e + Nat.log2 m < k.emin) then .fin s 0 0 else .fin s m e
  | v => v

/-- The first NaN of the sources, made quiet, or none (R81). -/
def firstNan : List FVal → Option FVal
  | [] => none
  | .nan s f :: _ => some (.nan s (if f / 2 ^ 51 % 2 = 1 then f else f + 2 ^ 51))
  | _ :: rest => firstNan rest

/-- A dyadic as an integer multiple of 2^e0, for e0 at most its exponent. -/
def scaled (s : Bool) (m : Nat) (e e0 : Int) : Int :=
  let v : Int := (m * 2 ^ (e - e0).toNat : Nat)
  if s then -v else v

/-- The dyadic n·2^e; an exact zero takes the sign of R77 step 2. -/
def ofScaled (rd : Bool) (n : Int) (e : Int) : FVal :=
  if n = 0 then .fin rd 0 0 else .fin (decide (n < 0)) n.natAbs e

/-- Exact sum; `rd` when the mode is RD (R77, R81). -/
def FVal.add (rd : Bool) (a b : FVal) : FVal :=
  match firstNan [a, b] with
  | some n => n
  | none =>
    match a, b with
    | .inf s, .inf t => if s = t then .inf s else .invalid
    | .inf s, _ => .inf s
    | _, .inf t => .inf t
    | .fin s m e, .fin t n f =>
      if m = 0 ∧ n = 0 then (if s = t then .fin s 0 0 else .fin rd 0 0)
      else
        let e0 := if m = 0 then f else if n = 0 then e else min e f
        ofScaled rd ((if m = 0 then 0 else scaled s m e e0) + (if n = 0 then 0 else scaled t n f e0)) e0
    | _, _ => .invalid

/-- The value with its sign changed; a NaN keeps its sign. -/
def FVal.neg : FVal → FVal
  | .nan s f => .nan s f
  | .inf s => .inf (!s)
  | .fin s m e => .fin (!s) m e

/-- Exact product (R81: 0 × ∞ is invalid). -/
def FVal.mul (a b : FVal) : FVal :=
  match firstNan [a, b] with
  | some n => n
  | none =>
    match a, b with
    | .inf s, .inf t => .inf (s ^^ t)
    | .inf s, .fin t n _ => if n = 0 then .invalid else .inf (s ^^ t)
    | .fin s m _, .inf t => if m = 0 then .invalid else .inf (s ^^ t)
    | .fin s m e, .fin t n f => .fin (s ^^ t) (m * n) (e + f)
    | _, _ => .invalid

/-- Exact a·b + c, with the first NaN source in the order a, b, c. -/
def FVal.fma (rd : Bool) (a b c : FVal) : FVal :=
  match firstNan [a, b, c] with
  | some n => n
  | none => FVal.add rd (a.mul b) c

/-- The order of two numbers: less, equal or greater; none when either is a NaN. Zeros of either sign are equal. -/
def FVal.cmp (a b : FVal) : Option Ordering :=
  match a, b with
  | .nan _ _, _ | _, .nan _ _ => none
  | .inf s, .inf t => some (if s = t then .eq else if s then .lt else .gt)
  | .inf s, .fin _ _ _ => some (if s then .lt else .gt)
  | .fin _ _ _, .inf t => some (if t then .gt else .lt)
  | .fin s m e, .fin t n f =>
    let e0 := min e f
    some (compare (scaled s m e e0) (scaled t n f e0))

/-- An integer as an exact value. -/
def FVal.ofInt (n : Int) : FVal := .fin (decide (n < 0)) n.natAbs 0

/-- A quotient m/n to enough bits that every rounding of a format sees the exact remainder: the dyadic of its first
bits with one sticky bit below (m and n nonzero). -/
def quotient (s : Bool) (m : Nat) (e : Int) (n : Nat) (f : Int) : FVal :=
  let k := 100 + Nat.log2 n
  let q := m * 2 ^ k / n
  let sticky := if m * 2 ^ k % n = 0 then 0 else 1
  .fin s (2 * q + sticky) (e - f - k - 1)

/-- Exact-for-rounding quotient a / b (IEEE rules for zeros and infinities). -/
def FVal.div (a b : FVal) : FVal :=
  match firstNan [a, b] with
  | some n => n
  | none =>
    match a, b with
    | .inf _, .inf _ => .invalid
    | .inf s, .fin t _ _ => .inf (s ^^ t)
    | .fin s _ _, .inf t => .fin (s ^^ t) 0 0
    | .fin s m e, .fin t n f =>
      if n = 0 then (if m = 0 then .invalid else .inf (s ^^ t))
      else if m = 0 then .fin (s ^^ t) 0 0
      else quotient (s ^^ t) m e n f
    | _, _ => .invalid

/-- The integer square root, one bit of the root at a time from bit `k` down. -/
def isqrtFrom (n : Nat) : Nat → Nat → Nat
  | 0, r => if (r + 1) * (r + 1) ≤ n then r + 1 else r
  | k + 1, r => isqrtFrom n k (if (r + 2 ^ (k + 1)) * (r + 2 ^ (k + 1)) ≤ n then r + 2 ^ (k + 1) else r)

/-- The integer square root. -/
def isqrt (n : Nat) : Nat := isqrtFrom n (Nat.log2 n / 2 + 1) 0

/-- The square root of a positive dyadic with a sticky bit below the bits any format rounds at. -/
def sqrtFin (m : Nat) (e : Int) : FVal :=
  let m' := if e % 2 = 0 then m * 2 ^ 120 else m * 2 ^ 121
  let e' := (if e % 2 = 0 then e - 120 else e - 121) / 2
  let r := isqrt m'
  .fin false (2 * r + (if r * r = m' then 0 else 1)) (e' - 1)

/-- Square root; of a negative number invalid, of a zero that zero (R81). -/
def FVal.sqrt : FVal → FVal
  | .nan s f => .nan s (if f / 2 ^ 51 % 2 = 1 then f else f + 2 ^ 51)
  | .inf s => if s then .invalid else .inf false
  | .fin s m e => if m = 0 then .fin s 0 0 else if s then .invalid else sqrtFin m e

/-- A value rounded to an integer under the mode (R85), before clamping. -/
def roundInt (env : FEnv) (s : Bool) (m : Nat) (e : Int) : Int :=
  let hi := if 0 ≤ e then m * 2 ^ e.toNat else m / 2 ^ (-e).toNat
  let lo := if 0 ≤ e then 0 else m % 2 ^ (-e).toNat
  let n : Int := (if roundsAway env s hi lo (-e).toNat then hi + 1 else hi : Nat)
  if s then -n else n

/-! ### Integer types (R72, R90) -/

/-- Width of an element of an integer type. -/
def intWidth : Ty → Nat
  | .i64 | .u64 => 64
  | .i16x2 => 16
  | .i8x4 => 8
  | _ => 32

/-- Whether the type counts as signed (R90). -/
def intSigned : Ty → Bool
  | .u32 | .u64 => false
  | _ => true

/-- The value of an n-bit pattern, signed or unsigned. -/
def intOf (n : Nat) (signed : Bool) (p : Nat) : Int :=
  let q := p % 2 ^ n
  if signed && decide (2 ^ n ≤ 2 * q) then (q : Int) - 2 ^ n else q

/-- The least and greatest value of an n-bit integer (R72). -/
def intMin (n : Nat) (signed : Bool) : Int := if signed then -(2 ^ (n - 1) : Nat) else 0
/-- The greatest value of an n-bit integer (R72). -/
def intMax (n : Nat) (signed : Bool) : Int := if signed then (2 ^ (n - 1) : Nat) - 1 else (2 ^ n : Nat) - 1

/-- A value clamped to the range of an n-bit integer (R83). -/
def intClamp (n : Nat) (signed : Bool) (x : Int) : Int :=
  if x < intMin n signed then intMin n signed else if intMax n signed < x then intMax n signed else x

/-- The low n bits of an integer (R83: wrap modulo 2^n). -/
def intWrap (n : Nat) (x : Int) : Nat := (x % (2 ^ n : Nat)).toNat

/-- The result of exact integer arithmetic in an n-bit element: clamped under sat, otherwise wrapped. -/
def intResult (n : Nat) (signed sat : Bool) (x : Int) : Nat :=
  intWrap n (if sat then intClamp n signed x else x)

/-- FP to integer (R85): rounded, clamped; NaN gives 0, infinities the bounds. -/
def FVal.toInt (env : FEnv) (n : Nat) (signed : Bool) : FVal → Nat
  | .nan _ _ => 0
  | .inf s => intWrap n (if s then intMin n signed else intMax n signed)
  | .fin s m e => intWrap n (intClamp n signed (if m = 0 then 0 else roundInt env s m e))

/-! ### The lane LFSR (R79) -/

/-- One step of the Galois LFSR. -/
def lfsrStep (s : Word) : Word := if s.getLsbD 0 then (s >>> 1) ^^^ 0x80200003#32 else s >>> 1

/-- n steps. -/
def lfsrSteps : Nat → Word → Word
  | 0, s => s
  | n + 1, s => lfsrSteps n (lfsrStep s)

/-- A draw: 32 steps (R79). -/
def lfsrDraw (s : Word) : Word := lfsrSteps 32 s

end Sys2Proof.Machine
end

