-- ==== Sys2Proof/Machine/State.lean ====
section
/-!
DEFINITION. The state of an F9 package as plain data: every register, memory, table and queue the spec gives the
machine, plus fields of the model's own, which say which agent acts next, number the free values and note what is
under way (INVENTORY.md lists them under State). The group and the split that issue stand in focus (`State.grp`, `Group.spl`).
-/
namespace Sys2Proof.Machine

/-! ### Splits, frames and groups -/

/-- An entry of a deferred-mask stack (R191, R192): DEFERRED holds N and the resume PC, WAITING holds J and JPC. -/
structure Deferred where
  waiting : Bool
  mask : Mask
  pc : Dword
  fn : Nat
  since : Nat
  deriving DecidableEq, Repr

/-- What a split that is not ready waits for (R13); `score` is the scoreboard of R14, `behind` another split's wait at
an ordering point (R266), `flush` the ordering point of an `hcoh.flush` (R376), `token` an `acc.acq` and `freeing` an
`acc.free` of a tile (R146, R147), `closing` a `cpclose` of the oldest incomplete batch (R255). -/
inductive Why
  | barrier | yield | copy | engine | counter | matrix | assay | merge | queue | ring | pipe | translate
  | drain | order | flush | behind | room | fetch | score | token (tile : Nat) | freeing (tile : Nat) | closing (batch : Nat)
  deriving DecidableEq, Repr

/-- Whether a split is ready, its frame state (R189), parked (R194), blocked in a waiting instruction (R13) or
frozen by handler mode (R357). A split that waits stands at its instruction and issues it again; `again` says that its wait
is over. -/
inductive Status
  | run | again | frameWait | fillWait | swapped | parked | waiting (w : Why) | frozen
  deriving DecidableEq, Repr

/-- What an `unwind` still has to do when its frames have left the chain and the new top is being filled (R200, steps 4 and
5): the return address, and the overlap registers of the n-th frame, register i in lane L at key 32i + L. -/
structure Cont where
  rpc : Dword
  count : Nat
  values : Sparse Word
  deriving DecidableEq, Repr

/-- A split of a group (R190), with the barrier wait of its split record (R373). `near` is how many descriptors of its chain
the sub-core keeps for it, from the top frame down (R181). `since` is the Postmark of its last park or wait, `urgent` the
turn in which it became urgent (R24, R25), `born` and `tried` order splits for R23. -/
structure Split where
  num : Nat
  pc : Dword
  mask : Mask
  chain : List Nat
  dstack : List Deferred
  status : Status
  waitCount : Nat
  refusals : Nat
  urgent : Option Nat
  born : Nat
  tried : Nat
  since : Nat
  arrived : Bool
  parity : Bool
  barClu : Bool
  barNum : Nat
  near : Nat
  cont : Option Cont
  deriving DecidableEq, Repr

/-- A frame of a group: its descriptor (R181) and its registers, register i in lane L at key 32i + L (R177). -/
structure Frame where
  fn : Nat
  dep : Nat
  pfn : Nat
  rpc : Dword
  kc : Nat
  fc : Nat
  ovll : Bool
  res : Bool
  gmap : List Nat
  regs : Sparse Word
  deriving DecidableEq, Repr

/-- A register as a pending write names it (R14, R390). -/
inductive PendDest
  | lane (fn : Nat) (r : Nat)
  | uni (n : Nat)
  | pred (n : Nat)
  | upred (n : Nat)
  deriving DecidableEq, Repr

/-- A write to a special register that has not landed (R76, R92, R366): its number under R55, the value, and how many
instructions of its sub-core have issued since. -/
structure SpecialWrite where
  num : Nat
  value : Dword
  age : Nat
  deriving DecidableEq, Repr

/-- A write of split `sp` that has not landed (R14, R22, R92): the register file already holds the new value, `old` is
what other splits still read of a uniform register or q predicate, `wait` says a memory response is outstanding,
`mask` the lanes still to land, `age` how many instructions of the sub-core have issued since, `op` the turn of its
instruction. `was` holds what a lane register held before the write in the lanes it writes, for the debugger (R390). `late`
names, for a load that may still be performed, the place of each lane's bytes as (lane, space, address, bytes) (R276,
R285). -/
structure Pend where
  sp : Nat
  dest : PendDest
  mask : Mask
  old : Dword
  wait : Bool
  age : Nat
  op : Nat
  was : Sparse Word
  late : List (Nat × Nat × Nat × Nat)
  deriving DecidableEq, Repr

/-- A parameter window (R246). -/
structure Window where
  base : Dword
  size : Nat
  deriving DecidableEq, Repr

/-- The item a lane holds (R208), the queue it came from, and the flow-lock entry it holds, if any (R212). -/
structure Item where
  desc : BitVec 128
  qkey : Nat
  lock : Option Nat
  deriving DecidableEq, Repr

/-- The state of an entry to handler mode (R357 to R365): `%cause`, `%epc`, the fault words 1 to 6 as recorded at
entry, the splits frozen by it (X among them), and whether its pre-emption is complete (R361, R363). -/
structure Handler where
  cause : Dword
  epc : Dword
  words : List Dword
  frozen : List Split
  complete : Bool
  deriving DecidableEq, Repr

/-- An operation of an engine class that the group has not yet seen counted as complete (R257), by the turn it issued. -/
structure EngineOp where
  cls : Nat
  id : Nat
  finished : Bool
  deriving DecidableEq, Repr

/-- A group (R204) in its sub-core slot, with all team-span state that is its own (R5). `gid` is 32 times its
team's key plus `%group`, `kdesc` the descriptor of the kernel it runs (in a gang, its own member's). `reads` names the B
registers that accepted steps have still to read, as (step, split, frame, register) (R138). `parkRecs` holds the
fault records of a group that R359 parks until its image is written. `pass`, `skip` and
`stepping` are the debugger's: breakpoints to pass (R294), the splits that have passed the one at which they stand, the split
single-stepped; `stoppedAt` is since when the group has been stopped (R369). -/
structure Group where
  gid : Nat
  kdesc : BitVec 1024
  core : Nat
  sc : Nat
  slot : Nat
  prio : Nat
  order : Nat
  spl : Split
  sibs : List Split
  frames : List (Nat × Frame)
  uni : Sparse Dword
  preds : Sparse Mask
  q : BitVec 8
  latches : List (Sparse Dword)
  mode : Dword
  thr : Dword
  kovf : Bool
  spill : Dword
  awb : Nat
  awl : Nat
  lfsr : Sparse Word
  pend : List Pend
  specials : List SpecialWrite
  items : List (Nat × Item)
  windows : List (Nat × Window)
  queue : Option Nat
  batch : Word
  closed : List (Nat × Bool)
  counters : List EngineOp
  reads : List (Nat × Nat × Nat × Nat)
  ack : Nat
  privBase : Dword
  domain : Option Nat
  handler : Option Handler
  parked : Bool
  parkRecs : List (BitVec 512)
  stopped : Bool
  stoppedAt : Nat
  attached : Bool
  pass : Nat
  skip : List Nat
  stepping : Option Nat
  lastIssue : Nat
  clock : Nat
  held : List (DebugReg × Dword)
  deriving DecidableEq, Repr

/-! ### Matrix engines -/

/-- The token of a tile (R147): on the matrix side, awaited by a group since a turn, held by a group, or released by a
group whose ordered writes have not all landed (R150). -/
inductive Token
  | matrix | waiting (gid since : Nat) | held (gid : Nat) | releasing (gid : Nat)
  deriving DecidableEq, Repr

/-- A tile of an engine (R145 to R147): the team that holds it, whether by `acc.alloc`, its token, the groups that wait
behind it with the turns since when, and whether it is being cleared. -/
structure Tile where
  team : Option Nat
  alloc : Bool
  token : Token
  waiters : List (Nat × Nat)
  clearing : Bool
  deriving DecidableEq, Repr

/-- A matrix instruction that has dispatched to its engine (R133): op 0 `mma`, 1 `mms`, 2 `mrk`, the words, the format
block and s(b) as read. -/
structure Dispatched where
  gid : Nat
  sp : Nat
  sc : Nat
  op : Nat
  w : LaneShort
  e : EX
  fmt : List Dword
  sb : Dword
  deriving DecidableEq, Repr

/-- A matrix step of an engine (R138) by the turn of its acceptance: its leader, the leader whose op, kfrac and format
block count (R136), its members as (group, split, first B register), the B quarters by array, the partner engine of a
pair step and whether the partner has joined it, whether it has started, the team memory it reads where that was read
at its start, how many runs have failed the residue check and which columns did (R449), and whether its fin phase runs. -/
structure MatStep where
  id : Nat
  lead : Dispatched
  par : Dispatched
  members : List (Nat × Nat × Nat)
  srcs : List (Nat × List Byte)
  partner : Option Nat
  joined : Bool
  started : Bool
  snap : Option Memory
  runs : Nat
  failed : List (Nat × Nat)
  finPhase : Bool
  deriving DecidableEq, Repr

/-- A list merge (R164): the list image as read, its 16-byte header and its entries, waiting for acceptance or accepted in
turn `id`. -/
structure Merge where
  id : Nat
  gid : Nat
  sp : Nat
  row : Nat
  head : List Byte
  entries : List (Word × Word)
  deriving DecidableEq, Repr

/-- A binding of a list set (R158). -/
structure Binding where
  team : Nat
  lt : Nat
  st : Nat
  cap : Nat
  vt : Nat
  cbase : Word
  cstep : Word
  dom : Option Nat
  deriving DecidableEq, Repr

/-- A matrix engine (R127, R134, R138, R158): `pairStep` numbers its pair steps, `pairFailed` holds as (team, array,
cause) whose next pair instruction belongs to a step that has faulted (R137, R142), `colFails` counts the failed steps of a
column, 64 times its array plus its number (R449). -/
structure Engine where
  tiles : List (Nat × Tile)
  ports : List Dispatched
  steps : List MatStep
  mergesWaiting : List Merge
  merges : List Merge
  bindings : List Binding
  pairStep : Nat
  pairFailed : List (Nat × Nat × Nat)
  colFails : List (Nat × Nat)
  deriving DecidableEq, Repr

/-- A threshold domain (R165). -/
structure Domain where
  kind : Option (Nat × Nat)
  top : Option (Word × Word)
  deriving DecidableEq, Repr

/-- A request at an Assay unit (R169): the issuing group and split, the turn of its acceptance, the descriptor, and the
places of its logits and results as (space, address, bytes). -/
structure AssayReq where
  gid : Nat
  sp : Nat
  op : Nat
  accepted : Bool
  desc : BitVec 256
  logAt : List (Nat × Nat × Nat)
  resAt : List (Nat × Nat × Nat)
  deriving DecidableEq, Repr

/-! ### Teams and cores -/

/-- What a team is doing (R370 to R374). -/
inductive Phase
  | running | saving | preempted | ended
  deriving DecidableEq, Repr

/-- What a frame request asks for (R183): a call's frame, with the callee's address, frame size code, overlap code and
return address, or a fill of frame `fn`, or the frame 511 of a handler entry. -/
inductive FrameNeed
  | call (target : Dword) (fc kc : Nat) (rpc : Dword)
  | fill (fn : Nat)
  | handler (target : Dword) (fc : Nat)
  deriving DecidableEq, Repr

/-- An eviction under way (R186): the sub-core, the group, the frame and the granules it gives up. -/
structure Eviction where
  sub : Nat
  gid : Nat
  fn : Nat
  gmap : List Nat
  deriving DecidableEq, Repr

/-- A request in a sub-core's queue (R183); `sub` is 8 times the core plus the sub-core. -/
structure FrameReq where
  sub : Nat
  gid : Nat
  sp : Nat
  granules : Nat
  need : FrameNeed
  deriving DecidableEq, Repr

/-- An operation that a pre-emption has left pending (R152): the turn of its acceptance, its engine class, the groups whose
counters count it, and the B registers it has still to read as (group, split, frame, register). -/
structure PendingOp where
  id : Nat
  cls : Nat
  groups : List Nat
  reads : List (Nat × Nat × Nat × Nat)
  deriving DecidableEq, Repr

/-- A placed team (R339, R342, R349). Its key is 4096 times the die plus the placement id; `qkey` is its launch queue,
`bound` the queue its groups take items from (R207), `bare` the groups that ended at its placement (R206), `members` the
descriptors and binding tables of a gang's members (R412), `privs` the private areas of its groups as (address, bytes), `spill`
where their spill areas begin, `software` says how it is saved (R371), `phaseAt` since when it is in its phase, `reason` why it is pre-empted; `pendingOps` are the operations that a pre-emption left
pending, in the order of their records in the team image (R152), `saved` its groups as saved (number; 0 by hardware, 1 by software, 2 parked),
`savedTiles` its tiles as (engine 0 or 1, tile, whether by `acc.alloc`), `savedQueues` the queue of each group,
`parkedAt` where the images of its groups that R359 parked lie,
`savedClocks` how far the watchdog's counts of each group had come, since its last issue and for the deferred entries of each
split (R369). -/
structure Team where
  key : Nat
  ctx : Nat
  lk : Nat
  prio : Nat
  tag : Word
  qkey : Nat
  bound : Option Nat
  bare : List Nat
  ptr : Dword
  number : Nat
  core : Nat
  ng : Nat
  subs : List Nat
  kdescAddr : Dword
  kdesc : BitVec 1024
  binds : List (BitVec 128)
  members : List (BitVec 1024 × List (BitVec 128))
  cluster : Nat
  cw : Nat
  ch : Nat
  rank : Nat
  tmBase : Nat
  tmSize : Nat
  barBase : Nat
  barCount : Nat
  cbarBase : Nat
  cbarCount : Nat
  tile0 : Nat
  tiles : Nat
  ctr : Dword
  slice : Nat
  image : Dword
  privs : List (Nat × Nat)
  spill : Dword
  software : Bool
  phase : Phase
  phaseAt : Nat
  reason : Nat
  placedAt : Nat
  saved : List (Nat × Nat)
  savedTiles : List (Nat × Nat × Bool)
  savedQueues : List (Nat × Nat)
  savedClocks : List (Nat × Nat × List (Nat × List Nat))
  parkedAt : List (Nat × Nat)
  pendingOps : List PendingOp
  deriving DecidableEq, Repr

/-- A held write of a release window (R215): the lock entry and sequence it is keyed by, where it writes (a
physical address, a byte of team or scratch memory, or an accumulator byte), and the bytes. -/
structure HeldWrite where
  entry : Nat
  seq : Nat
  gid : Nat
  lane : Nat
  space : Nat
  addr : Nat
  bytes : List Byte
  sem : Nat
  scope : Nat
  deriving DecidableEq, Repr

/-- A write of a group to global or scratch memory that its home has not acknowledged (R265, R268). The memories hold what a
location holds in the end; `old` is what the home holds of it, as (address, byte), until the write is `landed`. `sent` says
that it has entered the channel of R263. Writes with one group, `op` (the turn that issued it) and `part` count as one. -/
structure Flight where
  gid : Nat
  core : Nat
  op : Nat
  part : Nat
  space : Nat
  addr : Nat
  old : List (Nat × Byte)
  sent : Bool
  landed : Bool
  deriving DecidableEq, Repr

/-- Where a copy counts its completion (R251); a counter and a future by the place that the copy has translated. -/
inductive CopyKind
  | batch | bar (clu : Bool) (n : Nat) | ctr (space addr : Nat) | fut (addr v : Dword) (pa : Nat)
  deriving DecidableEq, Repr

/-- A run of bytes that a copy moves (spaces as in `HeldWrite`); `data` holds the source bytes where they have been read,
`written` says that they have reached the destination. -/
structure Move where
  srcSpace : Nat
  src : Nat
  dstSpace : Nat
  dst : Nat
  len : Nat
  data : Option (List Byte)
  written : Bool
  deriving DecidableEq, Repr

/-- A copy in flight (R251): its group (2^41 more once its team has been killed), core and context, the moves it makes,
and the number of its batch once that is closed. -/
structure Copy where
  gid : Nat
  core : Nat
  ctx : Nat
  kind : CopyKind
  batch : Option Nat
  count : Nat
  moves : List Move
  deriving DecidableEq, Repr

/-! ### Queues, locks and nodes -/

/-- A parked item (R226, R314), with the Postmark at which it was parked. -/
structure ParkedItem where
  qkey : Nat
  desc : BitVec 128
  lock : Option Nat
  slot : Bool
  since : Nat
  deriving DecidableEq, Repr

/-- An item of a killed team for which its QC's parked table had no room: it is parked when an entry is free (R314). -/
structure LateParking where
  item : Item
  lane : Nat
  cause : Nat
  pc : Dword
  deriving DecidableEq, Repr

/-- A flow-lock entry of a QC (R211, R214): whether it is held, its next sequence, its release point, and the
resolved sequences beyond it. For STALL (R229), the Postmark since when the slot at the release point has been unresolved,
that at which the entry's held lock first set aside an item that still waits, and which blocks have been posted. -/
structure LockEntry where
  held : Bool
  next : Nat
  point : Nat
  resolved : List Nat
  since : Nat
  waited : Nat
  posted : List Nat
  deriving DecidableEq, Repr

/-- A graph node bound to a record queue (R325 to R328): the unreserved records it has taken, with the Postmarks of their
arrival, the reserved records of launches by number (2^32 plus the key of its team once that is placed), when it last
reserved, the wait list with its arrival Postmarks, the slots from least to most recently used. -/
structure Node where
  ncb : Dword
  eligible : List (BitVec 128 × Nat)
  reserved : List (Nat × List Item)
  launches : Nat
  restart : Nat
  wait : List (BitVec 128 × Nat)
  lru : List Nat
  posted : Bool
  deriving DecidableEq, Repr

/-- A fill that a split has requested of a group packer (R207, R223): the predicate `item.yield` writes, its effective
mask, the lanes to fill, and the length of the instruction (0 for the first fill of a placed group). -/
structure FillReq where
  gid : Nat
  sp : Nat
  pred : Nat
  eff : Mask
  targets : Mask
  len : Nat
  deriving DecidableEq, Repr

/-- A walk of waiters and successors that a QC has under way (R318 to R321): the next waiter node of a future, and the
address and number of the successors left. -/
structure Walk where
  die : Nat
  ctx : Nat
  future : Dword
  node : Dword
  faulted : Bool
  succ : Dword
  left : Nat
  deriving DecidableEq, Repr

/-- An open queue: the QC's cached QCB (R302, R303) and the lists it keeps for the queue. `deferred` waits for free
slots (R224, R316), `arrivals` holds the Postmarks at which a launch queue's records arrived (R353). -/
structure Queue where
  base : Dword
  tail : Word
  head : Word
  fq : Nat
  fqv : Bool
  stall : Nat
  pasid : Nat
  part : Nat
  gen : Nat
  home : Nat
  logcap : Nat
  slot : Bool
  swr : Bool
  closed : Bool
  kind : Nat
  dirty : Bool
  held : List Item
  reinjected : List Item
  deferred : List (BitVec 128)
  records : List (List (BitVec 512))
  bound : List Nat
  node : Option Node
  waiters : List FillReq
  arrivals : List Nat
  deriving DecidableEq, Repr

/-! ### The Sorting Office -/

/-- A hart of a Sorting Office (R347): its custom CSRs, and the integer registers and trap CSRs its architecture
gives an illegal-instruction exception; `cnt` is the selector last written to SOCNT, `last` the number of the last record it
took, `staged` the members staged as (core, team number, sub-cores). -/
structure Hart where
  pc : Dword
  x : Sparse Dword
  mepc : Dword
  mcause : Dword
  mtvec : Dword
  take : Dword
  recl : Dword
  rech : Dword
  qinf : Dword
  need : Dword
  need2 : Dword
  needAddr : Dword
  avail : Dword
  mapl : Dword
  maph : Dword
  place : Dword
  evt : Dword
  cnt : Dword
  last : Option Nat
  staged : List (Nat × Nat × List Nat)
  deriving DecidableEq, Repr

/-- A launch record that a Sorting Office has taken and not yet wholly placed (R340, R414), with the
descriptors and binding tables of a gang's three members; `id` numbers the records that the office has taken. -/
structure Launch where
  id : Nat
  qkey : Nat
  record : BitVec 128
  kdescAddr : Dword
  kdesc : BitVec 1024
  binds : List (BitVec 128)
  members : List (BitVec 1024 × List (BitVec 128))
  block : BitVec 512
  ctx : Nat
  teams : Nat
  next : Nat
  arrived : Nat
  denied : Option Nat
  deriving DecidableEq, Repr

/-- A Sorting Office (R341, R347, R350, R352): its launch-queue table, launches in progress, how many records it has taken, events, and the length
of the loaded image. -/
structure Office where
  indices : List (Nat × Nat)
  launches : List Launch
  taken : Nat
  events : List (Nat × Nat)
  imageLen : Nat
  deriving DecidableEq, Repr

/-! ### Translation, contexts, service calls, links -/

/-- A queue context (R424). -/
structure Context where
  tbase : Nat
  drain : Nat
  cfqv : Bool
  cfq : Nat
  st : Nat
  gen : Nat
  vf : Nat
  part : Nat
  pasid : Nat
  since : Nat
  deriving DecidableEq, Repr

/-- The answer to a parked access: none yet, success (the access walks again), or failure (it takes PAGE). -/
inductive Answer
  | none | ok | fail
  deriving DecidableEq, Repr

/-- A parked access (R384, R385): who waits, the page, the kind (R426), the route (`host`: 0 service core, 1 an
ATS translation request, 2 a PRI page request, 3 a CXL window of R433), and the Postmark at which the request went out. -/
structure ParkedAccess where
  tag : Nat
  gid : Nat
  sp : Nat
  ctx : Nat
  va : Dword
  kind : Nat
  host : Nat
  since : Nat
  answer : Answer
  deriving DecidableEq, Repr

/-- A translation the host answered through ATS (R385), held until it is invalidated. -/
structure AtsEntry where
  pasid : Nat
  page : Nat
  target : Nat
  write : Bool
  deriving DecidableEq, Repr

/-- A service call taken from a group and not yet completed (R387, R425): its ticket word and its request. -/
structure Call where
  part : Nat
  ctx : Nat
  ticket : Dword
  req : BitVec 512
  deriving DecidableEq, Repr

/-- An open file of a partition's storage agent (R425). -/
structure File where
  handle : Nat
  part : Nat
  vf : Nat
  flags : Nat
  path : List Byte
  deriving DecidableEq, Repr

/-- A line of the hub die's write-back host cache, with its dirty bytes (R388). -/
structure HostLine where
  bytes : List Byte
  dirty : BitVec 128
  deriving DecidableEq, Repr

/-- A release at package scope whose marker is under way from die `src` to die `dst` (R267); die 8 is the hub. -/
structure Marker where
  src : Nat
  dst : Nat
  value : Word
  deriving DecidableEq, Repr

/-- An Ultra Ethernet connection of a function (R427, R433): the edge group it goes through, whether a send of it waits
for that group, the send allowances its peer has granted, the reply reservations it holds, and whether it is open, or
ended with reason RESET. -/
structure Conn where
  vf : Nat
  edge : Nat
  waiting : Bool
  allowance : Nat
  reservations : Nat
  isOpen : Bool
  deriving DecidableEq, Repr

/-- The part's lifetime state (R5, R443, R449, R453): the Hallmark key, the certificate and configuration record in
flash, the margin tables of the islands, the flash ageing log, and the spare assignments. -/
structure Lifetime where
  secret : Option Nat
  cert : List Byte
  config : List Byte
  margins : List (Nat × List (BitVec 16))
  log : List (BitVec 256)
  spareCores : List (Nat × Nat)
  spareCols : List (Nat × Nat)
  deriving DecidableEq, Repr

/-- The last fault raised (R354), for the step that undoes a chain (R31) and for statements: the group and split,
the PC, the cause, the failing lanes of a lane cause and the lowest one's address, and the effective mask of the
instruction. -/
structure Trap where
  gid : Nat
  sp : Nat
  pc : Dword
  cause : Nat
  tcode : Nat
  lanes : Mask
  addrs : List (Nat × Dword)
  eff : Mask
  deriving DecidableEq, Repr

/-! ### The package -/

/-- The F9 package. -/
structure State where
  agenda : List Instr
  sched : List (Nat × Nat)
  turn : Nat
  free : Nat
  powered : Bool
  postmark : Dword
  grp : Group
  others : List Group
  trap : Option Trap
  teams : List (Nat × Team)
  nextOrder : Nat
  last : List (Nat × Nat × Nat)
  lastSub : Nat
  mem : Memory
  teamMem : Memory
  scratch : Memory
  accMem : Memory
  l1 : List (Nat × List Byte)
  hostMem : Memory
  hostCache : List (Nat × HostLine)
  fcap : Sparse Nat
  requests : List FrameReq
  evicting : List Eviction
  barriers : Sparse Dword
  relwin : List (Nat × List HeldWrite)
  flights : List Flight
  copies : List (Nat × Copy)
  nextCopy : Nat
  engines : List (Nat × Engine)
  domains : List (Nat × Domain)
  assay : List (Nat × List AssayReq)
  vrel : Sparse Word
  vapp : Sparse Word
  stamps : List (Nat × List Word)
  hubVec : Sparse Word
  markers : List Marker
  queues : List (Nat × Queue)
  locks : List (Nat × LockEntry)
  parkedItems : List (Nat × List ParkedItem)
  parkLater : List LateParking
  walks : List Walk
  offices : List (Nat × Office)
  harts : List (Nat × Hart)
  officeMem : Memory
  officeCounters : Sparse Dword
  contexts : List (Nat × Context)
  queueKeys : List (Nat × BitVec 256)
  partRegs : Sparse Dword
  devRegs : Sparse Dword
  devNum : Nat
  parkedAccesses : List ParkedAccess
  nextTag : Nat
  ats : List AtsEntry
  tickets : Sparse Nat
  calls : List Call
  files : List File
  disk : List (List Byte × Memory)
  planes : List (Nat × BitVec 128)
  relays : List (Packet × Nat)
  sent : List Packet
  edgeSince : Sparse Nat
  edgeClosed : List Nat
  conns : List Conn
  bar2 : Sparse Nat
  delegated : Bool
  firmware : List Byte
  rootEvents : List (BitVec 256)
  life : Lifetime
  guards : Sparse Nat
  breakpoints : List Dword
  debugged : List Nat
  stops : List Nat
  busy : List (Nat × Nat)
  busyRest : Sparse Nat
  deriving DecidableEq, Repr

/-- How a step of the model can stop. -/
inductive Fault
  /-- The package has no power and nothing restores it (R5). Raised by `step`. Safe: nothing runs without power. -/
  | noPower
  deriving DecidableEq, Repr

/-- How the model can refuse a step. -/
inductive Refusal
  /-- An instruction the model gives no meaning; raised by `exec`. Safe: nothing can be proved about its effect. -/
  | notModelled (mnemonic : String)
  deriving DecidableEq, Repr

/-- A split that does not exist: no lanes, no frames. -/
def Split.empty : Split :=
  { num := 0, pc := 0, mask := 0, chain := [], dstack := [], status := .run, waitCount := 0, refusals := 0
    urgent := none, born := 0, tried := 0, since := 0, arrived := false, parity := false, barClu := false, barNum := 0
    near := 1, cont := none }

/-- The group in focus while no group is placed: it has no frame, no lanes and a number no team has; every register is
at its reset value. `%mode` holds the
reset values of R75, `%thr` the empty-domain value of R166. -/
def Group.empty : Group :=
  { gid := 2 ^ 40, kdesc := 0, core := 0, sc := 0, slot := 0, prio := 0, order := 0, spl := Split.empty, sibs := [], frames := []
    uni := [], preds := [], q := 0, latches := [], mode := 0x8000000000000001, thr := 0xFFFFFFFFFF800000, kovf := false
    spill := 0, awb := 0, awl := 0, lfsr := [], pend := [], specials := [], items := [], windows := [], queue := none, batch := 0
    closed := [], counters := [], reads := [], ack := 0, privBase := 0, domain := none, handler := none, parked := false, parkRecs := []
    stopped := false, stoppedAt := 0, attached := false, pass := 0, skip := [], stepping := none, lastIssue := 0, clock := 0, held := [] }

/-- The lifetime state of a part not yet manufactured (R453). -/
def Lifetime.empty : Lifetime :=
  { secret := none, cert := [], config := [], margins := [], log := [], spareCores := [], spareCols := [] }

/-- The reset values of the partition pages (R420): WDOG is 2,000,000 µs, every other register 0. A register lies at
key 2^16 times the partition plus its offset. -/
def resetPartRegs : Sparse Dword := (List.range 32).map fun p => (p * 0x10000 + 0x98, 2000000)

/-- The reset values of the device page: PISL (R442) holds GUARD 20 and FCAP 144, and 104 for FMAX and FCUR; every
other register 0 (R422, R430, R431, R443, R446). -/
def resetDevRegs : Sparse Dword := (List.range 96).map fun i => (0x1400 + 8 * i, 0x0014000068689000)

/-- The machine right after power-on reset: no team placed, no queue open, no context open, every readiness bit
clear (R447), memory with nothing listed. -/
def State.reset : State :=
  { agenda := [], sched := [], turn := 0, free := 0, powered := true, postmark := 0, grp := Group.empty, others := []
    trap := none, teams := [], nextOrder := 0, last := [], lastSub := 0, mem := [], teamMem := [], scratch := []
    accMem := [], l1 := [], hostMem := [], hostCache := [], fcap := [], requests := [], evicting := [], barriers := [], relwin := [], flights := []
    copies := [], nextCopy := 0, engines := [], domains := [], assay := [], vrel := [], vapp := [], stamps := []
    hubVec := [], markers := [], queues := [], locks := [], parkedItems := [], parkLater := [], walks := [], offices := []
    harts := [], officeMem := [], officeCounters := [], contexts := [], queueKeys := [], partRegs := resetPartRegs
    devRegs := resetDevRegs, devNum := 0, parkedAccesses := [], nextTag := 0, ats := [], tickets := [], calls := []
    files := [], disk := [], planes := [], relays := [], sent := [], edgeSince := []
    edgeClosed := [], conns := [], bar2 := [], delegated := false, firmware := [], rootEvents := [], life := Lifetime.empty, guards := []
    breakpoints := [], debugged := [], stops := [], busy := [], busyRest := [] }

end Sys2Proof.Machine
end

