-- ==== Sys2Proof/Machine/Regs.lean ====
section
/-!
DEFINITION. Registers of a group: frames and their window mapping (R177), lane registers, uniform registers and
predicates with their pending writes (R22, R92), latches (R27), masks (R33) and the LFSRs (R79).
-/
namespace Sys2Proof.Machine

/-- The outcome of a step of this machine. -/
abbrev Out := Host.Outcome State Fault Refusal

/-! ### Masks -/

/-- The lanes of a mask, ascending. -/
def lanesOf (m : Mask) : List Nat := (List.range 32).filter fun l => m.getLsbD l

/-- The mask with only lane `l`. -/
def laneBit (l : Nat) : Mask := BitVec.ofNat 32 (2 ^ l)

/-- The mask of a list of lanes. -/
def maskOf (ls : List Nat) : Mask := ls.foldl (fun m l => m ||| laneBit l) 0

/-- The lowest lane of a mask. -/
def lowestLane (m : Mask) : Nat := ((List.range 32).find? fun l => m.getLsbD l).getD 0

/-! ### Frames (R175 to R181) -/

/-- The overlap k of an overlap code (R54). -/
def overlapOf (kc : Nat) : Nat := if kc = 0 then 0 else 2 ^ kc

/-- The number of registers of a frame. -/
def Frame.size (f : Frame) : Nat := 8 * (f.fc + 1)

/-- The frame of a group with a number. -/
def Group.frame? (g : Group) (fn : Nat) : Option Frame := lookupKey g.frames fn

/-- The top frame of the issuing split's chain. -/
def Group.top? (g : Group) : Option Frame :=
  match g.spl.chain with
  | [] => none
  | fn :: _ => g.frame? fn

/-- F, the size of the issuing split's current frame (R57); 0 where it has none. -/
def Group.frameSize (g : Group) : Nat :=
  match g.top? with
  | none => 0
  | some f => f.size

/-- Which register of which frame window register `i` is (R177): an overlap register is the caller's, unless the frame
carries OVLL = 1. -/
def locate (frames : List (Nat × Frame)) : List Nat → Nat → Option (Nat × Nat)
  | [], _ => none
  | fn :: rest, i =>
    match lookupKey frames fn with
    | none => none
    | some f =>
      if i < overlapOf f.kc && !f.ovll then
        match rest with
        | [] => none
        | p :: _ =>
          match lookupKey frames p with
          | none => none
          | some c => locate frames rest (c.size - overlapOf f.kc + i)
      else some (fn, i)

/-- Register `r` of frame `fn` in lane `l`. -/
def Group.frameGet (g : Group) (fn r l : Nat) : Word :=
  match g.frame? fn with
  | none => 0
  | some f => Sparse.get 0 f.regs (32 * r + l)

/-- Register `r` of frame `fn` written in lane `l`. -/
def Group.frameSet (g : Group) (fn r l : Nat) (v : Word) : Group :=
  { g with frames := modifyKey g.frames fn fun f => { f with regs := Sparse.set 0 f.regs (32 * r + l) v } }

/-- Lane register v(i) of the issuing split's window in lane `l`. -/
def Group.laneGet (g : Group) (i l : Nat) : Word :=
  match locate g.frames g.spl.chain i with
  | none => 0
  | some (fn, r) => g.frameGet fn r l

/-- Lane register v(i) written in lane `l`. -/
def Group.laneSet (g : Group) (i l : Nat) (v : Word) : Group :=
  match locate g.frames g.spl.chain i with
  | none => g
  | some (fn, r) => g.frameSet fn r l v

/-- The pair v(i):v(i+1) as 64 bits (R65). -/
def Group.lanePair (g : Group) (i l : Nat) : Dword := g.laneGet (i + 1) l ++ g.laneGet i l

/-- The pair v(i):v(i+1) written (R65). -/
def Group.lanePairSet (g : Group) (i l : Nat) (v : Dword) : Group :=
  (g.laneSet i l (v.extractLsb' 0 32)).laneSet (i + 1) l (v.extractLsb' 32 32)

/-! ### Pending writes and uniform state (R14, R22, R92) -/

/-- What split `sp` reads of a destination with pending writes: the value before the oldest write of another split
that follows its own last one, if any. -/
def pendOld (sp : Nat) (d : PendDest) : List Pend → Option Dword → Option Dword
  | [], acc => acc
  | e :: rest, acc =>
    if e.dest = d then
      (if e.sp = sp then pendOld sp d rest none else pendOld sp d rest (if acc.isSome then acc else some e.old))
    else pendOld sp d rest acc

/-- s(n) as the issuing split reads it (R92). -/
def Group.uniGet (g : Group) (n : Nat) : Dword :=
  (pendOld g.spl.num (.uni n) g.pend none).getD (Sparse.get 0 g.uni n)

/-- q(n) as the issuing split reads it; q0 reads true (R40, R92). -/
def Group.qGet (g : Group) (n : Nat) : Bool :=
  n == 0 || ((pendOld g.spl.num (.upred n) g.pend none).map (fun v => v.getLsbD 0)).getD (g.q.getLsbD n)

/-- A pending write of the issuing split. -/
def Group.addPend (g : Group) (d : PendDest) (m : Mask) (old : Dword) (wait : Bool) (was : Sparse Word) : Group :=
  { g with
    pend := g.pend ++
      [{ sp := g.spl.num, dest := d, mask := m, old := old, wait := wait, age := 0, op := g.clock, was := was, late := [] }] }

/-- s(n) written by the issuing split; the write is pending until it lands (R92). -/
def Group.uniSet (g : Group) (n : Nat) (v : Dword) : Group :=
  ({ g with uni := Sparse.set 0 g.uni n v } : Group).addPend (.uni n) 0 (Sparse.get 0 g.uni n) false []

/-- q(n) written by the issuing split (R92); q0 is never written. -/
def Group.qSet (g : Group) (n : Nat) (b : Bool) : Group :=
  if n = 0 then g
  else
    let one : BitVec 8 := BitVec.ofNat 8 (2 ^ n)
    ({ g with q := if b then g.q ||| one else g.q &&& ~~~one } : Group).addPend (.upred n) 0
      (if g.q.getLsbD n then 1 else 0) false []

/-- The lane predicate p(n) as a mask; p0 reads all-true (R40). -/
def Group.predMask (g : Group) (n : Nat) : Mask := if n = 0 then 0xFFFFFFFF#32 else Sparse.get 0 g.preds n

/-- p(n) in lane `l`. -/
def Group.predGet (g : Group) (n l : Nat) : Bool := (g.predMask n).getLsbD l

/-- p(n) written in the lanes of `m` with the bits of `v`; p0 is never written. -/
def Group.predSet (g : Group) (n : Nat) (m v : Mask) : Group :=
  if n = 0 then g
  else { g with preds := Sparse.set 0 g.preds n ((Sparse.get 0 g.preds n &&& ~~~m) ||| (v &&& m)) }

/-- A register all splits of a group share. -/
def PendDest.shared : PendDest → Bool
  | .uni _ | .upred _ => true
  | _ => false

/-- An older pending write that a younger one may not overtake: writes to one register land in issue order, and the splits
of a group own disjoint lanes (R14, R92). -/
def Pend.orders (e f : Pend) : Bool := e.dest == f.dest && (e.dest.shared || e.sp == f.sp)

/-- The pending writes without those that `ok` picks and that no older write to their register holds back. -/
def landWhere (ok : Pend → Bool) : List Pend → List Pend → List Pend
  | _, [] => []
  | kept, e :: rest =>
    if ok e && !e.wait && !(kept.any fun k => k.orders e) then landWhere ok kept rest
    else e :: landWhere ok (e :: kept) rest

/-- One more clk of the sub-core passes (R92): pending writes age, and those that issued three clks ago land unless their
answer is outstanding. -/
def agePend (l : List Pend) : List Pend :=
  landWhere (fun e => decide (3 ≤ e.age)) [] (l.map fun e => { e with age := e.age + 1 })

/-- A pending write of split `sp` to a register that its next instruction names, or an older one that it may not
overtake. -/
def Pend.named (sp : Nat) (names : PendDest → Bool) (l : List Pend) (e : Pend) : Bool :=
  names e.dest && l.any fun f => f.sp == sp && e.orders f

/-- The pending writes once those to registers that the next instruction of a split names have landed (R14). -/
def landNamed (sp : Nat) (names : PendDest → Bool) (l : List Pend) : List Pend := landWhere (fun e => e.named sp names l) [] l

/-- A register that the next instruction of a split names has an answer outstanding to it (R14). -/
def scoreBlocked (sp : Nat) (names : PendDest → Bool) (l : List Pend) : Bool := l.any fun e => e.wait && e.named sp names l

/-! ### Latches and masks (R27, R33) -/

/-- The latches after a lane instruction with result `r` (R27). -/
def Group.pushLatch (g : Group) (r : Sparse Dword) : Group := { g with latches := (r :: g.latches).take 4 }

/-- Latch b(j) in lane `l`; a latch that nothing has filled reads zero. -/
def Group.latchGet (g : Group) (j l : Nat) : Dword := Sparse.get 0 ((g.latches[j]?).getD []) l

/-- The effective mask of R33. -/
def Group.effMask (g : Group) (p : BitVec 3) (gn : Bool) : Mask :=
  g.spl.mask &&& (if gn then ~~~g.predMask p.toNat else g.predMask p.toNat)

/-! ### The LFSRs (R79) -/

/-- The LFSR state of a lane. -/
def Group.lfsrGet (g : Group) (l : Nat) : Word := Sparse.get 0 g.lfsr l

/-- n draws of a lane: the drawn states, in order. -/
def draws : Nat → Word → List Word
  | 0, _ => []
  | n + 1, s => lfsrDraw s :: draws n (lfsrDraw s)

/-- The group after lane `l` has taken n draws. -/
def Group.drawLane (g : Group) (n l : Nat) : Group :=
  { g with lfsr := Sparse.set 0 g.lfsr l ((draws n (g.lfsrGet l)).getLastD (g.lfsrGet l)) }

/-- The group after every lane of a mask has taken n draws (R78). -/
def Group.drawLanes (g : Group) (n : Nat) (m : Mask) : Group := (lanesOf m).foldl (fun g l => g.drawLane n l) g

/-- Every lane's LFSR seeded by a SEED write (R79). -/
def seedLanes (seed : BitVec 16) : Sparse Word :=
  (List.range 32).foldl
    (fun t l => Sparse.set 0 t l (BitVec.ofNat 32 (seed.toNat * 65536 + (seed.toNat ^^^ l)))) []

/-- Every lane's LFSR seeded from the Postmark when a group is created (R79). -/
def seedFromPostmark (p : Dword) : Sparse Word :=
  (List.range 32).foldl
    (fun t l =>
      let v := p.extractLsb' 0 32 ^^^ BitVec.ofNat 32 (l * 0x00010001)
      Sparse.set 0 t l (if v = 0 then 1 else v)) []

/-! ### `%mode` (R75) -/

/-- The rounding field as a mode. -/
def modeRnd (m : Dword) : Rnd := (Rnd.ofBits (m.extractLsb' 0 3)).getD .rne
/-- FTZ. -/
def modeFtz (m : Dword) : Bool := m.getLsbD 5
/-- SAT. -/
def modeSat (m : Dword) : Bool := m.getLsbD 6
/-- CNAN. -/
def modeCnan (m : Dword) : Bool := m.getLsbD 7
/-- FP4X. -/
def modeX (m : Dword) : BitVec 16 := m.extractLsb' 48 16

/-- `mode(rnd)` of R64. -/
def Group.rndOf (g : Group) (r : Rnd) : Rnd := if r = .mode then modeRnd g.mode else r

/-- `%mode` after a write: reserved bits stay zero, SEED reads zero, and RND 000 or 111 leaves the field (R75). -/
def modeWritten (old v : Dword) : Dword :=
  let r := v.extractLsb' 0 3
  let rnd : BitVec 3 := if r = 0 ∨ r = 7 then old.extractLsb' 0 3 else r
  v.extractLsb' 48 16 ++ (0 : BitVec 40) ++ v.extractLsb' 5 3 ++ (0 : BitVec 2) ++ rnd

/-- A landed write of `%mode`, with the reseeding of R79 when SEED is nonzero. -/
def Group.landMode (g : Group) (v : Dword) : Group :=
  { g with
    mode := modeWritten g.mode v
    lfsr := if v.extractLsb' 16 16 = 0 then g.lfsr else seedLanes (v.extractLsb' 16 16) }

end Sys2Proof.Machine
end

