-- ==== Sys2Proof/Machine/Memory.lean ====
section
/-!
DEFINITION. Locations, homes and caches (R238, R261 to R263, R267, R388, R419): how one access reaches the byte it
names. A location is a space and an address: 0 a device physical address, 1 team memory (`teamAt`: 2^27 times the core plus
the offset; log 89), 2 scratchpad (2^26 times the die), 3 accumulator memory (2^18 times the engine), 4 host memory.
-/
namespace Sys2Proof.Machine

/-- A byte's place. -/
structure Loc where
  space : Nat
  addr : Nat
  deriving DecidableEq, Repr

/-- The place `n` bytes further. -/
def Loc.plus (l : Loc) (n : Nat) : Loc := { l with addr := l.addr + n }

/-- Where a share of team memory begins on a core: shares are numbered apart, so that each is one run however the free memory of
the core is split up (R238, R342; log 89). -/
def teamAt (core base : Nat) : Nat := core * 2 ^ 27 + base

/-- The key of a barrier of a core, numbered apart in the same way. -/
def barAt (core n : Nat) : Nat := core * 2 ^ 18 + n

/-! ### Numbers of cores, dies and sources -/

/-- The compute die of a core number 24d + 6·row + column. -/
def dieOf (core : Nat) : Nat := core / 24

/-- The 8-bit core code of R56. -/
def coreCode (core : Nat) : Nat := 32 * (core / 24) + 8 * (core % 24 / 6) + core % 24 % 6

/-- The core number a code names, where its row and column exist (R56). -/
def coreOfCode (c : Nat) : Option Nat :=
  if c % 8 < 6 then some (24 * (c / 32 % 8) + 6 * (c / 8 % 4) + c % 8) else none

/-- The Postmark source number of unit `u` of a core (R445). -/
def coreSource (core u : Nat) : Nat := dieOf core * 0x1000 + 16 * (core % 24) + u

/-- The source number of unit `k` of a die, or of a hub unit for die 8 (R445). -/
def dieSource (die k : Nat) : Nat := if die = 8 then 0x8000 + k else die * 0x1000 + 0x800 + k

/-! ### Bytes at their homes -/

/-- The byte at a place, as its home holds it. -/
def State.homeGet (s : State) (l : Loc) : Byte :=
  match l.space with
  | 0 => s.mem.get l.addr
  | 1 => s.teamMem.get l.addr
  | 2 => s.scratch.get l.addr
  | 3 => s.accMem.get l.addr
  | _ => s.hostMem.get l.addr

/-- A byte written at its home. -/
def State.homePut (s : State) (l : Loc) (b : Byte) : State :=
  match l.space with
  | 0 => { s with mem := s.mem.set l.addr b }
  | 1 => { s with teamMem := s.teamMem.set l.addr b }
  | 2 => { s with scratch := s.scratch.set l.addr b }
  | 3 => { s with accMem := s.accMem.set l.addr b }
  | _ => { s with hostMem := s.hostMem.set l.addr b }

/-- `n` bytes at their home. -/
def State.homeBytes (s : State) (l : Loc) (n : Nat) : List Byte := (List.range n).map fun i => s.homeGet (l.plus i)

/-- Bytes written at their home, the first lowest. -/
def State.homeStore (s : State) (l : Loc) : List Byte → State
  | [] => s
  | b :: rest => State.homeStore (s.homePut l b) (l.plus 1) rest

/-! ### Homes and the vector clocks (R261, R267) -/

/-- The die that is the home of a physical address; 8 is the hub, none a peer device (R261, R419). -/
def homeDie (pa : Nat) : Option Nat :=
  if pa < 2 ^ 40 then some (pa / 2 ^ 37)
  else if pa < 2 ^ 51 then some 8
  else none

/-- `a ≥ b` for vector entries, modulo 2^32 (R267). -/
def clockGe (a b : Word) : Bool := decide ((a - b).toNat < 2 ^ 31)

/-- The larger of two vector entries. -/
def clockMax (a b : Word) : Word := if clockGe a b then a else b

/-- The release vector a die sends, or the read vector of party `die - 8` of the hub (R267). -/
def State.stampOf (s : State) (die : Nat) : List Word :=
  (List.range 8).map fun k => if 8 ≤ die then Sparse.get 0 s.hubVec (8 * (die - 8) + k) else Sparse.get 0 s.vrel (8 * die + k)

/-! ### Writes on their way to their homes (R262, R263, R265) -/

/-- The home of a place, 9 for a peer device's memory and 10 for the host's (R261). -/
def Loc.home (l : Loc) : Nat :=
  match l.space with
  | 0 => (homeDie l.addr).getD 9
  | 1 => dieOf (l.addr / 2 ^ 27)
  | 2 => l.addr / 2 ^ 26
  | 3 => dieOf (l.addr / 2 ^ 19)
  | _ => 10

/-- The die that requests for a place travel to (R263): the hub for host memory; none for a peer's, whose packets have no
order. -/
def Loc.channel (l : Loc) : Option Nat := if l.home = 9 then none else if l.home = 10 then some 8 else some l.home

/-- Where a write goes. -/
def Flight.loc (f : Flight) : Loc := ⟨f.space, f.addr⟩

/-- Two writes touch a common byte. -/
def Flight.meets (e f : Flight) : Bool := e.space == f.space && e.old.any fun x => f.old.any fun y => x.1 == y.1

/-- A write touches one of `n` bytes from a place on. -/
def Flight.touches (f : Flight) (l : Loc) (n : Nat) : Bool :=
  f.space == l.space && f.old.any fun x => decide (l.addr ≤ x.1) && decide (x.1 < l.addr + n)

/-- A write that stands before `f` in the list and has to be performed before it: one to a common byte, or one that entered
the same channel earlier (R263, R271). -/
def Flight.leads (e f : Flight) : Bool :=
  !e.landed && (e.meets f || (e.sent && e.loc.channel.isSome && e.loc.channel == f.loc.channel && dieOf e.core == dieOf f.core))

/-- The writes that `pick` names performed, each with those that lead it. -/
def landAll (pick : Flight → Bool) (fs : List Flight) : List Flight :=
  (fs.foldr
    (fun e (acc : List Flight × List Flight) =>
      if !e.landed && (pick e || acc.2.any fun f => e.leads f) then ({ e with landed := true } :: acc.1, e :: acc.2)
      else (e :: acc.1, acc.2))
    ([], [])).1

/-- The writes that `pick` names sent into their channels behind those sent before, each with earlier ones to a common
byte. -/
def sendAll (pick : Flight → Bool) (fs : List Flight) : List Flight :=
  let marked := (fs.foldr
    (fun e (acc : List (Bool × Flight) × List Flight) =>
      if !e.sent && (pick e || acc.2.any fun f => e.meets f) then ((true, { e with sent := true }) :: acc.1, e :: acc.2)
      else ((false, e) :: acc.1, acc.2))
    ([], [])).1
  ((marked.filter fun x => !x.1 && x.2.sent) ++ (marked.filter fun x => x.1) ++ marked.filter fun x => !x.1 && !x.2.sent).map
    (·.2)

/-- Writes on their way performed at their homes. -/
def State.landFlights (s : State) (pick : Flight → Bool) : State := { s with flights := landAll pick s.flights }

/-- The writes on their way that touch `n` bytes from a place on performed. -/
def State.landAt (s : State) (l : Loc) (n : Nat) : State := s.landFlights fun f => f.touches l n

/-- A group's writes meet the `.die` condition of R265: those homed on its die are performed, the others enter their
channels. -/
def State.sendFlights (s : State) (gid die : Nat) : State :=
  { s with
    flights := sendAll (fun f => f.gid == gid && f.loc.home != die)
      (landAll (fun f => f.gid == gid && f.loc.home == die) s.flights) }

/-- What the home of a place holds, as a core sees it that reads there: a write of another core that is not performed leaves
the old byte. -/
def State.viewGet (s : State) (core : Nat) (l : Loc) (b : Byte) : Byte :=
  match s.flights.find? fun f => f.core != core && !f.landed && f.touches l 1 with
  | none => b
  | some f => ((f.old.find? fun x => x.1 == l.addr).map (·.2)).getD b

/-- A core's read reaches the home of `n` bytes from a place on: what its die sent there before is performed, and of the
writes of other cores to those bytes any may be performed by then (a free choice, log 4). -/
def State.look (s : State) (core : Nat) (l : Loc) (n : Nat) : State :=
  let s := s.landFlights fun f =>
    f.sent && l.channel.isSome && f.loc.channel == l.channel && dieOf f.core == dieOf core
  (s.flights.filter fun f => f.core != core && !f.landed && f.touches l n).foldl
    (fun s f =>
      let go := Config.freeBool s.free
      let s := { s with free := s.free + 1 }
      if go then s.landFlights (· == f) else s)
    s

/-! ### The clocks (R267) -/

/-- The home `t` has applied every marker that the stamp names: a home serves a stamped request only then, and markers never
wait. What was sent to it before a marker is performed before. -/
def State.awaitMarkers (s : State) (t : Nat) (stamp : List Word) : State :=
  if (List.range 8).all fun k => k == t || clockGe (Sparse.get 0 s.vapp (8 * t + k)) ((stamp[k]?).getD 0) then s
  else
    let s := s.landFlights fun f => f.sent && f.loc.channel == some t
    { s with
      vapp := (List.range 8).foldl
        (fun v k => if k = t then v else Sparse.set 0 v (8 * t + k) (clockMax (Sparse.get 0 v (8 * t + k)) ((stamp[k]?).getD 0)))
        s.vapp
      markers := s.markers.filter fun m => !(m.dst == t && m.src != t && clockGe ((stamp[m.src]?).getD 0) m.value) }

/-- A party of die `r` has received a line stamped `st`; the parties of the hub have a vector each. -/
def State.mergeStamp (s : State) (r : Nat) (st : List Word) : State :=
  (List.range 8).foldl
    (fun s k =>
      if k = r then s
      else if 8 ≤ r then
        let h := 8 * (r - 8) + k
        { s with hubVec := Sparse.set 0 s.hubVec h (clockMax (Sparse.get 0 s.hubVec h) ((st[k]?).getD 0)) }
      else
        { s with vrel := Sparse.set 0 s.vrel (8 * r + k) (clockMax (Sparse.get 0 s.vrel (8 * r + k)) ((st[k]?).getD 0)) })
    s

/-- The stamp recorded for a line; none recorded is the zero vector. -/
def State.lineStamp (s : State) (line : Nat) : List Word := (lookupKey s.stamps line).getD []

/-- The clock work of a read of a physical line by a party of die `die`. -/
def State.stampRead (s : State) (die : Nat) (l : Loc) : State :=
  if l.space ≠ 0 then s
  else
    match homeDie l.addr with
    | none => s
    | some t => (s.awaitMarkers t (s.stampOf die)).mergeStamp die (s.lineStamp (l.addr / 128))

/-- The clock work of a write: the line takes the writer's stamp. -/
def State.stampWrite (s : State) (die : Nat) (l : Loc) : State :=
  if l.space ≠ 0 then s
  else
    match homeDie l.addr with
    | none => s
    | some t =>
      let st := s.stampOf die
      let s := s.awaitMarkers t st
      if st.all (· == 0) && (lookupKey s.stamps (l.addr / 128)).isNone then s
      else { s with stamps := insertKey s.stamps (l.addr / 128) st }

/-! ### The host cache of the hub (R388) -/

/-- The line of host memory at `line`, fetched into the hub's host cache. -/
def State.hostFetch (s : State) (line : Nat) : State :=
  match lookupKey s.hostCache line with
  | some _ => s
  | none => { s with hostCache := insertKey s.hostCache line { bytes := s.hostMem.bytes (128 * line) 128, dirty := 0 } }

/-- A byte of host memory as the device sees it. -/
def State.hostGet (s : State) (a : Nat) : Byte :=
  match lookupKey s.hostCache (a / 128) with
  | some h => (h.bytes[a % 128]?).getD 0
  | none => s.hostMem.get a

/-- A byte of host memory written by the device into the write-back cache. -/
def State.hostPut (s : State) (a : Nat) (b : Byte) : State :=
  let s := s.hostFetch (a / 128)
  { s with hostCache := modifyKey s.hostCache (a / 128) fun h =>
      { bytes := h.bytes.set (a % 128) b, dirty := h.dirty ||| BitVec.ofNat 128 (2 ^ (a % 128)) } }

/-- The dirty bytes of a line written back to the host; it stays cached clean (R388). -/
def State.hostClean (s : State) (line : Nat) : State :=
  match lookupKey s.hostCache line with
  | none => s
  | some h =>
    { s with
      hostMem := (List.range 128).foldl
        (fun m i => if h.dirty.getLsbD i then m.set (128 * line + i) ((h.bytes[i]?).getD 0) else m) s.hostMem
      hostCache := insertKey s.hostCache line { h with dirty := 0 } }

/-- A line of host memory dropped from the hub's cache, dirty bytes written back first (R388). -/
def State.hostDrop (s : State) (line : Nat) : State :=
  let s := s.hostClean line
  { s with hostCache := eraseKey s.hostCache line }

/-- The byte at a place, the host's through the hub's cache. -/
def State.seeGet (s : State) (l : Loc) : Byte := if l.space = 4 then s.hostGet l.addr else s.homeGet l

/-- A byte written, the host's through the hub's cache. -/
def State.seePut (s : State) (l : Loc) (b : Byte) : State := if l.space = 4 then s.hostPut l.addr b else s.homePut l b

/-! ### The L1 of a core (R262) -/

/-- The key of a core's L1 line. -/
def l1Key (core : Nat) (l : Loc) : Nat := core * 2 ^ 60 + l.space * 2 ^ 56 + l.addr / 128

/-- The spaces an L1 holds: global (device and host) and scratch. -/
def l1Caches (l : Loc) : Bool := l.space == 0 || l.space == 2 || l.space == 4

/-- The first byte of a place's line. -/
def Loc.line (l : Loc) : Loc := { l with addr := l.addr / 128 * 128 }

/-- `n` bytes as a core sees them at their home. -/
def State.viewBytes (s : State) (core : Nat) (l : Loc) (n : Nat) : List Byte :=
  (List.range n).map fun i => s.viewGet core (l.plus i) (s.seeGet (l.plus i))

/-- A core reads at the home of `n` bytes. -/
def State.homeRead (s : State) (core : Nat) (l : Loc) (n : Nat) : State := (s.stampRead (dieOf core) l).look core l n

/-- A core fetches the line of a place into its L1. -/
def State.l1Fetch (s : State) (core : Nat) (l : Loc) : State :=
  let s := s.homeRead core l.line 128
  { s with l1 := insertKey s.l1 (l1Key core l) (s.viewBytes core l.line 128) }

/-- A core has the line of a place in its L1: it keeps a line it holds or, at its own time, fetches it again. Which
is a free choice (log 4). -/
def State.l1Fill (s : State) (core : Nat) (l : Loc) : State :=
  match lookupKey s.l1 (l1Key core l) with
  | none => s.l1Fetch core l
  | some _ =>
    let keep := Config.freeBool s.free
    let s := { s with free := s.free + 1 }
    if keep then s else s.l1Fetch core l

/-- A core's byte at a place: from its L1 where the line is held, else from its home. -/
def State.coreGet (s : State) (core : Nat) (l : Loc) : Byte :=
  match lookupKey s.l1 (l1Key core l) with
  | some bs => if l1Caches l then (bs[l.addr % 128]?).getD 0 else s.viewGet core l (s.seeGet l)
  | none => s.viewGet core l (s.seeGet l)

/-- A byte written, and into a core's own L1 where the line is held (R262). -/
def State.corePut (s : State) (core : Nat) (l : Loc) (b : Byte) : State :=
  let s := s.seePut l b
  { s with l1 := modifyKey s.l1 (l1Key core l) fun bs => bs.set (l.addr % 128) b }

/-- Bytes a core writes from a place up. -/
def State.coreStore (s : State) (core : Nat) (l : Loc) : List Byte → State
  | [] => s
  | b :: rest => State.coreStore (s.corePut core l b) core (l.plus 1) rest

/-- A read of `n` bytes past a core's L1 refreshes a line that it holds: the core has then seen the newer bytes (R271). -/
def State.l1Refresh (s : State) (core : Nat) (l : Loc) : State :=
  if (lookupKey s.l1 (l1Key core l)).isSome then { s with l1 := insertKey s.l1 (l1Key core l) (s.viewBytes core l.line 128) }
  else s

/-- A core's load of `n` bytes: from its L1, filled first, where the line is cacheable, else from the home. -/
def State.coreLoad (s : State) (core : Nat) (cached : Bool) (l : Loc) (n : Nat) : State × List Byte :=
  if cached && l1Caches l then
    let s := s.l1Fill core l
    let s := if l.addr / 128 = (l.addr + n - 1) / 128 then s else s.l1Fill core (l.plus (n - 1))
    (s, (List.range n).map fun i => s.coreGet core (l.plus i))
  else
    let s := (s.homeRead core l n).l1Refresh core l
    (s, s.viewBytes core l n)

/-- Bytes written at their home for a core at once, with the writer's stamp: every write on its way to them is performed
before. -/
def State.coreWrite (s : State) (core : Nat) (l : Loc) (bs : List Byte) : State :=
  ((s.landAt l bs.length).stampWrite (dieOf core) l).coreStore core l bs

/-- The acquire action of R265 at scope `.clu` and wider: the core's lines of global and scratch data are invalid. -/
def State.l1Invalidate (s : State) (core : Nat) : State :=
  { s with l1 := s.l1.filter fun e => !decide (e.1 / 2 ^ 60 = core) }

/-- One line invalid in every core's L1 (R388). -/
def State.l1Drop (s : State) (space line : Nat) : State :=
  { s with l1 := s.l1.filter fun e => !decide (e.1 % 2 ^ 60 = space * 2 ^ 56 + line) }

/-- An engine's or controller's read of `n` bytes on die `die`, at the home. -/
def State.unitLoad (s : State) (die : Nat) (l : Loc) (n : Nat) : State × List Byte :=
  let s := (s.landAt l n).stampRead die l
  (s, (List.range n).map fun i => s.seeGet (l.plus i))

/-- An engine's or controller's write, at the home. -/
def State.unitStore (s : State) (die : Nat) (l : Loc) (bs : List Byte) : State :=
  let s := (s.landAt l bs.length).stampWrite die l
  bs.zipIdx.foldl (fun s b => s.seePut (l.plus b.2) b.1) s

/-! ### Registers of the device and partition pages (R420, R422) -/

/-- A device-page register. -/
def State.devReg (s : State) (off : Nat) : Dword := Sparse.get 0 s.devRegs off
/-- A device-page register written. -/
def State.setDevReg (s : State) (off : Nat) (v : Dword) : State := { s with devRegs := Sparse.set 0 s.devRegs off v }
/-- A partition-page register. -/
def State.partReg (s : State) (part off : Nat) : Dword := Sparse.get 0 s.partRegs (part * 0x10000 + off)
/-- A partition-page register written. -/
def State.setPartReg (s : State) (part off : Nat) (v : Dword) : State :=
  { s with partRegs := Sparse.set 0 s.partRegs (part * 0x10000 + off) v }

/-- Bit `b` of the readiness map, RDY0 to RDY4 at 0x200 (R446). -/
def State.ready (s : State) (b : Nat) : Bool := (s.devReg (0x200 + 8 * (b / 64))).getLsbD (b % 64)

/-- A partition's halt line (PCTL bit 1). -/
def State.halted (s : State) (part : Nat) : Bool := (s.partReg part 0).getLsbD 1

end Sys2Proof.Machine
end

