-- ==== Sys2Proof/Machine/Events.lean ====
section
/-!
DEFINITION. Records the device writes to rings (R332, R351, R352, R368, R421, R443): events to a partition's service
core and to the root monitor, stop records, decision records and ageing-log records.
-/
namespace Sys2Proof.Machine

/-- A record of `size` bytes put at TAIL of a ring whose base, count and pointer registers are read and written by the
caller: what the ring's registers become, and the bytes' place, none when the ring is full and the record is lost. -/
structure RingPut where
  ctl : Dword
  ptr : Dword
  place : Option Nat
  deriving DecidableEq, Repr

/-- The put of R421: a full ring drops the record and raises LOST, unless `overwrite`, the decision ring of R352, whose
oldest record is overwritten (HEAD moves on) and LOST rises. A ring whose count is below 2^8 has not been set. -/
def ringPut (overwrite : Bool) (base ctl ptr : Dword) (size : Nat) : RingPut :=
  let lg := (ctl.extractLsb' 0 5).toNat
  let lost : Word := ctl.extractLsb' 32 32
  let head : Word := ptr.extractLsb' 0 32
  let tail : Word := ptr.extractLsb' 32 32
  let ctl' : Dword := (lost + 1) ++ ctl.extractLsb' 0 32
  if lg < 8 then { ctl := ctl', ptr := ptr, place := none }
  else
    let at_ := base.toNat + size * (tail.toNat % 2 ^ lg)
    if (tail - head).toNat < 2 ^ lg then { ctl := ctl, ptr := (tail + 1) ++ head, place := some at_ }
    else if overwrite then { ctl := ctl', ptr := (tail + 1) ++ (head + 1), place := some at_ }
    else { ctl := ctl', ptr := ptr, place := none }

/-- The bytes of a record written at a physical address by its unit. -/
def State.putRecord (s : State) (pa n v : Nat) : State := s.homeStore { space := 0, addr := pa } (leBytes n v)

/-- A record put into the ring of a partition page whose base register is at `off` (R420, R421). -/
def State.partRing (s : State) (part off size v : Nat) : State :=
  let r := ringPut false (s.partReg part off) (s.partReg part (off + 8)) (s.partReg part (off + 16)) size
  let s := (s.setPartReg part (off + 8) r.ctl).setPartReg part (off + 16) r.ptr
  match r.place with
  | none => s
  | some pa => s.putRecord pa size v

/-- A record put into the ring of the device page whose base register is at `off` (R422, R443). -/
def State.devRing (s : State) (overwrite : Bool) (off size v : Nat) : State :=
  let r := ringPut overwrite (s.devReg off) (s.devReg (off + 8)) (s.devReg (off + 16)) size
  let s := (s.setDevReg (off + 8) r.ctl).setDevReg (off + 16) r.ptr
  match r.place with
  | none => s
  | some pa => s.putRecord pa size v

/-- An event record: its code, source number, Postmark and two values (R332). DESIGN CHOICE (log 9): the spec gives
its parts and its 32 bytes and not their places. -/
def eventRecord (pm : Dword) (code src : Nat) (v0 v1 : Dword) : BitVec 256 :=
  v1 ++ v0 ++ pm ++ (0 : BitVec 32) ++ BitVec.ofNat 16 src ++ BitVec.ofNat 16 code

/-- An event posted to a partition's service core (R332, R421). -/
def State.postEvent (s : State) (part code src : Nat) (v0 v1 : Dword) : State :=
  s.partRing part 0x38 32 (eventRecord s.postmark code src v0 v1).toNat

/-- An event posted to the root monitor's ring (R432, R447). -/
def State.postRoot (s : State) (code src : Nat) (v0 v1 : Dword) : State :=
  { s with rootEvents := s.rootEvents ++ [eventRecord s.postmark code src v0 v1] }

/-- An ageing-log record (R443); the kinds 2, 3, 6 and 7 also go to the flash log. -/
def State.logRecord (s : State) (src kind isl unit : Nat) (data : Dword) : State :=
  let r : BitVec 256 :=
    s.postmark ++ BitVec.ofNat 16 src ++ BitVec.ofNat 8 kind ++ BitVec.ofNat 8 isl ++ BitVec.ofNat 32 unit ++ data
      ++ (0 : Dword)
  let s := s.devRing false 0x240 32 r.toNat
  if kind = 2 ∨ kind = 3 ∨ kind = 6 ∨ kind = 7 then { s with life := { s.life with log := s.life.log ++ [r] } } else s

/-! ### Sorting Offices (R341, R347) -/

/-- A Sorting Office that has taken nothing. -/
def Office.empty : Office := { indices := [], launches := [], taken := 0, events := [], imageLen := 0 }

/-- The Sorting Office of a die. -/
def State.office (s : State) (die : Nat) : Office := (lookupKey s.offices die).getD Office.empty

/-- A Sorting Office changed. -/
def State.onOffice (s : State) (die : Nat) (f : Office → Office) : State :=
  { s with offices := insertKey s.offices die (f (s.office die)) }

/-- An event for the harts of a die's Sorting Office (R347): 1 team end, 2 pre-emption done, 3 readiness change. -/
def State.officeEvent (s : State) (die code v : Nat) : State :=
  s.onOffice die fun o => { o with events := o.events ++ [(code, v)] }

/-- A readiness bit set or cleared: the change is logged as READY or UNREADY and posted as event 18 (R447). A write
that changes nothing records nothing. -/
def State.setReady (s : State) (b : Nat) (v : Bool) : State :=
  if s.ready b = v then s
  else
    let off := 0x200 + 8 * (b / 64)
    let one : Dword := BitVec.ofNat 64 (2 ^ (b % 64))
    let s := s.setDevReg off (if v then s.devReg off ||| one else s.devReg off &&& ~~~one)
    let s := s.logRecord 0x8020 (if v then 8 else 9) 255 0 (BitVec.ofNat 64 b)
    let s := s.postRoot 18 0x8020 (BitVec.ofNat 64 b) (if v then 1 else 0)
    if b < 192 then s.officeEvent (dieOf b) 3 (coreCode b) else s

/-- A decision record (R351) written by the resource unit of a die (R352). -/
def State.decision (s : State) (die kind reason : Nat) (tag : Word) (team qnum pasid prio cmask : Nat) : State :=
  let r : BitVec 256 :=
    s.postmark ++ tag ++ BitVec.ofNat 32 team ++ BitVec.ofNat 24 qnum ++ BitVec.ofNat 20 pasid ++ BitVec.ofNat 4 kind
      ++ BitVec.ofNat 8 reason ++ BitVec.ofNat 2 prio ++ (0 : BitVec 27) ++ BitVec.ofNat 16 (dieSource die 1)
      ++ BitVec.ofNat 3 die ++ BitVec.ofNat 24 cmask
  let off := 0x300 + 24 * die
  let full := (s.devReg (off + 16)).extractLsb' 32 32 - (s.devReg (off + 16)).extractLsb' 0 32
  let s :=
    -- LOST of the ring is also the counter that selector 6 reads (R352, R353)
    if full.toNat < 2 ^ ((s.devReg (off + 8)).extractLsb' 0 5).toNat then s
    else
      let k := die * 0x10000 + 0x6000
      { s with officeCounters := Sparse.set 0 s.officeCounters k (Sparse.get 0 s.officeCounters k + 1) }
  s.devRing true off 32 r.toNat

end Sys2Proof.Machine
end

