-- ==== Sys2Proof/Machine/Translate.lean ====
section
/-!
DEFINITION. Translation (R382 to R386, R419, R431, R433, R434): the four-level walk, what a physical address reaches,
and the parking of an access on an entry that does not map it.
-/
namespace Sys2Proof.Machine

/-- What an access is for (R426). -/
inductive Access
  | read | write | fetch
  deriving DecidableEq, Repr

/-- The code of an access kind in a PAGE_FAULT event (R426). -/
def Access.code : Access → Nat
  | .read => 0 | .write => 1 | .fetch => 2

/-- The answer of a translation: the place (cached or not) with the table entry that maps it, PROTECTION, or a miss
that its route must resolve: 0 the service core, 1 ATS, 2 PRI, 3 a CXL window (R385, R433). -/
inductive Xlate
  | ok (l : Loc) (cached : Bool) (entry : Option Nat)
  | prot
  | miss (route : Nat)
  deriving DecidableEq, Repr

/-- The table entry at a physical address. -/
def State.entryAt (s : State) (pa : Nat) : Dword := BitVec.ofNat 64 (leNat (s.mem.bytes pa 8))

/-- The reserved fields of a table entry are zero (R383). -/
def entryClean (e : Dword) : Bool := e.extractLsb' 59 5 == 0 && e.extractLsb' 52 4 == 0 && e.extractLsb' 8 4 == 0

/-- The offset of window register `w` of edge group `n` (R431). -/
def windowReg (n w : Nat) : Nat := 0x400 + 256 * n + 16 * w

/-- The edge groups that a window register interleaves over (R431); a WAYS other than 1, 2 and 4 names the group itself. -/
def State.windowGroups (s : State) (n w : Nat) : List Nat :=
  let hi := s.devReg (windowReg n w + 8)
  let ways := (hi.extractLsb' 44 8).toNat
  if ways = 1 ∨ ways = 2 ∨ ways = 4 then (List.range ways).map fun i => (hi.extractLsb' (28 + 4 * i) 4).toNat else [n]

/-- The edge group that serves a CXL physical address: that of the valid window that covers it, interleaved at 4 KiB (R431);
none where no valid window covers it. -/
def State.cxlGroup (s : State) (pa : Nat) : Option Nat :=
  let covers (i : Nat) : Bool :=
    let lo := s.devReg (windowReg (i / 8) (i % 8))
    let hi := s.devReg (windowReg (i / 8) (i % 8) + 8)
    let base := (lo.extractLsb' 28 24).toNat * 2 ^ 28
    lo.getLsbD 0 && decide (base ≤ pa) && decide (pa < base + (hi.extractLsb' 0 28).toNat * 2 ^ 28)
  ((List.range 128).find? covers).map fun i =>
    let gs := s.windowGroups (i / 8) (i % 8)
    (gs[pa / 4096 % gs.length]?).getD (i / 8)

/-- STEP of an edge group (R430). -/
def State.edgeStep (s : State) (n : Nat) : Nat := ((s.devReg (0x100 + 8 * n)).extractLsb' 12 4).toNat

/-- An edge group is between GO and the end of MAP. -/
def State.edgeSwitching (s : State) (n : Nat) : Bool := decide (1 ≤ s.edgeStep n) && decide (s.edgeStep n ≤ 4)

/-- What an edge group answers an access to CXL memory (R432, R433, R448): while it switches it serves what it still takes,
and every other access waits; else its readiness bit decides. -/
def State.cxlReach (s : State) (n : Nat) (ok : Xlate) : Xlate :=
  if s.edgeSwitching n then (if s.edgeStep n = 1 ∧ !s.edgeClosed.contains n then ok else .miss 3)
  else if s.ready (208 + n) then ok
  else .prot

/-- The planes present at both ends of a path to device `d` (R434). -/
def State.commonPlanes (s : State) (d : Nat) : BitVec 128 :=
  (lookupKey s.planes s.devNum).getD 0 &&& (lookupKey s.planes d).getD 0

/-- What a physical address reaches (R419, R434, R448). A reserved range, a function whose readiness bit is clear, or
a peer with no common plane gives PROTECTION; a CXL address that no window covers is a miss. -/
def State.reach (s : State) (pa : Nat) (cached : Bool) (entry : Option Nat) : Xlate :=
  if pa < 2 ^ 40 then (if s.ready (192 + pa / 2 ^ 36) then .ok ⟨0, pa⟩ cached entry else .prot)
  else if pa < 3 * 2 ^ 40 then (if s.ready 264 then .ok ⟨0, pa⟩ cached entry else .prot)
  else if pa < 4 * 2 ^ 40 then .prot
  else if pa < 8 * 2 ^ 40 then
    match s.cxlGroup pa with
    | none => .miss 3
    | some n => s.cxlReach n (.ok ⟨0, pa⟩ cached entry)
  else if pa < 2 ^ 51 then .prot
  else
    let dev := pa / 2 ^ 42 % 512
    let off := pa % 2 ^ 42
    if dev = s.devNum then (if off < 3 * 2 ^ 40 then .ok ⟨0, off⟩ cached entry else .prot)
    else if off < 3 * 2 ^ 40 && s.commonPlanes dev != 0 then .ok ⟨0, pa⟩ cached entry
    else .prot

/-- A leaf: its permissions, its memory type and the address it gives (R382, R383). -/
def State.leaf (s : State) (e : Dword) (at_ va size : Nat) (k : Access) : Xlate :=
  if 2 ≤ (e.extractLsb' 56 3).toNat then .prot
  else if (k == .write && !e.getLsbD 1) || (k == .fetch && !e.getLsbD 2) then .prot
  else s.reach ((e.extractLsb' 12 40).toNat * 4096 / size * size + va % size) (e.extractLsb' 56 3 == 0) (some at_)

/-- An ATS region (R385): the held translation of the page, or a translation request to the host. -/
def State.atsLookup (s : State) (pasid va : Nat) (k : Access) : Xlate :=
  match s.ats.find? fun t => t.pasid == pasid && t.page == va / 4096 with
  | none => .miss 1
  | some t =>
    if k == .write && !t.write then .prot else .ok ⟨4, t.target * 4096 + va % 4096⟩ true none

/-- The walk below a table at `base` of level `n` (R382): level 3 is indexed by VA[56:39], the others by nine bits. -/
def State.walk (s : State) (pasid va : Nat) (k : Access) : Nat → Nat → Xlate
  | 0, base =>
    let at_ := base + 8 * (va / 2 ^ 12 % 512)
    let e := s.entryAt at_
    if !e.getLsbD 0 then .miss (if e.getLsbD 4 then 2 else 0)
    else if !entryClean e then .prot
    else s.leaf e at_ va 4096 k
  | n + 1, base =>
    let shift := 12 + 9 * (n + 1)
    let at_ := base + 8 * (va / 2 ^ shift % (if n = 2 then 2 ^ 18 else 512))
    let e := s.entryAt at_
    if !e.getLsbD 0 then .miss (if e.getLsbD 4 then 2 else 0)
    else if !entryClean e then .prot
    else if n = 2 && e.getLsbD 4 then s.atsLookup pasid va k
    else if e.getLsbD 3 then (if n = 2 then .prot else s.leaf e at_ va (2 ^ shift) k)
    else s.walk pasid va k n ((e.extractLsb' 12 40).toNat * 4096)

/-- The translation of a 57-bit virtual address for a context (R382). -/
def State.translate (s : State) (ctx va : Nat) (k : Access) : Xlate :=
  match lookupKey s.contexts ctx with
  | none => .miss 0
  | some c => s.walk c.pasid va k 3 c.tbase

/-- The walker sets A, and D on a write, in the entry that mapped the access (R383). -/
def State.touch (s : State) (entry : Option Nat) (k : Access) : State :=
  match entry with
  | none => s
  | some pa =>
    let e := s.entryAt pa
    let e' := e ||| (if k == .write then 0xC0 else 0x40)
    if e' = e then s else { s with mem := s.mem.store pa (leBytes 8 e'.toNat) }

/-! ### Parked accesses (R384, R385) -/

/-- The parked access of a split on the page of `va`. -/
def State.parkedFor (s : State) (gid sp ctx va : Nat) (k : Access) : Option ParkedAccess :=
  s.parkedAccesses.find? fun p =>
    p.gid == gid && p.sp == sp && p.ctx == ctx && p.va.toNat / 4096 == va / 4096 && p.kind == k.code

/-- A parked access forgotten: its walk is over. -/
def State.unpark (s : State) (tag : Nat) : State :=
  { s with parkedAccesses := s.parkedAccesses.filter fun p => p.tag != tag }

/-- The partition of a context. -/
def State.partOf (s : State) (ctx : Nat) : Nat := ((lookupKey s.contexts ctx).map (·.part)).getD 0

/-- An access parked on its route, up to 1,024 on a die; the service core's route posts PAGE_FAULT (R384, R426). -/
def State.park (s : State) (gid sp ctx va : Nat) (k : Access) (route die : Nat) : State :=
  if 1024 ≤ (s.parkedAccesses.filter fun p => p.gid / 131072 == gid / 131072).length then s
  else
    let tag := s.nextTag % 2 ^ 16
    let pasid := ((lookupKey s.contexts ctx).map (·.pasid)).getD 0
    let s :=
      { s with
        nextTag := s.nextTag + 1
        parkedAccesses := s.parkedAccesses ++
          [{ tag := tag, gid := gid, sp := sp, ctx := ctx, va := BitVec.ofNat 64 va, kind := k.code, host := route
             since := s.postmark.toNat, answer := .none }] }
    if route = 0 then
      s.postEvent (s.partOf ctx) 16 (dieSource die 2) (BitVec.ofNat 64 va)
        (BitVec.ofNat 64 (tag * 2 ^ 32 + k.code * 2 ^ 20 + pasid))
    else s

/-- What one access of a split gets: its place, a fault cause, or a page that its route must resolve first. -/
inductive Got
  | at (l : Loc) (cached : Bool) (entry : Option Nat)
  | fail (cause : Nat)
  | wait (route : Nat)
  deriving DecidableEq, Repr

/-- One access of a split as the parks and translation stand (R384): an answered failure is PAGE, and an entry that does
not map the page, its park unanswered or answered in vain, is a wait. -/
def State.attempt (s : State) (gid sp ctx va : Nat) (k : Access) : Got :=
  if 2 ^ 57 ≤ va then .fail 4
  else if (s.parkedFor gid sp ctx va k).any fun p => p.answer == .fail then .fail 3
  else
    match s.translate ctx va k with
    | .ok l c e => .at l c e
    | .prot => .fail 4
    | .miss r => .wait r

/-- The access parks on its route, unless it is parked there and not yet answered. -/
def State.parkMiss (s : State) (gid sp ctx va die : Nat) (k : Access) (route : Nat) : State :=
  match s.parkedFor gid sp ctx va k with
  | none => s.park gid sp ctx va k route die
  | some p => if p.answer = .none then s else (s.unpark p.tag).park gid sp ctx va k route die

/-- The parks of one kind of a split that have been answered are over: all of them where the instruction fails, else those
answered with a mapping, since a later access of the same instruction may still meet a failure. -/
def State.dropAnswered (s : State) (gid sp : Nat) (k : Access) (failed : Bool) : State :=
  { s with
    parkedAccesses := s.parkedAccesses.filter fun p =>
      !(p.gid == gid && p.sp == sp && p.kind == k.code && p.answer != .none && (failed || p.answer != .fail)) }

/-- One access of a split with its effect on the parks. -/
def State.access (s : State) (gid sp ctx va die : Nat) (k : Access) : State × Got :=
  match s.attempt gid sp ctx va k with
  | .wait r => (s.parkMiss gid sp ctx va die k r, .wait r)
  | .fail c => (s.dropAnswered gid sp k true, .fail c)
  | o => (s.dropAnswered gid sp k false, o)

end Sys2Proof.Machine
end

