-- ==== Sys2Proof/Machine/Focus.lean ====
section
/-!
DEFINITION. Finding groups, splits, teams and engines in the package, and bringing a group and a split of it into
focus, where instructions act.
-/
namespace Sys2Proof.Machine

/-- A group is live while it has a frame: its root frame is freed only when it ends (R176, R202). -/
def Group.live (g : Group) : Bool := !g.frames.isEmpty

/-- Every live group of the package. -/
def State.groups (s : State) : List Group := (s.grp :: s.others).filter Group.live

/-- The live group with a number. -/
def State.group? (s : State) (gid : Nat) : Option Group := s.groups.find? fun g => g.gid == gid

/-- The group with a number changed, wherever it stands. -/
def State.onGroup (s : State) (gid : Nat) (f : Group → Group) : State :=
  if s.grp.gid = gid then { s with grp := f s.grp }
  else { s with others := s.others.map fun g => if g.gid = gid then f g else g }

/-- Every group changed. -/
def State.onGroups (s : State) (f : Group → Group) : State := { s with grp := f s.grp, others := s.others.map f }

/-- The group in focus changed. -/
def State.onGrp (s : State) (f : Group → Group) : State := { s with grp := f s.grp }

/-- The splits of a group, the one in focus first. -/
def Group.splits (g : Group) : List Split := g.spl :: g.sibs

/-- The issuing split changed. -/
def Group.onSpl (g : Group) (f : Split → Split) : Group := { g with spl := f g.spl }

/-- Every split changed. -/
def Group.onSplits (g : Group) (f : Split → Split) : Group := { g with spl := f g.spl, sibs := g.sibs.map f }

/-- The split with a number changed. -/
def Group.onSplit (g : Group) (n : Nat) (f : Split → Split) : Group :=
  g.onSplits fun p => if p.num = n then f p else p

/-- A group with its split `n` in focus; a number no split has changes nothing. -/
def Group.focusSplit (g : Group) (n : Nat) : Group :=
  if g.spl.num = n then g
  else
    match g.sibs.find? fun p => p.num == n with
    | none => g
    | some p => { g with spl := p, sibs := g.sibs.map fun q => if q.num = n then g.spl else q }

/-- The package with a live group in focus; a number no group has changes nothing. -/
def State.focus (s : State) (gid : Nat) : State :=
  if s.grp.gid = gid then s
  else
    match s.others.find? fun g => g.gid == gid with
    | none => s
    | some g =>
      { s with grp := g
               others := (s.others.map fun h => if h.gid = gid then s.grp else h).filter Group.live }

/-- The package with a split of a group in focus. -/
def State.focusSplit (s : State) (gid n : Nat) : State := (s.focus gid).onGrp fun g => g.focusSplit n

/-- Whether a live group has a live split with this number. -/
def State.hasSplit (s : State) (gid n : Nat) : Bool :=
  match s.group? gid with
  | none => false
  | some g => g.splits.any fun p => p.num == n && p.mask != 0

/-- An action on another group with its split in focus, after which the first group is in focus again. -/
def State.within (s : State) (gid n : Nat) (f : State → State) : State :=
  let (g0, n0) := (s.grp.gid, s.grp.spl.num)
  if (s.group? gid).isSome then (f (s.focusSplit gid n)).focusSplit g0 n0 else s

/-- The split in focus does not issue until something lets it (R13). -/
def State.waitFor (s : State) (w : Why) : State :=
  s.onGrp fun g => g.onSpl fun p => { p with status := .waiting w, since := s.postmark.toNat }

/-- The split is ready. -/
def Status.runs : Status → Bool
  | .run | .again => true
  | _ => false

/-- A split's wait for a translation is over: it issues its instruction again, or fetches it anew. -/
def State.wake (s : State) (gid n : Nat) : State :=
  s.onGroup gid fun g =>
    g.onSplit n fun p =>
      match p.status with
      | .waiting .fetch => { p with status := .run }
      | .waiting .translate => { p with status := .again }
      | _ => p

/-! ### Teams and engines -/

/-- The team with a key. -/
def State.team? (s : State) (key : Nat) : Option Team := lookupKey s.teams key

/-- The key of the team of a group. -/
def teamOf (gid : Nat) : Nat := gid / 32

/-- The team of the group in focus. -/
def State.team (s : State) : Option Team := s.team? (teamOf s.grp.gid)

/-- The context of a group. -/
def State.ctxOf (s : State) (gid : Nat) : Nat := ((s.team? (teamOf gid)).map (·.ctx)).getD 0

/-- The context entry of a group. -/
def State.context (s : State) (gid : Nat) : Option Context := lookupKey s.contexts (s.ctxOf gid)

/-- The partition of a group. -/
def State.partition (s : State) (gid : Nat) : Nat := s.partOf (s.ctxOf gid)

/-- The PASID of a group. -/
def State.pasid (s : State) (gid : Nat) : Nat := ((s.context gid).map (·.pasid)).getD 0

/-- A team changed. -/
def State.onTeam (s : State) (key : Nat) (f : Team → Team) : State := { s with teams := modifyKey s.teams key f }

/-- The groups of a team, ascending by number. -/
def State.teamGroups (s : State) (key : Nat) : List Group :=
  (List.range 32).filterMap fun i => s.group? (32 * key + i)

/-- The die of the group in focus. -/
def State.die (s : State) : Nat := dieOf s.grp.core

/-- The engine that serves a group: 2 times its core plus ME0 or ME1 (R127). -/
def Group.engineKey (g : Group) : Nat := 2 * g.core + (if g.sc < 4 then 0 else 1)

/-- An engine that has done nothing: every tile in the pool. -/
def Engine.empty : Engine :=
  { tiles := [], ports := [], steps := [], mergesWaiting := [], merges := [], bindings := [], pairStep := 0
    pairFailed := [], colFails := [] }

/-- The engine with a key. -/
def State.engine (s : State) (k : Nat) : Engine := (lookupKey s.engines k).getD Engine.empty

/-- An engine changed. -/
def State.onEngine (s : State) (k : Nat) (f : Engine → Engine) : State :=
  { s with engines := insertKey s.engines k (f (s.engine k)) }

/-- A queue changed. -/
def State.onQueue (s : State) (k : Nat) (f : Queue → Queue) : State := { s with queues := modifyKey s.queues k f }

end Sys2Proof.Machine
end

