-- ==== Sys2Proof/Machine/Frames.lean ====
section
/-!
DEFINITION. Granules, frames, descriptors and the spill area (R175 to R189): granting, pushing and popping frames, and
what the escape spill engine does to one frame.
-/
namespace Sys2Proof.Machine

/-! ### Granules (R175, R183, R184) -/

/-- The groups of a sub-core; `sub` is 8 times the core plus the sub-core. -/
def State.subGroups (s : State) (sub : Nat) : List Group := s.groups.filter fun g => 8 * g.core + g.sc == sub

/-- The granules the frames of a sub-core hold. -/
def State.heldGranules (s : State) (sub : Nat) : List Nat :=
  (s.subGroups sub).flatMap fun g => g.frames.flatMap fun f => f.2.gmap

/-- CAP of a sub-core's `%fcap` (R184). -/
def State.capOf (s : State) (sub : Nat) : Nat := Sparse.get 128 s.fcap sub

/-- The granules no frame of the sub-core holds, ascending. -/
def State.unheld (s : State) (sub : Nat) : List Nat :=
  (List.range 128).filter fun n => !(s.heldGranules sub).contains n

/-- How many granules are free under CAP (R184). -/
def State.freeGranules (s : State) (sub : Nat) : Nat :=
  min (s.unheld sub).length (s.capOf sub - (s.heldGranules sub).length)

/-- The `n` lowest-numbered free granules (R175). -/
def State.takeGranules (s : State) (sub n : Nat) : List Nat := (s.unheld sub).take n

/-- The sub-core of a group. -/
def Group.sub (g : Group) : Nat := 8 * g.core + g.sc

/-! ### Descriptors (R180, R181) -/

/-- `%frame` of a frame (R180). -/
def Frame.special (f : Frame) : Dword :=
  (0 : BitVec 32) ++ BitVec.ofNat 9 f.fn ++ BitVec.ofNat 7 f.dep ++ (0 : BitVec 2) ++ BitVec.ofBool f.ovll
    ++ (0 : BitVec 1) ++ BitVec.ofNat 2 f.kc ++ BitVec.ofNat 3 f.fc ++ BitVec.ofNat 7 (f.gmap.headD 0)

/-- The descriptor of a frame (R181). -/
def Frame.descriptor (f : Frame) : BitVec 256 :=
  let g (j : Nat) : BitVec 7 := BitVec.ofNat 7 ((f.gmap[j]?).getD 0)
  (0 : BitVec 8) ++ g 7 ++ g 6 ++ g 5 ++ g 4 ++ g 3 ++ g 2 ++ g 1 ++ g 0 ++ f.rpc ++ (0 : BitVec 87)
    ++ BitVec.ofNat 9 f.pfn ++ BitVec.ofNat 9 f.fn ++ BitVec.ofNat 7 f.dep ++ (0 : BitVec 2) ++ BitVec.ofBool f.ovll
    ++ BitVec.ofBool f.res ++ BitVec.ofNat 2 f.kc ++ BitVec.ofNat 3 f.fc ++ (0 : BitVec 7)

/-- The frame a descriptor describes, with no granules and RES = 0 (R379). -/
def frameOfDescriptor (d : BitVec 256) : Frame :=
  { fn := (d.extractLsb' 23 9).toNat, dep := (d.extractLsb' 16 7).toNat, pfn := (d.extractLsb' 32 9).toNat
    rpc := d.extractLsb' 128 64, kc := (d.extractLsb' 10 2).toNat, fc := (d.extractLsb' 7 3).toNat
    ovll := d.getLsbD 13, res := false, gmap := [], regs := [] }

/-- The address of frame `n`'s descriptor in the spill area (R182). -/
def Group.descAddr (g : Group) (n : Nat) : Nat := g.spill.toNat + 32 * n
/-- The address of register `i` of frame `n`'s image (R182). -/
def Group.imageAddr (g : Group) (n i : Nat) : Nat := g.spill.toNat + 0x4000 + 0x2000 * n + 128 * i

/-! ### Access to memory by the device for a group -/

/-- `n` bytes (within one page) at a virtual address of a context, read by a unit of a die; none where the
translation does not give them. -/
def State.ctxLoad (s : State) (ctx die va n : Nat) : State × Option (List Byte) :=
  match s.translate ctx va .read with
  | .ok l _ e =>
    let (s, bs) := (s.touch e .read).unitLoad die l n
    (s, some bs)
  | _ => (s, none)

/-- Bytes (within one page) written at a virtual address of a context by a unit of a die. -/
def State.ctxStore (s : State) (ctx die va : Nat) (bs : List Byte) : Option State :=
  match s.translate ctx va .write with
  | .ok l _ e => some ((s.touch e .write).unitStore die l bs)
  | _ => none

/-- The value of `n` bytes at a virtual address of a context, 0 where it cannot be read. -/
def State.ctxNat (s : State) (ctx die va n : Nat) : State × Nat :=
  match s.ctxLoad ctx die va n with
  | (s, some bs) => (s, leNat bs)
  | (s, none) => (s, 0)

/-- Bytes at a virtual address of a context written piece by piece, so that no piece crosses a 4 KiB page. -/
def State.ctxStoreLong (s : State) (ctx die va : Nat) (bs : List Byte) : Option State :=
  (List.range (bs.length / 16 + 1)).foldl
    (fun o i =>
      match o with
      | none => none
      | some s =>
        let piece := (bs.drop (16 * i)).take 16
        if piece.isEmpty then some s else s.ctxStore ctx die (va + 16 * i) piece)
    (some s)

/-- `16 n` bytes at a 16-aligned virtual address of a context, piece by piece. -/
def State.ctxLoadLong (s : State) (ctx die va n : Nat) : State × Option (List Byte) :=
  (List.range n).foldl
    (fun acc i =>
      match acc with
      | (s, none) => (s, none)
      | (s, some bs) =>
        match s.ctxLoad ctx die (va + 16 * i) 16 with
        | (s, some more) => (s, some (bs ++ more))
        | (s, none) => (s, none))
    (s, some [])

/-! ### Chains and frame numbers (R179) -/

/-- The chain of a frame upward through its callers (PFN), the frame first. -/
def chainUp (frames : List (Nat × Frame)) : Nat → Nat → List Nat
  | 0, fn => [fn]
  | fuel + 1, fn =>
    match lookupKey frames fn with
    | none => [fn]
    | some f => if f.dep = 0 then [fn] else fn :: chainUp frames fuel f.pfn

/-- The lowest frame number a call may take; 510 and 511 are never taken (R179, R358). -/
def Group.freeFrame (g : Group) : Option Nat := lowestFree g.frames 510

/-- Whether some chain of the group, a frozen split's included, holds a frame. -/
def Group.onChain (g : Group) (fn : Nat) : Bool :=
  let froz := match g.handler with
    | none => []
    | some h => h.frozen
  (g.splits ++ froz).any fun p => p.mask != 0 && p.chain.contains fn

/-- The frame a `call` makes, pushed on the issuing split's chain (R198). -/
def Group.push (g : Group) (fn : Nat) (dep fc kc : Nat) (rpc : Dword) (gmap : List Nat) : Group :=
  let f : Frame :=
    { fn := fn, dep := dep, pfn := g.spl.chain.headD 0, rpc := rpc, kc := kc, fc := fc, ovll := false, res := true
      gmap := gmap, regs := [] }
  { g with frames := insertKey g.frames fn f
           spl := { g.spl with chain := fn :: g.spl.chain, near := min 16 (g.spl.near + 1) } }

/-- A frame freed when no chain of the group holds it any more. -/
def Group.release (g : Group) (fn : Nat) : Group :=
  if g.onChain fn then g else { g with frames := eraseKey g.frames fn }

/-- The top frame of the issuing split removed from its chain and freed if no other chain holds it (R199). -/
def Group.pop (g : Group) : Group :=
  match g.spl.chain with
  | [] => g
  | fn :: rest => ({ g with spl := { g.spl with chain := rest, near := max 1 (g.spl.near - 1) } } : Group).release fn

/-- The overlap registers of a top frame with OVLL = 1 copied to the caller in the split's lanes (R199). -/
def Group.returnOverlap (g : Group) (m : Mask) : Group :=
  match g.spl.chain with
  | fn :: p :: rest =>
    match g.frame? fn, g.frame? p with
    | some f, some c =>
      if f.ovll then
        let k := overlapOf f.kc
        (List.range k).foldl
          (fun g i =>
            match locate g.frames (p :: rest) (c.size - k + i) with
            | none => g
            | some (pf, pr) => (lanesOf m).foldl (fun g l => g.frameSet pf pr l (g.frameGet fn i l)) g)
          g
      else g
    | _, _ => g
  | _ => g

/-! ### The spill area (R181, R182, R186, R187) -/

/-- What an access of a group's spill area comes to: it can be made, its translation is outstanding (R384, R385), or it cannot
be resolved, which is a context fault (R182). -/
inductive Spill
  | ok | wait | fail
  deriving DecidableEq, Repr

/-- The number under which the escape spill engine's accesses for a group park; no split has it. -/
def eseSplit : Nat := 4

/-- Accesses of a group's spill area at the given addresses, by the group's own translation: those that do not translate park
on their routes. -/
def State.spillReach (s : State) (gid sp : Nat) (k : Access) (vas : List Nat) : State × Spill :=
  let ctx := s.ctxOf gid
  let die := match s.group? gid with
    | none => 0
    | some g => dieOf g.core
  let got := vas.map fun va => (va, s.attempt gid sp ctx va k)
  if got.any fun x => (match x.2 with | .fail _ => true | _ => false) then (s.dropAnswered gid sp k true, .fail)
  else
    let misses := got.filterMap fun x => match x.2 with | .wait r => some (x.1, r) | _ => none
    if misses.isEmpty then (s.dropAnswered gid sp k false, .ok)
    else (misses.foldl (fun s m => s.parkMiss gid sp ctx m.1 die k m.2) s, .wait)

/-- The bytes of a group's spill area at an address, once it is reached. -/
def State.spillLoad (s : State) (g : Group) (va n : Nat) : State × List Byte :=
  match s.ctxLoad (s.ctxOf g.gid) (dieOf g.core) va n with
  | (s, some bs) => (s, bs)
  | (s, none) => (s, [])

/-- Bytes written to a group's spill area, once it is reached. -/
def State.spillStore (s : State) (g : Group) (va : Nat) (bs : List Byte) : State :=
  (s.ctxStore (s.ctxOf g.gid) (dieOf g.core) va bs).getD s

/-- The pages of a frame's image. -/
def Group.imagePages (g : Group) (f : Frame) : List Nat :=
  if f.fc < 4 then [g.imageAddr f.fn 0] else [g.imageAddr f.fn 0, g.imageAddr f.fn 32]

/-- A frame's descriptor written to the spill area. -/
def State.putDescriptor (s : State) (gid fn : Nat) : State :=
  match s.group? gid with
  | none => s
  | some g =>
    match g.frame? fn with
    | none => s
    | some f => s.spillStore g (g.descAddr fn) (leBytes 32 f.descriptor.toNat)

/-- The splits of a group and those that a handler entry froze. -/
def Group.allSplits (g : Group) : List Split :=
  g.splits ++ (match g.handler with
    | none => []
    | some h => h.frozen)

/-- A frame's descriptor has a copy in the spill area: it lies on the chain of a split below the descriptors that the
sub-core keeps for that split (R181). -/
def Group.spilledCopy (g : Group) (fn : Nat) : Bool :=
  g.allSplits.any fun p => p.mask != 0 && (p.chain.drop p.near).contains fn

/-- The frames that keep their overlap registers when frame `n` is evicted (R186, step 1). -/
def Group.overlapKeepers (g : Group) (n : Nat) : List Nat :=
  (g.frames.filter fun e => e.2.res && e.2.pfn == n && e.2.dep != 0 && overlapOf e.2.kc != 0 && !e.2.ovll).map (·.1)

/-- R186, step 1: every resident callee frame of `n` keeps its overlap registers in its own registers. -/
def Group.keepOverlaps (g : Group) (n : Nat) : Group :=
  (g.overlapKeepers n).foldl
    (fun g c =>
      let ch := chainUp g.frames 128 c
      let g := (List.range (overlapOf (((g.frame? c).map (·.kc)).getD 0))).foldl
        (fun g i =>
          match locate g.frames ch i with
          | none => g
          | some (pf, pr) => (List.range 32).foldl (fun g l => g.frameSet c i l (g.frameGet pf pr l)) g)
        g
      { g with frames := modifyKey g.frames c fun f => { f with ovll := true } })
    g

/-- The 128 bytes of one register of a frame, lane 0 first (R182). -/
def Frame.row (f : Frame) (i : Nat) : List Byte :=
  (List.range 32).flatMap fun l => leBytes 4 (Sparse.get 0 f.regs (32 * i + l)).toNat

/-- The registers of a frame read back from 128-byte rows. -/
def regsOfRows (rows : List (List Byte)) : Sparse Word :=
  rows.zipIdx.foldl
    (fun t r =>
      (List.range 32).foldl
        (fun t l => Sparse.set 0 t (32 * r.2 + l) (BitVec.ofNat 32 (leNat ((r.1.drop (4 * l)).take 4)))) t)
    []

/-- The places of the spill area that the eviction of frame `n` writes: its image, and the descriptors it changes that have
a copy there. -/
def Group.evictPlaces (g : Group) (n : Nat) : List Nat :=
  match g.frame? n with
  | none => []
  | some f => g.imagePages f ++ (((n :: g.overlapKeepers n).filter g.spilledCopy).map g.descAddr)

/-- The eviction of frame `n` of a group begins (R186, step 1): overlaps are kept, and the descriptors changed are changed in
the spill area too (R181). -/
def State.startEvict (s : State) (gid n : Nat) : State × Spill :=
  match s.group? gid with
  | none => (s, .ok)
  | some g =>
    match s.spillReach gid eseSplit .write (g.evictPlaces n) with
    | (s, .ok) =>
      let s := s.onGroup gid fun g => g.keepOverlaps n
      (((g.overlapKeepers n).filter g.spilledCopy).foldl (fun s c => s.putDescriptor gid c) s, .ok)
    | r => r

/-- The eviction ends (R186, steps 2 and 3): the image holds the frame's registers as they stand, RES = 0, and the granules
are free. -/
def State.endEvict (s : State) (gid n : Nat) : State × Spill :=
  match s.group? gid with
  | none => (s, .ok)
  | some g =>
    match g.frame? n with
    | none => (s, .ok)
    | some f =>
      match s.spillReach gid eseSplit .write (g.evictPlaces n) with
      | (s, .ok) =>
        let s := (List.range f.size).foldl (fun s i => s.spillStore g (g.imageAddr n i) (f.row i)) s
        let s := s.onGroup gid fun g => { g with frames := insertKey g.frames n { f with res := false, gmap := [], regs := [] } }
        ((if g.spilledCopy n then s.putDescriptor gid n else s), .ok)
      | r => r

/-- An eviction from beginning to end. -/
def State.evict (s : State) (gid n : Nat) : State × Spill :=
  match s.startEvict gid n with
  | (s, .ok) => s.endEvict gid n
  | r => r

/-- Registers 0 to `k - 1` of the image of a group's frame `n` (R182), once it is reached. -/
def State.readImage (s : State) (g : Group) (n k : Nat) : State × List (List Byte) :=
  (List.range k).foldl
    (fun (acc : State × List (List Byte)) i =>
      let (s, bs) := acc.1.spillLoad g (g.imageAddr n i) 128
      (s, acc.2 ++ [bs]))
    (s, [])

/-- A fill of frame `n` whose granules have been granted (R187): the image read, RES = 1. -/
def State.fill (s : State) (gid n : Nat) : State × Spill :=
  match s.group? gid with
  | none => (s, .ok)
  | some g =>
    match g.frame? n with
    | none => (s, .ok)
    | some f =>
      match s.spillReach gid eseSplit .read (g.imagePages f) with
      | (s, .ok) =>
        match s.spillReach gid eseSplit .write (if g.spilledCopy n then [g.descAddr n] else []) with
        | (s, .ok) =>
          let (s, rows) := s.readImage g n f.size
          let s := s.onGroup gid fun g =>
            { g with frames := insertKey g.frames n { f with res := true, regs := regsOfRows rows } }
          ((if g.spilledCopy n then s.putDescriptor gid n else s), .ok)
        | r => r
      | r => r

/-- The descriptor of the caller of the issuing split's top frame read back from the spill area where the sub-core does not
keep it (R181). DESIGN CHOICE (log 127): what a program has written over it there counts for RPC, KC and OVLL; the numbers
of the frame and its caller, its size, RES and GMAP are the sub-core's own. -/
def State.readBack (s : State) : State × Spill :=
  match s.grp.spl.chain with
  | _ :: fn :: _ =>
    if 1 < s.grp.spl.near then (s, .ok)
    else
      match s.spillReach s.grp.gid s.grp.spl.num .read [s.grp.descAddr fn] with
      | (s, .ok) =>
        let (s, bs) := s.spillLoad s.grp (s.grp.descAddr fn) 32
        let d := frameOfDescriptor (BitVec.ofNat 256 (leNat bs))
        (s.onGrp fun g =>
          { g with frames := modifyKey g.frames fn fun f => { f with rpc := d.rpc, kc := d.kc, ovll := d.ovll } }, .ok)
      | r => r
  | _ => (s, .ok)

/-! ### The queue of frame requests (R183) -/

/-- Whether the request of a split could be granted now: nothing else heads the queue and enough granules are free. -/
def State.mayGrant (s : State) (sub gid sp n : Nat) : Bool :=
  (match s.requests.find? fun r => r.sub == sub with
   | none => true
   | some r => r.gid == gid && r.sp == sp)
  && decide (n ≤ s.freeGranules sub)

/-- The requests of a split withdrawn. -/
def State.dropRequests (s : State) (gid sp : Nat) : State :=
  { s with requests := s.requests.filter fun r => !(r.gid == gid && r.sp == sp) }

/-- A split's request at the tail of its sub-core's queue; a split has one request at a time. -/
def State.request (s : State) (r : FrameReq) : State :=
  if s.requests.any fun q => q.gid == r.gid && q.sp == r.sp then s else { s with requests := s.requests ++ [r] }

end Sys2Proof.Machine
end

