-- ==== Sys2Proof/Machine/Queues.lean ====
section
/-!
DEFINITION. What the queue controllers keep (R211 to R217, R302 to R314): handles, queue control blocks, slots, flow
locks, sequences, the release window, parked items and fault records.
-/
namespace Sys2Proof.Machine

/-! ### Handles (R304, R305) -/

/-- The check code of a handle's upper 40 bits under a partition's queue key. -/
def handleCheck (key : BitVec 256) (upper : BitVec 40) : BitVec 24 :=
  BitVec.ofNat 24 (leNat ((Sha.hmac (leBytes 32 key.toNat) (leBytes 5 upper.toNat)).take 3))

/-- The partition's queue key. -/
def State.queueKey (s : State) (part : Nat) : BitVec 256 := (lookupKey s.queueKeys part).getD 0

/-- A handle: queue number, the rights ENQ, DEQ, STL, partition, generation and check code (R304). -/
def makeHandle (key : BitVec 256) (qnum : Nat) (rights : BitVec 3) (part gen : Nat) : Dword :=
  let upper : BitVec 40 := BitVec.ofNat 24 qnum ++ rights ++ BitVec.ofNat 5 part ++ BitVec.ofNat 8 gen
  upper ++ handleCheck key upper

/-- The key of a queue in `State.queues`: 2^24 times the partition plus the queue number. -/
def queueKeyOf (part qnum : Nat) : Nat := part * 2 ^ 24 + qnum

/-- The queue number of a key. -/
def qnumOf (k : Nat) : Nat := k % 2 ^ 24

/-- The rights an operation needs, as ENQ, DEQ, STL in bits 2, 1, 0 (R305). -/
def rightsEnq : BitVec 3 := 4
/-- DEQ. -/
def rightsDeq : BitVec 3 := 2
/-- STL. -/
def rightsStl : BitVec 3 := 1

/-- The checks 1 to 3 of R305 on a handle used from partition `part`: the key of its open queue, or the cause. -/
def State.checkHandle (s : State) (part : Nat) (h : Dword) (need : BitVec 3) : Except Nat Nat :=
  let upper : BitVec 40 := h.extractLsb' 24 40
  let qnum := (h.extractLsb' 40 24).toNat
  if h.extractLsb' 0 24 ≠ handleCheck (s.queueKey part) upper then .error 11
  else if (h.extractLsb' 32 5).toNat ≠ part ∨ (s.partReg part 0x30).toNat ≤ qnum then .error 11
  else
    match lookupKey s.queues (queueKeyOf part qnum) with
    | none => .error 11
    | some q =>
      if q.gen % 256 ≠ (h.extractLsb' 24 8).toNat then .error 11
      else if h.extractLsb' 37 3 &&& need ≠ need then .error 12
      else .ok (queueKeyOf part qnum)

/-! ### Queue control blocks and slots (R303, R306) -/

/-- The context whose PASID a queue carries. -/
def State.ctxOfPasid (s : State) (part pasid : Nat) : Nat :=
  ((s.contexts.find? fun c => c.2.pasid == pasid && c.2.part == part && c.2.st == 1).map (·.1)).getD 8192

/-- The cached QCB of a 64-byte block read from the queue table (R303). -/
def queueOfBlock (b : BitVec 512) : Queue :=
  { base := b.extractLsb' 448 64, tail := b.extractLsb' 416 32, head := b.extractLsb' 384 32
    fq := (b.extractLsb' 360 24).toNat, fqv := b.getLsbD 300, stall := (b.extractLsb' 344 16).toNat
    pasid := (b.extractLsb' 324 20).toNat, part := (b.extractLsb' 319 5).toNat, gen := (b.extractLsb' 311 8).toNat
    home := (b.extractLsb' 308 3).toNat, logcap := (b.extractLsb' 303 5).toNat, slot := b.getLsbD 302
    swr := b.getLsbD 301, closed := b.getLsbD 299, kind := (b.extractLsb' 296 3).toNat, dirty := false, held := []
    reinjected := [], deferred := [], records := [], bound := [], node := none
    waiters := [], arrivals := [] }

/-- The block a cached QCB is written back as (R302, R303). -/
def Queue.block (q : Queue) : BitVec 512 :=
  q.base ++ q.tail ++ q.head ++ BitVec.ofNat 24 q.fq ++ BitVec.ofNat 16 q.stall ++ BitVec.ofNat 20 q.pasid
    ++ BitVec.ofNat 5 q.part ++ BitVec.ofNat 8 q.gen ++ BitVec.ofNat 3 q.home ++ BitVec.ofNat 5 q.logcap
    ++ BitVec.ofBool q.slot ++ BitVec.ofBool q.swr ++ BitVec.ofBool q.fqv ++ BitVec.ofBool q.closed
    ++ BitVec.ofNat 3 q.kind ++ (0 : BitVec 296)

/-- The size of a slot. -/
def Queue.slotSize (q : Queue) : Nat := if q.slot then 128 else 32
/-- The size of a record. -/
def Queue.recordSize (q : Queue) : Nat := if q.slot then 64 else 16
/-- How many records the queue holds. -/
def Queue.count (q : Queue) : Nat := (q.tail - q.head).toNat
/-- The queue has no room. -/
def Queue.full (q : Queue) : Bool := decide (2 ^ q.logcap ≤ q.count)
/-- The virtual address of the slot at count `i` (R306). -/
def Queue.slotAddr (q : Queue) (i : Word) : Nat := q.base.toNat + q.slotSize * (i.toNat % 2 ^ q.logcap)
/-- The phase of the record at count `i` (R306). -/
def Queue.phase (q : Queue) (i : Word) : Bool := decide (i.toNat / 2 ^ q.logcap % 2 = 0)

/-- The record at count `i`, where it is valid (R306). -/
def State.slotRecord (s : State) (q : Queue) (i : Word) : State × Option (List Byte) :=
  let ctx := s.ctxOfPasid q.part q.pasid
  match s.ctxNat ctx q.home (q.slotAddr i + q.slotSize - 8) 8 with
  | (s, hdr) =>
    if (hdr % 2 == 1) == q.phase i then s.ctxLoadLong ctx q.home (q.slotAddr i) (q.recordSize / 16)
    else (s, none)

/-- A record and then its header written to slot TAIL, and TAIL advanced (R311). -/
def State.slotWrite (s : State) (k : Nat) (rec_ : List Byte) : State :=
  match lookupKey s.queues k with
  | none => s
  | some q =>
    let ctx := s.ctxOfPasid q.part q.pasid
    let body := rec_ ++ List.replicate (q.recordSize - rec_.length) 0
    let s := (s.ctxStoreLong ctx q.home (q.slotAddr q.tail) body).getD s
    let s := (s.ctxStore ctx q.home (q.slotAddr q.tail + q.slotSize - 8) (leBytes 8 (if q.phase q.tail then 1 else 0))).getD s
    s.onQueue k fun q => { q with tail := q.tail + 1, dirty := true }

/-! ### Flow locks and sequences (R211, R214) -/

/-- The lock entry of a flow of a PASID (R211). -/
def lockHash (flow : Word) (pasid : Nat) : Nat :=
  (((flow ^^^ BitVec.ofNat 32 pasid) * 0x9E3779B1#32).extractLsb' 16 16).toNat

/-- The key of a die's lock entry. -/
def lockKey (die : Nat) (flow : Word) (pasid : Nat) : Nat := die * 65536 + lockHash flow pasid

/-- A lock entry nothing has used. -/
def LockEntry.empty : LockEntry :=
  { held := false, next := 0, point := 0, resolved := [], since := 0, waited := 0, posted := [] }

/-- The lock entry with a key. -/
def State.lock (s : State) (k : Nat) : LockEntry := (lookupKey s.locks k).getD LockEntry.empty

/-- A lock entry changed. -/
def State.onLock (s : State) (k : Nat) (f : LockEntry → LockEntry) : State :=
  { s with locks := insertKey s.locks k (f (s.lock k)) }

/-- The next sequence of an entry, counting modulo 2^30 (R214). -/
def State.nextSeq (s : State) (k : Nat) : State × Nat :=
  (s.onLock k fun e =>
      { e with next := (e.next + 1) % 2 ^ 30, since := if e.point = e.next then s.postmark.toNat else e.since },
   (s.lock k).next)

/-- The release point moved past every resolved slot in order (R214). -/
def advancePoint : Nat → LockEntry → LockEntry
  | 0, e => e
  | n + 1, e =>
    if e.resolved.contains e.point then
      advancePoint n { e with point := (e.point + 1) % 2 ^ 30, resolved := e.resolved.filter fun r => r != e.point }
    else e

/-- A sequence slot resolved (R214); the slot at which the release point then stands holds it back from now on. -/
def State.resolveSlot (s : State) (k seq : Nat) : State :=
  s.onLock k fun e =>
    let e' := advancePoint (e.resolved.length + 1)
      { e with resolved := if e.resolved.contains seq then e.resolved else e.resolved ++ [seq] }
    { e' with since := if e'.point = e.point then e.since else s.postmark.toNat }

/-- A lock released (R212). -/
def State.unlock (s : State) (k : Nat) : State := s.onLock k fun e => { e with held := false }

/-- A lock taken. -/
def State.takeLock (s : State) (k : Nat) : State := s.onLock k fun e => { e with held := true }

/-- Sequence `q` lies strictly below the release point `p`, modulo 2^30. -/
def seqPassed (p q : Nat) : Bool :=
  let d := (p + 2 ^ 30 - q) % 2 ^ 30
  decide (0 < d) && decide (d ≤ 2 ^ 29)

/-! ### Items -/

/-- The flow of a descriptor (R208). -/
def descFlow (d : BitVec 128) : Word := d.extractLsb' 0 32
/-- The class of a descriptor. -/
def descClass (d : BitVec 128) : Nat := (d.extractLsb' 32 2).toNat
/-- The sequence of a descriptor. -/
def descSeq (d : BitVec 128) : Nat := (d.extractLsb' 34 30).toNat
/-- A descriptor with another flow, class and sequence. -/
def descWith (d : BitVec 128) (flow : Word) (cls seq : Nat) : BitVec 128 :=
  d.extractLsb' 64 64 ++ BitVec.ofNat 30 seq ++ BitVec.ofNat 2 cls ++ flow

/-- The item of a lane. -/
def Group.item (g : Group) (l : Nat) : Option Item := lookupKey g.items l
/-- A lane's item removed: the lane is empty (R205). -/
def Group.dropItem (g : Group) (l : Nat) : Group := { g with items := eraseKey g.items l }

/-- The lock entry that orders an item: the entry of its flow at its queue's home QC (R214). -/
def State.itemEntry (s : State) (it : Item) : Nat :=
  match lookupKey s.queues it.qkey with
  | none => 0
  | some q => lockKey q.home (descFlow it.desc) q.pasid

/-- The held writes of a lane's item dropped from the release window of a core (R217). -/
def State.discardHeld (s : State) (core gid lane : Nat) (it : Item) : State :=
  let mine (w : HeldWrite) : Bool :=
    w.gid == gid && w.lane == lane && w.entry == s.itemEntry it && w.seq == descSeq it.desc
  if descClass it.desc = 1 then { s with relwin := modifyKey s.relwin core fun ws => ws.filter fun w => !mine w } else s

/-- The release of what a completed item holds: its ordered slot resolved and its lock released (R221). -/
def State.completeItem (s : State) (it : Item) : State :=
  let s := if descClass it.desc = 1 then s.resolveSlot (s.itemEntry it) (descSeq it.desc) else s
  match it.lock with
  | none => s
  | some k => s.unlock k

/-! ### Fault records and parked items (R226, R227, R314, R360) -/

/-- A fault record (R227). -/
def faultRecord (pm : Dword) (pair : Bool) (qnum lane cause : Nat) (addr pc : Dword) (desc : BitVec 128) : BitVec 512 :=
  (0 : BitVec 128) ++ pm ++ (0 : BitVec 23) ++ BitVec.ofBool pair ++ BitVec.ofNat 24 qnum ++ BitVec.ofNat 8 lane
    ++ BitVec.ofNat 8 cause ++ addr ++ pc ++ desc

/-- Waiting fault records of a queue written while it has room; records written together stay consecutive (R314). -/
def State.drainRecords (s : State) (k : Nat) : Nat → State
  | 0 => s
  | n + 1 =>
    match lookupKey s.queues k with
    | none => s
    | some q =>
      match q.records with
      | [] => s
      | rs :: rest =>
        if 2 ^ q.logcap < q.count + rs.length then s
        else
          let s := s.onQueue k fun q => { q with records := rest }
          State.drainRecords (rs.foldl (fun s r => s.slotWrite k (leBytes 64 r.toNat)) s) k n

/-- Fault records put into a fault queue, behind those that wait (R314). -/
def State.putRecords (s : State) (k : Nat) (rs : List (BitVec 512)) : State :=
  let s := s.onQueue k fun q => { q with records := q.records ++ [rs] }
  s.drainRecords k (((lookupKey s.queues k).map fun q => q.records.length).getD 0)

/-- The context fault queue of a context, where it is usable (R360). -/
def State.contextQueue (s : State) (ctx : Nat) : Option Nat :=
  match lookupKey s.contexts ctx with
  | none => none
  | some c =>
    if !c.cfqv then none
    else
      match lookupKey s.queues (queueKeyOf c.part c.cfq) with
      | none => none
      | some q => if q.kind = 2 ∧ q.slot ∧ q.pasid = c.pasid then some (queueKeyOf c.part c.cfq) else none

/-- Fault records for a context's fault queue; without one the QC posts FAULT_LOST with the team number (R360). -/
def State.putContextRecords (s : State) (ctx die team : Nat) (rs : List (BitVec 512)) : State :=
  match s.contextQueue ctx with
  | some k => s.putRecords k rs
  | none => s.postEvent (s.partOf ctx) 8 (dieSource die 0) 0 (BitVec.ofNat 64 team)

/-- The key of a node team's reserved records once it is placed. -/
def reservedKey (team : Nat) : Nat := 2 ^ 32 + team

/-- A team that is gone takes no more items (R309); records reserved for it that it has not taken return to the front of
their queue's held list, those that keep their lock to the front of the re-injection list. -/
def Queue.unbind (team : Nat) (q : Queue) : Queue :=
  let q := { q with bound := q.bound.filter fun t => t != team }
  match q.node with
  | none => q
  | some nd =>
    match lookupKey nd.reserved (reservedKey team) with
    | none => q
    | some ds =>
      { q with
        node := some { nd with reserved := eraseKey nd.reserved (reservedKey team) }
        reinjected := ds.filter (·.lock.isSome) ++ q.reinjected
        held := ds.filter (·.lock.isNone) ++ q.held }

/-- A team unbound from every queue. -/
def State.unbindTeam (s : State) (team : Nat) : State :=
  { s with queues := s.queues.map fun e => (e.1, e.2.unbind team) }

/-- The parked table of a die's QC. -/
def State.parkedTable (s : State) (die : Nat) : List ParkedItem := (lookupKey s.parkedItems die).getD []

/-- A die's parked table holds 4,096 entries (R314). -/
def State.parkRoom (s : State) (die : Nat) : Bool := decide ((s.parkedTable die).length < 4096)

/-- An item parked (R226, R314): it takes an entry of its home QC's parked table with its lock and slot, and its fault
record goes to its queue's fault queue, or FAULT_LOST is posted. DESIGN CHOICE (log 133): where a kill has more items to park
than the table has room for, the rest wait in the QC for entries. -/
def State.parkItem (s : State) (it : Item) (lane cause : Nat) (addr pc : Dword) : State :=
  match lookupKey s.queues it.qkey with
  | none => s
  | some q =>
    if !s.parkRoom q.home then { s with parkLater := s.parkLater ++ [{ item := it, lane := lane, cause := cause, pc := pc }] }
    else
      let p : ParkedItem :=
        { qkey := it.qkey, desc := it.desc, lock := it.lock, slot := descClass it.desc == 1, since := s.postmark.toNat }
      let s := { s with parkedItems := insertKey s.parkedItems q.home (s.parkedTable q.home ++ [p]) }
      let r := faultRecord s.postmark false (qnumOf it.qkey) lane cause addr pc it.desc
      if q.fqv then s.putRecords (queueKeyOf q.part q.fq) [r]
      else s.postEvent q.part 8 (dieSource q.home 0) (BitVec.ofNat 64 (qnumOf it.qkey)) (BitVec.ofNat 64 lane)

/-- The items that wait for an entry of a die's parked table take one, as far as there is room (R314). -/
def State.parkWaiting (s : State) (die : Nat) : State :=
  s.parkLater.foldl
    (fun s p =>
      if ((lookupKey s.queues p.item.qkey).map (·.home)) == some die && s.parkRoom die then
        ({ s with parkLater := s.parkLater.erase p } : State).parkItem p.item p.lane p.cause 0 p.pc
      else s)
    s

end Sys2Proof.Machine
end

