-- ==== Sys2Proof/Machine/Image.lean ====
section
/-!
DEFINITION. The group image and the split record (R372, R373): what is written of a group, and how it is read back.
The layout of a release-window entry, which R373 gives only as 32 bytes, is a DESIGN CHOICE (log 11).
-/
namespace Sys2Proof.Machine

/-- The n-byte field at an offset of a byte string. -/
def fieldAt (bs : List Byte) (off n : Nat) : Nat := leNat ((bs.drop off).take n)

/-- `n` zero bytes. -/
def zeroBytes (n : Nat) : List Byte := List.replicate n 0

/-- A byte string cut or padded with zeros to `n` bytes. -/
def padTo (n : Nat) (bs : List Byte) : List Byte := bs.take n ++ zeroBytes (n - bs.length)

/-- The key an item carries when its group has no bound queue (R206): no queue has it. -/
def noQueue : Nat := 2 ^ 40

/-! ### Places in the team image (R372) -/

/-- The tiles a team holds on the engines of its core, ascending, as (engine key, tile). -/
def State.teamTiles (s : State) (t : Team) : List (Nat × Nat) :=
  [2 * t.core, 2 * t.core + 1].flatMap fun k =>
    (s.engine k).tiles.filterMap fun e => if e.2.team = some t.key then some (k, e.1) else none

/-- The team-memory share rounded up to 4 KiB. -/
def Team.shareSize (t : Team) : Nat := (t.tmSize + 0xFFF) / 0x1000 * 0x1000

/-- The address of a group's image when the team holds `nt` tiles. -/
def Team.groupImage (t : Team) (nt g : Nat) : Nat := t.image.toNat + 0x2000 + t.shareSize + 0x4000 * nt + 0x4000 * g

/-- The address of a group's image now. -/
def State.groupImageOf (s : State) (gid : Nat) : Nat :=
  match s.team? (teamOf gid) with
  | none => 0
  | some t => t.groupImage (s.teamTiles t).length (gid % 32)

/-! ### Split records -/

/-- The 16 bytes of a deferred-mask entry. -/
def Deferred.bytes (d : Deferred) : List Byte :=
  leBytes 4 d.mask.toNat ++ leBytes 4 ((if d.waiting then 2 ^ 31 else 0) + d.fn) ++ leBytes 8 d.pc.toNat

/-- A deferred-mask entry read back; its age starts again. -/
def Deferred.ofBytes (now : Nat) (bs : List Byte) : Deferred :=
  let w := fieldAt bs 4 4
  { mask := BitVec.ofNat 32 (fieldAt bs 0 4), waiting := w / 2 ^ 31 == 1, fn := w % 512
    pc := BitVec.ofNat 64 (fieldAt bs 8 8), since := now }

/-- The barrier-wait word of a split record: zero unless the split waits on a barrier or has arrived in an `arrwait`. -/
def Split.barrierWord (p : Split) : Nat :=
  if p.arrived || p.status == .waiting .barrier then
    (if p.arrived then 2 ^ 31 else 0) + (if p.parity then 2 ^ 30 else 0) + (if p.barClu then 2 ^ 9 else 0) + p.barNum
  else 0

/-- The lanes of a split: its active lanes and those on its deferred-mask stack. -/
def Split.lanesHeld (p : Split) : Mask := p.dstack.foldl (fun m d => m ||| d.mask) p.mask

/-- The 256 bytes of a split record. -/
def Group.splitRecord (g : Group) (p : Split) : List Byte :=
  padTo 256 (leBytes 8 p.pc.toNat ++ leBytes 4 p.mask.toNat
    ++ leBytes 4 ((if p.status = .parked then 2 ^ 31 else 0) + p.waitCount % 2 ^ 31)
    ++ leBytes 4 (p.chain.headD 0) ++ leBytes 4 p.dstack.length ++ leBytes 4 p.barrierWord ++ zeroBytes 4
    ++ ((List.range 7).flatMap fun i => leBytes 4 (g.predMask (i + 1)).toNat) ++ zeroBytes 4
    ++ (p.dstack.reverse.flatMap Deferred.bytes))

/-- The split a record describes, without its chain; the mask 0 describes none. -/
def splitOfRecord (now n : Nat) (bs : List Byte) : Option Split :=
  let m := fieldAt bs 8 4
  if m = 0 then none
  else
    let w := fieldAt bs 12 4
    let b := fieldAt bs 24 4
    some
      { num := n, pc := BitVec.ofNat 64 (fieldAt bs 0 8), mask := BitVec.ofNat 32 m, chain := [fieldAt bs 16 4]
        dstack := ((List.range (min 8 (fieldAt bs 20 4))).map fun i =>
          Deferred.ofBytes now ((bs.drop (64 + 16 * i)).take 16)).reverse
        status := if w / 2 ^ 31 = 1 then .parked else .run, waitCount := w % 2 ^ 31, refusals := 0, urgent := none
        born := now, tried := 0, since := now, arrived := b / 2 ^ 31 == 1, parity := b / 2 ^ 30 % 2 == 1
        barClu := b / 2 ^ 9 % 2 == 1, barNum := b % 512, near := 1, cont := none }

/-- The predicates of a split record, in the lanes of a mask. -/
def Group.loadPreds (g : Group) (m : Mask) (bs : List Byte) : Group :=
  (List.range 7).foldl (fun g i => g.predSet (i + 1) m (BitVec.ofNat 32 (fieldAt bs (32 + 4 * i) 4))) g

/-! ### The group fields -/

/-- The ordinary splits of a group: while it is in handler mode, those that the entry froze (R357). -/
def Group.ordinary (g : Group) : List Split :=
  (match g.handler with
   | none => g.splits
   | some h => h.frozen).filter fun p => p.mask != 0

/-- The split-valid mask of a group image. -/
def validMask (ps : List Split) : Nat := ps.foldl (fun v p => v ||| 2 ^ p.num) 0

/-- The group fields, offsets 0x000 to 0x3FF. -/
def Group.fieldBlock (g : Group) (software : Bool) : List Byte :=
  leBytes 8 (1 + (if g.handler.isSome && !software then 2 ^ 16 else 0) + (if software then 2 ^ 17 else 0)
    + 2 ^ 18 * validMask g.ordinary)
  ++ leBytes 8 g.mode.toNat ++ leBytes 4 g.batch.toNat ++ leBytes 4 g.closed.length
  ++ padTo 32 (g.closed.flatMap fun c => leBytes 4 c.1) ++ leBytes 8 (if g.kovf then 1 else 0) ++ leBytes 8 g.spill.toNat
  ++ leBytes 8 (g.awb + g.awl * 2 ^ 16) ++ leBytes 8 (g.q.toNat / 2 * 2)
  ++ leBytes 8 (match g.domain with | none => 0 | some d => 16 + d)
  ++ zeroBytes 0x20 ++ ((List.range 32).flatMap fun l => leBytes 4 (g.lfsrGet l).toNat) ++ zeroBytes 0x100
  ++ ((List.range 64).flatMap fun n => leBytes 8 (Sparse.get 0 g.uni n).toNat)

/-- The group fields read back (R379, n = 4): the closed batches count as complete. -/
def Group.loadFields (g : Group) (bs : List Byte) : Group :=
  let dom := fieldAt bs 0x58 8
  { g with
    mode := modeWritten g.mode (BitVec.ofNat 64 (fieldAt bs 8 8)), batch := BitVec.ofNat 32 (fieldAt bs 0x10 4)
    closed := (List.range (min 8 (fieldAt bs 0x14 4))).map fun i => (fieldAt bs (0x18 + 4 * i) 4, true)
    kovf := fieldAt bs 0x38 8 % 2 == 1, spill := BitVec.ofNat 64 (fieldAt bs 0x40 8 / 0x1000 * 0x1000)
    awb := fieldAt bs 0x48 8 % 2 ^ 11, awl := fieldAt bs 0x48 8 / 2 ^ 16 % 2 ^ 11
    q := BitVec.ofNat 8 (fieldAt bs 0x50 1 / 2 * 2), domain := if dom / 16 % 2 = 1 then some (dom % 16) else none
    lfsr := (List.range 32).foldl (fun t l => Sparse.set 0 t l (BitVec.ofNat 32 (fieldAt bs (0x80 + 4 * l) 4))) []
    uni := (List.range 64).foldl (fun t n => Sparse.set 0 t n (BitVec.ofNat 64 (fieldAt bs (0x200 + 8 * n) 8))) []
    pend := [] }

/-! ### Items and release-window entries (R381) -/

/-- The lanes of the group that are not vacant (R205): some split holds them. -/
def Group.liveMask (g : Group) : Mask := (g.splits ++ g.ordinary).foldl (fun m p => m ||| p.lanesHeld) 0

/-- The item block, offsets 0x800 to 0xA8B. -/
def Group.itemBlock (g : Group) : List Byte :=
  let locks := g.items.filterMap fun e => e.2.lock
  ((List.range 32).flatMap fun l =>
    leBytes 16 (match g.item l with | none => 0 | some it => it.desc.toNat))
  ++ leBytes 8 ((List.range 32).foldl
      (fun n l => n + 4 ^ l * (if (g.item l).isSome then 2 else if g.liveMask.getLsbD l then 1 else 0)) 0)
  ++ leBytes 4 locks.length ++ padTo 128 (locks.flatMap fun k => leBytes 4 k)

/-- The items of an item block in their lanes, with the locks reattached. -/
def State.loadItems (s : State) (gid : Nat) (bs : List Byte) : State :=
  match s.group? gid with
  | none => s
  | some g =>
    let qk := g.queue.getD noQueue
    let locks := (List.range (min 32 (fieldAt bs 0x208 4))).map fun i => fieldAt bs (0x20C + 4 * i) 4
    let items := (List.range 32).filterMap fun l =>
      if fieldAt bs 0x200 8 / 4 ^ l % 4 = 2 then
        let it : Item := { desc := BitVec.ofNat 128 (fieldAt bs (16 * l) 16), qkey := qk, lock := none }
        let k := s.itemEntry it
        some (l, { it with lock := if descClass it.desc = 2 ∧ locks.contains k then some k else none })
      else none
    s.onGroup gid fun g => { g with items := items }

/-- The held writes of a group in a core's release window, in order. -/
def State.heldOf (s : State) (core gid : Nat) : List HeldWrite :=
  ((lookupKey s.relwin core).getD []).filter fun w => w.gid == gid

/-- Where the places of a space begin for a team: its team-memory share, its first reserved tile. -/
def Team.spaceBase (t : Team) (space : Nat) : Nat :=
  if space = 1 then teamAt t.core t.tmBase else if space = 3 then 2 * t.core * 2 ^ 18 + t.tile0 * 0x4000 else 0

/-- The 32 bytes of a release-window entry: team memory and accumulator places relative to the team's (log 11). -/
def heldBytes (t : Team) (w : HeldWrite) : List Byte :=
  leBytes 8 (w.addr - t.spaceBase w.space) ++ padTo 8 w.bytes ++ leBytes 4 w.entry ++ leBytes 4 w.seq
  ++ leBytes 1 w.bytes.length ++ leBytes 1 w.space ++ leBytes 1 w.sem ++ leBytes 1 w.scope ++ leBytes 1 w.lane
  ++ zeroBytes 3

/-- A release-window entry read back. -/
def heldOfBytes (t : Team) (gid : Nat) (bs : List Byte) : HeldWrite :=
  { addr := fieldAt bs 0 8 + t.spaceBase (fieldAt bs 25 1), bytes := (bs.drop 8).take (min 8 (fieldAt bs 24 1))
    entry := fieldAt bs 16 4, seq := fieldAt bs 20 4, space := fieldAt bs 25 1, sem := fieldAt bs 26 1
    scope := fieldAt bs 27 1, lane := fieldAt bs 28 1, gid := gid }

/-! ### Whole images -/

/-- Pieces of bytes stored at offsets of a base by a unit of a die; none when one cannot be written. -/
def State.storePieces (s : State) (ctx die base : Nat) (ps : List (Nat × List Byte)) : Option State :=
  ps.foldl
    (fun o p =>
      match o with
      | none => none
      | some s => s.ctxStoreLong ctx die (base + p.1) p.2)
    (some s)

/-- The handler record, at offset 0x1C00. -/
def Group.handlerRecord (g : Group) : List Byte :=
  match g.handler with
  | none => zeroBytes 512
  | some h =>
    padTo 512 (g.splitRecord g.spl ++ leBytes 8 h.cause.toNat ++ padTo 48 (h.words.flatMap fun w => leBytes 8 w.toNat)
      ++ leBytes 8 h.cause.toNat ++ leBytes 8 h.epc.toNat)

/-- The four split records, at offset 0x400. -/
def Group.splitBlock (g : Group) : List Byte :=
  (List.range 4).flatMap fun n =>
    match g.ordinary.find? fun p => p.num == n with
    | none => zeroBytes 256
    | some p => g.splitRecord p

/-- The image of a group written by the device in hardware save mode (R371): every field. None when the save pool
cannot be written. -/
def State.saveGroup (s : State) (gid base : Nat) : Option State :=
  match s.group? gid, s.team? (teamOf gid) with
  | some g, some t =>
    let held := (s.heldOf g.core gid).take 128
    s.storePieces (s.ctxOf gid) (dieOf g.core) base
      [(0, g.fieldBlock false), (0x400, g.splitBlock), (0x800, g.itemBlock), (0xA90, leBytes 8 held.length),
       (0xC00, held.flatMap (heldBytes t)), (0x1C00, g.handlerRecord)]
  | _, _ => some s

/-- A chain rebuilt from the descriptors in the spill area, from its top frame to frame 0 (R379): the frames other than
frame 0 and those already live, with RES = 0. None where a descriptor cannot be read. -/
def State.readChain (s : State) (ctx die spill : Nat) : Nat → Nat → State × Option (List Frame)
  | 0, _ => (s, some [])
  | fuel + 1, fn =>
    if fn = 0 then (s, some [])
    else
      match s.ctxLoadLong ctx die (spill + 32 * fn) 2 with
      | (s, none) => (s, none)
      | (s, some bs) =>
        let f := frameOfDescriptor (BitVec.ofNat 256 (leNat bs))
        match State.readChain s ctx die spill fuel f.pfn with
        | (s, none) => (s, none)
        | (s, some fs) => (s, some ({ f with fn := fn } :: fs))

/-- Frames added to a group where it has none of the number. -/
def Group.addFrames (g : Group) (fs : List Frame) : Group :=
  fs.foldl (fun g f => if (g.frame? f.fn).isSome then g else { g with frames := insertKey g.frames f.fn f }) g

/-- The watchdog's counts of a split's deferred entries go on from where a pre-emption stopped them (R369). -/
def Team.resumeClocks (t : Team) (g now : Nat) (p : Split) : Split :=
  let ages := (((lookupKey t.savedClocks g).bind fun c => lookupKey c.2 p.num)).getD []
  { p with dstack := p.dstack.zipIdx.map fun d => { d.1 with since := now - (ages[d.2]?).getD 0 } }

/-- A split read back from its record: its chain rebuilt, its predicates loaded. None where the spill area cannot be
read; the split none where the record's mask is 0. -/
def State.loadSplit (s : State) (gid n : Nat) (bs : List Byte) : State × Option (Option Split) :=
  match s.group? gid, splitOfRecord s.postmark.toNat n bs with
  | some g, some p0 =>
    let p := match s.team? (teamOf gid) with
      | none => p0
      | some t => t.resumeClocks (gid % 32) s.postmark.toNat p0
    match s.readChain (s.ctxOf gid) (dieOf g.core) g.spill.toNat 128 (p.chain.headD 0) with
    | (s, none) => (s, none)
    | (s, some fs) =>
      let top := ((g.addFrames fs).frame? (p.chain.headD 0))
      let swapped := match top with
        | none => false
        | some f => !f.res
      (s.onGroup gid fun g => (g.addFrames fs).loadPreds p.lanesHeld bs,
       some (some { p with chain := fs.map (·.fn) ++ [0], near := min 16 (fs.length + 1)
                           status := if swapped then .swapped else p.status }))
  | _, _ => (s, some none)

end Sys2Proof.Machine
end

