-- ==== Sys2Proof/Machine/Ops.lean ====
section
/-!
DEFINITION. What instructions share: moving on, waiting, ordering points (R265 to R268), the end of lanes, splits, groups
and teams (R192, R202, R237, R346), TAKING A FAULT as one operation (R226, R323, R356 to R361), and the end of handler
mode (R363).
-/
namespace Sys2Proof.Machine

/-! ### Cause codes (R354, R367) -/

/-- ILLEGAL_ENCODING. -/
abbrev causeIllegal : Nat := 1
/-- MISALIGNED. -/
abbrev causeMisaligned : Nat := 2
/-- PAGE. -/
abbrev causePage : Nat := 3
/-- PROTECTION. -/
abbrev causeProtection : Nat := 4
/-- PARAM_UNBOUND. -/
abbrev causeParam : Nat := 5
/-- ACC_WINDOW. -/
abbrev causeWindow : Nat := 6
/-- ACC_TOKEN. -/
abbrev causeToken : Nat := 7
/-- ILLEGAL_CONVERGENCE. -/
abbrev causeConvergence : Nat := 8
/-- PAIR_TIMEOUT. -/
abbrev causePairTimeout : Nat := 9
/-- DOUBLE_RESOLVE. -/
abbrev causeDoubleResolve : Nat := 10
/-- CAP_CHECK. -/
abbrev causeCapCheck : Nat := 11
/-- STACK_OVERFLOW. -/
abbrev causeStack : Nat := 13
/-- TRAP. -/
abbrev causeTrap : Nat := 14
/-- BKPT. -/
abbrev causeBkpt : Nat := 15
/-- PREEMPT. -/
abbrev causePreempt : Nat := 16
/-- RESUME. -/
abbrev causeResume : Nat := 17
/-- KILLED. -/
abbrev causeKilled : Nat := 18
/-- SAVE_TIMEOUT. -/
abbrev causeSaveTimeout : Nat := 19
/-- MACHINE_CHECK. -/
abbrev causeMachineCheck : Nat := 128
/-- WATCHDOG. -/
abbrev causeWatchdog : Nat := 130
/-- HALT_REQUEST. -/
abbrev causeHaltRequest : Nat := 131
/-- SPILL_FAULT. -/
abbrev causeSpill : Nat := 132

/-! ### Moving on and waiting -/

/-- The issuing split continues at another address. -/
def State.goto (s : State) (pc : Dword) : State :=
  s.onGrp fun g => g.onSpl fun p => { p with pc := pc, status := .run, arrived := false }

/-- The issuing split continues behind an instruction of `len` bytes (R35). -/
def State.advance (s : State) (len : Nat) : State := s.goto (s.grp.spl.pc + BitVec.ofNat 64 len)

/-- The instruction completes: the split continues behind it. -/
def State.done (s : State) (len : Nat) : Out := .next (s.advance len)

/-- The instruction waits: the split stands at it and issues it again (R13). -/
def State.stay (s : State) (w : Why) : Out := .next (s.waitFor w)

/-- A context fault: the halt line of a partition rises as the next step (R367). -/
def State.haltSoon (s : State) (part cause : Nat) : State :=
  { s with agenda := .halt part (BitVec.ofNat 8 cause) :: s.agenda }

/-! ### Ordering points (R265 to R268) -/

/-- Every load of a group has returned (R265). -/
def Group.loadsBack (g : Group) : Bool := !(g.pend.any fun e => e.wait)

/-- `order_point(scope)` can return (R265): every earlier load has returned, and for `.sys` the homes have acknowledged every
write. The conditions of the other scopes come about as it returns (`State.release`). -/
def State.atOrder (s : State) (sc : Scope) : Bool := s.grp.loadsBack && (sc != .sys || s.grp.ack == 0)

/-- The clock step of a `.pkg` release by die `d` (R267): its release entry rises and a marker leaves on every channel. -/
def State.clockStep (s : State) (d : Nat) : State :=
  let v := Sparse.get 0 s.vrel (9 * d) + 1
  { s with
    vrel := Sparse.set 0 s.vrel (9 * d) v
    markers := s.markers ++ ((List.range 9).filter (· ≠ d)).map fun t => { src := d, dst := t, value := v } }

/-- A release at a scope whose order point has been reached (R265, R266): from `.clu` on the group's writes meet the `.die`
condition, and at `.pkg` the clock step follows. -/
def State.release (s : State) (sc : Scope) : State :=
  match sc with
  | .grp | .team => s
  | .pkg => (s.sendFlights s.grp.gid s.die).clockStep s.die
  | _ => s.sendFlights s.grp.gid s.die

/-- The acquire action of R265. -/
def State.acquire (s : State) (sc : Scope) : State :=
  match sc with
  | .grp | .team => s
  | _ => s.l1Invalidate s.grp.core

/-- The group has sent `n` write operations to global or scratch memory (R268). -/
def State.countWrites (s : State) (n : Nat) : State := s.onGrp fun g => { g with ack := g.ack + n }

/-- The memory pipe takes accesses of the issuing split: no other split of its group waits at an ordering point (R266). -/
def State.pipeOpen (s : State) : Bool :=
  s.grp.sibs.all fun p => p.mask == 0 || (p.status != .waiting .order && p.status != .waiting .flush)

/-- A context has sent `n` writes, atomics or copy packets to peer devices: its DRAIN rises (R375). -/
def State.countPeers (s : State) (ctx n : Nat) : State :=
  if n = 0 then s else { s with contexts := modifyKey s.contexts ctx fun c => { c with drain := c.drain + n } }

/-- Whether a sem releases, and whether it acquires. -/
def semReleases (m : Sem) : Bool := m == .rel || m == .acqrel
/-- Whether a sem acquires. -/
def semAcquires (m : Sem) : Bool := m == .acq || m == .acqrel

/-- Whether a lane of a mask holds an atomic or ordered item, whose completion waits at order_point(.die) (R221). -/
def Group.orders (g : Group) (m : Mask) : Bool :=
  (lanesOf m).any fun l => match g.item l with | none => false | some it => descClass it.desc == 1 || descClass it.desc == 2

/-! ### The end of lanes, splits and groups (R192, R202) -/

/-- The items of the lanes of a mask completed, and the lanes left without one (R225, R221). -/
def State.completeLanes (s : State) (m : Mask) : State :=
  (lanesOf m).foldl
    (fun s l =>
      match s.grp.item l with
      | none => s
      | some it => (s.completeItem it).onGrp fun g => g.dropItem l)
    s

/-- The issuing split ends: another takes the focus, and the frames only its chain held are freed. -/
def Group.dropSplit (g : Group) : Group :=
  let chain := g.spl.chain
  let g := match g.sibs with
    | [] => { g with spl := Split.empty }
    | p :: rest => { g with spl := p, sibs := rest }
  chain.foldl Group.release g

/-- The issuing split has no active lane left: the top entry of its deferred-mask stack resumes, or the split ends (R192).
DESIGN CHOICE (log 128): where the entry belongs to a caller's frame, the chain stays as it is. -/
def Group.lanesEnded (g : Group) : Group :=
  match g.spl.dstack with
  | d :: rest =>
    g.onSpl fun p =>
      { p with mask := d.mask, pc := if d.waiting then d.pc + 4 else d.pc, dstack := rest, status := .run, cont := none }
  | [] => g.dropSplit

/-- The lanes of `m` leave the issuing split; with the last one it ends or resumes a deferred entry. -/
def Group.removeLanes (g : Group) (m : Mask) : Group :=
  let g := g.onSpl fun p => { p with mask := p.mask &&& ~~~m }
  if g.spl.mask = 0 then g.lanesEnded else g

/-- A split whose top frame is not resident is in SWAPPED (R189). -/
def Group.markSwapped (g : Group) : Group :=
  g.onSplits fun p =>
    match (p.chain.head?).bind g.frame? with
    | none => p
    | some f => if f.res then p else { p with status := .swapped }

/-- Handler mode ends (R363): the frames of the handler context above the chain it was given are freed and the frozen
splits stand as they did; `x` says what becomes of the split that was entered for. -/
def Group.leaveHandler (g : Group) (h : Handler) (x : Split → Split) : Group :=
  let own := g.spl.chain
  let back := h.frozen.map fun p => if p.num = g.spl.num then x p else p
  let g :=
    match back with
    | [] => { g with spl := Split.empty, sibs := [], handler := none }
    | p :: rest => { g with spl := p, sibs := rest, handler := none }
  ((own.filter fun fn => fn != 0).foldl Group.release g).markSwapped

/-- A token passed on (R147): to the first group that waits, else to the matrix side. -/
def Tile.pass (t : Tile) : Tile :=
  match t.waiters with
  | [] => { t with token := .matrix }
  | g :: rest => { t with token := .waiting g.1 g.2, waiters := rest }

/-- A tile once a group is gone: it neither holds the token nor waits for it. -/
def Tile.forget (t : Tile) (gid : Nat) : Tile :=
  let t := { t with waiters := t.waiters.filter fun g => g.1 != gid }
  match t.token with
  | .matrix => t
  | .waiting g _ | .held g | .releasing g => if g = gid then t.pass else t

/-- What a group leaves behind when it ends or is killed: its tokens pass on, its pending ordered accumulator writes are
discarded (R147), its requests, parked accesses and dispatched matrix instructions are gone. -/
def State.forgetGroup (s : State) (gid : Nat) : State :=
  { s with
    engines := s.engines.map fun e =>
      (e.1, { e.2 with tiles := e.2.tiles.map fun t => (t.1, t.2.forget gid)
                       ports := e.2.ports.filter fun d => d.gid != gid
                       mergesWaiting := e.2.mergesWaiting.filter fun m => m.gid != gid })
    relwin := s.relwin.map fun r => (r.1, r.2.filter fun w => !(w.gid == gid && w.space == 3))
    requests := s.requests.filter fun r => r.gid != gid
    assay := s.assay.map fun a => (a.1, a.2.filter fun r => r.accepted || r.gid != gid)
    parkedAccesses := s.parkedAccesses.filter fun p => p.gid != gid }

/-- A sub-core that no group occupies any more has CAP 128 again (R184). -/
def State.dropCaps (s : State) : State :=
  { s with fcap := s.fcap.filter fun e => s.groups.any fun g => g.sub == e.1 }

/-- The resources a team's engines hold for it return to the pool: tiles, steps, merges, list bindings (R145, R158). -/
def State.freeEngines (s : State) (key : Nat) : State :=
  { s with
    engines := s.engines.map fun e =>
      (e.1,
       { e.2 with
         tiles := e.2.tiles.map fun t =>
           (t.1, if t.2.team = some key then
              { team := none, alloc := false, token := .matrix, waiters := [], clearing := false } else t.2)
         ports := e.2.ports.filter fun d => teamOf d.gid != key
         steps := e.2.steps.filter fun m => teamOf m.lead.gid != key
         mergesWaiting := e.2.mergesWaiting.filter fun m => teamOf m.gid != key
         merges := e.2.merges.filter fun m => teamOf m.gid != key
         bindings := e.2.bindings.filter fun b => b.team != key
         pairFailed := e.2.pairFailed.filter fun x => x.1 != key }) }

/-- A decision record about a team (R351). -/
def State.teamDecision (s : State) (t : Team) (kind reason : Nat) : State :=
  let pasid := ((lookupKey s.contexts t.ctx).map (·.pasid)).getD 0
  s.decision (dieOf t.core) kind reason t.tag t.number (qnumOf t.qkey) pasid t.prio (2 ^ (t.core % 24))

/-- The ns for which a core has held a team that its counter does not count yet (R353). -/
def State.heldTime (s : State) (core : Nat) : Nat :=
  Sparse.get 0 s.busyRest core
  + match lookupKey s.busy core with
    | none => 0
    | some since => s.postmark.toNat - since

/-- Time a core has held a team, counted where it holds none any more (R353). -/
def State.coreFreed (s : State) (core : Nat) : State :=
  if s.teams.any fun e => e.2.core == core && (e.2.phase == .running || e.2.phase == .saving) then s
  else
    match lookupKey s.busy core with
    | none => s
    | some _ =>
      let k := dieOf core * 0x10000 + 0x2000 + core % 24
      let ns := s.heldTime core
      { s with
        busy := eraseKey s.busy core
        busyRest := Sparse.set 0 s.busyRest core (ns % 1000)
        officeCounters := Sparse.set 0 s.officeCounters k (Sparse.get 0 s.officeCounters k + BitVec.ofNat 64 (ns / 1000)) }

/-- The last group of a team has ended (R346): its resources are free at once, the end is recorded and announced;
its completion is counted once its writes are performed (TEAM_COMPLETION_COUNT). -/
def State.endTeam (s : State) (key : Nat) : State :=
  match s.team? key with
  | none => s
  | some t =>
    let s := (s.freeEngines key).onTeam key fun t => { t with phase := .ended }
    ((s.teamDecision t 4 0).officeEvent (dieOf t.core) 1 (key % 4096)).coreFreed t.core

/-- The group in focus after some of its lanes have ended: when its last split is gone the group has ended, and with
the last group of the team the team. -/
def State.afterExit (s : State) (gid : Nat) : State :=
  if (s.group? gid).isSome then s
  else
    let s := (s.forgetGroup gid).dropCaps
    if (s.teamGroups (teamOf gid)).isEmpty then s.endTeam (teamOf gid) else s

/-! ### Killing a team (R237, R356) -/

/-- The items of a group parked with a cause, in ascending lanes (R226, R237). -/
def State.parkGroupItems (s : State) (items : List (Nat × Item)) (cause : Nat) (pc : Dword) : State :=
  items.foldl (fun s e => if e.2.qkey = noQueue then s else s.parkItem e.2 e.1 cause 0 pc) s

/-- The items that the image of a pre-empted team's group holds, of the queue that the group takes items from. -/
def State.imageItems (s : State) (t : Team) (g : Nat) : List (Nat × Item) :=
  let base := t.groupImage t.savedTiles.length g + 0x800
  match s.ctxLoadLong t.ctx (dieOf t.core) base 41 with
  | (_, none) => []
  | (_, some bs) =>
    (List.range 32).filterMap fun l =>
      if fieldAt bs 0x200 8 / 4 ^ l % 4 = 2 then
        let it : Item :=
          { desc := BitVec.ofNat 128 (fieldAt bs (16 * l) 16), qkey := (lookupKey t.savedQueues g).getD noQueue, lock := none }
        let k := s.itemEntry it
        some (l, { it with lock := if descClass it.desc = 2 then some k else none })
      else none

/-- A killed group gone: the held writes of its items are discarded (R217), what it waits for is forgotten. -/
def State.killGroup (s : State) (g : Group) : State :=
  let s := g.items.foldl (fun s e => s.discardHeld g.core g.gid e.1 e.2) (s.forgetGroup g.gid)
  s.onGroup g.gid fun g => { g with frames := [], spl := Split.empty, sibs := [], items := [], handler := none }

/-- A team killed: its items are parked with the cause (or discarded with their locks and slots, R427), the held writes of
those items discarded (R217), its groups gone, its resources free; nothing is counted (R346). Its copies go on (R260), and its
writes reach their homes. DESIGN CHOICE (log 134): PC of a record whose cause is no fault of the group's is that of the
group's split in focus, and 0 for a pre-empted team. -/
def State.killTeam (s : State) (key cause reason : Nat) (discard : Bool) : State :=
  match s.team? key with
  | none => s
  | some t =>
    let gs := s.teamGroups key
    let items : List (List (Nat × Item) × Dword) :=
      if t.phase = .preempted then (List.range t.ng).map fun g => (s.imageItems t g, 0)
      else gs.map fun g => (g.items, g.spl.pc)
    let s := s.landFlights fun f => teamOf f.gid == key
    let s := { s with flights := s.flights.filter fun f => teamOf f.gid != key }
    let s := gs.foldl State.killGroup s
    let s := items.foldl
      (fun s e => if discard then e.1.foldl (fun s i => s.completeItem i.2) s else s.parkGroupItems e.1 cause e.2) s
    let s := s.freeEngines key
    let s := s.teamDecision t 5 reason
    let copies := s.copies.map fun (c : Nat × Copy) =>
      if teamOf c.2.gid = key then (c.1, { c.2 with gid := 2 ^ 41 + c.2.gid }) else c
    (({ s with teams := eraseKey s.teams key, copies := copies } : State).unbindTeam key).dropCaps.coreFreed t.core

/-! ### Taking a fault (R226, R323, R354 to R361) -/

/-- Bytes at a virtual address of a context as a fetch would read them, with no effect; none where they cannot be. -/
def State.peek (s : State) (ctx va n : Nat) : Option (List Byte) :=
  match s.translate ctx va .fetch with
  | .ok l _ _ => some ((List.range n).map fun i => s.seeGet (l.plus i))
  | _ => none

/-- Fault word 5 (R365): the short form at an address and its extension word. -/
def State.wordAt (s : State) (ctx : Nat) (pc : Dword) : Dword :=
  match s.peek ctx pc.toNat 4 with
  | none => 0
  | some lo =>
    let w : Word := BitVec.ofNat 32 (leNat lo)
    let x : Word :=
      if w.getLsbD 30 then
        match s.peek ctx (pc.toNat + 4) 4 with
        | none => 0
        | some hi => BitVec.ofNat 32 (leNat hi)
      else 0
    x ++ w

/-- `%cause` (R355). -/
def causeWord (lane : Option Nat) (spl tcode code : Nat) : Dword :=
  (0 : BitVec 40) ++ BitVec.ofBool lane.isSome ++ BitVec.ofNat 5 (lane.getD 0) ++ BitVec.ofNat 2 spl
    ++ BitVec.ofNat 8 tcode ++ BitVec.ofNat 8 code

/-- The lowest failing lane of a fault, none for a group cause. -/
def Trap.lane (t : Trap) : Option Nat := if t.lanes = 0 then none else some (lowestLane t.lanes)

/-- The faulting address of a lane. -/
def Trap.addrOf (t : Trap) (l : Nat) : Dword := (lookupKey t.addrs l).getD 0

/-- The faulting address a record or fault word holds. -/
def Trap.addr (t : Trap) : Dword := match t.lane with | none => 0 | some l => t.addrOf l

/-- DESC of a grid launch's fault record (R356). -/
def gridDesc (number group : Nat) : BitVec 128 := (0 : BitVec 91) ++ BitVec.ofNat 5 group ++ BitVec.ofNat 32 number

/-- The fault record of a fault in a grid launch (R227, R356). -/
def State.gridRecord (s : State) (pair : Bool) (gid cause : Nat) (lane : Option Nat) (addr pc : Dword) : BitVec 512 :=
  let (q, n) := match s.team? (teamOf gid) with
    | none => (0, 0)
    | some t => (qnumOf t.qkey, t.number)
  faultRecord s.postmark pair q (lane.getD 0xFF) cause addr pc (gridDesc n (gid % 32))

/-- Fault records for the context fault queue of a group (R360). -/
def State.groupRecords (s : State) (gid : Nat) (rs : List (BitVec 512)) : State :=
  match s.team? (teamOf gid) with
  | none => s
  | some t => s.putContextRecords t.ctx (dieOf t.core) t.number rs

/-- The frame that a handler context asks for (R357, step 4): number 511, overlap 0, at the depth of the chain's top. -/
def Group.pushHandler (g : Group) (fc : Nat) (rpc : Dword) (gmap : List Nat) : Group :=
  let dep := match g.top? with
    | none => 0
    | some f => f.dep
  g.push 511 dep fc 0 rpc gmap

/-- The group in focus enters handler mode (R357): other splits freeze (an `unwind` that has
begun ends), `%cause`, `%epc` and the fault words are set, the
handler context is formed and asks for frame 511. `chain` is the chain it is given, `mask` its lanes. -/
def State.enterHandler (s : State) (cause epc : Dword) (words : List Dword) (mask : Mask) (chain : List Nat)
    (num : Nat) (target : Dword) (fc : Nat) : State :=
  let gid := s.grp.gid
  let begun (n : Nat) : Bool := s.grp.splits.any fun p => p.num == n && p.cont.isSome
  let s := { s with requests := s.requests.filter fun r => r.gid != gid || begun r.sp }
  let calm (p : Split) : Split :=
    if p.cont.isNone && (p.status == .frameWait || p.status == .fillWait) then { p with status := .run } else p
  let s := s.onGrp fun g =>
    { g with
      spl := { Split.empty with num := num, pc := target, mask := mask, chain := chain, status := .frameWait
                                born := g.spl.born, since := s.postmark.toNat }
      sibs := []
      handler := some { cause := cause, epc := epc, words := words, frozen := (g.splits.filter fun p => p.mask != 0).map calm
                        complete := false } }
  let sub := s.grp.sub
  if s.mayGrant sub gid num (fc + 1) then
    let gm := s.takeGranules sub (fc + 1)
    (s.onGrp fun g => g.pushHandler fc epc gm).goto target
  else s.request { sub := sub, gid := gid, sp := num, granules := fc + 1, need := .handler target fc }

/-- The address and frame size code of a handler of a descriptor (R402): 0 fault, 1 save, 2 restore. -/
def handlerOf (k : BitVec 1024) : Nat → Dword × Nat
  | 0 => (k.extractLsb' 768 64, (k.extractLsb' 553 3).toNat)
  | 1 => (k.extractLsb' 704 64, (k.extractLsb' 550 3).toNat)
  | _ => (k.extractLsb' 640 64, (k.extractLsb' 547 3).toNat)

/-- A fault of the handler context parks the group (R359, R361): it issues nothing more, and its image and the two records
are written when it has drained (`State.finishPark`). -/
def State.parkGroup (s : State) (t : Trap) (h : Handler) : State :=
  let code := (h.cause.extractLsb' 0 8).toNat
  let routine := code = causePreempt ∨ code = causeResume
  let first :=
    if routine then
      s.gridRecord true t.gid code none 0 (handlerOf s.grp.kdesc (if code = causePreempt then 1 else 2)).1
    else
      s.gridRecord true t.gid code (if h.cause.getLsbD 23 then some (h.cause.extractLsb' 18 5).toNat else none)
        ((h.words[1]?).getD 0) ((h.words[0]?).getD 0)
  let second := s.gridRecord false t.gid t.cause t.lane t.addr t.pc
  s.onGrp fun g =>
    { g with parked := true, parkRecs := [first, second]
             handler := some { h with epc := if routine then t.pc else h.epc
                                      complete := h.complete || decide (code = causePreempt) } }

/-- The lanes of a fault that can be killed now (R226, R314): those without an item, and those whose item's parked table has
room, in ascending order. -/
def State.parkable (s : State) (ls : List Nat) : List Nat :=
  let home (l : Nat) : Option Nat := (s.grp.item l).bind fun it => (lookupKey s.queues it.qkey).map (·.home)
  ls.filter fun l =>
    match home l with
    | none => true
    | some d =>
      let before := (ls.filter fun x => decide (x < l) && home x == some d).length
      decide ((s.parkedTable d).length + before < 4096)

/-- A fault in a flow or node launch (R226): the failing lanes, or for a group cause the lanes of the effective mask, are
killed and their items parked. While the parked table has no room for an item, its lane is held at the instruction (R314). The writes made under a lock that
is parked reach the die before (R213). -/
def State.parkLanes (s : State) (t : Trap) : State :=
  let ls := s.parkable (lanesOf (if t.lanes = 0 then t.eff else t.lanes))
  if ls.isEmpty then
    let q := s.grp.queue.getD 0
    (if s.grp.spl.status = .waiting .room then s
     else s.postEvent (s.partition t.gid) 1 (dieSource s.die 0) (BitVec.ofNat 64 (qnumOf q)) 0).waitFor .room
  else
    let s := if ls.any fun l => ((s.grp.item l).bind (·.lock)).isSome then s.release .die else s
    let s := ls.foldl
      (fun s l =>
        match s.grp.item l with
        | none => s
        | some it =>
          let s := s.parkItem it l t.cause (t.addrOf l) t.pc
          (s.discardHeld s.grp.core t.gid l it).onGrp fun g => g.dropItem l)
      s
    (s.onGrp fun g => g.removeLanes (maskOf ls)).afterExit t.gid

/-- A fault in a task's team (R323): the TCB takes FPC, FCAUSE and STATE FAULTED, the team is killed and a record goes to
the fault queue of its launch queue. -/
def State.faultTask (s : State) (t : Trap) (tm : Team) : State :=
  let die := dieOf tm.core
  let tcb := tm.ptr.toNat
  let s := (s.ctxStore tm.ctx die (tcb + 8) (leBytes 8 t.pc.toNat)).getD s
  let s := (s.ctxStore tm.ctx die tcb (leBytes 8 (t.cause * 2 ^ 56 + 4))).getD s
  let s := s.killTeam tm.key t.cause 12 false
  let r := faultRecord s.postmark false (qnumOf tm.qkey) (t.lane.getD 0xFF) t.cause t.addr t.pc
    ((0 : BitVec 64) ++ tm.ptr)
  match lookupKey s.queues tm.qkey with
  | none => s
  | some q =>
    if q.fqv then s.putRecords (queueKeyOf q.part q.fq) [r]
    else s.postEvent q.part 8 (dieSource die 0) (BitVec.ofNat 64 (qnumOf tm.qkey)) (BitVec.ofNat 64 (t.lane.getD 0xFF))

/-- TAKING A FAULT (R354, R356): by the kind of launch, and first by whether the group is in handler mode. The fault is
also noted in `State.trap`. -/
def State.raise (s : State) (t : Trap) : State :=
  let s := { s with trap := some t }
  match s.grp.handler with
  | some h => s.parkGroup t h
  | none =>
    match s.team with
    | none => s.parkLanes t
    | some tm =>
      if tm.lk = 1 ∨ tm.lk = 3 then s.parkLanes t
      else if tm.lk = 2 then s.faultTask t tm
      else
        let (target, fc) := handlerOf s.grp.kdesc 0
        if target = 0 then
          let r := s.gridRecord false t.gid t.cause t.lane t.addr t.pc
          (s.killTeam tm.key t.cause 12 false).putContextRecords tm.ctx (dieOf tm.core) tm.number [r]
        else
          s.enterHandler (causeWord t.lane t.sp t.tcode t.cause) t.pc
            [t.pc, t.addr, t.eff.setWidth 64, s.postmark, s.wordAt (s.ctxOf t.gid) t.pc, 0]
            s.grp.spl.mask s.grp.spl.chain s.grp.spl.num target fc

/-- The fault of the issuing split with a group cause. ILLEGAL_ENCODING is found before the guard forms a mask, so it
holds for the split's active lanes, as every fault of a uniform instruction does. -/
def State.groupTrap (s : State) (cause tcode : Nat) (eff : Mask) : Trap :=
  { gid := s.grp.gid, sp := s.grp.spl.num, pc := s.grp.spl.pc, cause := cause, tcode := tcode, lanes := 0, addrs := []
    eff := eff }

/-- A group fault over the lanes of an effective mask. -/
def State.faultIn (s : State) (cause : Nat) (eff : Mask) : Out := .next (s.raise (s.groupTrap cause 0 eff))

/-- A group fault of a uniform instruction, or one found before a mask is formed. -/
def State.fault (s : State) (cause : Nat) : Out := s.faultIn cause s.grp.spl.mask

/-- A lane fault (R240): the failing lanes with their addresses. -/
def State.faultLanes (s : State) (cause : Nat) (eff : Mask) (fails : List (Nat × Dword)) : Out :=
  .next (s.raise { s.groupTrap cause 0 eff with lanes := maskOf (fails.map (·.1)), addrs := fails })

/-! ### Shapes of instructions -/

/-- The split waits in an instruction that has begun, or has to finish an `unwind`: its guard was found true when it issued. -/
def Split.begun (p : Split) : Bool :=
  p.cont.isSome || match p.status with
  | .waiting .fetch | .waiting .score => false
  | .waiting _ | .again => true
  | _ => false

/-- A uniform instruction whose condition q(g) XOR gn is false is retired (R40). -/
def uniform (g : BitVec 3) (gn : Bool) (len : Nat) (s : State) (body : State → Out) : Out :=
  if (s.grp.qGet g.toNat ^^ gn) || s.grp.spl.begun then body s else s.done len

/-- The result of a lane instruction as its latch holds it (R27). -/
def latchOf (res : List (Nat × Dword)) : Sparse Dword := res.foldl (fun t r => Sparse.set 0 t r.1 r.2) []

/-- A lane write in flight (R390); `before` is the group as the write found it. -/
def Group.pendLane (g before : Group) (i : Nat) (m : Mask) (wait : Bool) : Group :=
  match locate g.frames g.spl.chain i with
  | none => g
  | some (fn, r) =>
    g.addPend (.lane fn r) m 0 wait ((lanesOf m).foldl (fun t l => Sparse.set 0 t l (before.frameGet fn r l)) [])

/-- Results written to register d (a pair where `wide`), unless nw is 1. -/
def Group.laneWrite (g : Group) (d : Nat) (nw wide wait : Bool) (res : List (Nat × Dword)) : Group :=
  if nw then g
  else
    let h := res.foldl (fun g r => if wide then g.lanePairSet d r.1 r.2 else g.laneSet d r.1 (r.2.extractLsb' 0 32)) g
    let m := maskOf (res.map (·.1))
    let h := h.pendLane g d m wait
    if wide then h.pendLane g (d + 1) m wait else h

/-- The results of a lane instruction written to register d and to the latch; with nw only to the latch (R27). -/
def Group.laneResult (g : Group) (d : Nat) (nw wide wait : Bool) (res : List (Nat × Dword)) : Group :=
  (g.laneWrite d nw wide wait res).pushLatch (latchOf res)

/-- A lane instruction with no lane-register destination leaves zero in its latch (R27). -/
def State.pushZero (s : State) : State := s.onGrp fun g => g.pushLatch []

/-- A lane instruction: a register it names lies beyond the frame (R57), or its effective mask is zero and it is retired
by zero-mask skip unless exempt (R33, R34), or it executes on its effective mask. -/
def lanes (regs : List Nat) (g : BitVec 3) (gn exempt : Bool) (len : Nat) (s : State) (body : Mask → State → Out) : Out :=
  if regs.any fun r => decide (s.grp.frameSize ≤ r) then s.fault causeIllegal
  else
    let m := s.grp.effMask g gn
    if m = 0 && !exempt then s.pushZero.done len else body m s

/-- A predicate written by a lane instruction in the lanes of `m`, pending until it lands (R92). -/
def State.lanePred (s : State) (n : Nat) (m v : Mask) : State :=
  s.onGrp fun g => (g.predSet n m v).addPend (.pred n) m ((g.predMask n).setWidth 64) false []

end Sys2Proof.Machine
end

