-- ==== Sys2Proof/Machine/Operands.lean ====
section
/-!
DEFINITION. Operand forms: lane sources a, b and c (R38, R42, R43, R91, R109), packed elements (R65), special registers
(R55, R56), uniform sources (R39, R44) and the address of a memory operand (R45).
-/
namespace Sys2Proof.Machine

/-! ### Elements (R65) -/

/-- The width of an element of a type. -/
def elemBits : Ty → Nat
  | .i64 | .u64 | .f64 => 64
  | .f16 | .bf16 | .f16x2 | .bf16x2 | .i16x2 => 16
  | .i8x4 | .e4m3x4 | .e5m2x4 => 8
  | .e2m1x8 => 4
  | _ => 32

/-- The number of elements of a type. -/
def elemCount (t : Ty) : Nat := WellFormed.elems t

/-- Element `e` of a value. -/
def elemOf (t : Ty) (v : Dword) (e : Nat) : Nat := v.toNat / 2 ^ (elemBits t * e) % 2 ^ elemBits t

/-- The value with the given elements, element 0 first. -/
def packElems (t : Ty) (xs : List Nat) : Dword :=
  BitVec.ofNat 64 (xs.foldr (fun x acc => x % 2 ^ elemBits t + 2 ^ elemBits t * acc) 0)

/-- The float format of an element of a type; `f32` for the others. -/
def kindOf : Ty → FKind
  | .f64 => .f64
  | .f16 | .f16x2 => .f16
  | .bf16 | .bf16x2 => .bf16
  | .e4m3x4 => .e4m3
  | .e5m2x4 => .e5m2
  | .e2m1x8 => .e2m1
  | _ => .f32

/-- The environment in which nothing is flushed, saturated or made canonical. -/
def plainEnv : FEnv := { rnd := .rne, ftz := false, cnan := false, sat := false, draw := 0, x := 0x8000 }

/-! ### imm16 (R43) -/

/-- An imm16 widened by the type. -/
def immOf (t : Ty) (imm : BitVec 16) : Dword :=
  match t with
  | .b32 | .i64 => imm.signExtend 64
  | .u32 | .u64 | .f16 | .bf16 | .bfp => imm.setWidth 64
  | .f32 => (imm ++ (0 : BitVec 16)).setWidth 64
  | .f64 => BitVec.ofNat 64 (FKind.f64.round plainEnv (FKind.bf16.decode 0 imm.toNat))
  | .f16x2 | .bf16x2 | .i16x2 => (imm ++ imm).setWidth 64
  | .i8x4 | .e4m3x4 | .e5m2x4 | .e2m1x8 =>
    let b := imm.extractLsb' 0 8
    (b ++ b ++ b ++ b).setWidth 64

/-! ### Lane sources -/

/-- The EA fields of an instruction without an extension word (R41). -/
def defaultEA (t : Ty) : EA := { t := t, rnd := .mode, sat := false, gn := false, c := 0, xc := false, imm := 0 }

/-- A lane register or pair. -/
def Group.reg (g : Group) (wide : Bool) (n l : Nat) : Dword :=
  if wide then g.lanePair n l else (g.laneGet n l).setWidth 64

/-- Source a (R38). -/
def Group.srcA (g : Group) (w : LaneShort) (wide : Bool) (l : Nat) : Dword :=
  if w.sk = 1 then g.latchGet (w.a.toNat % 4) l else g.reg wide w.a.toNat l

/-- Source b (R38). -/
def Group.srcB (g : Group) (w : LaneShort) (wide : Bool) (l : Nat) : Dword :=
  if w.sk = 2 then g.latchGet (w.b.toNat % 4) l
  else if w.sk = 3 then g.uniGet w.b.toNat
  else g.reg wide w.b.toNat l

/-- Source b of a 2S instruction: imm16 where xc = 1 (R42). -/
def Group.srcB2 (g : Group) (w : LaneShort) (e : EA) (l : Nat) : Dword :=
  if e.xc then immOf e.t e.imm else g.srcB w e.t.wide l

/-- Source c of a 3S instruction (R42). -/
def Group.srcC (g : Group) (e : EA) (wide : Bool) (l : Nat) : Dword :=
  if e.xc then g.latchGet (e.c.toNat % 4) l else g.reg wide e.c.toNat l

/-- The lane registers that source a names. -/
def regsA (w : LaneShort) : List Nat := if w.sk = 1 then [] else [w.a.toNat]
/-- The lane registers that source b names; `imm` when an immediate stands in its place. -/
def regsB (w : LaneShort) (imm : Bool) : List Nat := if imm || w.sk == 2 || w.sk == 3 then [] else [w.b.toNat]
/-- The lane register that source c names. -/
def regsC (e : EA) : List Nat := if e.xc then [] else [e.c.toNat]
/-- The lane registers that a destination names: none with nw = 1. -/
def regsD (w : LaneShort) : List Nat := if w.nw then [] else [w.d.toNat]

/-! ### Special registers (R55, R56) -/

/-- The value of a uniform special register as the group in focus reads it. -/
def State.special (s : State) (n : Nat) : Dword :=
  let g := s.grp
  match n with
  | 0 => g.mode
  | 1 => g.thr
  | 2 => match g.top? with | none => 0 | some f => f.special
  | 3 => BitVec.ofNat 64 (s.capOf g.sub)
  | 4 => s.postmark
  | 5 => match g.handler with | none => 0 | some h => h.cause
  | 6 => match g.handler with | none => 0 | some h => h.epc
  | 7 => BitVec.ofNat 64 g.awb
  | 8 => BitVec.ofNat 64 g.awl
  | 9 => if g.kovf then 1 else 0
  | 10 => g.spill
  | 11 => g.batch.setWidth 64
  | 12 => BitVec.ofNat 64 (g.gid % 32)
  | 13 => BitVec.ofNat 64 ((s.team.map (·.number)).getD 0)
  | 14 => BitVec.ofNat 64 (coreCode g.core)
  | _ => BitVec.ofNat 64 g.spl.num

/-- A write to a special register landing (R366): `%mode` R76, `%fcap` R184, `%epc` R55, `%kovf` R246, `%spill` R182. -/
def State.landSpecial (s : State) (n : Nat) (v : Dword) : State :=
  match n with
  | 0 => s.onGrp fun g => g.landMode v
  | 3 => { s with fcap := Sparse.set 128 s.fcap s.grp.sub (max 8 (min 128 (v.toNat % 256))) }
  | 6 => s.onGrp fun g => { g with handler := g.handler.map fun h => { h with epc := v } }
  | 9 => s.onGrp fun g => { g with kovf := v.getLsbD 0 }
  | 10 =>
    if s.grp.frames.any fun f => !f.2.res then s
    else s.onGrp fun g => { g with spill := v &&& ~~~0xFFF#64 }
  | 64 => s.onGrp fun g => { g with awb := (v.extractLsb' 0 11).toNat, awl := (v.extractLsb' 16 11).toNat }
  | _ => s

/-! ### The registers that an instruction names (R14) -/

/-- Lane ops that name blocks of registers, or registers that other registers select: `item`, the queue instructions, the
matrix, tile and copy instructions, `rkins` and `relbl`. -/
def laneBlockOp (op : Nat) : Bool := op == 36 || op == 38 || op == 39 || op == 42 || op == 45 || (48 ≤ op && op ≤ 54)

/-- Uniform ops that name one register per field: arithmetic, `bar`, `fence`, waits, `mwait`, `msig`, `acc`, `srd`, `swr`. -/
def uniPlainOp (op : Nat) : Bool :=
  op ≤ 15 || op == 24 || op == 25 || op == 26 || op == 28 || op == 29 || op == 30 || op == 31 || op == 36 || op == 48 || op == 49

/-- The register fields of a word with its extension: d, a, b, c and the format block's. -/
def wordFields (w x : Word) : List Nat :=
  let f := LaneShort.ofWord w
  let ext := if w.getLsbD 30 then [(x.extractLsb' 17 6).toNat, (x.extractLsb' 12 6).toNat] else []
  [f.d.toNat, f.a.toNat, f.b.toNat] ++ ext

/-- Whether an instruction may read or write a register. A register that merely shares its number with a field counts as
named: the split then issues a little later, which R455 leaves open. -/
def Group.names (g : Group) (w x : Word) (d : PendDest) : Bool :=
  let op := opOf w
  let fs := wordFields w x
  let window (fn r : Nat) : Bool :=
    fs.any fun i => locate g.frames g.spl.chain i == some (fn, r) || locate g.frames g.spl.chain (i + 1) == some (fn, r)
  if w.getLsbD 31 then
    match d with
    | .lane fn r => op == 39 || op == 38 || op == 53 || window fn r
    | .uni n => !uniPlainOp op || fs.contains n
    | .pred _ => op == 16 || op == 53
    | .upred n => n == (w.extractLsb' 0 3).toNat || n == (x.extractLsb' 28 3).toNat || !uniPlainOp op || fs.contains n
  else
    match d with
    | .lane fn r => laneBlockOp op || window fn r
    | .uni n => laneBlockOp op || fs.contains n
    | .pred _ => true
    | .upred n => laneBlockOp op || fs.contains n

/-- Whether an instruction may write a lane register (R14): the returns write the caller's overlap registers, `ctx` frames,
`rkrd` a pair, and of the lane instructions those with a destination; blocks of registers count as a whole. -/
def Group.writesLane (g : Group) (w : Word) (fn r : Nat) : Bool :=
  let op := opOf w
  let d := (LaneShort.ofWord w).d.toNat
  let window : Bool := locate g.frames g.spl.chain d == some (fn, r) || locate g.frames g.spl.chain (d + 1) == some (fn, r)
  if w.getLsbD 31 then op == 20 || op == 21 || op == 53 || (op == 39 && window)
  else if op == 38 || op == 42 || op == 51 || op == 53 || op == 54 then true
  else if op == 33 || op == 36 || op == 39 || op == 45 || op == 47 || (48 ≤ op && op ≤ 50) || op == 52 then false
  else window

/-! ### The debugger's reads and writes (R296, R390) -/

/-- The register of a pending write that the debugger names. -/
def debugDest : DebugReg → Option PendDest
  | .lane fn r _ => some (.lane fn r)
  | .uni n => some (.uni n)
  | .pred n => some (.pred n)
  | .upred n => some (.upred n)
  | .special _ => none

/-- A pending write is to the register that the debugger names, and for a lane register to the lane. -/
def Pend.writes (e : Pend) (r : DebugReg) : Bool :=
  some e.dest == debugDest r && (match r with | .lane _ _ l => e.mask.getLsbD l | _ => true)

/-- A write in flight to the same register: PENDING, and it holds a debugger's write back. -/
def Group.inFlight (g : Group) (r : DebugReg) : Bool :=
  g.pend.any (fun e => e.writes r) || (match r with | .special n => g.specials.any fun w => w.num == n | _ => false)

/-- A split stands in an access that has issued and whose translation is outstanding. -/
def Split.inAccess (p : Split) : Bool := p.mask != 0 && (p.status == .waiting .translate || p.status == .again)

/-- An access of the group in focus that waits for a translation is to write the register that the debugger names (R390). -/
def State.parkedWrite (s : State) (r : DebugReg) : Bool :=
  s.grp.splits.any fun p =>
    p.inAccess
    && (let g := s.grp.focusSplit p.num
        let d := s.wordAt (s.ctxOf g.gid) p.pc
        let (w, x) := (d.extractLsb' 0 32, d.extractLsb' 32 32)
        match r with
        | .lane fn i l => p.mask.getLsbD l && g.writesLane w fn i
        | .special _ => false
        | _ => match debugDest r with | none => false | some q => g.names w x q)

/-- A write to the register is outstanding, in flight or in an access that waits for a translation. -/
def State.inFlight (s : State) (r : DebugReg) : Bool := s.grp.inFlight r || s.parkedWrite r

/-- What a register holds where no write to it has landed (R390): the value before the oldest write in flight, else the
register's, in a frame with RES = 0 the one in its image (R296). -/
def State.debugValue (s : State) (r : DebugReg) : Dword :=
  let old := s.grp.pend.find? fun e => e.writes r
  match r with
  | .lane fn i l =>
    match old, s.grp.frame? fn with
    | some e, _ => (Sparse.get 0 e.was l).setWidth 64
    | none, none => 0
    | none, some f =>
      if f.size ≤ i ∨ 32 ≤ l then 0
      else if f.res then (s.grp.frameGet fn i l).setWidth 64
      else ((s.peek (s.ctxOf s.grp.gid) (s.grp.imageAddr fn i + 4 * l) 4).map fun bs => BitVec.ofNat 64 (leNat bs)).getD 0
  | .uni n => (old.map (·.old)).getD (Sparse.get 0 s.grp.uni n)
  | .pred n => (old.map (·.old)).getD ((s.grp.predMask n).setWidth 64)
  | .upred n => (old.map (·.old)).getD (if n = 0 ∨ s.grp.q.getLsbD n then 1 else 0)
  | .special n => s.special n

/-- A debugger's read of a register of the group in focus (R390): its value with the PENDING flag. It changes nothing. -/
def State.debugRead (s : State) (r : DebugReg) : Dword × Bool := (s.debugValue r, s.inFlight r)

/-- A debugger's write performed; a register of a frame with RES = 0 is written in its image (R296). -/
def State.debugPut (s : State) (r : DebugReg) (v : Dword) : State :=
  match r with
  | .lane fn r l =>
    match s.grp.frame? fn with
    | none => s
    | some f =>
      if f.size ≤ r ∨ 32 ≤ l then s
      else if f.res then s.onGrp fun g => g.frameSet fn r l (v.extractLsb' 0 32)
      else
        (s.ctxStore (s.ctxOf s.grp.gid) s.die (s.grp.imageAddr fn r + 4 * l) (leBytes 4 (v.extractLsb' 0 32).toNat)).getD s
  | .uni n => if 64 ≤ n then s else s.onGrp fun g => { g with uni := Sparse.set 0 g.uni n v }
  | .pred n => if 8 ≤ n then s else s.onGrp fun g => g.predSet n 0xFFFFFFFF#32 (v.extractLsb' 0 32)
  | .upred n =>
    if n = 0 ∨ 8 ≤ n then s
    else
      let one : BitVec 8 := BitVec.ofNat 8 (2 ^ n)
      s.onGrp fun g => { g with q := if v.getLsbD 0 then g.q ||| one else g.q &&& ~~~one }
  | .special n => if 64 ≤ n then s else s.landSpecial n v

/-- The debugger's writes to the group in focus that nothing holds back any more performed, in order. -/
def State.settleHeld (s : State) : State :=
  let due := s.grp.held.filter fun h => !s.inFlight h.1
  let s := s.onGrp fun g => { g with held := g.held.filter fun h => s.inFlight h.1 }
  due.foldl (fun s h => s.debugPut h.1 h.2) s

/-- The next issue of the group is near: pending writes to special registers age, and those two issues old land (R76). -/
def State.ageSpecials (s : State) : State :=
  let due := s.grp.specials.filter fun w => decide (2 ≤ w.age)
  let s := due.foldl (fun s w => s.landSpecial w.num w.value) s
  s.onGrp fun g =>
    { g with specials := (g.specials.filter fun w => decide (w.age < 2)).map fun w => { w with age := w.age + 1 } }

/-! ### Uniform sources (R39, R44) -/

/-- Source A of a uniform instruction. -/
def State.uniA (s : State) (w : UniShort) : Dword :=
  if w.sk = 2 then s.special w.a.toNat else s.grp.uniGet w.a.toNat

/-- Source B of a uniform instruction. -/
def State.uniB (s : State) (w : UniShort) : Dword :=
  if w.sk = 1 then w.b.setWidth 64 else s.grp.uniGet w.b.toNat

/-- The value of an operand that is S[a] with sk 00 and the immediate b with sk 01 (R148, R200, R233). -/
def State.regOrImm (s : State) (w : UniShort) : Dword :=
  if w.sk = 1 then w.b.setWidth 64 else s.grp.uniGet w.a.toNat

/-! ### Addresses (R45) -/

/-- addr(L) of a lane memory instruction whose element is `n` bytes and whose offset field is `off`. -/
def Group.addr (g : Group) (w : LaneShort) (c : BitVec 6) (n off l : Nat) : Dword :=
  let base : Dword :=
    if w.sk = 3 then g.lanePair w.a.toNat l
    else
      let idx : Dword := if w.sk = 1 then (g.latchGet (w.a.toNat % 4) l &&& 0xFFFFFFFF) else (g.laneGet w.a.toNat l).setWidth 64
      g.uniGet c.toNat + idx * BitVec.ofNat 64 n
  base + BitVec.ofNat 64 (off * n)

/-- The address of a uniform memory instruction (R45). -/
def Group.uniAddr (g : Group) (e : EM) (n : Nat) : Dword := g.uniGet e.c.toNat + BitVec.ofNat 64 (e.offset.toNat * n)

/-- The lane registers a memory address names. -/
def regsAddr (w : LaneShort) : List Nat := if w.sk = 1 then [] else [w.a.toNat]

/-- The data source b of a lane memory instruction: v(b), or a latch with sk = 10 (R45). -/
def Group.memData (g : Group) (w : LaneShort) (wide : Bool) (l : Nat) : Dword :=
  if w.sk = 2 then g.latchGet (w.b.toNat % 4) l else g.reg wide w.b.toNat l

/-- The lane registers the data source names. -/
def regsData (w : LaneShort) : List Nat := if w.sk = 2 then [] else [w.b.toNat]

end Sys2Proof.Machine
end

