-- ==== Sys2Proof/Machine/Flags.lean ====
section
/-!
DEFINITION. Comparisons and predicates (R102, R103, R114): the F9 keeps no status flags (R84, R90), so every condition
is a predicate that an instruction writes.
-/
namespace Sys2Proof.Machine

/-- The value of an integer source of type t (R90, R91). -/
def intSource (t : Ty) (v : Dword) : Int := intOf (elemBits t) (intSigned t) v.toNat

/-- The integer comparison of R102. -/
def intCompare (code : Nat) (a b : Int) : Bool :=
  match code with
  | 0 => decide (a = b)
  | 1 => decide (a ≠ b)
  | 2 => decide (a < b)
  | 3 => decide (a ≤ b)
  | 4 => decide (b < a)
  | _ => decide (b ≤ a)

/-- The float comparison of R114: codes 0 to 5 are ordered, 6 to 11 hold also when a or b is a NaN. -/
def floatCompare (code : Nat) (a b : FVal) : Bool :=
  match code with
  | 12 => !(a.isNan || b.isNan)
  | 13 => a.isNan || b.isNan
  | _ =>
    match a.cmp b with
    | none => decide (6 ≤ code)
    | some o =>
      match code % 6 with
      | 0 => o == .eq
      | 1 => o != .eq
      | 2 => o == .lt
      | 3 => o != .gt
      | 4 => o == .gt
      | _ => o != .lt

/-- The predicate operations of R103 on masks. -/
def predOp (minor : Nat) (x y : Mask) : Mask :=
  match minor with
  | 0 => x &&& y
  | 1 => x ||| y
  | 2 => x ^^^ y
  | _ => x &&& ~~~y

/-- A lane condition as a mask over the lanes of `m`. -/
def maskWhere (m : Mask) (f : Nat → Bool) : Mask := maskOf ((lanesOf m).filter f)

end Sys2Proof.Machine
end

