-- ==== Sys2Proof/Machine/Issue.lean ====
section
/-!
DEFINITION. One clock of issue (R11 to R32, R61 to R63, R295): which split issues, fetching its instruction through
translation, finding the extent of a chain, and running an instruction or a chain. The meaning of an instruction is a
parameter (`run`) here; `step` passes `exec`.
-/
namespace Sys2Proof.Machine

/-! ### Which split issues (R13, R23 to R25) -/

/-- Whether the groups of a team issue: it runs, or it saves itself in software (R370). -/
def State.groupIssues (s : State) (g : Group) : Bool :=
  !g.parked && !g.stopped && !s.halted (s.partition g.gid)
  && (match s.team? (teamOf g.gid) with
      | none => false
      | some t =>
        match t.phase with
        | .running => true
        | .saving => (match g.handler with | none => false | some h => !h.complete)
        | _ => false)

/-- A split of a group that issues is ready: it runs, or its top frame was evicted and its fill has to be queued again
(R13, R189). -/
def State.splitReady (s : State) (g : Group) (p : Split) : Bool :=
  p.mask != 0
  && (p.status.runs
      || (p.status == .swapped && !(s.requests.any fun r => r.gid == g.gid && r.sp == p.num)
          && !(s.evicting.any fun e => e.gid == g.gid)
          && (match g.frame? (p.chain.headD 0) with | none => true | some f => f.gmap.isEmpty)))
  && (match g.stepping with | none => true | some n => n == p.num)

/-- A split is ready (R13). -/
def State.isReady (s : State) (g : Group) (p : Split) : Bool := g.live && s.groupIssues g && s.splitReady g p

/-- A split that waits in an instruction. -/
def Split.waits (p : Split) : Bool :=
  match p.status with
  | .waiting _ => true
  | _ => false

/-- The rank of a split in its sub-core under R23: the least list goes first. Of the splits that are not urgent the one
that issued in the sub-core's previous clk goes before the others of its priority. -/
def State.rank (s : State) (g : Group) (p : Split) : List Nat :=
  match p.urgent with
  | some t => [0, t, g.slot, p.num]
  | none => [1, 3 - g.prio, if lookupKey s.last g.sub = some (g.gid, p.num) then 0 else 1, g.order, p.born, p.num]

/-- Lexicographic order of ranks. -/
def rankLt : List Nat → List Nat → Bool
  | a :: as, b :: bs => decide (a < b) || (a == b && rankLt as bs)
  | [], _ :: _ => true
  | _, [] => false

/-- The entry of least rank. -/
def leastRank : List (List Nat × Nat × Nat) → Option (List Nat × Nat × Nat)
  | [] => none
  | x :: rest =>
    match leastRank rest with
    | none => some x
    | some y => if rankLt y.1 x.1 then some y else some x

/-- The ready splits of a sub-core, ranked. -/
def State.readyIn (s : State) (sub : Nat) : List (List Nat × Nat × Nat) :=
  (s.groups.filter fun g => g.sub == sub).flatMap fun g =>
    (g.splits.filter fun p => s.isReady g p).map fun p => (s.rank g p, g.gid, p.num)

/-- The sub-cores that groups occupy. -/
def State.usedSubs (s : State) : List Nat := (s.groups.map fun g => g.sub).eraseDups

/-- A team is being saved. -/
def State.saving (s : State) (gid : Nat) : Bool := ((s.team? (teamOf gid)).map (·.phase)) == some .saving

/-- A split whose instruction has issued and not completed. -/
def Split.underWay (p : Split) : Bool :=
  match p.status with
  | .waiting .fetch | .waiting .score => false
  | .waiting _ | .again => true
  | _ => false

/-- The splits that wait in an instruction, the one tried longest ago first; in a team that is being saved, those in an
`hcoh.flush`, which completes first (R376), and in a debug stop those whose instruction has issued (R389). -/
def State.waitingSplits (s : State) : List (List Nat × Nat × Nat) :=
  s.groups.flatMap fun g =>
    (g.splits.filter fun p =>
      p.mask != 0
      && ((p.waits && s.groupIssues g) || (g.stopped && p.underWay && s.groupIssues { g with stopped := false })
          || (s.saving g.gid && p.status == .waiting .flush && !s.halted (s.partition g.gid)))).map
        fun p => ([p.tried, g.order, p.num], g.gid, p.num)

/-! ### Fetch (R35, R63) -/

/-- What a fetch gets. -/
inductive Fetched
  | word (w : Word)
  | fail (cause : Nat)
  | wait
  deriving DecidableEq, Repr

/-- A word fetched through translation for the issuing split; an address that is no multiple of 4 is MISALIGNED. -/
def State.fetch (s : State) (va : Nat) : State × Fetched :=
  if va % 4 ≠ 0 then (s, .fail causeMisaligned)
  else
    match s.access s.grp.gid s.grp.spl.num (s.ctxOf s.grp.gid) va s.die .fetch with
    | (s, .at l _ entry) =>
      let s := (s.touch entry .fetch).landAt l 4
      (s, .word (BitVec.ofNat 32 (leNat ((List.range 4).map fun i => s.seeGet (l.plus i)))))
    | (s, .fail c) => (s, .fail c)
    | (s, .wait _) => (s, .wait)

/-! ### Chains (R27 to R32) -/

/-- Ops with a third source that may be a latch (R42, R52). -/
def threeSource (op : Nat) : Bool := op == 3 || op == 19 || op == 26 || op == 56 || op == 58

/-- The latches that a lane word reads (R28). -/
def latchReads (w x : Word) : List Nat :=
  let f := LaneShort.ofWord w
  let op := opOf w
  let ext := w.getLsbD 30
  if laneLayout op = .ex ∨ laneLayout op = .none ∨ laneLayout op = .reserved then []
  else
    (if f.sk = 1 then [f.a.toNat % 4] else []) ++ (if f.sk = 2 then [f.b.toNat % 4] else [])
    ++ (if ext && threeSource op && x.getLsbD 16 then [(x.extractLsb' 17 6).toNat % 4] else [])

/-- The lane words that may stand in a chain only as its last member (R28). -/
def chainLast (w x : Word) : Bool :=
  let op := opOf w
  op == 33 || op == 34 || op == 35 || op == 39 || op == 38 || op == 47 || op == 36 || op == 48 || op == 49 || op == 50
  || op == 51 || op == 45 || op == 52 || op == 53 || op == 54 || op == 29 || op == 30
  || (op == 32 && x.extractLsb' 18 2 != 0)

/-- The lane words from an address on, up to the first that is uniform or cannot be fetched; none while one of them is not
decoded yet, its page being parked (R13). -/
def State.lookAhead : Nat → Nat → State → State × Option (List (Word × Word))
  | 0, _, s => (s, some [])
  | n + 1, va, s =>
    match s.fetch va with
    | (s, .wait) => (s, none)
    | (s, .fail _) => (s, some [])
    | (s, .word w) =>
      if w.getLsbD 31 then (s, some [])
      else if w.getLsbD 30 then
        match s.fetch (va + 4) with
        | (s, .wait) => (s, none)
        | (s, .fail _) => (s, some [])
        | (s, .word x) =>
          match State.lookAhead n (va + 8) s with
          | (s, some ws) => (s, some ((w, x) :: ws))
          | r => r
      else
        match State.lookAhead n (va + 4) s with
        | (s, some ws) => (s, some ((w, 0) :: ws))
        | r => r

/-- The last member of the chain that the word at index 0 heads, none where a producer lies before it: `k` is the index
of the first word of the list, `last` the last member found so far. -/
def chainEnd : Nat → Nat → List (Word × Word) → Option Nat
  | _, last, [] => some last
  | k, last, (w, x) :: rest =>
    if last + 4 < k then some last
    else
      let rs := latchReads w x
      match rs.foldl (fun m j => max m (j + 1)) 0 with
      | 0 => chainEnd (k + 1) last rest
      | back =>
        if k < back then none
        else if k - back ≤ last then chainEnd (k + 1) k rest
        else chainEnd (k + 1) last rest

/-- How the word at the program counter issues: alone, as the head of a chain of so many more members, or not at all
(R28). -/
inductive Extent
  | alone
  | chain (members : List (Word × Word))
  | broken
  deriving DecidableEq, Repr

/-- The extent of the first of the lane words that the split fetches from its program counter on. -/
def extentOf (ws : List (Word × Word)) : Extent :=
  match chainEnd 0 0 ws with
  | none => .broken
  | some 0 => .alone
  | some k =>
    let members := ws.take (k + 1)
    if 4 ≤ k then .broken
    else if (members.take k).any fun m => chainLast m.1 m.2 then .broken
    else .chain members

/-- The extent of a lane word at an address; none while a word it depends on is not decoded yet (R13). -/
def State.extent (s : State) (pc : Nat) : State × Option Extent :=
  match s.lookAhead 8 pc with
  | (s, none) => (s, none)
  | (s, some ws) => (s, some (extentOf ws))

/-! ### The scoreboard (R14) -/

/-- An accepted matrix step has still to read a register that an instruction of the issuing split writes (R14, R138). -/
def Group.readHolds (g : Group) (ms : List (Word × Word)) : Bool :=
  g.reads.any fun x => x.2.1 == g.spl.num && ms.any fun m => g.writesLane m.1 x.2.2.1 x.2.2.2

/-- The registers that the members of a chain name. -/
def Group.chainNames (g : Group) (ms : List (Word × Word)) (d : PendDest) : Bool := ms.any fun m => g.names m.1 m.2 d

/-- The issuing split's own writes to the registers that its instruction names have landed (R14). -/
def State.landFor (s : State) (names : PendDest → Bool) : State :=
  s.onGrp fun g => { g with pend := landNamed g.spl.num names g.pend }

/-- An answer is outstanding to a register that the issuing split's instruction names (R14). -/
def State.scoreHolds (s : State) (names : PendDest → Bool) : Bool := scoreBlocked s.grp.spl.num names s.grp.pend

/-! ### Choosing the split (R23 to R26) -/

/-- The word at an address as it stands, for a look that must have no effect. -/
def State.lookWord (s : State) (ctx va : Nat) : Option Word := (s.peek ctx va 4).map fun bs => BitVec.ofNat 32 (leNat bs)

/-- How many collectors the instruction at a split's program counter takes (R12, R23): none for a uniform instruction or
one that is not fetched yet, else one, or one for each member of a chain. -/
def State.collectors (s : State) (gid sp : Nat) : Nat :=
  let s := s.focusSplit gid sp
  let pc := s.grp.spl.pc.toNat
  match s.lookWord (s.ctxOf gid) pc with
  | none => 0
  | some w =>
    if w.getLsbD 31 then 0
    else
      match (s.extent pc).2 with
      | some (.chain ms) => ms.length
      | _ => 1

/-- A ready split may issue before every ready split of its sub-core that ranks before it: each of those wants more
collectors than it (R23, R24). How many are free is not part of the state. -/
def State.mayPass (s : State) (sub gid sp : Nat) : Bool :=
  let es := s.readyIn sub
  match es.find? fun e => e.2 == (gid, sp) with
  | none => false
  | some me =>
    let n := s.collectors gid sp
    let before := es.filter fun e => rankLt e.1 me.1
    before.all fun e => decide (n < s.collectors e.2.1 e.2.2) && (n == 0 || e.1.headD 0 != 0)

/-- The sub-cores in which a split is ready. -/
def State.readySubs (s : State) : List Nat := s.usedSubs.filter fun u => !(s.readyIn u).isEmpty

/-- The sub-core whose turn it is: the sub-cores run side by side, and the model takes them in turn (R11, R26). -/
def State.nextSub (s : State) : Option Nat :=
  let us := s.readySubs
  match (us.filter fun u => decide (s.lastSub < u)).min? with
  | some u => some u
  | none => us.min?

/-- The split that issues: the one the schedule names where it may, else the first under R23 of the sub-core whose turn it
is. -/
def State.pick (s : State) : Option (Nat × Nat) :=
  let first := (s.nextSub.bind fun u => leastRank (s.readyIn u)).map (·.2)
  match s.sched with
  | c :: _ =>
    match s.group? c.1 with
    | none => first
    | some g => if s.mayPass g.sub c.1 c.2 then some c else first
  | [] => first

/-- A ready split that does not issue waits one clk more; at 48 it is urgent (R25). -/
def Split.passOver (turn : Nat) (p : Split) : Split :=
  let p := { p with waitCount := p.waitCount + 1 }
  if 48 ≤ p.waitCount ∧ p.urgent = none then { p with urgent := some turn } else p

/-- A split that ranks first and does not issue is refused; at 16 it is urgent (R24). -/
def Split.refuse (turn : Nat) (p : Split) : Split :=
  let p := { p with refusals := p.refusals + 1 }
  if 16 ≤ p.refusals ∧ p.urgent = none then { p with urgent := some turn } else p

/-- The counts of R24 and R25 in a sub-core in which split `sp` of group `gid` issues. -/
def State.countWaits (s : State) (sub gid sp : Nat) : State :=
  let first := (leastRank (s.readyIn sub)).map (·.2)
  s.onGroups fun g =>
    if g.sub = sub then
      g.onSplits fun p =>
        if (g.gid = gid ∧ p.num = sp) ∨ !s.isReady g p then p
        else
          let p := p.passOver s.turn
          if first = some (g.gid, p.num) then p.refuse s.turn else p
    else g

/-- The issue stage of a sub-core chose a ready split: the counts rise, and it is the one that issued last (R23 to R25). -/
def State.selected (s : State) (sub gid sp : Nat) : State :=
  { s.countWaits sub gid sp with last := insertKey s.last sub (gid, sp), lastSub := sub }

/-- The pending writes to special registers of a group after a clk of its sub-core: they age, and a new accumulator window
that is due holds (R148). -/
def Group.ageOthers (g : Group) : Group :=
  let due := g.specials.filter fun w => w.num == 64 && decide (2 ≤ w.age)
  let g := due.foldl (fun (g : Group) w =>
    { g with awb := (w.value.extractLsb' 0 11).toNat, awl := (w.value.extractLsb' 16 11).toNat }) g
  { g with specials := (g.specials.filter fun w => !due.contains w).map fun w => { w with age := w.age + 1 } }

/-- A clk of the sub-core of the group in focus passes: its groups' pending writes age and land (R76, R92). -/
def State.clk (s : State) : State :=
  let sub := s.grp.sub
  let s : State :=
    { s with
      grp := { s.grp with pend := agePend s.grp.pend }
      others := s.others.map fun g =>
        if g.sub = sub then
          { g.ageOthers with pend := agePend g.pend }
        else g }
  s.ageSpecials.settleHeld

/-- The state in which a split issues: in focus, due writes landed (R76, R92), its counts cleared (R23 to R25). -/
def State.prepare (s : State) (gid sp : Nat) : State :=
  let ready := s.groups.any fun g => g.gid == gid && g.splits.any fun p => p.num == sp && s.isReady g p
  let s := { s with sched := s.sched.drop 1, trap := none }
  let s := s.focusSplit gid sp
  let s := if ready then s.selected s.grp.sub gid sp else s
  let s := s.onGrp fun g =>
    { g with clock := s.turn
             spl := { g.spl with waitCount := 0, refusals := 0, urgent := none, tried := s.turn } }
  s.clk

/-- The members of a chain run one after another, each a clk after the one before it (R29, R30); an illegal member faults. -/
def runMembers (run : Instr → State → Out) : List (Word × Word) → State → Out
  | [], s => .next s
  | (w, x) :: rest, s =>
    match decodeWords w x with
    | .error _ => s.fault causeIllegal
    | .ok i =>
      match run i s with
      | .next t =>
        if t.trap.isSome then .next t
        else if t.grp.gid = s.grp.gid ∧ t.grp.spl.waits then .next t
        else runMembers run rest (if rest.isEmpty then t else t.clk)
      | o => o

/-- A chain run as a whole (R30 to R32): a fault of a member is raised at the head with nothing committed, a member that
waits leaves the split waiting at the head. -/
def runChain (run : Instr → State → Out) (ms : List (Word × Word)) (s : State) : Out :=
  match runMembers run ms s with
  | .next t =>
    match t.trap with
    | some f => .next ({ s with parkedAccesses := t.parkedAccesses } |>.raise { f with pc := s.grp.spl.pc })
    | none =>
      if t.grp.gid = s.grp.gid ∧ t.grp.spl.waits then
        .next { t with grp := { s.grp with spl := { s.grp.spl with status := t.grp.spl.status
                                                                   since := t.grp.spl.since } } }
      else .next t
  | o => o

/-! ### Issue -/

/-- What issues at the program counter, its words fetched and its extent known: it waits for its scoreboard (R14), and runs
alone or as a chain. A word that is no instruction, and a broken chain, raise ILLEGAL_ENCODING (R28, R61). -/
def issueWords (run : Instr → State → Out) (w x : Word) (ext : Extent) (s : State) : Out :=
  match ext with
  | .broken => s.fault causeIllegal
  | .chain ms => if s.scoreHolds (s.grp.chainNames ms) || s.grp.readHolds ms then s.stay .score else runChain run ms (s.landFor (s.grp.chainNames ms))
  | .alone =>
    match decodeWords w x with
    | .error _ => s.fault causeIllegal
    | .ok i => if s.scoreHolds (s.grp.names w x) || s.grp.readHolds [(w, x)] then s.stay .score else run i (s.landFor (s.grp.names w x))

/-- The instruction at the program counter runs: a fetch that faults raises its cause (R63), a fetch whose page is parked
waits. DESIGN CHOICE (log 126): the extension word is fetched before the short form is looked at, so that a short form
that is itself illegal, and has L = 1, takes PAGE where its extension word does not translate. -/
def issueAt (run : Instr → State → Out) (s : State) : Out :=
  let pc := s.grp.spl.pc.toNat
  let go (w x : Word) (s : State) : Out :=
    if w.getLsbD 31 then issueWords run w x .alone s
    else
      match s.extent pc with
      | (s, none) => s.stay .fetch
      | (s, some ext) => issueWords run w x ext s
  match s.fetch pc with
  | (s, .wait) => s.stay .fetch
  | (s, .fail c) => s.fault c
  | (s, .word w) =>
    if w.getLsbD 30 then
      match s.fetch (pc + 4) with
      | (s, .wait) => s.stay .fetch
      | (s, .fail c) => s.fault c
      | (s, .word x) => go w x s
    else go w 0 s

/-- The split of the issuing group that stands at a breakpoint, which stops the group before any of its splits issues (R295):
one that has not passed it. -/
def State.atBreak (s : State) : Option Nat :=
  if !s.grp.attached || s.grp.stopped then none
  else
    (s.grp.splits.find? fun p =>
      p.mask != 0 && p.status == .run && !s.grp.skip.contains p.num && s.breakpoints.contains p.pc).map (·.num)

/-- A group in a debug stop; the watchdog's counts pause (R369). -/
def Group.debugStop (now : Nat) (g : Group) : Group := if g.stopped then g else { g with stopped := true, stoppedAt := now }

/-- The deferred entries of a split as many counts younger. -/
def Split.younger (d : Nat) (p : Split) : Split := { p with dstack := p.dstack.map fun e => { e with since := e.since + d } }

/-- A group out of its debug stop: the watchdog's counts go on from where they stood (R369). -/
def Group.debugStart (now : Nat) (g : Group) : Group :=
  if !g.stopped then g
  else
    let d := now - g.stoppedAt
    { g.onSplits (Split.younger d) with
      stopped := false, lastIssue := g.lastIssue + d
      handler := g.handler.map fun h => { h with frozen := h.frozen.map (Split.younger d) } }

/-- A stop noted for the debugger's reports, which come in the order of the stops (R334). -/
def State.noteStop (s : State) (gid : Nat) : State := { s with stops := (s.stops.filter fun g => g != gid) ++ [gid] }

/-- A debug stop of the issuing group with split `sp` at its instruction (R389); when it is continued, the instruction
issues. -/
def State.debugStopHere (s : State) (sp : Nat) : State :=
  (s.onGrp fun g => { g.debugStop s.postmark.toNat with skip := g.skip ++ [sp] }).noteStop s.grp.gid

/-- A split whose top frame was evicted queues the fill of it again (R189). -/
def State.requeueFill (s : State) : State :=
  match s.grp.top? with
  | none => s
  | some f =>
    s.request { sub := s.grp.sub, gid := s.grp.gid, sp := s.grp.spl.num, granules := f.fc + 1, need := .fill f.fn }

/-- A group after one of its splits has been tried: where the split still waits nothing has issued; otherwise a group that
was single-stepped stops again (R389), and the instruction at which the split had passed a breakpoint has issued. -/
def Group.issued (sp now : Nat) (stepped : Bool) (passed : List Nat) (g : Group) : Group :=
  if g.splits.any fun p => p.num == sp && p.waits then g
  else
    let g := { g with lastIssue := now, skip := if passed.contains sp then g.skip.filter fun n => n != sp else g.skip }
    if stepped then { g.debugStop now with stepping := none } else g

/-- The package after a split of a group has been tried; a single step that is over is reported as a stop (R334, R389). -/
def State.afterIssue (s : State) (gid sp : Nat) (stepped : Bool) (passed : List Nat) : State :=
  let t := s.onGroup gid (Group.issued sp s.postmark.toNat stepped passed)
  if stepped && (t.group? gid).any (·.stopped) then t.noteStop gid else t

/-- The chosen split issues: it queues its fill again, its group stops at a breakpoint, or it runs. -/
def issue (run : Instr → State → Out) (gid sp : Nat) (s : State) : Out :=
  let s := s.prepare gid sp
  match s.atBreak with
  | some n => run (.breakpointStop gid n) s
  | none =>
    if s.grp.spl.status == .swapped then .next s.requeueFill
    else
      match issueAt run s with
      | .next t => .next (t.afterIssue gid sp (s.grp.stepping == some sp) s.grp.skip)
      | o => o

end Sys2Proof.Machine
end

