-- ==== Sys2Proof/Machine/Access.lean ====
section
/-!
DEFINITION. How an access of a space finds its bytes and what it may fault with (R238 to R243), and the bytes read and
written there.
-/
namespace Sys2Proof.Machine

/-- A run of bytes that an access reaches, with the table entry that mapped it. -/
structure Piece where
  loc : Loc
  len : Nat
  cached : Bool
  entry : Option Nat
  deriving DecidableEq, Repr

/-- What one element's access gets: its pieces, a fault cause, or pages to wait for, as (address, route). -/
inductive Place
  | ok (ps : List Piece)
  | fail (cause : Nat)
  | wait (pages : List (Nat × Nat))
  deriving DecidableEq, Repr

/-- The joint outcome of two parts of an access: a failure first, then a wait. -/
def Place.join : Place → Place → Place
  | .fail c, _ => .fail c
  | _, .fail c => .fail c
  | .wait a, .wait b => .wait (a ++ b)
  | .wait a, _ => .wait a
  | _, .wait b => .wait b
  | .ok a, .ok b => .ok (a ++ b)

/-! ### Shares (R238, R239, R420) -/

/-- The team of the issuing team's cluster with a rank. -/
def State.clusterTeam (s : State) (t : Team) (rank : Nat) : Option Team :=
  if rank = t.rank then some t
  else (s.teams.find? fun e => e.2.cluster == t.cluster && e.2.rank == rank && e.2.phase != .ended).map (·.2)

/-- SCRSH of a partition for a die: what the root monitor has granted, in MiB. -/
def State.scratchGrant (s : State) (part die : Nat) : Nat := ((s.partReg part 0x20).extractLsb' (8 * die) 8).toNat

/-- What the partitions below a number have been granted of a die's scratchpad, in MiB. -/
def State.scratchGrants (s : State) (part die : Nat) : Nat := (List.range part).foldl (fun n p => n + s.scratchGrant p die) 0

/-- The scratchpad of a die in MiB, the rest of its 96 MiB of SRAM being L2 (R1, R5): the least number of steps of 8 MiB that
holds the shares granted on it, at most 64 MiB (DESIGN CHOICE, log 143). -/
def State.scratchpad (s : State) (die : Nat) : Nat := min 64 ((s.scratchGrants 32 die + 7) / 8 * 8)

/-- Where a partition's scratchpad share begins, in bytes: the shares lie one behind another in partition order (log 14). -/
def State.scratchBase (s : State) (part die : Nat) : Nat := min (s.scratchGrants part die) (s.scratchpad die) * 2 ^ 20

/-- A partition's scratchpad share on a die, in bytes: what of its grant the die's scratchpad holds. -/
def State.scratchShare (s : State) (part die : Nat) : Nat :=
  min (s.scratchGrants (part + 1) die) (s.scratchpad die) * 2 ^ 20 - s.scratchBase part die

/-- The private bytes per lane that the group's kernel declares (R348, R402). -/
def Group.privateSize (g : Group) : Nat := (g.kdesc.extractLsb' 576 20).toNat

/-- The global address of byte p of lane L's private area (R239). -/
def Group.privateAddr (g : Group) (l p : Nat) : Nat := g.privBase.toNat + p / 4 * 128 + 4 * l + p % 4

/-- A run of global bytes that stays in one page, for the issuing split (R240 check 3). -/
def State.globalRun (s : State) (k : Access) (va n : Nat) : Place :=
  match s.attempt s.grp.gid s.grp.spl.num (s.ctxOf s.grp.gid) va k with
  | .at l c e => .ok [{ loc := l, len := n, cached := c, entry := e }]
  | .fail c => .fail c
  | .wait r => .wait [(va, r)]

/-- Checks 2 and 3 of R240 for `n` bytes at an address of a space that stay in one page. -/
def State.place (s : State) (k : Access) (sp : Space) (lane : Nat) (a : Dword) (n : Nat) : Place :=
  let low := (a.extractLsb' 0 32).toNat
  let high := a.extractLsb' 32 32
  let run (space addr : Nat) : Place := .ok [{ loc := ⟨space, addr⟩, len := n, cached := true, entry := none }]
  match sp with
  | .global => s.globalRun k a.toNat n
  | .team =>
    match s.team with
    | none => .fail causeProtection
    | some t =>
      if high ≠ 0 ∨ t.tmSize < low + n then .fail causeProtection else run 1 (teamAt t.core t.tmBase + low)
  | .cluster =>
    match s.team with
    | none => .fail causeProtection
    | some t =>
      if high ≠ 0 ∨ 2 ^ 23 ≤ low ∨ t.cw * t.ch ≤ low / 2 ^ 19 then .fail causeProtection
      else
        match s.clusterTeam t (low / 2 ^ 19) with
        | none => .fail causeProtection
        | some u =>
          if u.tmSize < low % 2 ^ 19 + n then .fail causeProtection
          else run 1 (teamAt u.core u.tmBase + low % 2 ^ 19)
  | .scratch =>
    let p := s.partition s.grp.gid
    if high ≠ 0 ∨ s.scratchShare p s.die < low + n then .fail causeProtection
    else run 2 (s.die * 2 ^ 26 + s.scratchBase p s.die + low)
  | .priv =>
    if high ≠ 0 ∨ s.grp.privateSize < low + n then .fail causeProtection
    else if n = 8 then
      (s.globalRun k (s.grp.privateAddr lane low) 4).join (s.globalRun k (s.grp.privateAddr lane (low + 4)) 4)
    else s.globalRun k (s.grp.privateAddr lane low) n
  | .param => .fail causeProtection

/-- All the checks of R240 for one element. -/
def State.checkElem (s : State) (k : Access) (sp : Space) (lane : Nat) (a : Dword) (n : Nat) : Place :=
  if a.toNat % n ≠ 0 then .fail causeMisaligned else s.place k sp lane a n

/-! ### All the elements of an instruction -/

/-- The pages that accesses wait for, parked on their routes. -/
def State.parkPages (s : State) (k : Access) (pages : List (Nat × Nat)) : State :=
  pages.foldl (fun s p => s.parkMiss s.grp.gid s.grp.spl.num (s.ctxOf s.grp.gid) p.1 s.die k p.2) s

/-- The pages of the places that wait. -/
def waitingPages (xs : List (Nat × Dword × Place)) : List (Nat × Nat) :=
  xs.flatMap fun x => match x.2.2 with | .wait ps => ps | _ => []

/-- The places that fail, as (lane, address, cause). -/
def failing (xs : List (Nat × Dword × Place)) : List (Nat × Dword × Nat) :=
  xs.filterMap fun x => match x.2.2 with | .fail c => some (x.1, x.2.1, c) | _ => none

/-- The pieces of the places that are found. -/
def found (xs : List (Nat × Dword × Place)) : List (Nat × List Piece) :=
  xs.filterMap fun x => match x.2.2 with | .ok ps => some (x.1, ps) | _ => none

/-- An access of several lanes (R240): it waits behind another split's ordering point, and while any lane's translation is outstanding, faults with the cause of the
lowest failing lane and the lanes that share it, or goes on with every lane's pieces. -/
def State.gather (s : State) (k : Access) (eff : Mask) (xs : List (Nat × Dword × Place))
    (go : State → List (Nat × List Piece) → Out) : Out :=
  if !s.pipeOpen then s.stay .behind else
  match waitingPages xs with
  | p :: ps => (s.parkPages k (p :: ps)).stay .translate
  | [] =>
    let s := s.dropAnswered s.grp.gid s.grp.spl.num k (failing xs != [])
    match failing xs with
    | [] => go s (found xs)
    | (l, a, c) :: rest =>
      s.faultLanes c eff ((l, a) :: (rest.filter fun f => f.2.2 == c).map fun f => (f.1, f.2.1))

/-- A group-wide access (uniform instructions, tiles, copies): a failure is a group fault (R354). -/
def State.gatherGroup (s : State) (k : Access) (eff : Mask) (ps : List Place) (go : State → List (List Piece) → Out) : Out :=
  let xs := ps.map fun p => (0, (0 : Dword), p)
  if !s.pipeOpen then s.stay .behind else
  match waitingPages xs with
  | p :: ps => (s.parkPages k (p :: ps)).stay .translate
  | [] =>
    let s := s.dropAnswered s.grp.gid s.grp.spl.num k (failing xs != [])
    match failing xs with
    | [] => go s ((found xs).map (·.2))
    | f :: _ => s.faultIn f.2.2 eff

/-! ### Reading and writing pieces -/

/-- The byte that a group's newest held write to a place will leave there; its own loads see it (R215, R272). -/
def heldByte (gid : Nat) (l : Loc) (ws : List HeldWrite) : Option Byte :=
  ws.foldl
    (fun o w =>
      if w.gid = gid ∧ w.space = l.space ∧ w.addr ≤ l.addr ∧ l.addr < w.addr + w.bytes.length then w.bytes[l.addr - w.addr]?
      else o)
    none

/-- Bytes read at a place under the group's own held writes. -/
def State.underHeld (s : State) (l : Loc) (bs : List Byte) : List Byte :=
  bs.zipIdx.map fun b => (heldByte s.grp.gid (l.plus b.2) ((lookupKey s.relwin s.grp.core).getD [])).getD b.1

/-- A load that may still be performed is performed as it stood (R276). -/
def Pend.settleLine (space line : Nat) (e : Pend) : Pend :=
  { e with late := e.late.filter fun x => !(x.2.1 == space && x.2.2.1 / 128 == line) }

/-- The group's earlier loads of the line of a place have been performed before its next access of that line (R271). -/
def State.settleLine (s : State) (l : Loc) : State :=
  s.onGrp fun g => { g with pend := g.pend.map (Pend.settleLine l.space (l.addr / 128)) }

/-- The bytes of a run as the issuing group loads them; `cached` says whether through the L1. -/
def State.loadRun (s : State) (cached : Bool) (p : Piece) : State × List Byte :=
  let s := (s.touch p.entry .read).settleLine p.loc
  let (s, bs) := s.coreLoad s.grp.core cached p.loc p.len
  (s, s.underHeld p.loc bs)

/-- The bytes of an element as its core loads them. -/
def State.loadPieces (s : State) (ps : List Piece) : State × List Byte :=
  ps.foldl
    (fun acc p =>
      let (s, bs) := acc.1.loadRun p.cached p
      (s, acc.2 ++ bs))
    (s, [])

/-- What is left of a held write once `n` bytes from a place on have been written later by its own group: the later write
stands behind it in the order of the location (R271). -/
def HeldWrite.cut (gid : Nat) (l : Loc) (n : Nat) (w : HeldWrite) : List HeldWrite :=
  if w.gid ≠ gid ∨ w.space ≠ l.space ∨ w.addr + w.bytes.length ≤ l.addr ∨ l.addr + n ≤ w.addr then [w]
  else
    let pre := l.addr - w.addr
    let post := l.addr + n - w.addr
    [{ w with bytes := w.bytes.take pre }, { w with addr := w.addr + post, bytes := w.bytes.drop post }].filter fun w =>
      !w.bytes.isEmpty

/-- The group's held writes to `n` bytes of a place are overtaken by a write of its own. -/
def State.cutHeld (s : State) (l : Loc) (n : Nat) : State :=
  { s with relwin := modifyKey s.relwin s.grp.core fun ws => ws.flatMap (HeldWrite.cut s.grp.gid l n) }

/-- The bytes of an element written by its core at once. -/
def State.storeBytes (s : State) (ps : List Piece) (bs : List Byte) : State :=
  (ps.foldl
    (fun acc p =>
      ((((acc.1.touch p.entry .write).settleLine p.loc).cutHeld p.loc p.len).coreWrite s.grp.core p.loc (acc.2.take p.len),
       acc.2.drop p.len))
    (s, bs)).1

/-! ### Write operations (R243, R268) -/

/-- Whether a place lies in a peer device's memory (R419). -/
def Loc.isPeer (l : Loc) : Bool := l.space == 0 && decide (2 ^ 51 ≤ l.addr)

/-- Global and scratch memory, whose writes travel to a home. -/
def Loc.travels (l : Loc) : Bool := l.space == 0 || l.space == 2 || l.space == 4

/-- The bytes of a run with their places. -/
def runBytes (l : Loc) (bs : List Byte) : List (Loc × Byte) := bs.zipIdx.map fun b => (l.plus b.2, b.1)

/-- The bytes that the elements of a store write, each with its place, in ascending lanes. -/
def storedBytes (xs : List (List Piece × List Byte)) : List (Loc × Byte) :=
  xs.flatMap fun x =>
    (x.1.foldl (fun (acc : List (Loc × Byte) × List Byte) p => (acc.1 ++ runBytes p.loc (acc.2.take p.len), acc.2.drop p.len))
      ([], x.2)).1

/-- The line of a byte as (peer, space, line): local lines stand before those of peers, in ascending addresses, which order
peers by device number. -/
def lineOf (l : Loc) : Nat × Nat × Nat := (if l.isPeer then 1 else 0, l.space, l.addr / 128)

/-- The order in which operations leave. -/
def lineLe (a b : Nat × Nat × Nat) : Bool :=
  decide (a.1 < b.1) || (a.1 == b.1 && (decide (a.2.1 < b.2.1) || (a.2.1 == b.2.1 && decide (a.2.2 ≤ b.2.2))))

/-- The operations that the coalescer forms of stored bytes, one for each line. -/
def lineOps (bs : List (Loc × Byte)) : List (List (Loc × Byte)) :=
  (orderBy lineLe (bs.map fun b => lineOf b.1).eraseDups).map fun k => bs.filter fun b => lineOf b.1 == k

/-- The bytes of an operation on one line as a packet carries them. -/
def State.packetOf (s : State) (bs : List (Loc × Byte)) : Packet :=
  let pa := ((bs.head?).map fun b => b.1.addr / 128 * 128).getD 0
  { age := 0, src := BitVec.ofNat 9 s.devNum, dst := BitVec.ofNat 9 (pa / 2 ^ 42 % 512)
    pasid := BitVec.ofNat 20 (s.pasid s.grp.gid), gen := BitVec.ofNat 8 (((s.context s.grp.gid).map (·.gen)).getD 0), pnum := 0
    plane := 0, op := .line pa (bs.map fun b => (b.1.addr, b.2)) }

/-- The issuing group writes some bytes: its earlier loads of them have been performed, and its held writes to them are overtaken
(R271). -/
def State.overtake (s : State) (bs : List (Loc × Byte)) : State := bs.foldl (fun s x => (s.settleLine x.1).cutHeld x.1 1) s

/-- Bytes that a core writes, each at its own place. -/
def State.corePuts (s : State) (core : Nat) (bs : List (Loc × Byte)) : State := bs.foldl (fun s x => s.corePut core x.1 x.2) s

/-- One write operation of the issuing group leaves: its bytes are what the location comes to hold, and until it is performed
its home still holds the old ones. Writes of other cores to those bytes have been performed before. A peer's line also leaves
as a packet. -/
def State.sendLine (s : State) (part : Nat) (bs : List (Loc × Byte)) : State :=
  match bs with
  | [] => s
  | b :: _ =>
    let core := s.grp.core
    let s := (s.overtake bs).landFlights fun f => f.core != core && bs.any fun x => f.touches x.1 1
    let f : Flight :=
      { gid := s.grp.gid, core := core, op := s.grp.clock, part := part, space := b.1.space, addr := b.1.addr
        old := bs.map fun x => (x.1.addr, s.seeGet x.1), sent := false, landed := false }
    let s := (s.stampWrite (dieOf core) b.1).corePuts core bs
    let s := { s with flights := s.flights ++ [f] }
    if b.1.isPeer then { s with sent := s.sent ++ [s.packetOf bs] } else s

/-- Write operations of the issuing group, numbered from `part` up. -/
def State.sendLines (s : State) (part : Nat) (ops : List (List (Loc × Byte))) : State :=
  (ops.zipIdx).foldl (fun s o => s.sendLine (part + o.2) o.1) s

/-- Stored bytes leave the core: those of team and accumulator memory are written there, the others leave by lines. -/
def State.sendBytes (s : State) (bs : List (Loc × Byte)) : State :=
  let near := bs.filter fun b => !b.1.travels
  let s := near.foldl (fun s b => ((s.settleLine b.1).cutHeld b.1 1).corePut s.grp.core b.1 b.2) s
  s.sendLines 0 (lineOps (bs.filter fun b => b.1.travels))

/-- A write that its home has performed and not yet acknowledged. -/
def State.landedWrite (s : State) (part : Nat) (l : Loc) : State :=
  { s with
    flights := s.flights ++
      [{ gid := s.grp.gid, core := s.grp.core, op := s.grp.clock, part := part, space := l.space, addr := l.addr, old := []
         sent := true, landed := true }] }

/-- The places of the lines of global and scratch memory that accesses reach: each is one write operation (R268). -/
def lineAts (xs : List (Nat × List Piece)) : List (Nat × Nat × Nat) :=
  (xs.flatMap fun x => x.2.filterMap fun p => if p.loc.travels then some (lineOf p.loc) else none).eraseDups

/-- How many there are. -/
def writeLines (xs : List (Nat × List Piece)) : Nat := (lineAts xs).length

/-- The lines of peers' memory that accesses reach. -/
def peerLines (xs : List (Nat × List Piece)) : Nat := ((lineAts xs).filter fun k => k.1 == 1).length

/-- The write operations of an instruction counted: in the group's acknowledgement counter, and for peers in DRAIN. -/
def State.countLines (s : State) (xs : List (Nat × List Piece)) : State :=
  (s.countWrites (writeLines xs)).countPeers (s.ctxOf s.grp.gid) (peerLines xs)

/-- Write operations that their homes have performed at once counted, their acknowledgements outstanding; they are numbered
from `part` up. -/
def State.countLandedFrom (s : State) (part : Nat) (xs : List (Nat × List Piece)) : State :=
  ((lineAts xs).zipIdx.foldl (fun s k => s.landedWrite (part + k.2) ⟨k.1.2.1, k.1.2.2 * 128⟩) s).countLines xs

/-- All the write operations of an instruction that its homes have performed at once. -/
def State.countLanded (s : State) (xs : List (Nat × List Piece)) : State := s.countLandedFrom 0 xs

/-- The acknowledgement counter has room for `n` more writes (R268). -/
def State.ackRoom (s : State) (n : Nat) : Bool := decide (s.grp.ack + n ≤ 65535)

end Sys2Proof.Machine
end

