-- ==== Sys2Proof/Machine/LoadStore.lean ====
section
/-!
DEFINITION. Loads, stores, parameter windows and collective tiles (R244 to R250), engine counters (R257, R258), counters
in memory (R259), and the arrivals of answers and acknowledgements (R21, R22, R249, R268).
-/
namespace Sys2Proof.Machine

/-! ### Engine counters (R257) -/

/-- The outstanding-operation counter of a class. -/
def Group.outstanding (g : Group) (c : Nat) : Nat := (g.counters.filter fun o => o.cls == c).length

/-- An operation of a class issued in turn `id`. -/
def Group.opStart (g : Group) (c id : Nat) : Group :=
  { g with counters := g.counters ++ [{ cls := c, id := id, finished := false }] }

/-- The finished operations of a class that no older unfinished one precedes are counted. -/
def settleOps (c : Nat) : List EngineOp → List EngineOp
  | [] => []
  | o :: rest =>
    if o.cls = c then (if o.finished then settleOps c rest else o :: rest) else o :: settleOps c rest

/-- The oldest unfinished operation of a class finishes. -/
def finishOldest (c : Nat) : List EngineOp → List EngineOp
  | [] => []
  | o :: rest => if o.cls = c ∧ !o.finished then { o with finished := true } :: rest else o :: finishOldest c rest

/-- The oldest outstanding operation of a class completes. -/
def Group.opDone (g : Group) (c : Nat) : Group := { g with counters := settleOps c (finishOldest c g.counters) }

/-- The operation of a class that issued in turn `id` completes; it is counted once every older one is. -/
def Group.opDoneId (g : Group) (c id : Nat) : Group :=
  { g with counters := settleOps c (g.counters.map fun o => if o.cls = c ∧ o.id = id then { o with finished := true } else o) }

/-- A counter of a class has room for one more operation (R257). -/
def Group.opRoom (g : Group) (c : Nat) : Bool := decide (g.outstanding c < 255)

/-- WAITC (R258). -/
def execWaitc (w : UniShort) (s : State) : Out :=
  uniform w.g false 4 s fun s =>
    let t := min 255 (s.uniB w).toNat
    if s.grp.outstanding w.a.toNat ≤ t then s.done 4 else s.stay .counter

/-! ### Loads and stores (R244, R245) -/

/-- The elements of a lane memory instruction, each with its address and place. -/
def State.elements (s : State) (k : Access) (w : LaneShort) (e : EM) (n off : Nat) (m : Mask) : List (Nat × Dword × Place) :=
  (lanesOf m).map fun l =>
    let a := s.grp.addr w e.c n off l
    (l, a, s.checkElem k e.space l a n)

/-- The places of the elements that a load may still perform later (R276, R285): those of one word in global or scratch
memory. -/
def latePlaces (ps : List (Nat × List Piece)) : List (Nat × Nat × Nat × Nat) :=
  ps.filterMap fun p =>
    match p.2 with
    | [q] => if q.loc.travels && q.cached && decide (q.len ≤ 4) then some (p.1, q.loc.space, q.loc.addr, q.len) else none
    | _ => none

/-- The load that issued last may still be performed until its answer arrives. -/
def Group.lateLoad (nw wide : Bool) (ps : List (Nat × List Piece)) (g : Group) : Group :=
  if nw || wide then g
  else
    match g.pend.getLast? with
    | none => g
    | some e => { g with pend := g.pend.dropLast ++ [{ e with late := latePlaces ps }] }

/-- Every lane's element loaded, in ascending lanes. -/
def State.loadLanes (s : State) (ps : List (Nat × List Piece)) : State × List (Nat × Dword) :=
  ps.foldl
    (fun acc p =>
      let (s, bs) := acc.1.loadPieces p.2
      (s, acc.2 ++ [(p.1, BitVec.ofNat 64 (leNat bs))]))
    (s, [])

/-- LD (R245). -/
def execLd (w : LaneShort) (e : EM) (s : State) : Out :=
  lanes (regsD w ++ regsAddr w) w.g e.gn (e.sem == .acq) 8 s fun m s =>
    s.gather .read m (s.elements .read w e e.t.size e.offset.toNat m) fun s ps =>
      let (s, rs) := s.loadLanes ps
      let s := s.onGrp fun g => g.laneResult w.d.toNat w.nw e.t.wide true rs
      (if e.sem = .acq then s.acquire e.scope else s.onGrp (Group.lateLoad w.nw e.t.wide ps)).done 8

/-- The lock entry and sequence under which an ordered store of lane `l` is held, none where it is performed at once
(R215). -/
def State.heldKey (s : State) (l : Nat) : Option (Nat × Nat) :=
  match s.grp.item l with
  | none => none
  | some it =>
    if descClass it.desc = 1 then
      let k := s.itemEntry it
      if (s.lock k).point = descSeq it.desc then none else some (k, descSeq it.desc)
    else none

/-- The release-window entries that a write of the given pieces takes. -/
def heldWrites (gid lane : Nat) (key : Nat × Nat) (sem : Sem) (sc : Scope) (ps : List Piece) (bs : List Byte) : List HeldWrite :=
  (ps.foldl
    (fun (acc : List HeldWrite × List Byte) p =>
      (acc.1 ++ [{ entry := key.1, seq := key.2, gid := gid, lane := lane, space := p.loc.space, addr := p.loc.addr
                   bytes := acc.2.take p.len, sem := sem.toBits.toNat, scope := sc.toBits.toNat }],
       acc.2.drop p.len))
    ([], bs)).1

/-- Held writes appended to the release window of a core. -/
def State.hold (s : State) (core : Nat) (ws : List HeldWrite) : State :=
  { s with relwin := insertKey s.relwin core (((lookupKey s.relwin core).getD []) ++ ws) }

/-- The walker's marks of stored pieces (R383). -/
def State.touchStores (s : State) (xs : List (List Piece)) : State :=
  xs.foldl (fun s ps => ps.foldl (fun s p => s.touch p.entry .write) s) s

/-- The write operations to accumulator memory among accesses: an `sta` is one (R268; log 132). -/
def accWrites (xs : List (Nat × List Piece)) : Nat := if xs.any fun x => x.2.any fun p => p.loc.space == 3 then 1 else 0

/-- The stores of an instruction: the lanes whose ordered write must wait put it in the release window, the others write.
It waits for its ordering point, for room in the window and for room in the acknowledgement counter. -/
def State.storeLanes (s : State) (ord : Bool) (sem : Sem) (sc : Scope) (len : Nat)
    (xs : List (Nat × List Piece × List Byte)) : Out :=
  let key (l : Nat) : Option (Nat × Nat) := if ord then s.heldKey l else none
  let held := xs.flatMap fun x =>
    match key x.1 with
    | none => []
    | some k => heldWrites s.grp.gid x.1 k sem sc x.2.1 x.2.2
  let now := xs.filter fun x => (key x.1).isNone
  let lines := now.map fun x => (x.1, x.2.1)
  let n := writeLines lines + accWrites lines
  if semReleases sem && !s.atOrder sc then s.stay .order
  else if 128 < ((lookupKey s.relwin s.grp.core).getD []).length + held.length then s.stay .room
  else if !s.ackRoom n then s.stay .order
  else
    let s := if semReleases sem then s.release sc else s
    let s := (s.touchStores (xs.map fun x => x.2.1)).sendBytes (storedBytes (now.map fun x => x.2))
    let s := if held.isEmpty then s else s.hold s.grp.core held
    let s := if accWrites lines = 0 then s else (s.landedWrite 0 ⟨3, 0⟩).countWrites 1
    (s.countLines lines).pushZero.done len

/-- ST (R245). -/
def execSt (w : LaneShort) (e : EM) (s : State) : Out :=
  lanes (regsData w ++ regsAddr w) w.g e.gn (e.sem == .rel) 8 s fun m s =>
    s.gather .write m (s.elements .write w e e.t.size e.offset.toNat m) fun s ps =>
      s.storeLanes e.ord e.sem e.scope 8
        (ps.map fun p => (p.1, p.2, leBytes e.t.size (s.grp.memData w e.t.wide p.1).toNat))

/-- The writes of a core's release window whose entry's release point has passed their sequence, in sequence order and,
within one sequence, in the order they issued (R216). -/
def State.dueWrites (s : State) (core : Nat) : List HeldWrite :=
  let ws := ((lookupKey s.relwin core).getD []).filter fun w => seqPassed (s.lock w.entry).point w.seq
  let age (w : HeldWrite) : Nat := ((s.lock w.entry).point + 2 ^ 30 - w.seq) % 2 ^ 30
  orderBy (fun a b => decide (age b ≤ age a)) ws

/-- The release of a held write with `.rel`, for the group that issued it (R216, R266). -/
def State.releaseHeld (s : State) (core : Nat) (w : HeldWrite) : State :=
  if w.sem ≠ 2 then s
  else
    match (Scope.ofBits (BitVec.ofNat 3 w.scope)).getD .grp with
    | .grp | .team => s
    | .pkg => (s.sendFlights w.gid (dieOf core)).clockStep (dieOf core)
    | _ => s.sendFlights w.gid (dieOf core)

/-- A held write performed as its instruction would have performed it (R216): its home performs it at once, so that it stands
before the writes of the sequences behind it (R281). -/
def State.performHeld (s : State) (core : Nat) (w : HeldWrite) : State :=
  let l : Loc := ⟨w.space, w.addr⟩
  let s := (s.releaseHeld core w).coreWrite core l w.bytes
  let s := { s with relwin := modifyKey s.relwin core fun ws => ws.erase w }
  if l.travels || l.space == 3 then
    let f : Flight :=
      { gid := w.gid, core := core, op := s.turn, part := s.flights.length, space := w.space, addr := w.addr, old := []
        sent := true, landed := true }
    ({ s with flights := s.flights ++ [f] }.onGroup w.gid fun g => { g with ack := g.ack + 1 }).countPeers (s.ctxOf w.gid)
      (if l.isPeer then 1 else 0)
  else s

/-- A held write of another core's window stands before one of the same entry: its sequence is lower (R216). -/
def State.windowBefore (s : State) (core : Nat) (w : HeldWrite) : Bool :=
  let age (x : HeldWrite) : Nat := ((s.lock x.entry).point + 2 ^ 30 - x.seq) % 2 ^ 30
  s.relwin.any fun r => r.1 != core && r.2.any fun x =>
    x.entry == w.entry && seqPassed (s.lock x.entry).point x.seq && decide (age w < age x)

/-- A due write may be performed: writes of lower sequences have been, the acknowledgement counter of its group has room, and
for a release at `.sys` is zero (R216, R268, R282). -/
def State.heldReady (s : State) (core : Nat) (w : HeldWrite) : Bool :=
  !s.windowBefore core w
  && (match s.group? w.gid with
      | none => true
      | some g => decide (g.ack < 65535) && (!(w.sem == 2 && w.scope == 5) || g.ack == 0))

/-- The due writes of a core's window performed in order, up to the first that must wait. -/
def performDue (core : Nat) : List HeldWrite → State → State
  | [], s => s
  | w :: rest, s => if s.heldReady core w then performDue core rest (s.performHeld core w) else s

/-- RELEASE_WINDOW_PERFORM (R216). -/
def execReleaseWindowPerform (core : Nat) (s : State) : Out := .next (performDue core (s.dueWrites core) s)

/-! ### Parameter windows (R246, R247) -/

/-- The offset of R247 within a window. -/
def Group.paramOffset (g : Group) (w : LaneShort) (e : EM) (l : Nat) : Dword :=
  let idx : Dword :=
    if w.sk = 1 then g.latchGet (w.a.toNat % 4) l &&& 0xFFFFFFFF else (g.laneGet w.a.toNat l).setWidth 64
  idx * BitVec.ofNat 64 e.t.size + BitVec.ofNat 64 (e.offset.toNat * e.t.size)

/-- An element of a window: it is misaligned, lies beyond the size (no pieces), or is found in global memory. -/
def State.paramElem (s : State) (win : Window) (off : Dword) (n : Nat) : Place :=
  let va := win.base + off
  if va.toNat % n ≠ 0 then .fail causeMisaligned
  else if win.size < off.toNat + n then .ok []
  else s.globalRun .read va.toNat n

/-- A lane that read beyond its window sets KOVF; writes of `%kovf` issued before have landed by then (R246, R366). -/
def Group.overrun (g : Group) (beyond : Bool) : Group :=
  if beyond then { g with kovf := true, specials := g.specials.filter fun w => w.num != 9 } else g

/-- LDK (R247). -/
def execLdk (w : LaneShort) (e : EM) (s : State) : Out :=
  lanes (regsD w ++ regsAddr w) w.g e.gn false 8 s fun m s =>
    match lookupKey s.grp.windows e.c.toNat with
    | none => s.faultIn causeParam m
    | some win =>
      let xs := (lanesOf m).map fun l =>
        let off := s.grp.paramOffset w e l
        (l, win.base + off, s.paramElem win off e.t.size)
      s.gather .read m xs fun s ps =>
        let (s, rs) := s.loadLanes ps
        let beyond := ps.any fun p => p.2.isEmpty
        ((s.onGrp fun g => (g.laneResult w.d.toNat w.nw e.t.wide true rs).overrun beyond).done 8)

/-! ### Collective tiles (R248 to R250) -/

/-- NROW. -/
def tileRows (w : LaneShort) : Nat := (w.b.extractLsb' 0 4).toNat + 1

/-- The address of row `j`. -/
def Group.rowAddr (g : Group) (w : LaneShort) (e : EM) (j : Nat) : Dword :=
  g.uniAddr e 4 + BitVec.ofNat 64 (j * ((g.uniGet w.a.toNat).extractLsb' 0 32).toNat)

/-- A row's 128 bytes in pieces of 16. -/
def State.placeRow (s : State) (k : Access) (sp : Space) (a : Dword) : Place :=
  (List.range 8).foldl (fun p i => p.join (s.place k sp 0 (a + BitVec.ofNat 64 (16 * i)) 16)) (.ok [])

/-- The checks of R248 that stand before translation: frame size, convergence, alignment. -/
def tileChecks (w : LaneShort) (e : EM) (s : State) (body : State → Out) : Out :=
  let g := s.grp
  if g.frameSize < w.d.toNat + tileRows w then s.fault causeIllegal
  else if g.spl.mask ≠ 0xFFFFFFFF#32 then s.fault causeConvergence
  else if (g.uniAddr e 4).toNat % 16 ≠ 0 ∨ ((g.uniGet w.a.toNat).extractLsb' 0 32).toNat % 16 ≠ 0 then
    s.fault causeMisaligned
  else if !g.opRoom 1 then s.stay .counter
  else body s

/-- A row's bytes written to a register, lane L taking bytes 4L to 4L + 3. -/
def Group.putRow (g : Group) (r : Nat) (bs : List Byte) : Group :=
  let h := (List.range 32).foldl
    (fun g l => g.laneSet r l (BitVec.ofNat 32 (leNat ((bs.drop (4 * l)).take 4)))) g
  h.pendLane g r 0xFFFFFFFF#32 true

/-- A register's bytes as a row. -/
def Group.getRow (g : Group) (r : Nat) : List Byte := (List.range 32).flatMap fun l => leBytes 4 (g.laneGet r l).toNat

/-- LDC (R248, R249). -/
def execLdc (w : LaneShort) (e : EM) (s : State) : Out :=
  tileChecks w e s fun s =>
    let ps := (List.range (tileRows w)).map fun j => s.placeRow .read e.space (s.grp.rowAddr w e j)
    s.gatherGroup .read s.grp.spl.mask ps fun s rows =>
      let s := rows.zipIdx.foldl
        (fun s r =>
          let (s, bs) := s.loadPieces r.1
          s.onGrp fun g => g.putRow (w.d.toNat + r.2) bs)
        s
      let s := (s.onGrp fun g => g.opStart 1 g.clock).pushZero
      (if e.sem = .acq then s.acquire e.scope else s).done 8

/-- The rows of an `stc` that are found, up to the first that is not. -/
def rowsFound : List Place → List (List Piece)
  | .ok ps :: rest => ps :: rowsFound rest
  | _ => []

/-- Rows of registers written to memory in ascending order; a row is one write operation (R268). -/
def State.storeRows (s : State) (d : Nat) (rows : List (List Piece)) : State :=
  rows.zipIdx.foldl
    (fun s r =>
      let bs := storedBytes [(r.1, s.grp.getRow (d + r.2))]
      let s := (bs.filter fun b => !b.1.travels).foldl
        (fun s b => ((s.settleLine b.1).cutHeld b.1 1).corePut s.grp.core b.1 b.2) (s.touchStores [r.1])
      (lineOps (bs.filter fun b => b.1.travels)).foldl (fun s o => s.sendLine r.2 o) s)
    s

/-- How many of some rows are write operations to global or scratch memory, and how many packets to peers they send. -/
def rowOps (rows : List (List Piece)) : Nat := (rows.filter fun r => r.any fun p => p.loc.travels).length
/-- The packets to peers that rows send: one for each row and line. -/
def rowPackets (rows : List (List Piece)) : Nat := (rows.map fun r => peerLines [(0, r)]).sum

/-- STC (R248 to R250): rows are written as they translate, so an outstanding or unresolved page leaves the rows before
it written. -/
def execStc (w : LaneShort) (e : EM) (s : State) : Out :=
  tileChecks w e s fun s =>
    let ps := (List.range (tileRows w)).map fun j => s.placeRow .write e.space (s.grp.rowAddr w e j)
    let rows := rowsFound ps
    let n := rowOps rows
    if ps.any fun p => p = .fail causeProtection then s.fault causeProtection
    else if !s.pipeOpen then s.stay .behind
    else if semReleases e.sem && !s.atOrder e.scope then s.stay .order
    else if !s.ackRoom n then s.stay .order
    else
      let s := if semReleases e.sem && rows.length == ps.length then s.release e.scope else s
      let s := ((s.storeRows w.d.toNat rows).countWrites n).countPeers (s.ctxOf s.grp.gid) (rowPackets rows)
      s.gatherGroup .write s.grp.spl.mask ps fun s _ =>
        (s.onGrp fun g => g.opStart 1 g.clock).pushZero.done 8

/-- The turn of the group's oldest outstanding tile transfer. -/
def Group.oldestTransfer (g : Group) : Option Nat := (g.counters.find? fun o => o.cls == 1 && !o.finished).map (·.id)

/-- A tile transfer has something left to do: a row that has not landed, or a write that has not reached its home. -/
def State.transferBusy (s : State) (g : Group) (id : Nat) : Bool :=
  (g.pend.any fun e => e.op == id && e.wait) || s.flights.any fun f => f.gid == g.gid && f.op == id && !f.landed

/-- TILE_TRANSFER_COMPLETE (R249): the group's oldest outstanding tile transfer completes once every row has landed, or
every row's writes have reached their home. -/
def execTileTransferComplete (gid : Nat) (s : State) : Out :=
  match s.group? gid with
  | none => .next s
  | some g =>
    match g.oldestTransfer with
    | none => .next s
    | some id => if s.transferBusy g id then .next s else .next (s.onGroup gid fun g => g.opDone 1)

/-! ### Counters in memory (R259) -/

/-- The place of the counter, checked as in R240 with n = 8. -/
def State.counterPlace (s : State) (k : Access) (e : EM) : Place := s.checkElem k e.space 0 (s.grp.uniAddr e 8) 8

/-- One indivisible read-modify-write of `n` bytes at their home for a core (R288): the old value. Writes on their way to them
are performed before; host memory is reached past the hub's cache; the core's own L1 line takes the new bytes (R262). -/
def State.rmwAt (s : State) (core : Nat) (l : Loc) (n : Nat) (f : Nat → Nat) : State × Nat :=
  let s := (s.landAt l n).stampRead (dieOf core) l
  let s := if l.space = 4 then s.hostDrop (l.addr / 128) else s
  let old := leNat (s.homeBytes l n)
  let new := leBytes n (f old)
  let s := if l.space = 4 then s.homeStore l new else s.coreWrite core l new
  ((if l1Caches l then s.l1Refresh core l else s), old)

/-- A number added to a 64-bit counter at its home (R259, R251). -/
def State.addAt (s : State) (core : Nat) (l : Loc) (v : Dword) : State :=
  (s.rmwAt core l 8 fun old => (BitVec.ofNat 64 old + v).toNat).1

/-- MSIG (R259). -/
def execMsig (w : UniShort) (e : EM) (s : State) : Out :=
  uniform w.g e.gn 8 s fun s =>
    s.gatherGroup .write s.grp.spl.mask [s.counterPlace .write e] fun s rows =>
      let n := writeLines (rows.map fun r => (0, r))
      if semReleases e.sem && !s.atOrder e.scope then s.stay .order
      else if !s.ackRoom n then s.stay .order
      else
        let s := if semReleases e.sem then s.release e.scope else s
        let s := rows.foldl
          (fun s r => r.foldl
            (fun s p => (((s.touch p.entry .write).settleLine p.loc).cutHeld p.loc p.len).addAt s.grp.core p.loc (s.uniB w)) s) s
        (s.countLanded (rows.map fun r => (0, r))).done 8

/-- A counter read at its home, host memory's past the hub's cache (R259, R261). -/
def State.counterBytes (s : State) (p : Piece) : State × List Byte :=
  if p.loc.space = 4 then ((s.touch p.entry .read).hostDrop (p.loc.addr / 128)).loadRun false p else s.loadRun false p

/-- MWAIT (R259): the counter is read at its home. -/
def execMwait (w : UniShort) (e : EM) (s : State) : Out :=
  uniform w.g e.gn 8 s fun s =>
    s.gatherGroup .read s.grp.spl.mask [s.counterPlace .read e] fun s rows =>
      let (s, bs) := (rows.flatMap id).foldl
        (fun (acc : State × List Byte) p =>
          let (s, bs) := acc.1.counterBytes p
          (s, acc.2 ++ bs))
        (s, [])
      let v : Dword := BitVec.ofNat 64 (leNat bs)
      if (s.uniB w).toNat ≤ v.toNat then
        let s := s.onGrp fun g => g.uniSet w.d.toNat v
        (if e.sem = .acq then s.acquire e.scope else s).done 8
      else s.stay .counter

/-- MWAIT_SATISFIED (R259): the waiting split is ready and issues its `mwait` again. -/
def execMwaitSatisfied (gid sp : Nat) (s : State) : Out :=
  .next (s.onGroup gid fun g => g.onSplit sp fun p => if p.status = .waiting .counter then { p with status := .again } else p)

/-! ### Answers and acknowledgements -/

/-- A free choice among the entries of a list (log 4). -/
def State.choose {α : Type} (s : State) (xs : List α) : State × Option α :=
  ({ s with free := s.free + 1 }, xs[(Config.freeWord s.free).toNat % xs.length]?)

/-- A result that no answer is outstanding for and that no older write to its register holds back may land. -/
def landable (l : List Pend) : List Pend := l.zipIdx.filterMap fun x =>
  if !x.1.wait && !((l.take x.2).any fun f => f.orders x.1) then some x.1 else none

/-- RESULT_WRITEBACK (R22): one of the results that have arrived lands, whichever pipe is first, and with it the pending
writes of special registers (R76). -/
def execResultWriteback (gid : Nat) (s : State) : Out :=
  match s.group? gid with
  | none => .next s
  | some g =>
    let xs := landable g.pend
    let (s, x) := if xs.isEmpty then (s, none) else s.choose xs
    .next (s.within gid g.spl.num fun s =>
      let s := s.grp.specials.foldl (fun s w => s.landSpecial w.num w.value) s
      (s.onGrp fun g =>
        { g with specials := [], pend := match x with | none => g.pend | some e => g.pend.erase e }).settleHeld)

/-- The lanes of an outstanding answer that arrive together: any of them, at least one (R242). -/
def arrivingLanes (m pick : Mask) : Mask := if m &&& pick = 0 then m else m &&& pick

/-- A load that is performed only now in some of its lanes: the words as they stand reach its register (R276, R285). -/
def State.loadLate (s : State) (gid : Nat) (e : Pend) (m : Mask) : State :=
  match e.dest with
  | .lane fn r =>
    (e.late.filter fun x => m.getLsbD x.1).foldl
      (fun s x =>
        let p : Piece := { loc := ⟨x.2.1, x.2.2.1⟩, len := x.2.2.2, cached := true, entry := none }
        s.within gid e.sp fun s =>
          let s := s.l1Fetch s.grp.core p.loc
          let bs := s.underHeld p.loc ((List.range p.len).map fun i => s.coreGet s.grp.core (p.loc.plus i))
          s.onGrp fun g => g.frameSet fn r x.1 (BitVec.ofNat 32 (leNat bs)))
      s
  | _ => s

/-- Some lanes of an outstanding answer have arrived; with the last of them nothing is outstanding. -/
def Pend.arrive (m : Mask) (e : Pend) : Pend :=
  { e with mask := e.mask &&& ~~~m, wait := e.mask &&& ~~~m != 0, late := e.late.filter fun x => !m.getLsbD x.1 }

/-- The atomics to peer devices whose lanes have all been performed and answered count as complete (R288). One that awaits
no old value completes with any answer. -/
def Group.settleAtomics (g : Group) : Group :=
  g.counters.foldl
    (fun g o => if o.cls = 4 ∧ !(g.pend.any fun e => e.op == o.id && e.wait) then g.opDoneId 4 o.id else g) g

/-- MEMORY_RESPONSE (R21, R242, R288): lanes of one of the group's outstanding answers arrive, in any order. -/
def execMemoryResponse (gid : Nat) (s : State) : Out :=
  match s.group? gid with
  | none => .next s
  | some g =>
    let xs := g.pend.filter fun e => e.wait
    if xs.isEmpty then .next (s.onGroup gid Group.settleAtomics)
    else
      let (s, x) := s.choose xs
      match x with
      | none => .next s
      | some e =>
        let m := arrivingLanes e.mask (Config.freeWord s.free)
        let late := Config.freeBool (s.free + 1)
        let s := { s with free := s.free + 2 }
        let s := if late then s.loadLate gid e m else s
        .next (s.onGroup gid fun g =>
          { g with pend := g.pend.map fun f => if f = e then e.arrive m else f }.settleAtomics)

/-- WRITE_ACK (R268): the home of one of the group's writes has performed it and acknowledges it. -/
def execWriteAck (gid : Nat) (s : State) : Out :=
  let mine := s.flights.filter fun f => f.gid == gid
  let down (s : State) : State := s.onGroup gid fun g => { g with ack := g.ack - 1 }
  if mine.isEmpty then .next (down s)
  else
    let (s, x) := s.choose mine
    match x with
    | none => .next s
    | some f =>
      let same (e : Flight) : Bool := e.gid == gid && e.op == f.op && e.part == f.part
      let s := s.landFlights same
      .next (down { s with flights := s.flights.filter fun e => !same e })

end Sys2Proof.Machine
end

