-- ==== Sys2Proof/Machine/MatrixMath.lean ====
section
/-!
DEFINITION. The arithmetic of a matrix step (R70 to R74, R86 to R89, R129 to R132): format words, elements with their
scales, group sums and the accumulation into FP32.
-/
namespace Sys2Proof.Machine

/-! ### Format words (R129, R130) -/

/-- A format word of the block: what it says of one operand. -/
structure OperandFmt where
  fmt : Nat
  sfmt : Nat
  blk : Nat
  w : Nat
  saddr : Nat
  x : BitVec 16
  reserved : Bool
  deriving DecidableEq, Repr

/-- The fields of a format word (R129). -/
def operandFmt (v : Dword) : OperandFmt :=
  { fmt := (v.extractLsb' 0 4).toNat, sfmt := (v.extractLsb' 4 2).toNat, blk := (v.extractLsb' 6 2).toNat
    w := (v.extractLsb' 8 4).toNat, saddr := (v.extractLsb' 12 20).toNat, x := v.extractLsb' 48 16
    reserved := v.extractLsb' 32 16 != 0 }

/-- The K class: 64, 128 or 256 values at full K (R130, R131). -/
def OperandFmt.classK (f : OperandFmt) : Nat :=
  if f.fmt = 6 ∨ f.fmt = 7 then 64 else if f.fmt = 12 ∨ f.fmt = 13 ∨ (f.fmt = 11 ∧ f.w = 8) then 128 else 256

/-- The element width in bits (R131). -/
def OperandFmt.elemBits (f : OperandFmt) : Nat :=
  match f.fmt with
  | 6 | 7 => 16
  | 12 | 13 => 8
  | 14 => 4
  | _ => f.w

/-- The block length; 0 for none. -/
def OperandFmt.block (f : OperandFmt) : Nat := if f.blk = 0 then 0 else 8 * 2 ^ f.blk

/-- A valid combination of R130. -/
def OperandFmt.valid (f : OperandFmt) : Bool :=
  match f.fmt with
  | 6 | 7 => f.w == 0 && f.sfmt == 0 && f.blk == 0
  | 12 | 13 | 14 => f.w == 0 && ((f.sfmt == 0 && f.blk == 0) || (f.sfmt == 1 && f.blk != 0))
  | 11 => (f.w == 8 || f.w == 4) && f.sfmt == 0 && f.blk == 0
  | 15 => decide (2 ≤ f.w) && decide (f.w ≤ 8) && f.sfmt == 2 && f.blk != 0
  | _ => false

/-- A floating format other than BFP. -/
def OperandFmt.floating (f : OperandFmt) : Bool := f.fmt == 6 || f.fmt == 7 || f.fmt == 12 || f.fmt == 13 || f.fmt == 14

/-- The divisor that kfrac names (R47). -/
def kDivisor (kfrac : BitVec 2) : Nat := 2 ^ kfrac.toNat

/-- K of a step (R131). -/
def stepK (a : OperandFmt) (kfrac : BitVec 2) : Nat := a.classK / kDivisor kfrac

/-- The format block of a step satisfies R129 and R130 with the step's K. -/
def fmtBlockOk (fmt : List Dword) (kfrac : BitVec 2) : Bool :=
  let a := operandFmt (fmt.getD 0 0)
  let b := operandFmt (fmt.getD 1 0)
  let k := stepK a kfrac
  !a.reserved && !b.reserved && (fmt.getD 2 0).extractLsb' 32 32 == 0 && fmt.getD 3 0 == 0
  && a.valid && b.valid && a.classK == b.classK
  && !(a.floating && b.fmt == 11) && !(b.floating && a.fmt == 11)
  && (a.block == 0 || k % a.block == 0) && (b.block == 0 || k % b.block == 0)

/-- The group size of R87. -/
def groupSize (a b : OperandFmt) : Nat := if a.fmt = 15 ∧ b.fmt = 15 then min a.block b.block else 16

/-! ### Elements (R70, R71, R73) -/

/-- The `n` bits at bit offset `o` of a byte string. -/
def bitsAt (bs : List Byte) (o n : Nat) : Nat := leNat ((bs.drop (o / 8)).take ((o % 8 + n + 7) / 8)) / 2 ^ (o % 8) % 2 ^ n

/-- A value multiplied by a power of two. -/
def FVal.shift (v : FVal) (n : Int) : FVal :=
  match v with
  | .fin s m e => .fin s m (e + n)
  | v => v

/-- The value of an element from its code and its block's scale byte. -/
def OperandFmt.value (f : OperandFmt) (code scale : Nat) : FVal :=
  let plain : FVal :=
    match f.fmt with
    | 6 => FKind.f16.decode 0 code
    | 7 => FKind.bf16.decode 0 code
    | 12 => FKind.e4m3.decode 0 code
    | 13 => FKind.e5m2.decode 0 code
    | 14 => FKind.e2m1.decode f.x code
    | _ => FVal.ofInt (intOf f.w true code)
  match f.sfmt with
  | 1 => if scale = 255 then FVal.invalid else plain.shift ((scale : Int) - 127)
  | 2 =>
    if scale = 255 then FVal.invalid
    else if scale = 0 then .fin false 0 0
    else plain.shift ((scale : Int) - 127 - ((f.w : Int) - 2))
  | _ => plain

/-- One row of A or column of B: its K elements from its bytes and its scale bytes. -/
def OperandFmt.line (f : OperandFmt) (k : Nat) (bs scales : List Byte) : List FVal :=
  (List.range k).map fun i =>
    f.value (bitsAt bs (i * f.elemBits) f.elemBits)
      (if f.block = 0 then 0 else (scales.getD (i / f.block) 0).toNat)

/-! ### Sums (R86, R88, R89) -/

/-- FP32 under RNE, subnormals kept, NaNs canonical (R86, R88). -/
def accEnv : FEnv := { rnd := .rne, ftz := false, cnan := true, sat := false, draw := 0, x := 0x8000 }

/-- A sum rounded to FP32. -/
def accRound (v : FVal) : Nat := FKind.f32.round accEnv v

/-- The FP32 addition of a rounded group sum to an accumulator. -/
def accAdd (c s : Nat) : Nat := accRound (FVal.add false (FKind.f32.decode 0 c) (FKind.f32.decode 0 s))

/-- The exact sum of the products of a group, those of marked blocks left out; +0 where nothing is added. -/
def groupSum : List (FVal × FVal × Bool) → FVal
  | [] => .fin false 0 0
  | (x, y, out) :: rest => if out then groupSum rest else FVal.add false (groupSum rest) (FVal.mul x y)

/-- The accumulation of one element over the groups of `g` values, ascending (R86, R143). -/
def accumulate (g : Nat) : Nat → List (FVal × FVal × Bool) → Nat → Nat
  | 0, _, c => c
  | n + 1, xs, c =>
    match xs with
    | [] => c
    | _ => accumulate g n (xs.drop g) (accAdd c (accRound (groupSum (xs.take g))))

end Sys2Proof.Machine
end

