-- ==== Sys2Proof/Machine/Matrix.lean ====
section
/-!
DEFINITION. The matrix engine (R127 to R144, R149 to R151, R449, R450): issue and dispatch, forming, checking and
accepting a step, its start, its result and its residue check.
-/
namespace Sys2Proof.Machine

/-! ### Fields and places -/

/-- mrows of a step (R47). -/
def stepRows (e : EX) : Nat := 64 / 2 ^ e.mrows.toNat

/-- The tile of an engine; a tile no team holds stands in no list. -/
def Engine.tile (e : Engine) (t : Nat) : Tile :=
  (lookupKey e.tiles t).getD { team := none, alloc := false, token := .matrix, waiters := [], clearing := false }

/-- A tile changed. -/
def Engine.onTile (e : Engine) (t : Nat) (f : Tile → Tile) : Engine := { e with tiles := insertKey e.tiles t (f (e.tile t)) }

/-- The place of column j of row r of an engine's accumulator memory (R128). -/
def accLoc (k r j : Nat) : Loc := ⟨3, k * 2 ^ 18 + 256 * r + 4 * j⟩

/-- n_b (R131). -/
def quarterRegs (fmt : List Dword) (kfrac : BitVec 2) : Nat :=
  stepK (operandFmt (fmt.getD 0 0)) kfrac * (operandFmt (fmt.getD 1 0)).elemBits / 64

/-- A rank's partner in its pair: the neighbour in its row of the cluster (R136). -/
def pairRank (r : Nat) : Nat := if r % 2 = 0 then r + 1 else r - 1

/-- The partner of a team placed with `.pair`, none without one (R136). -/
def State.pairTeam (s : State) (t : Team) : Option Team :=
  if t.kdesc.getLsbD 638 then s.clusterTeam t (pairRank t.rank) else none

/-! ### Issue and dispatch (R133) -/

/-- A matrix instruction of the split is at the engine and not yet accepted. -/
def Engine.dispatched (e : Engine) (gid sp : Nat) : Bool :=
  (e.ports.any fun d => d.gid == gid && d.sp == sp)
  || (e.steps.any fun st => st.partner.isSome && !st.joined && st.members.any fun m => m.1 == gid && m.2.1 == sp)

/-- The issue of a matrix instruction: v(a) lies in the frame (R57), its 32 lanes are active, and it dispatches and waits for
its step. A pair instruction of a step that has timed out or been rejected takes that fault (R137, R142). -/
def matrixIssue (op : Nat) (w : LaneShort) (e : EX) (s : State) : Out :=
  lanes [w.a.toNat] w.g false true 8 s fun _ s =>
    let g := s.grp
    let k := g.engineKey
    if g.spl.mask ≠ 0xFFFFFFFF#32 then s.fault causeConvergence
    else if (s.engine k).dispatched g.gid g.spl.num then s.stay .matrix
    else
      match if e.mode = 2 then (s.engine k).pairFailed.find? fun x => x.1 == teamOf g.gid && x.2.1 == g.sc % 4 else none with
      | some late => (s.onEngine k fun x => { x with pairFailed := x.pairFailed.erase late }).fault late.2.2
      | none =>
      if !g.opRoom 0 then s.stay .counter
      else
        let d : Dispatched :=
          { gid := g.gid, sp := g.spl.num, sc := g.sc, op := op, w := w, e := e
            fmt := (List.range 4).map fun i => g.uniGet (e.fb.toNat + i), sb := g.uniGet w.b.toNat }
        (s.onEngine k fun x => { x with ports := x.ports ++ [d] }).stay .matrix

/-- MMA (R141). -/
def execMma (w : LaneShort) (e : EX) (s : State) : Out := matrixIssue 0 w e s

/-- MMS (R141). -/
def execMms (w : LaneShort) (e : EX) (s : State) : Out := matrixIssue 1 w e s

/-- MRK (R161). -/
def execMrk (w : LaneShort) (e : EX) (s : State) : Out := matrixIssue 2 w e s

/-! ### Forming a step (R134, R135) -/

/-- The complete set that a dispatched instruction belongs to: itself in solo mode, else the first of its team on each of
the four sub-cores, the leader first. -/
def formedSet (ports : List Dispatched) (d : Dispatched) : Option (List Dispatched) :=
  if d.e.mode = 1 then some [d]
  else
    let ms := (List.range 4).filterMap fun i =>
      ports.find? fun x => x.e.mode != 1 && teamOf x.gid == teamOf d.gid && x.sc % 4 == i
    if ms.length = 4 then some ms else none

/-- The set to form first: that whose earliest member dispatched first. -/
def nextSet (ports : List Dispatched) : Option (List Dispatched) := ports.findSome? (formedSet ports)

/-! ### The checks of R142 -/

/-- The bindings of a team on an engine, as its image holds them (R372). -/
def Engine.bindingsOf (e : Engine) (team : Nat) : List Binding := e.bindings.filter fun b => b.team == team

/-- The tiles a list set occupies: m of them (R153). -/
def listTiles (cap : Nat) : Nat := 2 ^ cap

/-- A binding's list tiles contain the tile. -/
def Binding.isList (b : Binding) (t : Nat) : Bool := decide (b.lt ≤ t) && decide (t < b.lt + listTiles b.cap)

/-- What the bindings allow of a step (R158, R161). -/
def Engine.bindingOk (e : Engine) (d : Dispatched) : Bool :=
  let t := d.e.tile.toNat
  !(e.bindings.any fun b => b.isList t)
  && (d.op != 2 || e.bindings.any fun b => b.st == t && !(d.e.fin && b.vt == 2))

/-- The frame size of a group's split, 0 where it is gone. -/
def State.frameSizeOf (s : State) (gid sp : Nat) : Nat :=
  match s.group? gid with
  | none => 0
  | some g => (g.focusSplit sp).frameSize

/-- The checks of R142 in their order, each with its fault: for the side of a step that engine `k` computes for team `t`,
led by `d`, with the parameters of `par` and B of team `h`. -/
def State.stepChecks (s : State) (k : Nat) (t h : Team) (d par : Dispatched) (ms : List Dispatched) : List (Bool × Nat) :=
  let fa := operandFmt (par.fmt.getD 0 0)
  let fb := operandFmt (par.fmt.getD 1 0)
  let kk := stepK fa par.e.kfrac
  let rows := stepRows d.e
  let addr := (d.sb.extractLsb' 0 32).toNat
  let stride := (d.sb.extractLsb' 32 32).toNat
  let bits := ((par.fmt.getD 2 0).extractLsb' 0 32).toNat
  let sparse := par.op == 1
  let cols := if d.e.mode = 1 then 16 * ((d.w.d.extractLsb' 0 2).toNat + 1) else 64
  let row := 64 * d.e.tile.toNat + d.e.row.toNat
  let (awb, awl) := match s.group? d.gid with
    | none => (0, 0)
    | some g => (g.awb, g.awl)
  [ (fmtBlockOk par.fmt par.e.kfrac && (s.engine k).bindingOk d, causeIllegal),
    (ms.all (fun m => decide (m.w.a.toNat + quarterRegs par.fmt par.e.kfrac ≤ s.frameSizeOf m.gid m.sp)), causeIllegal),
    (addr % 16 == 0 && stride % 16 == 0 && (!sparse || bits % 8 == 0), causeMisaligned),
    (decide (addr + (rows - 1) * stride + kk * fa.elemBits / 8 ≤ t.tmSize)
      && (fa.block == 0 || decide (fa.saddr + rows * (kk / fa.block) ≤ t.tmSize))
      && (fb.block == 0 || decide (fb.saddr + cols * (kk / fb.block) ≤ h.tmSize))
      && (!sparse || decide (bits + (rows / 8 * (kk / 8) + 7) / 8 ≤ t.tmSize)), causeProtection),
    (decide (awb ≤ row) && decide (row + rows ≤ awl), causeWindow) ]

/-- The fault of the first check that fails on a side of a step. -/
def firstFail : List (Bool × Nat) → Option Nat
  | [] => none
  | (ok, c) :: rest => if ok then firstFail rest else some c

/-- The checks of both sides of a pair step, in one order. -/
def joinChecks (a b : List (Bool × Nat)) : List (Bool × Nat) := (a.zip b).map fun p => (p.1.1 && p.2.1, p.1.2)

/-! ### Acceptance (R136 to R138, R142) -/

/-- A group fault taken by a split that waits in a matrix instruction. -/
def State.faultMember (s : State) (gid sp cause : Nat) : State :=
  s.within gid sp fun s => s.raise (s.groupTrap cause 0 s.grp.spl.mask)

/-- Every member of a rejected or expired step faults at its own instruction. -/
def State.faultMembers (s : State) (ms : List (Nat × Nat)) (cause : Nat) : State :=
  ms.foldl (fun s m => s.faultMember m.1 m.2 cause) s

/-- A member of an accepted step: its counter rises and its split goes on. -/
def State.acceptMember (s : State) (id gid sp : Nat) : State :=
  s.within gid sp fun s => ((s.onGrp fun g => g.opStart 0 id).advance 8).pushZero

/-- The members of a set as a step holds them. -/
def membersOf (ms : List Dispatched) : List (Nat × Nat × Nat) := ms.map fun d => (d.gid, d.sp, d.w.a.toNat)

/-- The byte image of a member's quarter of B: n registers from its v(a) (R131). -/
def State.quarter (s : State) (n : Nat) (m : Nat × Nat × Nat) : List Byte :=
  match s.group? m.1 with
  | none => []
  | some g => (List.range n).flatMap fun i => (g.focusSplit m.2.1).getRow (m.2.2 + i)

/-- The quarters of B that the members supply, by array: array i's in a quad, the issuing group's own in solo mode. -/
def State.quarters (s : State) (d par : Dispatched) (ms : List (Nat × Nat × Nat)) : List (Nat × List Byte) :=
  let n := quarterRegs par.fmt par.e.kfrac
  if d.e.mode = 1 then ms.map fun m => ((d.w.d.extractLsb' 0 2).toNat, s.quarter n m)
  else ms.zipIdx.map fun m => (m.2, s.quarter n m.1)

/-- The B registers of a member that an accepted step has still to read, as (split, frame, register) (R138). -/
def State.bRegs (s : State) (n : Nat) (m : Nat × Nat × Nat) : List (Nat × Nat × Nat) :=
  match s.group? m.1 with
  | none => []
  | some g => (List.range n).filterMap fun i => (locate g.frames (g.focusSplit m.2.1).spl.chain (m.2.2 + i)).map fun x => (m.2.1, x)

/-- The members' B registers scoreboarded for step `id` until it has read them (R138). -/
def State.holdB (s : State) (id n : Nat) (ms : List (Nat × Nat × Nat)) : State :=
  ms.foldl (fun s m =>
    let rs := (s.bRegs n m).map fun x => (id, x)
    s.onGroup m.1 fun g => { g with reads := g.reads ++ rs }) s

/-- The registers of a step that has read them are free again. -/
def State.freeB (s : State) (id : Nat) : State :=
  s.onGroups fun g => { g with reads := g.reads.filter fun x => x.1 != id }

/-- The 32 lanes of a register of a frame, from its image where the frame is not resident. -/
def State.bRow (s : State) (g : Group) (fn r : Nat) : List Byte :=
  match g.frame? fn with
  | none => []
  | some f => if f.res then f.row r else (s.spillLoad g (g.imageAddr fn r) 128).2

/-- The quarters of B that a re-entered step reads (R152): from the registers its members still hold for it. -/
def State.quartersHeld (s : State) (st : MatStep) : List (Nat × List Byte) :=
  st.members.zipIdx.map fun m =>
    let rows := match s.group? m.1.1 with
      | none => []
      | some g => (g.reads.filter fun x => x.1 == st.id).flatMap fun x => s.bRow g x.2.2.1 x.2.2.2
    (if st.lead.e.mode = 1 then (st.lead.w.d.extractLsb' 0 2).toNat else m.2, rows)

/-- Instructions taken from an engine's ports. -/
def Engine.takePorts (e : Engine) (ms : List Dispatched) : Engine := { e with ports := e.ports.filter fun d => !ms.contains d }

/-- A step of one core: rejected, or accepted. -/
def State.acceptOwn (s : State) (k : Nat) (t : Team) (d : Dispatched) (ms : List Dispatched) : State :=
  let s := s.onEngine k fun e => e.takePorts ms
  match firstFail (s.stepChecks k t t d d ms) with
  | some c => s.faultMembers (ms.map fun m => (m.gid, m.sp)) c
  | none =>
    let st : MatStep :=
      { id := s.turn, lead := d, par := d, members := membersOf ms, srcs := s.quarters d d (membersOf ms), partner := none
        joined := true, started := false, snap := some s.teamMem, runs := 0, failed := [], finPhase := false }
    let s := (s.onEngine k fun e => { e with steps := e.steps ++ [st] }).holdB st.id (quarterRegs d.fmt d.e.kfrac) (membersOf ms)
    ms.foldl (fun s m => s.acceptMember st.id m.gid m.sp) s

/-- The pair step of an engine that waits for engine `o`. -/
def Engine.unjoined (e : Engine) (o : Nat) : Option MatStep := e.steps.find? fun st => st.partner == some o && !st.joined

/-- The two sides of a pair step, that of the B-holder first, checked together and accepted or rejected (R136, R142). -/
def State.joinPair (s : State) (k o : Nat) (t u : Team) (a b : MatStep) : State :=
  let side (m : Nat × Nat × Nat) : Dispatched := { a.lead with gid := m.1, sp := m.2.1, w := { a.lead.w with a := BitVec.ofNat 6 m.2.2 } }
  let checks := joinChecks (s.stepChecks k t t a.lead a.lead (a.members.map side))
    (s.stepChecks o u t b.lead a.lead (b.members.map side))
  let drop (x : MatStep) (e : Engine) : Engine := { e with steps := e.steps.filter fun st => st != x }
  let all := (a.members ++ b.members).map fun m => (m.1, m.2.1)
  match firstFail checks with
  | some c => ((s.onEngine k (drop a)).onEngine o (drop b)).faultMembers all c
  | none =>
    let srcs := s.quarters a.lead a.lead a.members
    let join (x : MatStep) (e : Engine) : Engine :=
      { e with
        steps := e.steps.map fun st =>
          if st = x then { x with id := s.turn, par := a.lead, srcs := srcs, joined := true, snap := some s.teamMem } else st }
    let id := s.turn
    let s := ((s.onEngine k (join a)).onEngine o (join b)).holdB id (quarterRegs a.lead.fmt a.lead.e.kfrac) a.members
    all.foldl (fun s m => s.acceptMember id m.1 m.2) s

/-- The instructions of a team's quad at an engine's ports that belong to its next pair step. -/
def Engine.pairHere (e : Engine) (team : Nat) : List Dispatched :=
  (List.range 4).filterMap fun i =>
    (e.ports.find? fun x => teamOf x.gid == team && x.e.mode != 1 && x.sc % 4 == i).filter fun d => d.e.mode == 2

/-- A pair step faults before its partner is there (R137, R142): the groups that have issued it take the fault, those of the
partner `u` on engine `o` that issue it later will, and the partner counts the step. -/
def State.failPair (s : State) (o : Nat) (u : Team) (ms : List (Nat × Nat)) (cause : Nat) : State :=
  let there := (s.engine o).pairHere u.key
  let late := (List.range 4).filter fun i => !there.any fun d => d.sc % 4 == i
  let s := s.onEngine o fun e =>
    { e.takePorts there with pairStep := e.pairStep + 1, pairFailed := e.pairFailed ++ late.map fun i => (u.key, i, cause) }
  s.faultMembers (ms ++ there.map fun d => (d.gid, d.sp)) cause

/-- What can be checked of a pair step when its first side arrives (R142): of the B-holder's side all of it, of the partner's,
whose format block and B registers the step does not use, the alignment of A and the window. -/
def State.sideChecks (s : State) (k : Nat) (t : Team) (d : Dispatched) (ms : List Dispatched) : List (Bool × Nat) :=
  let cs := s.stepChecks k t t d d ms
  if t.rank % 2 = 0 then cs
  else
    let addr := d.sb.toNat
    [(addr % 16 == 0 && addr / 2 ^ 32 % 16 == 0, causeMisaligned)] ++ cs.drop 4

/-- One side of a pair step accepted; with both sides there the step is (R137). A side that fails its checks rejects the step
for every member, those of the other side that issue it later included (R142). -/
def State.acceptSide (s : State) (k : Nat) (t : Team) (d : Dispatched) (ms : List Dispatched) : State :=
  match s.pairTeam t with
  | none => (s.onEngine k fun e => e.takePorts ms).faultMembers (ms.map fun m => (m.gid, m.sp)) causeIllegal
  | some u =>
    let o := 2 * u.core + k % 2
    let st : MatStep :=
      { id := s.turn, lead := d, par := d, members := membersOf ms, srcs := [], partner := some o, joined := false
        started := false, snap := none, runs := 0, failed := [], finPhase := false }
    match (s.engine o).unjoined k with
    | none =>
      match firstFail (s.sideChecks k t d ms) with
      | some c =>
        (s.onEngine k fun e => { e.takePorts ms with pairStep := e.pairStep + 1 }).failPair o u (ms.map fun m => (m.gid, m.sp)) c
      | none => s.onEngine k fun e => { e.takePorts ms with steps := e.steps ++ [st], pairStep := e.pairStep + 1 }
    | some b =>
      let s := s.onEngine k fun e => { e.takePorts ms with steps := e.steps ++ [st], pairStep := e.pairStep + 1 }
      if t.rank % 2 = 0 then s.joinPair k o t u st b else s.joinPair o k u t b st

/-- MATRIX_STEP_ACCEPT (R138): with fewer than 4 accepted steps, the first complete set is formed. -/
def execMatrixStepAccept (core eng : Nat) (s : State) : Out :=
  let k := 2 * core + eng
  let e := s.engine k
  if 4 ≤ e.steps.length then .next s
  else
    match nextSet (e.ports.filter fun d => !s.halted (s.partition d.gid)) with
    | some (d :: ms) =>
      match s.team? (teamOf d.gid) with
      | none => .next s
      | some t => .next (if d.e.mode = 2 then s.acceptSide k t d (d :: ms) else s.acceptOwn k t d (d :: ms))
    | _ => .next s

/-- A group of a team's quad on an engine is in a debug stop (R137, R151). -/
def State.quadStopped (s : State) (team k : Nat) : Bool :=
  s.groups.any fun g => teamOf g.gid == team && g.engineKey == k && g.stopped

/-- PAIR_TIMEOUT (R137): the groups that have issued the step that waits for its partner fault, those that issue it later
will, and both engines count it. The timer stands while a group of either quad is in a debug stop. -/
def execPairTimeout (core eng : Nat) (s : State) : Out :=
  let k := 2 * core + eng
  match (s.engine k).steps.find? fun st => st.partner.isSome && !st.joined with
  | none => .next s
  | some st =>
    match st.partner, (s.team? (teamOf st.lead.gid)).bind s.pairTeam with
    | some o, some u =>
      if s.quadStopped (teamOf st.lead.gid) k || s.quadStopped u.key o then .next s
      else
        .next ((s.onEngine k fun e => { e with steps := e.steps.filter fun x => x != st }).failPair o u
          (st.members.map fun m => (m.1, m.2.1)) causePairTimeout)
    | _, _ => .next s

/-! ### Start (R138) -/

/-- The tile's token lets a step accepted in turn `id` start (R147). -/
def Token.lets (t : Token) (id : Nat) : Bool :=
  match t with
  | .matrix => true
  | .waiting _ since => decide (id < since)
  | _ => false

/-- The tiles a fin phase occupies: its staging tile and the list tiles of the binding (R162). -/
def Engine.finTiles (e : Engine) (st : MatStep) : List Nat :=
  (List.range 16).filter fun t =>
    t == st.lead.e.tile.toNat
    || e.bindings.any fun b => b.st == st.lead.e.tile.toNat && b.isList t

/-- The step that starts next: the first in acceptance order, steps that wait behind a group's token passed by those to
other tiles. -/
def Engine.startable (e : Engine) : List Nat → List MatStep → Option MatStep
  | _, [] => none
  | blocked, st :: rest =>
    let t := st.lead.e.tile.toNat
    if st.started then
      if st.runs ≠ 0 && !st.finPhase then none
      else if st.lead.e.fin then Engine.startable e (blocked ++ e.finTiles st) rest
      else Engine.startable e blocked rest
    else if blocked.contains t then Engine.startable e blocked rest
    else if !(e.tile t).token.lets st.id then Engine.startable e (t :: blocked) rest
    else if (e.tile t).clearing || (st.partner.isSome && !st.joined) then none
    else some st

/-- An engine on which a step has started: the team memory it reads is that at its acceptance or at its start, its quarters
of B are read. -/
def Engine.begin (e : Engine) (st : MatStep) (snap : Option Memory) (srcs : List (Nat × List Byte)) : Engine :=
  { e with steps := e.steps.map fun x => if x = st then { x with started := true, snap := snap, srcs := srcs } else x }

/-- The quarters of B with which a step starts: as they stood at its acceptance, or read by a re-entered step from its
members (R138, R152). -/
def State.startB (s : State) (st : MatStep) : List (Nat × List Byte) := if st.srcs.isEmpty then s.quartersHeld st else st.srcs

/-- MATRIX_STEP_START (R138): a pair step starts on both engines together, with the B-holder's quarters; the B registers are
free again. -/
def execMatrixStepStart (core eng : Nat) (s : State) : Out :=
  let k := 2 * core + eng
  let next (e : Engine) : Option MatStep := e.startable [] e.steps
  match next (s.engine k) with
  | none => .next s
  | some st =>
    if s.halted (s.partition st.lead.gid) then .next s
    else
      let snap := if Config.freeBool s.free then some s.teamMem else st.snap
      let s' := { s with free := s.free + 1 }
      match st.partner with
      | none => .next ((s'.onEngine k fun e => e.begin st snap (s.startB st)).freeB st.id)
      | some o =>
        match next (s.engine o) with
        | some b =>
          if b.partner = some k then
            let holder := if ((s.team? (teamOf st.lead.gid)).map (·.rank)).getD 0 % 2 = 0 then st else b
            let srcs := s.startB holder
            .next (((s'.onEngine k fun e => e.begin st snap srcs).onEngine o fun e => e.begin b snap srcs).freeB holder.id)
          else .next s
        | none => .next s

/-! ### The result (R132, R143, R144) -/

/-- How many free bits the reads of a step take: one for each aligned word of team memory. -/
abbrev stepChoices : Nat := 2 ^ 25

/-- A byte of team memory that a step reads: each aligned word is as it stood when read first or as it stands now
(R144). -/
def State.stepByte (s : State) (snap : Memory) (a : Nat) : Byte :=
  if Config.freeBool (s.free + a / 4) then snap.get a else s.teamMem.get a

/-- `n` bytes at an offset of a team's share that a step reads. -/
def State.stepBytes (s : State) (snap : Memory) (t : Team) (off n : Nat) : List Byte :=
  (List.range n).map fun i => s.stepByte snap (teamAt t.core t.tmBase + off + i)

/-- The columns a step writes. -/
def stepCols (d : Dispatched) : List Nat :=
  if d.e.mode = 1 then (List.range 16).map fun j => 16 * (d.w.d.extractLsb' 0 2).toNat + j else List.range 64

/-- Row i of A (R132). -/
def State.rowOfA (s : State) (snap : Memory) (t : Team) (d par : Dispatched) (i : Nat) : List FVal :=
  let fa := operandFmt (par.fmt.getD 0 0)
  let kk := stepK fa par.e.kfrac
  let at_ := (d.sb.extractLsb' 0 32).toNat + i * (d.sb.extractLsb' 32 32).toNat
  let blocks := if fa.block = 0 then 0 else kk / fa.block
  fa.line kk (s.stepBytes snap t at_ (kk * fa.elemBits / 8)) (s.stepBytes snap t (fa.saddr + i * blocks) blocks)

/-- Tile column c of B, its scales in the share of team `h` (R131, R132). -/
def State.colOfB (s : State) (snap : Memory) (h : Team) (par : Dispatched) (srcs : List (Nat × List Byte)) (c : Nat) :
    List FVal :=
  let fb := operandFmt (par.fmt.getD 1 0)
  let kk := stepK (operandFmt (par.fmt.getD 0 0)) par.e.kfrac
  let n := kk * fb.elemBits / 8
  let bs := ((lookupKey srcs (c / 16)).getD []).drop (c % 16 * n) |>.take n
  let blocks := if fb.block = 0 then 0 else kk / fb.block
  fb.line kk bs (s.stepBytes snap h (fb.saddr + c * blocks) blocks)

/-- The marks of the bitmap for row i of a sparse step, by k (R132, R89). -/
def State.marks (s : State) (snap : Memory) (t : Team) (par : Dispatched) (i kk : Nat) : List Bool :=
  if par.op = 1 then
    let base := ((par.fmt.getD 2 0).extractLsb' 0 32).toNat
    (List.range kk).map fun k =>
      let bit := i / 8 * (kk / 8) + k / 8
      (s.stepBytes snap t (base + bit / 8) 1).any fun b => b.getLsbD (bit % 8)
  else List.replicate kk false

/-- The new values of the rows of a step on engine `k`, as (place, bytes) (R143). -/
def State.stepResult (s : State) (k : Nat) (st : MatStep) (t h : Team) : List (Loc × List Byte) :=
  let (d, par) := (st.lead, st.par)
  let snap := st.snap.getD s.teamMem
  let fa := operandFmt (par.fmt.getD 0 0)
  let kk := stepK fa par.e.kfrac
  let g := groupSize fa (operandFmt (par.fmt.getD 1 0))
  let cols := (stepCols d).map fun c => (c, s.colOfB snap h par st.srcs c)
  (List.range (stepRows d.e)).flatMap fun i =>
    let a := s.rowOfA snap t d par i
    let m := s.marks snap t par i kk
    cols.map fun c =>
      let l := accLoc k (64 * d.e.tile.toNat + d.e.row.toNat + i) c.1
      let old := if d.w.d.getLsbD 5 then 0 else leNat (s.homeBytes l 4)
      (l, leBytes 4 (accumulate g (kk / g + 1) (a.zip (c.2.zip m)) old))

/-- The team whose share holds the scales of B: in a pair step the B-holder's. DESIGN CHOICE (log 129): R129 says that a step
never reaches another team's share, and R136 names only the B-holder's registers; the model reads the scales of B where B's
own team holds them, for both engines. -/
def State.scaleTeam (s : State) (t : Team) (st : MatStep) : Team :=
  if t.rank % 2 = 0 ∨ st.partner.isNone then t else (s.pairTeam t).getD t

/-- Values written at their homes. -/
def State.putAll (s : State) (xs : List (Loc × List Byte)) : State := xs.foldl (fun s x => s.homeStore x.1 x.2) s

/-! ### Residue checks (R449, R450) -/

/-- A column of an array as `Engine.colFails` names it. -/
def columnKey (c : Nat × Nat) : Nat := 64 * c.1 + c.2

/-- UNIT of an ageing record about a column (R443). -/
def columnUnit (k : Nat) (c : Nat × Nat) : Nat := coreCode (k / 2) + 2 ^ 8 * (k % 2) + 2 ^ 9 * c.1 + 2 ^ 11 * c.2

/-- The island of a core: 11 times its die plus its number modulo 6 in its die. -/
def islandOf (core : Nat) : Nat := 11 * dieOf core + core % 24 % 6

/-- A RESIDUE record, the failed steps of the column counted on its first failure in a step. -/
def State.residue (s : State) (k : Nat) (first : Bool) (c : Nat × Nat) : State :=
  let key := columnKey c
  let n := ((lookupKey (s.engine k).colFails key).getD 0) + (if first then 1 else 0)
  let s := s.onEngine k fun e => { e with colFails := insertKey e.colFails key n }
  s.logRecord (coreSource (k / 2) (8 + k % 2)) 5 (islandOf (k / 2)) (columnUnit k c) (BitVec.ofNat 64 n)

/-- The core fails: its readiness bit is cleared and the partition takes MACHINE_CHECK. -/
def State.failCore (s : State) (core part : Nat) : State := (s.setReady core false).haltSoon part causeMachineCheck

/-- A column's work moved to a free spare of its array, or the core fails (R449). -/
def State.spareColumn (s : State) (k part : Nat) (c : Nat × Nat) : State :=
  let key := 4 * k + c.1
  let used := (s.life.spareCols.filter fun x => x.1 == key).length
  if 2 ≤ used then s.failCore (k / 2) part
  else
    let s := { s with life := { s.life with spareCols := s.life.spareCols ++ [(key, c.2)] } }
    let s := s.onEngine k fun e => { e with colFails := eraseKey e.colFails (columnKey c) }
    s.logRecord (coreSource (k / 2) (8 + k % 2)) 6 (islandOf (k / 2)) (columnUnit k c) (BitVec.ofNat 64 (64 + used))

/-- A run of a step has failed its check in some columns: the step runs again from its read inputs; a column that failed
in the run before is spared, and so is one that has failed in four steps; a third failure fails the core. -/
def State.rerun (s : State) (k : Nat) (st : MatStep) (fails : List (Nat × Nat)) : State :=
  let part := s.partition st.lead.gid
  let s := fails.foldl (fun s c => s.residue k (!st.failed.contains c) c) s
  if 2 ≤ st.runs then s.failCore (k / 2) part
  else
    let again := fails.filter fun c =>
      st.failed.contains c || decide (4 ≤ (lookupKey (s.engine k).colFails (columnKey c)).getD 0)
    let s := again.foldl (fun s c => s.spareColumn k part c) s
    s.onEngine k fun e =>
      { e with steps := e.steps.map fun x => if x = st then { st with runs := st.runs + 1, failed := st.failed ++ fails } else x }

/-! ### Write (R138) -/

/-- The class-0 counters of a step's members fall. -/
def State.countStep (s : State) (st : MatStep) : State :=
  st.members.foldl (fun s m => s.onGroup m.1 fun g => g.opDoneId 0 st.id) s

/-- The rows of a step are written; its fin phase follows (R162), or it is over. -/
def State.writeStep (s : State) (k : Nat) (st : MatStep) (t : Team) : State :=
  let s := { s.putAll (s.stepResult k st t (s.scaleTeam t st)) with free := s.free + stepChoices }
  if st.lead.e.fin then
    s.onEngine k fun e => { e with steps := e.steps.map fun x => if x = st then { st with finPhase := true } else x }
  else (s.onEngine k fun e => { e with steps := e.steps.filter fun x => x != st }).countStep st

/-- MATRIX_STEP_WRITE (R138, R449): the step that started first ends a run; `fails` are the (array, column) pairs whose
residue check fails. -/
def execMatrixStepWrite (core eng : Nat) (fails : List (Nat × Nat)) (s : State) : Out :=
  let k := 2 * core + eng
  match (s.engine k).steps.find? fun st => st.started && !st.finPhase with
  | none => .next s
  | some st =>
    match s.team? (teamOf st.lead.gid) with
    | none => .next s
    | some t =>
      if s.halted (s.partition st.lead.gid) then .next s
      else if fails.isEmpty then .next (s.writeStep k st t)
      else .next (s.rerun k st fails)

end Sys2Proof.Machine
end

