-- ==== Sys2Proof/Machine/Tokens.lean ====
section
/-!
DEFINITION. Access from lanes to accumulator memory (R145 to R150): windows, tokens, allocation, `lda` and `sta`.
-/
namespace Sys2Proof.Machine

/-! ### Windows and tokens -/

/-- The group's window holds some row of a tile (R148). -/
def Group.inWindow (g : Group) (t : Nat) : Bool :=
  decide (g.awb < g.awl) && decide (g.awb < 64 * t + 64) && decide (64 * t < g.awl)

/-- The group holds the token of a tile. -/
def Tile.heldBy (t : Tile) (gid : Nat) : Bool := t.token == .held gid

/-- The tile of the issuing group's engine. -/
def State.tile (s : State) (t : Nat) : Tile := (s.engine s.grp.engineKey).tile t

/-- A tile of the issuing group's engine changed. -/
def State.onTile (s : State) (t : Nat) (f : Tile → Tile) : State := s.onEngine s.grp.engineKey fun e => e.onTile t f

/-- The tile an `acc` names: b, or S[a][3:0]. -/
def State.accTile (s : State) (w : UniShort) : Nat := (s.regOrImm w).toNat % 16

/-- Held accumulator writes of a group to a tile of its engine (R150). -/
def State.heldTileWrites (s : State) (k gid t : Nat) : Bool :=
  ((lookupKey s.relwin (k / 2)).getD []).any fun w =>
    w.gid == gid && w.space == 3 && w.addr / 0x4000 == 16 * k + t

/-- A group joins those that wait for the token, once. -/
def Tile.await (t : Tile) (gid turn : Nat) : Tile :=
  if t.waiters.any fun x => x.1 == gid then t else { t with waiters := t.waiters ++ [(gid, turn)] }

/-- ACC_ACQ (R147, R148). -/
def execAccAcq (w : UniShort) (e : EA) (s : State) : Out :=
  uniform w.g e.gn 8 s fun s =>
    let g := s.grp
    let t := s.accTile w
    let tl := s.tile t
    if !g.inWindow t then s.fault causeWindow
    else
      match tl.token with
      | .held h => if h = g.gid then s.done 8 else (s.onTile t fun x => x.await g.gid s.turn).stay (.token t)
      | .matrix => (s.onTile t fun x => { x with token := .waiting g.gid s.turn }).stay (.token t)
      | .waiting h _ => if h = g.gid then s.stay (.token t) else (s.onTile t fun x => x.await g.gid s.turn).stay (.token t)
      | .releasing _ => (s.onTile t fun x => x.await g.gid s.turn).stay (.token t)

/-- ACC_REL (R147, R148, R150): the token passes on once the group's ordered writes to the tile have landed. -/
def execAccRel (w : UniShort) (e : EA) (s : State) : Out :=
  uniform w.g e.gn 8 s fun s =>
    let g := s.grp
    let t := s.accTile w
    if !g.inWindow t then s.fault causeWindow
    else if !(s.tile t).heldBy g.gid then s.fault causeToken
    else if s.heldTileWrites g.engineKey g.gid t then
      (s.onTile t fun x => { x with token := .releasing g.gid }).done 8
    else (s.onTile t Tile.pass).done 8

/-- The team holds every tile that has a row in [base, limit) on an engine. -/
def Engine.holdsRows (e : Engine) (team base limit : Nat) : Bool :=
  decide (limit ≤ base)
  || (List.range 16).all fun t =>
      decide (64 * t + 64 ≤ base) || decide (limit ≤ 64 * t) || (e.tile t).team == some team

/-- A new accumulator window of a group (R148): for the issuing sub-core's instructions it holds from the third clk on, as a
write to a special register does; groups of other sub-cores are on no common count of clks with it (log 68). -/
def State.setWindow (s : State) (h : Group) (v : Dword) : State :=
  if h.sub = s.grp.sub then s.onGroup h.gid fun g => { g with specials := g.specials ++ [{ num := 64, value := v, age := 0 }] }
  else s.onGroup h.gid fun g => { g with awb := (v.extractLsb' 0 11).toNat, awl := (v.extractLsb' 16 11).toNat }

/-- ACC_WIN (R148). -/
def execAccWin (w : UniShort) (e : EA) (s : State) : Out :=
  uniform w.g e.gn 8 s fun s =>
    let v := s.grp.uniGet w.b.toNat
    let base := (v.extractLsb' 0 11).toNat
    let limit := (v.extractLsb' 16 11).toNat
    let n := (s.grp.uniGet w.a.toNat).toNat
    let key := teamOf s.grp.gid
    if s.grp.gid % 32 ≠ 0 then s.fault causeProtection
    else
      match if n < 32 then s.group? (32 * key + n) else none with
      | none => s.fault causeWindow
      | some h =>
        if limit < base ∨ 1024 < limit ∨ !(s.engine h.engineKey).holdsRows key base limit then s.fault causeWindow
        else (s.setWindow h v).done 8

/-- The pool of an engine, ascending (R146). -/
def Engine.pool (e : Engine) : List Nat := (List.range 16).filter fun t => (e.tile t).team.isNone

/-- A tile granted to a team: it clears, its token on the matrix side (R145, R146). -/
def Engine.grant (e : Engine) (team : Nat) (alloc : Bool) (ts : List Nat) : Engine :=
  ts.foldl
    (fun e t => e.onTile t fun _ => { team := some team, alloc := alloc, token := .matrix, waiters := [], clearing := true })
    e

/-- ACC_ALLOC (R146, R148). -/
def execAccAlloc (w : UniShort) (e : EA) (s : State) : Out :=
  uniform w.g e.gn 8 s fun s =>
    let n := (s.regOrImm w).toNat
    let k := s.grp.engineKey
    let pool := (s.engine k).pool
    if n = 0 ∨ 16 < n ∨ pool.length < n then (s.onGrp fun g => g.uniSet w.d.toNat 0).done 8
    else
      let ts := pool.take n
      let mask := ts.foldl (fun m t => m + 2 ^ t) 0
      ((s.onEngine k fun x => x.grant (teamOf s.grp.gid) true ts).onGrp fun g =>
        g.uniSet w.d.toNat (BitVec.ofNat 64 mask)).done 8

/-- ACC_FREE (R146, R148): it waits for the steps accepted on the tile and for its clearing. -/
def execAccFree (w : UniShort) (e : EA) (s : State) : Out :=
  uniform w.g e.gn 8 s fun s =>
    let k := s.grp.engineKey
    let t := s.accTile w
    let tl := s.tile t
    if tl.team ≠ some (teamOf s.grp.gid) ∨ !tl.alloc then s.fault causeProtection
    else if s.groups.any fun g => g.engineKey == k && g.inWindow t then s.fault causeWindow
    else if tl.token ≠ .matrix then s.fault causeToken
    else if tl.clearing || (s.engine k).steps.any fun st => st.lead.e.tile.toNat == t then s.stay (.freeing t)
    else (s.onEngine k fun x => { x with tiles := eraseKey x.tiles t }).done 8

/-! ### lda and sta (R149) -/

/-- The checks of R149 over the lanes of an access, in their order. -/
def State.accCheck (s : State) (as : List Nat) : Option Nat :=
  let g := s.grp
  if as.any fun a => a % 4 != 0 then some causeMisaligned
  else if as.any fun a => decide (262144 ≤ a) || decide (a / 256 < g.awb) || decide (g.awl ≤ a / 256) then some causeWindow
  else if as.any fun a => !(s.tile (a / 0x4000)).heldBy g.gid then some causeToken
  else none

/-- The accumulator addresses of the lanes of a mask. -/
def State.accAddrs (s : State) (w : LaneShort) (e : EM) (m : Mask) : List (Nat × Nat) :=
  (lanesOf m).map fun l => (l, (s.grp.addr w e.c 4 e.offset.toNat l).toNat)

/-- The place of an accumulator byte of the issuing group's engine. -/
def State.accPiece (s : State) (a : Nat) : Piece :=
  { loc := ⟨3, s.grp.engineKey * 2 ^ 18 + a⟩, len := 4, cached := false, entry := none }

/-- LDA (R149). -/
def execLda (w : LaneShort) (e : EM) (s : State) : Out :=
  lanes (regsD w ++ regsAddr w) w.g e.gn false 8 s fun m s =>
    let xs := s.accAddrs w e m
    if !s.pipeOpen then s.stay .behind else
    match s.accCheck (xs.map (·.2)) with
    | some c => s.faultIn c m
    | none =>
      let (s, rs) := s.loadLanes (xs.map fun x => (x.1, [s.accPiece x.2]))
      (s.onGrp fun g => g.laneResult w.d.toNat w.nw false true rs).done 8

/-- STA (R149, R150, R158). -/
def execSta (w : LaneShort) (e : EM) (s : State) : Out :=
  lanes (regsData w ++ regsAddr w) w.g e.gn (e.sem == .rel) 8 s fun m s =>
    let xs := s.accAddrs w e m
    let bs := (s.engine s.grp.engineKey).bindings
    if !s.pipeOpen then s.stay .behind else
    match s.accCheck (xs.map (·.2)) with
    | some c => s.faultIn c m
    | none =>
      if xs.any fun x => bs.any fun b => b.isList (x.2 / 0x4000) then s.faultIn causeProtection m
      else
        s.storeLanes e.ord e.sem e.scope 8
          (xs.map fun x => (x.1, [s.accPiece x.2], leBytes 4 (s.grp.memData w false x.1).toNat))

/-! ### The engine's events on tiles -/

/-- An engine's tile reads +0 in every row (R146). -/
def State.zeroTile (s : State) (k t : Nat) : State :=
  { s with accMem := s.accMem.filter fun e => !(e.1 / 0x4000 == 16 * k + t) }

/-- TILE_CLEAR_DONE (R146). -/
def execTileClearDone (core eng tile : Nat) (s : State) : Out :=
  let k := 2 * core + eng
  if ((s.engine k).tile tile).clearing then
    .next ((s.zeroTile k tile).onEngine k fun e => e.onTile tile fun t => { t with clearing := false })
  else .next s

/-- The splits of a group that wait for the token of a tile complete their `acc.acq` (R147). -/
def Group.wakeToken (t : Nat) (g : Group) : Group :=
  g.onSplits fun p => if p.status = .waiting (.token t) then { p with pc := p.pc + 8, status := .run } else p

/-- Nothing accepted on a tile before turn `since` has still to be written. -/
def Engine.tileQuiet (e : Engine) (t since : Nat) : Bool :=
  !(e.tile t).clearing
  && e.steps.all fun st =>
      !((st.lead.e.tile.toNat == t && decide (st.id < since)) || (st.finPhase && (e.finTiles st).contains t))

/-- TOKEN_GRANT (R147): the waiting group holds the token, and its `acc.acq` completes. -/
def execTokenGrant (core eng tile : Nat) (s : State) : Out :=
  let k := 2 * core + eng
  let e := s.engine k
  match (e.tile tile).token with
  | .waiting g since =>
    if e.tileQuiet tile since then
      .next ((s.onEngine k fun e => e.onTile tile fun t => { t with token := .held g }).onGroup g (Group.wakeToken tile))
    else .next s
  | _ => .next s

/-- TOKEN_HANDOFF (R147, R150): a released token passes on once its holder's ordered writes have landed. -/
def execTokenHandoff (core eng tile : Nat) (s : State) : Out :=
  let k := 2 * core + eng
  match ((s.engine k).tile tile).token with
  | .releasing g =>
    if s.heldTileWrites k g tile then .next s else .next (s.onEngine k fun e => e.onTile tile Tile.pass)
  | _ => .next s

end Sys2Proof.Machine
end

