-- ==== Sys2Proof/Machine/Ranked.lean ====
section
/-!
DEFINITION. Ranked lists (R153 to R157), their bindings and threshold domains (R158, R165, R166): the order of pairs, a list
in accumulator rows, offering candidates, and publication.
-/
namespace Sys2Proof.Machine

/-! ### The order (R155) -/

/-- The number of entries of a list (R153). -/
def listCap (cap : Nat) : Nat := 32 * 2 ^ cap - 2

/-- The float format of a value type: 0 f32, 1 bf16. -/
def vtKind (vt : Nat) : FKind := if vt = 1 then .bf16 else .f32

/-- The pattern of a value within its word. -/
def vtPattern (vt : Nat) (v : Word) : Nat := if vt = 1 then v.toNat % 2 ^ 16 else v.toNat

/-- A value that is a NaN. -/
def vtNan (vt : Nat) (v : Word) : Bool := vt != 2 && ((vtKind vt).decode 0 (vtPattern vt v)).isNan

/-- A value as a list stores it: -0 as +0, a bf16 value in the low half. -/
def vtStore (vt : Nat) (v : Word) : Word :=
  if vt = 2 then v
  else if ((vtKind vt).decode 0 (vtPattern vt v)).isZero then 0
  else BitVec.ofNat 32 (vtPattern vt v)

/-- The order of two values that are no NaN. -/
def vtCmp (vt : Nat) (a b : Word) : Ordering :=
  if vt = 2 then compare a.toInt b.toInt
  else (((vtKind vt).decode 0 (vtPattern vt a)).cmp ((vtKind vt).decode 0 (vtPattern vt b))).getD .eq

/-- The key of the first pair ranks above that of the second. -/
def ranksAbove (vt : Nat) (a b : Word × Word) : Bool :=
  match vtCmp vt a.1 b.1 with
  | .gt => true
  | .eq => decide (a.2.toNat < b.2.toNat)
  | .lt => false

/-- Two pairs have one key. -/
def sameKey (vt : Nat) (a b : Word × Word) : Bool := vtCmp vt a.1 b.1 == .eq && a.2 == b.2

/-- The value of the bottom entry (R154). -/
def bottomValue (vt : Nat) : Word := if vt = 2 then 0x80000000 else if vt = 1 then 0x0000FF80 else 0xFF800000

/-- The index no candidate has. -/
abbrev noIndex : Word := 0xFFFFFFFF

/-! ### A list (R153 to R156) -/

/-- A ranked list: its value type and capacity code, NANS and its entries in descending key order. -/
structure Ranked where
  vt : Nat
  cap : Nat
  nans : Nat
  entries : List (Word × Word)
  deriving DecidableEq, Repr

/-- A NaN counted, up to the cap of NANS. -/
def capNans (n : Nat) : Nat := min n 0xFFFFFFFF

/-- A list after a candidate has been offered to it. -/
def Ranked.offer (r : Ranked) (v i : Word) : Ranked :=
  if vtNan r.vt v then { r with nans := capNans (r.nans + 1) }
  else if i = noIndex then r
  else
    let c := (vtStore r.vt v, i)
    if r.entries.any (sameKey r.vt c) then r
    else { r with entries := (insertBy (ranksAbove r.vt) c r.entries).take (listCap r.cap) }

/-- The threshold entry. -/
def Ranked.threshold (r : Ranked) : Word × Word :=
  if r.entries.length = listCap r.cap then (r.entries.getLast?).getD (bottomValue r.vt, noIndex) else (bottomValue r.vt, noIndex)

/-- The list is full, and only then has a threshold to publish. -/
def Ranked.full (r : Ranked) : Bool := r.entries.length == listCap r.cap

/-- The bytes of a list or of its image in memory. -/
def Ranked.bytes (r : Ranked) : List Byte :=
  let k := listCap r.cap
  let t := r.threshold
  leBytes 4 (r.entries.length * 2 ^ 8 + r.cap * 4 + r.vt) ++ leBytes 4 r.nans ++ leBytes 4 t.1.toNat ++ leBytes 4 t.2.toNat
  ++ (r.entries.flatMap fun e => leBytes 4 e.1.toNat ++ leBytes 4 e.2.toNat)
  ++ ((List.range (k - r.entries.length)).flatMap fun _ => leBytes 4 0 ++ leBytes 4 noIndex.toNat)

/-- `n` entries of a byte string. -/
def entriesOf (bs : List Byte) (n : Nat) : List (Word × Word) :=
  (List.range n).map fun e => (BitVec.ofNat 32 (leNat ((bs.drop (8 * e)).take 4)), BitVec.ofNat 32 (leNat ((bs.drop (8 * e + 4)).take 4)))

/-- A list with nothing offered. -/
def Ranked.empty (vt cap : Nat) : Ranked := { vt := vt, cap := cap, nans := 0, entries := [] }

/-- The list that begins at a row of an engine, of a binding's value type and capacity. -/
def State.listAt (s : State) (k row : Nat) (b : Binding) : Ranked :=
  let l := accLoc k row 0
  let n := (s.homeGet (l.plus 1)).toNat
  { vt := b.vt, cap := b.cap, nans := leNat (s.homeBytes (l.plus 4) 4), entries := entriesOf (s.homeBytes (l.plus 16) (8 * n)) n }

/-- A list written at a row of an engine. -/
def State.putList (s : State) (k row : Nat) (r : Ranked) : State := s.homeStore (accLoc k row 0) r.bytes

/-- The binding that has a list whose first row is `row` (R158, R163). -/
def Engine.listBinding (e : Engine) (row : Nat) : Option Binding :=
  e.bindings.find? fun b =>
    decide (64 * b.lt ≤ row) && decide (row < 64 * (b.lt + listTiles b.cap)) && (row - 64 * b.lt) % listTiles b.cap == 0

/-! ### Threshold domains (R165, R166) -/

/-- The key of a domain of a cluster. -/
def domainKey (cluster dom : Nat) : Nat := 16 * cluster + dom

/-- A domain; one nothing has set is empty. -/
def State.domain (s : State) (key : Nat) : Domain := (lookupKey s.domains key).getD { kind := none, top := none }

/-- The cluster of a team. -/
def State.clusterOf (s : State) (team : Nat) : Nat := ((s.team? team).map (·.cluster)).getD 0

/-- A threshold entry published to the domain of a binding, which keeps the maximum. -/
def State.publish (s : State) (b : Binding) (t : Word × Word) : State :=
  match b.dom with
  | none => s
  | some d =>
    let key := domainKey (s.clusterOf b.team) d
    let x := s.domain key
    let top := match x.top with
      | none => t
      | some u => if ranksAbove b.vt t u then t else u
    { s with domains := insertKey s.domains key { x with top := some top } }

/-- The value `%thr` takes from a domain. -/
def Domain.thr (d : Domain) : Dword :=
  match d.top with
  | none => 0xFFFFFFFFFF800000
  | some t => t.2 ++ t.1

/-- A domain cleared, and with it what the groups bound to it read (R165). -/
def State.clearDomain (s : State) (cluster dom : Nat) : State :=
  let bound := (s.groups.filter fun g => g.domain == some dom && s.clusterOf (teamOf g.gid) == cluster).map (·.gid)
  let s := { s with domains := eraseKey s.domains (domainKey cluster dom) }
  s.onGroups fun g => if bound.contains g.gid then { g with thr := 0xFFFFFFFFFF800000 } else g

/-- THR_UPDATE (R166): a bound group's `%thr` takes the domain's maximum. -/
def execThrUpdate (gid : Nat) (s : State) : Out :=
  match s.group? gid with
  | none => .next s
  | some g =>
    match g.domain with
    | none => .next s
    | some d =>
      let v := (s.domain (domainKey (s.clusterOf (teamOf gid)) d)).thr
      .next (s.onGroup gid fun g => { g with thr := v })

/-! ### rkcfg (R158 to R160) -/

/-- The parameter and control fields of `rkcfg`. -/
structure ListConfig where
  nl : Bool
  vt : Nat
  cap : Nat
  st : Nat
  lt : Nat
  gb : Bool
  unb : Bool
  dclr : Bool
  lb : Bool
  dom : Nat
  deriving DecidableEq, Repr

/-- The fields of an `rkcfg` from its parameter and s(a). -/
def listConfig (imm : BitVec 16) (a : Dword) : ListConfig :=
  { nl := imm.getLsbD 15, vt := (imm.extractLsb' 10 2).toNat, cap := (imm.extractLsb' 8 2).toNat
    st := (imm.extractLsb' 4 4).toNat, lt := (imm.extractLsb' 0 4).toNat, gb := a.getLsbD 7, unb := a.getLsbD 6
    dclr := a.getLsbD 5, lb := a.getLsbD 4, dom := (a.extractLsb' 0 4).toNat }

/-- Check 1 of R160. -/
def ListConfig.fieldsOk (c : ListConfig) : Bool :=
  c.cap != 3 && c.vt != 3 && !(c.nl && (c.lt != 0 || c.st != 0 || c.cap != 0 || c.vt != 0 || c.unb || c.lb))

/-- m of the form: with UNB that of the binding named, where there is one. -/
def ListConfig.m (c : ListConfig) (bs : List Binding) : Nat :=
  match (if c.unb then bs.find? fun b => b.lt == c.lt else none) with
  | some b => listTiles b.cap
  | none => listTiles c.cap

/-- The tiles R160 checks. -/
def ListConfig.tiles (c : ListConfig) (bs : List Binding) : List Nat :=
  if c.nl then []
  else ((List.range (c.m bs)).map fun i => c.lt + i) ++ if c.unb then [] else [c.st]

/-- Check 4 of R160: what makes it fail. -/
def State.configBlocked (s : State) (k team : Nat) (c : ListConfig) : Bool :=
  let e := s.engine k
  let bs := e.bindings
  let m := c.m bs
  let ts := c.tiles bs
  let kind := (s.domain (domainKey (s.clusterOf team) c.dom)).kind
  (!c.nl && (c.lt % m != 0 || decide (16 < c.lt + m)))
  || (!c.nl && !c.unb && decide (c.lt ≤ c.st) && decide (c.st < c.lt + m))
  || (bs.any fun b => !(b.lt == c.lt && (c.unb || b.st == c.st)) && ts.any fun t => b.isList t || b.st == t)
  || (e.steps.any fun st => ts.contains st.lead.e.tile.toNat || (st.lead.e.fin && (e.finTiles st).any ts.contains))
  || (e.merges.any fun x => ts.contains (x.row / 64))
  || ((c.lb || (c.gb && !c.nl)) && (match kind with | none => false | some x => x != (c.vt, c.cap)))

/-- The lists of a set written empty, and its staging tile cleared. -/
def State.resetLists (s : State) (k : Nat) (c : ListConfig) : State :=
  let m := listTiles c.cap
  let s := (List.range 64).foldl (fun s i => s.putList k (64 * c.lt + m * i) (Ranked.empty c.vt c.cap)) s
  s.zeroTile k c.st

/-- The effects of an `rkcfg` whose checks pass, in their order. DESIGN CHOICE (log 130): with UNB = 1, LB has nothing to bind
and is ignored: it neither binds a set nor sets the domain's VT and CAP. -/
def State.configure (s : State) (k team : Nat) (c : ListConfig) (b : Dword) : State :=
  let cluster := s.clusterOf team
  let key := domainKey cluster c.dom
  let s := if c.dclr then s.clearDomain cluster c.dom else s
  let drop (e : Engine) : Engine := { e with bindings := e.bindings.filter fun x => x.lt != c.lt }
  let new : Binding :=
    { team := team, lt := c.lt, st := c.st, cap := c.cap, vt := c.vt, cbase := b.extractLsb' 0 32, cstep := b.extractLsb' 32 32
      dom := if c.lb then some c.dom else none }
  let s :=
    if c.unb then s.onEngine k drop
    else if c.nl then s
    else (s.resetLists k c).onEngine k fun e => { drop e with bindings := (drop e).bindings ++ [new] }
  let x := s.domain key
  let s :=
    if c.lb && !c.unb && x.kind.isNone then { s with domains := insertKey s.domains key { x with kind := some (c.vt, c.cap) } }
    else s
  if c.gb then
    let v := (s.domain key).thr
    s.onGrp fun g => { g with domain := some c.dom, thr := v }
  else s

/-- The class under which a group keeps its configurations under way (R160). -/
abbrev configClass : Nat := 9

/-- RKCFG (R159, R160): its steps are done at issue, and the split waits for their end. DESIGN CHOICE (log 131): a list tile
above 15 is a tile the team does not hold, so that tiles that run past tile 15 take ACC_WINDOW, by check 2, before check 4. -/
def execRkcfg (w : UniShort) (e : EA) (s : State) : Out :=
  uniform w.g e.gn 8 s fun s =>
    let g := s.grp
    let mine (o : EngineOp) : Bool := o.cls == configClass && o.id == g.spl.num
    match g.counters.find? mine with
    | some o =>
      if o.finished then (s.onGrp fun g => { g with counters := g.counters.filter fun o => !mine o }).done 8 else s.stay .engine
    | none =>
      let k := g.engineKey
      let team := teamOf g.gid
      let c := listConfig e.imm (g.uniGet w.a.toNat)
      let ts := c.tiles (s.engine k).bindings
      if !c.fieldsOk then s.fault causeIllegal
      else if ts.any fun t => ((s.engine k).tile t).team != some team || decide (64 * t < g.awb) || decide (g.awl < 64 * t + 64) then
        s.fault causeWindow
      else if ts.any fun t => !((s.engine k).tile t).heldBy g.gid then s.fault causeToken
      else if s.configBlocked k team c then s.fault causeProtection
      else
        ((s.configure k team c (g.uniGet w.b.toNat)).onGrp fun g => g.opStart configClass g.spl.num).stay .engine

/-- The configurations a group has under way are finished, and the splits that wait for them ready. -/
def Group.endConfigs (g : Group) : Group :=
  let g := { g with counters := g.counters.map fun (o : EngineOp) => if o.cls = configClass then { o with finished := true } else o }
  g.onSplits fun p => if p.status = .waiting .engine then { p with status := .run } else p

/-- RKCFG_COMPLETE (R160). -/
def execRkcfgComplete (gid : Nat) (s : State) : Out := .next (s.onGroup gid Group.endConfigs)

/-! ### rkrd and rkmrg (R163, R164) -/

/-- RKRD (R163). -/
def execRkrd (w : UniShort) (e : EA) (s : State) : Out :=
  if s.grp.frameSize ≤ w.d.toNat + 1 then s.fault causeIllegal
  else
    uniform w.g e.gn 8 s fun s =>
      let g := s.grp
      let k := g.engineKey
      let row := ((g.uniGet w.a.toNat).extractLsb' 0 10).toNat
      match (s.engine k).listBinding row with
      | none => s.fault causeProtection
      | some b =>
        if row < g.awb ∨ g.awl ≤ row then s.fault causeWindow
        else if !(s.tile (row / 64)).heldBy g.gid then s.fault causeToken
        else
          let r := s.listAt k row b
          let m := g.spl.mask
          (s.onGrp fun g =>
            let h := (lanesOf m).foldl
              (fun g l =>
                let x := (r.entries[(e.imm.extractLsb' 0 7).toNat + l]?).getD (0, noIndex)
                (g.laneSet w.d.toNat l x.1).laneSet (w.d.toNat + 1) l x.2)
              g
            (h.pendLane g w.d.toNat m false).pendLane g (w.d.toNat + 1) m false).done 8

/-- The header of a list image that `rkmrg` accepts for a value type (R164). -/
def imageHeaderOk (vt : Nat) (bs : List Byte) : Bool :=
  let h := leNat (bs.take 4)
  let cap := h / 4 % 4
  cap != 3 && h % 4 == vt && decide (h / 2 ^ 8 % 2 ^ 8 ≤ listCap cap) && h / 16 % 16 == 0 && h / 2 ^ 16 == 0

/-- `8 n` bytes of entries behind a header, each placed by itself. -/
def State.placeEntries (s : State) (sp : Space) (a : Dword) (n : Nat) : List Place :=
  (List.range n).map fun i => s.place .read sp 0 (a + BitVec.ofNat 64 (16 + 8 * i)) 8

/-- A merge at its engine: accepted at once with fewer than 4 accepted and none waiting, else the split waits for its
acceptance. -/
def State.sendMerge (s : State) (k : Nat) (x : Merge) : Out :=
  let e := s.engine k
  if e.mergesWaiting.isEmpty && decide (e.merges.length < 4) then
    ((s.onEngine k fun e => { e with merges := e.merges ++ [x] }).onGrp fun g => g.opStart 2 x.id).done 8
  else (s.onEngine k fun e => { e with mergesWaiting := e.mergesWaiting ++ [x] }).stay .merge

/-- RKMRG (R164). -/
def execRkmrg (w : UniShort) (e : EM) (s : State) : Out :=
  uniform w.g e.gn 8 s fun s =>
    let g := s.grp
    let k := g.engineKey
    let mask := g.spl.mask
    let row := ((g.uniGet w.a.toNat).extractLsb' 0 10).toNat
    let a := g.uniAddr e 4
    if (s.engine k).mergesWaiting.any fun x => x.gid == g.gid && x.sp == g.spl.num then s.stay .merge
    else if a.toNat % 16 ≠ 0 then s.fault causeMisaligned
    else
      s.gatherGroup .read mask [s.place .read e.space 0 a 16] fun s rows =>
        let (s, bs) := s.loadPieces (rows.flatMap id)
        match (s.engine k).listBinding row with
        | none => s.fault causeProtection
        | some b =>
          if row < g.awb ∨ g.awl ≤ row then s.fault causeWindow
          else if !imageHeaderOk b.vt bs then s.fault causeProtection
          else
            let n := leNat (bs.take 4) / 2 ^ 8 % 2 ^ 8
            s.gatherGroup .read mask (s.placeEntries e.space a n) fun s rows =>
              let (s, es) := s.loadPieces (rows.flatMap id)
              if !s.grp.opRoom 2 then s.stay .counter
              else
                let s := if e.sem = .acq then s.acquire e.scope else s
                s.sendMerge k
                  { id := s.turn, gid := g.gid, sp := g.spl.num, row := row, head := bs, entries := entriesOf es n }

/-- MERGE_ACCEPT (R164). -/
def execMergeAccept (core eng : Nat) (s : State) : Out :=
  let k := 2 * core + eng
  match (s.engine k).mergesWaiting with
  | [] => .next s
  | x :: rest =>
    if 4 ≤ (s.engine k).merges.length then .next s
    else
      let id := s.turn
      let s := s.onEngine k fun e => { e with mergesWaiting := rest, merges := e.merges ++ [{ x with id := id }] }
      .next (s.within x.gid x.sp fun s => (s.onGrp fun g => g.opStart 2 id).advance 8)

/-- A merge may run: no earlier step or merge on its list's tiles is left, and no group holds their token (R164). -/
def Engine.mergeFree (e : Engine) (x : Merge) : Bool :=
  let t := x.row / 64
  let list (r : Nat) : Bool :=
    r == t || e.bindings.any fun b => b.isList t && b.isList r
  (e.tile t).token.lets x.id
  && e.steps.all (fun st => !(decide (st.id < x.id) && (list st.lead.e.tile.toNat || (st.lead.e.fin && (e.finTiles st).contains t))))
  && (e.merges.takeWhile fun y => y != x).all fun y => !list (y.row / 64)

/-- Every entry of an image offered, its NaNs added (R157, R164). -/
def Ranked.merge (r : Ranked) (x : Merge) : Ranked :=
  let r := x.entries.foldl (fun (r : Ranked) c => r.offer c.1 c.2) r
  { r with nans := capNans (r.nans + leNat ((x.head.drop 4).take 4)) }

/-- MERGE_COMPLETE (R164, R166): the first merge that can runs; a full list publishes once. -/
def execMergeComplete (core eng : Nat) (s : State) : Out :=
  let k := 2 * core + eng
  let e := s.engine k
  match e.merges.find? fun x => e.mergeFree x && !s.halted (s.partition x.gid) with
  | none => .next s
  | some x =>
    let s := (s.onEngine k fun e => { e with merges := e.merges.filter fun y => y != x }).onGroup x.gid fun g => g.opDoneId 2 x.id
    match e.listBinding x.row with
    | none => .next s
    | some b =>
      let r := (s.listAt k x.row b).merge x
      let s := s.putList k x.row r
      .next (if r.full then s.publish b r.threshold else s)

/-! ### The fin phase (R162) -/

/-- A staging row's 64 values offered to a list, as columns from CBASE on. -/
def State.offerRow (s : State) (k row : Nat) (b : Binding) (r : Ranked) : Ranked :=
  (List.range 64).foldl
    (fun (r : Ranked) j =>
      let v := leNat (s.homeBytes (accLoc k row j) 4)
      let v := if b.vt = 1 then FKind.bf16.round plainEnv (FKind.f32.decode 0 v) else v
      r.offer (BitVec.ofNat 32 v) (b.cbase + BitVec.ofNat 32 j))
    r

/-- A row of the fin phase: its offers, its clearing, and its list's publication where its threshold has risen. -/
def State.finRow (s : State) (k : Nat) (b : Binding) (q : Nat) : State :=
  let row := 64 * b.st + q
  let at_ := 64 * b.lt + listTiles b.cap * q
  let old := s.listAt k at_ b
  let new := s.offerRow k row b old
  let s := (s.putList k at_ new).homeStore (accLoc k row 0) (List.replicate 256 0)
  if new.full && new.threshold != old.threshold then s.publish b new.threshold else s

/-- FIN_PHASE_END (R162). -/
def execFinPhaseEnd (core eng : Nat) (s : State) : Out :=
  let k := 2 * core + eng
  match (s.engine k).steps.find? (·.finPhase) with
  | none => .next s
  | some st =>
    if s.halted (s.partition st.lead.gid) then .next s
    else
      let s := (s.onEngine k fun e => { e with steps := e.steps.filter fun x => x != st }).countStep st
      match (s.engine k).bindings.find? fun b => b.st == st.lead.e.tile.toNat with
      | none => .next s
      | some b =>
        let s := (List.range (stepRows st.lead.e)).foldl (fun s i => s.finRow k b (st.lead.e.row.toNat + i)) s
        .next (s.onEngine k fun e =>
          { e with bindings := e.bindings.map fun x => if x = b then { b with cbase := b.cbase + b.cstep } else x })

/-! ### Candidates in lanes (R167, R168) -/

/-- The value type that the type code t names. -/
def vtOf (t : Ty) : Nat :=
  match t with
  | .bf16 => 1
  | .b32 => 2
  | _ => 0

/-- RKADM (R167). -/
def execRkadm (w : LaneShort) (e : EA) (s : State) : Out :=
  lanes (regsA w ++ regsB w false) w.g e.gn false 8 s fun m s =>
    let g := s.grp
    let vt := vtOf e.t
    let thr : Word × Word := (g.thr.extractLsb' 0 32, g.thr.extractLsb' 32 32)
    let ok (l : Nat) : Bool :=
      let v := (g.srcA w false l).extractLsb' 0 32
      let i := (g.srcB w false l).extractLsb' 0 32
      (!vtNan vt v && i != noIndex && (thr.2 == noIndex || ranksAbove vt (v, i) thr)) ^^ e.imm.getLsbD 0
    (s.lanePred w.d.toNat m (maskOf ((lanesOf m).filter ok))).pushZero.done 8

/-- A lane list after a candidate, with the slot it takes (R168): entries behind the first empty one count as empty. -/
def laneInsert (vt : Nat) (es : List (Word × Word)) (v i : Word) : List (Word × Word) × Word :=
  let live := es.takeWhile fun x => x.2 != noIndex
  if vtNan vt v || i == noIndex || live.any (sameKey vt (v, i)) then (es, noIndex)
  else
    let c := (vtStore vt v, i)
    let n := (live.takeWhile fun x => !ranksAbove vt c x).length
    if n = es.length then (es, noIndex) else ((es.take n ++ c :: es.drop n).take es.length, BitVec.ofNat 32 n)

/-- RKINS (R168). -/
def execRkins (w : LaneShort) (e : EA) (s : State) : Out :=
  let k := (e.imm.extractLsb' 0 4).toNat
  let np := (e.imm.extractLsb' 4 3).toNat
  lanes (regsA w ++ regsB w false ++ (List.range (2 * k)).map fun i => w.d.toNat + i) w.g e.gn false 8 s fun m s =>
    let g := s.grp
    let vt := vtOf e.t
    let value (l : Nat) : Word := (g.srcA w false l).extractLsb' 0 32
    let entry (l i : Nat) : Word × Word := (g.laneGet (w.d.toNat + 2 * i) l, g.laneGet (w.d.toNat + 2 * i + 1) l)
    let res (l : Nat) : List (Word × Word) × Word :=
      laneInsert vt ((List.range k).map (entry l)) (value l) ((g.srcB w false l).extractLsb' 0 32)
    let rs := (lanesOf m).map fun l => (l, res l)
    let s := s.onGrp fun g =>
      let h := rs.foldl
        (fun g r => r.2.1.zipIdx.foldl
          (fun g x => (g.laneSet (w.d.toNat + 2 * x.2) r.1 x.1.1).laneSet (w.d.toNat + 2 * x.2 + 1) r.1 x.1.2) g)
        g
      (List.range (2 * k)).foldl (fun h i => h.pendLane g (w.d.toNat + i) m false) h
    let s := if np = 0 then s else s.lanePred np m (maskOf ((lanesOf m).filter fun l => vtNan vt (value l)))
    (s.onGrp fun g => g.pushLatch (latchOf (rs.map fun r => (r.1, r.2.2.setWidth 64)))).done 8

end Sys2Proof.Machine
end

