-- ==== Sys2Proof/Machine/Special.lean ====
section
/-!
DEFINITION. The approximate special functions (R115, R116). The spec gives the error each may make and not its bits:
the result is a free pattern of Config, taken where it lies within that error of the function's value, which is computed
here in fixed point with 300 fraction bits, and the correctly rounded value otherwise (log 8).
-/
namespace Sys2Proof.Machine.Special

/-- 1 in fixed point. -/
def one : Int := 2 ^ 300
/-- A product in fixed point. -/
def mul (a b : Int) : Int := a * b / one

/-- `n` terms of e^x from term `k` on, `t` the next term. -/
def expTerms : Nat → Nat → Int → Int → Int → Int
  | 0, _, _, _, acc => acc
  | n + 1, k, x, t, acc => expTerms n (k + 1) x (mul t x / k) (acc + t)

/-- e^x. -/
def exp (x : Int) : Int := expTerms 220 1 x one 0

/-- ln 2. -/
def ln2 : Int := (List.range 300).foldl (fun (a : Int) (k : Nat) => a + one / (((k + 1) * 2 ^ (k + 1) : Nat) : Int)) 0

/-- The artanh series of z, `n` terms, `p` the next power. -/
def artanhTerms : Nat → Nat → Int → Int → Int → Int
  | 0, _, _, _, acc => acc
  | n + 1, k, zz, p, acc => artanhTerms n (k + 2) zz (mul p zz) (acc + p / k)

/-- log2 of a positive dyadic m·2^e. -/
def log2 (m : Nat) (e : Int) : Int :=
  let b := Nat.log2 m
  let f : Int := (m * 2 ^ 300 / 2 ^ b : Nat)
  let z := (f - one) * one / (f + one)
  (e + b) * one + 2 * artanhTerms 110 1 (mul z z) z 0 * one / ln2

/-- arctan(1/n). -/
def arctanInv (n : Nat) : Int :=
  (List.range 80).foldl
    (fun (a : Int) (k : Nat) =>
      let t : Int := one / ((n ^ (2 * k + 1) * (2 * k + 1) : Nat) : Int)
      if k % 2 = 0 then a + t else a - t)
    0

/-- π. -/
def pi : Int := 16 * arctanInv 5 - 4 * arctanInv 239

/-- The alternating series of sine (from `k` = 1) and cosine (from `k` = 0). -/
def sinTerms : Nat → Nat → Int → Int → Int → Int
  | 0, _, _, _, acc => acc
  | n + 1, k, xx, t, acc => sinTerms n (k + 2) xx (-(mul t xx) / ((k + 1) * (k + 2))) (acc + t)

/-- An angle brought into [0, 2π). -/
def angle (x : Int) : Int := x % (2 * pi)

/-- The value of a function at a finite source ±m·2^e, as n·2^q. -/
def value (minor : Nat) (s : Bool) (m : Nat) (e : Int) : Int × Int :=
  let x : Int := scaled s m e (-300)
  match minor with
  | 1 =>
    -- 1/√(m·2^e), with an even exponent under the root
    let m' : Nat := if e % 2 = 0 then m else 2 * m
    let e' : Int := if e % 2 = 0 then e else e - 1
    ((isqrt (2 ^ 600 / m') : Nat), -300 - e' / 2)
  | 3 =>
    let y := if x < -200 * one then -200 * one else if 200 * one < x then 200 * one else x
    (exp (mul (y % one) ln2), y / one - 300)
  | 4 => (log2 m e, -300)
  | 5 => let a := angle x; (sinTerms 160 1 (mul a a) a 0, -300)
  | 6 => let a := angle x; (sinTerms 160 0 (mul a a) one 0, -300)
  | _ =>
    let y := exp (-2 * (x.natAbs : Int))
    let t := (one - y) * one / (one + y)
    (if s then -t else t, -300)

/-- The dyadic n·2^q. -/
def dyadic (v : Int × Int) : FVal := ofScaled false v.1 v.2

/-- |v − x| ≤ c·2^b for a finite v. -/
def within (v : FVal) (x : Int × Int) (c : Nat) (b : Int) : Bool :=
  match v with
  | .fin s m e =>
    let q := min e (min x.2 b)
    let d := (if m = 0 then 0 else scaled s m e q) - x.1 * 2 ^ (x.2 - q).toNat
    decide (d.natAbs ≤ c * 2 ^ (b - q).toNat)
  | _ => false

/-- The exponent of an ulp of an f32 pattern. -/
def ulpExp (p : Nat) : Int := (max 1 (p / 2 ^ 23 % 256) : Nat) - 150

/-- The approximate f32 result at a finite source that R116 does not fix, as a pattern. -/
def approx (minor src : Nat) (ftz s : Bool) (m : Nat) (e : Int) : Nat :=
  let x := value minor s m e
  let near := FKind.f32.round { rnd := .rne, ftz := false, cnan := false, sat := false, draw := 0, x := 0 } (dyadic x)
  let free := Config.approx minor 0 src ftz % 2 ^ 32
  let v := FKind.f32.decode 0 free
  let ulp := ulpExp near
  let ok :=
    match minor with
    | 1 => within v x 1 ulp
    | 3 => near % 2 ^ 31 < 2 ^ 23 || within v x 2 ulp
    | 4 =>
      -- 0.5 ≤ a ≤ 2
      if 0 ≤ scaled false m e (-300) * 2 - one ∧ scaled false m e (-300) ≤ 2 * one then within v x 1 (-22)
      else within v x 2 ulp
    | 5 | 6 => within v x 1 (-21)
    | _ => within v x 2 ulp
  if ok then free else near

/-- The f32 value that an approximate function gives for an f32 value (R115, R116); `src` is its pattern. -/
def f32Value (minor src : Nat) (ftz : Bool) (a : FVal) : FVal :=
  match a with
  | .nan s f => .nan s (if f / 2 ^ 51 % 2 = 1 then f else f + 2 ^ 51)
  | .inf s =>
    match minor with
    | 1 => if s then .invalid else .fin false 0 0
    | 3 => if s then .fin false 0 0 else .inf false
    | 4 => if s then .invalid else .inf false
    | 5 | 6 => .invalid
    | _ => .fin s 1 0
  | .fin s m e =>
    if m = 0 then
      match minor with
      | 1 => .inf s
      | 3 | 6 => .fin false 1 0
      | 4 => .inf true
      | _ => .fin s 0 0
    else if s ∧ (minor = 1 ∨ minor = 4) then .invalid
    else
      let isOne := !s && scaled false m e (-300) == one
      let big (n d : Nat) : Bool := decide (n * one ≤ d * scaled false m e (-300))
      match minor with
      | 1 => if isOne then .fin false 1 0 else FKind.f32.decode 0 (approx minor src ftz s m e)
      | 3 =>
        if isOne then .fin false 2 0
        else if !s && big 128 1 then .inf false
        else FKind.f32.decode 0 (approx minor src ftz s m e)
      | 4 => if isOne then .fin false 0 0 else FKind.f32.decode 0 (approx minor src ftz s m e)
      | 5 | 6 => FKind.f32.decode 0 (approx minor src ftz s m e)
      | _ => if big 91 10 then .fin s 1 0 else FKind.f32.decode 0 (approx minor src ftz s m e)

end Sys2Proof.Machine.Special
end

