-- ==== Sys2Proof/Machine/Assay.lean ====
section
/-!
DEFINITION. The Assay units (R169 to R173): the request of `asy`, its acceptance, and the records it writes.
-/
namespace Sys2Proof.Machine

/-! ### The descriptor (R170) -/

/-- The fields of a request descriptor. -/
structure AssayFields where
  clean : Bool
  size : Nat
  k : Nat
  n : Nat
  rows : Nat
  stride : Nat
  res : Nat
  log : Nat
  deriving DecidableEq, Repr

/-- A descriptor's fields. -/
def assayFields (d : BitVec 256) : AssayFields :=
  { clean := d.extractLsb' 201 55 == 0, size := if d.getLsbD 200 then 2 else 4, k := (d.extractLsb' 192 8).toNat
    n := (d.extractLsb' 176 16).toNat, rows := (d.extractLsb' 160 16).toNat, stride := (d.extractLsb' 128 32).toNat
    res := (d.extractLsb' 64 64).toNat, log := (d.extractLsb' 0 64).toNat }

/-- Check 3 of R169. -/
def AssayFields.aligned (f : AssayFields) : Bool :=
  f.log % f.size == 0 && f.stride % f.size == 0 && f.res % 8 == 0

/-- The fields of check 5 of R169. -/
def AssayFields.ranges (f : AssayFields) : Bool :=
  f.clean && decide (1 ≤ f.k) && decide (f.k ≤ 16) && decide (1 ≤ f.rows) && decide (f.rows ≤ 1024) && decide (1 ≤ f.n)
  && decide (f.n ≤ 4096) && decide (f.n * f.size ≤ f.stride)

/-- A run of bytes cut where pages of 4 KiB end, as (address, bytes). -/
def pageRuns : Nat → Nat → Nat → List (Nat × Nat)
  | 0, _, _ => []
  | fuel + 1, va, n =>
    if n = 0 then []
    else
      let m := min n (4096 - va % 4096)
      (va, m) :: pageRuns fuel (va + m) (n - m)

/-- The runs of the logit block: the bytes of its rows. -/
def AssayFields.logRuns (f : AssayFields) : List (Nat × Nat) :=
  (List.range f.rows).flatMap fun q => pageRuns (f.n * f.size / 4096 + 2) (f.log + q * f.stride) (f.n * f.size)

/-- The runs of the result region (R172). -/
def AssayFields.resRuns (f : AssayFields) : List (Nat × Nat) :=
  let n := f.rows * 8 * (f.k + 1)
  pageRuns (n / 4096 + 2) f.res n

/-- Every byte lies in HBM4E, in one stack (R169 check 5, R419). -/
def oneStack (ps : List Piece) : Bool :=
  match ps with
  | [] => true
  | p :: _ =>
    ps.all fun q =>
      q.loc.space == 0 && decide (q.loc.addr + q.len ≤ 2 ^ 40) && q.loc.addr / 2 ^ 36 == p.loc.addr / 2 ^ 36
        && (q.loc.addr + q.len - 1) / 2 ^ 36 == p.loc.addr / 2 ^ 36

/-- Pieces as an Assay request holds them. -/
def placesOf (ps : List Piece) : List (Nat × Nat × Nat) := ps.map fun p => (p.loc.space, p.loc.addr, p.len)

/-! ### asy (R169) -/

/-- The queue of the Assay unit of a stack. -/
def State.assayQueue (s : State) (stack : Nat) : List AssayReq := (lookupKey s.assay stack).getD []

/-- The queue of an Assay unit changed. -/
def State.onAssay (s : State) (stack : Nat) (f : List AssayReq → List AssayReq) : State :=
  { s with assay := insertKey s.assay stack (f (s.assayQueue stack)) }

/-- A request routed to its unit: accepted at once with fewer than 64 queued there and none waiting. -/
def State.sendAssay (s : State) (stack : Nat) (r : AssayReq) : Out :=
  let q := s.assayQueue stack
  if q.length < 64 ∧ q.all (·.accepted) then
    ((s.onAssay stack fun q => q ++ [{ r with accepted := true }]).onGrp fun g => g.opStart 3 r.op).done 4
  else (s.onAssay stack fun q => q ++ [r]).stay .assay

/-- ASY (R169). -/
def execAsy (w : UniShort) (s : State) : Out :=
  uniform w.g false 4 s fun s =>
    let g := s.grp
    let mask := g.spl.mask
    let a := g.uniGet w.a.toNat
    if s.assay.any fun x => x.2.any fun r => !r.accepted && r.gid == g.gid && r.sp == g.spl.num then s.stay .assay
    else if a.toNat % 32 ≠ 0 then s.fault causeMisaligned
    else
      s.gatherGroup .read mask [s.globalRun .read a.toNat 32] fun s rows =>
        let (s, bs) := s.loadPieces (rows.flatMap id)
        let d : BitVec 256 := BitVec.ofNat 256 (leNat bs)
        let f := assayFields d
        if !f.aligned then s.fault causeMisaligned
        else
          s.gatherGroup .read mask (f.logRuns.map fun r => s.globalRun .read r.1 r.2) fun s logs =>
            s.gatherGroup .write mask (f.resRuns.map fun r => s.globalRun .write r.1 r.2) fun s ress =>
              let ls := logs.flatMap id
              let rs := ress.flatMap id
              if !f.ranges || !oneStack ls then s.fault causeProtection
              else if !s.grp.opRoom 3 then s.stay .counter
              else
                let s := ls.foldl (fun s p => s.touch p.entry .read) s
                let s := rs.foldl (fun s p => s.touch p.entry .write) s
                s.sendAssay ((ls.map fun p => p.loc.addr / 2 ^ 36).headD 0)
                  { gid := g.gid, sp := g.spl.num, op := s.turn, accepted := false, desc := d, logAt := placesOf ls, resAt := placesOf rs }

/-- The first request of a queue that is not accepted, accepted in a turn. -/
def acceptFirst (turn : Nat) : List AssayReq → List AssayReq
  | [] => []
  | r :: rest => if r.accepted then r :: acceptFirst turn rest else { r with accepted := true, op := turn } :: rest

/-- ASSAY_ACCEPT (R169). -/
def execAssayAccept (stack : Nat) (s : State) : Out :=
  let q := s.assayQueue stack
  match q.find? fun r => !r.accepted with
  | none => .next s
  | some r =>
    if 64 ≤ (q.filter (·.accepted)).length ∨ !(((s.group? r.gid).map (·.opRoom 3)).getD true) then .next s
    else
      let id := s.turn
      .next ((s.onAssay stack (acceptFirst id)).within r.gid r.sp fun s => (s.onGrp fun g => g.opStart 3 id).advance 4)

/-! ### The records (R171, R172) -/

/-- FP32 under RNE with nothing flushed. -/
def f32Round (v : FVal) : Nat := FKind.f32.round plainEnv v

/-- The value of an f32 pattern. -/
def f32Of (p : Nat) : FVal := FKind.f32.decode 0 p

/-- y of a logit (R171): exp2 of its distance from the largest, scaled by log2 e. -/
def assayExp (x m : Nat) : Nat :=
  let d := f32Round ((f32Of x).add false (f32Of m).neg)
  let y := f32Round ((f32Of d).mul (f32Of 0x3FB8AA3B))
  f32Round (Special.f32Value 3 y false (f32Of y))

/-- The largest finite logit of a row, none without one. -/
def largestFinite : List Nat → Option Nat
  | [] => none
  | x :: rest =>
    match f32Of x with
    | .fin _ _ _ =>
      (match largestFinite rest with
       | none => some x
       | some y => if (f32Of x).cmp (f32Of y) = some .lt then some y else some x)
    | _ => largestFinite rest

/-- A value is finite. -/
def isFinite (v : FVal) : Bool :=
  match v with
  | .fin _ _ _ => true
  | _ => false

/-- The weights of a row of f32 logits (R171). -/
def assayWeights (xs : List Nat) : List Nat :=
  let c := (xs.filter fun x => f32Of x == .inf false).length
  if c ≠ 0 then
    let w := f32Round ((FVal.ofInt 1).div (FVal.ofInt c))
    xs.map fun x => if f32Of x = .inf false then w else 0
  else
    match largestFinite xs with
    | none => xs.map fun _ => 0
    | some m =>
      let ys := xs.map fun x => if isFinite (f32Of x) then some (assayExp x m) else none
      let sum := ys.foldl
        (fun acc y => match y with | none => acc | some y => f32Round ((f32Of acc).add false (f32Of y))) 0
      ys.map fun y => match y with | none => 0 | some y => f32Round ((f32Of y).div (f32Of sum))

/-- The pairs of a row in the order of R155, NaNs left out. -/
def assayOrder (xs : List Nat) : List (Word × Word) :=
  orderBy (ranksAbove 0)
    ((xs.zipIdx.filter fun x => !(f32Of x.1).isNan).map fun x => (BitVec.ofNat 32 x.1, BitVec.ofNat 32 x.2))

/-- The result record of a row (R172). -/
def assayRecord (k : Nat) (xs : List Nat) : List Byte :=
  let sel := (assayOrder xs).take k
  let ws := assayWeights xs
  let nan := xs.any fun x => (f32Of x).isNan
  let inf := xs.any fun x => f32Of x == .inf false
  let mass := inf || xs.any fun x => isFinite (f32Of x)
  leBytes 4 sel.length
  ++ leBytes 4 ((if nan then 1 else 0) + (if inf then 2 else 0) + (if mass then 0 else 4))
  ++ (sel.flatMap fun e => leBytes 4 e.2.toNat ++ leBytes 4 (ws.getD e.2.toNat 0))
  ++ ((List.range (k - sel.length)).flatMap fun _ => leBytes 4 noIndex.toNat ++ leBytes 4 0)

/-- The logits of a row from its bytes, bf16 widened to f32. -/
def assayLogits (f : AssayFields) (bs : List Byte) : List Nat :=
  (List.range f.n).map fun j =>
    let p := leNat ((bs.drop (f.size * j)).take f.size)
    if f.size = 2 then p * 2 ^ 16 else p

/-- Bytes read at places, through a unit of a die. -/
def State.readPlaces (s : State) (die : Nat) (ps : List (Nat × Nat × Nat)) : State × List Byte :=
  ps.foldl
    (fun acc p =>
      let (s, bs) := acc.1.unitLoad die ⟨p.1, p.2.1⟩ p.2.2
      (s, acc.2 ++ bs))
    (s, [])

/-- Bytes written to places in order. -/
def State.writePlaces (s : State) (die : Nat) (ps : List (Nat × Nat × Nat)) (bs : List Byte) : State :=
  (ps.foldl
    (fun (acc : State × List Byte) p => (acc.1.unitStore die ⟨p.1, p.2.1⟩ (acc.2.take p.2.2), acc.2.drop p.2.2)) (s, bs)).1

/-- The lines of some places leave a core's L1, so that its next loads of them read their home. -/
def State.l1Forget (s : State) (core : Nat) (ps : List (Nat × Nat × Nat)) : State :=
  { s with
    l1 := s.l1.filter fun e =>
      !(ps.any fun p =>
          decide (l1Key core ⟨p.1, p.2.1⟩ ≤ e.1) && decide (e.1 ≤ l1Key core ⟨p.1, p.2.1 + p.2.2 - 1⟩)) }

/-- ASSAY_COMPLETE (R173): the unit serves its oldest accepted request; its records are visible to the issuing group before
its class-3 counter falls. -/
def execAssayComplete (stack : Nat) (s : State) : Out :=
  match (s.assayQueue stack).find? (·.accepted) with
  | none => .next s
  | some r =>
    if s.halted (s.partition r.gid) then .next s
    else
      let die := stack / 2
      let f := assayFields r.desc
      let (s, bs) := s.readPlaces die r.logAt
      let recs := (List.range f.rows).flatMap fun q => assayRecord f.k (assayLogits f (bs.drop (q * f.n * f.size)))
      let s := s.writePlaces die r.resAt recs
      let s := match s.group? r.gid with
        | none => s
        | some g => s.l1Forget g.core r.resAt
      .next ((s.onAssay stack fun q => q.filter fun x => x != r).onGroup r.gid fun g => g.opDoneId 3 r.op)

end Sys2Proof.Machine
end

