-- ==== Sys2Proof/Machine/Atomics.lean ====
section
/-!
DEFINITION. Atomic read-modify-write at a location's home (R287 to R289), fences (R290) and clock markers (R267).
-/
namespace Sys2Proof.Machine

/-- f(old, b) of R287 on patterns of type t. -/
def atomValue (t : Ty) (minor old b : Nat) : Nat :=
  let n := 8 * t.size
  let i (x : Nat) : Int := intOf n (intSigned t) x
  match minor with
  | 0 => (old + b) % 2 ^ n
  | 1 => if i old ≤ i b then old else b
  | 2 => if i old ≤ i b then b else old
  | 3 => old &&& b
  | 4 => old ||| b
  | 5 => old ^^^ b
  | 6 => b
  | 7 => if b ≤ old then 0 else old + 1
  | _ =>
    let env : FEnv := { plainEnv with cnan := true }
    let v (x e : Nat) : FVal := (kindOf t).decode 0 (elemOf t (BitVec.ofNat 64 x) e)
    (packElems t ((List.range (elemCount t)).map fun e => (kindOf t).round env (FVal.add false (v old e) (v b e)))).toNat

/-- The operations that host memory performs (R288): `add` on u32 and u64, `exch` on b32, u32 and u64. -/
def hostAtomic (minor : Nat) (t : Ty) : Bool :=
  (minor == 0 && (t == .u32 || t == .u64)) || (minor == 6 && (t == .b32 || t == .u32 || t == .u64))

/-- A place whose bytes the host holds. -/
def Place.host : Place → Bool
  | .ok ps => ps.any fun p => p.loc.space == 4
  | _ => false

/-- The read-modify-write of one lane of the issuing group (R288): the old value. -/
def State.rmw (s : State) (ps : List Piece) (n : Nat) (f : Nat → Nat) : State × Nat :=
  match ps with
  | [] => (s, 0)
  | p :: _ => (((s.touch p.entry .write).settleLine p.loc).cutHeld p.loc n).rmwAt s.grp.core p.loc n f

/-- R288 and R289: the checks, the release, the lanes' read-modify-writes in ascending lanes, the old values in register
d, the acquire. `f l` is what lane l makes of the old value; `host` whether the host performs the operation. -/
def atomic (w : LaneShort) (e : EM) (off : Nat) (regs : List Nat) (host : Bool) (s : State) (f : Nat → Nat → Nat) : Out :=
  let n := e.t.size
  lanes regs w.g e.gn (e.sem != .rlx) 8 s fun m s =>
    let xs := (s.elements .write w e n off m).map fun x =>
      (x.1, x.2.1, if x.2.2.host && !host then Place.fail causeProtection else x.2.2)
    s.gather .write m xs fun s ps =>
      let cnt := writeLines ps
      let peer := ps.any fun p => p.2.any fun p => p.loc.isPeer
      if semReleases e.sem && !s.atOrder e.scope then s.stay .order
      else if !s.ackRoom cnt then s.stay .order
      else if peer && !s.grp.opRoom 4 then s.stay .counter
      else
        let s := if semReleases e.sem then s.release e.scope else s
        let (s, rs) := ps.foldl
          (fun (acc : State × List (Nat × Dword)) p =>
            let (s, old) := acc.1.rmw p.2 n (f p.1)
            (s, acc.2 ++ [(p.1, BitVec.ofNat 64 old)]))
          (s, [])
        let s := (s.onGrp fun g => g.laneWrite w.d.toNat w.nw e.t.wide true rs).countLanded ps
        let s := if peer then s.onGrp fun g => g.opStart 4 g.clock else s
        (if semAcquires e.sem then s.acquire e.scope else s).pushZero.done 8

/-- ATOM (R288). -/
def execAtom (w : LaneShort) (e : EM) (s : State) : Out :=
  let minor := (e.offset.extractLsb' 8 4).toNat
  let g := s.grp
  let data (l : Nat) : Nat := (g.memData w e.t.wide l).toNat % 2 ^ (8 * e.t.size)
  atomic w e (e.offset.extractLsb' 0 8).toNat (regsD w ++ regsAddr w ++ regsData w) (hostAtomic minor e.t) s fun l old =>
    atomValue e.t minor old (data l)

/-- ATOMC (R289). -/
def execAtomc (w : LaneShort) (e : EM) (s : State) : Out :=
  let g := s.grp
  let cut (v : Dword) : Nat := v.toNat % 2 ^ (8 * e.t.size)
  atomic w e e.offset.toNat (regsD w ++ regsAddr w ++ regsData w) true s fun l old =>
    if old = cut (g.reg e.t.wide w.d.toNat l) then cut (g.memData w e.t.wide l) else old

/-! ### Fences (R290) -/

/-- The scope of a fence. -/
def fenceScope (e : EA) : Scope := (Scope.ofBits (e.imm.extractLsb' 0 3)).getD .grp

/-- FENCE_ACQ (R290): every load has returned. -/
def execFenceAcq (w : UniShort) (e : EA) (s : State) : Out :=
  uniform w.g e.gn 8 s fun s => if s.grp.loadsBack then (s.acquire (fenceScope e)).done 8 else s.stay .order

/-- FENCE_REL (R290). -/
def execFenceRel (w : UniShort) (e : EA) (s : State) : Out :=
  uniform w.g e.gn 8 s fun s =>
    if s.atOrder (fenceScope e) then (s.release (fenceScope e)).done 8 else s.stay .order

/-- FENCE_ACQREL (R290). -/
def execFenceAcqrel (w : UniShort) (e : EA) (s : State) : Out :=
  uniform w.g e.gn 8 s fun s =>
    if s.atOrder (fenceScope e) then ((s.release (fenceScope e)).acquire (fenceScope e)).done 8 else s.stay .order

/-- A home lies within a scope for a group on a die (R264): one of its own die, or of the package but for a peer's memory (9)
and the host's (10). -/
def homeWithin (sc : Scope) (die home : Nat) : Bool :=
  match sc with
  | .grp | .team => false
  | .clu | .die => home == die
  | .pkg => decide (home < 9)
  | .sys => true

/-- Every write of the issuing group whose home lies within a scope has been acknowledged (R290). -/
def State.acked (s : State) (sc : Scope) : Bool :=
  !(s.flights.any fun f => f.gid == s.grp.gid && homeWithin sc s.die f.loc.home)

/-- FENCE_SC (R290): it also waits until the homes within its scope have acknowledged the group's writes. -/
def execFenceSc (w : UniShort) (e : EA) (s : State) : Out :=
  uniform w.g e.gn 8 s fun s =>
    let sc := fenceScope e
    if s.atOrder sc && s.acked sc then ((s.release sc).acquire sc).done 8 else s.stay .order

/-- CLOCK_MARKER (R267): the oldest marker on the channel from one die to another arrives, behind what was sent
there before it (R263). -/
def execClockMarker (src dst : Nat) (s : State) : Out :=
  match s.markers.find? fun m => m.src == src && m.dst == dst with
  | none => .next s
  | some m =>
    let s := s.landFlights fun f => f.sent && f.loc.channel == some dst && dieOf f.core == src
    .next { s with
      vapp := Sparse.set 0 s.vapp (8 * dst + src) m.value
      markers := s.markers.erase m }

end Sys2Proof.Machine
end

