-- ==== Sys2Proof/Machine/Splits.lean ====
section
/-!
DEFINITION. Splits of a group (R190 to R194): merging, parking, and what a turn settles before anything issues.
-/
namespace Sys2Proof.Machine

/-- A group with the given splits, number `n` in focus where there is one. -/
def Group.withSplits (g : Group) (n : Nat) (ps : List Split) : Group :=
  match ps.find? fun p => p.num == n with
  | some p => { g with spl := p, sibs := ps.filter fun q => q.num != n }
  | none =>
    match ps with
    | [] => { g with spl := Split.empty, sibs := [] }
    | p :: rest => { g with spl := p, sibs := rest }

/-- The splits of a group that hold lanes, in ascending numbers. -/
def Group.ranked (g : Group) : List Split :=
  orderBy (fun p q => decide (p.num ≤ q.num)) (g.splits.filter fun p => p.mask != 0)

/-- The number of the top frame of a split. -/
def Split.topFn (p : Split) : Nat := p.chain.headD 0

/-- The survivor of a merge of two splits, the lower number first (R193); it runs on at `pc`. -/
def Split.merge (p q : Split) (pc : Dword) : Split :=
  { p with
    mask := p.mask ||| q.mask, dstack := if p.dstack.isEmpty then q.dstack else p.dstack
    waitCount := max p.waitCount q.waitCount, urgent := if p.urgent.isSome then p.urgent else q.urgent
    status := .run, pc := pc, arrived := false }

/-- Two splits may merge where they stand (R193). -/
def Split.mayMerge (p q : Split) : Bool :=
  p.pc == q.pc && p.topFn == q.topFn && (p.dstack.isEmpty || q.dstack.isEmpty)

/-- A group whose splits `p` and `q` (the lower number first) are now the one split `r`: q's pending writes are r's. -/
def Group.mergeInto (g : Group) (p q r : Split) : Group :=
  let ps := (g.ranked.filter fun x => x.num != q.num).map fun x => if x.num = p.num then r else x
  let focus := if g.spl.num = q.num then p.num else g.spl.num
  let g :=
    { g with
      pend := g.pend.map fun (e : Pend) => if e.sp = q.num then { e with sp := p.num } else e
      reads := g.reads.map fun (x : Nat × Nat × Nat × Nat) => if x.2.1 = q.num then (x.1, p.num, x.2.2) else x }
  q.chain.foldl Group.release (g.withSplits focus ps)

/-- The first pair of a list of splits that a test accepts. -/
def firstPair (ok : Split → Split → Bool) : List Split → Option (Split × Split)
  | [] => none
  | p :: rest =>
    match rest.find? (ok p) with
    | some q => some (p, q)
    | none => firstPair ok rest

/-- Merges of splits parked at one `rcv`, lowest numbers first (R194). -/
def Group.mergeParked : Nat → Group → Group
  | 0, g => g
  | n + 1, g =>
    match firstPair (fun p q => p.status == .parked && q.status == .parked && p.mayMerge q) g.ranked with
    | none => g
    | some (p, q) => Group.mergeParked n (g.mergeInto p q (p.merge q (p.pc + 4)))

/-- A parked split that no running split of its frame may still join (R194). -/
def Group.parkOver (g : Group) (p : Split) : Bool :=
  p.status == .parked
  && (g.ranked.filter fun q => q.num != p.num && q.topFn == p.topFn).all fun q => !q.status.runs

/-- The parks that end: pairs merge, and a split whose companions all stand still goes on alone (R194). -/
def Group.settleParks (g : Group) : Group :=
  if g.splits.any fun p => p.status == .parked then
    let g := Group.mergeParked 3 g
    g.onSplits fun p => if g.parkOver p then { p with pc := p.pc + 4, status := .run } else p
  else g

/-- Whether a group's parks settle by themselves: not while it is frozen, stopped or parked as a whole. -/
def Group.parksRun (g : Group) : Bool := g.handler.isNone && !g.parked && !g.stopped

/-- The Postmark count after a step that takes `d` ns: within a power cycle it never falls (R3, R444). -/
def laterPostmark (p d : Dword) : Dword := if p.toNat ≤ (p + d).toNat then p + d else p

/-- A split that is not ready has no wait count (R25). -/
def State.calm (s : State) (g : Group) (p : Split) : Split := if s.isReady g p then p else { p with waitCount := 0 }

/-- The splits that issued last and are no longer ready lose their claim on the next clk (R23). -/
def State.stillGreedy (s : State) : List (Nat × Nat × Nat) :=
  s.last.filter fun e => s.groups.any fun g => g.gid == e.2.1 && g.splits.any fun p => p.num == e.2.2 && s.isReady g p

/-- The state one turn on: the Postmark count moves (R3), parks that are over end (R194), and the counts of splits that are
not ready are cleared (R25). -/
def State.tick (s : State) : State :=
  let s := { s with turn := s.turn + 1, postmark := laterPostmark s.postmark (Config.postmarkTick s.turn), last := s.stillGreedy }
  s.onGroups fun g =>
    let g := if g.parksRun then g.settleParks else g
    g.onSplits (s.calm g)

end Sys2Proof.Machine
end

