-- ==== Sys2Proof/Machine/Barriers.lean ====
section
/-!
DEFINITION. Named barriers (R230 to R236).
-/
namespace Sys2Proof.Machine

/-! ### The state word (R231, R232) -/

/-- EXP. -/
def barExp (w : Dword) : Nat := (w.extractLsb' 48 16).toNat
/-- PEND. -/
def barPend (w : Dword) : Nat := (w.extractLsb' 32 16).toNat
/-- PH. -/
def barPh (w : Dword) : Bool := w.getLsbD 31
/-- TX. -/
def barTx (w : Dword) : Int := (w.extractLsb' 0 31).toInt

/-- A state word. -/
def barWord (exp pend : Nat) (ph : Bool) (tx : Int) : Dword :=
  BitVec.ofNat 16 exp ++ BitVec.ofNat 16 pend ++ BitVec.ofBool ph ++ BitVec.ofInt 31 tx

/-- A phase that is complete ends (R232). -/
def barSettle (w : Dword) : Dword :=
  if barPend w = 0 ∧ barTx w = 0 then barWord (barExp w) (barExp w) (!barPh w) 0 else w

/-- An arrival of `n`; the excess is discarded. -/
def barArrived (w : Dword) (n : Nat) : Dword := barSettle (barWord (barExp w) (barPend w - n) (barPh w) (barTx w))

/-- TX raised or lowered. -/
def barMoved (w : Dword) (d : Int) : Dword := barSettle (barWord (barExp w) (barPend w) (barPh w) (barTx w + d))

/-! ### Reservations (R230) -/

/-- The home core of a team's cluster. -/
def Team.homeCore (t : Team) : Nat := t.core - 6 * (t.rank / t.cw) - t.rank % t.cw

/-- The key of a barrier a team names, none outside its reservation. -/
def Team.barKey (t : Team) (clu : Bool) (n : Nat) : Option Nat :=
  if clu then (if n < t.cbarCount then some (barAt t.homeCore (t.cbarBase + n)) else none)
  else if n < t.barCount then some (barAt t.core (t.barBase + n))
  else none

/-- The state word at a key. -/
def State.bar (s : State) (k : Nat) : Dword := Sparse.get 0 s.barriers k
/-- The state word at a key written. -/
def State.setBar (s : State) (k : Nat) (w : Dword) : State := { s with barriers := Sparse.set 0 s.barriers k w }

/-- Whether some split of the package waits on the barrier at a key. -/
def State.barWaiters (s : State) (k : Nat) : Bool :=
  s.groups.any fun g =>
    match s.team? (teamOf g.gid) with
    | none => false
    | some t => g.ordinary.any fun p => p.status == .waiting .barrier && t.barKey p.barClu p.barNum == some k

/-- The waiting splits of a group that `at_` names merge as far as they may, lowest numbers first (R236). -/
def Group.mergeAt (at_ : Split → Bool) : Nat → Group → Group
  | 0, g => g
  | n + 1, g =>
    match firstPair (fun p q => at_ p && at_ q && p.mayMerge q) g.ranked with
    | none => g
    | some (p, q) => Group.mergeAt at_ n (g.mergeInto p q { p.merge q p.pc with status := p.status, arrived := p.arrived })

/-- The splits of a group that `at_` names become ready, merged where they may be (R193, R236); those that handler mode froze
issue again when it ends. -/
def Group.endWaits (at_ : Split → Bool) (g : Group) : Group :=
  let free (p : Split) : Split := if at_ p then { p with status := .again } else p
  let g := (g.mergeAt at_ 3).onSplits free
  { g with handler := g.handler.map fun h => { h with frozen := h.frozen.map free } }

/-- A split of a team waits on the barrier at a key in the phase of a parity. -/
def Split.waitsOn (t : Team) (k : Nat) (ph : Bool) (p : Split) : Bool :=
  p.status == .waiting .barrier && t.barKey p.barClu p.barNum == some k && p.parity == ph

/-- The splits that wait on the barrier at a key in the phase of a parity become ready. -/
def State.freeWaiters (s : State) (k : Nat) (ph : Bool) : State :=
  s.onGroups fun g =>
    match s.team? (teamOf g.gid) with
    | none => g
    | some t => g.endWaits (Split.waitsOn t k ph)

/-- The state word at a key becomes another; where its phase is complete by that, the splits that wait for it are ready in
the same clk (R235, R236). -/
def State.putBar (s : State) (k : Nat) (w : Dword) : State :=
  let ph := barPh (s.bar k)
  if barPh w = ph then s.setBar k w else (s.setBar k w).freeWaiters k ph

/-- A copy of `n` bytes that completes into a barrier of a team (R232, R251). -/
def State.barCopied (s : State) (t : Team) (clu : Bool) (n bytes : Nat) : State :=
  match t.barKey clu n with
  | none => s
  | some k => s.putBar k (barMoved (s.bar k) (-(bytes : Int)))

/-! ### bar (R233 to R236) -/

/-- N. -/
def barNumber (e : EA) : Nat := (e.imm.extractLsb' 0 9).toNat
/-- C. -/
def barCluster (e : EA) : Bool := e.imm.getLsbD 9
/-- The scope of a barrier's ordering (R235). -/
def barScope (e : EA) : Scope := if barCluster e then .clu else .team

/-- A barrier instruction: retired, or PROTECTION outside the reservation, or it acts on the word at a key. -/
def barrier (w : UniShort) (e : EA) (s : State) (body : Nat → State → Out) : Out :=
  uniform w.g e.gn 8 s fun s =>
    match s.team.bind fun t => t.barKey (barCluster e) (barNumber e) with
    | none => s.fault causeProtection
    | some k => body k s

/-- The arrival count, where it is in range: the split's lanes with LN, 1 to 63 from b, 1 to 65,535 from S[a]. -/
def State.barCount (s : State) (w : UniShort) (e : EA) : Option Nat :=
  if e.imm.getLsbD 10 then some (lanesOf s.grp.spl.mask).length
  else
    let v := (s.regOrImm w).toNat
    if 1 ≤ v ∧ v ≤ 65535 then some v else none

/-- BAR_INIT (R234). -/
def execBarInit (w : UniShort) (e : EA) (s : State) : Out :=
  barrier w e s fun k s =>
    let v := (s.regOrImm w).toNat
    if v = 0 ∨ 65535 < v ∨ s.barWaiters k then s.fault causeProtection else (s.setBar k (barWord v v false 0)).done 8

/-- An arrival of the issuing group: its count is checked, it waits for its ordering point, and it releases (R234, R235). -/
def State.arriving (s : State) (w : UniShort) (e : EA) (go : Nat → State → Out) : Out :=
  match s.barCount w e with
  | none => s.fault causeProtection
  | some n => if s.atOrder (barScope e) then go n (s.release (barScope e)) else s.stay .order

/-- BAR_ARRIVE (R234, R235). -/
def execBarArrive (w : UniShort) (e : EA) (s : State) : Out :=
  barrier w e s fun k s =>
    s.arriving w e fun n s =>
      let b := s.bar k
      let s := s.putBar k (barArrived b n)
      (if w.d = 0 then s else s.onGrp fun g => g.uniSet w.d.toNat (if barPh b then 1 else 0)).done 8

/-- The issuing split waits on a barrier in the phase of a parity. -/
def State.barWaits (s : State) (e : EA) (arrived ph : Bool) : State :=
  (s.onGrp fun g => g.onSpl fun p =>
    { p with arrived := arrived, parity := ph, barClu := barCluster e, barNum := barNumber e }).waitFor .barrier

/-- A wait that ends is an acquire (R235). -/
def State.barPass (s : State) (e : EA) : Out := (s.acquire (barScope e)).done 8

/-- A split that has begun its wait on a barrier: it is ready, or its phase is still to be completed. -/
def State.barAgain (s : State) (e : EA) (k : Nat) : Out :=
  let p := s.grp.spl
  if p.status = .again ∨ barPh (s.bar k) ≠ p.parity then s.barPass e else .next s

/-- BAR_WAIT (R234). -/
def execBarWait (w : UniShort) (e : EA) (s : State) : Out :=
  barrier w e s fun k s =>
    let ph := (s.grp.uniGet w.a.toNat).getLsbD 0
    if s.grp.spl.status == .waiting .barrier || s.grp.spl.status == .again then s.barAgain e k
    else if barPh (s.bar k) = ph then .next (s.barWaits e false ph)
    else s.barPass e

/-- BAR_ARRWAIT (R234): a split that has arrived in it only waits (R237). The arrival that completes the phase ends the
splits' waits together (R236). -/
def execBarArrwait (w : UniShort) (e : EA) (s : State) : Out :=
  barrier w e s fun k s =>
    if s.grp.spl.arrived then
      (if s.grp.spl.status == .waiting .barrier || s.grp.spl.status == .again then s.barAgain e k
       else if barPh (s.bar k) = s.grp.spl.parity then .next (s.barWaits e true s.grp.spl.parity)
       else s.barPass e)
    else
      s.arriving w e fun n s =>
        let b := s.bar k
        let s := (s.barWaits e true (barPh b)).putBar k (barArrived b n)
        if s.grp.spl.status = .again then s.barPass e else .next s

/-- BAR_EXPECT (R234). -/
def execBarExpect (w : UniShort) (e : EA) (s : State) : Out :=
  barrier w e s fun k s =>
    let v := (s.regOrImm w).toNat
    let b := s.bar k
    if 2 ^ 30 - 1 < v ∨ (2 ^ 30 : Int) - 1 < barTx b + v then s.fault causeProtection
    else (s.putBar k (barMoved b v)).done 8

/-- BAR_WAIT_RELEASE (R235): a split whose phase is complete is ready, with those that wait with it. -/
def execBarWaitRelease (gid sp : Nat) (s : State) : Out :=
  match (s.group? gid).bind fun g => g.splits.find? fun p => p.num == sp with
  | none => .next s
  | some p =>
    match (s.team? (teamOf gid)).bind fun t => t.barKey p.barClu p.barNum with
    | none => .next s
    | some k => if p.status = .waiting .barrier ∧ barPh (s.bar k) ≠ p.parity then .next (s.freeWaiters k p.parity) else .next s

end Sys2Proof.Machine
end

