-- ==== Sys2Proof/Machine/Calls.lean ====
section
/-!
DEFINITION. The call ring of a partition (R387, R420, R421): what a posted request does to it.
-/
namespace Sys2Proof.Machine

/-- Offset of CALLP. -/
abbrev callPtr : Nat := 0x70

/-- The call ring of a partition has a free entry (R387). -/
def State.callRoom (s : State) (part : Nat) : Bool :=
  let p := s.partReg part callPtr
  decide ((p.extractLsb' 32 32 - p.extractLsb' 0 32).toNat < 256)

/-- A request copied into the call ring at TAIL, with its ticket word. -/
def State.postCall (s : State) (part ctx : Nat) (ticket : Dword) (req : BitVec 512) : State :=
  let p := s.partReg part callPtr
  let tail : Word := p.extractLsb' 32 32
  let head : Word := p.extractLsb' 0 32
  let s := s.homeStore ⟨0, (s.partReg part 0x68).toNat + 64 * (tail.toNat % 256)⟩ (leBytes 64 req.toNat)
  { s.setPartReg part callPtr ((tail + 1) ++ head) with
    calls := s.calls ++ [{ part := part, ctx := ctx, ticket := ticket, req := req }] }

/-- The request of a function with its arguments (R387, R425), with no completion record. -/
def requestOf (fn : Nat) (args : List Dword) : BitVec 512 :=
  let a (i : Nat) : Dword := (args[i]?).getD 0
  a 4 ++ a 3 ++ a 2 ++ a 1 ++ a 0 ++ (0 : Dword) ++ (0 : Dword) ++ BitVec.ofNat 64 fn

end Sys2Proof.Machine
end

