-- ==== Sys2Proof/Machine/QueueOps.lean ====
section
/-!
DEFINITION. What queue controllers do for instructions and other agents (R210 to R213, R224, R305 to R314): enqueueing,
taking the record at HEAD, parked items, and the fills of the group packer.
-/
namespace Sys2Proof.Machine

/-! ### Enqueueing (R224, R311, R316) -/

/-- A record written to slot TAIL of a queue, with its arrival noted for a launch queue. -/
def State.append (s : State) (k : Nat) (rec_ : BitVec 128) : State :=
  let pm := s.postmark.toNat
  (s.slotWrite k (leBytes 16 rec_.toNat)).onQueue k fun q => if q.kind = 3 then { q with arrivals := q.arrivals ++ [pm] } else q

/-- Descriptors and launch records that wait in the QC written while slots are free (R224, R316). -/
def State.drainDeferred (s : State) (k : Nat) : Nat → State
  | 0 => s
  | n + 1 =>
    match lookupKey s.queues k with
    | none => s
    | some q =>
      match q.deferred with
      | [] => s
      | d :: rest =>
        if q.full then s
        else State.drainDeferred ((s.onQueue k fun q => { q with deferred := rest }).append k d) k n

/-- Everything that waits in the QC for a slot of a queue, as far as it fits. -/
def State.settleQueue (s : State) (k : Nat) : State :=
  match lookupKey s.queues k with
  | none => s
  | some q => s.drainDeferred k q.deferred.length

/-- A record put at the tail, or behind those that wait in the QC where there is no room (R224, R316). -/
def State.appendOrHold (s : State) (k : Nat) (rec_ : BitVec 128) : State :=
  (s.onQueue k fun q => { q with deferred := q.deferred ++ [rec_] }).settleQueue k

/-- A record with the sequence number that the QC assigns at its enqueue, or at its first finding in a software ring
(R208, R214, R307): the next of its lock entry for an ordered item, else 0. -/
def State.sequenced (s : State) (q : Queue) (d : BitVec 128) : State × BitVec 128 :=
  if descClass d = 1 then
    let (s, n) := s.nextSeq (lockKey q.home (descFlow d) q.pasid)
    (s, descWith d (descFlow d) 1 n)
  else (s, descWith d (descFlow d) (descClass d) 0)

/-- `qenq` of one record (R311): refused when the queue is closed or full. -/
def State.enqueue (s : State) (k : Nat) (rec_ : BitVec 128) : State × Bool :=
  let s := s.settleQueue k
  match lookupKey s.queues k with
  | none => (s, false)
  | some q =>
    if q.closed || q.full then (s, false)
    else
      let (s, d) := if q.kind = 1 then s.sequenced q rec_ else (s, rec_)
      (s.append k d, true)

/-! ### Parked items (R222, R228, R311) -/

/-- The first parked item of a queue whose flow and descriptor word 1 match, in an entry list, and the others. -/
def takeParked (k : Nat) (flow word1 : Word) : List ParkedItem → Option (ParkedItem × List ParkedItem)
  | [] => none
  | p :: rest =>
    if p.qkey = k ∧ descFlow p.desc = flow ∧ p.desc.extractLsb' 32 32 = word1 then some (p, rest)
    else (takeParked k flow word1 rest).map fun r => (r.1, p :: r.2)

/-- `reinject` of a record (R311): the parked item it names moves to the queue's re-injection list with its lock and
slot, unless that list holds 64 entries. -/
def State.reinject (s : State) (k : Nat) (rec_ : BitVec 128) : State × Bool :=
  match lookupKey s.queues k with
  | none => (s, false)
  | some q =>
    match takeParked k (descFlow rec_) (rec_.extractLsb' 32 32) (s.parkedTable q.home) with
    | none => (s, false)
    | some (p, rest) =>
      if 64 ≤ q.reinjected.length then (s, false)
      else
        let s := { s with parkedItems := insertKey s.parkedItems q.home rest }
        (s.onQueue k fun q => { q with reinjected := q.reinjected ++ [{ desc := p.desc, qkey := k, lock := p.lock }] }, true)

/-- `item.skip` of one parked item (R222): its slot is resolved or its lock released, and it is discarded. -/
def State.skipParked (s : State) (k : Nat) (flow word1 : Word) : State :=
  match lookupKey s.queues k with
  | none => s
  | some q =>
    match takeParked k flow word1 (s.parkedTable q.home) with
    | none => s
    | some (p, rest) =>
      ({ s with parkedItems := insertKey s.parkedItems q.home rest } : State).completeItem
        { desc := p.desc, qkey := k, lock := p.lock }

/-! ### Taking records (R306, R307, R312, R314) -/

/-- HEAD moved past a record. -/
def State.headPast (s : State) (k : Nat) : State :=
  s.onQueue k fun q => { q with head := q.head + 1, dirty := true, arrivals := q.arrivals.drop 1 }

/-- The record at HEAD that a consumer may take (R307), none where HEAD = TAIL or it is not valid. Records of class 11
in an item queue are parked on the way, with the slot as their address (R314); a full parked table leaves them. -/
def State.headRecord (s : State) (k : Nat) : Nat → State × Option (List Byte)
  | 0 => (s, none)
  | n + 1 =>
    match lookupKey s.queues k with
    | none => (s, none)
    | some q =>
      if q.tail = q.head then (s, none)
      else
        match s.slotRecord q q.head with
        | (s, none) => (s, none)
        | (s, some bs) =>
          let d := BitVec.ofNat 128 (leNat (bs.take 16))
          if q.kind = 1 ∧ descClass d = 3 then
            if 4096 ≤ (s.parkedTable q.home).length then (s, none)
            else
              let s := s.headPast k
              let it : Item := { desc := d, qkey := k, lock := none }
              State.headRecord (s.parkItem it 0xFF causeProtection (BitVec.ofNat 64 (q.slotAddr q.head)) 0) k n
          else (s, some bs)

/-- The record at HEAD within the records that are there. -/
def State.head (s : State) (k : Nat) : State × Option (List Byte) :=
  match lookupKey s.queues k with
  | none => (s, none)
  | some q => s.headRecord k (q.count + 1)

/-- An item at HEAD taken: a software ring's ordered item gets its sequence now (R307). -/
def State.takeItem (s : State) (k : Nat) (d : BitVec 128) : State × BitVec 128 :=
  match lookupKey s.queues k with
  | none => (s, d)
  | some q =>
    let s := s.headPast k
    if q.swr && q.kind == 1 then s.sequenced q d else (s, d)

/-! ### Packing (R210 to R213) -/

/-- The lock entry of a descriptor of a queue. -/
def Queue.entry (q : Queue) (d : BitVec 128) : Nat := lockKey q.home (descFlow d) q.pasid

/-- A descriptor packed as an item; an atomic one takes its lock (R211). -/
def State.packed (s : State) (k : Nat) (q : Queue) (d : BitVec 128) : State × Option Item :=
  if descClass d = 2 then (s.takeLock (q.entry d), some { desc := d, qkey := k, lock := some (q.entry d) })
  else (s, some { desc := d, qkey := k, lock := none })

/-- An atomic item whose lock is held set aside: it goes to the end of the queue's held list (R210). The first item of its
entry to wait is the one whose wait STALL measures (R229). -/
def State.setAside (s : State) (k : Nat) (q : Queue) (d : BitVec 128) : State :=
  let e := q.entry d
  let waiting := s.queues.any fun x => x.2.home == q.home && x.2.held.any fun it => descClass it.desc == 2 && x.2.entry it.desc == e
  let s := if waiting then s else s.onLock e fun l => { l with waited := s.postmark.toNat }
  s.onQueue k fun q => { q with held := q.held ++ [{ desc := d, qkey := k, lock := none }] }

/-- The next item of a queue's slots that may be packed: atomic items whose lock is held go to the held list on the way,
up to 256 of them (R210, step 3). -/
def State.packQueue (s : State) (k : Nat) : Nat → State × Option Item
  | 0 => (s, none)
  | n + 1 =>
    match s.head k with
    | (s, none) => (s, none)
    | (s, some bs) =>
      let d := BitVec.ofNat 128 (leNat (bs.take 16))
      match lookupKey s.queues k with
      | none => (s, none)
      | some q =>
        if descClass d = 2 ∧ (s.lock (q.entry d)).held then
          if 256 ≤ q.held.length then (s, none)
          else
            let (s, d) := s.takeItem k d
            State.packQueue (s.setAside k q d) k n
        else
          let (s, d) := s.takeItem k d
          s.packed k q d

/-- A record of the held list that may be packed: its lock is free (R210). -/
def State.heldFree (s : State) (q : Queue) (it : Item) : Bool := descClass it.desc != 2 || !(s.lock (q.entry it.desc)).held

/-- The next candidate of the re-injection list or of the held list (R210, steps 1 and 2). A re-injected record of class 11
is never packed (R208). -/
def State.packLists (s : State) (k : Nat) : State × Option Item :=
  match lookupKey s.queues k with
  | none => (s, none)
  | some q =>
    match q.reinjected.find? fun it => descClass it.desc != 3 with
    | some it => (s.onQueue k fun q => { q with reinjected := q.reinjected.erase it }, some it)
    | none =>
      match q.held.find? (s.heldFree q) with
      | none => (s, none)
      | some it => (s.onQueue k fun q => { q with held := q.held.erase it }).packed k q it.desc

/-- The next of a node launch's reserved records (R325): one that is atomic and whose lock another item holds goes to the held
list; one that was re-injected has kept its lock. -/
def State.packReserved (s : State) (k key : Nat) : Nat → State × Option Item
  | 0 => (s, none)
  | n + 1 =>
    match lookupKey s.queues k with
    | none => (s, none)
    | some q =>
      match q.node with
      | none => (s, none)
      | some nd =>
        match lookupKey nd.reserved key with
        | none | some [] => (s, none)
        | some (it :: rest) =>
          let s := s.onQueue k fun q => { q with node := some { nd with reserved := insertKey nd.reserved key rest } }
          if it.lock.isSome then (s, some it)
          else if s.heldFree q it then s.packed k q it.desc
          else State.packReserved (s.setAside k q it.desc) k key n

/-- The next item for a group of team `key`: a node launch takes exactly its reserved records (R325), any other launch follows
R210. -/
def State.packOne (s : State) (k key : Nat) (node : Bool) : State × Option Item :=
  if node then s.packReserved k (reservedKey key) 33
  else
    match s.packLists k with
    | (s, some it) => (s, some it)
    | (s, none) => s.packQueue k 257

/-- The lanes of a list filled in ascending order until nothing more may be packed (R210): the mask of those filled. -/
def State.packLanes (s : State) (gid k : Nat) (node : Bool) : List Nat → State × Mask
  | [] => (s, 0)
  | l :: rest =>
    match s.packOne k (teamOf gid) node with
    | (s, none) => (s, 0)
    | (s, some it) =>
      let s := s.onGroup gid fun g => { g with items := insertKey g.items l it }
      let (s, m) := State.packLanes s gid k node rest
      (s, m ||| laneBit l)

/-! ### Fill requests (R207, R223) -/

/-- Whether the fill that a request names is still wanted: its split waits for it. -/
def State.fillWanted (s : State) (r : FillReq) : Bool :=
  match s.group? r.gid with
  | none => false
  | some g => g.splits.any fun p => p.num == r.sp && p.status == .waiting .yield

/-- Whether a group is one of a node launch (R325). -/
def State.isNode (s : State) (gid : Nat) : Bool :=
  match s.team? (teamOf gid) with
  | none => false
  | some t => t.lk == 3

/-- A fill is over (R223): the split holds the lanes filled, P[d] tells which of its lanes hold an item, and it goes on; a
split left without lanes ends as under `exit` (R207). -/
def State.endFill (s : State) (k : Nat) (r : FillReq) (filled : Mask) : State :=
  let s := s.onQueue k fun q => { q with waiters := q.waiters.filter fun w => !(w.gid == r.gid && w.sp == r.sp) }
  s.within r.gid r.sp fun s =>
    let s := s.onGrp fun g =>
      let g := g.onSpl fun p => { p with mask := p.mask ||| filled }
      let holds := maskOf ((List.range 32).filter fun l => (g.item l).isSome)
      (g.predSet r.pred (r.eff ||| filled) holds).pushLatch []
    -- a lock's next holder reads nothing older than its last one wrote (R213)
    let s := if (lanesOf filled).any fun l => ((s.grp.item l).bind (·.lock)).isSome then s.l1Invalidate s.grp.core else s
    if s.grp.spl.mask = 0 then (s.onGrp Group.dropSplit).afterExit r.gid else s.advance r.len

/-- The fill at the head of a queue's requests is served as far as the queue offers items: it is over when a lane was
filled, when there are no target lanes, or when the queue is closed and its lists are empty (R223). The QC packs nothing for
a halted partition (R367). -/
def State.serveFill (s : State) (k : Nat) : State :=
  if s.halted (k / 2 ^ 24) then s else
  let s := s.settleQueue k
  let s := s.onQueue k fun q => { q with waiters := q.waiters.filter s.fillWanted }
  match (lookupKey s.queues k).map (·.waiters) with
  | none | some [] => s
  | some (r :: _) =>
    let (s, m) := s.packLanes r.gid k (s.isNode r.gid) (lanesOf r.targets)
    match lookupKey s.queues k with
    | none => s
    | some q =>
      if m ≠ 0 ∨ r.targets = 0 ∨ (q.closed ∧ q.held = [] ∧ q.reinjected = []) then s.endFill k r m else s

/-- A request put behind those that wait, or in the place of the split's own. -/
def State.requestFill (s : State) (k : Nat) (r : FillReq) : State :=
  s.onQueue k fun q =>
    if q.waiters.any fun w => w.gid == r.gid && w.sp == r.sp then
      { q with waiters := q.waiters.map fun w => if w.gid = r.gid ∧ w.sp = r.sp then r else w }
    else { q with waiters := q.waiters ++ [r] }

/-! ### Handles as an instruction names them (R305) -/

/-- The cause code of R305 for a check that fails: CAP_CHECK 11, CAP_RIGHTS 12. -/
def withHandle (s : State) (h : Dword) (need : BitVec 3) (eff : Mask) (body : Nat → Queue → Out) : Out :=
  match s.checkHandle (s.partition s.grp.gid) h need with
  | .error c => s.faultIn c eff
  | .ok k =>
    match lookupKey s.queues k with
    | none => s.faultIn causeCapCheck eff
    | some q => body k q

end Sys2Proof.Machine
end

