-- ==== Sys2Proof/Machine/Tasks.lean ====
section
/-!
DEFINITION. Tasks and futures (R315 to R323): the fields of their blocks in memory, decrements and launches, resolutions
and walks, and the instructions `fres`, `freg`, `tspawn` and `tdone`.
-/
namespace Sys2Proof.Machine

/-! ### Blocks in memory -/

/-- The value of `n` bytes at an offset of an object, at its home. -/
def State.objNat (s : State) (l : Loc) (off n : Nat) : Nat :=
  leNat ((List.range n).map fun i => s.seeGet (l.plus (off + i)))

/-- `n` bytes at an offset of an object written at its home by a unit of a die. -/
def State.objPut (s : State) (die : Nat) (l : Loc) (off n v : Nat) : State := s.unitStore die (l.plus off) (leBytes n v)

/-- The die whose QC performs an operation on an object that a party of die `own` causes (R318). -/
def servingDie (own : Nat) (l : Loc) : Nat :=
  match homeDie l.addr with
  | some d => if d < 8 then d else own
  | none => own

/-- An object in host memory or in a peer device's memory (R318). -/
def foreignObject (l : Loc) : Bool := l.space != 0 || decide (2 ^ 51 ≤ l.addr)

/-- STATE of a TCB (R315). -/
def State.taskState (s : State) (l : Loc) : Nat := s.objNat l 0 1 % 8
/-- STATE of a TCB written. -/
def State.setTaskState (s : State) (die : Nat) (l : Loc) (st : Nat) : State :=
  s.objPut die l 0 1 (s.objNat l 0 1 / 8 * 8 + st)

/-- The place of an object that a controller reaches at a virtual address of a context, none where it cannot. -/
def State.object (s : State) (ctx : Nat) (va : Dword) : Option (State × Loc) :=
  match s.translate ctx va.toNat .write with
  | .ok l _ e => if foreignObject l then none else some ((s.landAt l 64).touch e .write, l)
  | _ => none

/-! ### Launching and decrements (R316, R337) -/

/-- A launch record of software's or the QC's (R337). -/
def launchRecord (ptr : Dword) (lk pri : Nat) (tag : Word) : BitVec 128 :=
  ptr ++ BitVec.ofNat 2 lk ++ BitVec.ofNat 2 pri ++ (0 : BitVec 28) ++ tag

/-- PRI of the kernel descriptor at an address (R402). -/
def State.kernelPri (s : State) (ctx die : Nat) (kdesc : Dword) : State × Nat :=
  let (s, b) := s.ctxNat ctx die (kdesc.toNat + 69) 1
  (s, b / 64)

/-- A launch queue that takes a launch record: of KIND 3, its slots written by the QC, not closed. -/
def State.launchQueue (s : State) (part : Nat) (h : Dword) : Option Nat :=
  match s.checkHandle part h rightsEnq with
  | .error _ => none
  | .ok k =>
    match lookupKey s.queues k with
    | none => none
    | some q => if q.kind = 3 ∧ !q.swr ∧ !q.closed then some k else none

/-- A task whose PEND has reached 0 (R316): it is READY, and its launch record goes to LQH's queue, or LAUNCH_REFUSED is
posted. -/
def State.launchTask (s : State) (die ctx : Nat) (tcb : Dword) (l : Loc) : State :=
  let s := s.setTaskState die l 1
  let part := s.partOf ctx
  let lqh : Dword := BitVec.ofNat 64 (s.objNat l 32 8)
  match s.launchQueue part lqh with
  | none => s.postEvent part 5 (dieSource die 0) tcb (lqh.extractLsb' 40 24 |>.setWidth 64)
  | some k =>
    let (s, pri) := s.kernelPri ctx die (BitVec.ofNat 64 (s.objNat l 40 8))
    s.appendOrHold k (launchRecord tcb 2 pri 0)

/-- A decrement of a task (R316) caused by a party of die `own`. -/
def State.decrement (s : State) (own ctx : Nat) (tcb : Dword) : State :=
  match s.object ctx tcb with
  | none => s
  | some (s, l) =>
    let die := servingDie own l
    let s := s.stampRead die l
    let pend := s.objNat l 16 4
    if pend = 0 then s.postEvent (s.partOf ctx) 4 (dieSource die 0) tcb 0
    else
      let s := s.objPut die l 16 4 (pend - 1)
      if pend = 1 ∧ s.taskState l = 0 then s.launchTask die ctx tcb l else s

/-! ### Futures and walks (R317 to R321) -/

/-- ST of a future. -/
def State.futureState (s : State) (l : Loc) : Nat := s.objNat l 0 8 / 2 ^ 62
/-- The address of the first waiter node. -/
def State.futureList (s : State) (l : Loc) : Nat := s.objNat l 0 8 % 2 ^ 62 * 16

/-- A walk begun, where it has anything to do. -/
def State.startWalk (s : State) (w : Walk) : State := if w.node = 0 ∧ w.left = 0 then s else { s with walks := s.walks ++ [w] }

/-- A future that is not resolved resolved with a value (R319), and the walk over its waiters and then over a task's
successors begun. -/
def State.resolveFuture (s : State) (die ctx : Nat) (fut : Dword) (l : Loc) (v : Dword) (flt : Bool) (succ : Dword)
    (left : Nat) : State :=
  let node := s.futureList l
  let s := s.objPut die l 8 8 v.toNat
  let s := s.objPut die l 0 8 ((if flt then 3 else 2) * 2 ^ 62)
  s.startWalk { die := die, ctx := ctx, future := fut, node := BitVec.ofNat 64 node, faulted := flt, succ := succ, left := left }

/-- The resolution that a completed `.fut` copy brings to the future whose place it holds (R254): a future already resolved is
left, and posted. -/
def State.resolveOrPost (s : State) (own ctx : Nat) (fut : Dword) (l : Loc) (v : Dword) : State :=
  let die := servingDie own l
  if 2 ≤ s.futureState l then s.postEvent (s.partOf ctx) 2 (dieSource die 0) fut 0
  else s.resolveFuture die ctx fut l v false 0 0

/-- A task done (R321): STATE is DONE, its future, where it has one that is unresolved, takes the value, and its waiters
and successors are walked. -/
def State.finishTask (s : State) (own ctx : Nat) (l : Loc) (fut : Option Loc) (v : Dword) : State :=
  let die := servingDie own l
  let fva : Dword := BitVec.ofNat 64 (s.objNat l 56 8)
  let succ : Dword := BitVec.ofNat 64 (s.objNat l 24 8)
  let left := s.objNat l 20 4
  let s := s.setTaskState die l 3
  match fut with
  | none => s.startWalk { die := die, ctx := ctx, future := 0, node := 0, faulted := false, succ := succ, left := left }
  | some fl => s.resolveFuture (servingDie own fl) ctx fva fl v false succ left

/-- The end of a task's team without `tdone` (R316, R321). -/
def State.taskEnded (s : State) (own ctx : Nat) (tcb : Dword) : State :=
  match s.object ctx tcb with
  | none => s
  | some (s, l) =>
    if s.taskState l ≠ 2 then s
    else
      let fva : Dword := BitVec.ofNat 64 (s.objNat l 56 8)
      if fva = 0 then s.finishTask own ctx l none 0
      else
        match s.object ctx fva with
        | none => s.finishTask own ctx l none 0
        | some (s, fl) =>
          if 2 ≤ s.futureState fl then
            (s.postEvent (s.partOf ctx) 2 (dieSource (servingDie own fl) 0) fva tcb).finishTask own ctx l none 0
          else s.finishTask own ctx l (some fl) 0

/-- One step of a walk: the next waiter's task is decremented, or FUTURE_FAULTED posted for it, or else the next
successor is decremented; what is left of the walk. -/
def State.walkOnce (s : State) (w : Walk) : State × Option Walk :=
  if w.node ≠ 0 then
    match s.object w.ctx w.node with
    | none => (s, some { w with node := 0 })
    | some (s, l) =>
      let s := s.stampRead w.die l
      let tcb : Dword := BitVec.ofNat 64 (s.objNat l 0 8)
      let next : Dword := BitVec.ofNat 64 (s.objNat l 8 8)
      let s :=
        if w.faulted then s.postEvent (s.partOf w.ctx) 3 (dieSource w.die 0) w.future tcb else s.decrement w.die w.ctx tcb
      (s, some { w with node := next })
  else if w.left = 0 then (s, none)
  else
    let (s, tcb) := s.ctxNat w.ctx w.die w.succ.toNat 8
    (s.decrement w.die w.ctx (BitVec.ofNat 64 tcb), some { w with succ := w.succ + 8, left := w.left - 1 })

/-- The list of walks with its first one of a die stepped by `f`. -/
def stepWalk (die : Nat) (r : Option Walk) : List Walk → List Walk
  | [] => []
  | w :: rest =>
    if w.die = die then
      (match r with
       | none => rest
       | some v => if v.node = 0 ∧ v.left = 0 then rest else v :: rest)
    else w :: stepWalk die r rest

/-- TASK_DECREMENT (R316): the oldest walk of a die's QC takes its next step. -/
def execTaskDecrement (die : Nat) (s : State) : Out :=
  match s.walks.find? fun w => w.die == die with
  | none => .next s
  | some w =>
    let (s, r) := s.walkOnce w
    .next { s with walks := stepWalk die r s.walks }

/-! ### The instructions (R318) -/

/-- An operation on objects of 16 or 64 bytes (R318): they are aligned, the group's release at `.sys` has been performed,
they are translated and lie in the device's memory. -/
def onObjects (objs : List (Dword × Nat)) (s : State) (body : State → List Loc → Out) : Out :=
  if objs.any fun o => o.1.toNat % o.2 != 0 then s.fault causeMisaligned
  else if !s.atOrder .sys then s.stay .order
  else
    let s := s.release .sys
    s.gatherGroup .write s.grp.spl.mask (objs.map fun o => s.globalRun .write o.1.toNat o.2) fun s rows =>
      let ps := rows.flatMap id
      if ps.any fun p => foreignObject p.loc then s.fault causeProtection
      else
        let s := ps.foldl (fun (s : State) p => s.touch p.entry .write) s
        body (ps.foldl (fun (s : State) p => (s.landAt p.loc p.len).stampRead s.die p.loc) s) (ps.map Piece.loc)

/-- FRES (R319). -/
def execFres (w : UniShort) (s : State) : Out :=
  uniform w.g false 4 s fun s =>
    let fut := s.grp.uniGet w.a.toNat
    onObjects [(fut, 16)] s fun s ls =>
      match ls with
      | l :: _ =>
        if 2 ≤ s.futureState l then s.fault causeDoubleResolve
        else
          (s.resolveFuture (servingDie s.die l) (s.ctxOf s.grp.gid) fut l (s.uniB w) (w.d.getLsbD 0) 0 0).done 4
      | [] => s.done 4

/-- FREG (R320): on a resolved future the task named by the node is checked as an operand of the instruction is (R318). -/
def execFreg (w : UniShort) (s : State) : Out :=
  uniform w.g false 4 s fun s =>
    let fut := s.grp.uniGet w.a.toNat
    let node := s.grp.uniGet w.b.toNat
    onObjects [(fut, 16), (node, 16)] s fun s ls =>
      match ls with
      | l :: n :: _ =>
        let die := servingDie s.die l
        let ctx := s.ctxOf s.grp.gid
        let tcb : Dword := BitVec.ofNat 64 (s.objNat n 0 8)
        match s.futureState l with
        | 2 => onObjects [(tcb, 64)] s fun s _ => (s.decrement die ctx tcb).done 4
        | 3 => (s.postEvent (s.partOf ctx) 3 (dieSource die 0) fut tcb).done 4
        | st =>
          let s := s.objPut die n 8 8 (if st = 0 then 0 else s.futureList l)
          (s.objPut die l 0 8 (2 ^ 62 + node.toNat / 16)).done 4
      | _ => s.done 4

/-- TSPAWN (R321): LQH names a launch queue. -/
def execTspawn (w : UniShort) (s : State) : Out :=
  uniform w.g false 4 s fun s =>
    let tcb := s.grp.uniGet w.a.toNat
    onObjects [(tcb, 64)] s fun s ls =>
      match ls with
      | l :: _ =>
        if s.taskState l ≠ 0 ∨ s.objNat l 16 4 = 0 then s.fault causeProtection
        else
          withHandle s (BitVec.ofNat 64 (s.objNat l 32 8)) rightsEnq s.grp.spl.mask fun _ q =>
            if q.kind ≠ 3 ∨ q.swr then s.fault causeProtection
            else (s.decrement s.die (s.ctxOf s.grp.gid) tcb).done 4
      | [] => s.done 4

/-- TDONE (R321). -/
def execTdone (w : UniShort) (s : State) : Out :=
  uniform w.g false 4 s fun s =>
    onObjects [(s.grp.uniGet w.a.toNat, 64)] s fun s ls =>
      match ls with
      | l :: _ =>
        let ctx := s.ctxOf s.grp.gid
        let fva : Dword := BitVec.ofNat 64 (s.objNat l 56 8)
        if s.taskState l ≠ 2 then s.fault causeProtection
        else if fva = 0 then (s.finishTask s.die ctx l none (s.uniB w)).done 4
        else
          onObjects [(fva, 16)] s fun s fs =>
            match fs with
            | fl :: _ =>
              if 2 ≤ s.futureState fl then s.fault causeDoubleResolve
              else (s.finishTask s.die ctx l (some fl) (s.uniB w)).done 4
            | [] => s.done 4
      | [] => s.done 4

end Sys2Proof.Machine
end

