-- ==== Sys2Proof/Machine/Nodes.lean ====
section
/-!
DEFINITION. Graph nodes (R324 to R328): the node engine's decisions on arriving records and weight slots, reservations and
launches, and `gnode`.
-/
namespace Sys2Proof.Machine

/-! ### Control blocks and weight slots (R324, R327) -/

/-- What a node engine reads of a node's control block, with the context and die it reads in; `flush` is in µs, `rto` in ms. -/
structure NodeView where
  ctx : Nat
  die : Nat
  part : Nat
  ncb : Dword
  kdesc : Dword
  lqh : Dword
  stab : Dword
  flush : Nat
  rto : Nat
  nslot : Nat
  tile : Nat
  deriving DecidableEq, Repr

/-- The control block of the node bound to a queue, none where there is none or it cannot be read. -/
def State.nodeView (s : State) (k : Nat) : State × Option NodeView :=
  match lookupKey s.queues k with
  | none => (s, none)
  | some q =>
    match q.node with
    | none => (s, none)
    | some nd =>
      let ctx := s.ctxOfPasid q.part q.pasid
      match s.ctxLoadLong ctx q.home nd.ncb.toNat 4 with
      | (s, none) => (s, none)
      | (s, some bs) =>
        (s, some
          { ctx := ctx, die := q.home, part := q.part, ncb := nd.ncb, kdesc := BitVec.ofNat 64 (fieldAt bs 56 8)
            lqh := BitVec.ofNat 64 (fieldAt bs 40 8), stab := BitVec.ofNat 64 (fieldAt bs 24 8), flush := fieldAt bs 20 4
            rto := if fieldAt bs 18 2 = 0 then 10 else fieldAt bs 18 2, nslot := fieldAt bs 17 1, tile := fieldAt bs 0 1 % 64 })

/-- A weight slot as its table entry stands (R327): state 0 FREE, 1 FETCHING, 2 RESIDENT. -/
structure WeightSlot where
  num : Nat
  expert : Word
  st : Nat
  pin : Bool
  dqh : Dword
  deriving DecidableEq, Repr

/-- The weight slots of a node, ascending. -/
def State.weightSlots (s : State) (v : NodeView) : State × List WeightSlot :=
  (List.range v.nslot).foldl
    (fun acc i =>
      match acc.1.ctxLoadLong v.ctx v.die (v.stab.toNat + 32 * i) 2 with
      | (s, none) => (s, acc.2)
      | (s, some bs) =>
        (s, acc.2 ++
          [{ num := i, expert := BitVec.ofNat 32 (fieldAt bs 0 4), st := fieldAt bs 4 1 % 8
             pin := fieldAt bs 4 1 / 8 % 2 == 1, dqh := BitVec.ofNat 64 (fieldAt bs 16 8) }]))
    (s, [])

/-- A slot's expert and state written (R327). -/
def State.setSlot (s : State) (v : NodeView) (w : WeightSlot) (expert : Word) (st : Nat) : State :=
  (s.ctxStore v.ctx v.die (v.stab.toNat + 32 * w.num)
    (leBytes 4 expert.toNat ++ leBytes 1 (st + if w.pin then 8 else 0))).getD s

/-- A node changed. -/
def State.onNode (s : State) (k : Nat) (f : Node → Node) : State := s.onQueue k fun q => { q with node := q.node.map f }

/-- The deferred queue of a slot. -/
def State.deferredQueue (s : State) (v : NodeView) (w : WeightSlot) : Option Nat :=
  match s.checkHandle v.part w.dqh 0 with
  | .ok k => some k
  | .error _ => none

/-- Whether a queue holds no record, in its slots or in the QC. -/
def State.emptyQueue (s : State) (k : Nat) : Bool :=
  match lookupKey s.queues k with
  | none => true
  | some q => q.tail == q.head && q.deferred.isEmpty

/-- Whether a reserved record of an expert is in flight: reserved, set aside when its launch packed it, or the item of a lane
of a group (R327). -/
def State.expertInFlight (s : State) (k : Nat) (expert : Word) : Bool :=
  let hit (d : BitVec 128) : Bool := descFlow d == expert
  (match (lookupKey s.queues k).bind (·.node) with
   | none => false
   | some nd => nd.reserved.any fun r => r.2.any fun it => hit it.desc)
  || (((lookupKey s.queues k).map fun q => (q.held ++ q.reinjected).any fun it => hit it.desc).getD false)
  || (s.groups.any fun g => g.items.any fun e => e.2.qkey == k && hit e.2.desc)
  || (s.teams.any fun e =>
        e.2.phase == .preempted && e.2.bound == some k
        && (List.range e.2.ng).any fun g => (s.imageItems e.2 g).any fun i => hit i.2.desc)

/-- The victim among a node's slots (R327): RESIDENT, not pinned, with an empty deferred queue and no reserved record in
flight, the least recently used, ties to the lower number. -/
def State.victimSlot (s : State) (k : Nat) (v : NodeView) (ws : List WeightSlot) : Option WeightSlot :=
  let lru := (((lookupKey s.queues k).bind (·.node)).map (·.lru)).getD []
  let age (w : WeightSlot) : Nat := ((lru.findIdx? fun n => n == w.num).map (· + 1)).getD 0
  let may (w : WeightSlot) : Bool :=
    w.st == 2 && !w.pin && (match s.deferredQueue v w with | none => true | some d => s.emptyQueue d)
    && !s.expertInFlight k w.expert
  (orderBy (fun a b => decide (age a ≤ age b)) (ws.filter may)).head?

/-- A slot used: it is the most recently used. -/
def State.useSlot (s : State) (k n : Nat) : State := s.onNode k fun nd => { nd with lru := (nd.lru.filter fun m => m != n) ++ [n] }

/-! ### Arriving records (R327, R328) -/

/-- A slot begins to fetch an expert (R327): the fetch request goes into the call ring, the record to the deferred queue. -/
def State.startFetch (s : State) (k : Nat) (v : NodeView) (w : WeightSlot) (d : BitVec 128) : State × Bool :=
  match s.deferredQueue v w with
  | none => (s, false)
  | some dk =>
    if !s.callRoom v.part then (s, false)
    else
      let e := descFlow d
      let s := s.setSlot v w e 1
      let s := s.postCall v.part v.ctx 0 (requestOf 4 [v.ncb, BitVec.ofNat 64 w.num, e.setWidth 64])
      ((s.appendOrHold dk d).useSlot k w.num, true)

/-- A record that arrived at a Postmark met by the table of R327: it becomes eligible, moves to a deferred queue, or (false) has to wait. -/
def State.nodeTry (s : State) (k : Nat) (v : NodeView) (d : BitVec 128) (at_ : Nat) : State × Bool :=
  if v.stab = 0 then (s.onNode k fun nd => { nd with eligible := nd.eligible ++ [(d, at_)] }, true)
  else
    let (s, ws) := s.weightSlots v
    match ws.find? fun w => (w.st == 1 || w.st == 2) && w.expert == descFlow d with
    | some w =>
      if w.st = 2 then ((s.useSlot k w.num).onNode k fun nd => { nd with eligible := nd.eligible ++ [(d, at_)] }, true)
      else
        match s.deferredQueue v w with
        | none => (s, false)
        | some dk => (s.appendOrHold dk d, true)
    | none =>
      match ws.find? fun w => w.st == 0 with
      | some w => s.startFetch k v w d
      | none =>
        match s.victimSlot k v ws with
        | some w => s.startFetch k v w d
        | none => (s, false)

/-- The records of the wait list met again in their order; those that still have to wait stay (R328). -/
def State.retryWait (s : State) (k : Nat) (v : NodeView) : State :=
  match (lookupKey s.queues k).bind (·.node) with
  | none => s
  | some nd =>
    let r := nd.wait.foldl
      (fun (acc : State × List (BitVec 128 × Nat)) e =>
        match acc.1.nodeTry k v e.1 e.2 with
        | (s, true) => (s, acc.2)
        | (s, false) => (s, acc.2 ++ [e]))
      (s, [])
    r.1.onNode k fun nd' => { nd' with wait := r.2, posted := nd'.posted && r.2.length == nd.wait.length }

/-- NODE_RECORD_ARRIVAL (R327, R328): the record at HEAD is taken while the wait list has room. DESIGN CHOICE (log 15): the
node takes it only while fewer than TILE of the records it has taken are unreserved, so that records stay in the queue. -/
def execNodeRecordArrival (qkey : Nat) (s : State) : Out :=
  match s.nodeView qkey with
  | (s, none) => .next s
  | (s, some v) =>
    let s := s.retryWait qkey v
    let nd := (lookupKey s.queues qkey).bind (·.node)
    if 256 ≤ (nd.map (·.wait.length)).getD 0 ∨ v.tile ≤ (nd.map (·.eligible.length)).getD 0 then .next s
    else
      match s.head qkey with
      | (s, none) => .next s
      | (s, some bs) =>
        let (s, d) := s.takeItem qkey (BitVec.ofNat 128 (leNat (bs.take 16)))
        match s.nodeTry qkey v d s.postmark.toNat with
        | (s, true) => .next s
        | (s, false) => .next (s.onNode qkey fun nd => { nd with wait := nd.wait ++ [(d, s.postmark.toNat)] })

/-- Whether the expert of a record has its weights in a slot, as the table stands (R325). -/
def State.residentIn (s : State) (v : NodeView) : State × (BitVec 128 → Bool) :=
  if v.stab = 0 then (s, fun _ => true)
  else
    let (s, ws) := s.weightSlots v
    (s, fun d => ws.any fun w => w.st == 2 && w.expert == descFlow d)

/-- Unreserved records whose expert is no longer resident are met again (R325, R327); one that has to wait and finds the wait
list full stays where it is. -/
def State.recheck (s : State) (k : Nat) (v : NodeView) : State :=
  let (s, ok) := s.residentIn v
  match (lookupKey s.queues k).bind (·.node) with
  | none => s
  | some nd =>
    nd.eligible.foldl
      (fun s e =>
        if ok e.1 then s.onNode k fun nd => { nd with eligible := nd.eligible ++ [e] }
        else
          match s.nodeTry k v e.1 e.2 with
          | (s, true) => s
          | (s, false) => s.onNode k fun nd =>
              if 256 ≤ nd.wait.length then { nd with eligible := nd.eligible ++ [e] } else { nd with wait := nd.wait ++ [e] })
      (s.onNode k fun nd => { nd with eligible := [] })

/-- The first `n` entries that `ok` picks, and the entries that are left. -/
def pickFirst {α : Type} (ok : α → Bool) : Nat → List α → List α × List α
  | 0, l => ([], l)
  | _, [] => ([], [])
  | n + 1, x :: rest =>
    if ok x then ((x :: (pickFirst ok n rest).1), (pickFirst ok n rest).2)
    else ((pickFirst ok (n + 1) rest).1, x :: (pickFirst ok (n + 1) rest).2)

/-- A launch of up to TILE of the oldest eligible records, where there are at least `least` (R325). DESIGN CHOICE (log 15):
records of the queue that were re-injected, and those set aside whose lock is free, are reserved ahead of the others; a
launch queue that is full lets the node wait. -/
def State.reserve (s : State) (k least : Nat) (v : NodeView) : State :=
  let (s, ok) := s.residentIn v
  match lookupKey s.queues k, (lookupKey s.queues k).bind (·.node), s.launchQueue v.part v.lqh with
  | some q, some nd, some lq =>
    let (back, inj) := pickFirst (fun it => descClass it.desc != 3 && ok it.desc) v.tile q.reinjected
    let (aside, held) := pickFirst (fun it => s.heldFree q it && ok it.desc) (v.tile - back.length) q.held
    let (new, left) := pickFirst (fun e => ok e.1) (v.tile - back.length - aside.length) nd.eligible
    let chosen := back ++ aside ++ new.map fun e => ({ desc := e.1, qkey := k, lock := none } : Item)
    let full := ((lookupKey s.queues lq).map fun l => l.full || !l.deferred.isEmpty).getD true
    if chosen.length < least ∨ full then s
    else
      let s := s.onQueue k fun q =>
        { q with
          reinjected := inj, held := held
          node := some { nd with eligible := left, launches := nd.launches + 1, restart := s.postmark.toNat
                                 reserved := nd.reserved ++ [(nd.launches, chosen)] } }
      let (s, pri) := s.kernelPri v.ctx v.die v.kdesc
      s.appendOrHold lq (launchRecord v.ncb 3 pri 0)
  | _, _, _ => s

/-- NODE_RESERVE (R325): at least TILE eligible records are unreserved. -/
def execNodeReserve (qkey : Nat) (s : State) : Out :=
  match s.nodeView qkey with
  | (s, none) => .next s
  | (s, some v) =>
    let s := (s.recheck qkey v).retryWait qkey v
    .next (if v.tile = 0 then s else s.reserve qkey v.tile v)

/-- When the flush timer of a node began: at the arrival of the oldest unreserved record, or at the last reservation (R325). -/
def Node.flushFrom (nd : Node) (now : Nat) : Nat :=
  max nd.restart ((nd.eligible ++ nd.wait).foldl (fun t e => min t e.2) now)

/-- NODE_FLUSH_EXPIRY (R325): FLUSH µs have passed on the flush timer and at least one eligible record is unreserved. -/
def execNodeFlushExpiry (qkey : Nat) (s : State) : Out :=
  match s.nodeView qkey with
  | (s, none) => .next s
  | (s, some v) =>
    let s := (s.recheck qkey v).retryWait qkey v
    let late := match (lookupKey s.queues qkey).bind (·.node) with
      | none => false
      | some nd => decide (nd.flushFrom s.postmark.toNat + 1000 * v.flush ≤ s.postmark.toNat)
    .next (if v.tile = 0 ∨ v.flush = 0 ∨ !late then s else s.reserve qkey 1 v)

/-- RESIDENCY (R328): the oldest waiting record has waited for RTO; posted once until a record leaves the list. -/
def execResidency (qkey : Nat) (s : State) : Out :=
  match s.nodeView qkey with
  | (s, none) => .next s
  | (s, some v) =>
    match (lookupKey s.queues qkey).bind (·.node) with
    | none => .next s
    | some nd =>
      match nd.wait with
      | [] => .next s
      | e :: _ =>
        if nd.posted ∨ s.postmark.toNat < e.2 + 1000000 * v.rto then .next s
        else
          let s := s.onNode qkey fun nd => { nd with posted := true }
          .next (s.postEvent v.part 7 (dieSource v.die 0) nd.ncb ((descFlow e.1).setWidth 64))

/-- RESIDENT for a slot (R327): a FETCHING slot is RESIDENT, and its deferred records return ahead of the unreserved ones. -/
def State.slotResident (s : State) (k : Nat) (v : NodeView) (w : WeightSlot) : State :=
  if w.st ≠ 1 then s
  else
    let s := (s.setSlot v w w.expert 2).useSlot k w.num
    match s.deferredQueue v w with
    | none => s
    | some dk =>
      let n := match lookupKey s.queues dk with
        | none => 0
        | some q => q.count + q.deferred.length
      let (s, ds) := (List.range n).foldl
        (fun acc _ =>
          match acc.1.head dk with
          | (s, none) => (s, acc.2)
          | (s, some bs) => ((s.headPast dk).settleQueue dk, acc.2 ++ [BitVec.ofNat 128 (leNat (bs.take 16))]))
        (s, ([] : List (BitVec 128)))
      (s.onNode k fun nd => { nd with eligible := (ds.map fun d => (d, s.postmark.toNat)) ++ nd.eligible }).retryWait k v

/-! ### gnode (R326) -/

/-- The record queue's copy of n records in order, sequence numbers assigned (R326). -/
def State.enqueueAll (s : State) (k : Nat) (ds : List (BitVec 128)) : State := ds.foldl (fun s d => (s.enqueue k d).1) s

/-- GNODE (R326). A closed record queue takes none, as `qenq` would be refused. -/
def execGnode (w : UniShort) (s : State) : Out :=
  uniform w.g false 4 s fun s =>
    let ncb := s.grp.uniGet w.a.toNat
    let src := s.grp.uniGet w.d.toNat
    let n := (s.uniB w).toNat
    let mask := s.grp.spl.mask
    if ncb.toNat % 64 ≠ 0 ∨ src.toNat % 16 ≠ 0 then s.fault causeMisaligned
    else
      s.gatherGroup .read mask [s.globalRun .read ncb.toNat 64] fun s rows =>
        let (s, bs) := s.loadPieces (rows.flatMap id)
        withHandle s (BitVec.ofNat 64 (fieldAt bs 48 8)) rightsEnq mask fun k q =>
          if q.swr ∨ q.kind = 2 ∨ n = 0 ∨ 2 ^ q.logcap < n then s.fault causeProtection
          else
            let places := (List.range n).map fun i => s.globalRun .read (src.toNat + 16 * i) 16
            s.gatherGroup .read mask places fun s rows =>
              let (s, bs) := s.loadPieces (rows.flatMap id)
              let ds := (List.range n).map fun i => BitVec.ofNat 128 (fieldAt bs (16 * i) 16)
              if q.kind = 1 ∧ ds.any fun d => descClass d = 3 then s.fault causeProtection
              else if !s.atOrder .sys then s.stay .order
              else
                let s := (s.release .sys).settleQueue k
                let room := match lookupKey s.queues k with
                  | none => true
                  | some q => decide (q.count + n ≤ 2 ^ q.logcap) && q.deferred.isEmpty
                if q.closed then s.done 4
                else if room then (s.enqueueAll k ds).done 4
                else s.stay .queue

end Sys2Proof.Machine
end

