-- ==== Sys2Proof/Machine/Commands.lean ====
section
/-!
DEFINITION. The command port of a queue controller (R302, R303, R305, R308, R309, R327, R424).
-/
namespace Sys2Proof.Machine

/-! ### Queue control blocks in memory (R302) -/

/-- The physical address of a queue's QCB. -/
def State.qcbAddr (s : State) (part qnum : Nat) : Nat := (s.partReg part 0x28).toNat + 64 * qnum

/-- The QCB of a queue as it stands in memory. -/
def State.qcbInMemory (s : State) (part qnum : Nat) : BitVec 512 :=
  BitVec.ofNat 512 (leNat (s.mem.bytes (s.qcbAddr part qnum) 64))

/-- A cached QCB written back as a whole. -/
def State.writeBack (s : State) (k : Nat) : State :=
  match lookupKey s.queues k with
  | none => s
  | some q =>
    let s := s.unitStore q.home ⟨0, s.qcbAddr (k / 2 ^ 24) (qnumOf k)⟩ (leBytes 64 q.block.toNat)
    s.onQueue k fun q => { q with dirty := false }

/-- QCB_WRITEBACK (R302): HEAD and TAIL are written back. -/
def execQcbWriteback (qkey : Nat) (s : State) : Out :=
  match lookupKey s.queues qkey with
  | none => .next s
  | some q =>
    let at_ := s.qcbAddr (qkey / 2 ^ 24) (qnumOf qkey)
    let s := s.unitStore q.home ⟨0, at_ + 48⟩ (leBytes 4 q.head.toNat ++ leBytes 4 q.tail.toNat)
    .next (s.onQueue qkey fun q => { q with dirty := false })

/-! ### Sorting Offices and their launch-queue indices (R341) -/

/-- A queue released: it is no longer open, and its launch-queue index is free (R309, R341). -/
def State.releaseQueue (s : State) (k : Nat) : State :=
  match lookupKey s.queues k with
  | none => s
  | some q =>
    let s := (s.writeBack k).onOffice q.home fun o => { o with indices := o.indices.filter fun i => i.2 != k }
    { s with queues := eraseKey s.queues k }

/-! ### Refusal and checks (R305, R424) -/

/-- A command dropped with CMD_REFUSED (R305, R332). -/
def State.refuseCommand (s : State) (c : QcCommand) (op : Nat) : State :=
  s.postEvent (s.partOf c.ctx) 6 (dieSource c.die 0) ((c.handle.extractLsb' 40 24).setWidth 64) (BitVec.ofNat 64 op)

/-- The handle's PART and GEN match the context of the doorbell page (R424). -/
def State.commandMatches (s : State) (c : QcCommand) : Bool :=
  match lookupKey s.contexts c.ctx with
  | none => false
  | some x => (c.handle.extractLsb' 32 5).toNat == x.part && (c.handle.extractLsb' 24 8).toNat == x.gen % 256

/-- A command on an open queue of the die whose handle passes checks 1 to 3 of R305 (R309). -/
def State.command (s : State) (c : QcCommand) (op : Nat) (need : BitVec 3) (body : State → Nat → Queue → State) : State :=
  if !s.commandMatches c then s.refuseCommand c op
  else
    match s.checkHandle (s.partOf c.ctx) c.handle need with
    | .error _ => s.refuseCommand c op
    | .ok k =>
      match lookupKey s.queues k with
      | none => s.refuseCommand c op
      | some q => if q.home ≠ c.die then s.refuseCommand c op else body s k q

/-- All three rights. -/
def rightsAll : BitVec 3 := 7

/-! ### The commands (R309) -/

/-- HOME of a queue: of its open QCB, else of the one in memory. -/
def State.homeOf (s : State) (part qnum : Nat) : Nat :=
  match lookupKey s.queues (queueKeyOf part qnum) with
  | some q => q.home
  | none => (queueOfBlock (s.qcbInMemory part qnum)).home

/-- What OPEN requires of a QCB (R303). -/
def State.mayOpen (s : State) (part die : Nat) (q : Queue) : Bool :=
  decide (4 ≤ q.logcap) && decide (q.logcap ≤ 24) && decide (q.kind ≤ 3) && (q.kind != 2 || q.slot)
  && ((q.kind != 1 && q.kind != 3) || !q.slot) && q.home == die && (!q.fqv || s.homeOf part q.fq == q.home)

/-- OPEN (R303, R305, R309, R341). -/
def State.openQueue (s : State) (c : QcCommand) : State :=
  let part := s.partOf c.ctx
  let h := c.handle
  let qnum := (h.extractLsb' 40 24).toNat
  let k := queueKeyOf part qnum
  let q := queueOfBlock (s.qcbInMemory part qnum)
  let handleOk := h.extractLsb' 0 24 == handleCheck (s.queueKey part) (h.extractLsb' 24 40)
    && (h.extractLsb' 32 5).toNat == part && decide (qnum < (s.partReg part 0x30).toNat)
    && q.gen % 256 == (h.extractLsb' 24 8).toNat && h.extractLsb' 37 3 == rightsAll
  if !s.commandMatches c || !handleOk || (lookupKey s.queues k).isSome || !s.mayOpen part c.die q then s.refuseCommand c 0
  else
    let now := s.postmark.toNat
    let q := { q with arrivals := if q.kind = 3 then List.replicate q.count now else [] }
    if q.kind = 3 then
      match lowestFree (s.office c.die).indices 64 with
      | none => s.refuseCommand c 0
      | some i =>
        { s with queues := insertKey s.queues k q }.onOffice c.die fun o => { o with indices := insertKey o.indices i k }
    else { s with queues := insertKey s.queues k q }

/-- OPEN. -/
def execQcOpen (c : QcCommand) (s : State) : Out := .next (s.openQueue c)

/-- CLOSE (R302, R309). -/
def State.closeQueue (s : State) (c : QcCommand) : State :=
  s.command c 1 rightsAll fun s k _ => (s.onQueue k fun q => { q with closed := true }).writeBack k

/-- CLOSE. -/
def execQcClose (c : QcCommand) (s : State) : Out := .next (s.closeQueue c)

/-- NOTIFY (R308). -/
def State.notify (s : State) (c : QcCommand) : State :=
  s.command c 2 rightsEnq fun s k q =>
    let t : Word := c.arg.extractLsb' 0 32
    let ahead := (t - q.tail).toNat
    if !q.swr || q.closed then s.refuseCommand c 2
    else if ahead = 0 ∨ 2 ^ 31 ≤ ahead then s
    else if 2 ^ q.logcap < (t - q.head).toNat then s.refuseCommand c 2
    else
      let now := s.postmark.toNat
      s.onQueue k fun q =>
        { q with tail := t, dirty := true
                 arrivals := if q.kind = 3 then q.arrivals ++ List.replicate ahead now else [] }

/-- NOTIFY. -/
def execQcNotify (c : QcCommand) (s : State) : Out := .next (s.notify c)

/-- Whether nothing of a queue is left in the QC or bound to it, so that FLUSH may release it (R309). -/
def State.mayRelease (s : State) (k : Nat) (q : Queue) : Bool :=
  q.closed && q.tail == q.head && q.held.isEmpty && q.reinjected.isEmpty && q.deferred.isEmpty && q.records.isEmpty
  && q.bound.isEmpty && q.node.isNone && !((s.parkedTable q.home).any fun p => p.qkey == k)
  && !(s.parkLater.any fun p => p.item.qkey == k)

/-- FLUSH (R309). -/
def State.flushQueue (s : State) (c : QcCommand) : State :=
  s.command c 3 rightsAll fun s k q => if s.mayRelease k q then s.releaseQueue k else s.writeBack k

/-- FLUSH. -/
def execQcFlush (c : QcCommand) (s : State) : Out := .next (s.flushQueue c)

/-- NODE (R309, R324): the records an unbound node had taken and no group has packed return to the queue's lists, ahead of
the queue's (log 15). -/
def State.bindNode (s : State) (c : QcCommand) : State :=
  s.command c 4 rightsAll fun s k q =>
    let ncb : Dword := c.arg.setWidth 64
    if q.kind ≠ 1 ∨ ncb.toNat % 64 ≠ 0 then s.refuseCommand c 4
    else
      let back : List Item := match q.node with
        | none => []
        | some nd =>
          nd.reserved.flatMap (·.2) ++ (nd.eligible ++ nd.wait).map fun e => { desc := e.1, qkey := k, lock := none }
      let node : Option Node :=
        if ncb = 0 then none
        else some { ncb := ncb, eligible := [], reserved := [], launches := 0, restart := s.postmark.toNat, wait := [], lru := [], posted := false }
      s.onQueue k fun q =>
        { q with reinjected := back.filter (·.lock.isSome) ++ q.reinjected, held := back.filter (·.lock.isNone) ++ q.held
                 node := node }

/-- NODE. -/
def execQcNode (c : QcCommand) (s : State) : Out := .next (s.bindNode c)

/-- RESIDENT (R309, R327). -/
def State.resident (s : State) (c : QcCommand) : State :=
  s.command c 5 (rightsEnq ||| rightsDeq) fun s k _ =>
    match s.nodeView k with
    | (s, none) => s.refuseCommand c 5
    | (s, some v) =>
      let n := (c.arg.extractLsb' 0 8).toNat
      if v.stab = 0 ∨ v.nslot ≤ n then s.refuseCommand c 5
      else
        let (s, ws) := s.weightSlots v
        match ws.find? fun w => w.num == n with
        | none => s.refuseCommand c 5
        | some w => s.slotResident k v w

/-- RESIDENT. -/
def execQcResident (c : QcCommand) (s : State) : Out := .next (s.resident c)

/-- RESERVED_COMMAND (R309): a reserved OP is dropped with CMD_REFUSED. -/
def execReservedCommand (c : QcCommand) (op : BitVec 4) (s : State) : Out := .next (s.refuseCommand c op.toNat)

/-- A command by its OP, as the port takes it (R309). -/
def State.runCommand (s : State) (op : Nat) (c : QcCommand) : State :=
  match op with
  | 0 => s.openQueue c
  | 1 => s.closeQueue c
  | 2 => s.notify c
  | 3 => s.flushQueue c
  | 4 => s.bindNode c
  | 5 => s.resident c
  | _ => s.refuseCommand c op

end Sys2Proof.Machine
end

