-- ==== Sys2Proof/Machine/Control.lean ====
section
/-!
DEFINITION. Branches, calls and returns, reconvergence and exit (R191 to R202), the frame-request and spill events
(R183 to R189), and the issue events (R24, R25, R61, R194).
-/
namespace Sys2Proof.Machine

/-! ### Branches (R191, R196, R197) -/

/-- The target of an EB branch: PC + 4 × sext(offset, 24). -/
def ebTarget (pc : Dword) (e : EB) : Dword := pc + 4 * e.offset.signExtend 64

/-- The lowest split number that is free in a group. -/
def Group.freeSplit (g : Group) : Option Nat :=
  (List.range 4).find? fun n => !(g.splits.any fun p => p.num == n && p.mask != 0)

/-- A divergence (R191): the lanes of `t` go to the target, those of `n` to `next`, in a new split or, with four splits
or in handler mode (R358), as a deferred entry. -/
def State.diverge (s : State) (t n : Mask) (target next : Dword) : Out :=
  let g := s.grp
  match (if g.handler.isSome then none else g.freeSplit) with
  | some k =>
    let child : Split :=
      { g.spl with num := k, mask := n, pc := next, dstack := [], waitCount := 0, refusals := 0, urgent := none
                   born := s.turn, status := .run }
    .next ((s.onGrp fun g => { g with spl := { g.spl with mask := t }, sibs := (g.sibs.filter fun p => p.mask != 0) ++ [child] }).goto
      target)
  | none =>
    if 8 ≤ g.spl.dstack.length then s.fault causeStack
    else
      let d : Deferred := { waiting := false, mask := n, pc := next, fn := g.spl.topFn, since := s.postmark.toNat }
      .next ((s.onGrp fun g => { g with spl := { g.spl with mask := t, dstack := d :: g.spl.dstack } }).goto target)

/-- BRA (R196). -/
def execBra (_w : UniShort) (e : EB) (s : State) : Out :=
  let pc := s.grp.spl.pc
  let target := ebTarget pc e
  if e.kind then
    let t := s.grp.effMask e.pred e.neg
    let n := s.grp.spl.mask &&& ~~~t
    if n = 0 then .next (s.goto target)
    else if t = 0 then s.done 8
    else s.diverge t n target (pc + 8)
  else if s.grp.qGet e.pred.toNat ^^ e.neg then .next (s.goto target)
  else s.done 8

/-- BRX (R197). -/
def execBrx (w : UniShort) (s : State) : Out :=
  uniform w.g false 4 s fun s =>
    let a := s.grp.uniGet w.a.toNat
    if a.toNat % 4 ≠ 0 then s.fault causeMisaligned else .next (s.goto a)

/-! ### Calls (R198) -/

/-- The descriptor that a call of the issuing split pushes out of the resident 16 (R181). -/
def Group.pushedOut (g : Group) : Option Nat := if 16 ≤ g.spl.near then g.spl.chain[15]? else none

/-- The place of the spill area that takes the descriptor that a call pushes out. -/
def Group.pushPlaces (g : Group) : List Nat := (g.pushedOut.map g.descAddr).toList

/-- A granted call of the issuing split: the frame is pushed, the descriptor that falls out of the resident 16 is written to
the spill area, and the callee begins. -/
def State.pushCall (s : State) (fn : Nat) (target : Dword) (fc kc : Nat) (rpc : Dword) : State :=
  let dep := match s.grp.top? with | none => 0 | some f => f.dep
  let gm := s.takeGranules s.grp.sub (fc + 1)
  let s := match s.grp.pushedOut with
    | none => s
    | some out => s.putDescriptor s.grp.gid out
  (s.onGrp fun g => g.push fn (dep + 1) fc kc rpc gm).goto target

/-- A group's spill area is reached, or the instruction waits for its translation; what cannot be resolved there is a
context fault (R182). -/
def State.spilling (s : State) (k : Access) (vas : List Nat) (go : State → Out) : Out :=
  if vas.isEmpty then go s else
  match s.spillReach s.grp.gid s.grp.spl.num k vas with
  | (s, .ok) => go s
  | (s, .wait) => s.stay .translate
  | (s, .fail) => .next (s.haltSoon (s.partition s.grp.gid) causeSpill)

/-- A call (R198): STACK_OVERFLOW at the depth limit or without a frame number, the frame at once where the queue and
the granules allow it, else FRAME-WAIT. -/
def State.callTo (s : State) (d : BitVec 6) (target rpc : Dword) : Out :=
  let fc := (d.extractLsb' 3 3).toNat
  let kc := (d.extractLsb' 1 2).toNat
  let dep := match s.grp.top? with | none => 0 | some f => f.dep
  match s.grp.freeFrame with
  | none => s.fault causeStack
  | some fn =>
    if 127 ≤ dep then s.fault causeStack
    else if s.mayGrant s.grp.sub s.grp.gid s.grp.spl.num (fc + 1) then
      s.spilling .write s.grp.pushPlaces fun s => .next (s.pushCall fn target fc kc rpc)
    else
      let s := s.request
        { sub := s.grp.sub, gid := s.grp.gid, sp := s.grp.spl.num, granules := fc + 1, need := .call target fc kc rpc }
      .next (s.onGrp fun g => g.onSpl fun p => { p with status := .frameWait })

/-- CALL (R198). -/
def execCall (w : UniShort) (e : EB) (s : State) : Out :=
  let pc := s.grp.spl.pc
  if s.grp.qGet e.pred.toNat ^^ e.neg then s.callTo w.d (ebTarget pc e) (pc + 8) else s.done 8

/-- CALLX (R198). -/
def execCallx (w : UniShort) (s : State) : Out :=
  uniform w.g false 4 s fun s =>
    let a := s.grp.uniGet w.a.toNat
    if a.toNat % 4 ≠ 0 then s.fault causeMisaligned else s.callTo w.d a (s.grp.spl.pc + 4)

/-! ### Returns (R192, R199, R200) -/

/-- What resolving the deferred entries of the current frame comes to: the instruction goes on with the split as it
stands, or the lanes have been switched and it is done. -/
inductive Resolved
  | goOn (p : Split)
  | switched (p : Split)
  | unchanged
  deriving DecidableEq, Repr

/-- The `ret` rows of R192, the stack examined again after each pop. -/
def resolveRet : Nat → Split → Resolved
  | 0, p => .goOn p
  | n + 1, p =>
    match p.dstack with
    | [] => .goOn p
    | d :: rest =>
      if d.fn ≠ p.topFn then .goOn p
      else if !d.waiting then
        .switched { p with mask := d.mask, pc := d.pc, dstack := { d with waiting := true, mask := p.mask, pc := p.pc } :: rest }
      else if d.pc = p.pc then resolveRet n { p with mask := p.mask ||| d.mask, dstack := rest }
      else
        .switched { p with mask := d.mask, pc := d.pc + 4, dstack := { d with mask := p.mask, pc := p.pc } :: rest }

/-- A fill of frame `fn` that the issuing split waits for (R189). -/
def State.fillWait (s : State) (f : Frame) : Out :=
  let s := s.request
    { sub := s.grp.sub, gid := s.grp.gid, sp := s.grp.spl.num, granules := f.fc + 1, need := .fill f.fn }
  .next (s.onGrp fun g => g.onSpl fun p => { p with status := .fillWait })

/-- The return of the issuing split to a caller that is resident (R199): the overlap registers come back, the frame leaves
the chain, and the split goes on behind the call. -/
def State.returnTo (s : State) (rpc : Dword) : State :=
  (s.onGrp fun g => (g.returnOverlap g.spl.mask).pop).goto rpc

/-- RET (R199): the caller's descriptor is read back where it was spilled, and the caller is filled where it is not
resident; once it is filled the `ret` finishes. -/
def execRet (w : UniShort) (s : State) : Out :=
  uniform w.g false 4 s fun s =>
    match s.grp.top? with
    | none => s.fault causeStack
    | some top =>
      if top.dep = 0 then s.fault causeStack
      else
        match resolveRet 9 s.grp.spl with
        | .switched p => .next (s.onGrp fun g => { g with spl := p })
        | .unchanged => s.done 4
        | .goOn p =>
          let s := s.onGrp fun g => { g with spl := p }
          match s.readBack with
          | (s, .wait) => s.stay .translate
          | (s, .fail) => .next (s.haltSoon (s.partition s.grp.gid) causeSpill)
          | (s, .ok) =>
            match s.grp.frame? top.pfn with
            | none => s.fault causeStack
            | some par => if !par.res then s.fillWait par else .next (s.returnTo top.rpc)

/-- The registers 0 to k - 1 of a frame, register i in lane L at key 32i + L. -/
def Frame.overlapRegs (f : Frame) : Sparse Word := f.regs.filter fun e => decide (e.1 < 32 * overlapOf f.kc)

/-- The overlap registers of a frame copied to the window of the issuing split's top frame, in the split's lanes (R200,
step 4). -/
def Group.putOverlap (g : Group) (c : Cont) : Group :=
  (List.range c.count).foldl
    (fun g i =>
      match locate g.frames g.spl.chain (g.frameSize - c.count + i) with
      | none => g
      | some (pf, pr) => (lanesOf g.spl.mask).foldl (fun g l => g.frameSet pf pr l (Sparse.get 0 c.values (32 * i + l))) g)
    g

/-- The top `n` frames leave the issuing split's chain and the deferred lanes of those frames join it (R200, steps 1 and 2);
what is left to do once the new top is resident stands in `c`. -/
def Group.unwindFrames (g : Group) (n : Nat) (c : Cont) : Group :=
  let gone := g.spl.chain.take n
  let joined := (g.spl.dstack.filter fun d => gone.contains d.fn).foldl (fun m d => m ||| d.mask) g.spl.mask
  let g := { g with spl := { g.spl with mask := joined, dstack := g.spl.dstack.filter fun d => !gone.contains d.fn
                                        chain := g.spl.chain.drop n, near := max 1 (g.spl.near - n), cont := some c } }
  gone.foldl Group.release g

/-- Steps 4 and 5 of R200 for a split of a group whose new top is resident, the one in focus or one that a handler entry
froze: the overlap registers are copied, and the split goes on behind the call of the n-th frame. -/
def Group.endUnwind (g : Group) (p : Split) (c : Cont) : Group × Split :=
  ({ ({ g with spl := p } : Group).putOverlap c with spl := g.spl }, { p with cont := none, pc := c.rpc, status := .run, arrived := false })

/-- Step 3 of R200, and where nothing is to be filled steps 4 and 5. -/
def State.finishUnwind (s : State) (c : Cont) : Out :=
  match s.grp.top? with
  | none => s.fault causeStack
  | some par =>
    if !par.res then s.fillWait par
    else
      .next (s.onGrp fun g =>
        let (g, p) := g.endUnwind g.spl c
        { g with spl := p })

/-- The descriptors of the frames that an `unwind` reaches beyond those the sub-core keeps (R181), and the image of an
evicted n-th frame whose overlap registers it needs (R200, R297). -/
def Group.unwindPlaces (g : Group) (n : Nat) (f : Frame) : List Nat :=
  (((g.spl.chain.take (n + 1)).drop g.spl.near).map g.descAddr)
  ++ (if f.ovll && !f.res then [g.imageAddr f.fn 0] else [])

/-- What an `unwind` of `n` frames keeps of the n-th frame `f`. -/
def State.unwindCont (s : State) (f : Frame) : State × Cont :=
  let k := overlapOf f.kc
  if !f.ovll then (s, { rpc := f.rpc, count := 0, values := [] })
  else if f.res then (s, { rpc := f.rpc, count := k, values := f.overlapRegs })
  else
    let (s, rows) := s.readImage s.grp f.fn k
    (s, { rpc := f.rpc, count := k, values := regsOfRows rows })

/-- UNWIND (R200): an `unwind` whose frames have left the chain finishes once its new top is filled (R189). -/
def execUnwind (w : UniShort) (s : State) : Out :=
  uniform w.g false 4 s fun s =>
    match s.grp.spl.cont with
    | some c => s.finishUnwind c
    | none =>
      let n := (s.regOrImm w).toNat
      match s.grp.top? with
      | none => s.fault causeStack
      | some top =>
        if n = 0 ∨ top.dep ≤ n then s.fault causeStack
        else
          match (s.grp.spl.chain[n - 1]?).bind s.grp.frame? with
          | none => s.fault causeStack
          | some f =>
            s.spilling .read (s.grp.unwindPlaces n f) fun s =>
              let (s, c) := s.unwindCont f
              (s.onGrp fun g => g.unwindFrames n c).finishUnwind c

/-! ### rcv and exit (R192 to R194, R201, R202, R358) -/

/-- The `rcv` rows of R192. -/
def resolveRcv (p : Split) : Resolved :=
  match p.dstack with
  | [] => .unchanged
  | d :: rest =>
    if d.fn ≠ p.topFn then .unchanged
    else if !d.waiting then
      .switched { p with mask := d.mask, pc := d.pc, dstack := { d with waiting := true, mask := p.mask, pc := p.pc } :: rest }
    else if d.pc = p.pc then .goOn { p with mask := p.mask ||| d.mask, dstack := rest, pc := p.pc + 4 }
    else .unchanged

/-- RCV (R201): without a change to its stack, a split parks where another has the same top frame. -/
def execRcv (_w : UniShort) (s : State) : Out :=
  match resolveRcv s.grp.spl with
  | .switched p => .next (s.onGrp fun g => { g with spl := p })
  | .goOn p => .next (s.onGrp fun g => { g with spl := p })
  | .unchanged =>
    let g := s.grp
    if g.handler.isNone && g.sibs.any fun p => p.mask != 0 && p.topFn == g.spl.topFn then
      .next (s.onGrp fun g =>
        (g.onSpl fun p => { p with status := .parked, since := s.postmark.toNat }).settleParks)
    else s.done 4

/-- A split whose lanes have all ended, where it is the one in focus. -/
def Group.endIfEmpty (g : Group) (n : Nat) : Group :=
  if g.spl.num = n ∧ g.spl.mask = 0 then g.lanesEnded else g

/-- EXIT (R202, R225); in a fault handler it ends the lanes of the faulting split and handler mode (R358). -/
def execExit (w : UniShort) (s : State) : Out :=
  uniform w.g false 4 s fun s =>
    let gid := s.grp.gid
    let m := s.grp.spl.mask
    match s.grp.handler with
    | none =>
      if !s.grp.orders m then .next (((s.completeLanes m).onGrp Group.lanesEnded).afterExit gid)
      else if !s.pipeOpen then s.stay .behind
      else if !s.atOrder .die then s.stay .order
      else .next ((((s.release .die).completeLanes m).onGrp Group.lanesEnded).afterExit gid)
    | some h =>
      let code := (h.cause.extractLsb' 0 8).toNat
      if code = causePreempt ∨ code = causeResume then s.fault causeProtection
      else
        let n := s.grp.spl.num
        let h := { h with frozen := h.frozen.map fun p => if p.num = n then { p with mask := p.mask &&& ~~~m } else p }
        let s := s.completeLanes m
        match s.grp.spl.dstack with
        | _ :: _ => .next (s.onGrp fun g => { g with handler := some h }.lanesEnded)
        | [] => .next ((s.onGrp fun g => ((g.leaveHandler h id).focusSplit n).endIfEmpty n).afterExit gid)

/-! ### Frame requests (R183 to R189) -/

/-- A split that has lost its request runs on: an `unwind` that could not fill its new top has let its frames go by then
(log 135). -/
def State.runSplit (s : State) (gid sp : Nat) : State :=
  s.onGroup gid fun g => g.onSplit sp fun p =>
    if p.status = .frameWait ∨ p.status = .fillWait then { p with status := .run, cont := none } else p

/-- FRAME_GRANT (R183, R184): the head of a sub-core's queue is granted when enough granules are free. -/
def execFrameGrant (core sc : Nat) (s : State) : Out :=
  let sub := 8 * core + sc
  match s.requests.find? fun r => r.sub == sub with
  | none => .next s
  | some r =>
    if s.freeGranules sub < r.granules then .next s
    else
      match r.need with
      | .call target fc kc rpc =>
        .next (s.within r.gid r.sp fun s =>
          let granted := { s with requests := s.requests.erase r }
          match s.grp.freeFrame with
          | none => (granted.runSplit r.gid r.sp).raise (s.groupTrap causeStack 0 s.grp.spl.mask)
          | some fn =>
            match granted.spillReach r.gid eseSplit .write s.grp.pushPlaces with
            | (t, .ok) => t.pushCall fn target fc kc rpc
            | (t, .wait) => { t with requests := s.requests }
            | (t, .fail) => t.haltSoon (s.partition r.gid) causeSpill)
      | .handler target fc =>
        .next (({ s with requests := s.requests.erase r } : State).within r.gid r.sp fun s =>
          let gm := s.takeGranules sub (fc + 1)
          let epc := match s.grp.handler with | none => 0 | some h => h.epc
          (s.onGrp fun g => g.pushHandler fc epc gm).goto target)
      | .fill fn =>
        let s := { s with requests := s.requests.erase r }
        if ((s.group? r.gid).bind fun g => g.frame? fn).any fun f => !f.gmap.isEmpty then .next s
        else
          let gm := s.takeGranules sub r.granules
          .next (s.onGroup r.gid fun g => { g with frames := modifyKey g.frames fn fun f => { f with gmap := gm } })

/-- The unwinds of a group, of frozen splits too, that waited for frame `fn`: they end. -/
def Group.endUnwinds (g : Group) (fn : Nat) : Group :=
  let due (p : Split) : Option Cont := if p.status == .fillWait && p.topFn == fn then p.cont else none
  let step (acc : Group × List Split) (p : Split) : Group × List Split :=
    match due p with
    | none => (acc.1, acc.2 ++ [p])
    | some c =>
      let (g, p) := acc.1.endUnwind p c
      (g, acc.2 ++ [p])
  let (g, ps) := g.splits.foldl step (g, [])
  let g := match ps with
    | [] => g
    | p :: rest => { g with spl := p, sibs := rest }
  match g.handler with
  | none => g
  | some h =>
    let (g, fs) := h.frozen.foldl step (g, [])
    { g with handler := some { h with frozen := fs } }

/-- FILL_COMPLETE (R187, R189): the frame is resident; a split in FILL-WAIT finishes its `ret` or `unwind`, a split in SWAPPED
goes on at its PC. -/
def execFillComplete (gid fn : Nat) (s : State) : Out :=
  match s.group? gid with
  | none => .next s
  | some g =>
    match g.frame? fn with
    | none => .next s
    | some f =>
      if f.res || f.gmap.isEmpty then .next s
      else
        match s.fill gid fn with
        | (s, .wait) => .next s
        | (s, .fail) => .next (s.haltSoon (s.partition gid) causeSpill)
        | (s, .ok) =>
          let s := { s with requests := s.requests.filter fun r => !(r.gid == gid && r.need == FrameNeed.fill fn) }
          let waits (p : Split) : Bool := !(s.requests.any fun r => r.gid == gid && r.sp == p.num)
          .next (s.onGroup gid fun g => (g.endUnwinds fn).onSplits fun p =>
            if waits p && p.status == .fillWait then { p with status := .again }
            else if waits p && p.status == .swapped && p.topFn == fn then { p with status := .run }
            else p)

/-- A frame that the ESE may evict below a top (R185). -/
def Group.evictable (g : Group) (f : Frame) : Bool :=
  f.res && !(g.allSplits.any fun p => p.mask != 0 && p.topFn == f.fn)
  && !(g.pend.any fun e => match e.dest with | .lane fn _ => fn == f.fn | _ => false)

/-- Frames in ascending depth, then number. -/
def byDepth (fs : List Frame) : List Frame :=
  orderBy (fun a b => decide (a.dep < b.dep) || (a.dep == b.dep && decide (a.fn ≤ b.fn))) fs

/-- The group that issued longest ago, ties to the lower slot. -/
def oldestIssue (gs : List Group) : Option Group :=
  (orderBy (fun a b => decide (a.clock < b.clock) || (a.clock == b.clock && decide (a.slot ≤ b.slot))) gs).head?

/-- What the ESE evicts next: a frame of a group, whether it is a top or a frame of a whole group that goes, and the split
whose pending writes it awaits: none for those of the whole group. -/
structure Victim where
  gid : Nat
  fn : Nat
  top : Bool
  await : Option Nat
  deriving DecidableEq, Repr

/-- The tops of the requester's other splits, in ascending split number, those that handler mode froze among them (R185,
means 3; R188). -/
def Group.otherTops (g : Group) (sp : Nat) : List Victim :=
  let own := ((g.splits.find? fun p => p.num == sp).map Split.topFn).getD 0
  let others := g.allSplits.filter fun p => p.mask != 0 && p.topFn != own
  (orderBy (fun (a b : Split) => decide (a.num ≤ b.num)) others).filterMap fun p =>
    (g.frame? p.topFn).bind fun f => if f.res then some { gid := g.gid, fn := f.fn, top := true, await := some p.num } else none

/-- What the ESE evicts next for a request: by the first of the means 1 to 3 of R185 that is available; none when nothing
is left. -/
def State.victim (s : State) (r : FrameReq) : Option Victim :=
  let gs := s.subGroups r.sub
  let below (g : Group) : List Frame := (g.frames.map (·.2)).filter g.evictable
  match oldestIssue (gs.filter fun g => !(below g).isEmpty) with
  | some g => (byDepth (below g)).head?.map fun f => { gid := g.gid, fn := f.fn, top := false, await := none }
  | none =>
    let resident (g : Group) : List Frame := (g.frames.map (·.2)).filter fun f => f.res
    match oldestIssue (gs.filter fun g => g.gid != r.gid && !(resident g).isEmpty) with
    | some g => (byDepth (resident g)).head?.map fun f => { gid := g.gid, fn := f.fn, top := true, await := none }
    | none => ((gs.find? fun g => g.gid == r.gid).map fun g => g.otherTops r.sp).bind List.head?

/-- Whether pending writes hold up an eviction (R185, means 2 and 3). -/
def State.unlanded (s : State) (v : Victim) : Bool :=
  match s.group? v.gid with
  | none => false
  | some g => v.top && g.pend.any fun e => match v.await with | none => true | some n => e.sp == n

/-- Means 4 of R185: the request leaves the queue and its split takes STACK_OVERFLOW; a split in SWAPPED stays in it. -/
def State.overflowRequest (s : State) (r : FrameReq) : State :=
  let s := { s with requests := s.requests.erase r }
  (s.runSplit r.gid r.sp).within r.gid r.sp fun s => s.raise (s.groupTrap causeStack 0 s.grp.spl.mask)

/-- A split whose top frame is evicted enters SWAPPED; its request is withdrawn (R189). -/
def State.swapTops (s : State) (gid fn : Nat) : State :=
  let hit (p : Split) : Bool := p.mask != 0 && p.topFn == fn && p.cont.isNone
  let s := (((s.group? gid).map Group.splits).getD []).foldl (fun s p => if hit p then s.dropRequests gid p.num else s) s
  s.onGroup gid fun g => g.onSplits fun p => if hit p then { p with status := .swapped } else p

/-- ESE_TRIGGER (R185): the head request has waited and cannot be granted; the next frame's eviction begins, or nothing
is left to evict. Time in a debug stop does not count (R203). -/
def execEseTrigger (core sc : Nat) (s : State) : Out :=
  let sub := 8 * core + sc
  match s.requests.find? fun r => r.sub == sub with
  | none => .next s
  | some r =>
    if r.granules ≤ s.freeGranules sub || (s.evicting.any fun e => e.sub == sub)
        || (match s.group? r.gid with | none => false | some g => g.stopped) then .next s
    else
      match s.victim r with
      | none => .next (if s.hasSplit r.gid r.sp then s.overflowRequest r else s)
      | some v =>
        if s.unlanded v then .next s
        else
          match s.startEvict v.gid v.fn with
          | (s, .wait) => .next s
          | (s, .fail) => .next (s.haltSoon (s.partition v.gid) causeSpill)
          | (s, .ok) =>
            let gm := (((s.group? v.gid).bind fun g => g.frame? v.fn).map (·.gmap)).getD []
            let s := { s with evicting := s.evicting ++ [{ sub := sub, gid := v.gid, fn := v.fn, gmap := gm }] }
            .next (if v.top then s.swapTops v.gid v.fn else s)

/-- EVICTION_COMPLETE (R186): the evicted frame's granules are free; every split whose top it is by then is in SWAPPED and
queues its fill (R189). A frame that has been freed, and one with a register write pending, is not written back. -/
def execEvictionComplete (core sc : Nat) (s : State) : Out :=
  let sub := 8 * core + sc
  match s.evicting.find? fun e => e.sub == sub with
  | none => .next s
  | some e =>
    let done := { s with evicting := s.evicting.erase e }
    match (s.group? e.gid).bind fun g => (g.frame? e.fn).map fun f => (g, f) with
    | none => .next done
    | some (g, f) =>
      if !f.res || f.gmap != e.gmap then .next done
      else if g.pend.any fun p => match p.dest with | .lane fn _ => fn == e.fn | _ => false then .next s
      else
        match done.endEvict e.gid e.fn with
        | (t, .wait) => .next { t with evicting := s.evicting }
        | (t, .fail) => .next (t.haltSoon (t.partition e.gid) causeSpill)
        | (t, .ok) =>
          let t := t.swapTops e.gid e.fn
          let ps : List Split :=
            match t.group? e.gid with
            | none => []
            | some g => g.splits.filter fun p => p.status == .swapped && p.topFn == e.fn
          .next (ps.foldl (fun s p => s.within e.gid p.num State.requeueFill) t)

/-! ### Issue events -/

/-- PARK_TIMEOUT (R194): a parked split continues alone; time in a debug stop does not count (R203). -/
def execParkTimeout (gid sp : Nat) (s : State) : Out :=
  .next (s.onGroup gid fun g =>
    if g.stopped then g
    else g.onSplit sp fun p => if p.status = .parked then { p with pc := p.pc + 4, status := .run } else p)

/-- A split of a group made urgent now, unless it is urgent already. -/
def Split.hurry (turn : Nat) (p : Split) : Split := { p with urgent := if p.urgent.isSome then p.urgent else some turn }

/-- REFUSAL_URGENT (R24): the 16th refusal of a split that ranks first in its sub-core and wants a collector makes it urgent. -/
def execRefusalUrgent (gid sp : Nat) (s : State) : Out :=
  match s.group? gid with
  | none => .next s
  | some g =>
    if (leastRank (s.readyIn g.sub)).map (·.2) = some (gid, sp) ∧ s.collectors gid sp ≠ 0 then
      .next (s.onGroup gid fun g => g.onSplit sp fun p => { p with refusals := 16 }.hurry s.turn)
    else .next s

/-- WAIT_COUNT_URGENT (R25): the wait count of a ready split that has reached 48 makes it urgent. -/
def execWaitCountUrgent (gid sp : Nat) (s : State) : Out :=
  .next (s.onGroup gid fun g => g.onSplit sp fun p => if s.isReady g p then { p with waitCount := 48 }.hurry s.turn else p)

/-- RESERVED_OP (R61). -/
def execReservedOp (_w : Word) (_ext : Option Word) (s : State) : Out := s.fault causeIllegal

end Sys2Proof.Machine
end

