-- ==== Sys2Proof/Machine/Copies.lean ====
section
/-!
DEFINITION. Copies and their batches (R251 to R256).
-/
namespace Sys2Proof.Machine

/-! ### Moving bytes (R251) -/

/-- The source of a move read at its home as it stands. -/
def State.readMove (s : State) (core : Nat) (m : Move) : State × List Byte :=
  let l : Loc := ⟨m.srcSpace, m.src⟩
  let s := (s.landAt l m.len).stampRead (dieOf core) l
  (s, (List.range m.len).map fun i => s.seeGet (l.plus i))

/-- A move performed for a core and a context: bytes not yet read are read, bytes not yet written are written. -/
def State.doMove (s : State) (core ctx : Nat) (m : Move) : State :=
  if m.written then s
  else
    let (s, bs) := match m.data with
      | some bs => (s, bs)
      | none => s.readMove core m
    (s.countPeers ctx (if Loc.isPeer ⟨m.dstSpace, m.dst⟩ then 1 else 0)).coreWrite core ⟨m.dstSpace, m.dst⟩ bs

/-- What a copy does of each move when it issues: a free choice (log 4) among moving it now, reading it now, and leaving
it until the copy completes. -/
def State.beginMoves (s : State) (core ctx : Nat) : List Move → State × List Move
  | [] => (s, [])
  | m :: rest =>
    let n := s.free
    let s := { s with free := n + 2 }
    let (s, m) :=
      if Config.freeBool n then (s.doMove core ctx m, { m with written := true })
      else if Config.freeBool (n + 1) then
        let (s, bs) := s.readMove core m
        (s, { m with data := some bs })
      else (s, m)
    let (s, ms) := State.beginMoves s core ctx rest
    (s, m :: ms)

/-- How many copies of a group are outstanding. -/
def State.copiesOf (s : State) (gid : Nat) : Nat := (s.copies.filter fun c => c.2.gid == gid).length

/-- A copy put in flight. -/
def State.startCopy (s : State) (kind : CopyKind) (count : Nat) (ms : List Move) : State :=
  let (s, ms) := s.beginMoves s.grp.core (s.ctxOf s.grp.gid) ms
  { s with
    copies := insertKey s.copies s.nextCopy
      { gid := s.grp.gid, core := s.grp.core, ctx := s.ctxOf s.grp.gid, kind := kind, batch := none, count := count, moves := ms }
    nextCopy := s.nextCopy + 1 }

/-- The moves from the pieces of a source to those of a destination of the same total length. -/
def pairPieces : Nat → List Piece → List Piece → List Move
  | 0, _, _ => []
  | n + 1, a :: as, b :: bs =>
    let len := min a.len b.len
    let m : Move :=
      { srcSpace := a.loc.space, src := a.loc.addr, dstSpace := b.loc.space, dst := b.loc.addr, len := len, data := none
        written := false }
    let left (p : Piece) (ps : List Piece) : List Piece :=
      if len < p.len then { p with loc := p.loc.plus len, len := p.len - len } :: ps else ps
    m :: pairPieces n (left a as) (left b bs)
  | _, _, _ => []

/-- The walker's marks of a copy's pages. -/
def State.touchPieces (s : State) (k : Access) (ps : List Piece) : State := ps.foldl (fun s p => s.touch p.entry k) s

/-! ### Completion targets (R251, R252) -/

/-- What a completion target comes to: the kind, or the place of a counter or future that has to be found. A fault there is
a group fault over the instruction's effective mask. -/
def State.copyTarget (s : State) (eff : Mask) (kind : Nat) (clu : Bool) (n : Nat) (caddr fval : Dword)
    (go : State → CopyKind → Out) : Out :=
  match kind with
  | 0 => go s .batch
  | 1 =>
    match s.team with
    | none => s.faultIn causeProtection eff
    | some t => if (t.barKey clu n).isSome then go s (.bar clu n) else s.faultIn causeProtection eff
  | 2 =>
    if caddr.toNat % 8 ≠ 0 then s.faultIn causeMisaligned eff
    else
      s.gatherGroup .write eff [s.globalRun .write caddr.toNat 8] fun s rows =>
        match rows with
        | (p :: _) :: _ => go (s.touch p.entry .write) (.ctr p.loc.space p.loc.addr)
        | _ => go s .batch
  | _ =>
    if caddr.toNat % 16 ≠ 0 then s.faultIn causeMisaligned eff
    else
      s.gatherGroup .write eff [s.globalRun .write caddr.toNat 16] fun s rows =>
        match rows with
        | (p :: _) :: _ => if foreignObject p.loc then s.faultIn causeProtection eff else go (s.touch p.entry .write) (.fut caddr fval p.loc.addr)
        | _ => go s .batch

/-! ### cpl (R252) -/

/-- The bytes each lane of a `cpl` copies. -/
def cplSize (d : BitVec 6) : Nat := 4 * 2 ^ (d.extractLsb' 2 2).toNat

/-- The destination of a lane of a `cpl` in team memory. -/
def State.cplDst (s : State) (w : LaneShort) (n l : Nat) : Place :=
  s.checkElem .write .team l ((s.grp.laneGet w.b.toNat l).setWidth 64) n

/-- CPL (R252): the sources and the destinations are checked and translated in every lane, then the completion target. -/
def execCpl (w : LaneShort) (e : EM) (s : State) : Out :=
  lanes (regsAddr w ++ [w.b.toNat]) w.g e.gn false 8 s fun m s =>
    let n := cplSize w.d
    if 64 ≤ s.copiesOf s.grp.gid then s.stay .copy
    else
      s.gather .read m (s.elements .read w e n (e.offset.extractLsb' 0 6).toNat m) fun s src =>
        let ds := (lanesOf m).map fun l => (l, (s.grp.laneGet w.b.toNat l).setWidth 64, s.cplDst w n l)
        s.gather .write m ds fun s dst =>
          let v := s.grp.uniGet (e.offset.extractLsb' 6 6).toNat
          s.copyTarget m (w.d.extractLsb' 0 2).toNat (v.getLsbD 9) (v.extractLsb' 0 9).toNat v 0 fun s kind =>
            let s := s.touchPieces .read (src.flatMap (·.2))
            let ms := (src.zip dst).flatMap fun p => pairPieces 32 p.1.2 p.2.2
            (s.startCopy kind (n * (lanesOf m).length) ms).pushZero.done 8

/-! ### cpb (R253, R254) -/

/-- A descriptor of `cpb` (R253), register i holding bits 64i + 63 to 64i. -/
def Group.cpbDesc (g : Group) (a : Nat) : BitVec 512 :=
  let r (i : Nat) : Dword := g.uniGet (a + i)
  r 7 ++ r 6 ++ r 5 ++ r 4 ++ r 3 ++ r 2 ++ r 1 ++ r 0

/-- A field of a descriptor as a number. -/
def fieldNat (d : BitVec 512) (lo n : Nat) : Nat := (d.extractLsb' lo n).toNat

/-- A row of `n` bytes cut where its source or its destination passes a multiple of 4,096. -/
def rowChunks : Nat → Nat → Nat → Nat → List (Nat × Nat × Nat)
  | 0, _, _, _ => []
  | f + 1, src, dst, n =>
    if n = 0 then []
    else
      let len := min n (min (4096 - src % 4096) (4096 - dst % 4096))
      (src, dst, len) :: rowChunks f (src + len) (dst + len) (n - len)

/-- The chunks of every row of a block copy: (source, destination, bytes), addresses modulo 2^64 (R254). -/
def cpbChunks (d : BitVec 512) : List (Nat × Nat × Nat) :=
  (List.range (fieldNat d 176 16)).flatMap fun z =>
    (List.range (fieldNat d 160 16)).flatMap fun y =>
      let src := (fieldNat d 0 64 + z * fieldNat d 224 32 + y * fieldNat d 192 32) % 2 ^ 64
      let dst := (fieldNat d 64 64 + z * fieldNat d 288 32 + y * fieldNat d 256 32) % 2 ^ 64
      rowChunks (fieldNat d 128 32) src dst (fieldNat d 128 32)

/-- Check 2 of R254 but for CADDR: SRC, DST and the strides are multiples of 16. -/
def cpbAligned (d : BitVec 512) : Bool :=
  [0, 64, 192, 224, 256, 288].all fun o => fieldNat d o 4 == 0

/-- Check 2 of R254 for CADDR, by the completion kind. -/
def cpbCaddrAligned (kind : Nat) (d : BitVec 512) : Bool :=
  (kind != 2 || fieldNat d 384 3 == 0) && (kind != 3 || fieldNat d 384 4 == 0)

/-- The ranges of check 3 of R254. -/
def cpbRanges (d : BitVec 512) : Bool :=
  let x := fieldNat d 128 32
  let y := fieldNat d 160 16
  let z := fieldNat d 176 16
  decide (fieldNat d 320 3 ≤ 3) && decide (fieldNat d 323 3 ≤ 3) && decide (16 ≤ x) && decide (x ≤ 2 ^ 24) && x % 16 == 0
  && decide (1 ≤ y) && decide (1 ≤ z) && decide (x * y * z ≤ 2 ^ 30 - 1)

/-- The space that a field of a descriptor names. -/
def cpbSpace : Nat → Space
  | 0 => .global | 1 => .team | 2 => .cluster | _ => .scratch

/-- CPB (R253, R254). -/
def execCpb (w : UniShort) (s : State) : Out :=
  uniform w.g false 4 s fun s =>
    let d := s.grp.cpbDesc w.a.toNat
    let kind := (w.d.extractLsb' 0 2).toNat
    let clu := d.getLsbD 335
    let n := fieldNat d 326 9
    if !cpbAligned d || !cpbCaddrAligned kind d then s.fault causeMisaligned
    else if !cpbRanges d then s.fault causeProtection
    else if kind = 1 ∧ (s.team.bind fun t => t.barKey clu n).isNone then s.fault causeProtection
    else if 64 ≤ s.copiesOf s.grp.gid then s.stay .copy
    else
      let cs := cpbChunks d
      let srcs := cs.map fun c => s.place .read (cpbSpace (fieldNat d 320 3)) 0 (BitVec.ofNat 64 c.1) c.2.2
      let dsts := cs.map fun c => s.place .write (cpbSpace (fieldNat d 323 3)) 0 (BitVec.ofNat 64 c.2.1) c.2.2
      if (srcs ++ dsts).any fun p => p == .fail causeProtection then s.fault causeProtection
      else
        s.gatherGroup .read s.grp.spl.mask srcs fun s src =>
          s.gatherGroup .write s.grp.spl.mask dsts fun s dst =>
            s.copyTarget s.grp.spl.mask kind clu n (d.extractLsb' 384 64) (d.extractLsb' 448 64) fun s k =>
              let s := (s.touchPieces .read (src.flatMap id)).touchPieces .write (dst.flatMap id)
              let ms := (src.zip dst).flatMap fun p => pairPieces 2 p.1 p.2
              (s.startCopy k (fieldNat d 128 32 * fieldNat d 160 16 * fieldNat d 176 16) ms).done 4

/-! ### Batches (R255, R256) -/

/-- The open copies of a group's open batch. -/
def State.openCopies (s : State) (gid : Nat) : Bool :=
  s.copies.any fun c => c.2.gid == gid && c.2.kind == .batch && c.2.batch.isNone

/-- The batch that a `cpclose` waits for: the one it has waited for, else the oldest incomplete one (R255). -/
def Split.closingFor (p : Split) (left : List (Nat × Bool)) : Nat :=
  match p.status with
  | .waiting (.closing b) => if left.any fun c => c.1 == b then b else ((left.head?).map (·.1)).getD 0
  | _ => ((left.head?).map (·.1)).getD 0

/-- A `cpclose` waits: eight closed batches are incomplete, or the one it has waited for still is. -/
def Split.closingWaits (p : Split) (left : List (Nat × Bool)) : Bool :=
  decide (8 ≤ left.length) || match p.status with
    | .waiting (.closing b) => left.any fun c => c.1 == b
    | _ => false

/-- CPCLOSE (R255). -/
def execCpclose (w : UniShort) (s : State) : Out :=
  uniform w.g false 4 s fun s =>
    let gid := s.grp.gid
    let left := s.grp.closed.filter fun c => !c.2
    if s.grp.spl.closingWaits left then s.stay (.closing (s.grp.spl.closingFor left))
    else
      let n := s.grp.batch + 1
      let empty := !s.openCopies gid
      let s :=
        { s with
          copies := s.copies.map fun (c : Nat × Copy) =>
            if c.2.gid = gid ∧ c.2.kind = CopyKind.batch ∧ c.2.batch = none then (c.1, { c.2 with batch := some n.toNat }) else c }
      let s := s.onGrp fun g =>
        { g.uniSet w.d.toNat (n.setWidth 64) with batch := n, closed := if empty then left else left ++ [(n.toNat, false)] }
      s.done 4

/-- CPWAIT (R256). -/
def execCpwait (w : UniShort) (s : State) : Out :=
  uniform w.g false 4 s fun s =>
    let n : Word := (s.uniA w).extractLsb' 0 32
    let ahead := (n - s.grp.batch).toNat
    if 1 ≤ ahead ∧ ahead < 2 ^ 31 then s.fault causeProtection
    else if s.grp.closed.any fun c => !c.2 && decide ((n - BitVec.ofNat 32 c.1).toNat < 2 ^ 31) then s.stay .copy
    else s.done 4

/-- The completion of a copy counted where its kind says (R251, R254); a barrier of a team that has ended or been killed
takes none (R260). -/
def State.countCopy (s : State) (c : Copy) : State :=
  match c.kind with
  | .batch => s
  | .bar clu n =>
    match s.team? (teamOf c.gid) with
    | none => s
    | some t => if t.phase = .ended then s else s.barCopied t clu n c.count
  | .ctr sp a =>
    (s.countPeers c.ctx (if Loc.isPeer ⟨sp, a⟩ then 1 else 0)).addAt c.core ⟨sp, a⟩ (BitVec.ofNat 64 c.count)
  | .fut a v pa => s.resolveOrPost (dieOf c.core) c.ctx a ⟨0, pa⟩ v

/-- COPY_COMPLETE (R251): what is left of the copy is moved, its completion is counted, and a closed batch whose copies
are all complete is complete. -/
def execCopyComplete (cid : Nat) (s : State) : Out :=
  match lookupKey s.copies cid with
  | none => .next s
  | some c =>
    let s := c.moves.foldl (fun s m => s.doMove c.core c.ctx m) s
    let s := ({ s with copies := eraseKey s.copies cid } : State).countCopy c
    let last := match c.batch with
      | none => false
      | some _ => !(s.copies.any fun d => d.2.gid == c.gid && d.2.batch == c.batch)
    .next (if last then
        s.onGroup c.gid fun g => { g with closed := g.closed.filter fun b => some b.1 != c.batch }
      else s)

end Sys2Proof.Machine
end

