-- ==== Sys2Proof/Machine/Integer.lean ====
section
/-!
DEFINITION. Integer, logic, move, comparison and predicate instructions of the lane set (R94 to R104), and `vsr`
(R209).
-/
namespace Sys2Proof.Machine

/-! ### Shapes -/

/-- A lane instruction that computes one result in each lane of its effective mask and continues. -/
def laneOp (regs : List Nat) (w : LaneShort) (gn wide : Bool) (len : Nat) (s : State) (f : Nat → Dword) : Out :=
  lanes regs w.g gn false len s fun m s =>
    ((s.onGrp fun g => g.laneResult w.d.toNat w.nw wide false ((lanesOf m).map fun l => (l, f l))).done len)

/-- A lane instruction that writes a predicate and leaves zero in its latch. -/
def predInstr (regs : List Nat) (w : LaneShort) (gn : Bool) (len : Nat) (s : State) (f : Nat → Bool) : Out :=
  lanes regs w.g gn false len s fun m s => (s.lanePred w.d.toNat m (maskWhere m f)).pushZero.done len

/-- The registers of a two-source instruction. -/
def regs2S (w : LaneShort) (e : EA) : List Nat := regsD w ++ regsA w ++ regsB w e.xc
/-- The registers of a three-source instruction. -/
def regs3S (w : LaneShort) (e : EA) : List Nat := regsD w ++ regsA w ++ regsB w false ++ regsC e

/-! ### Two-source arithmetic (R94) -/

/-- An integer operation on each element, exact, then clamped or wrapped (R94, R96). -/
def intElems (t : Ty) (sat : Bool) (f : Nat → Int) : Dword :=
  packElems t ((List.range (elemCount t)).map fun e => intResult (elemBits t) (intSigned t) sat (f e))

/-- Element `e` of a source as an integer. -/
def intElem (t : Ty) (v : Dword) (e : Nat) : Int := intOf (elemBits t) (intSigned t) (elemOf t v e)

/-- R94: a two-source integer instruction of `len` bytes. -/
def int2S (op : Int → Int → Int) (w : LaneShort) (e : EA) (len : Nat) (s : State) : Out :=
  laneOp (regs2S w e) w e.gn e.t.wide len s fun l =>
    intElems e.t e.sat fun i => op (intElem e.t (s.grp.srcA w e.t.wide l) i) (intElem e.t (s.grp.srcB2 w e l) i)

/-- IADD (R94). -/
def execIadd (w : LaneShort) (s : State) : Out := int2S (· + ·) w (defaultEA .b32) 4 s
/-- ISUB (R94). -/
def execIsub (w : LaneShort) (s : State) : Out := int2S (· - ·) w (defaultEA .b32) 4 s
/-- IMUL (R94). -/
def execImul (w : LaneShort) (s : State) : Out := int2S (· * ·) w (defaultEA .b32) 4 s
/-- IMIN (R94). -/
def execImin (w : LaneShort) (s : State) : Out := int2S min w (defaultEA .b32) 4 s
/-- IMAX (R94). -/
def execImax (w : LaneShort) (s : State) : Out := int2S max w (defaultEA .b32) 4 s
/-- IADD_EXT (R94). -/
def execIaddExt (w : LaneShort) (e : EA) (s : State) : Out := int2S (· + ·) w e 8 s
/-- ISUB_EXT (R94). -/
def execIsubExt (w : LaneShort) (e : EA) (s : State) : Out := int2S (· - ·) w e 8 s
/-- IMUL_EXT (R94). -/
def execImulExt (w : LaneShort) (e : EA) (s : State) : Out := int2S (· * ·) w e 8 s
/-- IMIN_EXT (R94). -/
def execIminExt (w : LaneShort) (e : EA) (s : State) : Out := int2S min w e 8 s
/-- IMAX_EXT (R94). -/
def execImaxExt (w : LaneShort) (e : EA) (s : State) : Out := int2S max w e 8 s

/-! ### Logic and shifts (R95) -/

/-- A value of type t cut to its W bits. -/
def cutTo (t : Ty) (v : Dword) : Dword := if t.wide then v else v &&& 0xFFFFFFFF

/-- R95: a bitwise instruction. -/
def logic2S (op : Dword → Dword → Dword) (w : LaneShort) (e : EA) (len : Nat) (s : State) : Out :=
  laneOp (regs2S w e) w e.gn e.t.wide len s fun l =>
    cutTo e.t (op (s.grp.srcA w e.t.wide l) (s.grp.srcB2 w e l))

/-- The shift count of R95: one 32-bit value, imm16 zero-extended. -/
def Group.count (g : Group) (w : LaneShort) (e : EA) (l : Nat) : Nat :=
  if e.xc then e.imm.toNat else ((g.srcB w false l).extractLsb' 0 32).toNat

/-- Shift left; 0 when the count reaches the width. -/
def shiftLeft (width : Nat) (a : Dword) (c : Nat) : Dword :=
  if c < width then BitVec.ofNat 64 (a.toNat * 2 ^ c % 2 ^ width) else 0

/-- Logical shift right; 0 when the count reaches the width. -/
def shiftRight (width : Nat) (a : Dword) (c : Nat) : Dword :=
  if c < width then BitVec.ofNat 64 (a.toNat % 2 ^ width / 2 ^ c) else 0

/-- Arithmetic shift right, copies of bit W−1 entering. -/
def shiftArith (width : Nat) (a : Dword) (c : Nat) : Dword :=
  BitVec.ofNat 64 (intWrap width (intOf width true a.toNat / 2 ^ (min c width)))

/-- R95: a shift. -/
def shift2S (op : Nat → Dword → Nat → Dword) (w : LaneShort) (e : EA) (len : Nat) (s : State) : Out :=
  laneOp (regs2S w e) w e.gn e.t.wide len s fun l =>
    op (elemBits e.t) (s.grp.srcA w e.t.wide l) (s.grp.count w e l)

/-- AND (R95). -/
def execAnd (w : LaneShort) (s : State) : Out := logic2S (· &&& ·) w (defaultEA .b32) 4 s
/-- OR (R95). -/
def execOr (w : LaneShort) (s : State) : Out := logic2S (· ||| ·) w (defaultEA .b32) 4 s
/-- XOR (R95). -/
def execXor (w : LaneShort) (s : State) : Out := logic2S (· ^^^ ·) w (defaultEA .b32) 4 s
/-- SHL (R95). -/
def execShl (w : LaneShort) (s : State) : Out := shift2S shiftLeft w (defaultEA .b32) 4 s
/-- SHR (R95). -/
def execShr (w : LaneShort) (s : State) : Out := shift2S shiftRight w (defaultEA .b32) 4 s
/-- SHA (R95). -/
def execSha (w : LaneShort) (s : State) : Out := shift2S shiftArith w (defaultEA .b32) 4 s
/-- AND_EXT (R95). -/
def execAndExt (w : LaneShort) (e : EA) (s : State) : Out := logic2S (· &&& ·) w e 8 s
/-- OR_EXT (R95). -/
def execOrExt (w : LaneShort) (e : EA) (s : State) : Out := logic2S (· ||| ·) w e 8 s
/-- XOR_EXT (R95). -/
def execXorExt (w : LaneShort) (e : EA) (s : State) : Out := logic2S (· ^^^ ·) w e 8 s
/-- SHL_EXT (R95). -/
def execShlExt (w : LaneShort) (e : EA) (s : State) : Out := shift2S shiftLeft w e 8 s
/-- SHR_EXT (R95). -/
def execShrExt (w : LaneShort) (e : EA) (s : State) : Out := shift2S shiftRight w e 8 s
/-- SHA_EXT (R95). -/
def execShaExt (w : LaneShort) (e : EA) (s : State) : Out := shift2S shiftArith w e 8 s

/-! ### Three sources (R96) -/

/-- IMAD (R96). -/
def execImad (w : LaneShort) (e : EA) (s : State) : Out :=
  laneOp (regs3S w e) w e.gn e.t.wide 8 s fun l =>
    intElems e.t e.sat fun i =>
      intElem e.t (s.grp.srcA w e.t.wide l) i * intElem e.t (s.grp.srcB w e.t.wide l) i
        + intElem e.t (s.grp.srcC e e.t.wide l) i

/-- IMADW (R96): 32-bit a and b, 64-bit c and result. -/
def execImadw (w : LaneShort) (e : EA) (s : State) : Out :=
  laneOp (regs3S w e) w e.gn true 8 s fun l =>
    let sg := intSigned e.t
    let a := intOf 32 sg (s.grp.srcA w false l).toNat
    let b := intOf 32 sg (s.grp.srcB w false l).toNat
    let c := intOf 64 sg (s.grp.srcC e true l).toNat
    BitVec.ofNat 64 (intResult 64 sg e.sat (a * b + c))

/-- The value of R96's table function on every bit: for each set table bit the lanes of bits that select it. -/
def lop3Value (t : BitVec 8) (a b c : Dword) : Dword :=
  (List.range 8).foldl
    (fun v j =>
      if t.getLsbD j then
        v ||| ((if j % 2 = 1 then a else ~~~a) &&& (if j / 2 % 2 = 1 then b else ~~~b)
               &&& (if j / 4 = 1 then c else ~~~c))
      else v)
    0

/-- LOP3 (R96). -/
def execLop3 (w : LaneShort) (e : EA) (s : State) : Out :=
  laneOp (regs3S w e) w e.gn e.t.wide 8 s fun l =>
    cutTo e.t (lop3Value (e.imm.extractLsb' 8 8) (s.grp.srcA w e.t.wide l) (s.grp.srcB w e.t.wide l)
      (s.grp.srcC e e.t.wide l))

/-! ### Bit fields, counts and permutation (R97 to R99) -/

/-- The lsb of an R97 parameter. -/
def fieldLsb (imm : BitVec 16) : Nat := (imm.extractLsb' 0 6).toNat
/-- The width of an R97 parameter. -/
def fieldWidth (imm : BitVec 16) : Nat := (imm.extractLsb' 6 7).toNat

/-- The field of R97, extended by the type. -/
def fieldOf (t : Ty) (imm : BitVec 16) (a : Dword) : Dword :=
  BitVec.ofNat 64 (intWrap (elemBits t) (intOf (fieldWidth imm) (intSigned t) (a.toNat / 2 ^ fieldLsb imm)))

/-- BFX (R97). -/
def execBfx (w : LaneShort) (e : EA) (s : State) : Out :=
  laneOp (regsD w ++ regsA w) w e.gn e.t.wide 8 s fun l => fieldOf e.t e.imm (s.grp.srcA w e.t.wide l)

/-- BFI (R97). -/
def execBfi (w : LaneShort) (e : EA) (s : State) : Out :=
  laneOp (regsD w ++ regsA w ++ regsB w false) w e.gn e.t.wide 8 s fun l =>
    let field : Dword := BitVec.ofNat 64 ((2 ^ fieldWidth e.imm - 1) * 2 ^ fieldLsb e.imm)
    let b := BitVec.ofNat 64 ((s.grp.srcB w e.t.wide l).toNat * 2 ^ fieldLsb e.imm)
    cutTo e.t ((s.grp.srcA w e.t.wide l &&& ~~~field) ||| (b &&& field))

/-- The minors of `ibit` on a value of `width` bits (R98). -/
def bitCount (minor width : Nat) (a : Dword) : Dword :=
  let ones := (List.range width).filter fun i => a.getLsbD i
  match minor with
  | 0 => BitVec.ofNat 64 ones.length
  | 1 => BitVec.ofNat 64 (match ones.getLast? with | none => width | some i => width - 1 - i)
  | 2 => BitVec.ofNat 64 (ones.headD width)
  | _ => BitVec.ofNat 64 (ones.foldl (fun v i => v + 2 ^ (width - 1 - i)) 0)

/-- IBIT (R98). -/
def execIbit (w : LaneShort) (e : EA) (s : State) : Out :=
  let m := (WellFormed.minorOf e).toNat
  laneOp (regsD w ++ regsA w) w e.gn (e.t.wide && m == 3) 8 s fun l =>
    bitCount m (elemBits e.t) (s.grp.srcA w e.t.wide l)

/-- Byte `i` of a value. -/
def byteOf (v : Dword) (i : Nat) : Byte := v.extractLsb' (8 * i) 8

/-- The result byte that a selector of R99 picks from `x`, `prev` the byte before it. -/
def prmtByte (n : Nat) (x : Dword) (prev : Byte) : Byte :=
  if n ≤ 7 then byteOf x n else if n = 8 then 0 else if n = 9 then 0xFF else if prev.getLsbD 7 then 0xFF else 0

/-- PRMT (R99). -/
def execPrmt (w : LaneShort) (e : EA) (s : State) : Out :=
  laneOp (regsD w ++ regsA w ++ regsB w false) w e.gn false 8 s fun l =>
    let x : Dword := (s.grp.srcB w false l).extractLsb' 0 32 ++ (s.grp.srcA w false l).extractLsb' 0 32
    let sel (i : Nat) : Nat := (e.imm.extractLsb' (12 - 4 * i) 4).toNat
    let b0 := prmtByte (sel 0) x (byteOf x 0)
    let b1 := prmtByte (sel 1) x b0
    let b2 := prmtByte (sel 2) x b1
    let b3 := prmtByte (sel 3) x b2
    (0 : Word) ++ (b3 ++ b2 ++ b1 ++ b0)

/-! ### Selection and moves (R100, R101, R209) -/

/-- SEL (R100). -/
def execSel (w : LaneShort) (e : EA) (s : State) : Out :=
  laneOp (regsD w ++ regsA w ++ regsB w false) w e.gn e.t.wide 8 s fun l =>
    cutTo e.t
      (if s.grp.predGet (e.imm.extractLsb' 0 3).toNat l ^^ e.imm.getLsbD 3 then s.grp.srcA w e.t.wide l
       else s.grp.srcB w e.t.wide l)

/-- MOV (R101): v(a), a latch, or s(b) with sk = 11. -/
def execMov (w : LaneShort) (s : State) : Out :=
  laneOp (regsD w ++ (if w.sk = 3 then [] else regsA w)) w false false 4 s fun l =>
    cutTo .b32 (if w.sk = 3 then s.grp.uniGet w.b.toNat else s.grp.srcA w false l)

/-- MOV_IMM (R101). -/
def execMovImm (w : LaneShort) (e : EI) (s : State) : Out :=
  laneOp (regsD w) w false false 8 s fun _ => e.imm.setWidth 64

/-- A lane special register (R209): `%lane`, `%flow`, `%class`, `%seq` and the 64-bit `%payload`; in an empty
lane `%class` reads 3 and the last three 0. -/
def Group.laneSpecial (g : Group) (n l : Nat) : Dword :=
  let d := match g.item l with | none => 0 | some it => it.desc
  match n with
  | 0 => BitVec.ofNat 64 l
  | 1 => (descFlow d).setWidth 64
  | 2 => match g.item l with | none => 3 | some _ => BitVec.ofNat 64 (descClass d)
  | 3 => BitVec.ofNat 64 (descSeq d)
  | _ => d.extractLsb' 64 64

/-- VSR (R209). -/
def execVsr (w : LaneShort) (s : State) : Out :=
  laneOp (regsD w) w false (w.a == 4) 4 s fun l => s.grp.laneSpecial w.a.toNat l

/-! ### Comparison and predicates (R102 to R104) -/

/-- ICMP (R102). -/
def execIcmp (w : LaneShort) (e : EA) (s : State) : Out :=
  predInstr (regsA w ++ regsB w false) w e.gn 8 s fun l =>
    intCompare (WellFormed.minorOf e).toNat (intSource e.t (s.grp.srcA w e.t.wide l))
      (intSource e.t (s.grp.srcB w e.t.wide l))

/-- PSET (R103). -/
def execPset (w : LaneShort) (e : EA) (s : State) : Out :=
  lanes [] w.g e.gn false 8 s fun m s =>
    let x := s.grp.predMask w.a.toNat ^^^ (if e.imm.getLsbD 1 then 0xFFFFFFFF#32 else 0)
    let y := s.grp.predMask w.b.toNat ^^^ (if e.imm.getLsbD 0 then 0xFFFFFFFF#32 else 0)
    (s.lanePred w.d.toNat m (predOp (WellFormed.minorOf e).toNat x y)).pushZero.done 8

/-- PMOV_REG (R104). -/
def execPmovReg (w : LaneShort) (e : EA) (s : State) : Out :=
  laneOp (regsD w) w e.gn false 8 s fun l =>
    BitVec.ofNat 64 ((List.range 8).foldl (fun v n => v + (if s.grp.predGet n l then 2 ^ n else 0)) 0)

/-- PMOV_PRED (R104). -/
def execPmovPred (w : LaneShort) (e : EA) (s : State) : Out :=
  lanes (regsA w) w.g e.gn false 8 s fun m s =>
    let g := s.grp
    let t := (List.range 7).foldl
      (fun t i =>
        if e.imm.getLsbD (i + 1) then t.lanePred (i + 1) m (maskWhere m fun l => (g.srcA w false l).getLsbD (i + 1))
        else t)
      s
    t.pushZero.done 8

end Sys2Proof.Machine
end

