-- ==== Sys2Proof/Machine/Uniform.lean ====
section
/-!
DEFINITION. The uniform arithmetic set (R102, R105 to R108).
-/
namespace Sys2Proof.Machine

/-- A uniform instruction that writes s(d) (R92, R108). -/
def uniOp (w : UniShort) (gn : Bool) (len : Nat) (s : State) (v : Dword) : Out :=
  uniform w.g gn len s fun s => (s.onGrp fun g => g.uniSet w.d.toNat v).done len

/-- The smaller of two 64-bit values as signed integers. -/
def signedMin (a b : Dword) : Dword := if a.slt b then a else b
/-- The larger of two 64-bit values as signed integers. -/
def signedMax (a b : Dword) : Dword := if a.slt b then b else a
/-- A shifted left by B, read as u64 (R105). -/
def uniShl (a b : Dword) : Dword := shiftLeft 64 a b.toNat
/-- A shifted right by B, zeros entering. -/
def uniShr (a b : Dword) : Dword := shiftRight 64 a b.toNat
/-- A shifted right by B, copies of bit 63 entering. -/
def uniSha (a b : Dword) : Dword := shiftArith 64 a b.toNat

/-- R105 with L = 0. -/
def uni2 (op : Dword → Dword → Dword) (w : UniShort) (s : State) : Out := uniOp w false 4 s (op (s.uniA w) (s.uniB w))
/-- R105 with L = 1: B is the sign-extended imm32. -/
def uniImm (op : Dword → Dword → Dword) (w : UniShort) (e : EI) (s : State) : Out :=
  uniOp w false 8 s (op (s.uniA w) (e.imm.signExtend 64))

/-- UADD (R105). -/
def execUadd (w : UniShort) (s : State) : Out := uni2 (· + ·) w s
/-- USUB (R105). -/
def execUsub (w : UniShort) (s : State) : Out := uni2 (· - ·) w s
/-- UMUL (R105). -/
def execUmul (w : UniShort) (s : State) : Out := uni2 (· * ·) w s
/-- UMIN (R105). -/
def execUmin (w : UniShort) (s : State) : Out := uni2 signedMin w s
/-- UMAX (R105). -/
def execUmax (w : UniShort) (s : State) : Out := uni2 signedMax w s
/-- UAND (R105). -/
def execUand (w : UniShort) (s : State) : Out := uni2 (· &&& ·) w s
/-- UOR (R105). -/
def execUor (w : UniShort) (s : State) : Out := uni2 (· ||| ·) w s
/-- UXOR (R105). -/
def execUxor (w : UniShort) (s : State) : Out := uni2 (· ^^^ ·) w s
/-- USHL (R105). -/
def execUshl (w : UniShort) (s : State) : Out := uni2 uniShl w s
/-- USHR (R105). -/
def execUshr (w : UniShort) (s : State) : Out := uni2 uniShr w s
/-- USHA (R105). -/
def execUsha (w : UniShort) (s : State) : Out := uni2 uniSha w s
/-- UMOV (R105): B, or the special register a with sk = 10. -/
def execUmov (w : UniShort) (s : State) : Out :=
  uniOp w false 4 s (if w.sk = 2 then s.special w.a.toNat else s.uniB w)

/-- UADD_EXT (R105). -/
def execUaddExt (w : UniShort) (e : EI) (s : State) : Out := uniImm (· + ·) w e s
/-- USUB_EXT (R105). -/
def execUsubExt (w : UniShort) (e : EI) (s : State) : Out := uniImm (· - ·) w e s
/-- UMUL_EXT (R105). -/
def execUmulExt (w : UniShort) (e : EI) (s : State) : Out := uniImm (· * ·) w e s
/-- UMIN_EXT (R105). -/
def execUminExt (w : UniShort) (e : EI) (s : State) : Out := uniImm signedMin w e s
/-- UMAX_EXT (R105). -/
def execUmaxExt (w : UniShort) (e : EI) (s : State) : Out := uniImm signedMax w e s
/-- UAND_EXT (R105). -/
def execUandExt (w : UniShort) (e : EI) (s : State) : Out := uniImm (· &&& ·) w e s
/-- UOR_EXT (R105). -/
def execUorExt (w : UniShort) (e : EI) (s : State) : Out := uniImm (· ||| ·) w e s
/-- UXOR_EXT (R105). -/
def execUxorExt (w : UniShort) (e : EI) (s : State) : Out := uniImm (· ^^^ ·) w e s
/-- USHL_EXT (R105). -/
def execUshlExt (w : UniShort) (e : EI) (s : State) : Out := uniImm uniShl w e s
/-- USHR_EXT (R105). -/
def execUshrExt (w : UniShort) (e : EI) (s : State) : Out := uniImm uniShr w e s
/-- USHA_EXT (R105). -/
def execUshaExt (w : UniShort) (e : EI) (s : State) : Out := uniImm uniSha w e s
/-- UMOV_EXT (R105). -/
def execUmovExt (w : UniShort) (e : EI) (s : State) : Out := uniOp w false 8 s (e.imm.signExtend 64)

/-- UMAD (R106). -/
def execUmad (w : UniShort) (e : EA) (s : State) : Out :=
  let v (x : Dword) : Int := intSource e.t x
  uniOp w e.gn 8 s (BitVec.ofNat 64 (intResult 64 (intSigned e.t) e.sat
    (v (s.uniA w) * v (s.uniB w) + v (s.grp.uniGet e.c.toNat))))

/-- UBFX (R107). -/
def execUbfx (w : UniShort) (e : EA) (s : State) : Out := uniOp w e.gn 8 s (fieldOf e.t e.imm (s.uniA w))

/-- USEL (R107). -/
def execUsel (w : UniShort) (e : EA) (s : State) : Out :=
  uniOp w e.gn 8 s
    (if s.grp.qGet (e.imm.extractLsb' 0 3).toNat ^^ e.imm.getLsbD 3 then s.uniA w else s.uniB w)

/-- UCMP (R102). -/
def execUcmp (w : UniShort) (e : EA) (s : State) : Out :=
  uniform w.g e.gn 8 s fun s =>
    (s.onGrp fun g =>
      g.qSet w.d.toNat (intCompare (WellFormed.minorOf e).toNat (intSource e.t (s.uniA w)) (intSource e.t (s.uniB w)))).done 8

end Sys2Proof.Machine
end

