-- ==== Sys2Proof/Machine/Traps.lean ====
section
/-!
DEFINITION. Special registers, traps and the return from handler mode (R362 to R366), what drains before a pre-emption
(R152, R370, R378), service calls (R387) and the host cache (R388).
-/
namespace Sys2Proof.Machine

/-! ### srd and swr (R364 to R366) -/

/-- A fault word of the current handler entry (R365). -/
def Group.faultWord (g : Group) (n : Nat) : Dword :=
  match g.handler with
  | none => 0
  | some h => if n = 0 then h.cause else (h.words[n - 1]?).getD 0

/-- SRD (R364). -/
def execSrd (w : UniShort) (s : State) : Out := uniOp w false 4 s (s.special w.a.toNat)

/-- SRD_FAULT_WORD (R364, R365). -/
def execSrdFaultWord (w : UniShort) (s : State) : Out := uniOp w false 4 s (s.grp.faultWord w.b.toNat)

/-- SWR (R366): the write is pending until it lands. -/
def execSwr (w : UniShort) (s : State) : Out :=
  uniform w.g false 4 s fun s =>
    let v := s.grp.uniGet w.b.toNat
    (s.onGrp fun g => { g with specials := g.specials ++ [{ num := w.a.toNat, value := v, age := 0 }] }).done 4

/-! ### trap and bkpt (R362) -/

/-- A group fault with a code of the program's. -/
def State.trapWith (s : State) (cause tcode : Nat) : Out := .next (s.raise (s.groupTrap cause tcode s.grp.spl.mask))

/-- TRAP (R362). -/
def execTrap (w : UniShort) (s : State) : Out := uniform w.g false 4 s fun s => s.trapWith causeTrap w.b.toNat

/-- BKPT (R362): with a debugger attached a debug stop, and on continuation a no-op. -/
def execBkpt (w : UniShort) (s : State) : Out :=
  uniform w.g false 4 s fun s =>
    if !s.grp.attached then s.trapWith causeBkpt w.b.toNat
    else if s.grp.skip.contains s.grp.spl.num then s.done 4
    else .next (s.debugStopHere s.grp.spl.num)

/-! ### What drains (R152, R370, R378) -/

/-- A group of a team holds the token. -/
def Token.ofTeam (t : Token) (key : Nat) : Bool :=
  match t with
  | .held g => teamOf g == key
  | _ => false

/-- A step that has not started and waits behind a token held by a group of its own team. -/
def Engine.ownToken (e : Engine) (st : MatStep) : Bool :=
  !st.started && (e.tile st.lead.e.tile.toNat).token.ofTeam (teamOf st.lead.gid)

/-- A step of engine `k` that does not drain (R152), or whose partner does not. -/
def State.stuckStep (s : State) (k : Nat) (st : MatStep) : Bool :=
  (s.engine k).ownToken st
  || (!st.started && st.joined
      && match st.partner with
         | none => false
         | some o => (s.engine o).steps.any fun b => b.partner == some k && b.joined && (s.engine o).ownToken b)

/-- A merge of engine `k` that does not drain: its tile's token is held by a group of its team, or it waits for a step of
that tile that does not drain (R152). -/
def State.stuckMerge (s : State) (k : Nat) (x : Merge) : Bool :=
  ((s.engine k).tile (x.row / 64)).token.ofTeam (teamOf x.gid)
  || (s.engine k).steps.any fun st =>
      decide (st.id < x.id) && s.stuckStep k st
      && (st.lead.e.tile.toNat == x.row / 64 || ((s.engine k).finTiles st).contains (x.row / 64))

/-- An operation that a group counts is one that does not drain. -/
def State.stuckOp (s : State) (g : Group) (o : EngineOp) : Bool :=
  let k := g.engineKey
  (o.cls == 0 && (s.engine k).steps.any fun st => st.id == o.id && s.stuckStep k st)
  || (o.cls == 2 && (s.engine k).merges.any fun x => x.id == o.id && s.stuckMerge k x)

/-- `ctx.drain` has nothing to wait for (R378): copies, engine counters, acknowledgements and atomics. While the team is
saved (`saving`), operations behind the team's own tokens are left out. -/
def State.drained (s : State) (g : Group) (saving : Bool) : Bool :=
  s.copiesOf g.gid == 0 && (g.counters.all fun o => saving && s.stuckOp g o) && g.ack == 0 && !(g.pend.any fun e => e.wait)

/-- The cause code of the handler entry that the group is in; 0 outside handler mode. -/
def Group.entryCode (g : Group) : Nat := ((g.handler.map fun h => (h.cause.extractLsb' 0 8).toNat).getD 0)

/-- CTX_DRAIN (R378). -/
def execCtxDrain (w : UniShort) (e : EA) (s : State) : Out :=
  uniform w.g e.gn 8 s fun s => if s.drained s.grp (s.grp.entryCode == causePreempt) then s.done 8 else s.stay .drain

/-! ### hret and the entry to handler mode (R357, R363) -/

/-- The split that a handler was entered for resumes at `pc` with the lanes of its handler context. -/
def Split.resumeAt (m : Mask) (pc : Dword) (p : Split) : Split :=
  { p with mask := p.mask ||| m, pc := pc, status := .run, arrived := false }

/-- The list of a binding's kind that an image header and its entries hold, as bytes of a pending-operation record. -/
def mergeImage (x : Merge) : List Byte :=
  padTo 16 x.head ++ x.entries.flatMap fun p => leBytes 4 p.1.toNat ++ leBytes 4 p.2.toNat

/-- The words of a step as a whole: those of its leader with op, kfrac and format block of the leader that counts (R136). -/
def MatStep.merged (st : MatStep) : Dispatched :=
  { st.lead with op := st.par.op, fmt := st.par.fmt, e := { st.lead.e with kfrac := st.par.e.kfrac } }

/-- The 2 KiB pending-operation record of a step of engine `e` (0 or 1) (R152). -/
def MatStep.record (e pos : Nat) (st : MatStep) : List Byte :=
  let d := st.merged
  let op : BitVec 6 := if d.op = 1 then 49 else if d.op = 2 then 50 else 48
  padTo 0x800 (leBytes 1 0 ++ leBytes 1 e ++ leBytes 2 pos ++ zeroBytes 4 ++ leBytes 4 (d.w.toWord op true).toNat
    ++ leBytes 4 d.e.toWord.toNat ++ (d.fmt.flatMap fun w => leBytes 8 w.toNat) ++ leBytes 8 d.sb.toNat
    ++ padTo 8 (st.members.flatMap fun m => leBytes 1 (m.1 % 32) ++ leBytes 1 m.2.2))

/-- The 2 KiB pending-operation record of a merge; its group stands as the one member. -/
def Merge.record (e pos : Nat) (x : Merge) : List Byte :=
  padTo 0x800 (leBytes 1 1 ++ leBytes 1 e ++ leBytes 2 pos ++ zeroBytes 4 ++ leBytes 8 x.row ++ zeroBytes 40
    ++ padTo 8 (leBytes 1 (x.gid % 32)) ++ mergeImage x)

/-- The step of team `t` that a record describes, accepted in turn `id`; its quarters of B are still to be read. None where
the record's EX word is none. -/
def stepOfRecord (t : Team) (id : Nat) (partner : Option Nat) (snap : Memory) (bs : List Byte) : Option MatStep :=
  let w : Word := BitVec.ofNat 32 (fieldAt bs 8 4)
  let member (i : Nat) : Nat × Nat × Nat := (32 * t.key + fieldAt bs (56 + 2 * i) 1 % 32, 0, fieldAt bs (57 + 2 * i) 1 % 64)
  match EX.ofWord (BitVec.ofNat 32 (fieldAt bs 12 4)) with
  | .error _ => none
  | .ok e =>
    let d : Dispatched :=
      { gid := (member 0).1, sp := 0, sc := 0, op := opOf w - 48, w := LaneShort.ofWord w, e := e
        fmt := (List.range 4).map fun i => BitVec.ofNat 64 (fieldAt bs (16 + 8 * i) 8), sb := BitVec.ofNat 64 (fieldAt bs 48 8) }
    some
      { id := id, lead := d, par := d, members := (List.range (if e.mode = 1 then 1 else 4)).map member, srcs := []
        partner := if e.mode = 2 then partner else none, joined := true, started := false, snap := some snap, runs := 0
        failed := [], finPhase := false }

/-- The merge of team `t` that a record describes, accepted in turn `id`. -/
def mergeOfRecord (t : Team) (id : Nat) (bs : List Byte) : Merge :=
  { id := id, gid := 32 * t.key + fieldAt bs 56 1 % 32, sp := 0, row := fieldAt bs 8 8 % 1024, head := (bs.drop 64).take 16
    entries := entriesOf (bs.drop 80) (min 126 (fieldAt bs 65 1)) }

/-- Where record `i` of a team's pending operations lies, when it holds `nt` tiles (R372). -/
def Team.recordAt (t : Team) (nt i : Nat) : Nat := t.groupImage nt t.ng + 0x800 * i

/-- A pending operation back in its engine's queue, ahead of what stands there (R152); false where its record cannot be read
or holds no operation. A B register whose frame a restore routine has not brought back reads 0 (DESIGN CHOICE, log 146). -/
def State.reenterOne (s : State) (t : Team) (nt i : Nat) (o : PendingOp) : State × Bool :=
  match s.ctxLoadLong t.ctx (dieOf t.core) (t.recordAt nt i) 128 with
  | (s, none) => (s, false)
  | (s, some bs) =>
    let k := 2 * t.core + fieldAt bs 1 1 % 2
    let partner := (s.pairTeam t).map fun u => 2 * u.core + k % 2
    if fieldAt bs 0 1 = 1 then (s.onEngine k fun x => { x with merges := mergeOfRecord t o.id bs :: x.merges }, true)
    else
      match stepOfRecord t o.id partner s.teamMem bs with
      | none => (s, false)
      | some st => (s.onEngine k fun x => { x with steps := st :: x.steps }, true)

/-- The pending operations of a team re-enter their engines from their records, in saved order and ahead of any other (R152):
their restore is complete once no group of the team is in a restore routine. A record that cannot be read is a context
fault. -/
def State.reenter (s : State) (key : Nat) : State :=
  match s.team? key with
  | none => s
  | some t =>
    let restoring := (s.teamGroups key).any fun g => g.entryCode == causeResume
    if t.phase ≠ .running ∨ restoring ∨ t.pendingOps.isEmpty then s
    else
      let (s, ok) := t.pendingOps.zipIdx.reverse.foldl
        (fun acc x => if acc.2 then acc.1.reenterOne t t.savedTiles.length x.2 x.1 else acc) (s, true)
      let s := s.onTeam key fun t => { t with pendingOps := [] }
      if ok then s else s.haltSoon (s.partOf t.ctx) causeSpill

/-- A group that has left a save or restore routine; without any restored split it has ended (R202). -/
def State.endRoutine (s : State) (h : Handler) : State :=
  let gid := s.grp.gid
  let s := s.onGrp fun g => g.leaveHandler h id
  let s := if s.grp.splits.any fun p => p.mask != 0 then s else (s.onGrp fun g => { g with frames := [] }).afterExit gid
  s.reenter (teamOf gid)

/-- Every pending write to a special register of the group in focus landed. -/
def State.landSpecials (s : State) : State :=
  let due := s.grp.specials
  due.foldl (fun s w => s.landSpecial w.num w.value) (s.onGrp fun g => { g with specials := [] })

/-- HRET (R363). -/
def execHret (w : UniShort) (s : State) : Out :=
  uniform w.g false 4 s fun s =>
    let s := s.landSpecials
    match s.grp.handler with
    | none => s.fault causeProtection
    | some h =>
      let code := s.grp.entryCode
      if code = causePreempt ∧ !h.complete then
        if s.drained s.grp true then .next (s.onGrp fun g => { g with handler := some { h with complete := true } })
        else s.stay .drain
      else if code = causePreempt ∨ code = causeResume then .next (s.endRoutine h)
      else
        let w5 := s.wordAt (s.ctxOf s.grp.gid) h.epc
        let pc := if w.b.getLsbD 0 then h.epc + (if w5.getLsbD 30 then 8 else 4) else h.epc
        .next (s.onGrp fun g => g.leaveHandler h (Split.resumeAt g.spl.mask pc))

/-! ### Service calls (R387) -/

/-- The ticket word of S[d] and CREC (R387): the partition's ticket number and the VF generation. -/
def ticketWord (number gen : Nat) : Dword := BitVec.ofNat 64 (number % 2 ^ 32 + gen % 256 * 2 ^ 32)

/-- A request posted with the partition's next ticket number: the state and the ticket word. -/
def State.issueCall (s : State) (part ctx : Nat) (req : BitVec 512) : State × Dword :=
  let n := Sparse.get 0 s.tickets part
  let t := ticketWord n (((lookupKey s.contexts ctx).map (·.gen)).getD 0)
  (({ s with tickets := Sparse.set 0 s.tickets part ((n + 1) % 2 ^ 32) } : State).postCall part ctx t req, t)

/-- SVC (R387). -/
def execSvc (w : UniShort) (s : State) : Out :=
  uniform w.g false 4 s fun s =>
    let a := (s.grp.uniGet w.a.toNat).toNat
    if a % 64 ≠ 0 then s.fault causeMisaligned
    else if !s.atOrder .sys then s.stay .order
    else
      s.gatherGroup .read s.grp.spl.mask [s.globalRun .read a 64] fun s rows =>
        let (s, bs) := s.loadPieces (rows.flatMap id)
        let req : BitVec 512 := BitVec.ofNat 512 (leNat bs)
        let crec := (req.extractLsb' 64 64).toNat
        let cctr := (req.extractLsb' 128 64).toNat
        if crec % 16 ≠ 0 ∨ cctr % 8 ≠ 0 then s.fault causeMisaligned
        else
          s.gatherGroup .write s.grp.spl.mask
            (s.globalRun .write crec 16 :: if cctr = 0 then [] else [s.globalRun .write cctr 8]) fun s _ =>
            let part := s.partition s.grp.gid
            if !s.callRoom part then s.stay .ring
            else
              let (s, t) := (s.release .sys).issueCall part (s.ctxOf s.grp.gid) req
              (s.onGrp fun g => g.uniSet w.d.toNat t).done 4

/-! ### hcoh (R388) -/

/-- The pages of a range of `n` bytes, as (address, bytes in the page). -/
def rangePages : Nat → Nat → Nat → List (Nat × Nat)
  | 0, _, _ => []
  | f + 1, a, n =>
    if n = 0 then []
    else
      let len := min n (4096 - a % 4096)
      (a, len) :: rangePages f (a + len) (n - len)

/-- The host-memory lines among pieces of a range. -/
def hostLines (ps : List Piece) : List Nat :=
  ps.flatMap fun p => if p.loc.space = 4 then (List.range (p.len / 128)).map fun i => p.loc.addr / 128 + i else []

/-- What `flush` and `inval` share (R388): the checks, the order point of `flush`, and the lines of the range. -/
def hcoh (w : UniShort) (e : EA) (flush : Bool) (s : State) (body : List Nat → State → State) : Out :=
  uniform w.g e.gn 8 s fun s =>
    let a := (s.grp.uniGet w.a.toNat).toNat
    let n := (s.grp.uniGet w.b.toNat).toNat
    if n < 128 ∨ 2 ^ 30 < n then s.fault causeProtection
    else if a % 128 ≠ 0 ∨ n % 128 ≠ 0 then s.fault causeMisaligned
    else if flush && !s.atOrder .sys then s.stay .flush
    else
      s.gatherGroup .read s.grp.spl.mask ((rangePages (n / 4096 + 2) a n).map fun p => s.globalRun .read p.1 p.2) fun s rows =>
        (body (hostLines (rows.flatMap id)) s).done 8

/-- HCOH_FLUSH (R388). -/
def execHcohFlush (w : UniShort) (e : EA) (s : State) : Out :=
  hcoh w e true s fun ls s => ls.foldl State.hostClean s

/-- HCOH_INVAL (R388). -/
def execHcohInval (w : UniShort) (e : EA) (s : State) : Out :=
  hcoh w e false s fun ls s => (ls.foldl (fun (s : State) l => (s.hostDrop l).l1Drop 4 l) s).acquire .sys

end Sys2Proof.Machine
end

