-- ==== Sys2Proof/Machine/ContextOps.lean ====
section
/-!
DEFINITION. The `ctx` instructions of save and restore routines (R377, R379 to R381).
-/
namespace Sys2Proof.Machine

/-- A minor that only the save routine (cause PREEMPT) or only the restore routine (cause RESUME) may execute (R377). -/
def ctxOp (code : Nat) (w : UniShort) (e : EA) (s : State) (body : State → Out) : Out :=
  uniform w.g e.gn 8 s fun s => if s.grp.entryCode ≠ code then s.fault causeProtection else body s

/-- A run of bytes cut into pieces of at most 128, from its start on. -/
def lineRuns (r : Nat × Nat) : List (Nat × Nat) :=
  (List.range ((r.2 + 127) / 128)).map fun i => (r.1 + 128 * i, min 128 (r.2 - 128 * i))

/-- Runs of bytes of an image that the routine reads or writes, each within one page. -/
def State.imageRuns (s : State) (k : Access) (runs : List (Nat × Nat)) (go : State → List Piece → Out) : Out :=
  s.gatherGroup k s.grp.spl.mask ((runs.flatMap lineRuns).map fun r => s.globalRun k r.1 r.2) fun s rows => go s (rows.flatMap id)

/-- An image base that is a multiple of 4 KiB (R377). -/
def imageBase (w : UniShort) (s : State) (body : Nat → State → Out) : Out :=
  let a := (s.grp.uniGet w.a.toNat).toNat
  if a % 4096 ≠ 0 then s.fault causeMisaligned else body a s

/-- The frame number of `svframe` and `ldframe` (R377, R380). -/
def frameOperand (w : UniShort) (s : State) (body : Nat → State → Out) : Out :=
  let n := (s.regOrImm w).toNat
  if 511 < n then s.fault causeIllegal else if n = 511 then s.fault causeProtection else body n s

/-! ### Splits and group fields (R379) -/

/-- What `svsplit` writes, and where from the image base. -/
def Group.savePart (g : Group) (n : Nat) : Nat × List Byte :=
  if n = 4 then (0, g.fieldBlock true)
  else
    (0x400 + 256 * n,
     match g.ordinary.find? fun p => p.num == n with
     | none => zeroBytes 256
     | some p => g.splitRecord p)

/-- CTX_SVSPLIT (R379). -/
def execCtxSvsplit (w : UniShort) (e : EA) (s : State) : Out :=
  ctxOp causePreempt w e s (imageBase w · fun base s =>
    let (off, bs) := s.grp.savePart w.b.toNat
    s.imageRuns .write [(base + off, bs.length)] fun s ps => (s.storeBytes ps bs).done 8)

/-- A split read back that stands frozen until `hret`; a mask that meets another split's is PROTECTION. -/
def State.restoreSplit (s : State) (n : Nat) (bs : List Byte) : Out :=
  match s.loadSplit s.grp.gid n bs with
  | (s, none) => .next (s.haltSoon (s.partition s.grp.gid) causeSpill)
  | (s, some none) => s.done 8
  | (s, some (some p)) =>
    match s.grp.handler with
    | none => s.fault causeProtection
    | some h =>
      let others := h.frozen.filter fun q => q.num != n
      (s.onGrp fun g => { g with handler := some { h with frozen := others ++ [p] } }).done 8

/-- CTX_LDSPLIT (R379). -/
def execCtxLdsplit (w : UniShort) (e : EA) (s : State) : Out :=
  ctxOp causeResume w e s (imageBase w · fun base s =>
    let n := w.b.toNat
    if n = 4 then
      s.imageRuns .read [(base, 0x400)] fun s ps =>
        let (s, bs) := s.loadPieces ps
        (s.onGrp fun g => g.loadFields bs).done 8
    else
      s.imageRuns .read [(base + 0x400 + 256 * n, 256)] fun s ps =>
        let (s, bs) := s.loadPieces ps
        let m : Mask := BitVec.ofNat 32 (fieldAt bs 8 4)
        if s.grp.ordinary.any fun q => q.num != n && q.mask &&& m != 0 then s.fault causeProtection
        else s.restoreSplit n bs)

/-! ### Frames (R380) -/

/-- CTX_SVFRAME (R380). -/
def execCtxSvframe (w : UniShort) (e : EA) (s : State) : Out :=
  ctxOp causePreempt w e s (frameOperand w · fun n s =>
    match s.grp.frame? n with
    | none => s.fault causeProtection
    | some f =>
      let gid := s.grp.gid
      let spill (s : State) : Out := .next (s.haltSoon (s.partition gid) causeSpill)
      match (if f.res then s.evict gid n else (s, .ok)) with
      | (s, .fail) => spill s
      | (s, .wait) => s.stay .translate
      | (s, .ok) => s.spilling .write [s.grp.descAddr n] fun s => (s.putDescriptor gid n).done 8)

/-- Frame `n` with the descriptor of the spill area, where it is not live. -/
def State.reviveFrame (s : State) (n : Nat) : State :=
  let (s, bs) := s.spillLoad s.grp (s.grp.descAddr n) 32
  let f := { frameOfDescriptor (BitVec.ofNat 256 (leNat bs)) with fn := n }
  if (s.grp.frame? n).isSome then s else s.onGrp fun g => { g with frames := insertKey g.frames n f }

/-- CTX_LDFRAME (R380): a frame that is not resident gets its granules through the queue of R183 first. -/
def execCtxLdframe (w : UniShort) (e : EA) (s : State) : Out :=
  ctxOp causeResume w e s (frameOperand w · fun n s =>
    let gid := s.grp.gid
    let load (s : State) : Out :=
      match s.fill gid n with
      | (s, .fail) => .next (s.haltSoon (s.partition gid) causeSpill)
      | (s, .wait) => s.stay .translate
      | (s, .ok) => s.done 8
    s.spilling .read [s.grp.descAddr n] fun s =>
      let s := s.reviveFrame n
      match s.grp.frame? n with
      | none => s.fault causeProtection
      | some f =>
        if f.res || !f.gmap.isEmpty then load s
        else if s.mayGrant s.grp.sub gid s.grp.spl.num (f.fc + 1) then
          let gm := s.takeGranules s.grp.sub (f.fc + 1)
          load (s.onGrp fun g => { g with frames := modifyKey g.frames n fun f => { f with gmap := gm } })
        else s.fillWait f)

/-! ### Barriers, items and the release window (R381) -/

/-- The bytes of a team's barrier words, barrier 0 first. -/
def State.barrierBytes (s : State) (t : Team) : List Byte :=
  (List.range t.barCount).flatMap fun n => leBytes 8 (s.bar (barAt t.core (t.barBase + n))).toNat

/-- A team's barrier words set from bytes. -/
def State.loadBarriers (s : State) (t : Team) (bs : List Byte) : State :=
  (List.range t.barCount).foldl
    (fun s n => s.setBar (barAt t.core (t.barBase + n)) (BitVec.ofNat 64 (fieldAt bs (8 * n) 8))) s

/-- Some split of a team waits on a barrier. -/
def State.teamAtBarrier (s : State) (key : Nat) : Bool :=
  (s.teamGroups key).any fun g => (g.splits ++ g.ordinary).any fun p => p.status == .waiting .barrier

/-- Where the parts of a group image that `svlist` names lie, from its base: kind 1 the item block, kind 2 the count and
the entries of the release window. -/
def listRuns (base : Nat) : Nat → List (Nat × Nat)
  | 0 => [(base + 0x1000, 4096)]
  | 1 => [(base + 0x800, 0x28C)]
  | _ => [(base + 0xA90, 8), (base + 0xC00, 0x400), (base + 0x1000, 0xC00)]

/-- The bytes of those parts as they stand, each run padded with zeros to its length. -/
def State.listBytes (s : State) (t : Team) (kind : Nat) : List Byte :=
  let held := (s.heldOf s.grp.core s.grp.gid).take 128
  match kind with
  | 0 => padTo 4096 (s.barrierBytes t)
  | 1 => padTo 0x28C s.grp.itemBlock
  | _ => leBytes 8 held.length ++ padTo 0x1000 (held.flatMap (heldBytes t))

/-- The held writes of a group taken out of its core's window: they belong to the image now (R212). -/
def State.takeHeld (s : State) (core gid : Nat) : State :=
  { s with relwin := modifyKey s.relwin core fun ws => ws.filter fun w => w.gid != gid }

/-- CTX_SVLIST (R381); the entries written by kind 2 belong to the image from then on (R212). -/
def execCtxSvlist (w : UniShort) (e : EA) (s : State) : Out :=
  ctxOp causePreempt w e s (imageBase w · fun base s =>
    match s.team with
    | none => s.fault causeProtection
    | some t =>
      let kind := w.b.toNat
      let bs := s.listBytes t kind
      s.imageRuns .write (listRuns base kind) fun s ps =>
        let s := s.storeBytes ps bs
        (if kind = 2 then s.takeHeld s.grp.core s.grp.gid else s).done 8)

/-- The release-window entries of an image, count and entries as `listRuns` reads them. -/
def heldOfImage (t : Team) (gid : Nat) (bs : List Byte) : List HeldWrite :=
  (List.range (min 128 (fieldAt bs 0 8))).map fun i => heldOfBytes t gid ((bs.drop (8 + 32 * i)).take 32)

/-- CTX_SVLIST_LOAD (R381). -/
def execCtxSvlistLoad (w : UniShort) (e : EA) (s : State) : Out :=
  ctxOp causeResume w e s (imageBase w · fun base s =>
    match s.team with
    | none => s.fault causeProtection
    | some t =>
      let kind := w.b.toNat
      if kind = 0 ∧ (s.teamAtBarrier t.key ∨ s.grp.gid % 32 ≠ 0) then s.fault causeProtection
      else
        s.imageRuns .read (listRuns base kind) fun s ps =>
          let (s, bs) := s.loadPieces ps
          match kind with
          | 0 => (s.loadBarriers t bs).done 8
          | 1 => (s.loadItems s.grp.gid bs).done 8
          | _ =>
            let ws := heldOfImage t s.grp.gid bs
            if 128 < ((lookupKey s.relwin t.core).getD []).length + ws.length then s.stay .room
            else (s.hold t.core ws).done 8)

end Sys2Proof.Machine
end

