-- ==== Sys2Proof/Machine/Needs.lean ====
section
/-!
DEFINITION. Kernel descriptors and binding tables (R348, R402 to R406, R412): their fields, their checks, and the copy of
them that a launch keeps.
-/
namespace Sys2Proof.Machine

/-! ### Fields (R348, R402) -/

/-- NEEDS of a descriptor. -/
def needsWord (k : BitVec 1024) : Dword := k.extractLsb' 576 64

/-- A field of NEEDS. -/
def needField (k : BitVec 1024) (lo n : Nat) : Nat := ((needsWord k).extractLsb' lo n).toNat

/-- NG. -/
def needNg (k : BitVec 1024) : Nat := needField k 20 5 + 1
/-- The granules of a root frame. -/
def needFrame (k : BitVec 1024) : Nat := needField k 25 3 + 1
/-- ACC. -/
def needAcc (k : BitVec 1024) : Nat := needField k 28 5
/-- TMEM in bytes. -/
def needTmem (k : BitVec 1024) : Nat := 256 * needField k 33 12
/-- BAR. -/
def needBar (k : BitVec 1024) : Nat := needField k 45 10
/-- CH. -/
def needCh (k : BitVec 1024) : Nat := needField k 55 3
/-- CW. -/
def needCw (k : BitVec 1024) : Nat := needField k 58 3
/-- CBAR. -/
def needCbar (k : BitVec 1024) : Nat := (k.extractLsb' 539 7).toNat
/-- RDOM. -/
def needRdom (k : BitVec 1024) : BitVec 16 := k.extractLsb' 560 16
/-- The bytes of one group's private area (R239, R342). -/
def needPrivate (k : BitVec 1024) : Nat := 128 * ((needField k 0 20 + 3) / 4)
/-- ENTRY. -/
def kernelEntry (k : BitVec 1024) : Dword := k.extractLsb' 960 64
/-- MODE. -/
def kernelMode (k : BitVec 1024) : Dword := k.extractLsb' 896 64
/-- BIND. -/
def kernelBind (k : BitVec 1024) : Dword := k.extractLsb' 832 64
/-- KIND = 1. -/
def isGang (k : BitVec 1024) : Bool := k.getLsbD 557
/-- FLOW = 1. -/
def isFlow (k : BitVec 1024) : Bool := k.getLsbD 556
/-- GM = 1. -/
def isMember (k : BitVec 1024) : Bool := k.getLsbD 546
/-- The kernel declares save and restore routines (R371). -/
def hasRoutines (k : BitVec 1024) : Bool := (handlerOf k 1).1 != 0 && (handlerOf k 2).1 != 0

/-! ### Binding entries (R405) -/

/-- VALUE. -/
def bindValue (e : BitVec 128) : Dword := e.extractLsb' 64 64
/-- SIZE. -/
def bindSize (e : BitVec 128) : Nat := (e.extractLsb' 32 32).toNat
/-- KIND: 0 object window, 1 launch window, 2 queue, 3 flow queue, 4 pipe. -/
def bindKind (e : BitVec 128) : Nat := (e.extractLsb' 28 4).toNat
/-- WIN. -/
def bindWin (e : BitVec 128) : Nat := (e.extractLsb' 25 3).toNat
/-- SREG. -/
def bindSreg (e : BitVec 128) : Nat := (e.extractLsb' 19 6).toNat
/-- LOGN. -/
def bindLogn (e : BitVec 128) : Nat := (e.extractLsb' 15 4).toNat
/-- P of a pipe. -/
def bindPipe (e : BitVec 128) : Nat := (e.extractLsb' 64 32).toNat
/-- The bytes of a pipe: its header and its slots (R330). -/
def pipeBytes (e : BitVec 128) : Nat := 16 + bindSize e * 2 ^ bindLogn e

/-! ### What makes a descriptor invalid (R404, R406) -/

/-- Nothing stands twice in a list. -/
def noRepeat (l : List Nat) : Bool := l.eraseDups.length == l.length

/-- Two pipes do not overlap. -/
def pipesApart (a b : BitVec 128) : Bool :=
  decide (bindPipe a + pipeBytes a ≤ bindPipe b) || decide (bindPipe b + pipeBytes b ≤ bindPipe a)

/-- The pipes of a table are disjoint. -/
def allApart : List (BitVec 128) → Bool
  | [] => true
  | p :: rest => (rest.all fun q => pipesApart p q) && allApart rest

/-- A pipe that satisfies R330 and lies in a team share of `tm` bytes. -/
def pipeOk (tm : Nat) (e : BitVec 128) : Bool :=
  bindPipe e % 16 == 0 && decide (1 ≤ bindLogn e) && decide (bindLogn e ≤ 8) && decide (16 ≤ bindSize e)
  && decide (bindSize e ≤ 16384) && bindSize e % 16 == 0 && decide (bindPipe e + pipeBytes e ≤ tm)

/-- The binding table is valid (R406) for a team share of `tm` bytes. -/
def bindsValid (tm : Nat) (bs : List (BitVec 128)) : Bool :=
  let pipes := bs.filter fun e => bindKind e == 4
  (bs.all fun e => decide (bindKind e ≤ 4))
  && noRepeat ((bs.filter fun e => decide (bindKind e ≤ 1)).map bindWin)
  && noRepeat ((bs.filter fun e => bindKind e == 2 || bindKind e == 4).map bindSreg)
  && pipes.all (pipeOk tm) && allApart pipes
  && bs.all fun e => !(bindKind e == 2 || bindKind e == 3) || bindValue e != 0

/-- A MODE that R404 allows: RND is not 111 and the reserved bits of R75 are zero. -/
def modeOk (m : Dword) : Bool :=
  m.extractLsb' 0 3 != 7 && m.extractLsb' 3 2 == 0 && m.extractLsb' 8 8 == 0 && m.extractLsb' 32 16 == 0

/-- The fields of a descriptor itself are valid. -/
def fieldsValid (k : BitVec 1024) : Bool :=
  let hs := [(handlerOf k 0).1, (handlerOf k 1).1, (handlerOf k 2).1]
  k.extractLsb' 512 27 == 0 && k.extractLsb' 256 64 == 0 && !(needsWord k).getLsbD 63 && modeOk (kernelMode k)
  && (kernelEntry k).toNat % 4 == 0 && hs.all (fun h => h.toNat % 4 == 0)
  && (if isGang k then kernelEntry k == 0 && hs.all (· == 0) else kernelEntry k != 0)
  && (((handlerOf k 1).1 == 0) == ((handlerOf k 2).1 == 0))
  && decide (1 ≤ needCw k) && decide (needCw k ≤ 6) && decide (1 ≤ needCh k) && decide (needCh k ≤ 4)
  && decide (needCw k * needCh k ≤ 12) && !((needsWord k).getLsbD 62 && needCw k % 2 == 1)
  && decide (needBar k ≤ 512) && decide (needTmem k ≤ 524288) && decide (needAcc k ≤ 16) && decide (needCbar k ≤ 64)
  && (kernelBind k).toNat % 16 == 0

/-- FLOW agrees with the table's flow entries. -/
def flowValid (k : BitVec 1024) (bs : List (BitVec 128)) : Bool :=
  (bs.filter fun e => bindKind e == 3).length == if isFlow k then 1 else 0

/-- A member that a gang of `tm` bytes of team memory may name. -/
def memberValid (tm : Nat) (m : BitVec 1024 × List (BitVec 128)) : Bool :=
  fieldsValid m.1 && bindsValid tm m.2 && flowValid m.1 m.2 && !isGang m.1 && isMember m.1
  && needCw m.1 == 1 && needCh m.1 == 1

/-! ### The copy a launch keeps (R414) -/

/-- A descriptor with its binding table, and for a gang those of its three members. -/
structure KernelCopy where
  kdesc : BitVec 1024
  binds : List (BitVec 128)
  members : List (BitVec 1024 × List (BitVec 128))
  deriving DecidableEq, Repr

/-- The copy as a whole is valid (R404). -/
def KernelCopy.valid (c : KernelCopy) : Bool :=
  fieldsValid c.kdesc && bindsValid (needTmem c.kdesc) c.binds && flowValid c.kdesc c.binds
  && (!isGang c.kdesc || (c.members.length == 3 && c.members.all (memberValid (needTmem c.kdesc))))

/-- A descriptor at an address, a multiple of 64 (R396); none where it cannot be read. -/
def State.readDescriptor (s : State) (ctx die : Nat) (a : Dword) : State × Option (BitVec 1024) :=
  if a.toNat % 64 ≠ 0 then (s, none)
  else
    match s.ctxLoadLong ctx die a.toNat 8 with
    | (s, none) => (s, none)
    | (s, some bs) => (s, some (BitVec.ofNat 1024 (leNat bs)))

/-- The binding table that a descriptor names; none where it cannot be read, its header has a reserved bit, or COUNT exceeds
64. -/
def State.readBinds (s : State) (ctx die : Nat) (k : BitVec 1024) : State × Option (List (BitVec 128)) :=
  let a := (kernelBind k).toNat
  if a = 0 then (s, some [])
  else if a % 16 ≠ 0 then (s, none)
  else
    match s.ctxLoadLong ctx die a 1 with
    | (s, none) => (s, none)
    | (s, some hd) =>
      if 64 < leNat hd then (s, none)
      else
        match s.ctxLoadLong ctx die (a + 16) (leNat hd) with
        | (s, none) => (s, none)
        | (s, some bs) => (s, some ((List.range (leNat hd)).map fun i => BitVec.ofNat 128 (fieldAt bs (16 * i) 16)))

/-- A descriptor with its table. -/
def State.readKernel (s : State) (ctx die : Nat) (a : Dword) : State × Option (BitVec 1024 × List (BitVec 128)) :=
  match s.readDescriptor ctx die a with
  | (s, none) => (s, none)
  | (s, some k) =>
    match s.readBinds ctx die k with
    | (s, none) => (s, none)
    | (s, some bs) => (s, some (k, bs))

/-- The addresses of a gang's members: the loader, the computer, the storer. -/
def memberAddrs (k : BitVec 1024) : List Dword := [k.extractLsb' 448 64, k.extractLsb' 384 64, k.extractLsb' 320 64]

/-- The members of a gang. -/
def State.readMembers (s : State) (ctx die : Nat) (as : List Dword) : State × List (BitVec 1024 × List (BitVec 128)) :=
  as.foldl
    (fun (acc : State × List (BitVec 1024 × List (BitVec 128))) a =>
      match acc.1.readKernel ctx die a with
      | (s, none) => (s, acc.2)
      | (s, some m) => (s, acc.2 ++ [m]))
    (s, [])

/-- The valid kernel that an address names, none where it is invalid (R404). -/
def State.readValid (s : State) (ctx die : Nat) (a : Dword) : State × Option KernelCopy :=
  match s.readKernel ctx die a with
  | (s, none) => (s, none)
  | (s, some (k, bs)) =>
    let (s, ms) := if isGang k then s.readMembers ctx die (memberAddrs k) else (s, [])
    let c : KernelCopy := { kdesc := k, binds := bs, members := ms }
    (s, if c.valid then some c else none)

/-- The kernel that group `g` of a team runs: in a gang the loader's groups come first, then the computer's, then the
storer's (R412). -/
def memberOf (k : BitVec 1024) (bs : List (BitVec 128)) :
    List (BitVec 1024 × List (BitVec 128)) → Nat → BitVec 1024 × List (BitVec 128)
  | [], _ => (k, bs)
  | [m], _ => m
  | m :: rest, g => if g < needNg m.1 then m else memberOf k bs rest (g - needNg m.1)

end Sys2Proof.Machine
end

