-- ==== Sys2Proof/Machine/Stops.lean ====
section
/-!
DEFINITION. Halts of a partition with their stop records (R151, R174, R367, R368), the watchdog (R369) and the debugger
(R294 to R296, R389, R390).
-/
namespace Sys2Proof.Machine

/-! ### Stop records (R368) -/

/-- What a stop record holds of its engine, zero where it does not apply. -/
structure StopFields where
  src : Nat
  kind : Nat
  pasid : Nat := 0
  core : Nat := 0
  unit : Nat := 0
  slot : Nat := 0
  team : Nat := 0
  group : Nat := 0
  pcs : List Dword := []
  masks : List Mask := []
  hm : BitVec 8 := 0
  ctr : BitVec 8 := 0
  acks : Nat := 0
  deriving DecidableEq, Repr

/-- The 128-byte record. -/
def stopRecord (pm : Dword) (part cause : Nat) (f : StopFields) : BitVec 1024 :=
  let pc (n : Nat) : Dword := (f.pcs[n]?).getD 0
  let mask (n : Nat) : Mask := (f.masks[n]?).getD 0
  pm ++ BitVec.ofNat 16 f.src ++ BitVec.ofNat 8 cause ++ BitVec.ofNat 8 f.kind ++ BitVec.ofNat 5 part
    ++ BitVec.ofNat 20 f.pasid ++ BitVec.ofNat 8 f.core ++ BitVec.ofNat 4 f.unit ++ BitVec.ofNat 4 f.slot
    ++ BitVec.ofNat 32 f.team ++ BitVec.ofNat 32 f.group ++ pc 3 ++ pc 2 ++ pc 1 ++ pc 0
    ++ mask 3 ++ mask 2 ++ mask 1 ++ mask 0 ++ f.hm ++ f.ctr ++ (0 : BitVec 16) ++ BitVec.ofNat 16 f.acks
    ++ (0 : BitVec 391)

/-- The stop record's fields of a group. -/
def State.groupStop (s : State) (g : Group) : StopFields :=
  let split (n : Nat) : Option Split := g.ordinary.find? fun p => p.num == n
  let ctr := (List.range 5).foldl (fun n c => if 0 < g.outstanding c then n + 2 ^ c else n) 0
  { src := coreSource g.core g.sc, kind := 0, pasid := s.pasid g.gid, core := coreCode g.core, unit := g.sc, slot := g.slot
    team := ((s.team? (teamOf g.gid)).map (·.number)).getD 0, group := g.gid % 32
    pcs := (List.range 4).map fun n => ((split n).map (·.pc)).getD 0
    masks := (List.range 4).map fun n => ((split n).map (·.mask)).getD 0
    hm := match g.handler with
      | none => 0
      | some h => (0 : BitVec 5) ++ h.cause.extractLsb' 16 2 ++ (1 : BitVec 1)
    ctr := BitVec.ofNat 8 ctr, acks := g.ack }

/-- Bit of a core in a partition's CMASK (R420). -/
def State.coreIn (s : State) (part core : Nat) : Bool := (s.partReg part (8 + 8 * (core / 64))).getLsbD (core % 64)

/-- The cores of a partition: those of its CMASK and those that still hold one of its teams. -/
def State.partCores (s : State) (part : Nat) : List Nat :=
  (List.range 192).filter fun c => s.coreIn part c || s.teams.any fun t => t.2.core == c && s.partOf t.2.ctx == part

/-- The stop records' fields of the engines of a partition. -/
def State.engineStops (s : State) (part : Nat) : List StopFields :=
  let cores := s.partCores part
  let dies := (cores.map dieOf).eraseDups
  (cores.flatMap fun c =>
    [{ src := coreSource c 8, kind := 1, core := coreCode c, unit := 0 }, { src := coreSource c 9, kind := 1, core := coreCode c, unit := 1 },
     { src := coreSource c 10, kind := 2, core := coreCode c }])
  ++ dies.flatMap fun d =>
    [{ src := dieSource d 0, kind := 3 }, { src := dieSource d 3, kind := 4, unit := 0 },
     { src := dieSource d 4, kind := 4, unit := 1 }, { src := dieSource d 1, kind := 5 }]

/-! ### What a halt leaves (R151, R174, R291, R367) -/

/-- Of a list of choices numbered from `n`, those that a free bit takes. -/
def chosen {α : Type} (n : Nat) (xs : List α) : List α :=
  (xs.zipIdx.filter fun x => Config.freeBool (n + x.2)).map (·.1)

/-- A step of engine `k` stopped in compute: each target element holds its old or its new value (R151). -/
def State.stopCompute (s : State) (k : Nat) (st : MatStep) : State :=
  match s.team? (teamOf st.lead.gid) with
  | none => s
  | some t =>
    let xs := chosen (s.free + stepChoices) (s.stepResult k st t (s.scaleTeam t st))
    { s.putAll xs with free := s.free + 2 * stepChoices }

/-- A fin phase stopped: each list is as before or as after its row's offers (R174). -/
def State.stopFin (s : State) (k : Nat) (st : MatStep) : State :=
  match (s.engine k).bindings.find? fun b => b.st == st.lead.e.tile.toNat with
  | none => s
  | some b =>
    let rows := chosen s.free (List.range (stepRows st.lead.e))
    let s := { s with free := s.free + 64 }
    rows.foldl (fun s i => s.finRow k b (st.lead.e.row.toNat + i)) s

/-- The steps of a partition's teams on an engine stopped. -/
def State.stopEngine (s : State) (part k : Nat) : State :=
  let mine (st : MatStep) : Bool := st.started && s.partition st.lead.gid == part
  let s' := ((s.engine k).steps.filter mine).foldl
    (fun s st => if st.finPhase then s.stopFin k st else s.stopCompute k st) s
  s'.onEngine k fun e => { e with steps := e.steps.filter fun st => !mine st }

/-- A move of a copy stopped between 4-byte words: a free number of its words have been moved. -/
def State.stopMove (s : State) (core ctx : Nat) (m : Move) : State :=
  if m.written then s
  else
    let n := 4 * ((Config.freeWord s.free).toNat % (m.len / 4 + 1))
    { s.doMove core ctx { m with len := n, data := m.data.map fun bs => bs.take n } with free := s.free + 1 }

/-- The copies of a partition stopped. -/
def State.stopCopies (s : State) (part : Nat) : State :=
  let mine (c : Nat × Copy) : Bool := s.partOf c.2.ctx == part
  let s' := (s.copies.filter mine).foldl (fun (s : State) c => c.2.moves.foldl (fun s m => s.stopMove c.2.core c.2.ctx m) s) s
  { s' with copies := s.copies.filter fun c => !mine c }

/-- The halt line of a partition rises (R367): HALT reads 1, its engines stop, and each writes its stop record. -/
def State.haltNow (s : State) (part cause : Nat) : State :=
  let s := s.setPartReg part 0 (s.partReg part 0 ||| 2)
  let s := (s.engines.map (·.1)).foldl (fun s k => s.stopEngine part k) s
  let s := s.stopCopies part
  let fs := ((s.groups.filter fun g => s.partition g.gid == part).map s.groupStop) ++ s.engineStops part
  fs.foldl (fun s f => s.partRing part 0x50 128 (stopRecord s.postmark part cause f).toNat) s

/-- HALT (R367): a partition that is halted already stays as it is. -/
def execHalt (part : Nat) (cause : BitVec 8) (s : State) : Out :=
  if s.halted part then .next s else .next (s.haltNow part cause.toNat)

/-! ### The watchdog (R369) -/

/-- The watchdog interval of a partition in Postmark counts (R3, R369). -/
def State.watchInterval (s : State) (part : Nat) : Nat := 1000 * (s.partReg part 0x98).toNat

/-- One of the two cases has lasted for the interval: no issue, or an entry on a deferred-mask stack; not while the group
is stopped, parked or its team not running. -/
def State.watchExpired (s : State) (g : Group) : Bool :=
  let now := s.postmark.toNat
  let i := s.watchInterval (s.partition g.gid)
  let old (t : Nat) : Bool := decide (t + i ≤ now)
  let runs := match s.team? (teamOf g.gid) with
    | none => false
    | some t => t.phase == .running
  runs && !g.stopped && !g.parked
  && (old g.lastIssue || g.allSplits.any fun p => p.mask != 0 && p.dstack.any fun d => old d.since)

/-- WATCHDOG (R369). -/
def execWatchdog (gid : Nat) (s : State) : Out :=
  match s.group? gid with
  | none => .next s
  | some g => if s.watchExpired g then .next (s.haltSoon (s.partition gid) causeWatchdog) else .next s

/-! ### The debugger (R294 to R296, R389, R390) -/

/-- DEBUG_STOP (R389): the debugger stops the group; it is attached to every group of the launches of that context (R334;
log 141). -/
def execDebugStop (gid : Nat) (s : State) : Out :=
  if (s.group? gid).isNone then .next s
  else
    let ctx := s.ctxOf gid
    let s := s.onGroups fun g => if s.ctxOf g.gid = ctx then { g with attached := true } else g
    let s := { s with debugged := (s.debugged.filter fun c => c != ctx) ++ [ctx] }
    .next ((s.onGroup gid (Group.debugStop s.postmark.toNat)).noteStop gid)

/-- DEBUG_STEP (R389): the chosen split of a stopped group may issue once. -/
def execDebugStep (gid sp : Nat) (s : State) : Out :=
  match s.group? gid with
  | none => .next s
  | some g =>
    if g.stopped && s.hasSplit gid sp then
      let s := s.onGroup gid fun g => { g.debugStart s.postmark.toNat with stepping := some sp, skip := g.skip ++ [sp] }
      .next { s with stops := s.stops.filter fun x => x != gid }
    else .next s

/-- BREAKPOINT_STOP (R294, R295): a split about to issue at a breakpoint stops its group, or passes it while `continue`
still has breakpoints to pass. -/
def execBreakpointStop (gid sp : Nat) (s : State) : Out :=
  if !s.hasSplit gid sp then .next s
  else
    .next (s.within gid sp fun s =>
      if s.atBreak != some sp then s
      else if 0 < s.grp.pass then s.onGrp fun g => { g with pass := g.pass - 1, skip := g.skip ++ [sp] }
      else s.debugStopHere sp)

/-- DEBUG_REGISTER_WRITE (R390): held while a write to the register is in flight. -/
def execDebugRegisterWrite (gid : Nat) (r : DebugReg) (v : Dword) (s : State) : Out :=
  match s.group? gid with
  | none => .next s
  | some g =>
    if !g.stopped then .next s
    else
      .next (s.within gid g.spl.num fun s =>
        (s.onGrp fun g => { g with held := g.held ++ [(r, v)] }).settleHeld)

/-- CONTINUE (R294): the group of the last stop, the first that has not been continued (R334), runs on and passes its next
n - 1 breakpoints. -/
def execDebugContinue (n : Nat) (s : State) : Out :=
  match s.stops with
  | [] => .next s
  | gid :: rest =>
    if n = 0 ∨ 65535 < n then .next s
    else
      .next (({ s with stops := rest } : State).onGroup gid fun g => { g.debugStart s.postmark.toNat with pass := n - 1 })

end Sys2Proof.Machine
end

