-- ==== Sys2Proof/Machine/Placing.lean ====
section
/-!
DEFINITION. Fitting and placing teams (R145, R176, R205 to R207, R230, R239, R339, R342, R343, R346, R372, R403, R412, R414).
-/
namespace Sys2Proof.Machine

/-! ### Runs of a resource -/

/-- The lowest multiple of `al` from which `n` units below `bound` meet none of the used runs, given as (base, length). -/
def firstFit (bound n al : Nat) (used : List (Nat × Nat)) : Option Nat :=
  let free (b : Nat) : Bool :=
    decide (b + n ≤ bound) && used.all fun u => decide (b + n ≤ u.1) || decide (u.1 + u.2 ≤ b) || u.2 == 0 || n == 0
  let up (b : Nat) : Nat := (b + al - 1) / al * al
  (orderBy (fun a b => decide (a ≤ b)) ((0 :: used.map fun u => up (u.1 + u.2)).filter free)).head?

/-- A team holds the resources of its core. -/
def Team.holds (t : Team) : Bool := t.phase == .running || t.phase == .saving

/-- The teams that hold resources of a core. -/
def State.coreTeams (s : State) (core : Nat) : List Team :=
  (s.teams.map (·.2)).filter fun t => t.core == core && t.holds

/-- The teams of a partition that have areas in its pools: all that have not ended. -/
def State.poolTeams (s : State) (part : Nat) : List Team :=
  (s.teams.map (·.2)).filter fun t => s.partOf t.ctx == part && t.phase != .ended

/-- The barriers of a core in use: the teams' own, and the cluster barriers that lie on it. -/
def State.usedBarriers (s : State) (core : Nat) : List (Nat × Nat) :=
  (s.coreTeams core).map (fun t => (t.barBase, t.barCount))
  ++ (((s.teams.map (·.2)).filter fun t => t.holds && t.homeCore == core && t.rank == 0).map fun t => (t.cbarBase, t.cbarCount))

/-- The lowest run of `n` tiles that is free on each of some engines (R145). -/
def State.freeRun (s : State) (engines : List Nat) (n : Nat) : Option Nat :=
  (List.range (17 - n)).find? fun b => engines.all fun k => (List.range n).all fun i => ((s.engine k).tile (b + i)).team.isNone

/-- The engines that serve some sub-cores of a core. -/
def enginesOf (core : Nat) (subs : List Nat) : List Nat :=
  (if subs.any fun u => u < 4 then [2 * core] else []) ++ if subs.any fun u => 4 ≤ u then [2 * core + 1] else []

/-- The slots of a sub-core that no group occupies. -/
def State.freeSlots (s : State) (sub : Nat) : List Nat :=
  (List.range 16).filter fun n => !((s.subGroups sub).any fun g => g.slot == n)

/-! ### Fitting one team (R342, R352) -/

/-- REASON of R351. -/
abbrev whyGslot : Nat := 1
/-- GRAN. -/
abbrev whyGran : Nat := 2
/-- TMEM. -/
abbrev whyTmem : Nat := 3
/-- ACC. -/
abbrev whyAcc : Nat := 4
/-- BAR. -/
abbrev whyBar : Nat := 5
/-- PRIV. -/
abbrev whyPriv : Nat := 6
/-- RECT. -/
abbrev whyRect : Nat := 7
/-- NOTREADY. -/
abbrev whyNotReady : Nat := 8
/-- BADREC. -/
abbrev whyBadrec : Nat := 9

/-- Where the resources of one team lie on its core and in its partition's pools. -/
structure Grant where
  tmBase : Nat
  barBase : Nat
  cbarBase : Nat
  tile0 : Nat
  privs : List (Nat × Nat)
  image : Nat
  deriving DecidableEq, Repr

/-- How many of a team's groups go to a sub-core. -/
def countOf (u : Nat) (subs : List Nat) : Nat := (subs.filter (· == u)).length

/-- The bytes of a team image with room for 16 tiles (R372), at the largest team share and group count. -/
abbrev imageRoom : Nat := 0x14A000

/-- The bytes of a group's spill area (R182). -/
abbrev spillRoom : Nat := 0x404000

/-- Areas of some sizes in a pool of `bound` bytes, one after another, each at the lowest multiple of 128 that is free. -/
def firstFits (bound : Nat) : List Nat → List (Nat × Nat) → Option (List (Nat × Nat))
  | [], _ => some []
  | n :: ns, used =>
    match firstFit bound n 128 used with
    | none => none
    | some b => (firstFits bound ns ((b, n) :: used)).map fun l => (b, n) :: l

/-- The lengths of some runs added up. -/
def total (used : List (Nat × Nat)) : Nat := used.foldl (fun n u => n + u.2) 0

/-- The tiles of a team on some engines: a resumed team's own run, from `tile`, where it is free, else the lowest free run. -/
def State.fitTiles (s : State) (engines : List Nat) (tiles : Nat) : Option Nat → Option Nat
  | none => s.freeRun engines tiles
  | some t => if engines.all fun e => (List.range tiles).all fun i => ((s.engine e).tile (t + i)).team.isNone then some t else none

/-- The needs of a team checked on a core in the order of R342: where its resources lie, or the first need that fails. Team memory
and barriers are met by their amounts (log 89), private areas by one run for each group. `kd` is the descriptor of each group in
the order of `subs`, `tile` the tile number a resumed team's run must begin at, `home` whether the cluster barriers lie on this
core; `areas` whether the team still needs its areas in the pools. -/
def State.fit (s : State) (part core : Nat) (k : BitVec 1024) (kd : List (BitVec 1024)) (subs : List Nat) (tiles : Nat)
    (tile : Option Nat) (home areas : Bool) : Except Nat Grant :=
  let us := subs.eraseDups
  let shares := (s.coreTeams core).map fun t => (t.tmBase, t.tmSize)
  let bars := s.usedBarriers core
  let nbar := needBar k + if home then needCbar k else 0
  let pool := s.poolTeams part
  let room (u : Nat) : Nat := (kd.zip subs).foldl (fun n x => if x.2 = u then n + needFrame x.1 else n) 0
  if us.any fun u => decide ((s.freeSlots (8 * core + u)).length < countOf u subs) then .error whyGslot
  else if us.any fun u => decide (s.freeGranules (8 * core + u) < room u) then .error whyGran
  else if 524288 < total shares + needTmem k then .error whyTmem
  else
    match s.fitTiles (enginesOf core subs) tiles tile with
    | none => .error whyAcc
    | some t0 =>
      if 512 < total bars + nbar then .error whyBar
      else
        let base := (s.partReg part 0x88).toNat
        let taken := pool.flatMap fun t => t.privs.map fun p => (p.1 - base, p.2)
        match (if areas then firstFits (s.partReg part 0x90).toNat (kd.map needPrivate) taken else some []) with
        | none => .error whyPriv
        | some ps =>
          let save := (s.partReg part 0x78).toNat
          let blocks := pool.map fun t => (t.image.toNat - save, imageRoom + t.ng * spillRoom)
          let im := (firstFit (2 ^ 57) (imageRoom + subs.length * spillRoom) 4096 blocks).getD 0
          let bb := (firstFit (2 ^ 18) (needBar k) 1 bars).getD 0
          .ok
            { tmBase := (firstFit (2 ^ 27) (needTmem k) 256 shares).getD 0, barBase := bb
              cbarBase := if home then (firstFit (2 ^ 18) (needCbar k) 1 ((bb, needBar k) :: bars)).getD 0 else 0
              tile0 := t0, privs := ps.map fun p => (base + p.1, p.2), image := save + im }

/-! ### Groups at their start (R206, R207, R403, R414) -/

/-- The items of a grid block that a launch block gives: BX, BY and BZ (R338). -/
def blockDims (b : BitVec 512) : Nat × Nat × Nat :=
  ((b.extractLsb' 320 32).toNat, (b.extractLsb' 304 16).toNat, (b.extractLsb' 288 16).toNat)

/-- The item of a grid block's lane (R206). -/
def gridItem (number : Nat) (d : Nat × Nat × Nat) (i : Nat) : Item :=
  let x := i % d.1
  let y := i / d.1 % d.2.1
  let z := i / (d.1 * d.2.1)
  { desc := BitVec.ofNat 128 (number + 2 ^ 64 * (x + 2 ^ 32 * y + 2 ^ 48 * z)), qkey := noQueue, lock := none }

/-- The items of a group's lanes: those of the block, 32 to a group. -/
def groupItems (number : Nat) (d : Nat × Nat × Nat) (g : Nat) : List (Nat × Item) :=
  (List.range 32).filterMap fun l =>
    if 32 * g + l < d.1 * d.2.1 * d.2.2 then some (l, gridItem number d (32 * g + l)) else none

/-- The windows of a binding table, k7 bound to the TCB or NCB of a task or node launch (R339, R414). -/
def tableWindows (lk : Nat) (ptr : Dword) (bs : List (BitVec 128)) : List (Nat × Window) :=
  let ws := (bs.filter fun e => decide (bindKind e ≤ 1)).foldl
    (fun (l : List (Nat × Window)) e => insertKey l (bindWin e) { base := bindValue e, size := bindSize e }) []
  if 2 ≤ lk then insertKey ws 7 { base := ptr, size := 64 } else ws

/-- The uniform registers of a fresh group: zero but for the SREGs of its table (R414). -/
def tableRegs (bs : List (BitVec 128)) : Sparse Dword :=
  (bs.filter fun e => bindKind e == 2 || bindKind e == 4).foldl
    (fun t e => Sparse.set 0 t (bindSreg e) (if bindKind e = 4 then BitVec.ofNat 64 (bindPipe e) else bindValue e)) []

/-- The queue that a group's kernel names: its own flow entry's, else the team's (R207). -/
def State.groupQueue (s : State) (t : Team) (bs : List (BitVec 128)) : Option Nat :=
  match t.bound, bs.find? fun e => bindKind e == 3 with
  | none, _ => none
  | some k, none => some k
  | some k, some e =>
    if t.lk = 3 then some k
    else
      match s.checkHandle (s.partOf t.ctx) (bindValue e) 0 with
      | .ok q => some q
      | .error _ => some k

/-- The root frame of a group: zero, on the lowest free granules (R176, R178). -/
def State.rootFrame (s : State) (sub n : Nat) : Frame :=
  { fn := 0, dep := 0, pfn := 0, rpc := 0, kc := 0, fc := n - 1, ovll := false, res := true, gmap := s.takeGranules sub n
    regs := [] }

/-- Group `g` of a team as it is freshly placed (R414), with no split and no item. -/
def State.freshGroup (s : State) (t : Team) (g : Nat) : Group :=
  let (k, bs) := memberOf t.kdesc t.binds t.members g
  let sc := t.subs.getD g 0
  let sub := 8 * t.core + sc
  let base : Group :=
    { Group.empty with
      gid := 32 * t.key + g, kdesc := k, core := t.core, sc := sc, slot := (s.freeSlots sub).headD 0, prio := t.prio
      order := s.nextOrder, frames := [(0, s.rootFrame sub (needFrame k))], uni := tableRegs bs
      spill := t.spill + BitVec.ofNat 64 (g * spillRoom), awb := 64 * t.tile0, awl := 64 * (t.tile0 + t.tiles)
      lfsr := seedFromPostmark s.postmark, windows := tableWindows t.lk t.ptr bs, queue := s.groupQueue t bs
      privBase := BitVec.ofNat 64 ((t.privs[g]?).map (·.1) |>.getD 0), lastIssue := s.postmark.toNat
      attached := s.debugged.contains t.ctx }
  if (kernelMode k).extractLsb' 0 3 = 0 then base else base.landMode (kernelMode k)

/-- A group put into the package; of groups that have ended nothing stays, so that its number is its own. -/
def State.addGroup (s : State) (g : Group) : State :=
  { s with
    grp := if s.grp.live then s.grp else Group.empty
    others := s.others.filter Group.live ++ [g], nextOrder := s.nextOrder + 1 }

/-- Split 0 of a group at its kernel's ENTRY with the lanes of a mask. -/
def Group.firstSplit (g : Group) (m : Mask) (now : Nat) (st : Status) : Split :=
  { Split.empty with pc := kernelEntry g.kdesc, mask := m, chain := [0], born := now, status := st }

/-- The request for a group's first fill (R207). -/
def firstFill (gid : Nat) : FillReq := { gid := gid, sp := 0, pred := 0, eff := 0, targets := 0xFFFFFFFF#32, len := 0 }

/-- Group `g` of a team starts: with its items in a grid or task launch, waiting for its first fill in a flow or node
launch; a group with no lane ends at once (R206). -/
def State.startGroup (s : State) (t : Team) (block : BitVec 512) (g : Nat) : State :=
  let fresh := s.freshGroup t g
  if t.lk = 1 ∨ t.lk = 3 then
    let s := s.addGroup { fresh with spl := fresh.firstSplit 0 s.turn (.waiting .yield) }
    match fresh.queue with
    | none => s
    | some k => s.requestFill k (firstFill fresh.gid)
  else
    let items := groupItems t.number (blockDims block) g
    if items.isEmpty then s.onTeam t.key fun t => { t with bare := t.bare ++ [g] }
    else s.addGroup { fresh with items := items, spl := fresh.firstSplit (maskOf (items.map (·.1))) s.turn .run }

/-! ### A team placed (R339, R346, R414) -/

/-- The header of a pipe written to a team's share: HEAD and TAIL zero (R330, R414). -/
def State.pipeHeader (s : State) (t : Team) (e : BitVec 128) : State :=
  s.homeStore ⟨1, teamAt t.core t.tmBase + bindPipe e⟩
    (leBytes 8 0 ++ leBytes 4 (bindSize e) ++ leBytes 4 (bindLogn e))

/-- The pipe headers of every table of a team. -/
def State.pipeHeaders (s : State) (t : Team) : State :=
  ((t.binds ++ t.members.flatMap (·.2)).filter fun e => bindKind e == 4).foldl (fun s e => s.pipeHeader t e) s

/-- The reserved tiles of a team granted on every engine that serves it: they are cleared (R145). -/
def State.reserveTiles (s : State) (t : Team) : State :=
  (enginesOf t.core t.subs).foldl
    (fun s k => s.onEngine k fun e => e.grant t.key false ((List.range t.tiles).map fun i => t.tile0 + i)) s

/-- A counter of a Sorting Office raised (R353). -/
def State.countOffice (s : State) (die sel idx : Nat) (v : Dword) : State :=
  let k := die * 0x10000 + sel * 0x1000 + idx
  { s with officeCounters := Sparse.set 0 s.officeCounters k (Sparse.get 0 s.officeCounters k + v) }

/-- The launch-queue index of a queue, where it has one (R341). -/
def State.queueIndex (s : State) (die k : Nat) : Option Nat := ((s.office die).indices.find? fun i => i.2 == k).map (·.1)

/-- The core holds a team from now on, where it held none (R353). -/
def State.coreTaken (s : State) (core : Nat) : State :=
  if (lookupKey s.busy core).isSome then s else { s with busy := insertKey s.busy core s.postmark.toNat }

/-- The lowest placement id that no team of a die has and that names no living cluster (R165). -/
def State.freePid (s : State) (die : Nat) : Option Nat :=
  (List.range 4096).find? fun p =>
    (s.team? (4096 * die + p)).isNone && !(s.teams.any fun t => t.2.cluster == 4096 * die + p)

/-- The team that a launch places as number `number` at a granted place. -/
def Launch.team (l : Launch) (key number core : Nat) (subs : List Nat) (g : Grant) (home : Option Team) (rank prio lk : Nat)
    (bound : Option Nat) (now : Nat) : Team :=
  let k := l.kdesc
  let grid := lk = 0 ∨ lk = 1
  { key := key, ctx := l.ctx, lk := lk, prio := prio, tag := l.record.extractLsb' 0 32, qkey := l.qkey, bound := bound, bare := []
    ptr := l.record.extractLsb' 64 64, number := number, core := core, ng := subs.length, subs := subs
    kdescAddr := l.kdescAddr, kdesc := k, binds := l.binds, members := l.members
    cluster := (home.map (·.key)).getD key, cw := needCw k, ch := needCh k, rank := rank, tmBase := g.tmBase
    tmSize := needTmem k, barBase := g.barBase, barCount := needBar k, cbarBase := (home.map (·.cbarBase)).getD g.cbarBase
    cbarCount := needCbar k, tile0 := g.tile0, tiles := needAcc k
    ctr := if grid then l.block.extractLsb' 384 64 else 0, slice := if grid then (l.block.extractLsb' 280 8).toNat else 0
    image := BitVec.ofNat 64 g.image, privs := g.privs, spill := BitVec.ofNat 64 (g.image + imageRoom)
    software := (match l.members with
      | [] => hasRoutines k
      | ms => ms.all fun m => hasRoutines m.1)
    phase := .running, phaseAt := now, reason := 0, placedAt := now, saved := [], savedTiles := []
    parkedAt := [], savedQueues := [], savedClocks := [], pendingOps := [] }

/-- A node launch's oldest reserved records belong to the team placed for it (R325). -/
def Queue.claim (key : Nat) (q : Queue) : Queue :=
  match q.node with
  | none => q
  | some nd =>
    match nd.reserved.find? fun r => decide (r.1 < 2 ^ 32) with
    | none => q
    | some r => { q with node := some { nd with reserved := insertKey (eraseKey nd.reserved r.1) (reservedKey key) r.2 } }

/-- A placed team's work source: its queue is bound to it, a node launch's records are its own, a task runs (R309, R316,
R325). -/
def State.bindWork (s : State) (t : Team) : State :=
  let s := match t.bound with
    | none => s
    | some k =>
      s.onQueue k fun q =>
        let q := { q with bound := q.bound ++ [t.key] }
        if t.lk = 3 then q.claim t.key else q
  if t.lk = 2 then
    match s.object t.ctx t.ptr with
    | none => s
    | some (s, l) => s.setTaskState (dieOf t.core) l 2
  else s

/-- A placed team's groups start, and its PLACE record is written before their first instruction (R346, R352, R414). -/
def State.startTeam (s : State) (t : Team) (block : BitVec 512) : State :=
  let s := ((s.pipeHeaders t).reserveTiles t).bindWork t
  let s := (List.range t.ng).foldl (fun s g => s.startGroup t block g) s
  let s := ((s.teamDecision t 0 0).countOffice (dieOf t.core) 0 (t.core % 24) 1).coreTaken t.core
  s.l1Invalidate t.core

/-- The number of groups of a team that start. -/
def State.started (s : State) (t : Team) : Nat := t.ng - ((s.team? t.key).map (·.bare.length)).getD 0

/-- The barriers of a team and, for the home team, of its cluster at placement (R230): EXP and PEND the number of groups that
start. -/
def State.initBarriers (s : State) (ts : List Team) : State :=
  let all := ts.foldl (fun n t => n + s.started t) 0
  let fill (base n exp : Nat) (s : State) : State :=
    (List.range n).foldl (fun s i => s.setBar (base + i) (barWord exp exp false 0)) s
  ts.foldl
    (fun s t =>
      let s := fill (barAt t.core t.barBase) t.barCount (s.started t) s
      if t.rank = 0 then fill (barAt t.core t.cbarBase) t.cbarCount all s else s)
    s

/-- The domains of a cluster cleared (R165). -/
def State.clearDomains (s : State) (cluster : Nat) : State := (List.range 16).foldl (fun s d => s.clearDomain cluster d) s

end Sys2Proof.Machine
end

