-- ==== Sys2Proof/Machine/Office.lean ====
section
/-!
DEFINITION. The harts of a Sorting Office and their custom CSRs (R347 to R350): taking launch records (R337 to R341), needs
and free resources (R348), placement requests (R349), kills, events, and the loading of microcode.
-/
namespace Sys2Proof.Machine

/-! ### Harts (R347) -/

/-- A hart that has done nothing. -/
def Hart.empty : Hart :=
  { pc := 0, x := [], mepc := 0, mcause := 0, mtvec := 0, take := 0, recl := 0, rech := 0, qinf := 0, need := 0, need2 := 0
    needAddr := 0, avail := 0, mapl := 0, maph := 0, place := 0, evt := 0, cnt := 0, last := none, staged := [] }

/-- The key of a die's hart. -/
def hartKey (die h : Nat) : Nat := 4 * die + h

/-- A hart. -/
def State.hart (s : State) (die h : Nat) : Hart := (lookupKey s.harts (hartKey die h)).getD Hart.empty

/-- A hart changed. -/
def State.onHart (s : State) (die h : Nat) (f : Hart → Hart) : State :=
  { s with harts := insertKey s.harts (hartKey die h) (f (s.hart die h)) }

/-! ### Launch records (R337 to R340) -/

/-- LK. -/
def recordKind (r : BitVec 128) : Nat := (r.extractLsb' 62 2).toNat
/-- PRI. -/
def recordPri (r : BitVec 128) : Nat := (r.extractLsb' 60 2).toNat
/-- PTR. -/
def recordPtr (r : BitVec 128) : Dword := r.extractLsb' 64 64

/-- The launch block of a task: a grid block of 32 NG items (R339). -/
def taskBlock (ng : Nat) : BitVec 512 := BitVec.ofNat 512 (2 ^ 352 + 32 * ng * 2 ^ 320 + 2 ^ 304 + 2 ^ 288)

/-- TEAMS of a launch block. -/
def blockTeams (b : BitVec 512) : Nat := (b.extractLsb' 352 32).toNat

/-- The handle of the queue a flow or node launch takes its items from: the flow entry's, or the NCB's RQH (R207, R339). -/
def Launch.flowHandle (l : Launch) : Option Dword :=
  match recordKind l.record with
  | 1 => (l.binds.find? fun e => bindKind e == 3).map bindValue
  | 3 => some (l.block.extractLsb' 384 64)
  | _ => none

/-- What the record's kind of launch requires (R340, R404). -/
def launchOk (lk : Nat) (k : BitVec 1024) (b : BitVec 512) : Bool :=
  let d := blockDims b
  (isFlow k == (lk == 1 || lk == 3))
  && (decide (lk < 2) || !(isGang k || isMember k))
  && match lk with
    | 0 =>
      b.extractLsb' 0 280 == 0 && blockTeams b != 0 && d.1 * d.2.1 * d.2.2 != 0 && decide (d.1 * d.2.1 * d.2.2 ≤ 32 * needNg k)
    | 1 => b.extractLsb' 0 280 == 0 && blockTeams b != 0
    | 2 => b.extractLsb' 0 3 == 1
    | _ => true

/-- Where KDESC lies in the launch block, TCB or NCB that PTR names. -/
def kdescField (lk : Nat) (b : BitVec 512) : Dword := if lk = 2 then b.extractLsb' 320 64 else b.extractLsb' 448 64

/-- The descriptor of each of the first `n` groups of a team of the launch. -/
def Launch.groupDescs (l : Launch) (n : Nat) : List (BitVec 1024) :=
  (List.range n).map fun g => (memberOf l.kdesc l.binds l.members g).1

/-- A launch record read with its block, descriptor and tables, none where R340 refuses it. -/
def State.readLaunch (s : State) (die k : Nat) (q : Queue) (r : BitVec 128) : State × Option Launch :=
  let lk := recordKind r
  let ctx := s.ctxOfPasid q.part q.pasid
  let ptr := (recordPtr r).toNat
  if r.extractLsb' 32 28 ≠ 0 ∨ ptr % 64 ≠ 0 then (s, none)
  else
    match s.ctxLoadLong ctx die ptr 4 with
    | (s, none) => (s, none)
    | (s, some bs) =>
      let b : BitVec 512 := BitVec.ofNat 512 (leNat bs)
      match s.readValid ctx die (kdescField lk b) with
      | (s, none) => (s, none)
      | (s, some c) =>
        let l : Launch :=
          { id := (s.office die).taken, qkey := k, record := r, kdescAddr := kdescField lk b, kdesc := c.kdesc, binds := c.binds, members := c.members
            block := if lk = 2 then taskBlock (needNg c.kdesc) else b, ctx := ctx, teams := if lk < 2 then blockTeams b else 1
            next := 0, arrived := q.arrivals.headD s.postmark.toNat, denied := none }
        let far := match l.flowHandle with
          | none => false
          | some h =>
            match s.checkHandle q.part h 0 with
            | .error _ => false
            | .ok bk => ((lookupKey s.queues bk).map (·.home)) != some die
        (s, if launchOk lk c.kdesc b && !far then some l else none)

/-- A DENY record for a launch (R351, R352), counted for its queue (R353). -/
def State.deny (s : State) (die k : Nat) (r : BitVec 128) (team reason cmask : Nat) : State :=
  let pasid : Nat := match lookupKey s.queues k with
    | none => 0
    | some q => q.pasid
  let s := s.decision die 1 reason (r.extractLsb' 0 32) team (qnumOf k) pasid (recordPri r) cmask
  match s.queueIndex die k with
  | none => s
  | some i => s.countOffice die 4 i 1

/-- A launch of a queue is in progress (R340). -/
def Office.busyWith (o : Office) (k : Nat) : Bool := o.launches.any fun l => l.qkey == k

/-- The record at HEAD of a launch queue, and where `take`, its taking: the launch it begins, or BADREC (R340). -/
def State.takeLaunch (s : State) (die k : Nat) (q : Queue) (r : BitVec 128) : State :=
  let (s, l) := s.readLaunch die k q r
  let s := (s.headPast k).settleQueue k
  let s := match s.queueIndex die k with
    | none => s
    | some i => s.countOffice die 3 i 1
  match l with
  | none => s.deny die k r 0 whyBadrec 0
  | some l => s.onOffice die fun o => { o with launches := o.launches ++ [l], taken := o.taken + 1 }

/-- SOQINF of a queue. -/
def Queue.info (q : Queue) (k : Nat) : Dword := BitVec.ofNat 64 (q.pasid + 2 ^ 20 * qnumOf k)

/-- A write of SOTAKE: SOQINF names the queue of the index, and its head record is read, and unless it is only peeked taken
(R341, R347). While a launch of the queue is in progress its next record can be peeked and is not taken (R340; log 91). -/
def State.soTake (s : State) (die h idx : Nat) (peek : Bool) : State :=
  match (lookupKey (s.office die).indices (idx % 64)).bind fun k => (lookupKey s.queues k).map fun q => (k, q) with
  | none => s.onHart die h fun x => { x with take := 0, qinf := 0 }
  | some (k, q) =>
    let s := s.onHart die h fun x => { x with take := 0, qinf := q.info k }
    if !peek && (s.office die).busyWith k then s
    else
      match s.head k with
      | (s, none) => s
      | (s, some bs) =>
        let r : BitVec 128 := BitVec.ofNat 128 (leNat (bs.take 16))
        let id := (s.office die).taken
        let s := s.onHart die h fun x =>
          { x with take := 1, recl := r.extractLsb' 0 64, rech := r.extractLsb' 64 64, last := if peek then x.last else some id }
        if peek then s else s.takeLaunch die k q r

/-- SOTAKE_TAKE (R347). -/
def execSotakeTake (die hart idx : Nat) (s : State) : Out := .next (s.soTake die hart idx false)

/-- SOTAKE_PEEK (R347). -/
def execSotakePeek (die hart idx : Nat) (s : State) : Out := .next (s.soTake die hart idx true)

/-! ### Needs and free resources (R347, R348) -/

/-- The context of the queue that SOQINF names. -/
def State.qinfContext (s : State) (die : Nat) (qinf : Dword) : Nat :=
  match (s.office die).indices.find? fun i =>
      match lookupKey s.queues i.2 with
      | none => false
      | some q => q.info i.2 == qinf with
  | none => 8192
  | some i =>
    match lookupKey s.queues i.2 with
    | none => 8192
    | some q => s.ctxOfPasid q.part q.pasid

/-- SONEED (R348): the needs of a descriptor under SOQINF's PASID, or ERR. -/
def execSoneed (die hart : Nat) (addr : Dword) (s : State) : Out :=
  let (s, c) := s.readValid (s.qinfContext die (s.hart die hart).qinf) die addr
  .next (s.onHart die hart fun x =>
    match c with
    | none => { x with needAddr := addr, need := 2 ^ 63, need2 := 0 }
    | some c =>
      { x with needAddr := addr, need := needsWord c.kdesc
               need2 := BitVec.ofNat 64 (needCbar c.kdesc + 2 ^ 7 * (needRdom c.kdesc).toNat) })

/-- The longest run of free tiles of an engine. -/
def State.longestRun (s : State) (k : Nat) : Nat :=
  ((List.range 17).reverse.find? fun n => (s.freeRun [k] n).isSome).getD 0

/-- What SOAVAIL reads for a core and a unit. -/
def State.available (s : State) (core unit : Nat) : Dword :=
  if unit < 8 then
    BitVec.ofNat 64 (s.freeGranules (8 * core + unit) + 2 ^ 8 * (s.freeSlots (8 * core + unit)).length)
  else
    let bars := (s.usedBarriers core).foldl (fun n u => n + u.2) 0
    let tm := (s.coreTeams core).foldl (fun n t => n + t.tmSize) 0
    BitVec.ofNat 64 (512 - bars + 2 ^ 10 * ((524288 - tm) / 256) + 2 ^ 22 * s.longestRun (2 * core)
      + 2 ^ 27 * s.longestRun (2 * core + 1) + if s.ready core then 2 ^ 32 else 0)

/-- SOAVAIL (R347); a core that does not exist has nothing free. -/
def execSoavail (die hart : Nat) (v : Dword) (s : State) : Out :=
  let a := match coreOfCode (v.extractLsb' 0 8).toNat with
    | none => 0
    | some c => s.available c (v.extractLsb' 8 4).toNat
  .next (s.onHart die hart fun x => { x with avail := a })

/-! ### Placement requests (R349) -/

/-- The sub-core of each group as SOMAPL and SOMAPH give it. -/
def Hart.subMap (x : Hart) : List Nat :=
  (List.range 32).map fun g =>
    (if g < 21 then x.mapl.extractLsb' (3 * g) 3 else x.maph.extractLsb' (3 * (g - 21)) 3).toNat

/-- A member of a placement request as SOPLACE carries it: CORE, TEAM and the sub-cores. -/
def Hart.member (x : Hart) (v : Dword) : Nat × Nat × List Nat :=
  ((v.extractLsb' 0 8).toNat, (v.extractLsb' 32 32).toNat, x.subMap)

/-- SOPLACE_STAGE (R349). -/
def execSoplaceStage (die hart : Nat) (v : Dword) (s : State) : Out :=
  .next (s.onHart die hart fun x => { x with staged := x.staged ++ [x.member v] })

/-- What a commit comes to: the status code of R349 with the reason of R351, or the placed teams. -/
inductive Commit
  | bad
  | no (reason : Nat)
  | dropped
  | placed (s : State) (ts : List Team)

/-- The rectangle that some cores of a die form (R343): its first row and column, its width and its height. -/
def rectangle (cores : List Nat) : Option (Nat × Nat × Nat × Nat) :=
  let rows := cores.map fun c => c % 24 / 6
  let cols := cores.map fun c => c % 6
  let lo (l : List Nat) : Nat := l.foldl min 24
  let hi (l : List Nat) : Nat := l.foldl max 0
  let w := hi cols + 1 - lo cols
  let h := hi rows + 1 - lo rows
  if noRepeat cores && cores.length == w * h then some (lo rows, lo cols, w, h) else none

/-- The rank of a core in a rectangle (R238). -/
def rankIn (r : Nat × Nat × Nat × Nat) (core : Nat) : Nat := (core % 24 / 6 - r.1) * r.2.2.1 + (core % 6 - r.2.1)

/-- Every queue and flow handle of a launch passes R305, the flow handle's queue at home on the placing die (R414): the bound
queue of a flow or node launch. -/
def State.launchHandles (s : State) (die part : Nat) (l : Launch) : Option (Option Nat) :=
  let es := (l.binds ++ l.members.flatMap (·.2)).filter fun e => bindKind e == 2 || bindKind e == 3
  let home (h : Dword) : Bool :=
    match s.checkHandle part h 0 with
    | .error _ => false
    | .ok k => ((lookupKey s.queues k).map (·.home)) == some die
  let ok (e : BitVec 128) : Bool :=
    if bindKind e = 3 then home (bindValue e)
    else match s.checkHandle part (bindValue e) 0 with | .error _ => false | .ok _ => true
  if !es.all ok then none
  else
    match l.flowHandle with
    | none => some none
    | some h =>
      match s.checkHandle part h 0 with
      | .error _ => none
      | .ok k => if home h then some (some k) else none

/-- A member fitted and its team entered, or the reason it does not fit: the partition must have the core and be enabled, and
the core must be ready (R342, R349, R420, R423, R448). -/
def State.placeMember (s : State) (die part : Nat) (l : Launch) (bound : Option Nat) (r : Nat × Nat × Nat × Nat)
    (home : Option Team) (core number : Nat) (subs : List Nat) : Except Nat (State × Team) :=
  if !s.coreIn part core || !(s.partReg part 0).getLsbD 0 then .error 0
  else if !s.ready core then .error whyNotReady
  else
    match s.fit part core l.kdesc (l.groupDescs subs.length) subs (needAcc l.kdesc) none (rankIn r core == 0) true, s.freePid die with
    | .error e, _ => .error e
    | .ok _, none => .error whyGslot
    | .ok g, some pid =>
      let t := l.team (4096 * die + pid) number core subs g home (rankIn r core) (recordPri l.record) (recordKind l.record) bound
        s.postmark.toNat
      .ok ({ s with teams := insertKey s.teams t.key t }, t)

/-- The members of a request placed in ascending cores, or the reason of the first that does not fit (R352). -/
def State.placeMembers (die part : Nat) (l : Launch) (bound : Option Nat) (r : Nat × Nat × Nat × Nat) :
    List (Nat × Nat × List Nat) → State → List Team → Except Nat (State × List Team)
  | [], s, ts => .ok (s, ts)
  | (core, number, subs) :: rest, s, ts =>
    match s.placeMember die part l bound r ts.head? core number subs with
    | .error e => .error e
    | .ok (s, t) => State.placeMembers die part l bound r rest s (ts ++ [t])

/-- A commit of a launch's next teams on the requested cores (R343, R349): their numbers must be the next ones, and their
cores a rectangle. -/
def State.tryCommit (s : State) (die : Nat) (l : Launch) (ms : List (Nat × Nat × List Nat)) : Commit :=
  let part := s.partOf l.ctx
  let ng := if recordKind l.record = 3 then 1 else needNg l.kdesc
  let cores := ms.filterMap fun m => (coreOfCode m.1).filter fun c => dieOf c == die
  let numbers := orderBy (fun a b => decide (a ≤ b)) (ms.map fun m => m.2.1)
  if 12 < ms.length ∨ cores.length ≠ ms.length ∨ numbers ≠ (List.range ms.length).map (l.next + ·)
      ∨ l.teams < l.next + ms.length then .bad
  else
    match rectangle cores with
    | none => .bad
    | some r =>
      match s.launchHandles die part l with
      | none => .dropped
      | some bound =>
        if r.2.2.1 ≠ needCw l.kdesc ∨ r.2.2.2 ≠ needCh l.kdesc then .no whyRect
        else
          let placed := orderBy (fun (a b : Nat × Nat × List Nat) => decide (a.1 ≤ b.1))
            ((cores.zip ms).map fun x => (x.1, x.2.2.1, x.2.2.2.take ng))
          match State.placeMembers die part l bound r placed s [] with
          | .error e => .no e
          | .ok (s, ts) => .placed s ts

/-- A launch of an office changed, or removed where it is wholly placed. -/
def State.onLaunch (s : State) (die k : Nat) (f : Launch → Option Launch) : State :=
  s.onOffice die fun o => { o with launches := o.launches.filterMap fun l => if l.qkey = k then f l else some l }

/-- The status SOPLACE reads. -/
def placeStatus (code reason pid : Nat) : Dword := BitVec.ofNat 64 (code + 2 ^ 4 * reason + 2 ^ 32 * pid)

/-- The placed teams of a launch begin (R339, R346, R353, R414). -/
def State.beginTeams (s : State) (die : Nat) (l : Launch) (ts : List Team) : State :=
  let s := match ts with
    | [] => s
    | t :: _ => s.clearDomains t.cluster
  let s := ts.foldl (fun s t => s.startTeam t l.block) s
  let s := s.initBarriers ts
  let s := match s.queueIndex die l.qkey with
    | none => s
    | some i => s.countOffice die 5 i (BitVec.ofNat 64 (ts.length * ((s.postmark.toNat - l.arrived) / 1000)))
  s.onLaunch die l.qkey fun l =>
    let l := { l with next := l.next + ts.length, denied := none }
    if l.next = l.teams then none else some l

/-- The bits of some cores in CMASK of a decision record. -/
def coresMask (ms : List (Nat × Nat × List Nat)) : Nat :=
  (ms.filterMap fun m => coreOfCode m.1).foldl (fun n c => n ||| 2 ^ (c % 24)) 0

/-- The PID of the committing member among the placed teams. -/
def pidFor (number : Nat) (ts : List Team) : Nat := ((ts.find? fun t => t.number == number).map fun t => t.key % 4096).getD 0

/-- A commit performed and its status (R349, R352): a failure that is its team's first, or whose reason differs from that of
the last DENY, leaves a DENY record. -/
def State.commit (s : State) (die : Nat) (l : Launch) (ms : List (Nat × Nat × List Nat)) (number : Nat) : State × Dword :=
  match s.tryCommit die l ms with
  | .bad => (s, placeStatus 3 0 0)
  | .dropped =>
    ((s.deny die l.qkey l.record l.next whyBadrec 0).onLaunch die l.qkey fun _ => none, placeStatus 1 whyBadrec 0)
  | .no e =>
    let s := if l.denied = some e then s else s.deny die l.qkey l.record l.next e (coresMask ms)
    (s.onLaunch die l.qkey fun l => some { l with denied := some e },
     placeStatus (if e = whyNotReady then 2 else 1) e 0)
  | .placed s ts => (s.beginTeams die l ts, placeStatus 0 0 (pidFor number ts))

/-- SOPLACE_COMMIT (R349): the staged members and the hart's own, of the launch of its last record, whose descriptor must be
the one last named to SONEED. The staged members stay where it answers anything but PLACED (log 90). -/
def execSoplaceCommit (die hart : Nat) (v : Dword) (s : State) : Out :=
  let x := s.hart die hart
  let own := x.member v
  let (s, st) :=
    match (s.office die).launches.find? fun l => some l.id == x.last with
    | none => (s, placeStatus 3 0 0)
    | some l =>
      if l.kdescAddr ≠ x.needAddr then (s, placeStatus 3 0 0) else s.commit die l (x.staged ++ [own]) own.2.1
  .next (s.onHart die hart fun x => { x with staged := if st.extractLsb' 0 4 = 0 then [] else x.staged, place := st })

/-! ### Kills, events, other CSRs (R347, R353) -/

/-- SOKILL (R347). -/
def execSokill (die _hart : Nat) (v : Dword) (s : State) : Out :=
  let key := 4096 * die + (v.extractLsb' 0 12).toNat
  match s.team? key with
  | none => .next s
  | some t => if t.phase = .ended then .next s else .next (s.killTeam key causeKilled 0 false)

/-- SOEVT (R347): the next event. -/
def execSoevt (die hart : Nat) (s : State) : Out :=
  match (s.office die).events with
  | [] => .next (s.onHart die hart fun x => { x with evt := 0 })
  | e :: rest =>
    let s := s.onOffice die fun o => { o with events := rest }
    .next (s.onHart die hart fun x => { x with evt := BitVec.ofNat 64 (e.1 + 2 ^ 4 * e.2) })

/-- A counter of R353 by its selector: the time a core has held teams is counted in µs and includes the present time. -/
def State.officeCounter (s : State) (die sel : Nat) : Dword :=
  let v := Sparse.get 0 s.officeCounters (die * 0x10000 + sel % 65536)
  if sel / 4096 % 16 = 2 then v + BitVec.ofNat 64 (s.heldTime (24 * die + sel % 4096) / 1000) else v

/-- What a read of a hart's CSR answers (R347): its custom CSRs, and `time` (0xC01) the Postmark count; none for any other
number. Write-only CSRs read 0. -/
def State.readCsr (s : State) (die hart csr : Nat) : Option Dword :=
  let x := s.hart die hart
  match csr with
  | 0x7C0 => some x.take
  | 0x7C1 => some x.recl
  | 0x7C2 => some x.rech
  | 0x7C3 => some x.qinf
  | 0x7C4 => some x.need
  | 0x7C5 => some x.avail
  | 0x7C6 => some x.mapl
  | 0x7C7 => some x.maph
  | 0x7C8 => some x.place
  | 0x7C9 | 0x7CA | 0x7CB => some 0
  | 0x7CC => some x.evt
  | 0x7CD => some (s.officeCounter die x.cnt.toNat)
  | 0x7CE => some x.need2
  | 0xC01 => some s.postmark
  | _ => none

/-- ILLEGAL_CSR_ACCESS (R347): an illegal-instruction exception of the hart. A listed CSR and `time` raise none. -/
def execIllegalCsrAccess (die hart csr : Nat) (s : State) : Out :=
  if (s.readCsr die hart csr).isSome then .next s
  else .next (s.onHart die hart fun x => { x with mepc := x.pc, mcause := 2, pc := x.mtvec &&& ~~~3 })

/-! ### Microcode (R350) -/

/-- The bytes of office SRAM of a die begin at 512 KiB times its number. -/
def officeBase (die : Nat) : Nat := 524288 * die

/-- MICROCODE_LOAD (R350): an image whose signature does not verify is not written. The entry of the harts is a free word
(log 5): where the header gives it is not specified. -/
def execMicrocodeLoad (die : Nat) (img : List Byte) (sig : BitVec 1042) (key : Nat) (s : State) : Out :=
  let digest := leNat (Sha.sha512 img)
  if 524288 < img.length ∨ key ≠ 16 ∨ !Config.ecdsaVerifies 16 digest (sig.extractLsb' 0 521).toNat (sig.extractLsb' 521 521).toNat
  then .next s
  else
    let entry : Dword := (Config.freeWord s.free).setWidth 64
    let s := { s with officeMem := s.officeMem.store (officeBase die) img, free := s.free + 1 }
    let s := s.onOffice die fun o => { o with imageLen := img.length }
    let s := (List.range 4).foldl (fun s h => s.onHart die h fun x => { x with staged := [], pc := entry }) s
    .next (s.decision die 6 0 0 0 0 0 0 0)

end Sys2Proof.Machine
end

