-- ==== Sys2Proof/Machine/Translation.lean ====
section
/-!
DEFINITION. What resolves parked accesses (R384 to R386, R426): walks, the host's answers, the service core's answers, and
invalidations.
-/
namespace Sys2Proof.Machine

/-- The kind of an access with a code (R426). -/
def accessOf (code : Nat) : Access := if code = 0 then .read else if code = 1 then .write else .fetch

/-- The parked access with a tag. -/
def State.parkedTag (s : State) (tag : Nat) : Option ParkedAccess := s.parkedAccesses.find? fun p => p.tag == tag

/-- The parked access with a tag changed. -/
def State.onParked (s : State) (tag : Nat) (f : ParkedAccess → ParkedAccess) : State :=
  { s with parkedAccesses := s.parkedAccesses.map fun p => if p.tag = tag then f p else p }

/-- Answers given to the parked accesses that a test picks. -/
def State.answerWhere (s : State) (which : ParkedAccess → Bool) (a : Answer) : State :=
  { s with parkedAccesses := s.parkedAccesses.map fun p => if which p && p.answer == .none then { p with answer := a } else p }

/-- The die whose unit parked an access: the die of the issuing party. -/
def ParkedAccess.die (p : ParkedAccess) : Nat := p.gid / 131072

/-- TRANSLATION_WALK (R384): an answered access walks again. One that is mapped now, or was answered failure, is issued
again by its split; one that still misses parks on its route anew. -/
def execTranslationWalk (tag : Nat) (s : State) : Out :=
  match s.parkedTag tag with
  | none => .next s
  | some p =>
    match p.answer with
    | .none => .next s
    | .fail => .next (s.wake p.gid p.sp)
    | .ok =>
      match s.translate p.ctx p.va.toNat (accessOf p.kind) with
      | .miss r => .next ((s.unpark tag).park p.gid p.sp p.ctx p.va.toNat (accessOf p.kind) r p.die)
      | _ => .next ((s.unpark tag).wake p.gid p.sp)

/-- ATS_RESPONSE (R385): a translation is held and the access walks again; an untranslated response sends a PRI request. -/
def execAtsResponse (tag : Nat) (ans : AtsAnswer) (s : State) : Out :=
  match s.parkedTag tag with
  | none => .next s
  | some p =>
    if p.host ≠ 1 ∨ p.answer ≠ .none then .next s
    else
      match ans with
      | .untranslated => .next (s.onParked tag fun p => { p with host := 2, since := s.postmark.toNat })
      | .translated page write =>
        let pasid := ((lookupKey s.contexts p.ctx).map (·.pasid)).getD 0
        let entry : AtsEntry := { pasid := pasid, page := p.va.toNat / 4096, target := page, write := write }
        let others := s.ats.filter fun (e : AtsEntry) => !(e.pasid == pasid && e.page == entry.page)
        .next (({ s with ats := others ++ [entry] } : State).onParked tag fun p => { p with answer := .ok })

/-- PRI_RESPONSE (R385): success leads to another translation request, any other response to PAGE. -/
def execPriResponse (tag : Nat) (ok : Bool) (s : State) : Out :=
  .next (s.answerWhere (fun p => p.tag == tag && p.host == 2) (if ok then .ok else .fail))

/-- HOST_ROUTE_TIMEOUT (R385): no response to a request of the host route within 100 ms. -/
def execHostRouteTimeout (tag : Nat) (s : State) : Out :=
  let late (p : ParkedAccess) : Bool := decide (p.since + 100000000 ≤ s.postmark.toNat)
  .next (s.answerWhere (fun p => p.tag == tag && (p.host == 1 || p.host == 2) && late p) .fail)

/-- A copy under way has still to read or to write bytes of a page of host memory, whose translation it holds (R254). -/
def State.copyHolds (s : State) (page : Nat) : Bool :=
  let in_ (space addr n : Nat) : Bool := space == 4 && decide (addr < 4096 * (page + 1)) && decide (4096 * page < addr + n)
  s.copies.any fun c =>
    (c.2.moves.any fun m => (m.data.isNone && in_ m.srcSpace m.src m.len) || (!m.written && in_ m.dstSpace m.dst m.len))
    || (match c.2.kind with | .ctr space a => in_ space a 8 | _ => false)

/-- The accesses under way to a page of host memory performed (R386): writes reach it, and loads have read it. -/
def State.settlePage (s : State) (page : Nat) : State :=
  let s := s.landFlights fun f => f.space == 4 && f.addr / 4096 == page
  s.onGroups fun g =>
    { g with pend := g.pend.map fun e => { e with late := e.late.filter fun x => !(x.2.1 == 4 && x.2.2.1 / 4096 == page) } }

/-- ATS_INVALIDATION (R385, R386) as it completes: the accesses that used the held translation have been performed, the
translation is gone, and parked accesses of the page walk again. While a copy holds the translation it does not complete. -/
def execAtsInvalidation (pasid va : Nat) (s : State) : Out :=
  let page := va / 4096
  let held (e : AtsEntry) : Bool := e.pasid == pasid && e.page == page
  let mine (p : ParkedAccess) : Bool :=
    (p.host == 1 || p.host == 2) && p.va.toNat / 4096 == page
    && ((lookupKey s.contexts p.ctx).map (·.pasid)).getD 0 == pasid
  if (s.ats.filter held).any fun e => s.copyHolds e.target then .next s
  else
    let s := (s.ats.filter held).foldl (fun s e => s.settlePage e.target) s
    .next (({ s with ats := s.ats.filter fun e => !held e } : State).answerWhere mine .ok)

/-- FLTRSP (R420, R426): the service core answers the page fault of its partition with a TAG; a TAG that names no parked
access is ignored. -/
def execFltrsp (part : Nat) (v : Dword) (s : State) : Out :=
  let tag := (v.extractLsb' 0 16).toNat
  let mine (p : ParkedAccess) : Bool := p.tag == tag && p.host == 0 && s.partOf p.ctx == part
  .next ((s.setPartReg part 0xA8 ((v.extractLsb' 0 17).setWidth 64)).answerWhere mine (if v.getLsbD 16 then .ok else .fail))

end Sys2Proof.Machine
end

