-- ==== Sys2Proof/Machine/Pages.lean ====
section
/-!
DEFINITION. Writes to the device page, the partition pages and the queue contexts (R420 to R424, R431, R443, R446), and
attestation (R453). The numbers by which a write names its page are the model's (log 18).
-/
namespace Sys2Proof.Machine

/-! ### Partition pages (R420) -/

/-- The registers that a partition with EN = 1 keeps. -/
def heldRegs : List Nat := [0x20, 0x28, 0x30, 0x38, 0x40, 0x50, 0x58, 0x68, 0x78, 0x80, 0x88, 0x90]

/-- What software may write of a partition-page register: all but its reserved, aligned and read-only bits. -/
def partMask (off : Nat) : Dword :=
  match off with
  | 0x20 | 0x78 | 0x80 | 0x88 | 0x90 | 0x98 => 0xFFFFFFFFFFFFFFFF
  | 0x28 => 0xFFFFFFFFFFFFFFC0
  | 0x30 => 0x1FFFFFF
  | 0x38 => 0xFFFFFFFFFFFFFFE0
  | 0x50 => 0xFFFFFFFFFFFFFF80
  | 0x40 | 0x58 => 0x1F
  | 0x48 | 0x60 | 0x70 => 0xFFFFFFFF
  | 0x68 => 0xFFFFFFFFFFFFC000
  | 0xA0 => 0xFFFF
  | _ => 0

/-- A register's value after software writes `v`: the bits outside `mask` stay. -/
def mergeBits (mask old v : Dword) : Dword := (old &&& ~~~mask) ||| (v &&& mask)

/-- The registers that a service core writes (SC): EVTP, STOPP, CALLP. -/
def scRegs : List Nat := [0x48, 0x60, 0x70]

/-- EN of a partition. -/
def State.enabled (s : State) (part : Nat) : Bool := (s.partReg part 0).getLsbD 0

/-- A write to a partition-page register without a row of its own. -/
def State.writePart (s : State) (part off : Nat) (v : Dword) : State :=
  if s.enabled part && heldRegs.contains off then s
  else s.setPartReg part off (mergeBits (partMask off) (s.partReg part off) v)

/-- A partition holds no team and no open queue context (R420). -/
def State.partIdle (s : State) (part : Nat) : Bool :=
  !(s.teams.any fun t => s.partOf t.2.ctx == part) && !(s.contexts.any fun c => c.2.part == part && c.2.st == 1)

/-- PCTL_ENABLE (R420): EN is cleared only where the partition holds no team and no open context. -/
def execPctlEnable (part : Nat) (en : Bool) (s : State) : Out :=
  if 32 ≤ part then .next s
  else if en then
    .next (s.setPartReg part 0 (mergeBits 0x1F0001 (s.partReg part 0) (BitVec.ofNat 64 (2 ^ 16 * part + 1))))
  else if s.partIdle part then .next (s.setPartReg part 0 (s.partReg part 0 &&& ~~~1))
  else .next s

/-- PCTL_HALT_REQUEST (R367, R420). -/
def execPctlHaltRequest (part : Nat) (s : State) : Out :=
  if s.halted part then .next s else .next (s.haltNow part causeHaltRequest)

/-- The memories of a core that belongs to no partition cleared (R423, R451): L1, team memory, accumulator memory. -/
def State.clearCore (s : State) (core : Nat) : State :=
  { s.l1Invalidate core with
    teamMem := s.teamMem.filter fun e => e.1 / 2 ^ 27 != core
    accMem := s.accMem.filter fun e => e.1 / 2 ^ 19 != core }

/-- CMASK_WRITE (R420, R423): cores that come to the partition and hold no team are clear. -/
def execCmaskWrite (part word : Nat) (v : Dword) (s : State) : Out :=
  if 32 ≤ part ∨ 3 ≤ word then .next s
  else
    let new := (List.range 64).filter fun b => v.getLsbD b && !(s.partReg part (8 + 8 * word)).getLsbD b
    let s := new.foldl
      (fun (s : State) b => if s.teams.any fun t => t.2.core == 64 * word + b then s else s.clearCore (64 * word + b)) s
    .next (s.setPartReg part (8 + 8 * word) v)

/-! ### The device page (R422, R431, R443, R446) -/

/-- A die holds a team. -/
def State.dieHolds (s : State) (die : Nat) : Bool := s.teams.any fun t => dieOf t.2.core == die

/-- What software may write of a device-page register without a row of its own; 0 where there is none or it is read-only. -/
def devMask (off : Nat) : Dword :=
  if off = 0x240 then 0xFFFFFFFFFFFFFFE0
  else if off = 0x248 then 0x1F
  else if off = 0x250 then 0xFFFFFFFF
  else if 0x300 ≤ off ∧ off < 0x3C0 then
    (match (off - 0x300) % 24 with
     | 0 => 0xFFFFFFFFFFFFFFE0
     | 8 => 0x1F
     | 16 => 0xFFFFFFFF
     | _ => 0)
  else if 0x400 ≤ off ∧ off < 0x1400 then
    (if off % 16 = 0 then 0x000FFFFFF0000001 else if off % 16 = 8 then 0x000FFFFFFFFFFFFF else 0)
  else if 0x1700 ≤ off ∧ off < 0x1780 ∧ off % 16 = 0 then 0xFFFF
  else 0

/-- Readiness bits that the root monitor clears through RDYj; it sets none so (R447, R448). -/
def State.clearReady (s : State) (j : Nat) (v : Dword) : State :=
  ((List.range 64).filter fun b => !v.getLsbD b && s.ready (64 * j + b)).foldl (fun s b => s.setReady (64 * j + b) false) s

/-- The accesses parked for CXL windows walk again where a window serves them now (R433). -/
def State.cxlRetry (s : State) : State :=
  { s with
    parkedAccesses := s.parkedAccesses.map fun p =>
      if p.host = 3 ∧ p.answer = .none ∧ s.translate p.ctx p.va.toNat (accessOf p.kind) ≠ .miss 3 then { p with answer := .ok }
      else p }

/-- A write to a device-page register without a row of its own. DECB and DECC stay while their die holds a team (R422); a
window is written only while its group, with the CXL personality, is in MAP (R431). -/
def State.writeDev (s : State) (off : Nat) (v : Dword) : State :=
  if 0x200 ≤ off ∧ off < 0x228 ∧ off % 8 = 0 then s.clearReady ((off - 0x200) / 8) v
  else
    let window := 0x400 ≤ off ∧ off < 0x1400
    let n := (off - 0x400) / 256
    let pers := ((s.devReg (0x100 + 8 * n)).extractLsb' 4 2).toNat
    let ring := 0x300 ≤ off ∧ off < 0x3C0 ∧ (off - 0x300) % 24 ≠ 16
    if window ∧ ¬(s.edgeStep n = 4 ∧ pers = 3) then s
    else if ring ∧ s.dieHolds ((off - 0x300) / 24) then s
    else if devMask off = 0 then s
    else
      let s := s.setDevReg off (mergeBits (devMask off) (s.devReg off) v)
      if window then s.cxlRetry else s

/-- SOCVAL of a die (R422): the counter that SOCSEL names, at the access. -/
def State.socVal (s : State) (die : Nat) : Dword := s.officeCounter die (s.devReg (0x1700 + 16 * die)).toNat

/-! ### Queue contexts (R424) -/

/-- A queue context as its 32-byte entry. -/
def Context.block (c : Context) : BitVec 256 :=
  BitVec.ofNat 64 c.tbase ++ BitVec.ofNat 32 c.drain ++ (0 : BitVec 61) ++ BitVec.ofBool c.cfqv ++ BitVec.ofNat 24 c.cfq
    ++ BitVec.ofNat 2 c.st ++ BitVec.ofNat 8 c.gen ++ BitVec.ofNat 6 c.vf ++ BitVec.ofNat 5 c.part ++ BitVec.ofNat 20 c.pasid
    ++ (0 : BitVec 33)

/-- A queue context that was never opened: every field at its reset value. -/
def Context.empty : Context :=
  { tbase := 0, drain := 0, cfqv := false, cfq := 0, st := 0, gen := 0, vf := 0, part := 0, pasid := 0, since := 0 }

/-- The entry with quarter `q` replaced; DRAIN is read-only, reserved fields and the low bits of TBASE are ignored. -/
def Context.withQuarter (c : Context) (q now : Nat) (v : Dword) : Context :=
  match q with
  | 0 => { c with pasid := (v.extractLsb' 33 20).toNat, part := (v.extractLsb' 53 5).toNat, vf := (v.extractLsb' 58 6).toNat }
  | 1 => { c with gen := (v.extractLsb' 0 8).toNat, st := (v.extractLsb' 8 2).toNat, cfq := (v.extractLsb' 10 24).toNat
                  cfqv := v.getLsbD 34, since := now }
  | 2 => c
  | 3 => { c with tbase := (v.extractLsb' 21 43).toNat * 2 ^ 21 }
  | _ => c

/-- A write to quarter `q` of a queue context's entry. The state 3 is reserved, and an entry in QUARANTINE stays as it is
until the FLR is complete (R427). -/
def State.writeContext (s : State) (ctx q : Nat) (v : Dword) : State :=
  let c := (lookupKey s.contexts ctx).getD Context.empty
  if 8192 ≤ ctx ∨ c.st = 2 ∨ (q = 1 ∧ v.extractLsb' 8 2 = 3) then s
  else { s with contexts := insertKey s.contexts ctx (c.withQuarter q s.postmark.toNat v) }

/-! ### What has no offset in the spec -/

/-- The registers that the spec gives the root monitor without an offset (R304, R417, R420, R435): the device number, the
delegation of the pages, the BAR2 base of a function, and a partition's queue key by 64-bit words. -/
def State.writeOther (s : State) (off : Nat) (v : Dword) : State :=
  if off = 0 then { s with devNum := v.toNat % 512 }
  else if off = 8 then { s with delegated := v.getLsbD 0 }
  else if 0x10 ≤ off ∧ off < 0x210 then { s with bar2 := Sparse.set 0 s.bar2 ((off - 0x10) / 8) v.toNat }
  else if 0x1000 ≤ off ∧ off < 0x1400 then
    let part := (off - 0x1000) / 32
    let i := (off - 0x1000) % 32 / 8
    if s.enabled part then s
    else
      let k := s.queueKey part
      let w (j : Nat) : Dword := if j = i then v else k.extractLsb' (64 * j) 64
      { s with queueKeys := insertKey s.queueKeys part (w 3 ++ w 2 ++ w 1 ++ w 0) }
  else s

/-! ### Who writes what (R347, R420) -/

/-- A hart's write to one of its CSRs without a row of its own: SOMAPL, SOMAPH, SOCNT (R347). -/
def State.writeCsr (s : State) (die hart csr : Nat) (v : Dword) : State :=
  match csr with
  | 0x7C6 => s.onHart die hart fun x => { x with mapl := v &&& 0x7FFFFFFFFFFFFFFF }
  | 0x7C7 => s.onHart die hart fun x => { x with maph := v &&& 0x1FFFFFFFF }
  | 0x7CD => s.onHart die hart fun x => { x with cnt := v &&& 0xFFFF }
  | _ => s

/-- REGISTER_WRITE (R420): the root monitor writes every page, a service core the SC registers of its own; a host write
changes nothing, for only the root monitor writes these pages. Page p < 32 is partition p's, 32 the device page, 33 what has
no offset, 2^16 + c the entry of context c. -/
def execRegisterWrite (who : RegWriter) (page off : Nat) (v : Dword) (s : State) : Out :=
  match who with
  | .hart die n => .next (s.writeCsr die n off v)
  | .host => .next s
  | .serviceCore part => if page = part ∧ part < 32 ∧ scRegs.contains off then .next (s.writePart part off v) else .next s
  | .rootMonitor =>
    if page < 32 then .next (s.writePart page off v)
    else if page = 32 then .next (s.writeDev off v)
    else if page = 33 then .next (s.writeOther off v)
    else if 0x10000 ≤ page then .next (s.writeContext (page - 0x10000) (off / 8) v)
    else .next s

/-! ### Attestation (R453) -/

/-- ATT_REQUEST (R453): a second request while one is under way is ignored. -/
def execAttRequest (part : Nat) (v : Dword) (s : State) : Out :=
  if 32 ≤ part ∨ (s.partReg part 0xB0).getLsbD 0 then .next s
  else .next (s.setPartReg part 0xB0 ((v &&& 0x000FFFFFFFFFFFC0) ||| 1))

/-- An unsigned integer of 66 bytes, written big-endian (R401). -/
def beInteger (n : Nat) : List Byte := (leBytes 66 n).reverse

/-- The loaded images of the eight dies' Sorting Offices, one after another. -/
def State.officeImages (s : State) : List Byte :=
  (List.range 8).flatMap fun d => s.officeMem.bytes (officeBase d) (s.office d).imageLen

/-- Bytes 0 to 379 of a report. -/
def State.reportBody (s : State) (part : Nat) (nonce : List Byte) : List Byte :=
  leBytes 4 0x54535441 ++ leBytes 2 1 ++ leBytes 2 part ++ leBytes 2 (s.partReg part 0xA0).toNat ++ List.replicate 66 0
  ++ leBytes 8 s.postmark.toNat ++ nonce ++ Sha.sha512 s.life.config ++ Sha.sha512 s.firmware ++ Sha.sha512 s.officeImages
  ++ (List.range 5).flatMap fun j => leBytes 8 (s.devReg (0x200 + 8 * j)).toNat

/-- ATTESTATION_REPORT (R453): the report replaces the buffer, whose nonce it keeps, and ATT [0] reads 0. -/
def execAttestationReport (part : Nat) (s : State) : Out :=
  let att := s.partReg part 0xB0
  if !att.getLsbD 0 then .next s
  else
    let pa := att.toNat / 64 * 64
    let (s, nonce) := s.unitLoad 8 ⟨0, pa + 84⟩ 64
    let body := s.reportBody part nonce
    let sig := Config.ecdsaSign (s.life.secret.getD 0) (leNat (Sha.sha512 body))
    let s := s.unitStore 8 ⟨0, pa⟩ (body ++ beInteger sig.1 ++ beInteger sig.2)
    .next (s.setPartReg part 0xB0 (att &&& ~~~1))

end Sys2Proof.Machine
end

