-- ==== Sys2Proof/Machine/HostLink.lean ====
section
/-!
DEFINITION. Service calls as the service core completes them (R387, R425), and what the host and peer devices do to the
package: BAR2 writes, Function Level Resets, fabric packets and relays (R417, R418, R427, R428, R434 to R438).
-/
namespace Sys2Proof.Machine

/-! ### Completing service calls (R387, R425) -/

/-- 1 added to the 64-bit counter at an address, as `msig.rel.sys` by the hub would. -/
def State.bump (s : State) (ctx : Nat) (a : Dword) : State :=
  match s.ctxLoad ctx 8 a.toNat 8 with
  | (s, none) => s
  | (s, some bs) => (s.ctxStore ctx 8 a.toNat (leBytes 8 (leNat bs + 1))).getD s

/-- CREC and CCTR of a request. -/
def Call.crec (c : Call) : Dword := c.req.extractLsb' 64 64
/-- CCTR. -/
def Call.cctr (c : Call) : Dword := c.req.extractLsb' 128 64
/-- The function code of a request. -/
def Call.code (c : Call) : Nat := (c.req.extractLsb' 0 16).toNat
/-- Argument `i` of a request. -/
def Call.arg (c : Call) (i : Nat) : Dword := c.req.extractLsb' (192 + 64 * i) 64

/-- A request that the node engine posted: a FETCH that gets neither ticket nor record (R425). -/
def Call.fromNode (c : Call) : Bool := c.code == 4 && c.crec == 0 && c.cctr == 0

/-- The completion record (R387): the ticket, the status 0 OK, 1 ERROR, 2 RESET, and the result. -/
def completion (ticket : Dword) (status : Nat) (result : Dword) : BitVec 128 :=
  result ++ (0 : BitVec 16) ++ BitVec.ofNat 8 status ++ ticket.extractLsb' 0 40

/-- A call completes: CREC is written, then CCTR rises. -/
def State.answerCall (s : State) (c : Call) (status : Nat) (result : Dword) : State :=
  if c.fromNode then s
  else
    let s := (s.ctxStore c.ctx 8 c.crec.toNat (leBytes 16 (completion c.ticket status result).toNat)).getD s
    if c.cctr = 0 then s else s.bump c.ctx c.cctr

/-- HEAD of a partition's call ring moved on by one entry (R420). -/
def State.callTaken (s : State) (part : Nat) : State :=
  let p := s.partReg part callPtr
  s.setPartReg part callPtr (p.extractLsb' 32 32 ++ (p.extractLsb' 0 32 + 1 : Word))

/-! ### Host writes (R417, R418) -/

/-- The device's own place of a physical address: the peer range of its own number names its own memory (R419). -/
def ownAddr (pa : Nat) : Nat := if pa < 2 ^ 51 then pa else pa % 2 ^ 42

/-- A physical address that the package itself holds. -/
def State.ownMemory (s : State) (pa : Nat) : Bool :=
  match s.reach pa false none with
  | .ok l _ _ => l.space == 0 && decide (l.addr < 3 * 2 ^ 40)
  | _ => false

/-- A byte that the host writes in its own memory: copies on the device stay as they are (R283, R388). -/
def State.hostWrite (s : State) (a : Nat) (b : Byte) : State :=
  let s := s.landFlights fun f => f.touches ⟨4, a⟩ 1
  { s with hostMem := s.hostMem.set a b }

/-- HOST_BAR2_WRITE (R417, R418): a write outside the 64 GiB aperture, or to what no memory of the device answers, completes as
Unsupported Request and changes nothing. DESIGN CHOICE (log 145): the number 64, which no function has, is the host's write to
its own memory at `off` (R283), in one order with its writes to the device. -/
def execHostBar2Write (fn off : Nat) (data : List Byte) (s : State) : Out :=
  let pa := Sparse.get 0 s.bar2 fn + off
  if fn = 64 then .next (data.zipIdx.foldl (fun s b => s.hostWrite (off + b.2) b.1) s)
  else if 64 < fn ∨ 2 ^ 36 < off + data.length ∨ data.isEmpty ∨ !s.ownMemory pa ∨ !s.ownMemory (pa + data.length - 1) then .next s
  else .next (s.unitStore 8 ⟨0, ownAddr pa⟩ data)

/-! ### Function Level Reset (R427) -/

/-- The contexts of a VF that are not FREE. -/
def State.vfContexts (s : State) (vf : Nat) : List (Nat × Context) := s.contexts.filter fun c => c.2.vf == vf && c.2.st != 0

/-- A queue belongs to one of some contexts: its PASID is theirs. -/
def Queue.ofContexts (q : Queue) (cs : List (Nat × Context)) : Bool := cs.any fun c => c.2.pasid == q.pasid && c.2.part == q.part

/-- Step 1: quarantine, and the generations rise. -/
def State.quarantine (s : State) (vf : Nat) : State :=
  let cs := s.vfContexts vf
  let now := s.postmark.toNat
  { s with
    contexts := s.contexts.map fun c =>
      if c.2.vf = vf ∧ c.2.st ≠ 0 then (c.1, { c.2 with st := 2, gen := (c.2.gen + 1) % 256, since := now }) else c
    queues := s.queues.map fun q => if q.2.ofContexts cs then (q.1, { q.2 with gen := (q.2.gen + 1) % 256 }) else q }

/-- The items of a queue that its QC holds: parked, waiting to be parked, re-injected, set aside and reserved. -/
def State.queueItems (s : State) (k : Nat) (q : Queue) : List Item :=
  let reserved := match q.node with
    | none => []
    | some nd => nd.reserved.flatMap (·.2)
  (((s.parkedTable q.home).filter fun p => p.qkey == k).map fun p => { desc := p.desc, qkey := k, lock := p.lock })
  ++ (s.parkLater.filter fun p => p.item.qkey == k).map (·.item)
  ++ q.reinjected ++ q.held ++ reserved

/-- They are discarded with their locks and slots. -/
def State.discardItems (s : State) (k : Nat) : State :=
  match lookupKey s.queues k with
  | none => s
  | some q =>
    let s := (s.queueItems k q).foldl State.completeItem s
    { s with
      parkedItems := insertKey s.parkedItems q.home ((s.parkedTable q.home).filter fun p => p.qkey != k)
      parkLater := s.parkLater.filter fun p => p.item.qkey != k }

/-- Step 2: the teams of the contexts are killed, their items discarded, their queues released. -/
def State.clearFunction (s : State) (vf : Nat) : State :=
  let cs := s.vfContexts vf
  let teams := s.teams.filter fun t => t.2.phase != .ended && cs.any fun c => c.1 == t.2.ctx
  let s := teams.foldl (fun (s : State) t => s.killTeam t.1 causeKilled 0 true) s
  let qs := (s.queues.filter fun q => q.2.ofContexts cs).map (·.1)
  let s := { s with offices := s.offices.map fun o =>
    (o.1, { o.2 with launches := o.2.launches.filter fun l => !qs.contains l.qkey }) }
  qs.foldl (fun s k => (s.discardItems k).releaseQueue k) s

/-- FLR (R427, steps 1 and 2). -/
def execFlr (vf : Nat) (s : State) : Out := .next ((s.quarantine vf).clearFunction vf)

/-- FLR_CLEANUP (R427, steps 3 and 4). -/
def execFlrCleanup (vf : Nat) (s : State) : Out :=
  let cs := (s.contexts.filter fun c => c.2.vf == vf && c.2.st == 2).map (·.1)
  if cs.isEmpty then .next s
  else
    let mine := s.calls.filter fun c => cs.contains c.ctx
    let s := mine.foldl (fun s c => (s.answerCall c 2 0).callTaken c.part) s
    .next
      { s with
        calls := s.calls.filter fun c => !cs.contains c.ctx
        files := s.files.filter fun f => f.vf != vf
        conns := s.conns.map fun c => if c.vf = vf then { c with isOpen := false, waiting := false } else c }

/-- The contexts of a VF in quarantine, where that has lasted so many ns for each. -/
def State.quarantined (s : State) (vf ns : Nat) : Bool :=
  let cs := s.contexts.filter fun c => c.2.vf == vf && c.2.st == 2
  !cs.isEmpty && cs.all fun c => decide (c.2.since + ns ≤ s.postmark.toNat)

/-- FLR_ALLOWANCE_EXPIRY (R427, step 6). -/
def execFlrAllowanceExpiry (vf : Nat) (s : State) : Out :=
  if s.quarantined vf 2000000 then
    .next { s with conns := s.conns.map fun c => if c.vf = vf then { c with allowance := 0, reservations := 0 } else c }
  else .next s

/-- The translations of a context that is FREE are dropped, and its accesses that still wait for one (R5). -/
def State.dropTranslations (s : State) (ctx pasid : Nat) : State :=
  { s with
    ats := s.ats.filter fun t => t.pasid != pasid
    parkedAccesses := s.parkedAccesses.filter fun p => p.ctx != ctx }

/-- The page of a partition that is torn down is cleared once its last context is FREE (R428): with EN = 0 the partition is being
torn down (DEDUCED, log 144). -/
def State.clearPage (s : State) (part : Nat) : State :=
  if (s.partReg part 0).getLsbD 0 || s.contexts.any fun c => c.2.part == part && c.2.st != 0 then s
  else
    { s with
      partRegs := Sparse.set 0 (s.partRegs.filter fun r => r.1 / 0x10000 != part) (part * 0x10000 + 0x98) 2000000 }

/-- FLR_COMPLETE (R427, step 7). -/
def execFlrComplete (vf : Nat) (s : State) : Out :=
  let mine := s.contexts.filter fun c => c.2.vf == vf && c.2.st == 2
  if s.quarantined vf 4000000 && mine.all fun c => c.2.drain == 0 then
    let s :=
      { s with contexts := s.contexts.map fun c => if c.2.vf = vf ∧ c.2.st = 2 then (c.1, { c.2 with st := 0 }) else c }
    let s := mine.foldl (fun (s : State) c => s.dropTranslations c.1 c.2.pasid) s
    .next (((mine.map fun c => c.2.part).eraseDups).foldl State.clearPage s)
  else .next s

/-! ### Fabric packets (R428, R434, R435, R437, R438) -/

/-- A packet that answers another. -/
def packetReply (p : Packet) (own : Nat) (what : PacketKind) (ok : Bool) (data : List Byte) : Packet :=
  { age := 0, src := BitVec.ofNat 9 own, dst := p.src, pasid := p.pasid, gen := p.gen, pnum := p.pnum, plane := p.plane
    op := .answer what ok data }

/-- What kind of request a packet is, none for a message or an answer. -/
def packetKind (p : Packet) : Option PacketKind :=
  match p.op with
  | .write _ _ | .line _ _ => some .write
  | .read _ _ => some .read
  | .addTo _ _ => some .atomic
  | .planes _ | .answer _ _ _ => none

/-- A request answered RESET. -/
def State.resetReply (s : State) (p : Packet) : State :=
  match packetKind p with
  | none => s
  | some k => { s with sent := s.sent ++ [packetReply p s.devNum k false []] }

/-- A packet that the device drops: its context is in quarantine, has another generation, or belongs to a halted
partition. -/
def State.drops (s : State) (p : Packet) : Bool :=
  s.contexts.any fun c =>
    c.2.st != 0 && c.2.pasid == p.pasid.toNat
    && (c.2.st == 2 || c.2.gen % 256 != p.gen.toNat || s.halted c.2.part)

/-- A leaf of `size` bytes maps the physical address `pa` of this device with the permission that an access needs (R383). -/
def leafCovers (e : Dword) (size pa : Nat) (k : Access) : Bool :=
  decide ((e.extractLsb' 56 3).toNat < 2) && (k != .write || e.getLsbD 1)
  && ownAddr ((e.extractLsb' 12 40).toNat * 4096 / size * size) == pa / size * size

/-- The tables of level `n` down from `base` map the physical address `pa` at some virtual address (R382). -/
def State.mapsPhysical (s : State) (pa : Nat) (k : Access) : Nat → Nat → Bool
  | 0, base =>
    (List.range 512).any fun i =>
      let e := s.entryAt (base + 8 * i)
      e.getLsbD 0 && entryClean e && leafCovers e 4096 pa k
  | n + 1, base =>
    (List.range (if n = 2 then 2 ^ 18 else 512)).any fun i =>
      let e := s.entryAt (base + 8 * i)
      e.getLsbD 0 && entryClean e
      && (if n = 2 && e.getLsbD 4 then false
          else if e.getLsbD 3 then n != 2 && leafCovers e (2 ^ (12 + 9 * (n + 1))) pa k
          else s.mapsPhysical pa k n ((e.extractLsb' 12 40).toNat * 4096))

/-- `len` bytes that a packet names lie in the device's own memory, in pages that the translation of the packet's PASID maps
with the permission the request needs (R375; DEDUCED, log 111): a packet carries a physical address, and its PASID's tables on the
receiving device must map it. -/
def State.packetMay (s : State) (p : Packet) (pa len : Nat) (k : Access) : Bool :=
  s.ownMemory pa && s.ownMemory (pa + len - 1)
  && s.contexts.any fun c =>
    c.2.st != 0 && c.2.pasid == p.pasid.toNat
    && s.mapsPhysical (ownAddr pa) k 3 c.2.tbase && s.mapsPhysical (ownAddr (pa + len - 1)) k 3 c.2.tbase

/-- A request performed at its home under the translation of its PASID and answered; what that does not allow is an error. -/
def State.performPacket (s : State) (p : Packet) : State :=
  let answer (s : State) (k : PacketKind) (data : List Byte) : State := { s with sent := s.sent ++ [packetReply p s.devNum k true data] }
  match p.op with
  | .write pa data =>
    if s.packetMay p pa data.length .write then answer (s.unitStore 8 ⟨0, ownAddr pa⟩ data) .write [] else s.resetReply p
  | .line pa bytes =>
    if s.packetMay p pa 128 .write && bytes.all fun b => b.1 / 128 == pa / 128 then
      answer (bytes.foldl (fun s b => s.unitStore 8 ⟨0, ownAddr b.1⟩ [b.2]) s) .write []
    else s.resetReply p
  | .read pa len =>
    if s.packetMay p pa len .read then
      let (s, bs) := s.unitLoad 8 ⟨0, ownAddr pa⟩ len
      answer s .read bs
    else s.resetReply p
  | .addTo pa v =>
    if s.packetMay p pa 8 .write then
      let (s, bs) := s.unitLoad 8 ⟨0, ownAddr pa⟩ 8
      answer (s.unitStore 8 ⟨0, ownAddr pa⟩ (leBytes 8 (leNat bs + v.toNat))) .atomic bs
    else s.resetReply p
  | .planes _ | .answer _ _ _ => s

/-- A completion error of an edge group (R428): the issuing partition takes MACHINE_CHECK, and a stop record names the
group. -/
def State.linkError (s : State) (part n : Nat) : State :=
  let s := if s.halted part then s else s.haltNow part causeMachineCheck
  s.partRing part 0x50 128 (stopRecord s.postmark part causeMachineCheck { src := 0x8040 + n, kind := 6, unit := n }).toNat

/-- An answer received (R375, R428): it counts as the acknowledgement of a write or an atomic, and a read or an atomic
that was not performed is a context fault. -/
def State.takeAnswer (s : State) (p : Packet) (what : PacketKind) (ok : Bool) : State :=
  match s.contexts.find? fun c => c.2.st != 0 && c.2.pasid == p.pasid.toNat with
  | none => s
  | some c =>
    let s :=
      if what = .read then s
      else { s with contexts := modifyKey s.contexts c.1 fun c => { c with drain := c.drain - 1 } }
    if !ok && what != .write then s.linkError c.2.part (p.plane / 8 % 16) else s

/-- The plane map of another device replaced (R434); a device's own bits come from its own groups. -/
def State.setPlanes (s : State) (dev : Nat) (bits : BitVec 128) : State :=
  if dev = s.devNum ∨ 512 ≤ dev then s else { s with planes := insertKey s.planes dev bits }

/-- PEER_PACKET_RECEIVE (R428): a packet for another device is relayed instead (PACKET_RELAY). -/
def execPeerPacketReceive (p : Packet) (s : State) : Out :=
  if p.dst.toNat ≠ s.devNum then .next s
  else
    match p.op with
    | .planes bits => .next (s.setPlanes p.src.toNat bits)
    | .answer what ok _ => .next (s.takeAnswer p what ok)
    | _ => if s.drops p then .next (s.resetReply p) else .next (s.performPacket p)

/-- PLANE_MAP_UPDATE (R434). -/
def execPlaneMapUpdate (dev : Nat) (planes : BitVec 128) (s : State) : Out := .next (s.setPlanes dev planes)

/-- The present planes of a device. -/
def State.presentPlanes (s : State) (dev : Nat) : List Nat :=
  let m := (lookupKey s.planes dev).getD 0
  (List.range 128).filter fun p => m.getLsbD p

/-- A packet relayed (R437): AGE rises, and it leaves on the lowest present plane, other than that of its arrival, whose
output is free in that clk (a free choice, log 4). A packet whose destination has no plane left is held. -/
def State.relay (s : State) (p : Packet) : State :=
  let age : BitVec 8 := if p.age = 255 then 255 else p.age + 1
  let planes := (s.presentPlanes s.devNum).filter fun n => n != p.plane
  if (s.presentPlanes p.dst.toNat).isEmpty ∨ planes.isEmpty then
    { s with relays := s.relays ++ [(p, s.postmark.toNat)] }
  else
    let out := ((planes.zipIdx.find? fun x => Config.freeBool (s.free + x.2)).map (·.1)).getD (planes.headD 0)
    { s with free := s.free + 128, sent := s.sent ++ [{ p with age := age, plane := out }] }

/-- PACKET_RELAY (R437). -/
def execPacketRelay (p : Packet) (s : State) : Out := if p.dst.toNat = s.devNum then .next s else .next (s.relay p)

/-- RELAY_DROP (R437): a packet held for 1 ms whose destination has no plane is dropped and answered; one whose destination
has a plane again is relayed. -/
def execRelayDrop (p : Packet) (s : State) : Out :=
  match s.relays.find? fun r => r.1 == p with
  | none => .next s
  | some r =>
    let rest := { s with relays := s.relays.erase r }
    if !(s.presentPlanes p.dst.toNat).isEmpty then .next (rest.relay p)
    else if r.2 + 1000000 ≤ s.postmark.toNat then .next (rest.resetReply p)
    else .next s

end Sys2Proof.Machine
end

