-- ==== Sys2Proof/Machine/Edge.lean ====
section
/-!
DEFINITION. Edge groups and their personality switches (R429 to R434).
-/
namespace Sys2Proof.Machine

/-- The offset of EGCTLn (R430). -/
def edgeReg (n : Nat) : Nat := 0x100 + 8 * n

/-- PERS. -/
def State.edgePers (s : State) (n : Nat) : Nat := ((s.devReg (edgeReg n)).extractLsb' 4 2).toNat
/-- TGT. -/
def State.edgeTgt (s : State) (n : Nat) : Nat := ((s.devReg (edgeReg n)).extractLsb' 8 2).toNat

/-- EGCTLn of its fields: ERR, STEP, TGT, PERS, GO (R430). -/
def edgeWord (err step tgt pers go : Nat) : Dword :=
  BitVec.ofNat 64 (err % 256 * 2 ^ 32 + step % 16 * 2 ^ 12 + tgt % 4 * 2 ^ 8 + pers % 4 * 2 ^ 4 + go % 2)

/-- A step entered (R432): STEP, PERS and ERR as given, GO by the step, the entry's time, and EDGE_STEP to the root monitor. -/
def State.enterStep (s : State) (n step tgt pers err : Nat) : State :=
  let go := if 1 ≤ step ∧ step ≤ 4 then 1 else 0
  let s := s.setDevReg (edgeReg n) (edgeWord err step tgt pers go)
  let s := { s with edgeSince := Sparse.set 0 s.edgeSince n s.postmark.toNat }
  s.postRoot 17 (0x8040 + n) (BitVec.ofNat 64 n) (BitVec.ofNat 64 step)

/-- ERR. -/
def State.edgeErr (s : State) (n : Nat) : Nat := ((s.devReg (edgeReg n)).extractLsb' 32 8).toNat

/-- The device's own plane map (R434). -/
def State.ownPlanes (s : State) : BitVec 128 := (lookupKey s.planes s.devNum).getD 0

/-- The planes of an edge group. -/
def groupPlanes (n : Nat) : BitVec 128 := BitVec.ofNat 128 (255 * 2 ^ (8 * n))

/-- The device's own planes changed and announced on every present plane (R434). -/
def State.announce (s : State) (m : BitVec 128) : State :=
  if m = s.ownPlanes then s
  else
    let s := { s with planes := insertKey s.planes s.devNum m }
    let own := BitVec.ofNat 9 s.devNum
    let msg (p : Nat) : Packet := { age := 0, src := own, dst := own, pasid := 0, gen := 0, pnum := 0, plane := p, op := .planes m }
    { s with sent := s.sent ++ (s.presentPlanes s.devNum).map msg }

/-- EGCTL_GO (R430, R432): ignored while a switch is under way; without GO only TGT is written. DRAIN begins with the group's
planes absent and its readiness bit clear. -/
def execEgctlGo (n : Nat) (v : Dword) (s : State) : Out :=
  if 16 ≤ n ∨ s.edgeSwitching n then .next s
  else
    let tgt := (v.extractLsb' 8 2).toNat
    if !v.getLsbD 0 then .next (s.setDevReg (edgeReg n) (mergeBits 0x300 (s.devReg (edgeReg n)) v))
    else
      let pers := s.edgePers n
      let s := s.enterStep n 1 tgt pers (s.edgeErr n)
      let s := if pers = 1 then s.announce (s.ownPlanes &&& ~~~groupPlanes n) else s
      .next (s.setReady (208 + n) false)

/-- Time since the entry to the present step, in ns. -/
def State.edgeAge (s : State) (n : Nat) : Nat := s.postmark.toNat - Sparse.get 0 s.edgeSince n

/-- A group that other UEC traffic can move to: another UEC group that is READY. -/
def State.otherUec (s : State) (n : Nat) : Option Nat := (List.range 16).find? fun m => m != n && s.edgePers m == 2 && s.edgeStep m == 5

/-- The group takes no new requests (R432): its UEC connections move to another UEC group, or wait. -/
def State.closeGroup (s : State) (n : Nat) : State :=
  let other := s.otherUec n
  let move (c : Conn) : Conn :=
    if c.edge ≠ n ∨ !c.isOpen then c
    else match other with
      | some m => { c with edge := m }
      | none => { c with waiting := true }
  if s.edgeClosed.contains n then s
  else
    { s with edgeClosed := s.edgeClosed ++ [n]
             conns := if s.edgePers n = 2 then s.conns.map move else s.conns }

/-- DRAIN_REQUEST_CUTOFF (R432): 20 µs into DRAIN. -/
def execDrainRequestCutoff (n : Nat) (s : State) : Out :=
  if s.edgeStep n = 1 ∧ 20000 ≤ s.edgeAge n then .next (s.closeGroup n) else .next s

/-- Every CXL window that names the group made invalid (R432). -/
def State.closeWindows (s : State) (n : Nat) : State :=
  (List.range 128).foldl
    (fun (s : State) i =>
      let off := windowReg (i / 8) (i % 8)
      if (s.windowGroups (i / 8) (i % 8)).contains n ∨ i / 8 = n then s.setDevReg off (s.devReg off &&& ~~~1) else s) s

/-- EDGE_DRAIN_END (R432): DRAIN ends when no request is open, or after 200 µs, when the requests still open (`opens` names
their contexts) complete with an error under R428; QUIESCE begins and closes the windows. -/
def execEdgeDrainEnd (n : Nat) (opens : List Nat) (s : State) : Out :=
  if s.edgeStep n ≠ 1 ∨ (!opens.isEmpty && decide (s.edgeAge n < 200000)) then .next s
  else
    let s := opens.foldl
      (fun (s : State) c =>
        { s with contexts := modifyKey s.contexts c fun c => { c with drain := c.drain - 1 } }.linkError (s.partOf c) n) s
    let err := if opens.isEmpty then s.edgeErr n else 1
    .next (((s.closeGroup n).enterStep n 2 (s.edgeTgt n) (s.edgePers n) err).closeWindows n)

/-- QUIESCE_END (R432). -/
def execQuiesceEnd (n : Nat) (s : State) : Out :=
  if s.edgeStep n = 2 then .next (s.enterStep n 3 (s.edgeTgt n) (s.edgePers n) (s.edgeErr n)) else .next s

/-- The lane rate of a personality: UAL and UEC share one (R429). -/
def laneRate (pers : Nat) : Nat := if pers = 1 ∨ pers = 2 then 224 else if pers = 3 then 64 else 0

/-- The time that RETRAIN has to bring the link up, in ns (R432). -/
def State.retrainTime (s : State) (n : Nat) : Nat := if laneRate (s.edgePers n) = laneRate (s.edgeTgt n) then 5000000 else 20000000

/-- Accesses parked for CXL windows at the end of a switch (R433): where no window covers them and no other group is
switching they fail. -/
def State.cxlSettle (s : State) : State :=
  let busy := (List.range 16).any fun n => s.edgeSwitching n
  { s with
    parkedAccesses := s.parkedAccesses.map fun p =>
      if p.host ≠ 3 ∨ p.answer ≠ .none then p
      else if s.translate p.ctx p.va.toNat (accessOf p.kind) ≠ .miss 3 then { p with answer := .ok }
      else if busy then p
      else { p with answer := .fail } }

/-- A switch that failed (R432, R433). -/
def State.switchFailed (s : State) (n : Nat) : State :=
  let s := s.enterStep n 6 (s.edgeTgt n) (s.edgePers n) 2
  let s :=
    { s with
      edgeClosed := s.edgeClosed.filter fun m => m != n
      conns := s.conns.map fun (c : Conn) => if c.edge = n ∧ c.waiting then { c with waiting := false, isOpen := false } else c }
  s.cxlSettle

/-- RETRAIN_END (R432, R434): the link is up within its time, and MAP begins with PERS the target; or the switch fails. -/
def execRetrainEnd (n : Nat) (up : Bool) (s : State) : Out :=
  if s.edgeStep n ≠ 3 then .next s
  else if s.retrainTime n < s.edgeAge n then .next (s.switchFailed n)
  else if !up then .next s
  else
    let tgt := s.edgeTgt n
    let s := s.enterStep n 4 tgt tgt (s.edgeErr n)
    .next (if tgt = 1 then s.announce (s.ownPlanes ||| groupPlanes n) else s)

/-- EDGE_READY (R432, R433): the root monitor writes STEP READY. -/
def execEdgeReady (n : Nat) (s : State) : Out :=
  if s.edgeStep n ≠ 4 then .next s
  else
    let s := (s.enterStep n 5 (s.edgeTgt n) (s.edgePers n) (s.edgeErr n)).setReady (208 + n) true
    let s :=
      { s with
        edgeClosed := s.edgeClosed.filter fun m => m != n
        conns := s.conns.map fun (c : Conn) => if c.edge = n ∧ c.waiting then { c with waiting := false } else c }
    .next s.cxlSettle

end Sys2Proof.Machine
end

