-- ==== Sys2Proof/Machine/Float.lean ====
section
/-!
DEFINITION. Floating-point, conversion and dot-product instructions of the lane set (R109 to R120).
-/
namespace Sys2Proof.Machine

/-! ### Shapes -/

/-- Whether an instruction that rounds runs under RS (R78). -/
def Group.stochastic (g : Group) (e : EA) : Bool := g.rndOf e.rnd == .rs

/-- What rounding element `i` of lane `l` depends on (R77, R78): it takes the lane's draw number i. -/
def Group.env (g : Group) (e : EA) (sat : Bool) (l i : Nat) : FEnv :=
  { rnd := g.rndOf e.rnd, ftz := modeFtz g.mode, cnan := modeCnan g.mode, sat := sat
    draw := if g.stochastic e then (draws (i + 1) (g.lfsrGet l)).getLastD 0 else 0, x := modeX g.mode }

/-- The LFSRs after an instruction that rounds `n` elements in each lane (R78). -/
def Group.rounded (g : Group) (e : EA) (n : Nat) : Group :=
  if n ≠ 0 ∧ g.stochastic e then g.drawLanes n g.spl.mask else g

/-- A lane instruction that rounds `n` elements in each lane. -/
def roundOp (regs : List Nat) (w : LaneShort) (e : EA) (wide : Bool) (len n : Nat) (s : State) (f : Nat → Dword) : Out :=
  lanes regs w.g e.gn false len s fun m s =>
    ((s.onGrp fun g =>
        (g.laneResult w.d.toNat w.nw wide false ((lanesOf m).map fun l => (l, f l))).rounded e n).done len)

/-- Element `i` of a float source, flushed under R80. -/
def Group.floatElem (g : Group) (t : Ty) (v : Dword) (i : Nat) : FVal :=
  (kindOf t).flush (modeFtz g.mode) ((kindOf t).decode (modeX g.mode) (elemOf t v i))

/-- A value built element by element. -/
def floatElems (t : Ty) (f : Nat → Nat) : Dword := packElems t ((List.range (elemCount t)).map f)

/-! ### Arithmetic (R111 to R113) -/

/-- R111, two sources: `op` is exact, given whether the mode is RD (R77 step 2). -/
def float2S (op : Bool → FVal → FVal → FVal) (w : LaneShort) (e : EA) (len : Nat) (s : State) : Out :=
  let g := s.grp
  roundOp (regs2S w e) w e e.t.wide len (elemCount e.t) s fun l =>
    floatElems e.t fun i =>
      (kindOf e.t).round (g.env e e.sat l i)
        (op (g.rndOf e.rnd == .rd) (g.floatElem e.t (g.srcA w e.t.wide l) i) (g.floatElem e.t (g.srcB2 w e l) i))

/-- Exact difference. -/
def FVal.sub (rd : Bool) (a b : FVal) : FVal := a.add rd b.neg
/-- Exact product, whatever the mode. -/
def FVal.times (_ : Bool) (a b : FVal) : FVal := a.mul b

/-- FADD (R111). -/
def execFadd (w : LaneShort) (s : State) : Out := float2S FVal.add w (defaultEA .f32) 4 s
/-- FSUB (R111). -/
def execFsub (w : LaneShort) (s : State) : Out := float2S FVal.sub w (defaultEA .f32) 4 s
/-- FMUL (R111). -/
def execFmul (w : LaneShort) (s : State) : Out := float2S FVal.times w (defaultEA .f32) 4 s
/-- FADD_EXT (R111). -/
def execFaddExt (w : LaneShort) (e : EA) (s : State) : Out := float2S FVal.add w e 8 s
/-- FSUB_EXT (R111). -/
def execFsubExt (w : LaneShort) (e : EA) (s : State) : Out := float2S FVal.sub w e 8 s
/-- FMUL_EXT (R111). -/
def execFmulExt (w : LaneShort) (e : EA) (s : State) : Out := float2S FVal.times w e 8 s

/-- FFMA (R111). -/
def execFfma (w : LaneShort) (e : EA) (s : State) : Out :=
  let g := s.grp
  roundOp (regs3S w e) w e e.t.wide 8 (elemCount e.t) s fun l =>
    floatElems e.t fun i =>
      (kindOf e.t).round (g.env e e.sat l i)
        (FVal.fma (g.rndOf e.rnd == .rd) (g.floatElem e.t (g.srcA w e.t.wide l) i)
          (g.floatElem e.t (g.srcB w e.t.wide l) i) (g.floatElem e.t (g.srcC e e.t.wide l) i))

/-- The minimum or maximum of R112: a NaN gives way to a number, and −0 lies below +0. -/
def FVal.pick (max : Bool) (a b : FVal) : FVal :=
  if a.isNan && b.isNan then a
  else if a.isNan then b
  else if b.isNan then a
  else
    match a.cmp b with
    | some .lt => if max then b else a
    | some .gt => if max then a else b
    | _ => if a.sign = max then b else a

/-- The environment of an exact result: nothing rounds, saturates or draws; `%mode`'s FTZ and CNAN hold. -/
def Group.exactEnv (g : Group) : FEnv :=
  { plainEnv with ftz := modeFtz g.mode, cnan := modeCnan g.mode, x := modeX g.mode }

/-- R112. -/
def pick2S (max : Bool) (w : LaneShort) (e : EA) (len : Nat) (s : State) : Out :=
  let g := s.grp
  laneOp (regs2S w e) w e.gn e.t.wide len s fun l =>
    floatElems e.t fun i =>
      (kindOf e.t).round g.exactEnv
        (FVal.pick max (g.floatElem e.t (g.srcA w e.t.wide l) i) (g.floatElem e.t (g.srcB2 w e l) i))

/-- FMIN (R112). -/
def execFmin (w : LaneShort) (s : State) : Out := pick2S false w (defaultEA .f32) 4 s
/-- FMAX (R112). -/
def execFmax (w : LaneShort) (s : State) : Out := pick2S true w (defaultEA .f32) 4 s
/-- FMIN_EXT (R112). -/
def execFminExt (w : LaneShort) (e : EA) (s : State) : Out := pick2S false w e 8 s
/-- FMAX_EXT (R112). -/
def execFmaxExt (w : LaneShort) (e : EA) (s : State) : Out := pick2S true w e 8 s

/-- The scale n of R113: imm16 sign-extended, or the low 32 bits of source b as i32. -/
def Group.scale (g : Group) (w : LaneShort) (e : EA) (l : Nat) : Int :=
  if e.xc then e.imm.toInt else ((g.srcB w false l).extractLsb' 0 32).toInt

/-- a × 2^n. A scale beyond ±8,192 acts as ±8,192, which already moves every finite value of every format outside its
range. -/
def FVal.scl (a : FVal) (n : Int) : FVal :=
  match a with
  | .fin s m e => .fin s m (e + (if n < -8192 then -8192 else if 8192 < n then 8192 else n))
  | v => v

/-- R113. -/
def scale2S (w : LaneShort) (e : EA) (len : Nat) (s : State) : Out :=
  let g := s.grp
  roundOp (regs2S w e) w e e.t.wide len (elemCount e.t) s fun l =>
    floatElems e.t fun i =>
      (kindOf e.t).round (g.env e e.sat l i) ((g.floatElem e.t (g.srcA w e.t.wide l) i).scl (g.scale w e l))

/-- FSCL (R113). -/
def execFscl (w : LaneShort) (s : State) : Out := scale2S w (defaultEA .f32) 4 s
/-- FSCL_EXT (R113). -/
def execFsclExt (w : LaneShort) (e : EA) (s : State) : Out := scale2S w e 8 s

/-- FCMP (R114). -/
def execFcmp (w : LaneShort) (e : EA) (s : State) : Out :=
  let g := s.grp
  predInstr (regsA w ++ regsB w false) w e.gn 8 s fun l =>
    floatCompare (WellFormed.minorOf e).toNat (g.floatElem e.t (g.srcA w e.t.wide l) 0)
      (g.floatElem e.t (g.srcB w e.t.wide l) 0)

/-! ### Special functions (R115, R116) -/

/-- Whether the exact value of an approximate f32 function at a nonzero source is below the smallest normal, judged before
rounding (R80): 2^a for a below −126, and the sine and the tangent of ±2^−126, which lie just inside it. Every other
value of R115 at a normal source is larger. -/
def specialTiny (minor : Nat) (a : FVal) : Bool :=
  match a with
  | .fin _ m e =>
    if minor = 3 then a.cmp (.fin true 126 0) == some .lt
    else (minor == 5 || minor == 7) && decide (m ≠ 0) && (FVal.fin false m e).cmp (.fin false 1 (-126)) != some .gt
  | .inf s => minor == 3 && s
  | .nan _ _ => false

/-- The result of `fsf` in lane `l`. An f32 result flushes by its exact value and not by the pattern that the function
leaves free (R80); an f16 or bf16 result by the f32 value that it rounds (R115). -/
def Group.special (g : Group) (w : LaneShort) (e : EA) (l : Nat) : Nat :=
  let k := kindOf e.t
  let a := g.floatElem e.t (g.srcA w false l) 0
  match (WellFormed.minorOf e).toNat with
  | 0 => k.round (g.env e e.sat l 0) (FVal.div (.fin false 1 0) a)
  | 2 => k.round (g.env e e.sat l 0) a.sqrt
  | m =>
    let ftz := modeFtz g.mode
    let v :=
      if ftz && (k == .f32 || m == 3) && specialTiny m a then .fin (m != 3 && a.sign) 0 0
      else Special.f32Value m (FKind.f32.round plainEnv a) (k == .f32 && ftz) a
    k.round { g.exactEnv with ftz := ftz && k != .f32, sat := e.sat } v

/-- FSF (R115). -/
def execFsf (w : LaneShort) (e : EA) (s : State) : Out :=
  let m := WellFormed.minorOf e
  let g := s.grp
  roundOp (regsD w ++ regsA w) w e false 8 (if m == 0 || m == 2 then 1 else 0) s fun l =>
    BitVec.ofNat 64 (g.special w e l)

/-! ### Conversions (R117 to R119) -/

/-- A float type of `cvt`. -/
def floatTy (t : Ty) : Bool := decide (4 ≤ t.toBits.toNat) && !(t == .i16x2 || t == .i8x4)

/-- A float format that holds every value of another (R85). -/
def widens : FKind → FKind → Bool
  | .e4m3, k | .e5m2, k => k == .f16 || k == .bf16 || k == .f32 || k == .f64
  | .e2m1, k => k == .bf16 || k == .f32 || k == .f64
  | .f16, k | .bf16, k => k == .f32 || k == .f64
  | .f32, k => k == .f64
  | .f64, _ => false

/-- Whether a pair (source, destination) rounds (R85). -/
def cvtRounds (ts t : Ty) : Bool :=
  if floatTy ts && floatTy t then !(widens (kindOf ts) (kindOf t))
  else floatTy ts || floatTy t

/-- Whether a conversion to t saturates (R83). -/
def Group.cvtSat (g : Group) (e : EA) : Bool :=
  e.sat || (modeSat g.mode && floatTy e.t && !(kindOf e.t == .f32 || kindOf e.t == .f64))

/-- conv(x) of R119 for one element pattern: its result pattern under an environment. `sat` applies only where R85 calls
for it: not in the exact-widening row, where an infinity carries over even under `sat` (DEDUCED, log 136: R83 alone would
saturate it), and not from an integer to a wider one, which is extended. DESIGN CHOICE (log 137): R85 has no row for two
integer types of one width; with `sat` the value is clamped, and otherwise its bits are copied. -/
def convert (env : FEnv) (ts t : Ty) (x : Nat) : Nat :=
  if floatTy ts then
    let v := (kindOf ts).flush env.ftz ((kindOf ts).decode env.x x)
    if floatTy t then
      (kindOf t).round { env with sat := env.sat && !(widens (kindOf ts) (kindOf t) || kindOf ts == kindOf t) } v
    else v.toInt env (elemBits t) (intSigned t)
  else
    let v := intOf (elemBits ts) (intSigned ts) x
    if floatTy t then (kindOf t).round env (FVal.ofInt v)
    else intResult (elemBits t) (intSigned t) (env.sat && decide (elemBits t ≤ elemBits ts)) v

/-- The number of elements a form of `cvt` converts (R119). -/
def cvtCount (f : Option WellFormed.CvtForm) (t : Ty) : Nat :=
  match f with
  | some .pack => 2
  | some .repack => elemCount t
  | _ => 1

/-- CVT (R119). -/
def execCvt (w : LaneShort) (e : EA) (s : State) : Out :=
  let g := s.grp
  let ts := WellFormed.tyOfBits (e.imm.extractLsb' 0 4)
  let sel := (e.imm.extractLsb' 4 3).toNat
  let form := WellFormed.cvtForm ts e.t
  let conv (l i x : Nat) : Nat := convert (g.env e (g.cvtSat e) l i) ts e.t x
  let regs := (if form = some .pack then [w.d.toNat] ++ regsB w false else regsD w) ++ regsA w
  let n := if cvtRounds ts e.t then cvtCount form e.t else 0
  roundOp regs w e e.t.wide 8 n s fun l =>
    let a := g.srcA w ts.wide l
    match form with
    | some .pack =>
      let old := g.reg false w.d.toNat l
      packElems e.t ((List.range (elemCount e.t)).map fun i =>
        if i = 2 * sel then conv l 0 (elemOf ts a 0)
        else if i = 2 * sel + 1 then conv l 1 (elemOf ts (g.srcB w false l) 0)
        else elemOf e.t old i)
    | some .unpack => BitVec.ofNat 64 (conv l 0 (elemOf ts a sel))
    | some .repack => packElems e.t ((List.range (elemCount e.t)).map fun i => conv l i (elemOf ts a i))
    | _ => BitVec.ofNat 64 (conv l 0 (elemOf ts a 0))

/-! ### Dot products (R120) -/

/-- The exact sum of a list of values, `rd` when the mode is RD; infinities of both signs are invalid. -/
def sumExact (rd : Bool) : List FVal → FVal
  | [] => .fin false 0 0
  | [v] => v
  | v :: rest => FVal.add rd v (sumExact rd rest)

/-- x of a float `dot`, with the NaN order of R120. -/
def dotValue (rd : Bool) (as bs : List FVal) (c : FVal) : FVal :=
  match firstNan (as ++ bs ++ [c]) with
  | some n => n
  | none => sumExact rd (List.zipWith FVal.mul as bs ++ [c])

/-- DOT (R120). -/
def execDot (w : LaneShort) (e : EA) (s : State) : Out :=
  let g := s.grp
  let idx := List.range (elemCount e.t)
  if floatTy e.t then
    roundOp (regs3S w e) w e false 8 1 s fun l =>
      let es (v : Dword) : List FVal := idx.map fun i => g.floatElem e.t v i
      BitVec.ofNat 64
        (FKind.f32.round (g.env e e.sat l 0)
          (dotValue (g.rndOf e.rnd == .rd) (es (g.srcA w false l)) (es (g.srcB w false l))
            (g.floatElem .f32 (g.srcC e false l) 0)))
  else
    laneOp (regs3S w e) w e.gn false 8 s fun l =>
      let sum : Int := idx.foldl
        (fun x i => x + intElem e.t (g.srcA w false l) i * intElem e.t (g.srcB w false l) i) 0
      BitVec.ofNat 64 (intResult 32 true e.sat (sum + intOf 32 true (g.srcC e false l).toNat))

end Sys2Proof.Machine
end

