-- ==== Sys2Proof/Machine/Exchange.lean ====
section
/-!
DEFINITION. The cross-lane instructions `shfl`, `vote`, `redux` and `scan` (R121 to R126).
-/
namespace Sys2Proof.Machine

/-! ### shfl (R123) -/

/-- The lane that lane `l` reads, or what stands in its place: its own value or zero. -/
inductive Source
  | lane (j : Nat)
  | own
  | zero
  deriving DecidableEq, Repr

/-- The source of lane `l` with operand `m` under the parameter of R123; `active` is the effective mask. -/
def shflSource (minor : Nat) (imm : BitVec 16) (active : Mask) (l m : Nat) : Source :=
  let z := 32 / 2 ^ (imm.extractLsb' 6 3).toNat
  let edge := (imm.extractLsb' 9 2).toNat
  let sb := l / z * z
  let q : Int :=
    match minor with
    | 0 => (sb + m : Nat)
    | 1 => (l : Int) - m
    | 2 => (l + m : Nat)
    | _ => (sb + (l ^^^ m) % z : Nat)
  let missing : Source := if edge = 1 then .zero else .own
  let take (j : Nat) : Source := if active.getLsbD j then .lane j else missing
  if (sb : Int) ≤ q ∧ q < sb + z then take q.toNat
  else if edge = 2 then take (sb + ((q - sb) % z).toNat)
  else missing

/-- SHFL (R123). -/
def execShfl (w : LaneShort) (e : EA) (s : State) : Out :=
  let g := s.grp
  let imm := e.imm.getLsbD 5
  lanes (regsD w ++ regsA w ++ regsB w imm) w.g e.gn false 8 s fun act s =>
    let value (l : Nat) : Dword :=
      let m := if imm then (e.imm.extractLsb' 0 5).toNat else ((g.srcB w false l).extractLsb' 0 32).toNat
      match shflSource (WellFormed.minorOf e).toNat e.imm act l m with
      | .lane j => cutTo e.t (g.srcA w e.t.wide j)
      | .own => cutTo e.t (g.srcA w e.t.wide l)
      | .zero => 0
    ((s.onGrp fun g => g.laneResult w.d.toNat w.nw e.t.wide false ((lanesOf act).map fun l => (l, value l))).done 8)

/-! ### vote and redux (R122, R124, R125) -/

/-- A cross-lane result written to s(d), with zero in the latch (R122). -/
def State.putUniform (s : State) (d : Nat) (v : Dword) : State := (s.onGrp fun g => g.uniSet d v).pushZero

/-- The result of `vote` over an effective mask (R124). -/
def Group.vote (g : Group) (w : LaneShort) (e : EA) (m : Mask) : Dword :=
  let p := m &&& (g.predMask w.a.toNat ^^^ (if e.imm.getLsbD 0 then 0xFFFFFFFF#32 else 0))
  match (WellFormed.minorOf e).toNat with
  | 0 => p.setWidth 64
  | 1 => if p = 0 then 0 else 1
  | 2 => if p = m then 1 else 0
  | 3 => BitVec.ofNat 64 (lanesOf p).length
  | _ => cutTo e.t (g.srcA w e.t.wide (lowestLane m))

/-- VOTE (R124). -/
def execVote (w : LaneShort) (e : EA) (s : State) : Out :=
  lanes (if WellFormed.minorOf e = 4 then regsA w else []) w.g e.gn false 8 s fun m s =>
    (s.putUniform w.d.toNat (s.grp.vote w e m)).done 8

/-- One operation of R125 and R126 on patterns of an integer type: add, min, max, and, or, xor. -/
def combine (t : Ty) (sat : Bool) (op : Nat) (a b : Nat) : Nat :=
  let n := elemBits t
  let x := intOf n (intSigned t) a
  let y := intOf n (intSigned t) b
  match op with
  | 0 => intResult n (intSigned t) sat (x + y)
  | 1 => intWrap n (min x y)
  | 2 => intWrap n (max x y)
  | 3 => a &&& b
  | 4 => a ||| b
  | _ => a ^^^ b

/-- An integer reduction of the values of the active lanes (R125): `add` is exact before it is clamped or wrapped. -/
def reduceInt (t : Ty) (sat : Bool) (op : Nat) (xs : List Nat) : Nat :=
  let n := elemBits t
  if op = 0 then intResult n (intSigned t) sat (xs.foldl (fun a x => a + intOf n (intSigned t) x) (0 : Int))
  else
    match xs with
    | [] => 0
    | x :: rest => rest.foldl (combine t false op) x

/-- An integer result as s(d) takes it: sign-extended for signed add, min and max of 32 bits, else zero-extended. -/
def reduceExtend (t : Ty) (op : Nat) (v : Nat) : Dword :=
  if !t.wide && intSigned t && decide (op ≤ 2) then (BitVec.ofNat 32 v).signExtend 64 else BitVec.ofNat 64 v

/-- One level of the tree of `redux.add.f32` (R125) over nodes that each stand for `size / 2` lanes: `i` is the first
new node's number. Nodes over an active lane draw in turn. -/
def sumLevel (e : EA) (size : Nat) : Nat → Group → List (Option Nat) → Group × List (Option Nat)
  | i, g, a :: b :: rest =>
    let under := (List.range size).find? fun k => g.spl.mask.getLsbD (i * size + k)
    let draw := match under with | none => 0 | some k => lfsrDraw (g.lfsrGet (i * size + k))
    let env : FEnv := { g.env e false 0 0 with draw := draw }
    let f (p : Nat) : FVal := FKind.f32.flush env.ftz (FKind.f32.decode 0 p)
    let v := match a, b with
      | some x, some y => some (FKind.f32.round env (FVal.add (env.rnd == .rd) (f x) (f y)))
      | some x, none => some x
      | none, y => y
    let g' := match under with
      | none => g
      | some k => if g.stochastic e then g.drawLane 1 (i * size + k) else g
    let (h, vs) := sumLevel e size (i + 1) g' rest
    (h, v :: vs)
  | _, g, _ => (g, [])

/-- The sum of R125: five levels over 32 lanes; the group with its LFSRs advanced, and the pattern. -/
def Group.sumTree (g : Group) (e : EA) (leaves : List (Option Nat)) : Group × Nat :=
  let r := [2, 4, 8, 16, 32].foldl (fun (acc : Group × List (Option Nat)) size => sumLevel e size 0 acc.1 acc.2) (g, leaves)
  (r.1, ((r.2.headD none)).getD 0)

/-- The minimum or maximum of f32 values under R112. DESIGN CHOICE (log 138): R125 gives no order of combination, which
shows where every value is a NaN: the lowest lane's NaN is the result. -/
def Group.pickLanes (g : Group) (max : Bool) (xs : List Nat) : Nat :=
  let f (p : Nat) : FVal := FKind.f32.flush (modeFtz g.mode) (FKind.f32.decode 0 p)
  match xs with
  | [] => 0
  | x :: rest => FKind.f32.round g.exactEnv (rest.foldl (fun a p => FVal.pick max a (f p)) (f x))

/-- REDUX (R125). -/
def execRedux (w : LaneShort) (e : EA) (s : State) : Out :=
  let op := (WellFormed.minorOf e).toNat
  lanes (regsA w) w.g e.gn false 8 s fun m s =>
    let g := s.grp
    let xs := (lanesOf m).map fun l => elemOf e.t (g.srcA w e.t.wide l) 0
    if e.t = .f32 then
      if op = 0 then
        let leaves := (List.range 32).map fun l => if m.getLsbD l then some (elemOf .f32 (g.srcA w false l) 0) else none
        let r := g.sumTree e leaves
        (({ s with grp := r.1 } : State).putUniform w.d.toNat (BitVec.ofNat 64 r.2)).done 8
      else (s.putUniform w.d.toNat (BitVec.ofNat 64 (g.pickLanes (op == 2) xs))).done 8
    else (s.putUniform w.d.toNat (reduceExtend e.t op (reduceInt e.t e.sat op xs))).done 8

/-! ### scan (R126) -/

/-- The identity of a scan operation. -/
def scanIdentity (t : Ty) (op : Nat) : Nat :=
  let n := elemBits t
  match op with
  | 1 => intWrap n (intMax n (intSigned t))
  | 2 => intWrap n (intMin n (intSigned t))
  | 3 => 2 ^ n - 1
  | _ => 0

/-- The results of a scan over lanes with their values, from an accumulator. -/
def scanFrom (t : Ty) (sat incl : Bool) (op : Nat) : Nat → List (Nat × Nat) → List (Nat × Dword)
  | _, [] => []
  | acc, (l, x) :: rest =>
    let acc' := combine t sat op acc x
    (l, BitVec.ofNat 64 (if incl then acc' else acc)) :: scanFrom t sat incl op acc' rest

/-- SCAN (R126). -/
def execScan (w : LaneShort) (e : EA) (s : State) : Out :=
  let g := s.grp
  let op := (e.imm.extractLsb' 8 4).toNat
  lanes (regsD w ++ regsA w) w.g e.gn false 8 s fun m s =>
    let start := if w.sk = 3 then elemOf e.t (g.uniGet w.b.toNat) 0 else scanIdentity e.t op
    let xs := (lanesOf m).map fun l => (l, elemOf e.t (g.srcA w e.t.wide l) 0)
    let rs := scanFrom e.t e.sat (WellFormed.minorOf e == 0) op start xs
    ((s.onGrp fun g => g.laneResult w.d.toNat w.nw e.t.wide false rs).done 8)

end Sys2Proof.Machine
end

