-- ==== Sys2Proof/Machine/Idle.lean ====
section
/-!
DEFINITION. What happens by itself when no split can issue, and how an instruction is placed for the next step.
-/
namespace Sys2Proof.Machine

/-- The events of one group that may happen by themselves. -/
def Group.candidates (g : Group) : List Instr :=
  [.memoryResponse g.gid, .resultWriteback g.gid, .tileTransferComplete g.gid, .rkcfgComplete g.gid
  , .thrUpdate g.gid, .gpkFill g.gid, .handlerEntry g.gid]
  ++ g.frames.map fun f => .fillComplete g.gid f.1

/-- The events of one engine. -/
def engineCandidates (k : Nat) (e : Engine) : List Instr :=
  let c := k / 2
  let n := k % 2
  [.matrixStepAccept c n, .matrixStepStart c n, .matrixStepWrite c n [], .finPhaseEnd c n, .mergeAccept c n, .mergeComplete c n]
  ++ e.tiles.flatMap fun t => [.tileClearDone c n t.1, .tokenHandoff c n t.1, .tokenGrant c n t.1]

/-- The events that may happen by themselves as soon as what they wait for holds, in the order in which the model tries them
(log 13). -/
def State.prompt (s : State) : List Instr :=
  (s.groups.flatMap Group.candidates) ++ ((s.flights.map fun f => f.gid).eraseDups.map .writeAck) ++ (s.engines.flatMap fun e => engineCandidates e.1 e.2)
  ++ (s.usedSubs.flatMap fun u => [.frameGrant (u / 8) (u % 8), .evictionComplete (u / 8) (u % 8)])
  ++ (s.assay.flatMap fun a => [.assayAccept a.1, .assayComplete a.1])
  ++ (s.relwin.map fun r => .releaseWindowPerform r.1) ++ (s.copies.map fun c => .copyComplete c.1)
  ++ (s.parkedAccesses.map fun p => .translationWalk p.tag) ++ (s.markers.map fun m => .clockMarker m.src m.dst)
  ++ (s.walks.map fun w => .taskDecrement w.die)
  ++ ((s.queues.map fun q => q.2.home).eraseDups.flatMap fun d => [.faultRecordWrite d, .deferAppend d])
  ++ (s.queues.flatMap fun q => [.nodeRecordArrival q.1, .nodeReserve q.1])
  ++ (s.queues.filterMap fun q => if q.2.dirty then some (.qcbWriteback q.1) else none)
  ++ s.teams.flatMap fun t => [.preemptComplete t.1, .teamCompletionCount t.1]

/-- The escape spill engines whose requests have waited long enough (R185). -/
def State.eseTriggers (s : State) : List Instr := s.usedSubs.map fun u => .eseTrigger (u / 8) (u % 8)

/-- The events that only time brings about: the model lets them happen when nothing else can. -/
def State.timeouts (s : State) : List Instr :=
  (s.teams.flatMap fun t => [.saveTimeout t.1, .timeSliceExpiry t.1]) ++ s.eseTriggers
  ++ s.groups.flatMap fun g => g.splits.map fun p => .parkTimeout g.gid p.num

/-- The first of some events that changes the state, and what it leads to. -/
def firstChange (run : Instr → State → Out) (s : State) : List Instr → Option Out
  | [] => none
  | i :: rest =>
    match run i s with
    | .next t => if t = s then firstChange run s rest else some (.next t)
    | o => some o

/-! ### Placing an instruction (log 12) -/

/-- The root frame of a placed group: 64 registers. -/
def placedFrame : Frame :=
  { fn := 0, dep := 0, pfn := 0, rpc := 0, kc := 0, fc := 7, ovll := false, res := true
    gmap := [0, 1, 2, 3, 4, 5, 6, 7], regs := [] }

/-- The group that runs a placed instruction: group 0 of team 0, all lanes in one split at 0x1000. -/
def Group.placed (g : Group) : Group :=
  { g with gid := 0, core := 0, sc := 0, frames := [(0, placedFrame)], parked := false, stopped := false, handler := none
           attached := false, stepping := none, pend := [], specials := [], sibs := []
           spl := { g.spl with num := 0, pc := 0x1000, mask := 0xFFFFFFFF#32, chain := [0], dstack := [], status := .run } }

/-- The team of the placed group: a grid launch of one group on core 0, with no fault handler. -/
def placedTeam : Team :=
  { key := 0, ctx := 0, lk := 0, prio := 0, tag := 0, qkey := 0, bound := none, bare := [], ptr := 0, number := 0, core := 0, ng := 1, subs := [0]
    kdescAddr := 0, kdesc := 0, binds := [], members := [], cluster := 0, cw := 1, ch := 1, rank := 0, tmBase := 0, tmSize := 0
    barBase := 0, barCount := 0, cbarBase := 0, cbarCount := 0, tile0 := 0, tiles := 0, ctr := 0, slice := 0, image := 0
    privs := [], spill := 0, software := false
    phase := .running, phaseAt := 0, reason := 0, placedAt := 0
    saved := [], savedTiles := [], parkedAt := []
    savedQueues := [], savedClocks := [], pendingOps := [] }

/-- An open context of partition 0 whose page tables begin at 0x200000. -/
def placedContext : Context :=
  { tbase := 0x200000, drain := 0, cfqv := false, cfq := 0, st := 1, gen := 0, vf := 0, part := 0, pasid := 0, since := 0 }

/-- The state in which the next step fetches the given bytes as an instruction: context 0 maps its first GiB onto device
memory, whose section is ready, and the placed group is about to issue at 0x1000, where the bytes lie. -/
def State.placed (s : State) (bs : List Byte) : State :=
  { s with
    agenda := [], sched := [], turn := 16 * (s.turn / 16), powered := true, breakpoints := [], grp := s.grp.placed, others := []
    teams := [(0, placedTeam)]
    contexts := insertKey s.contexts 0 placedContext
    partRegs := Sparse.set 0 s.partRegs 0 0
    devRegs := Sparse.set 0 s.devRegs 0x218 (Sparse.get 0 s.devRegs 0x218 ||| 1)
    mem := ((s.mem.store 0x1000 bs).store 0x200000 (leBytes 8 0x400001)).store 0x400000 (leBytes 8 0xF) }

end Sys2Proof.Machine
end

