-- ==== Sys2Proof/Machine/Items.lean ====
section
/-!
DEFINITION. Relabelling, the item instruction, group-packer fills and the queue controllers' work on items (R218 to R229,
R314).
-/
namespace Sys2Proof.Machine

/-! ### relbl (R218 to R220) -/

/-- A granted relabel of a lane's item of an open queue: its lock or slot in the old flow is given up, and the new class
takes its sequence or its lock (R219). Before a lock is released the group's writes reach the die (R213); `relbl` itself never
waits. -/
def State.relabelTo (s : State) (q : Queue) (l : Nat) (it : Item) (flow : Word) (nc : Nat) : State :=
  let dest := q.entry (descWith it.desc flow nc 0)
  let same := nc = 2 ∧ it.lock = some dest
  let s := if descClass it.desc = 1 then s.resolveSlot (s.itemEntry it) (descSeq it.desc) else s
  let s := match it.lock with
    | none => s
    | some k => if same then s else (s.release .die).unlock k
  let (s, d) := s.sequenced q (descWith it.desc flow nc 0)
  let s := if nc = 2 then (s.takeLock dest).l1Invalidate s.grp.core else s
  s.onGrp fun g => { g with items := insertKey g.items l { it with desc := d, lock := if nc = 2 then some dest else none } }

/-- The QC's answer to one lane's relabel request (R219, R220). -/
def State.relabel (s : State) (l : Nat) (flow : Word) (nc : Nat) : State × Bool :=
  match s.grp.item l with
  | none => (s, false)
  | some it =>
    let cls := descClass it.desc
    if descFlow it.desc = flow ∧ cls = nc then (s, true)
    else
      match lookupKey s.queues it.qkey with
      | none =>
        if nc = 0 then
          (s.onGrp fun g => { g with items := insertKey g.items l { it with desc := descWith it.desc flow 0 0 } }, true)
        else (s, false)
      | some q =>
        let dest := q.entry (descWith it.desc flow nc 0)
        let inTurn := cls ≠ 1 ∨ (s.lock (s.itemEntry it)).point = descSeq it.desc
        let free := nc ≠ 2 ∨ (s.lock dest).held = false ∨ it.lock = some dest
        if inTurn ∧ free then (s.relabelTo q l it flow nc, true) else (s, false)

/-- The requests of some lanes in ascending order: the mask of the grants. -/
def State.relabelLanes (s : State) (flow : Nat → Word) (nc : Nat) : List Nat → State × Mask
  | [] => (s, 0)
  | l :: rest =>
    let (s, b) := s.relabel l (flow l) nc
    let (s, m) := State.relabelLanes s flow nc rest
    (s, if b then m ||| laneBit l else m)

/-- RELBL (R218 to R220). -/
def execRelbl (w : LaneShort) (e : EA) (s : State) : Out :=
  lanes (regsA w) w.g e.gn false 8 s fun m s =>
    let g := s.grp
    let flow (l : Nat) : Word := (g.srcA w false l).extractLsb' 0 32
    let (s, r) := s.relabelLanes flow (e.imm.extractLsb' 0 2).toNat (lanesOf m)
    (s.lanePred w.d.toNat m r).pushZero.done 8

/-! ### item (R221 to R224) -/

/-- The lanes of a mask that hold an item. -/
def Group.holding (g : Group) (m : Mask) : List Nat := (lanesOf m).filter fun l => (g.item l).isSome

/-- An item instruction of the memory pipe: it stands behind another split's ordering point (R266), and where `rel` it waits at
order_point(.die) (R213, R221). -/
def State.itemOrder (s : State) (rel : Bool) (body : State → Out) : Out :=
  if !s.pipeOpen then s.stay .behind
  else if !rel then body s
  else if s.atOrder .die then body (s.release .die)
  else s.stay .order

/-- ITEM_DONE (R221). -/
def execItemDone (w : LaneShort) (e : EA) (s : State) : Out :=
  lanes [] w.g e.gn false 8 s fun m s =>
    s.itemOrder (s.grp.orders m) fun s => (s.completeLanes m).pushZero.done 8

/-- ITEM_SKIP (R222). -/
def execItemSkip (w : LaneShort) (e : EA) (s : State) : Out :=
  lanes [w.a.toNat, w.b.toNat] w.g e.gn false 8 s fun m s =>
    s.itemOrder false fun s => withHandle s (s.grp.uniGet e.c.toNat) rightsDeq m fun k _ =>
      let s := (lanesOf m).foldl (fun s l => s.skipParked k (s.grp.laneGet w.a.toNat l) (s.grp.laneGet w.b.toNat l)) s
      s.pushZero.done 8

/-- The lanes of a group that no split holds, active or deferred (R205). -/
def Group.vacant (g : Group) : Mask :=
  ~~~(g.splits.foldl (fun m p => p.dstack.foldl (fun m d => m ||| d.mask) (m ||| p.mask)) 0)

/-- The target lanes of an `item.yield` (R223). -/
def Group.yieldTargets (g : Group) (m : Mask) (unguarded : Bool) : Mask :=
  let empty := maskOf ((lanesOf m).filter fun l => (g.item l).isNone)
  if unguarded && (g.sibs.filter fun p => p.mask != 0).isEmpty then empty ||| g.vacant else empty

/-- ITEM_YIELD (R223): at once in a grid launch, in a node launch after its first fill (log 15), and without target lanes;
else the split's request joins those at the QC. -/
def execItemYield (w : LaneShort) (e : EA) (s : State) : Out :=
  lanes [] w.g e.gn false 8 s fun m s => s.itemOrder false fun s =>
    let g := s.grp
    let t := g.yieldTargets m (w.g == 0 && !e.gn)
    let holds := maskOf (g.holding 0xFFFFFFFF#32)
    match g.queue with
    | none => (s.lanePred w.d.toNat m holds).pushZero.done 8
    | some k =>
      if t = 0 || s.isNode g.gid || (lookupKey s.queues k).isNone then
        (s.lanePred w.d.toNat m holds).pushZero.done 8
      else
        let r : FillReq := { gid := g.gid, sp := g.spl.num, pred := w.d.toNat, eff := m, targets := t, len := 8 }
        .next (((s.requestFill k r).waitFor .yield).serveFill k)

/-- The descriptors of some lanes' items moved to the tail of a queue (R224). -/
def State.deferLanes (s : State) (k : Nat) (ls : List Nat) : State :=
  ls.foldl
    (fun s l =>
      match s.grp.item l with
      | none => s
      | some it =>
        let s := s.discardHeld s.grp.core s.grp.gid l it
        let s := match it.lock with
          | none => s
          | some e => s.unlock e
        (s.appendOrHold k it.desc).onGrp fun g => g.dropItem l)
    s

/-- ITEM_DEFER (R224). A software ring, whose TAIL moves only by NOTIFY, accepts none (log 16). DESIGN CHOICE (log 139): check
4 of R305 refers to R310, which says nothing of `item.defer`; every KIND of queue accepts it. -/
def execItemDefer (w : LaneShort) (e : EA) (s : State) : Out :=
  lanes [] w.g e.gn false 8 s fun m s =>
    withHandle s (s.grp.uniGet e.c.toNat) rightsEnq m fun k q =>
      match (s.grp.queue).bind (lookupKey s.queues) with
      | none => s.faultIn causeProtection m
      | some b =>
        if q.home ≠ b.home ∨ q.pasid ≠ b.pasid ∨ q.closed ∨ q.swr then s.faultIn causeProtection m
        else
          s.itemOrder ((s.grp.holding m).any fun l => ((s.grp.item l).bind (·.lock)).isSome) fun s =>
            (s.deferLanes k (s.grp.holding m)).pushZero.done 8

/-! ### The controllers' own events -/

/-- GPK_FILL (R210): the queue of a group serves the fills requested of it. -/
def execGpkFill (gid : Nat) (s : State) : Out :=
  match (s.group? gid).bind (·.queue) with
  | none => .next s
  | some k => .next (s.serveFill k)

/-- A block of a lock entry for the items of a queue, as its mark and since when it blocks (R229): the unresolved slot at the
release point, or a parked item whose lock keeps an item of the queue from being packed. -/
def State.blocks (s : State) (die entry : Nat) (q : Queue) : List (Nat × Nat) :=
  let e := s.lock entry
  let slot := if e.point = e.next then [] else [(2 * e.since, e.since)]
  let atHead : Bool := decide (256 ≤ q.held.length) &&
    match (s.slotRecord q q.head).2 with
    | none => false
    | some bs => decide (q.entry (BitVec.ofNat 128 (leNat (bs.take 16))) = entry)
  let kept := atHead || q.held.any fun it => descClass it.desc == 2 && q.entry it.desc == entry
  let locks := if kept then (s.parkedTable die).filter fun p => p.lock == some entry else []
  slot ++ locks.map fun p => (2 * max p.since e.waited + 1, max p.since e.waited)

/-- The stall interval of a queue in ns (R303): units of 10 µs, 0 for 10 ms. -/
def Queue.stallTime (q : Queue) : Nat := if q.stall = 0 then 10000000 else q.stall * 10000

/-- STALL (R229) for a lock entry of a die's QC, under the interval of a queue whose home that is (log 140): posted once for
each slot or lock that has blocked for the interval. -/
def execStall (die entry qkey : Nat) (s : State) : Out :=
  match lookupKey s.queues qkey with
  | none => .next s
  | some q =>
    let due := (s.blocks die entry q).find? fun b =>
      decide (b.2 + q.stallTime ≤ s.postmark.toNat) && !(s.lock entry).posted.contains b.1
    match due with
    | none => .next s
    | some b =>
      if q.home ≠ die ∨ entry / 65536 ≠ die then .next s
      else
        let s := s.onLock entry fun e => { e with posted := e.posted ++ [b.1] }
        .next (s.postEvent q.part 1 (dieSource die 0) (BitVec.ofNat 64 (qnumOf qkey)) (BitVec.ofNat 64 (entry % 65536)))

/-- The open queues of a die. -/
def State.queuesOf (s : State) (die : Nat) : List Nat := (s.queues.filter fun e => e.2.home == die).map (·.1)

/-- FAULT_RECORD_WRITE (R314): the fault records that wait at a die's QC are written as far as there is room. -/
def execFaultRecordWrite (die : Nat) (s : State) : Out :=
  .next ((s.queuesOf die).foldl
    (fun s k => s.drainRecords k (((lookupKey s.queues k).map fun q => q.records.length).getD 0)) (s.parkWaiting die))

/-- DEFER_APPEND (R224): the descriptors that wait at a die's QC are appended as far as there is room. -/
def execDeferAppend (die : Nat) (s : State) : Out := .next ((s.queuesOf die).foldl State.settleQueue s)

end Sys2Proof.Machine
end

