-- ==== Sys2Proof/Machine/Logs.lean ====
section
/-!
DEFINITION. Routing logs and pipes (R329, R330).
-/
namespace Sys2Proof.Machine

/-! ### Runs of memory in pieces of 16 bytes -/

/-- `16 n` bytes from a 16-aligned address of a space, piece by piece. -/
def State.runPlaces (s : State) (k : Access) (sp : Space) (a : Dword) (n : Nat) : List Place :=
  (List.range n).map fun i => s.place k sp 0 (a + BitVec.ofNat 64 (16 * i)) 16

/-- Pieces read at their homes: what is visible at `.sys`. -/
def State.readHome (s : State) (ps : List Piece) : State × List Byte :=
  ps.foldl
    (fun acc p =>
      let (s, bs) := (acc.1.touch p.entry .read).coreLoad acc.1.grp.core false p.loc p.len
      (s, acc.2 ++ bs))
    (s, [])

/-! ### Routing logs (R329) -/

/-- A log descriptor and the slot that S[b] names: the descriptor's fields, m, l and the slot number s. -/
structure LogSlot where
  state : Dword
  data : Dword
  esz : Nat
  m : Word
  deriving DecidableEq, Repr

/-- The slot of micro-batch m and layer l of a descriptor; none where R329 gives PROTECTION for its fields. -/
def logSlot (d : BitVec 256) (sb : Dword) : Option LogSlot :=
  let nl := (d.extractLsb' 80 16).toNat
  let logmb := (d.extractLsb' 72 8).toNat
  let esz := (d.extractLsb' 96 32).toNat
  let m : Word := sb.extractLsb' 0 32
  let l := (sb.extractLsb' 32 16).toNat
  if d.extractLsb' 0 72 ≠ 0 ∨ m = 0xFFFFFFFF ∨ nl ≤ l ∨ 12 < logmb ∨ esz < 16 ∨ 4096 < esz ∨ esz % 16 ≠ 0 then none
  else
    let i := m.toNat % 2 ^ logmb * nl + l
    some { state := d.extractLsb' 192 64 + BitVec.ofNat 64 (8 * i), data := d.extractLsb' 128 64 + BitVec.ofNat 64 (esz * i)
           esz := esz, m := m }

/-- The descriptor read, its fields and addresses checked, and the state word read at its home (R329); `k` says whether the
instruction may write that word. -/
def withLogSlot (k : Access) (w : UniShort) (s : State) (body : LogSlot → List Piece → Dword → State → Out) : Out :=
  let a := s.grp.uniGet w.a.toNat
  let mask := s.grp.spl.mask
  if a.toNat % 32 ≠ 0 then s.fault causeMisaligned
  else
    s.gatherGroup .read mask (s.runPlaces .read .global a 2) fun s rows =>
      let (s, bs) := s.readHome (rows.flatMap id)
      match logSlot (BitVec.ofNat 256 (leNat bs)) (s.grp.uniGet w.b.toNat) with
      | none => s.fault causeProtection
      | some sl =>
        if sl.state.toNat % 8 ≠ 0 ∨ sl.data.toNat % 16 ≠ 0 then s.fault causeMisaligned
        else
          s.gatherGroup k mask [s.globalRun k sl.state.toNat 8] fun s rows =>
            let ps := rows.flatMap id
            let (s, bs) := s.readHome ps
            body sl ps (BitVec.ofNat 64 (leNat bs)) s

/-- The state word that says micro-batch m occupies a slot. -/
def LogSlot.mark (sl : LogSlot) : Dword := sl.m.setWidth 64 + 1

/-- RLOG_PUSH (R329). -/
def execRlogPush (w : UniShort) (e : EA) (s : State) : Out :=
  uniform w.g e.gn 8 s fun s =>
    let src := s.grp.uniGet e.c.toNat
    if src.toNat % 16 ≠ 0 then s.fault causeMisaligned
    else
      withLogSlot .write w s fun sl st v s =>
        if v = sl.mark then s.fault causeProtection
        else if v ≠ 0 then s.stay .ring
        else
          let mask := s.grp.spl.mask
          s.gatherGroup .read mask (s.runPlaces .read .global src (sl.esz / 16)) fun s from_ =>
            s.gatherGroup .write mask (s.runPlaces .write .global sl.data (sl.esz / 16)) fun s dest =>
              let ps := dest.flatMap id
              let n := writeLines [(0, ps)] + 1
              if !s.atOrder .sys then s.stay .order
              else if !s.ackRoom n then s.stay .order
              else
                let (s, bs) := s.loadPieces (from_.flatMap id)
                let s := ((s.storeBytes ps bs).release .sys).storeBytes st (leBytes 8 sl.mark.toNat)
                ((s.countLanded [(0, ps)]).countLandedFrom (n - 1) [(0, st)]).done 8

/-- RLOG_GET (R329). -/
def execRlogGet (w : UniShort) (e : EA) (s : State) : Out :=
  uniform w.g e.gn 8 s fun s =>
    withLogSlot .read w s fun sl _ v s =>
      if v ≠ sl.mark then s.stay .ring
      else ((s.acquire .sys).onGrp fun g => g.uniSet w.d.toNat sl.data).done 8

/-- RLOG_RET (R329). -/
def execRlogRet (w : UniShort) (e : EA) (s : State) : Out :=
  uniform w.g e.gn 8 s fun s =>
    withLogSlot .write w s fun sl st v s =>
      if v ≠ sl.mark then s.fault causeProtection
      else if !s.atOrder .sys then s.stay .order
      else if !s.ackRoom 1 then s.stay .order
      else (((s.release .sys).storeBytes st (leBytes 8 0)).countLanded [(0, st)]).done 8

/-! ### Pipes (R330) -/

/-- A pipe as its header stands: the place of the header, and its fields. -/
structure PipeHead where
  at_ : List Piece
  head : Word
  tail : Word
  esz : Nat
  slots : Nat
  deriving DecidableEq, Repr

/-- The header of the pipe at S[a] read and checked, with the places of the buffer S[c] (R330). -/
def withPipe (w : UniShort) (e : EA) (k : Access) (s : State) (body : PipeHead → Dword → List Piece → State → Out) : Out :=
  let a := s.grp.uniGet w.a.toNat
  let buf := s.grp.uniGet e.c.toNat
  let mask := s.grp.spl.mask
  if a.toNat % 16 ≠ 0 ∨ buf.toNat % 16 ≠ 0 then s.fault causeMisaligned
  else
    s.gatherGroup .read mask [s.place .read .team 0 a 16] fun s rows =>
      let ps := rows.flatMap id
      let (s, bs) := s.loadPieces ps
      let h : PipeHead :=
        { at_ := ps, head := BitVec.ofNat 32 (fieldAt bs 0 4), tail := BitVec.ofNat 32 (fieldAt bs 4 4)
          esz := fieldAt bs 8 4, slots := 2 ^ fieldAt bs 12 1 }
      if h.slots < 2 ∨ 256 < h.slots ∨ h.esz < 16 ∨ 16384 < h.esz ∨ h.esz % 16 ≠ 0 then s.fault causeProtection
      else
        s.gatherGroup k mask (s.runPlaces k .team buf (h.esz / 16)) fun s rows => body h a (rows.flatMap id) s

/-- The places of the slot at a count. -/
def State.pipeSlot (s : State) (k : Access) (h : PipeHead) (p : Dword) (i : Word) : List Place :=
  s.runPlaces k .team (p + 16 + BitVec.ofNat 64 (h.esz * (i.toNat % h.slots))) (h.esz / 16)

/-- The 4-byte count of a header at an offset written. -/
def State.putCount (s : State) (h : PipeHead) (off : Nat) (v : Word) : State :=
  match h.at_ with
  | p :: _ => s.coreWrite s.grp.core (p.loc.plus off) (leBytes 4 v.toNat)
  | [] => s

/-- PIPE_SEND (R330). -/
def execPipeSend (w : UniShort) (e : EA) (s : State) : Out :=
  uniform w.g e.gn 8 s fun s =>
    withPipe w e .read s fun h p from_ s =>
      if h.slots ≤ (h.tail - h.head).toNat then s.stay .pipe
      else
        s.gatherGroup .write s.grp.spl.mask (s.pipeSlot .write h p h.tail) fun s dest =>
          let (s, bs) := s.loadPieces from_
          ((s.storeBytes (dest.flatMap id) bs).putCount h 4 (h.tail + 1)).done 8

/-- PIPE_RECV (R330). -/
def execPipeRecv (w : UniShort) (e : EA) (s : State) : Out :=
  uniform w.g e.gn 8 s fun s =>
    withPipe w e .write s fun h p dest s =>
      if h.tail = h.head then s.stay .pipe
      else
        s.gatherGroup .read s.grp.spl.mask (s.pipeSlot .read h p h.head) fun s from_ =>
          let (s, bs) := s.loadPieces (from_.flatMap id)
          (((s.storeBytes dest bs).putCount h 0 (h.head + 1)).acquire .team).done 8

end Sys2Proof.Machine
end

