-- ==== Sys2Proof/Machine/Preempt.lean ====
section
/-!
DEFINITION. Pre-emption and resumption of teams, time slices and completion (R151, R152, R203, R237, R345, R346, R370 to R374,
R376).
-/
namespace Sys2Proof.Machine

/-! ### Withdrawing what waits (R203, R370, R376) -/

/-- A split withdrawn with its PC at the instruction it waits in; a barrier wait keeps its record (R237), and `acc.free`,
`hcoh.flush` and an `unwind` whose frames are gone complete first (R376; log 135). -/
def Split.withdraw (p : Split) : Split :=
  match p.status with
  | .waiting .barrier | .waiting (.freeing _) | .waiting .flush => p
  | .fillWait => if p.cont.isSome then p else { p with status := .run }
  | .waiting _ | .again | .frameWait => { p with status := .run }
  | _ => p

/-- The splits that wait for a configuration complete it (R376). -/
def Group.finishConfigs (g : Group) : Group :=
  let mine (p : Split) : Bool :=
    p.status == .waiting .engine && g.counters.any fun o => o.cls == configClass && o.id == p.num
  { (g.onSplits fun p => if mine p then { p with pc := p.pc + 8, status := .run } else p) with
    counters := g.counters.filter fun o => o.cls != configClass }

/-- A tile for which no group of a team waits any more (R376): a token that was to come to one passes on. -/
def Tile.withdraw (t : Tile) (team : Nat) : Tile :=
  let t := { t with waiters := t.waiters.filter fun w => teamOf w.1 != team }
  match t.token with
  | .waiting g _ => if teamOf g = team then t.pass else t
  | _ => t

/-- What an engine has not accepted of a team withdrawn: dispatched instructions, merges, sides of pair steps (R151). -/
def Engine.withdraw (e : Engine) (team : Nat) : Engine :=
  let side (st : MatStep) : Bool := st.partner.isSome && !st.joined && teamOf st.lead.gid == team
  { e with
    tiles := e.tiles.map fun t => (t.1, t.2.withdraw team)
    ports := e.ports.filter fun d => teamOf d.gid != team
    mergesWaiting := e.mergesWaiting.filter fun m => teamOf m.gid != team
    steps := e.steps.filter fun st => !side st
    pairStep := e.pairStep - (e.steps.filter side).length }

/-- A split of a group, a frozen one too, has an `unwind` to end. -/
def State.unwinds (s : State) (gid sp : Nat) : Bool :=
  match s.group? gid with
  | none => false
  | some g => g.allSplits.any fun p => p.num == sp && p.cont.isSome

/-- Everything of a team that waits withdrawn. -/
def State.withdrawTeam (s : State) (key : Nat) : State :=
  let s :=
    { s with
      engines := s.engines.map fun (e : Nat × Engine) => (e.1, e.2.withdraw key)
      requests := s.requests.filter fun r => teamOf r.gid != key || s.unwinds r.gid r.sp
      assay := s.assay.map fun (a : Nat × List AssayReq) => (a.1, a.2.filter fun r => r.accepted || teamOf r.gid != key)
      parkedAccesses := s.parkedAccesses.filter fun p => teamOf p.gid != key }
  s.onGroups fun g => if teamOf g.gid = key then g.finishConfigs.onSplits Split.withdraw else g

/-! ### Ordering a pre-emption (R370, R371) -/

/-- Every lane of a group that is not vacant. -/
def Group.heldLanes (g : Group) : Mask := g.splits.foldl (fun m p => m ||| p.lanesHeld) 0

/-- A group enters its save routine (R357, R370), with the chain of its lowest split; `%cause` names split 0 (R355). -/
def State.enterSave (s : State) (gid : Nat) : State :=
  match s.group? gid with
  | none => s
  | some g =>
    match g.ranked with
    | [] => s
    | p :: _ =>
      s.within gid p.num fun s =>
        let (target, fc) := handlerOf g.kdesc 1
        s.enterHandler (causeWord none 0 0 causePreempt) p.pc
          [p.pc, 0, g.heldLanes.setWidth 64, s.postmark, 0, BitVec.ofNat 64 (s.groupImageOf gid)]
          g.heldLanes p.chain 0 target fc

/-- A group saves itself in software (R371) and has still to enter its routine: its team is a software-saving one and it is
neither in handler mode nor parked. -/
def Group.savesItself (t : Team) (g : Group) : Bool := t.software && g.handler.isNone && !g.parked && g.heldLanes != 0

/-- An `acc.free` of a split can end (R376): the tile is cleared and its accepted steps have written, but for steps behind the
team's own token, for which it issues again. -/
def State.freeReady (s : State) (g : Group) (p : Split) : Bool :=
  match p.status with
  | .waiting (.freeing t) =>
    let k := g.engineKey
    !((s.engine k).tile t).clearing
    && ((s.engine k).steps.filter fun st => st.lead.e.tile.toNat == t).all fun st => s.stuckStep k st
  | _ => true

/-- What pre-emption lets finish in a group before it is saved (R203, R376): evictions, fills, unwinds, `hcoh.flush`,
`acc.rel`, `acc.free`. -/
def State.settled (s : State) (g : Group) : Bool :=
  !(s.evicting.any fun e => e.gid == g.gid)
  && (g.frames.all fun f => f.2.res || f.2.gmap.isEmpty)
  && (g.allSplits.all fun p => p.cont.isNone && p.status != .waiting .flush && s.freeReady g p)
  && (List.range 16).all fun i => ((s.engine g.engineKey).tile i).token != .releasing g.gid

/-- A wait in `acc.free` ended (R376): the tile's accepted steps have written and the instruction completes; where one of them
waits behind the team's own token, it issues again on resumption. -/
def State.finishFree (s : State) (gid : Nat) (p : Split) : State :=
  match p.status, s.group? gid with
  | .waiting (.freeing t), some g =>
    let k := g.engineKey
    let stuck := (s.engine k).steps.any fun st => st.lead.e.tile.toNat == t
    let s := if stuck then s else s.onEngine k fun x => { x with tiles := eraseKey x.tiles t }
    let q := if stuck then { p with status := .run } else { p with pc := p.pc + 8, status := .run }
    s.onGroup gid fun g => g.onSplits fun x => if x = p then q else x
  | _, _ => s

/-- Every wait of a group in `acc.free` ended. -/
def State.finishFrees (s : State) (gid : Nat) : State :=
  match s.group? gid with
  | none => s
  | some g => g.splits.foldl (fun s p => s.finishFree gid p) s

/-- The writes of a group that are still to land, landed in its registers. -/
def State.landPending (s : State) (gid n : Nat) : State :=
  s.within gid n fun s => s.landSpecials.onGrp fun g => { g with pend := [] }

/-- The image of a parked group written once it has drained, and the records of the two faults (R291, R359). -/
def State.finishPark (s : State) (g : Group) : State :=
  if !s.drained g true || !s.settled g then s
  else
    let s := s.landPending g.gid g.spl.num
    let base := s.groupImageOf g.gid
    let s := (s.saveGroup g.gid base).getD (s.haltSoon (s.partition g.gid) causeSpill)
    let s := s.onTeam (teamOf g.gid) fun tm => { tm with parkedAt := insertKey tm.parkedAt (g.gid % 32) base }
    (s.onGroup g.gid fun g => { g with parkRecs := [] }).groupRecords g.gid g.parkRecs

/-- A group of a team that is being saved enters its save routine once it has settled. -/
def State.startRoutine (s : State) (g : Group) : State :=
  if s.settled g then (s.finishFrees g.gid).enterSave g.gid else s

/-- HANDLER_ENTRY (R357, R359, R370): the handler context's frame is granted when its request heads the queue and enough
granules are free; the image of a group that has been parked is written; a group that has to save itself enters its routine. -/
def execHandlerEntry (gid : Nat) (s : State) : Out :=
  match s.group? gid with
  | none => .next s
  | some g =>
    if !g.parkRecs.isEmpty then .next (s.finishPark g)
    else if s.saving gid && ((s.team? (teamOf gid)).any fun t => g.savesItself t) then .next (s.startRoutine g)
    else
      match s.requests.find? fun r => r.sub == g.sub with
      | none => .next s
      | some r => if r.gid = gid ∧ g.handler.isSome then execFrameGrant g.core g.sc s else .next s

/-- A team begins to be saved: its waits are withdrawn, and its groups that have settled enter their save routines where it is
saved in software. -/
def State.beginSave (s : State) (reason key : Nat) : State :=
  let s := (s.onTeam key fun t => { t with phase := .saving, phaseAt := s.postmark.toNat, reason := reason }).withdrawTeam key
  match s.team? key with
  | none => s
  | some t => ((s.teamGroups key).filter fun g => g.savesItself t).foldl State.startRoutine s

/-- The running teams of a cluster. -/
def State.clusterOfTeams (s : State) (cluster : Nat) (ph : Phase) : List Nat :=
  ((s.teams.map (·.2)).filter fun t => t.cluster == cluster && t.phase == ph).map (·.key)

/-- A team pre-empted, with every team of its cluster (R151, R345). -/
def State.preempt (s : State) (key reason : Nat) : State :=
  match s.team? key with
  | none => s
  | some t =>
    if t.phase ≠ .running then s else (s.clusterOfTeams t.cluster .running).foldl (fun s k => s.beginSave reason k) s

/-- The time a team may run without a break is over (R338, R345). -/
def State.sliceOver (s : State) (t : Team) : Bool :=
  t.slice != 0 && decide (t.placedAt + 100000 * t.slice ≤ s.postmark.toNat)

/-! ### The team image (R372) -/

/-- The token byte of a tile: 0 MATRIX, 1 to 32 held by a group. -/
def Token.byte : Token → Nat
  | .held g => g % 32 + 1
  | _ => 0

/-- A token byte read back. -/
def Token.ofByte (team b : Nat) : Token := if b = 0 then .matrix else .held (32 * team + (b - 1) % 32)

/-- The 32 bytes of a list binding of engine `e` (0 or 1). -/
def Binding.bytes (e : Nat) (b : Binding) : List Byte :=
  padTo 32 (leBytes 1 e ++ leBytes 1 b.lt ++ leBytes 1 b.st ++ leBytes 1 b.cap ++ leBytes 1 b.vt
    ++ leBytes 1 (match b.dom with | none => 0 | some d => 16 + d) ++ zeroBytes 2 ++ leBytes 4 b.cbase.toNat
    ++ leBytes 4 b.cstep.toNat)

/-- A list binding read back. -/
def Binding.ofBytes (team : Nat) (bs : List Byte) : Binding :=
  let d := fieldAt bs 5 1
  { team := team, lt := fieldAt bs 1 1, st := fieldAt bs 2 1, cap := fieldAt bs 3 1, vt := fieldAt bs 4 1
    cbase := BitVec.ofNat 32 (fieldAt bs 8 4), cstep := BitVec.ofNat 32 (fieldAt bs 12 4)
    dom := if d / 16 = 1 then some (d % 16) else none }

/-- The 16 bytes of a domain entry. -/
def Domain.bytes (d : Domain) : List Byte :=
  padTo 16 ((match d.kind with
    | none => zeroBytes 3
    | some k => leBytes 1 1 ++ leBytes 1 k.1 ++ leBytes 1 k.2)
  ++ (match d.top with
    | none => zeroBytes 13
    | some t => leBytes 1 1 ++ zeroBytes 4 ++ leBytes 4 t.1.toNat ++ leBytes 4 t.2.toNat))

/-- A domain entry read back. -/
def Domain.ofBytes (bs : List Byte) : Domain :=
  { kind := if fieldAt bs 0 1 = 1 then some (fieldAt bs 1 1, fieldAt bs 2 1) else none
    top := if fieldAt bs 3 1 = 1 then some (BitVec.ofNat 32 (fieldAt bs 8 4), BitVec.ofNat 32 (fieldAt bs 12 4)) else none }

/-- The engines of a team's core. -/
def Team.engineKeys (t : Team) : List Nat := [2 * t.core, 2 * t.core + 1]

/-- The list bindings of a team with their engine. -/
def State.teamBindings (s : State) (t : Team) : List (Nat × Binding) :=
  t.engineKeys.flatMap fun k => ((s.engine k).bindingsOf t.key).map fun b => (k % 2, b)

/-- The domain entries of a team's cluster as they stand when the team is saved: those that RDOM names, every other one empty
(R403). Every team of a cluster saves them, so that publications of its last one are not lost (R174). -/
def State.domainBytes (s : State) (t : Team) : List Byte :=
  (List.range 16).flatMap fun d =>
    if (needRdom t.kdesc).getLsbD d then (s.domain (domainKey t.cluster d)).bytes else zeroBytes 16

/-- The header of a team image, whose inner places the spec leaves open (log 17). -/
def State.teamHeader (s : State) (t : Team) (pending : Nat) : List Byte :=
  let bs := s.teamBindings t
  leBytes 8 t.kdescAddr.toNat ++ leBytes 4 t.ng ++ leBytes 1 t.prio ++ leBytes 1 (if t.software then 1 else 0) ++ zeroBytes 2
  ++ leBytes 8 s.postmark.toNat ++ leBytes 4 pending ++ leBytes 4 bs.length
  ++ (t.engineKeys.flatMap fun k => (List.range 16).flatMap fun i =>
      leBytes 1 (if ((s.engine k).tile i).team = some t.key then ((s.engine k).tile i).token.byte else 0))
  ++ padTo 0x3C0 (bs.flatMap fun b => b.2.bytes b.1) ++ padTo 0x400 (s.domainBytes t)
  ++ padTo 0x800 (if t.rank = 0 then
      (List.range t.cbarCount).flatMap fun n => leBytes 8 (s.bar (barAt t.core (t.cbarBase + n))).toNat else [])

/-- The accepted operations of a team that have not been drained, by engine 0 or 1 (R152). -/
def State.stuckSteps (s : State) (t : Team) : List (Nat × MatStep) :=
  t.engineKeys.flatMap fun k => ((s.engine k).steps.filter fun st => teamOf st.lead.gid == t.key).map fun st => (k % 2, st)

/-- The accepted merges of a team that have not been drained. -/
def State.stuckMerges (s : State) (t : Team) : List (Nat × Merge) :=
  t.engineKeys.flatMap fun k => ((s.engine k).merges.filter fun x => teamOf x.gid == t.key).map fun x => (k % 2, x)

/-- The pending-operation records of a team, steps before merges. -/
def pendingRecords (steps : List (Nat × MatStep)) (merges : List (Nat × Merge)) : List (List Byte) :=
  (steps.zipIdx.map fun x => x.1.2.record x.1.1 x.2) ++ merges.zipIdx.map fun x => x.1.2.record x.1.1 x.2

/-- The bytes of a team's share of team memory. -/
def State.shareBytes (s : State) (t : Team) : List Byte := s.homeBytes ⟨1, teamAt t.core t.tmBase⟩ t.tmSize

/-- The bytes of a tile. -/
def State.tileBytes (s : State) (k i : Nat) : List Byte := s.homeBytes ⟨3, k * 2 ^ 18 + 0x4000 * i⟩ 0x4000

/-! ### Saving (R370 to R373) -/

/-- Actions on the spill area one after another, up to the first that cannot be made yet. -/
def spillEach (f : Nat → State → State × Spill) : List Nat → State → State × Spill
  | [], s => (s, .ok)
  | n :: rest, s =>
    match f n s with
    | (s, .ok) => spillEach f rest s
    | r => r

/-- The resident frames of a group evicted, callers before callees, so that each keeps its overlap (R186), and the
descriptors of all its frames written to its spill area (R181). -/
def State.saveFrames (s : State) (gid : Nat) : State × Spill :=
  match s.group? gid with
  | none => (s, .ok)
  | some g =>
    let fs := orderBy (fun (a b : Frame) => decide (a.dep ≤ b.dep)) ((g.frames.map (·.2)).filter (·.res))
    match spillEach (fun n s => s.evict gid n) (fs.map (·.fn)) s with
    | (s, .ok) =>
      match s.spillReach gid eseSplit .write (g.frames.map fun f => g.descAddr f.1) with
      | (s, .ok) => (g.frames.foldl (fun s f => s.putDescriptor gid f.1) s, .ok)
      | r => r
    | r => r

/-- How a group is saved: 0 by hardware, 1 by its routine, 2 parked, its image already written (R359, R371). -/
def Group.saveKind (g : Group) : Nat := if g.parked then 2 else if g.entryCode = causePreempt then 1 else 0

/-- The images of a team's parked groups, as they lie. None where one cannot be read. -/
def State.parkedImages (s : State) (t : Team) : List Group → State × Option (List (Nat × List Byte))
  | [] => (s, some [])
  | g :: rest =>
    match lookupKey t.parkedAt (g.gid % 32) with
    | none => State.parkedImages s t rest
    | some src =>
      match s.ctxLoadLong t.ctx (dieOf t.core) src 1024 with
      | (s, none) => (s, none)
      | (s, some bs) =>
        match State.parkedImages s t rest with
        | (s, none) => (s, none)
        | (s, some xs) => (s, some ((g.gid, bs) :: xs))

/-- The parts of a team image outside its groups' that the device writes (R372): all of them unless a group saves itself, and
the pending-operation records in either mode (R370). -/
def State.teamPieces (s : State) (t : Team) (tiles : List (Nat × Nat)) (soft : Bool) : List (Nat × List Byte) :=
  let recs := pendingRecords (s.stuckSteps t) (s.stuckMerges t)
  let tm := t.shareSize
  (if soft then []
   else [(0, s.teamHeader t recs.length), (0x1000, s.barrierBytes t), (0x2000, s.shareBytes t),
         (0x2000 + tm, tiles.flatMap fun x => s.tileBytes x.1 x.2)])
  ++ recs.zipIdx.map fun r => (t.recordAt tiles.length r.2 - t.image.toNat, r.1)

/-- The whole image written (R372): the images of parked groups are read where they lie before anything is written, and moved
to the places that this layout gives them. None where a part cannot be read or written. -/
def State.writeImage (s : State) (t : Team) : Option State :=
  let gs := s.teamGroups t.key
  let tiles := s.teamTiles t
  let soft := gs.any fun g => g.saveKind == 1
  let at_ (gid : Nat) : Nat := t.groupImage tiles.length (gid % 32)
  match s.parkedImages t (gs.filter fun g => g.saveKind == 2) with
  | (_, none) => none
  | (s, some parked) =>
    let own := (gs.filter fun g => g.saveKind == 0).map (·.gid)
    let o := own.foldl (fun (o : Option State) gid => o.bind fun s => s.saveGroup gid (at_ gid)) (some s)
    let o := parked.foldl (fun (o : Option State) x => o.bind fun s => s.ctxStoreLong t.ctx (dieOf t.core) (at_ x.1) x.2) o
    o.bind fun s => s.storePieces t.ctx (dieOf t.core) t.image.toNat (s.teamPieces t tiles soft)

/-- A group has nothing left that the image must wait for (R203, R291, R370, R376). -/
def State.maySave (s : State) (t : Team) (g : Group) : Bool :=
  match g.saveKind with
  | 0 => s.drained g true && s.settled g && !g.savesItself t
  | 1 => match g.handler with | none => true | some h => h.complete
  | _ => g.parkRecs.isEmpty && s.settled g

/-- A saved group leaves its core. -/
def State.removeGroup (s : State) (core gid : Nat) : State :=
  let s := (s.forgetGroup gid).takeHeld core gid
  s.onGroup gid fun g => { g with frames := [], spl := Split.empty, sibs := [], items := [], handler := none }

/-- The tiles of a team cleared to the end of their clearing. -/
def State.tilesClear (s : State) (t : Team) : Bool :=
  (s.teamTiles t).all fun x => !((s.engine x.1).tile x.2).clearing

/-- The pending operations of a team as they are counted and scoreboarded, in the order of their records (R152). -/
def State.pendingOf (s : State) (t : Team) : List PendingOp :=
  let held (id : Nat) : List (Nat × Nat × Nat × Nat) :=
    (s.teamGroups t.key).flatMap fun g => (g.reads.filter fun x => x.1 == id).map fun x => (g.gid, x.2)
  ((s.stuckSteps t).map fun x =>
    ({ id := x.2.id, cls := 0, groups := x.2.members.map (·.1), reads := held x.2.id } : PendingOp))
  ++ (s.stuckMerges t).map fun x => ({ id := x.2.id, cls := 2, groups := [x.2.gid], reads := [] } : PendingOp)

/-- How far the watchdog's counts of a group had come when its team began to be saved, or when it was stopped (R369). -/
def Group.clocks (since : Nat) (g : Group) : Nat × List (Nat × List Nat) :=
  let now := if g.stopped then min since g.stoppedAt else since
  (now - g.lastIssue, g.allSplits.map fun p => (p.num, p.dstack.map fun d => now - d.since))

/-- A team whose image is complete: its resources are free, and the PREEMPT record is written (R370, R352). -/
def State.finishSave (s : State) (t : Team) : State :=
  let gs := s.teamGroups t.key
  let tiles := (s.teamTiles t).map fun x => (x.1 % 2, x.2, ((s.engine x.1).tile x.2).alloc)
  let saved := gs.map fun g => (g.gid % 32, g.saveKind)
  let queues := gs.filterMap fun g => g.queue.map fun q => (g.gid % 32, q)
  let s := s.onTeam t.key fun x =>
    { x with phase := .preempted, phaseAt := s.postmark.toNat, pendingOps := s.pendingOf t
             saved := saved, savedTiles := tiles, savedQueues := queues
             savedClocks := gs.map fun g => (g.gid % 32, g.clocks t.phaseAt) }
  let s := gs.foldl (fun s g => s.removeGroup t.core g.gid) s
  let s := (s.freeEngines t.key).dropCaps
  let s := (s.teamDecision t 2 t.reason).officeEvent (dieOf t.core) 2 (t.key % 4096)
  (s.countOffice (dieOf t.core) 1 (t.core % 24) 1).coreFreed t.core

/-- PREEMPT_COMPLETE (R370): once every group of a team has drained or saved itself, frames and image are written and its
resources are free; a write that cannot be made is a context fault (R182, R367). -/
def execPreemptComplete (pid : Nat) (s : State) : Out :=
  match s.team? pid with
  | none => .next s
  | some t =>
    let gs := s.teamGroups pid
    if t.phase ≠ .saving ∨ !(gs.all fun g => s.maySave t g) ∨ !s.tilesClear t then .next s
    else
      let s := gs.foldl (fun s g => (s.finishFrees g.gid).landPending g.gid g.spl.num) s
      match spillEach (fun gid s => s.saveFrames gid) ((gs.filter fun g => g.saveKind != 1).map (·.gid)) s with
      | (s, .wait) => .next s
      | (s, .fail) => .next (s.haltSoon (s.partOf t.ctx) causeSpill)
      | (s, .ok) =>
        match s.writeImage t with
        | none => .next (s.haltSoon (s.partOf t.ctx) causeSpill)
        | some s => .next (s.finishSave t)

/-- SAVE_TIMEOUT (R370): a save routine has not executed `hret` within 2 ms. -/
def execSaveTimeout (pid : Nat) (s : State) : Out :=
  match s.team? pid with
  | none => .next s
  | some t =>
    let late := (s.teamGroups pid).any fun g =>
      g.saveKind == 1 && match g.handler with | none => false | some h => !h.complete
    if t.phase = .saving ∧ t.phaseAt + 2000000 ≤ s.postmark.toNat ∧ late then
      .next (s.killTeam pid causeSaveTimeout 12 false)
    else .next s

/-! ### Resumption (R374) -/

/-- The handler record of an image (R373), around the frozen splits. -/
def handlerOfRecord (frozen : List Split) (bs : List Byte) : Handler :=
  let cause : Dword := BitVec.ofNat 64 (fieldAt bs 0x138 8)
  { cause := cause, epc := BitVec.ofNat 64 (fieldAt bs 0x140 8)
    words := (List.range 6).map fun i => BitVec.ofNat 64 (fieldAt bs (0x108 + 8 * i) 8), frozen := frozen
    complete := cause.extractLsb' 0 8 == BitVec.ofNat 8 causePreempt }

/-- The four splits of an image made again; none where the spill area cannot be read. -/
def State.loadSplits (s : State) (gid : Nat) (bs : List Byte) : State × Option (List Split) :=
  (List.range 4).foldl
    (fun (acc : State × Option (List Split)) n =>
      match acc with
      | (s, none) => (s, none)
      | (s, some ps) =>
        match s.loadSplit gid n ((bs.drop (0x400 + 256 * n)).take 256) with
        | (s, none) => (s, none)
        | (s, some none) => (s, some ps)
        | (s, some (some p)) => (s, some (ps ++ [p])))
    (s, some [])

/-- The splits of a group restored from its image: in handler mode they are frozen, and the handler's context stands in
focus. -/
def State.loadContext (s : State) (gid : Nat) (bs : List Byte) : State × Bool :=
  match s.loadSplits gid bs with
  | (s, none) => (s, false)
  | (s, some ps) =>
    if fieldAt bs 2 1 % 2 = 1 then
      let rec_ := (bs.drop 0x1C00).take 512
      let h := handlerOfRecord ps rec_
      match s.loadSplit gid (h.cause.extractLsb' 16 2).toNat (rec_.take 256) with
      | (s, none) => (s, false)
      | (s, some p) =>
        (s.onGroup gid fun g => { g with handler := some h, spl := p.getD Split.empty, sibs := [] }, true)
    else
      (s.onGroup gid fun g =>
        match ps with
        | [] => { g with spl := Split.empty, sibs := [], handler := none }
        | p :: rest => { g with spl := p, sibs := rest, handler := none }, true)

/-- A group's image read into the group (R373, R374): the fields, its splits, its items, its release-window entries. -/
def State.loadGroup (s : State) (t : Team) (gid base : Nat) : State × Bool :=
  match s.ctxLoadLong t.ctx (dieOf t.core) base 1024 with
  | (s, none) => (s, false)
  | (s, some bs) =>
    let s := s.onGroup gid fun g =>
      let g := g.loadFields bs
      match g.domain with
      | none => g
      | some d => { g with thr := (s.domain (domainKey t.cluster d)).thr }
    match s.fill gid 0 with
    | (s, .wait) | (s, .fail) => (s, false)
    | (s, .ok) =>
      match s.loadContext gid bs with
      | (s, false) => (s, false)
      | (s, true) =>
        let s := s.loadItems gid (bs.drop 0x800)
        let held := (List.range (min 128 (fieldAt bs 0xA90 8))).map fun i => heldOfBytes t gid ((bs.drop (0xC00 + 32 * i)).take 32)
        (if held.isEmpty then s else s.hold t.core held, true)

/-- A group placed again without any split asks for its first fill once more (R207). -/
def State.refill (s : State) (gid : Nat) : State :=
  match s.group? gid with
  | none => s
  | some g =>
    if g.handler.isSome ∨ g.splits.any fun p => p.mask != 0 then s
    else
      match g.queue with
      | none => s
      | some k =>
        (s.onGroup gid fun g => { g with spl := g.firstSplit 0 0 (.waiting .yield), sibs := [] }).requestFill k (firstFill gid)

/-- A group enters its restore routine (R357, R374): all lanes, the root frame and frame 511. -/
def State.enterRestore (s : State) (gid base : Nat) : State :=
  s.within gid 0 fun s =>
    let (target, fc) := handlerOf s.grp.kdesc 2
    s.enterHandler (causeWord none 0 0 causeResume) 0 [0, 0, 0xFFFFFFFF, s.postmark, 0, BitVec.ofNat 64 base] 0xFFFFFFFF#32
      [0] 0 target fc

/-- One group of a resumed team: restored by the device, or entered into its routine, and left parked if it was. -/
def State.resumeGroup (s : State) (t : Team) (nt : Nat) (x : Nat × Nat) : State × Bool :=
  let gid := 32 * t.key + x.1
  let base := t.groupImage nt x.1
  let age := ((lookupKey t.savedClocks x.1).map (·.1)).getD 0
  let fresh := { s.freshGroup t x.1 with lastIssue := s.postmark.toNat - age }
  let s := s.addGroup { fresh with spl := { Split.empty with chain := [0] } }
  if x.2 = 1 then (s.enterRestore gid base, true)
  else
    match s.loadGroup t gid base with
    | (s, false) => (s, false)
    | (s, true) =>
      let s := s.onGroup gid fun g => { g with parked := decide (x.2 = 2) }
      let s := if x.2 = 2 then s.onTeam t.key fun tm => { tm with parkedAt := insertKey tm.parkedAt x.1 base } else s
      (s.refill gid, true)

/-- The tiles of a resumed team granted again; they clear (R374). -/
def State.regrant (s : State) (t : Team) : State :=
  t.savedTiles.foldl (fun s x => s.onEngine (2 * t.core + x.1) fun e => e.grant t.key x.2.2 [x.2.1]) s

/-- A saved domain entry joined with the domain of a cluster (R174): the greater maximum stays. -/
def State.joinDomain (s : State) (key : Nat) (x : Domain) : State :=
  match x.kind with
  | none => s
  | some kd =>
    let y := s.domain key
    let top := match y.top, x.top with
      | none, t => t
      | t, none => t
      | some u, some t => some (if ranksAbove kd.1 t u then t else u)
    { s with domains := insertKey s.domains key { kind := some kd, top := top } }

/-- The device's part of a restore outside the groups' images (R374): list bindings, domains, barriers, team memory, tiles and
tokens. -/
def State.restoreTeam (s : State) (t : Team) (hd share bars tiles : List Byte) : State :=
  let n := min 30 (fieldAt hd 0x1C 4)
  let s := (List.range n).foldl
    (fun s i =>
      let b := (hd.drop (0x40 + 32 * i)).take 32
      s.onEngine (2 * t.core + fieldAt b 0 1 % 2) fun e => { e with bindings := e.bindings ++ [Binding.ofBytes t.key b] })
    s
  let s := (List.range 16).foldl
    (fun (s : State) d => s.joinDomain (domainKey t.cluster d) (Domain.ofBytes ((hd.drop (0x400 + 16 * d)).take 16))) s
  let s :=
    if t.rank = 0 then
      (List.range t.cbarCount).foldl
        (fun s i => s.setBar (barAt t.core (t.cbarBase + i)) (BitVec.ofNat 64 (fieldAt hd (0x800 + 8 * i) 8))) s
    else s
  let s := (s.loadBarriers t bars).homeStore ⟨1, teamAt t.core t.tmBase⟩ share
  t.savedTiles.zipIdx.foldl
    (fun s x =>
      let k := 2 * t.core + x.1.1
      let i := x.1.2.1
      let s := (s.zeroTile k i).homeStore ⟨3, k * 2 ^ 18 + 0x4000 * i⟩ ((tiles.drop (0x4000 * x.2)).take 0x4000)
      s.onEngine k fun e => e.onTile i fun tl =>
        { tl with clearing := false, token := Token.ofByte t.key (fieldAt hd (0x20 + 16 * x.1.1 + i) 1) })
    s

/-- The team's parts of its image read and restored; false where they cannot be read. -/
def State.loadTeam (s : State) (t : Team) : State × Bool :=
  let die := dieOf t.core
  let a := t.image.toNat
  match s.ctxLoadLong t.ctx die a 0x200 with
  | (s, none) => (s, false)
  | (s, some hd) =>
    match s.ctxLoadLong t.ctx die (a + 0x2000) (t.shareSize / 16) with
    | (s, none) => (s, false)
    | (s, some share) =>
      match s.ctxLoadLong t.ctx die (a + 0x2000 + t.shareSize) (0x400 * t.savedTiles.length) with
      | (s, none) => (s, false)
      | (s, some tiles) => (s.restoreTeam t hd (share.take t.tmSize) (hd.drop 0x1000) tiles, true)

/-- The saved counters of a team's groups still count its pending operations, and their B registers stay scoreboarded (R152). -/
def State.recount (s : State) (t : Team) : State :=
  t.pendingOps.foldl
    (fun s o =>
      let s := o.groups.foldl (fun s gid => s.onGroup gid fun g => g.opStart o.cls o.id) s
      o.reads.foldl (fun s x => s.onGroup x.1 fun g => { g with reads := g.reads ++ [(o.id, x.2)] }) s)
    s

/-- A team placed again at a granted place. -/
def Team.moved (t : Team) (core : Nat) (g : Grant) (cbar now : Nat) : Team :=
  { t with core := core, tmBase := g.tmBase, barBase := g.barBase, cbarBase := cbar, phase := .running, phaseAt := now
           placedAt := now, reason := 0, parkedAt := [] }

/-- One team of a cluster fitted on the core it is to resume on, with the tile numbers it had; none where it does not fit. -/
def State.resumeMember (s : State) (t : Team) (core : Nat) (home : Option Team) : Option (State × Team) :=
  let part := s.partOf t.ctx
  let subs := t.saved.map fun x => t.subs.getD x.1 0
  let free := t.savedTiles.all fun x => ((s.engine (2 * core + x.1)).tile x.2.1).team.isNone
  if !s.coreIn part core || !(s.partReg part 0).getLsbD 0 || !s.ready core || !free then none
  else
    match s.fit part core t.kdesc (t.saved.map fun x => (memberOf t.kdesc t.binds t.members x.1).1) subs 0 none (t.rank == 0) false with
    | .error _ => none
    | .ok g =>
      let u := t.moved core g ((home.map (·.cbarBase)).getD g.cbarBase) s.postmark.toNat
      some ({ s with teams := insertKey s.teams t.key u }, u)

/-- The teams of a cluster fitted one after another, each shifted as the chosen one is. -/
def State.resumeMembers (from_ dest : Nat) : List Team → State → List Team → Option (State × List Team)
  | [], s, us => some (s, us)
  | t :: rest, s, us =>
    let d := t.core + dest - from_
    let col := t.core % 6 + dest % 6
    if from_ > t.core + dest ∨ dieOf d ≠ dieOf t.core ∨ col < from_ % 6 ∨ d % 6 ≠ col - from_ % 6 then none
    else
      match s.resumeMember t d us.head? with
      | none => none
      | some (s, u) => State.resumeMembers from_ dest rest s (us ++ [u])

/-- A resumed team's state restored, and its RESUME record written (R352, R374); a restore that cannot read the image is a
context fault. -/
def State.restart (s : State) (t : Team) : State :=
  let s := s.regrant t
  let soft := t.saved.any fun x => x.2 == 1
  let (s, ok) := if soft then (s, true) else s.loadTeam t
  let (s, ok) := t.saved.foldl (fun acc x => if acc.2 then acc.1.resumeGroup t t.savedTiles.length x else acc) (s, ok)
  let s := if ok then s else s.haltSoon (s.partOf t.ctx) causeSpill
  let s := (s.recount t).reenter t.key
  ((s.teamDecision t 3 0).coreTaken t.core).l1Invalidate t.core

/-- A pre-empted team resumed with its cluster so that it stands on a core (R345, R374); where it does not fit nothing
happens. -/
def State.resume (s : State) (key core : Nat) : State :=
  match s.team? key with
  | none => s
  | some t =>
    let all := (s.teams.map (·.2)).filter fun u => u.cluster == t.cluster && u.phase != .ended
    if t.phase ≠ .preempted ∨ all.any fun u => u.phase != .preempted then s
    else
      match State.resumeMembers t.core core (orderBy (fun (a b : Team) => decide (a.rank ≤ b.rank)) all) s [] with
      | none => s
      | some (s, us) => us.foldl (fun s u => s.restart u) (s.clearDomains t.cluster)

/-- SORESM (R374): PID and CORE. -/
def execSoresm (die _hart : Nat) (v : Dword) (s : State) : Out :=
  match coreOfCode (v.extractLsb' 12 8).toNat with
  | none => .next s
  | some c => if dieOf c = die then .next (s.resume (4096 * die + (v.extractLsb' 0 12).toNat) c) else .next s

/-! ### Teams that wait (R338, R344, R345) -/

/-- The sub-cores that the microcode of R344 may choose for the groups of a team without tiles: each goes to the lowest-numbered
one that has a free slot and enough free granules. -/
def State.spread (s : State) (core : Nat) : List (BitVec 1024) → List (Nat × Nat) → Option (List Nat)
  | [], _ => some []
  | k :: ks, used =>
    let slots (u : Nat) : Nat := (used.filter fun x => x.1 == u).length
    let grans (u : Nat) : Nat := (used.filter fun x => x.1 == u).foldl (fun n x => n + x.2) 0
    let ok (u : Nat) : Bool :=
      decide (slots u < (s.freeSlots (8 * core + u)).length)
      && decide (grans u + needFrame k ≤ s.freeGranules (8 * core + u))
    match (List.range 8).find? ok with
    | none => none
    | some u => (State.spread s core ks ((u, needFrame k) :: used)).map fun l => u :: l

/-- The maps of a team's groups to the sub-cores of a core that R344 considers. -/
def State.groupMaps (s : State) (core : Nat) (k : BitVec 1024) (kd : List (BitVec 1024)) : List (List Nat) :=
  if needAcc k = 0 then (s.spread core kd []).toList
  else [0, 1].map fun e => (List.range kd.length).map fun g => 4 * e + g % 4

/-- A team fits on a core that its partition may use (R342, R420, R448). -/
def State.fitsOn (s : State) (part core : Nat) (k : BitVec 1024) (kd : List (BitVec 1024)) (home : Bool) : Bool :=
  s.coreIn part core && (s.partReg part 0).getLsbD 0 && s.ready core
  && (s.groupMaps core k kd).any fun subs =>
    match s.fit part core k kd subs (needAcc k) none home true with
    | .ok _ => true
    | .error _ => false

/-- The cores of a rectangle of `w` by `h` cores of a die, anchored at a row and column, in ascending rank; none where it leaves
the mesh. -/
def rectCores (die row col w h : Nat) : Option (List Nat) :=
  if 4 < row + h ∨ 6 < col + w then none
  else some ((List.range (w * h)).map fun i => 24 * die + 6 * (row + i / w) + (col + i % w))

/-- The next teams of a launch fit on some rectangle of a die (R343, R344). -/
def State.fitsDie (s : State) (die : Nat) (l : Launch) : Bool :=
  let k := l.kdesc
  let kd := l.groupDescs (if recordKind l.record = 3 then 1 else needNg k)
  (List.range 24).any fun c =>
    match rectCores die (c / 6) (c % 6) (needCw k) (needCh k) with
    | none => false
    | some cs => cs.zipIdx.all fun x => s.fitsOn (s.partOf l.ctx) x.1 k kd (x.2 == 0)

/-- A pre-empted team fits, with its cluster, on some core of its die (R345). -/
def State.resumes (s : State) (t : Team) : Bool :=
  let all := (s.teams.map (·.2)).filter fun u => u.cluster == t.cluster && u.phase != .ended
  let byRank := orderBy (fun (a b : Team) => decide (a.rank ≤ b.rank)) all
  (List.range 24).any fun c => (State.resumeMembers t.core (24 * dieOf t.core + c) byRank s []).isSome

/-- The launches of a die with teams still to be placed: those in progress, and of every other queue the head record, where it
begins one. -/
def State.waitingLaunches (s : State) (die : Nat) : List Launch :=
  let o := s.office die
  let heads := o.indices.filterMap fun i =>
    if o.busyWith i.2 then none
    else
      match lookupKey s.queues i.2, (s.head i.2).2 with
      | some q, some bs => (s.readLaunch die i.2 q (BitVec.ofNat 128 (leNat (bs.take 16)))).2
      | _, _ => none
  o.launches ++ heads

/-- A team of a priority that `p` holds of waits on a die and does not fit: a new one, or a pre-empted one (R345). -/
def State.waits (s : State) (die : Nat) (p : Nat → Bool) : Bool :=
  ((s.waitingLaunches die).any fun l => p (recordPri l.record) && !s.fitsDie die l)
  || (s.teams.any fun e => e.2.phase == .preempted && dieOf e.2.core == die && p e.2.prio && !s.resumes e.2)

/-- A team of higher priority than a team waits on its die and does not fit. -/
def State.higherWaits (s : State) (t : Team) : Bool := s.waits (dieOf t.core) fun p => decide (t.prio < p)

/-- A team of the same priority does. -/
def State.equalWaits (s : State) (t : Team) : Bool := s.waits (dieOf t.core) fun p => p == t.prio

/-- SOPRE (R370): REASON is SLICE for a team whose slice is over, PRIO where a higher priority waits, else none. -/
def execSopre (die _hart : Nat) (v : Dword) (s : State) : Out :=
  let key := 4096 * die + (v.extractLsb' 0 12).toNat
  match s.team? key with
  | none => .next s
  | some t => .next (s.preempt key (if s.sliceOver t then 11 else if s.higherWaits t then 10 else 0))

/-- TIME_SLICE_EXPIRY (R345): the slice is over while a team of equal priority waits and does not fit. -/
def execTimeSliceExpiry (pid : Nat) (s : State) : Out :=
  match s.team? pid with
  | none => .next s
  | some t => .next (if s.sliceOver t && s.equalWaits t then s.preempt pid 11 else s)

/-! ### Completion (R346) -/

/-- What an ended team has left to perform: copies, held writes, writes on their way. -/
def State.teamBusy (s : State) (key : Nat) : Bool :=
  (s.copies.any fun c => teamOf c.2.gid == key) || (s.relwin.any fun r => r.2.any fun w => teamOf w.gid == key)
  || s.flights.any fun f => teamOf f.gid == key

/-- 1 added to the completion counter at an address (R346), as `msig.global.u64.rel.sys` would. -/
def State.addCounter (s : State) (ctx die : Nat) (a : Dword) : State :=
  let va := a.toNat / 8 * 8
  if va = 0 then s
  else
    match s.ctxLoad ctx die va 8 with
    | (s, none) => s
    | (s, some bs) => (s.ctxStore ctx die va (leBytes 8 (leNat bs + 1))).getD s

/-- TEAM_COMPLETION_COUNT (R346, R316): an ended team whose writes, atomics and copies have been performed. -/
def execTeamCompletionCount (pid : Nat) (s : State) : Out :=
  match s.team? pid with
  | none => .next s
  | some t =>
    if t.phase ≠ .ended ∨ s.teamBusy pid then .next s
    else
      let die := dieOf t.core
      let s := s.addCounter t.ctx die t.ctr
      let s := if t.lk = 2 then s.taskEnded die t.ctx t.ptr else s
      let s := s.unbindTeam pid
      .next { s with teams := eraseKey s.teams pid }

end Sys2Proof.Machine
end

