-- ==== Sys2Proof/Machine/Patina.lean ====
section
/-!
DEFINITION. Ageing, readiness, repair, and the spans of power and lifetime (R5, R439 to R443, R446 to R453).
-/
namespace Sys2Proof.Machine

/-! ### Islands (R439 to R442) -/

/-- The offset of PISLn. -/
def pislReg (isl : Nat) : Nat := 0x1400 + 8 * isl

/-- The fields of PISLn (R442). -/
structure Pisl where
  margin : Nat
  guard : Nat
  vmv : Nat
  fmax : Nat
  fcur : Nat
  fcap : Nat
  trip : Bool
  sweep : Bool
  deriving DecidableEq, Repr

/-- A field of a 64-bit register as a number. -/
def regField (w : Dword) (lo n : Nat) : Nat := (w.extractLsb' lo n).toNat

/-- PISLn read into its fields. -/
def State.pisl (s : State) (isl : Nat) : Pisl :=
  let w := s.devReg (pislReg isl)
  { margin := regField w 56 8, guard := regField w 48 8, vmv := regField w 32 16, fmax := regField w 24 8, fcur := regField w 16 8
    fcap := regField w 8 8, trip := w.getLsbD 1, sweep := w.getLsbD 0 }

/-- PISLn of its fields. -/
def Pisl.word (p : Pisl) : Dword :=
  BitVec.ofNat 8 p.margin ++ BitVec.ofNat 8 p.guard ++ BitVec.ofNat 16 p.vmv ++ BitVec.ofNat 8 p.fmax ++ BitVec.ofNat 8 p.fcur
    ++ BitVec.ofNat 8 p.fcap ++ (0 : BitVec 6) ++ BitVec.ofBool p.trip ++ BitVec.ofBool p.sweep

/-- PISLn written. -/
def State.setPisl (s : State) (isl : Nat) (p : Pisl) : State := s.setDevReg (pislReg isl) p.word

/-- The highest point an island may run at. -/
def Pisl.limit (p : Pisl) : Nat := min p.fcap p.fmax

/-- An ageing-log record of Patina about an island (R443, R445). -/
def State.patinaLog (s : State) (isl kind : Nat) (data : Dword) : State := s.logRecord (0x8060 + isl) kind isl 0 data

/-- The guard band in force on an island: GUARD as it stood at the last sweep (R442). -/
def State.guardOf (s : State) (isl : Nat) : Nat := Sparse.get 20 s.guards isl

/-- QUICK_SAMPLE (R440, R442): the worst margin and the supply are read; below the guard band the island is lowered by one
step, TRIP is set and recorded. -/
def execQuickSample (isl margin : Nat) (vmv : BitVec 16) (s : State) : Out :=
  if 96 ≤ isl then .next s
  else
    let p := { s.pisl isl with margin := min margin 255, vmv := vmv.toNat }
    if p.margin < s.guardOf isl then
      let p := { p with fcur := if 104 < p.fcur then p.fcur - 1 else p.fcur, trip := true }
      .next ((s.setPisl isl p).patinaLog isl 4 p.word)
    else .next (s.setPisl isl p)

/-- The cores of an island lose their column counts of the last sweep interval (R449). -/
def State.newInterval (s : State) (isl : Nat) : State :=
  { s with engines := s.engines.map fun (e : Nat × Engine) =>
      if islandOf (e.1 / 2) = isl then (e.1, { e.2 with colFails := [] }) else e }

/-- FULL_SWEEP (R440, R442): the margin table is planned anew, its guard band and FMAX hold, and TRIP falls where every monitor
passes at FCUR. -/
def execFullSweep (isl fmax : Nat) (table : List (BitVec 16)) (allPass : Bool) (s : State) : Out :=
  if 96 ≤ isl then .next s
  else
    let p := s.pisl isl
    let new := max 104 (min 144 fmax)
    let q := { p with fmax := new, fcur := min p.fcur (min p.fcap new), trip := p.trip && !allPass }
    let s := { s with life := { s.life with margins := insertKey s.life.margins isl table }
                      guards := Sparse.set 20 s.guards isl p.guard }
    .next ((((s.newInterval isl).setPisl isl q).patinaLog isl 2 q.word).patinaLog isl 3 (BitVec.ofNat 64 (p.fmax + 256 * new)))

/-- CLK_STEP (R441): one step of 25 MHz between 2.6 GHz and the island's limit. -/
def execClkStep (isl : Nat) (up : Bool) (s : State) : Out :=
  let p := s.pisl isl
  if 96 ≤ isl then .next s
  else if up then (if p.fcur < p.limit then .next (s.setPisl isl { p with fcur := p.fcur + 1 }) else .next s)
  else if 104 < p.fcur then .next (s.setPisl isl { p with fcur := p.fcur - 1 })
  else .next s

/-- PISL_WRITE (R442): GUARD and FCAP; the island leaves the points above its new limit. -/
def execPislWrite (isl : Nat) (v : Dword) (s : State) : Out :=
  if 96 ≤ isl then .next s
  else
    let p := { s.pisl isl with guard := regField v 48 8, fcap := max 104 (regField v 8 8) }
    .next (s.setPisl isl { p with fcur := min p.fcur p.limit })

/-! ### Spans of time (R5, R429, R447) -/

/-- What outlives a power cycle (R5): the lifetime state, and what is not the package's own: the host's memory and files,
peers' memory, the steps still to come. -/
def State.powerCycle (s : State) : State :=
  { State.reset with
    life := s.life, hostMem := s.hostMem, disk := s.disk, agenda := s.agenda, sched := s.sched, free := s.free, turn := s.turn
    mem := s.mem.filter fun e => decide (2 ^ 51 ≤ e.1) }

/-- The personalities of the edge groups at power-on (R429). -/
def State.powerOnEdges (s : State) : State :=
  (List.range 16).foldl
    (fun (s : State) n => s.setDevReg (edgeReg n) (edgeWord 0 0 0 (Config.configPersonality s.life.config n) 0)) s

/-- POWER_ON_RESET (R5, R447): every readiness bit is clear. -/
def execPowerOnReset (s : State) : Out := .next s.powerCycle.powerOnEdges

/-- POWER_REMOVAL (R5). -/
def execPowerRemoval (s : State) : Out := .next { s.powerCycle with powered := false }

/-- MANUFACTURE (R5, R453): the part has no identity yet. -/
def execManufacture (secret : Nat) (cert config : List Byte) (s : State) : Out :=
  match s.life.secret with
  | some _ => .next s
  | none => .next { s with life := { s.life with secret := some secret, cert := cert, config := config } }

/-- The bit that a function's readiness follows (R447), none for the hub; edge groups and reserved bits have none of either
kind. -/
def readyAfter (b : Nat) : Option (Option Nat) :=
  if b < 192 then some (some (256 + b / 24))
  else if b < 208 then some (some (256 + (b - 192) / 2))
  else if b < 224 then none
  else if b < 256 then some (some 264)
  else if b < 264 then some (some 264)
  else if b = 264 then some none
  else none

/-- The bit a function follows is set. -/
def State.mayReady (s : State) (b : Nat) : Bool :=
  match readyAfter b with
  | none => false
  | some none => true
  | some (some a) => s.ready a

/-- The configuration record in flash and the firmware carry signatures that verify (R10, R447). -/
def State.signaturesOk (s : State) : Bool :=
  let (msg, r) := Config.recordSignature s.life.config
  Config.ecdsaVerifies 0 (leNat (Sha.sha512 msg)) r.1 r.2
  && Config.ecdsaVerifies 0 (leNat (Sha.sha512 Config.firmwareBytes)) Config.firmwareSignature.1 Config.firmwareSignature.2

/-- SELF_TEST_DONE (R447): a function that fails leaves its bit clear and writes UNREADY. The hub's bit comes with the loaded
firmware, once the root monitor has verified the configuration record and the firmware. -/
def execSelfTestDone (bit : Nat) (pass : Bool) (s : State) : Out :=
  if !s.mayReady bit then .next s
  else if pass && (bit != 264 || s.signaturesOk) then
    let s := if bit = 264 then { s with firmware := Config.firmwareBytes } else s
    .next (s.setReady bit true)
  else if s.ready bit then .next (s.setReady bit false)
  else .next (s.logRecord 0x8020 9 255 0 (BitVec.ofNat 64 bit))

/-- FUNCTION_LOSS (R452): a stack, an edge group or a die. -/
def execFunctionLoss (bit : Nat) (s : State) : Out :=
  if (192 ≤ bit ∧ bit < 224) ∨ (256 ≤ bit ∧ bit < 264) then .next (s.setReady bit false) else .next s

/-! ### Core sparing and recovery (R451, R452) -/

/-- The spares of a die that stand for a core: physical cores 24 and 25 (log 20). -/
def State.sparesUsed (s : State) (die : Nat) : List Nat :=
  (s.life.spareCores.filter fun e => dieOf e.1 == die).map (·.2)

/-- A spare mapped to a core's coordinates and cleared, and CORESPARE written. -/
def State.mapSpare (s : State) (core phys : Nat) : State :=
  let s := s.clearCore core
  let s :=
    { s with
      life := { s.life with spareCores := s.life.spareCores ++ [(core, phys)]
                            spareCols := s.life.spareCols.filter fun x => x.1 / 8 != core }
      barriers := s.barriers.filter fun e => e.1 / 2 ^ 18 != core
      engines := s.engines.filter fun e => e.1 / 2 != core }
  s.logRecord 0x8020 7 255 (coreCode core) (BitVec.ofNat 64 phys)

/-- The teams on a core that hold its resources. -/
def State.teamsOn (s : State) (core : Nat) : List Nat := (s.coreTeams core).map (·.key)

/-- CORESPARE (R451): the core's bit falls, its teams are pre-empted or, where their state is not trusted, killed, and once it
holds none a free spare takes its coordinates. -/
def execCoreSpare (core phys : Nat) (trusted : Bool) (s : State) : Out :=
  if 192 ≤ core then .next s
  else
    let s := s.setReady core false
    let s := (s.teamsOn core).foldl
      (fun (s : State) k => if trusted then s.preempt k 0 else s.killTeam k causeKilled 0 false) s
    let used := s.sparesUsed (dieOf core)
    if (s.teamsOn core).isEmpty ∧ (phys = 24 ∨ phys = 25) ∧ !used.contains phys then .next (s.mapSpare core phys) else .next s

/-- How many stop records the partition's stop ring holds. -/
def State.stopCount (s : State) (part : Nat) : Nat :=
  let p := s.partReg part 0x60
  (p.extractLsb' 32 32 - p.extractLsb' 0 32).toNat

/-- RECOVER (R452): every team of the halted partition is killed, HALT is cleared, and RECOVER is posted with the count of
stop records. -/
def execRecover (part : Nat) (s : State) : Out :=
  if !s.halted part then .next s
  else
    let teams := s.teams.filter fun t => t.2.phase != .ended && s.partOf t.2.ctx == part
    let s := teams.foldl (fun (s : State) t => s.killTeam t.1 causeKilled 0 false) s
    let s := s.setPartReg part 0 (s.partReg part 0 &&& ~~~2)
    .next (s.postEvent part 19 0x8020 (BitVec.ofNat 64 (s.stopCount part)) 0)

end Sys2Proof.Machine
end

