-- ==== Sys2Proof/Machine/QueueInstr.lean ====
section
/-!
DEFINITION. The queue instructions (R310 to R313).
-/
namespace Sys2Proof.Machine

/-- The 16-byte record of a lane, word j from v(b + j) (R311). -/
def Group.recordOf (g : Group) (b l : Nat) : BitVec 128 :=
  g.laneGet (b + 3) l ++ g.laneGet (b + 2) l ++ g.laneGet (b + 1) l ++ g.laneGet b l

/-- The requests of some lanes in ascending order: the mask of the grants (R311). -/
def State.enqueueLanes (s : State) (ri : Bool) (k b : Nat) : List Nat → State × Mask
  | [] => (s, 0)
  | l :: rest =>
    let r := s.grp.recordOf b l
    let (s, ok) := if ri then s.reinject k r else s.enqueue k r
    let (s, m) := State.enqueueLanes s ri k b rest
    (s, if ok then m ||| laneBit l else m)

/-- QENQ (R310, R311). -/
def execQenq (w : LaneShort) (e : EM) (s : State) : Out :=
  let b := w.b.toNat
  lanes [b, b + 1, b + 2, b + 3] w.g e.gn false 8 s fun m s =>
    let ri := e.offset.getLsbD 0
    if !s.pipeOpen then s.stay .behind
    else withHandle s (s.grp.uniGet e.c.toNat) (if ri then rightsEnq ||| rightsDeq else rightsEnq) m fun k q =>
      if (if ri then q.kind != 1 else q.swr || q.kind == 2) then s.faultIn causeProtection m
      else
        let bad := (lanesOf m).filter fun l => !ri && q.kind == 1 && descClass (s.grp.recordOf b l) == 3
        if bad ≠ [] then s.faultLanes causeProtection m (bad.map fun l => (l, 0))
        else if semReleases e.sem && !s.atOrder e.scope then s.stay .order
        else
          let s := if semReleases e.sem then s.release e.scope else s
          let (s, r) := s.enqueueLanes ri k b (lanesOf m)
          (s.lanePred w.a.toNat m r).pushZero.done 8

/-- The record that `qdeq` takes (R312). -/
def State.dequeue (s : State) (k : Nat) : State × Option (List Byte) :=
  match s.head k with
  | (s, none) => (s, none)
  | (s, some bs) =>
    let (s, d) := s.takeItem k (BitVec.ofNat 128 (leNat (bs.take 16)))
    (s, some (leBytes 16 d.toNat ++ bs.drop 16))

/-- The record that `qsteal` takes (R312). -/
def State.stealTail (s : State) (k : Nat) : State × Option (List Byte) :=
  match lookupKey s.queues k with
  | none => (s, none)
  | some q =>
    if q.tail = q.head then (s, none)
    else
      match s.slotRecord q (q.tail - 1) with
      | (s, none) => (s, none)
      | (s, some bs) => (s.onQueue k fun q => { q with tail := q.tail - 1, dirty := true }, some bs)

/-- The requests of some lanes in ascending order: the records granted, by lane. -/
def State.takeLanes (s : State) (steal : Bool) (k : Nat) : List Nat → State × List (Nat × List Byte)
  | [] => (s, [])
  | l :: rest =>
    match (if steal then s.stealTail k else s.dequeue k) with
    | (s, none) => State.takeLanes s steal k rest
    | (s, some bs) =>
      let (s, xs) := State.takeLanes s steal k rest
      (s, (l, bs) :: xs)

/-- The records granted written to v(d) to v(d + n - 1). -/
def Group.putRecords (g : Group) (d n : Nat) (xs : List (Nat × List Byte)) : Group :=
  (List.range n).foldl
    (fun g j => g.laneWrite (d + j) false false true (xs.map fun x => (x.1, BitVec.ofNat 64 (fieldAt x.2 (4 * j) 4)))) g

/-- The queues that a dequeue accepts (R310). -/
def takesFrom (steal : Bool) (q : Queue) : Bool :=
  (q.kind == 0 || (q.kind == 2 && !steal) || (q.kind == 1 && q.bound.isEmpty && q.node.isNone)) && !(steal && q.swr)

/-- A dequeue or a steal (R310, R312). -/
def takeRecords (steal : Bool) (need : BitVec 3) (w : LaneShort) (e : EM) (s : State) : Out :=
  lanes [w.d.toNat] w.g e.gn false 8 s fun m s =>
    if !s.pipeOpen then s.stay .behind
    else withHandle s (s.grp.uniGet e.c.toNat) need m fun k q =>
      let n := q.recordSize / 4
      if !takesFrom steal q || decide (s.grp.frameSize < w.d.toNat + n) then s.faultIn causeProtection m
      else
        let (s, xs) := s.takeLanes steal k (lanesOf m)
        let s := s.onGrp fun g => g.putRecords w.d.toNat n xs
        let s := (s.lanePred w.a.toNat m (maskOf (xs.map (·.1)))).pushZero
        (if e.sem = .acq then s.acquire e.scope else s).done 8

/-- QDEQ (R312). -/
def execQdeq (w : LaneShort) (e : EM) (s : State) : Out := takeRecords false rightsDeq w e s

/-- QSTEAL (R312). -/
def execQsteal (w : LaneShort) (e : EM) (s : State) : Out := takeRecords true rightsStl w e s

end Sys2Proof.Machine
end

