-- ==== Sys2Proof/Machine/Service.lean ====
section
/-!
DEFINITION. The service calls of R425 with LOAD's checks (R395 to R398, R401), as the service core performs them, one call
ring entry after another.
-/
namespace Sys2Proof.Machine

/-- The oldest call of a partition that has not been completed. -/
def State.firstCall (s : State) (part : Nat) : Option Call := s.calls.find? fun c => c.part == part

/-- The oldest call completes (R387): its record is written, its counter rises, and the ring's HEAD moves on. -/
def State.finishCall (s : State) (c : Call) (status : Nat) (result : Dword) : State :=
  ({ s with calls := s.calls.erase c } : State).answerCall c status result |>.callTaken c.part

/-- The call of a partition with a function code, performed by the body; any other oldest call stays. -/
def State.serve (s : State) (part code : Nat) (body : State → Call → Out) : Out :=
  match s.firstCall part with
  | none => .next s
  | some c => if c.code = code then body s c else .next s

/-- The VF of a call. -/
def State.vfOf (s : State) (c : Call) : Nat := ((lookupKey s.contexts c.ctx).map (·.vf)).getD 0

/-- The 4 KiB-page pieces of a buffer read; none where some page cannot be read. -/
def State.readBuffer (s : State) (ctx a n : Nat) : State × Option (List Byte) :=
  (rangePages (n / 4096 + 2) a n).foldl
    (fun acc p =>
      match acc with
      | (s, none) => (s, none)
      | (s, some bs) =>
        match s.ctxLoad ctx 8 p.1 p.2 with
        | (s, some more) => (s, some (bs ++ more))
        | (s, none) => (s, none))
    (s, some [])

/-- A buffer written page by page; none where some page cannot be written. -/
def State.writeBuffer (s : State) (ctx a : Nat) (bs : List Byte) : Option State :=
  (rangePages (bs.length / 4096 + 2) a bs.length).foldl
    (fun o p => o.bind fun s => s.ctxStore ctx 8 p.1 ((bs.drop (p.1 - a)).take p.2)) (some s)

/-- NOP, and what every unlisted function gets: ERROR. -/
def execSvcNop (part : Nat) (s : State) : Out :=
  match s.firstCall part with
  | none => .next s
  | some c =>
    if c.code = 0 then .next (s.finishCall c 0 0)
    else if 10 < c.code then .next (s.finishCall c 1 0)
    else .next s

/-- MINT (R304): a handle of a queue of the partition's table, of its present generation. -/
def execSvcMint (part : Nat) (s : State) : Out :=
  s.serve part 1 fun s c =>
    let qnum := (c.arg 0).toNat
    if (s.partReg part 0x30).toNat ≤ qnum then .next (s.finishCall c 1 0)
    else
      let gen := match lookupKey s.queues (queueKeyOf part qnum) with
        | some q => q.gen
        | none => (queueOfBlock (s.qcbInMemory part qnum)).gen
      .next (s.finishCall c 0 (makeHandle (s.queueKey part) qnum ((c.arg 1).extractLsb' 0 3) part gen))

/-- QCMD (R309): the command is written to the port of the queue's home QC in the caller's doorbell page. -/
def execSvcQcmd (part : Nat) (s : State) : Out :=
  s.serve part 2 fun s c =>
    let h := c.arg 0
    let w := c.arg 1
    let die := s.homeOf part (h.extractLsb' 40 24).toNat
    let s := s.finishCall c 0 0
    .next (s.runCommand (w.extractLsb' 60 4).toNat { die := die, ctx := c.ctx, handle := h, arg := w.extractLsb' 0 60 })

/-! ### LOAD (R395, R396, R397, R398, R401) -/

/-- A big-endian unsigned integer (R401). -/
def beNat (bs : List Byte) : Nat := leNat bs.reverse

/-- Bytes of a file that are all zero. -/
def zeroAt (f : List Byte) (off n : Nat) : Bool := fieldAt f off n == 0

/-- The header of a linked executable with every reserved field zero (R395). -/
def headerOk (f : List Byte) : Bool :=
  fieldAt f 0 4 == 0x39464F47 && fieldAt f 4 2 == 1 && fieldAt f 6 1 == 1 && zeroAt f 7 9 && zeroAt f 32 32

/-- The header of section `i` (R396). -/
def sectionAt (f : List Byte) (i : Nat) : List Byte := (f.drop (fieldAt f 24 8 + 32 * i)).take 32

/-- The entries of `n` bytes of a section. -/
def tableEntries (f h : List Byte) (n : Nat) : List (List Byte) :=
  let off := fieldAt h 8 8
  (List.range (fieldAt h 16 8 / n)).map fun i => (f.drop (off + n * i)).take n

/-- A kernel descriptor whose reserved fields are zero (R402). -/
def descriptorClean (e : List Byte) : Bool :=
  let d := BitVec.ofNat 1024 (leNat e)
  !d.getLsbD 639 && d.extractLsb' 512 27 == 0 && d.extractLsb' 256 64 == 0

/-- Binding tables one behind another, at most `n` of them, whose headers' reserved bits are zero (R405). -/
def bindClean : Nat → List Byte → Bool
  | 0, _ => true
  | n + 1, bs => decide (bs.length < 16) || (zeroAt bs 4 12 && bindClean n (bs.drop (16 + 16 * fieldAt bs 0 4)))

/-- A section with no reserved type and no reserved bit set in its symbols, relocations, kernel descriptors or binding tables
(R396 to R398, R402, R405). -/
def sectionOk (f h : List Byte) : Bool :=
  let ty := fieldAt h 4 1
  decide (ty ≤ 10)
  && (ty != 6 || (tableEntries f h 24).all fun e => fieldAt e 5 1 / 16 == 0)
  && (ty != 8 || (tableEntries f h 24).all fun e => zeroAt e 14 2)
  && (ty != 4 || (tableEntries f h 128).all descriptorClean)
  && (ty != 5 || bindClean (fieldAt h 16 8 / 16) ((f.drop (fieldAt h 8 8)).take (fieldAt h 16 8)))

/-- The message that is signed: the file with its signature block read as zeros. -/
def signedMessage (f : List Byte) (off : Nat) : List Byte := f.take off ++ zeroBytes 256 ++ f.drop (off + 256)

/-- The checks of R401 on an executable, under the key slots installed for the partition. -/
def executableOk (part : Nat) (keys : Dword) (f : List Byte) : Bool :=
  let n := fieldAt f 16 2
  let h := sectionAt f n
  let off := fieldAt h 8 8
  let b := (f.drop off).take 256
  let hash := Sha.sha512 (signedMessage f off)
  let key := fieldAt b 6 2
  headerOk f && n != 0 && decide (n < fieldAt f 22 2) && fieldAt h 4 1 == 10 && b.length == 256
  && ((List.range (fieldAt f 22 2)).all fun i => sectionOk f (sectionAt f i))
  && fieldAt b 0 4 == 0x47495347 && fieldAt b 4 2 == 1 && decide (key < 16) && keys.getLsbD key && zeroAt b 8 8 && zeroAt b 212 44
  && (b.drop 16).take 64 == hash
  && Config.ecdsaVerifies (32 + 16 * part + key) (leNat hash) (beNat ((b.drop 80).take 66)) (beNat ((b.drop 146).take 66))

/-- LOAD (R401): the executable is read, and where it passes its checks the service core maps it: `ok` gives what it writes. -/
def execSvcLoad (part : Nat) (ok : LoadAnswer) (s : State) : Out :=
  s.serve part 3 fun s c =>
    match s.readBuffer c.ctx (c.arg 0).toNat (c.arg 1).toNat with
    | (s, none) => .next (s.finishCall c 1 0)
    | (s, some f) =>
      if executableOk part (s.partReg part 0xA0) f then
        .next ((ok.writes.foldl (fun s w => s.unitStore 8 ⟨0, w.1⟩ w.2) s).finishCall c 0 0)
      else .next (s.finishCall c 1 0)

/-! ### FETCH (R327, R425) -/

/-- The record queue of a partition to which the node with an NCB is bound. -/
def State.nodeQueue (s : State) (part : Nat) (ncb : Dword) : Option Nat :=
  (s.queues.find? fun e => e.2.part == part && match e.2.node with | none => false | some nd => nd.ncb == ncb).map (·.1)

/-- FETCH (R425): the slot's buffer is filled and named in its table entry, then RESIDENT is sent. -/
def execSvcFetch (part : Nat) (bufAddr : Dword) (s : State) : Out :=
  s.serve part 4 fun s c =>
    match s.nodeQueue part (c.arg 0) with
    | none => .next (s.finishCall c 1 0)
    | some k =>
      match s.nodeView k with
      | (s, none) => .next (s.finishCall c 1 0)
      | (s, some v) =>
        let n := (c.arg 1).toNat
        let s := if v.stab = 0 ∨ v.nslot ≤ n then s else (s.ctxStore v.ctx 8 (v.stab.toNat + 32 * n + 8) (leBytes 8 bufAddr.toNat)).getD s
        let gen := ((lookupKey s.queues k).map (·.gen)).getD 0
        let h := makeHandle (s.queueKey part) (qnumOf k) (rightsEnq ||| rightsDeq) part gen
        let s := s.finishCall c 0 0
        .next (s.runCommand 5 { die := v.die, ctx := c.ctx, handle := h, arg := BitVec.ofNat 60 n })

/-! ### Files (R425, R427) -/

/-- A zero-terminated path of at most `n` bytes in a context's memory. -/
def State.readPath (s : State) (ctx : Nat) : Nat → Nat → State × Option (List Byte)
  | 0, _ => (s, none)
  | n + 1, a =>
    match s.ctxLoad ctx 8 a 1 with
    | (s, none) => (s, none)
    | (s, some bs) =>
      if bs.headD 0 = 0 then (s, some [])
      else
        match State.readPath s ctx n (a + 1) with
        | (s, none) => (s, none)
        | (s, some rest) => (s, some (bs.headD 0 :: rest))

/-- The lowest file handle not in use. -/
def State.freeHandle (s : State) : Nat :=
  ((List.range (s.files.length + 1)).find? fun n => !(s.files.any fun f => f.handle == n + 1)).map (· + 1) |>.getD 1

/-- An open file of a call's function. -/
def State.fileOf (s : State) (c : Call) (h : Dword) : Option File :=
  s.files.find? fun f => f.handle == h.toNat && f.part == c.part && f.vf == s.vfOf c

/-- The contents of a file as the storage agent holds them durably. -/
def diskFind (d : List (List Byte × Memory)) (path : List Byte) : Option Memory := (d.find? fun e => e.1 == path).map (·.2)

/-- A file's durable contents set. -/
def diskSet (d : List (List Byte × Memory)) (path : List Byte) (m : Memory) : List (List Byte × Memory) :=
  if (diskFind d path).isSome then d.map fun e => if e.1 = path then (path, m) else e else d ++ [(path, m)]

/-- FOPEN: `ok` is the storage agent's answer. Flags: 0 read, 1 write, 2 create. -/
def execSvcFopen (part : Nat) (ok : Bool) (s : State) : Out :=
  s.serve part 5 fun s c =>
    match s.readPath c.ctx 4096 (c.arg 0).toNat with
    | (s, none) => .next (s.finishCall c 1 0)
    | (s, some path) =>
      let flags := (c.arg 1).toNat % 8
      if !ok then .next (s.finishCall c 1 0)
      else
        let h := s.freeHandle
        let disk := if flags / 4 = 1 ∧ (diskFind s.disk path).isNone then diskSet s.disk path [] else s.disk
        let f : File := { handle := h, part := part, vf := s.vfOf c, flags := flags, path := path }
        .next (({ s with files := s.files ++ [f], disk := disk } : State).finishCall c 0 (BitVec.ofNat 64 h))

/-- FWRITE: OK comes only once the bytes are durable (`ok`); otherwise none of them is kept. -/
def execSvcFwrite (part : Nat) (ok : Bool) (s : State) : Out :=
  s.serve part 6 fun s c =>
    match s.fileOf c (c.arg 0) with
    | none => .next (s.finishCall c 1 0)
    | some f =>
      match s.readBuffer c.ctx (c.arg 2).toNat (c.arg 3).toNat with
      | (s, none) => .next (s.finishCall c 1 0)
      | (s, some bs) =>
        if !ok || f.flags / 2 % 2 == 0 then .next (s.finishCall c 1 0)
        else
          let m := ((diskFind s.disk f.path).getD []).store (c.arg 1).toNat bs
          .next (({ s with disk := diskSet s.disk f.path m } : State).finishCall c 0 (c.arg 3))

/-- FREAD: the bytes that the storage agent gives reach the buffer. -/
def execSvcFread (part : Nat) (ok : Bool) (data : List Byte) (s : State) : Out :=
  s.serve part 7 fun s c =>
    match s.fileOf c (c.arg 0) with
    | none => .next (s.finishCall c 1 0)
    | some f =>
      let bs := data.take (c.arg 3).toNat
      if !ok || f.flags % 2 == 0 then .next (s.finishCall c 1 0)
      else
        match s.writeBuffer c.ctx (c.arg 2).toNat bs with
        | none => .next (s.finishCall c 1 0)
        | some s => .next (s.finishCall c 0 (BitVec.ofNat 64 bs.length))

/-- FCLOSE. -/
def execSvcFclose (part : Nat) (s : State) : Out :=
  s.serve part 8 fun s c =>
    match s.fileOf c (c.arg 0) with
    | none => .next (s.finishCall c 1 0)
    | some f => .next (({ s with files := s.files.erase f } : State).finishCall c 0 0)

/-! ### RESUME and KILL (R359, R372) -/

/-- The team of a partition with a team image address. -/
def State.teamAt (s : State) (part : Nat) (a : Dword) : Option Team :=
  (s.teams.map (·.2)).find? fun t => t.image == a && t.phase != .ended && s.partOf t.ctx == part

/-- A parked group runs on from its image, which the runtime may have repaired. -/
def State.unparkGroup (s : State) (t : Team) (g : Group) : State × Bool :=
  match lookupKey t.parkedAt (g.gid % 32) with
  | none => (s, false)
  | some base =>
    match s.ctxLoadLong t.ctx (dieOf t.core) base 1024 with
    | (s, none) => (s, false)
    | (s, some bs) =>
      match (s.onGroup g.gid fun g => g.loadFields bs).loadContext g.gid bs with
      | (s, false) => (s, false)
      | (s, true) =>
        let s := s.onGroup g.gid fun g => { g with parked := false }
        (s.onTeam t.key fun t => { t with parkedAt := eraseKey t.parkedAt (g.gid % 32) }, true)

/-- RESUME (R359): the parked groups of a placed team whose images have been written run on; those of a pre-empted team are to be restored running. -/
def execSvcResume (part : Nat) (s : State) : Out :=
  s.serve part 9 fun s c =>
    match s.teamAt part (c.arg 0) with
    | none => .next (s.finishCall c 1 0)
    | some t =>
      if t.phase = .preempted then
        if t.saved.any fun x => x.2 == 2 then
          .next ((s.onTeam t.key fun t => { t with saved := t.saved.map fun x => if x.2 = 2 then (x.1, 0) else x }).finishCall c 0 0)
        else .next (s.finishCall c 1 0)
      else
        let gs := (s.teamGroups t.key).filter fun g => g.parked && g.parkRecs.isEmpty
        if gs.isEmpty then .next (s.finishCall c 1 0)
        else
          match gs.foldl (fun (acc : State × Bool) g => if acc.2 then acc.1.unparkGroup t g else acc) (s, true) with
          | (s, ok) => .next (s.finishCall c (if ok then 0 else 1) 0)

/-- KILL (R425). -/
def execSvcKill (part : Nat) (s : State) : Out :=
  s.serve part 10 fun s c =>
    match s.teamAt part (c.arg 0) with
    | none => .next (s.finishCall c 1 0)
    | some t => .next ((s.killTeam t.key causeKilled 0 false).finishCall c 0 0)

end Sys2Proof.Machine
end

