-- ==== Sys2Proof/Machine/Dispatch.lean ====
section
/-!
DEFINITION. The dispatch of every instruction and event to its meaning, one arm for each constructor.
-/
namespace Sys2Proof.Machine

def exec (i : Instr) (s : State) : Host.Outcome State Fault Refusal :=
  match i with
  | .iadd w => Sys2Proof.Machine.execIadd w s
  | .isub w => Sys2Proof.Machine.execIsub w s
  | .imul w => Sys2Proof.Machine.execImul w s
  | .imin w => Sys2Proof.Machine.execImin w s
  | .imax w => Sys2Proof.Machine.execImax w s
  | .and w => Sys2Proof.Machine.execAnd w s
  | .or w => Sys2Proof.Machine.execOr w s
  | .xor w => Sys2Proof.Machine.execXor w s
  | .shl w => Sys2Proof.Machine.execShl w s
  | .shr w => Sys2Proof.Machine.execShr w s
  | .sha w => Sys2Proof.Machine.execSha w s
  | .mov w => Sys2Proof.Machine.execMov w s
  | .fadd w => Sys2Proof.Machine.execFadd w s
  | .fsub w => Sys2Proof.Machine.execFsub w s
  | .fmul w => Sys2Proof.Machine.execFmul w s
  | .fmin w => Sys2Proof.Machine.execFmin w s
  | .fmax w => Sys2Proof.Machine.execFmax w s
  | .fscl w => Sys2Proof.Machine.execFscl w s
  | .vsr w => Sys2Proof.Machine.execVsr w s
  | .iaddExt w e => Sys2Proof.Machine.execIaddExt w e s
  | .isubExt w e => Sys2Proof.Machine.execIsubExt w e s
  | .imulExt w e => Sys2Proof.Machine.execImulExt w e s
  | .iminExt w e => Sys2Proof.Machine.execIminExt w e s
  | .imaxExt w e => Sys2Proof.Machine.execImaxExt w e s
  | .andExt w e => Sys2Proof.Machine.execAndExt w e s
  | .orExt w e => Sys2Proof.Machine.execOrExt w e s
  | .xorExt w e => Sys2Proof.Machine.execXorExt w e s
  | .shlExt w e => Sys2Proof.Machine.execShlExt w e s
  | .shrExt w e => Sys2Proof.Machine.execShrExt w e s
  | .shaExt w e => Sys2Proof.Machine.execShaExt w e s
  | .imad w e => Sys2Proof.Machine.execImad w e s
  | .imadw w e => Sys2Proof.Machine.execImadw w e s
  | .lop3 w e => Sys2Proof.Machine.execLop3 w e s
  | .bfx w e => Sys2Proof.Machine.execBfx w e s
  | .bfi w e => Sys2Proof.Machine.execBfi w e s
  | .ibit w e => Sys2Proof.Machine.execIbit w e s
  | .prmt w e => Sys2Proof.Machine.execPrmt w e s
  | .sel w e => Sys2Proof.Machine.execSel w e s
  | .icmp w e => Sys2Proof.Machine.execIcmp w e s
  | .pset w e => Sys2Proof.Machine.execPset w e s
  | .pmovReg w e => Sys2Proof.Machine.execPmovReg w e s
  | .pmovPred w e => Sys2Proof.Machine.execPmovPred w e s
  | .faddExt w e => Sys2Proof.Machine.execFaddExt w e s
  | .fsubExt w e => Sys2Proof.Machine.execFsubExt w e s
  | .fmulExt w e => Sys2Proof.Machine.execFmulExt w e s
  | .ffma w e => Sys2Proof.Machine.execFfma w e s
  | .fminExt w e => Sys2Proof.Machine.execFminExt w e s
  | .fmaxExt w e => Sys2Proof.Machine.execFmaxExt w e s
  | .fsclExt w e => Sys2Proof.Machine.execFsclExt w e s
  | .fcmp w e => Sys2Proof.Machine.execFcmp w e s
  | .fsf w e => Sys2Proof.Machine.execFsf w e s
  | .cvt w e => Sys2Proof.Machine.execCvt w e s
  | .dot w e => Sys2Proof.Machine.execDot w e s
  | .shfl w e => Sys2Proof.Machine.execShfl w e s
  | .vote w e => Sys2Proof.Machine.execVote w e s
  | .redux w e => Sys2Proof.Machine.execRedux w e s
  | .scan w e => Sys2Proof.Machine.execScan w e s
  | .rkadm w e => Sys2Proof.Machine.execRkadm w e s
  | .rkins w e => Sys2Proof.Machine.execRkins w e s
  | .relbl w e => Sys2Proof.Machine.execRelbl w e s
  | .itemDone w e => Sys2Proof.Machine.execItemDone w e s
  | .itemSkip w e => Sys2Proof.Machine.execItemSkip w e s
  | .itemYield w e => Sys2Proof.Machine.execItemYield w e s
  | .itemDefer w e => Sys2Proof.Machine.execItemDefer w e s
  | .movImm w e => Sys2Proof.Machine.execMovImm w e s
  | .lda w e => Sys2Proof.Machine.execLda w e s
  | .sta w e => Sys2Proof.Machine.execSta w e s
  | .ld w e => Sys2Proof.Machine.execLd w e s
  | .st w e => Sys2Proof.Machine.execSt w e s
  | .ldk w e => Sys2Proof.Machine.execLdk w e s
  | .ldc w e => Sys2Proof.Machine.execLdc w e s
  | .stc w e => Sys2Proof.Machine.execStc w e s
  | .cpl w e => Sys2Proof.Machine.execCpl w e s
  | .atom w e => Sys2Proof.Machine.execAtom w e s
  | .atomc w e => Sys2Proof.Machine.execAtomc w e s
  | .qenq w e => Sys2Proof.Machine.execQenq w e s
  | .qdeq w e => Sys2Proof.Machine.execQdeq w e s
  | .qsteal w e => Sys2Proof.Machine.execQsteal w e s
  | .mma w e => Sys2Proof.Machine.execMma w e s
  | .mms w e => Sys2Proof.Machine.execMms w e s
  | .mrk w e => Sys2Proof.Machine.execMrk w e s
  | .uadd w => Sys2Proof.Machine.execUadd w s
  | .usub w => Sys2Proof.Machine.execUsub w s
  | .umul w => Sys2Proof.Machine.execUmul w s
  | .umin w => Sys2Proof.Machine.execUmin w s
  | .umax w => Sys2Proof.Machine.execUmax w s
  | .uand w => Sys2Proof.Machine.execUand w s
  | .uor w => Sys2Proof.Machine.execUor w s
  | .uxor w => Sys2Proof.Machine.execUxor w s
  | .ushl w => Sys2Proof.Machine.execUshl w s
  | .ushr w => Sys2Proof.Machine.execUshr w s
  | .usha w => Sys2Proof.Machine.execUsha w s
  | .umov w => Sys2Proof.Machine.execUmov w s
  | .brx w => Sys2Proof.Machine.execBrx w s
  | .callx w => Sys2Proof.Machine.execCallx w s
  | .ret w => Sys2Proof.Machine.execRet w s
  | .unwind w => Sys2Proof.Machine.execUnwind w s
  | .rcv w => Sys2Proof.Machine.execRcv w s
  | .exit w => Sys2Proof.Machine.execExit w s
  | .waitc w => Sys2Proof.Machine.execWaitc w s
  | .cpb w => Sys2Proof.Machine.execCpb w s
  | .cpclose w => Sys2Proof.Machine.execCpclose w s
  | .cpwait w => Sys2Proof.Machine.execCpwait w s
  | .fres w => Sys2Proof.Machine.execFres w s
  | .freg w => Sys2Proof.Machine.execFreg w s
  | .tspawn w => Sys2Proof.Machine.execTspawn w s
  | .tdone w => Sys2Proof.Machine.execTdone w s
  | .asy w => Sys2Proof.Machine.execAsy w s
  | .gnode w => Sys2Proof.Machine.execGnode w s
  | .svc w => Sys2Proof.Machine.execSvc w s
  | .srd w => Sys2Proof.Machine.execSrd w s
  | .srdFaultWord w => Sys2Proof.Machine.execSrdFaultWord w s
  | .swr w => Sys2Proof.Machine.execSwr w s
  | .trap w => Sys2Proof.Machine.execTrap w s
  | .hret w => Sys2Proof.Machine.execHret w s
  | .bkpt w => Sys2Proof.Machine.execBkpt w s
  | .uaddExt w e => Sys2Proof.Machine.execUaddExt w e s
  | .usubExt w e => Sys2Proof.Machine.execUsubExt w e s
  | .umulExt w e => Sys2Proof.Machine.execUmulExt w e s
  | .uminExt w e => Sys2Proof.Machine.execUminExt w e s
  | .umaxExt w e => Sys2Proof.Machine.execUmaxExt w e s
  | .uandExt w e => Sys2Proof.Machine.execUandExt w e s
  | .uorExt w e => Sys2Proof.Machine.execUorExt w e s
  | .uxorExt w e => Sys2Proof.Machine.execUxorExt w e s
  | .ushlExt w e => Sys2Proof.Machine.execUshlExt w e s
  | .ushrExt w e => Sys2Proof.Machine.execUshrExt w e s
  | .ushaExt w e => Sys2Proof.Machine.execUshaExt w e s
  | .umovExt w e => Sys2Proof.Machine.execUmovExt w e s
  | .umad w e => Sys2Proof.Machine.execUmad w e s
  | .ubfx w e => Sys2Proof.Machine.execUbfx w e s
  | .usel w e => Sys2Proof.Machine.execUsel w e s
  | .ucmp w e => Sys2Proof.Machine.execUcmp w e s
  | .barInit w e => Sys2Proof.Machine.execBarInit w e s
  | .barArrive w e => Sys2Proof.Machine.execBarArrive w e s
  | .barWait w e => Sys2Proof.Machine.execBarWait w e s
  | .barArrwait w e => Sys2Proof.Machine.execBarArrwait w e s
  | .barExpect w e => Sys2Proof.Machine.execBarExpect w e s
  | .fenceAcq w e => Sys2Proof.Machine.execFenceAcq w e s
  | .fenceRel w e => Sys2Proof.Machine.execFenceRel w e s
  | .fenceAcqrel w e => Sys2Proof.Machine.execFenceAcqrel w e s
  | .fenceSc w e => Sys2Proof.Machine.execFenceSc w e s
  | .accAcq w e => Sys2Proof.Machine.execAccAcq w e s
  | .accRel w e => Sys2Proof.Machine.execAccRel w e s
  | .accWin w e => Sys2Proof.Machine.execAccWin w e s
  | .accAlloc w e => Sys2Proof.Machine.execAccAlloc w e s
  | .accFree w e => Sys2Proof.Machine.execAccFree w e s
  | .rkcfg w e => Sys2Proof.Machine.execRkcfg w e s
  | .rkrd w e => Sys2Proof.Machine.execRkrd w e s
  | .rlogPush w e => Sys2Proof.Machine.execRlogPush w e s
  | .rlogGet w e => Sys2Proof.Machine.execRlogGet w e s
  | .rlogRet w e => Sys2Proof.Machine.execRlogRet w e s
  | .pipeSend w e => Sys2Proof.Machine.execPipeSend w e s
  | .pipeRecv w e => Sys2Proof.Machine.execPipeRecv w e s
  | .hcohFlush w e => Sys2Proof.Machine.execHcohFlush w e s
  | .hcohInval w e => Sys2Proof.Machine.execHcohInval w e s
  | .ctxDrain w e => Sys2Proof.Machine.execCtxDrain w e s
  | .ctxSvsplit w e => Sys2Proof.Machine.execCtxSvsplit w e s
  | .ctxLdsplit w e => Sys2Proof.Machine.execCtxLdsplit w e s
  | .ctxSvframe w e => Sys2Proof.Machine.execCtxSvframe w e s
  | .ctxLdframe w e => Sys2Proof.Machine.execCtxLdframe w e s
  | .ctxSvlist w e => Sys2Proof.Machine.execCtxSvlist w e s
  | .ctxSvlistLoad w e => Sys2Proof.Machine.execCtxSvlistLoad w e s
  | .bra w e => Sys2Proof.Machine.execBra w e s
  | .call w e => Sys2Proof.Machine.execCall w e s
  | .mwait w e => Sys2Proof.Machine.execMwait w e s
  | .msig w e => Sys2Proof.Machine.execMsig w e s
  | .rkmrg w e => Sys2Proof.Machine.execRkmrg w e s
  | .reservedOp w ext => Sys2Proof.Machine.execReservedOp w ext s
  | .resultWriteback gid => Sys2Proof.Machine.execResultWriteback gid s
  | .memoryResponse gid => Sys2Proof.Machine.execMemoryResponse gid s
  | .refusalUrgent gid sp => Sys2Proof.Machine.execRefusalUrgent gid sp s
  | .waitCountUrgent gid sp => Sys2Proof.Machine.execWaitCountUrgent gid sp s
  | .frameGrant core sc => Sys2Proof.Machine.execFrameGrant core sc s
  | .eseTrigger core sc => Sys2Proof.Machine.execEseTrigger core sc s
  | .evictionComplete core sc => Sys2Proof.Machine.execEvictionComplete core sc s
  | .fillComplete gid fn => Sys2Proof.Machine.execFillComplete gid fn s
  | .parkTimeout gid sp => Sys2Proof.Machine.execParkTimeout gid sp s
  | .matrixStepAccept core eng => Sys2Proof.Machine.execMatrixStepAccept core eng s
  | .matrixStepStart core eng => Sys2Proof.Machine.execMatrixStepStart core eng s
  | .matrixStepWrite core eng fails => Sys2Proof.Machine.execMatrixStepWrite core eng fails s
  | .pairTimeout core eng => Sys2Proof.Machine.execPairTimeout core eng s
  | .finPhaseEnd core eng => Sys2Proof.Machine.execFinPhaseEnd core eng s
  | .thrUpdate gid => Sys2Proof.Machine.execThrUpdate gid s
  | .tileClearDone core eng tile => Sys2Proof.Machine.execTileClearDone core eng tile s
  | .tokenGrant core eng tile => Sys2Proof.Machine.execTokenGrant core eng tile s
  | .tokenHandoff core eng tile => Sys2Proof.Machine.execTokenHandoff core eng tile s
  | .mergeAccept core eng => Sys2Proof.Machine.execMergeAccept core eng s
  | .mergeComplete core eng => Sys2Proof.Machine.execMergeComplete core eng s
  | .rkcfgComplete gid => Sys2Proof.Machine.execRkcfgComplete gid s
  | .assayAccept stack => Sys2Proof.Machine.execAssayAccept stack s
  | .assayComplete stack => Sys2Proof.Machine.execAssayComplete stack s
  | .gpkFill gid => Sys2Proof.Machine.execGpkFill gid s
  | .releaseWindowPerform core => Sys2Proof.Machine.execReleaseWindowPerform core s
  | .stall die entry qkey => Sys2Proof.Machine.execStall die entry qkey s
  | .faultRecordWrite die => Sys2Proof.Machine.execFaultRecordWrite die s
  | .deferAppend die => Sys2Proof.Machine.execDeferAppend die s
  | .barWaitRelease gid sp => Sys2Proof.Machine.execBarWaitRelease gid sp s
  | .copyComplete cid => Sys2Proof.Machine.execCopyComplete cid s
  | .tileTransferComplete gid => Sys2Proof.Machine.execTileTransferComplete gid s
  | .translationWalk tag => Sys2Proof.Machine.execTranslationWalk tag s
  | .atsResponse tag ans => Sys2Proof.Machine.execAtsResponse tag ans s
  | .priResponse tag ok => Sys2Proof.Machine.execPriResponse tag ok s
  | .hostRouteTimeout tag => Sys2Proof.Machine.execHostRouteTimeout tag s
  | .atsInvalidation pasid va => Sys2Proof.Machine.execAtsInvalidation pasid va s
  | .writeAck gid => Sys2Proof.Machine.execWriteAck gid s
  | .clockMarker src dst => Sys2Proof.Machine.execClockMarker src dst s
  | .mwaitSatisfied gid sp => Sys2Proof.Machine.execMwaitSatisfied gid sp s
  | .qcOpen c => Sys2Proof.Machine.execQcOpen c s
  | .qcClose c => Sys2Proof.Machine.execQcClose c s
  | .qcNotify c => Sys2Proof.Machine.execQcNotify c s
  | .qcFlush c => Sys2Proof.Machine.execQcFlush c s
  | .qcNode c => Sys2Proof.Machine.execQcNode c s
  | .qcResident c => Sys2Proof.Machine.execQcResident c s
  | .qcbWriteback qkey => Sys2Proof.Machine.execQcbWriteback qkey s
  | .taskDecrement die => Sys2Proof.Machine.execTaskDecrement die s
  | .nodeRecordArrival qkey => Sys2Proof.Machine.execNodeRecordArrival qkey s
  | .nodeReserve qkey => Sys2Proof.Machine.execNodeReserve qkey s
  | .nodeFlushExpiry qkey => Sys2Proof.Machine.execNodeFlushExpiry qkey s
  | .residency qkey => Sys2Proof.Machine.execResidency qkey s
  | .sotakeTake die hart idx => Sys2Proof.Machine.execSotakeTake die hart idx s
  | .sotakePeek die hart idx => Sys2Proof.Machine.execSotakePeek die hart idx s
  | .soneed die hart addr => Sys2Proof.Machine.execSoneed die hart addr s
  | .soavail die hart v => Sys2Proof.Machine.execSoavail die hart v s
  | .soplaceStage die hart v => Sys2Proof.Machine.execSoplaceStage die hart v s
  | .soplaceCommit die hart v => Sys2Proof.Machine.execSoplaceCommit die hart v s
  | .sopre die hart v => Sys2Proof.Machine.execSopre die hart v s
  | .soresm die hart v => Sys2Proof.Machine.execSoresm die hart v s
  | .sokill die hart v => Sys2Proof.Machine.execSokill die hart v s
  | .soevt die hart => Sys2Proof.Machine.execSoevt die hart s
  | .illegalCsrAccess die hart csr => Sys2Proof.Machine.execIllegalCsrAccess die hart csr s
  | .preemptComplete pid => Sys2Proof.Machine.execPreemptComplete pid s
  | .saveTimeout pid => Sys2Proof.Machine.execSaveTimeout pid s
  | .timeSliceExpiry pid => Sys2Proof.Machine.execTimeSliceExpiry pid s
  | .teamCompletionCount pid => Sys2Proof.Machine.execTeamCompletionCount pid s
  | .microcodeLoad die img sig key => Sys2Proof.Machine.execMicrocodeLoad die img sig key s
  | .handlerEntry gid => Sys2Proof.Machine.execHandlerEntry gid s
  | .halt part cause => Sys2Proof.Machine.execHalt part cause s
  | .watchdog gid => Sys2Proof.Machine.execWatchdog gid s
  | .debugStop gid => Sys2Proof.Machine.execDebugStop gid s
  | .debugStep gid sp => Sys2Proof.Machine.execDebugStep gid sp s
  | .breakpointStop gid sp => Sys2Proof.Machine.execBreakpointStop gid sp s
  | .debugRegisterWrite gid r v => Sys2Proof.Machine.execDebugRegisterWrite gid r v s
  | .hostBar2Write fn off data => Sys2Proof.Machine.execHostBar2Write fn off data s
  | .flr vf => Sys2Proof.Machine.execFlr vf s
  | .flrCleanup vf => Sys2Proof.Machine.execFlrCleanup vf s
  | .flrAllowanceExpiry vf => Sys2Proof.Machine.execFlrAllowanceExpiry vf s
  | .flrComplete vf => Sys2Proof.Machine.execFlrComplete vf s
  | .peerPacketReceive p => Sys2Proof.Machine.execPeerPacketReceive p s
  | .pctlEnable part en => Sys2Proof.Machine.execPctlEnable part en s
  | .pctlHaltRequest part => Sys2Proof.Machine.execPctlHaltRequest part s
  | .cmaskWrite part word v => Sys2Proof.Machine.execCmaskWrite part word v s
  | .fltrsp part v => Sys2Proof.Machine.execFltrsp part v s
  | .attRequest part v => Sys2Proof.Machine.execAttRequest part v s
  | .attestationReport part => Sys2Proof.Machine.execAttestationReport part s
  | .registerWrite who page off v => Sys2Proof.Machine.execRegisterWrite who page off v s
  | .egctlGo n v => Sys2Proof.Machine.execEgctlGo n v s
  | .edgeDrainEnd n opens => Sys2Proof.Machine.execEdgeDrainEnd n opens s
  | .quiesceEnd n => Sys2Proof.Machine.execQuiesceEnd n s
  | .retrainEnd n up => Sys2Proof.Machine.execRetrainEnd n up s
  | .edgeReady n => Sys2Proof.Machine.execEdgeReady n s
  | .planeMapUpdate dev planes => Sys2Proof.Machine.execPlaneMapUpdate dev planes s
  | .packetRelay p => Sys2Proof.Machine.execPacketRelay p s
  | .relayDrop p => Sys2Proof.Machine.execRelayDrop p s
  | .quickSample isl margin vmv => Sys2Proof.Machine.execQuickSample isl margin vmv s
  | .fullSweep isl fmax table allPass => Sys2Proof.Machine.execFullSweep isl fmax table allPass s
  | .clkStep isl up => Sys2Proof.Machine.execClkStep isl up s
  | .pislWrite isl v => Sys2Proof.Machine.execPislWrite isl v s
  | .powerOnReset => Sys2Proof.Machine.execPowerOnReset s
  | .selfTestDone bit pass => Sys2Proof.Machine.execSelfTestDone bit pass s
  | .coreSpare core phys trusted => Sys2Proof.Machine.execCoreSpare core phys trusted s
  | .recover part => Sys2Proof.Machine.execRecover part s
  | .svcNop part => Sys2Proof.Machine.execSvcNop part s
  | .svcMint part => Sys2Proof.Machine.execSvcMint part s
  | .svcQcmd part => Sys2Proof.Machine.execSvcQcmd part s
  | .svcLoad part ok => Sys2Proof.Machine.execSvcLoad part ok s
  | .svcFetch part bufAddr => Sys2Proof.Machine.execSvcFetch part bufAddr s
  | .svcFopen part ok => Sys2Proof.Machine.execSvcFopen part ok s
  | .svcFwrite part ok => Sys2Proof.Machine.execSvcFwrite part ok s
  | .svcFread part ok data => Sys2Proof.Machine.execSvcFread part ok data s
  | .svcFclose part => Sys2Proof.Machine.execSvcFclose part s
  | .svcResume part => Sys2Proof.Machine.execSvcResume part s
  | .svcKill part => Sys2Proof.Machine.execSvcKill part s
  | .debugContinue n => Sys2Proof.Machine.execDebugContinue n s
  | .powerRemoval => Sys2Proof.Machine.execPowerRemoval s
  | .manufacture secret cert config => Sys2Proof.Machine.execManufacture secret cert config s
  | .functionLoss bit => Sys2Proof.Machine.execFunctionLoss bit s
  | .drainRequestCutoff n => Sys2Proof.Machine.execDrainRequestCutoff n s
  | .reservedCommand c op => Sys2Proof.Machine.execReservedCommand c op s

end Sys2Proof.Machine
end

