-- ==== Sys2Proof/Machine/Step.lean ====
section
/-!
DEFINITION. One step of the package: the next event of the agenda, or the issue of one split; and the placing of one
instruction where the next step fetches.
-/
namespace Sys2Proof.Machine

/-- What an unpowered package takes: power, and what its maker does to it (R5, R453). -/
def needsNoPower : Instr → Bool
  | .powerOnReset | .powerRemoval | .manufacture _ _ _ => true
  | _ => false

/-- The first of some events that changes the state; with none, only time passes. -/
def happen (s : State) (events : List Instr) : Host.Outcome State Fault Refusal :=
  match firstChange exec ({ s with trap := none } : State).tick events with
  | some o => o
  | none => .next ({ s with trap := none } : State).tick

/-- What goes on while no split issues. Sixteen steps in which the first of some events that changes the state happens take
turns with sixteen in which a waiting split, the one tried longest ago, tries its instruction again, so that neither holds the
other up; where the one has nothing to do, the other goes on (log 13). -/
def background (s : State) (events : List Instr) : Host.Outcome State Fault Refusal :=
  let again := (leastRank s.waitingSplits).map fun w => issue exec w.2.1 w.2.2 s.tick
  if s.turn % 32 < 16 then (firstChange exec ({ s with trap := none } : State).tick events).getD (again.getD (happen s []))
  else again.getD (happen s events)

/-- A step: the agenda's next event happens, or a split issues. What goes on in the background gets every sixteenth step, so
that a split that spins holds nothing up, and every step in which no split is ready (R13). -/
def step (s : State) : Host.Outcome State Fault Refusal :=
  match s.agenda with
  | i :: rest =>
    if s.powered || needsNoPower i then exec i ({ s with agenda := rest, trap := none } : State).tick
    else .next { s with agenda := rest }
  | [] =>
    if !s.powered then .fault .noPower
    else
      match s.pick with
      | some (gid, sp) =>
        if s.turn % 16 = 15 then background s (if s.turn % 512 = 15 then s.eseTriggers ++ s.prompt else s.prompt)
        else issue exec gid sp s.tick
      | none => background s (s.prompt ++ s.timeouts)

/-- The state with an instruction placed where the next step fetches it (log 12). -/
def State.withFetchWord (s : State) (nbits w : Nat) : State := s.placed (tableBytes nbits w)

end Sys2Proof.Machine
end

