-- ==== Sys2Proof/Safety.lean ====
section
/-!
DEFINITION. What a safe run means, and what statements say of a step: the canonical form of the memories, when an instruction of
the lane set or the uniform set can execute, and what each shape of instruction changes and leaves unchanged.
-/
namespace Sys2Proof.Machine

/-! ### Safe states -/

/-- Every memory of the package is in canonical form. -/
def State.memWf (s : State) : Bool :=
  s.mem.wf && s.teamMem.wf && s.scratch.wf && s.accMem.wf && s.hostMem.wf && s.officeMem.wf

/-! ### What the issue of an instruction leaves alone -/

/-- The split behind an instruction of `len` bytes. -/
def Split.past (p : Split) (len : Nat) : Split := { p with pc := p.pc + BitVec.ofNat 64 len, status := .run, arrived := false }

/-- The frame without its registers: its descriptor (R181). -/
def Frame.bare (f : Frame) : Frame := { f with regs := [] }

/-- Nothing differs but the split in focus, which has gone on behind an instruction of `len` bytes. -/
structure Passed (len : Nat) (s t : State) : Prop where
  rest : t = { s with grp := { s.grp with spl := t.grp.spl } }
  moved : t.grp.spl = s.grp.spl.past len

/-! ### Instructions of the lane set -/

/-- The lane registers lie inside the frame (R57) and in frames that exist. -/
def State.reads (s : State) (regs : List Nat) : Bool :=
  regs.all fun r => decide (r < s.grp.frameSize) && (locate s.grp.frames s.grp.spl.chain r).isSome

/-- A lane instruction can execute: its registers can be read, its effective mask is not zero, and the two registers of
a destination pair are two. -/
def State.laneReady (s : State) (w : LaneShort) (gn wide : Bool) (regs : List Nat) : Bool :=
  s.reads regs && s.grp.effMask w.g gn != 0
  && (w.nw || !wide
      || ((locate s.grp.frames s.grp.spl.chain (w.d.toNat + 1)).isSome
          && locate s.grp.frames s.grp.spl.chain (w.d.toNat + 1) != locate s.grp.frames s.grp.spl.chain w.d.toNat))

/-- Whether a lane instruction with destination d, and d + 1 where `wide`, writes register `i` of frame `fn` in lane `l`. -/
def Group.laneTarget (g : Group) (w : LaneShort) (gn wide : Bool) (fn i l : Nat) : Bool :=
  !w.nw && (g.effMask w.g gn).getLsbD l
  && (locate g.frames g.spl.chain w.d.toNat == some (fn, i)
      || (wide && locate g.frames g.spl.chain (w.d.toNat + 1) == some (fn, i)))

/-- What a lane instruction of `len` bytes with result `r l` in lane `l` does, all of it: the destination register, or the pair
where `wide`, holds the result in the lanes of the effective mask (unless nw is 1); b0 holds it and zero in other lanes, and
the older latches move up; no other lane register, uniform register, predicate, special register, byte of memory or other
part of the machine changes. -/
structure LaneEffect (w : LaneShort) (gn wide : Bool) (len : Nat) (r : Nat → Dword) (s t : State) : Prop where
  low : ∀ l < 32, (s.grp.effMask w.g gn).getLsbD l = true → w.nw = false → t.grp.laneGet w.d.toNat l = (r l).extractLsb' 0 32
  high : ∀ l < 32, (s.grp.effMask w.g gn).getLsbD l = true → w.nw = false → wide = true →
    t.grp.laneGet (w.d.toNat + 1) l = (r l).extractLsb' 32 32
  kept : ∀ fn i l, l < 32 → s.grp.laneTarget w gn wide fn i l = false → t.grp.frameGet fn i l = s.grp.frameGet fn i l
  bare : ∀ fn, (t.grp.frame? fn).map Frame.bare = (s.grp.frame? fn).map Frame.bare
  latch : ∀ l < 32, t.grp.latchGet 0 l = if (s.grp.effMask w.g gn).getLsbD l then r l else 0
  older : ∀ j l, j < 3 → t.grp.latchGet (j + 1) l = s.grp.latchGet j l
  uni : ∀ n, t.grp.uniGet n = s.grp.uniGet n
  upred : ∀ n, t.grp.qGet n = s.grp.qGet n
  moved : t.grp.spl = s.grp.spl.past len
  rest : t = { s with grp := { s.grp with spl := t.grp.spl, frames := t.grp.frames, latches := t.grp.latches, pend := t.grp.pend } }

/-- What a lane instruction that writes predicates does, all of it: predicate `n` holds `f n l` in the lanes `l` of mask `m`
for each `n` that `ns` holds of; b0 is zero, the older latches move up, and nothing else changes. -/
structure PredEffect (ns : Nat → Bool) (m : Mask) (len : Nat) (f : Nat → Nat → Bool) (s t : State) : Prop where
  set : ∀ n l, l < 32 → n ≠ 0 → ns n = true → m.getLsbD l = true → t.grp.predGet n l = f n l
  kept : ∀ n l, l < 32 → (n = 0 ∨ ns n = false ∨ m.getLsbD l = false) → t.grp.predGet n l = s.grp.predGet n l
  latch : ∀ l, t.grp.latchGet 0 l = 0
  older : ∀ j l, j < 3 → t.grp.latchGet (j + 1) l = s.grp.latchGet j l
  uni : ∀ n, t.grp.uniGet n = s.grp.uniGet n
  upred : ∀ n, t.grp.qGet n = s.grp.qGet n
  moved : t.grp.spl = s.grp.spl.past len
  rest : t = { s with grp := { s.grp with spl := t.grp.spl, preds := t.grp.preds, latches := t.grp.latches, pend := t.grp.pend } }

/-! ### Instructions of the uniform set -/

/-- A uniform instruction can execute: its guard condition holds (R40), or it has begun and waits. -/
def State.uniReady (s : State) (g : BitVec 3) (gn : Bool) : Bool := (s.grp.qGet g.toNat ^^ gn) || s.grp.spl.begun

/-- What a uniform instruction of `len` bytes that writes `v` to s(n) does, all of it: the issuing split reads the value, and
nothing else changes. -/
structure UniEffect (n : Nat) (len : Nat) (v : Dword) (s t : State) : Prop where
  set : t.grp.uniGet n = v
  kept : ∀ k, k ≠ n → t.grp.uniGet k = s.grp.uniGet k
  upred : ∀ k, t.grp.qGet k = s.grp.qGet k
  moved : t.grp.spl = s.grp.spl.past len
  rest : t = { s with grp := { s.grp with spl := t.grp.spl, uni := t.grp.uni, pend := t.grp.pend } }

/-- What a uniform instruction of `len` bytes that writes `b` to q(n) does, all of it; q0 is never written. -/
structure UpredEffect (n : Nat) (len : Nat) (b : Bool) (s t : State) : Prop where
  set : n ≠ 0 → n < 8 → t.grp.qGet n = b
  kept : ∀ k, k < 8 → (k ≠ n ∨ k = 0) → t.grp.qGet k = s.grp.qGet k
  uni : ∀ k, t.grp.uniGet k = s.grp.uniGet k
  moved : t.grp.spl = s.grp.spl.past len
  rest : t = { s with grp := { s.grp with spl := t.grp.spl, q := t.grp.q, pend := t.grp.pend } }

/-! ### Completion and results -/

/-- The instruction answers a next state, of which `p` holds. -/
def Completes (i : Instr) (s : State) (p : State → Prop) : Prop := ∃ t, exec i s = .next t ∧ p t

/-- A lane instruction that rounds `n` elements in each lane: the effect of its results, and under RS every active lane of the
split has taken n draws (R78). -/
structure RoundEffect (w : LaneShort) (e : EA) (wide : Bool) (len n : Nat) (r : Nat → Dword) (s t : State) : Prop where
  lane : LaneEffect w e.gn wide len r s { t with grp := { t.grp with lfsr := s.grp.lfsr } }
  draws : ∀ l < 32, t.grp.lfsrGet l =
    if s.grp.stochastic e = true ∧ s.grp.spl.mask.getLsbD l = true then (Machine.draws n (s.grp.lfsrGet l)).getLastD (s.grp.lfsrGet l)
    else s.grp.lfsrGet l

/-- Every element of an integer result is the exact integer `x`, clamped to the type's range under sat, modulo 2^n (R83, R94). -/
def IntegerResult (t : Ty) (sat : Bool) (x : Nat → Int) (r : Dword) : Prop :=
  ∀ j < elemCount t, (elemOf t r j : Int) =
    (if sat then max (intMin (elemBits t) (intSigned t)) (min (intMax (elemBits t) (intSigned t)) (x j)) else x j)
      % 2 ^ elemBits t

/-- Bit `i` of a result of W bits is `b i`, and the bits above are zero. -/
def BitsResult (width : Nat) (b : Nat → Bool) (r : Dword) : Prop := ∀ i, r.getLsbD i = (decide (i < width) && b i)

/-- Every element of a float result is the pattern `x` gives (R77). -/
def FloatResult (t : Ty) (x : Nat → Nat) (r : Dword) : Prop := ∀ j < elemCount t, elemOf t r j = x j % 2 ^ elemBits t

/-- The result bit of the logic and shift instructions of R95 on W bits: source a, source b and the shift count. -/
def logicBit (op width : Nat) (a b : Dword) (c i : Nat) : Bool :=
  match op with
  | 0 => a.getLsbD i && b.getLsbD i
  | 1 => a.getLsbD i || b.getLsbD i
  | 2 => a.getLsbD i ^^ b.getLsbD i
  | 3 => decide (c ≤ i) && a.getLsbD (i - c)
  | 4 => decide (i + c < width) && a.getLsbD (i + c)
  | _ => a.getLsbD (min (i + c) (width - 1))

/-- A cross-lane result: s(d) holds `v`, b0 is zero, the older latches move up, and nothing else changes (R122). -/
structure CrossEffect (n : Nat) (v : Dword) (s t : State) : Prop where
  set : t.grp.uniGet n = v
  kept : ∀ k, k ≠ n → t.grp.uniGet k = s.grp.uniGet k
  upred : ∀ k, t.grp.qGet k = s.grp.qGet k
  latch : ∀ l, t.grp.latchGet 0 l = 0
  older : ∀ j l, j < 3 → t.grp.latchGet (j + 1) l = s.grp.latchGet j l
  moved : t.grp.spl = s.grp.spl.past 8
  rest : t = { s with grp := { s.grp with
    spl := t.grp.spl, uni := t.grp.uni, latches := t.grp.latches, pend := t.grp.pend, lfsr := t.grp.lfsr } }

/-- The operations of R105 by number: add, sub, mul, min, max, and, or, xor, shl, shr, sha, on 64 bits. -/
def uniformResult (op : Nat) (a b : Dword) : Dword :=
  match op with
  | 0 => a + b
  | 1 => a - b
  | 2 => a * b
  | 3 => if a.sle b then a else b
  | 4 => if a.sle b then b else a
  | 5 => a &&& b
  | 6 => a ||| b
  | 7 => a ^^^ b
  | 8 => if b.toNat < 64 then a <<< b.toNat else 0
  | 9 => if b.toNat < 64 then a >>> b.toNat else 0
  | _ => a.sshiftRight (min b.toNat 63)

/-- The instruction takes a group fault over lanes `m` (R354, R356). -/
def TakesFault (i : Instr) (s : State) (cause : Nat) (m : Mask) : Prop := exec i s = .next (s.raise (s.groupTrap cause 0 m))

/-- The state with another issuing split and nothing else changed. -/
def State.withSpl (s : State) (p : Split) : State := { s with grp := { s.grp with spl := p } }

/-- The depth of the issuing split's top frame. -/
def Group.depth (g : Group) : Nat := (g.top?.map (·.dep)).getD 0

/-- The group after a granted call (R198): a new frame `fn` one deeper, its descriptor, one more descriptor kept by the sub-core
(R181), and the callee's first address. -/
def Group.called (g : Group) (fn : Nat) (d : BitVec 6) (target rpc : Dword) (gmap : List Nat) : Group :=
  { g with
    frames := insertKey g.frames fn
      { fn := fn, dep := g.depth + 1, pfn := g.spl.chain.headD 0, rpc := rpc, kc := (d.extractLsb' 1 2).toNat
        fc := (d.extractLsb' 3 3).toNat, ovll := false, res := true, gmap := gmap, regs := [] }
    spl := { g.spl with chain := fn :: g.spl.chain, near := min 16 (g.spl.near + 1), pc := target, status := .run, arrived := false } }

/-- The value of the bytes at some places, the first lowest (R8). -/
def State.valueAt (s : State) (ls : List Loc) : Nat := leNat (ls.map s.seeGet)

/-- The place of the spill area that an instruction of the issuing split writes or reads is reached (R182). -/
def State.spillOk (s : State) (k : Access) (vas : List Nat) : Prop :=
  vas = [] ∨ (s.spillReach s.grp.gid s.grp.spl.num k vas).2 = .ok

/-- What a call with destination field `d` does (R198): STACK_OVERFLOW at depth 127 or with no frame number left; else a frame
of the size and overlap that the field names, at once where its granules are free and no request is ahead, or a request. The
descriptor that leaves the resident 16 is written to the spill area (R181). -/
structure CallEffect (i : Instr) (d : BitVec 6) (target rpc : Dword) (s : State) : Prop where
  noNumber : s.grp.freeFrame = none → TakesFault i s causeStack s.grp.spl.mask
  tooDeep : ∀ fn, s.grp.freeFrame = some fn → 127 ≤ s.grp.depth → TakesFault i s causeStack s.grp.spl.mask
  granted : ∀ fn, s.grp.freeFrame = some fn → s.grp.depth < 127 →
    s.mayGrant s.grp.sub s.grp.gid s.grp.spl.num ((d.extractLsb' 3 3).toNat + 1) = true → s.spillOk .write s.grp.pushPlaces →
    Completes i s fun t =>
      t.grp = s.grp.called fn d target rpc (s.takeGranules s.grp.sub ((d.extractLsb' 3 3).toNat + 1))
      ∧ (s.grp.spl.near < 16 → t = { s with grp := t.grp })
      ∧ (∀ out f l c es, s.grp.pushedOut = some out → s.grp.frame? out = some f →
          s.translate (s.ctxOf s.grp.gid) (s.grp.spill.toNat + 32 * out) .write = .ok l c es → l.space < 4 →
          t.valueAt ((List.range 32).map fun i => l.plus i) = f.descriptor.toNat)
      ∧ ∀ i q, i < overlapOf (d.extractLsb' 1 2).toNat →
          locate s.grp.frames s.grp.spl.chain (s.grp.frameSize - overlapOf (d.extractLsb' 1 2).toNat + i) = some q →
          locate t.grp.frames t.grp.spl.chain i = some q
  waits : ∀ fn, s.grp.freeFrame = some fn → s.grp.depth < 127 →
    s.mayGrant s.grp.sub s.grp.gid s.grp.spl.num ((d.extractLsb' 3 3).toNat + 1) = false →
    Completes i s fun t =>
      t.grp.spl = { s.grp.spl with status := .frameWait }
      ∧ t = { s with grp := { s.grp with spl := t.grp.spl }, requests := t.requests }
      ∧ ∃ r ∈ t.requests, r.gid = s.grp.gid ∧ r.sp = s.grp.spl.num

/-- Some split, one that a handler entry froze among them, waits on barrier `k` in the phase of parity `ph`. -/
def State.waitsAt (s : State) (k : Nat) (ph : Bool) : Bool :=
  (s.grp :: s.others).any fun g =>
    match s.team? (teamOf g.gid) with
    | none => false
    | some t => g.allSplits.any (Split.waitsOn t k ph)

/-- What a `bar` that changes the word of barrier `k` to `v` does: no other barrier changes; where the phase ends by that, nobody
waits for it any more (R236), and where nobody waited nothing else changes but that an arrival at cluster scope sends the
group's writes. -/
structure BarrierEffect (k : Nat) (v : Dword) (s t : State) : Prop where
  set : t.bar k = v
  kept : ∀ n, n ≠ k → t.bar n = s.bar n
  freed : barPh v ≠ barPh (s.bar k) → t.waitsAt k (barPh (s.bar k)) = false
  moved : s.grp.sibs = [] ∨ s.waitsAt k (barPh (s.bar k)) = false → t.grp.spl = s.grp.spl.past 8
  quiet : s.waitsAt k (barPh (s.bar k)) = false → t = { s with
    grp := { s.grp with spl := t.grp.spl, uni := t.grp.uni, pend := t.grp.pend }, barriers := t.barriers, flights := t.flights }
  rest : t = { s with grp := t.grp, others := t.others, barriers := t.barriers, flights := t.flights }

/-- The fields of barrier word `w`: EXP, PEND, PH and TX (R231). -/
def BarrierIs (w : Dword) (exp pend : Nat) (ph : Bool) (tx : Int) : Prop :=
  barExp w = exp ∧ barPend w = pend ∧ barPh w = ph ∧ barTx w = tx

/-- A barrier word whose pending count has become `pend` and whose byte count `tx`: at zero and zero the phase ends (R232). -/
def BarrierNow (w b : Dword) (pend : Nat) (tx : Int) : Prop :=
  if pend = 0 ∧ tx = 0 then BarrierIs w (barExp b) (barExp b) (!barPh b) 0 else BarrierIs w (barExp b) pend (barPh b) tx

/-- What a fence does (R265, R266, R290): an acquire beyond `.team` empties the core's L1 of global and scratch lines; a release beyond
`.team` leaves no write of the group on its way to a home of its die, and the others in their channels, and at `.pkg` steps the
die's clock and sends its markers; nothing else changes. -/
structure FenceEffect (acq rel : Bool) (sc : Scope) (s t : State) : Prop where
  lines : t.l1 = if acq = true ∧ sc ≠ .grp ∧ sc ≠ .team then s.l1.filter fun e => !decide (e.1 / 2 ^ 60 = s.grp.core) else s.l1
  clock : ∀ k, Sparse.get 0 t.vrel k =
    if rel = true ∧ sc = .pkg ∧ k = 9 * s.die then Sparse.get 0 s.vrel k + 1 else Sparse.get 0 s.vrel k
  markers : t.markers = if rel = true ∧ sc = .pkg then
      s.markers ++ ((List.range 9).filter (· ≠ s.die)).map fun d => { src := s.die, dst := d, value := Sparse.get 0 s.vrel (9 * s.die) + 1 }
    else s.markers
  sent : rel = true → sc ≠ .grp → sc ≠ .team → ∀ f ∈ t.flights, f.gid = s.grp.gid →
    if f.loc.home = s.die then f.landed = true else f.sent = true
  flying : ∀ f ∈ s.flights, ∃ x ∈ t.flights, x = { f with sent := x.sent, landed := x.landed }
  still : rel = false ∨ sc = .grp ∨ sc = .team → t.flights = s.flights
  moved : t.grp.spl = s.grp.spl.past 8
  rest : t = { s with grp := { s.grp with spl := t.grp.spl }, l1 := t.l1, vrel := t.vrel, markers := t.markers, flights := t.flights }

/-! ### Memory -/

/-- The places of an element's bytes, in order. -/
def Place.locs : Place → List Loc
  | .ok ps => ps.flatMap fun p => (List.range p.len).map fun i => p.loc.plus i
  | _ => []

/-- The table entries that map an element. -/
def Place.entries : Place → List Nat
  | .ok ps => ps.filterMap (·.entry)
  | _ => []

/-- An element is found: it is aligned, inside its space and mapped (R240). -/
def Place.isFound : Place → Bool
  | .ok _ => true
  | _ => false

/-- The place of lane `l`'s element of `n` bytes (R45, R240). -/
def State.laneElem (s : State) (k : Access) (w : LaneShort) (e : EM) (n off l : Nat) : Place :=
  s.checkElem k e.space l (s.grp.addr w e.c n off l) n

/-- A byte of a table entry of the list: the walker sets A and D in it (R383). -/
def Loc.inEntry (l : Loc) (es : List Nat) : Bool := l.space == 0 && es.any fun p => decide (p ≤ l.addr) && decide (l.addr < p + 8)

/-- Every byte of every memory is unchanged but those at the given places and the table entries that mapped them. -/
def BytesKept (stored : Loc → Prop) (es : List Nat) (s t : State) : Prop :=
  ∀ l : Loc, l.space ≤ 4 → ¬stored l → l.inEntry es = false → t.seeGet l = s.seeGet l

/-- A core's L1 holds what the homes hold, and no write of another core is on its way. -/
def State.coherent (s : State) (core : Nat) : Prop :=
  (∀ l, s.coreGet core l = s.seeGet l) ∧ ∀ f ∈ s.flights, f.core = core ∨ f.landed = true

/-- A byte as the issuing group sees it: its own write that is held in the release window counts (R215, R272). -/
def State.groupSees (s : State) (l : Loc) : Byte :=
  (heldByte s.grp.gid l ((lookupKey s.relwin s.grp.core).getD [])).getD (s.seeGet l)

/-- The value of the bytes at some places as the issuing group sees them, the first lowest. -/
def State.seenAt (s : State) (ls : List Loc) : Nat := leNat (ls.map s.groupSees)

/-- The pending writes of two groups are the same, but that loads which could still be performed have been (R276). -/
def samePend (a b : List Pend) : Prop := (a.map fun e => { e with late := [] }) = b.map fun e => { e with late := [] }

/-- A byte of host memory that the hub's cache holds clean while the host has written another (R388): an access past the cache sees
the host's. -/
def State.stale (s : State) (l : Loc) : Prop :=
  l.space = 4 ∧ ∃ h, lookupKey s.hostCache (l.addr / 128) = some h ∧ h.dirty.getLsbD (l.addr % 128) = false
    ∧ s.hostGet l.addr ≠ s.hostMem.get l.addr

/-- What an access may change besides registers and the bytes it stores: the walker's bits and answered parks (R383, R384), L1 lines
(R262), the vector clocks, stamps and markers (R267), how far writes are on their way (R263, R265), the hub's host cache (R388)
and the context's DRAIN (R375). -/
def State.accessed (s t : State) : State :=
  { s with grp := t.grp, mem := t.mem, teamMem := t.teamMem, scratch := t.scratch, accMem := t.accMem, hostMem := t.hostMem
           hostCache := t.hostCache, l1 := t.l1, free := t.free, vapp := t.vapp, vrel := t.vrel, hubVec := t.hubVec
           stamps := t.stamps, markers := t.markers, contexts := t.contexts, parkedAccesses := t.parkedAccesses
           flights := t.flights }

/-- What a store may change besides: packets to peer devices leave (R243), and the group's own held writes to the bytes it stores
are overtaken (R271); those of other groups stand. -/
structure Stored (s t : State) : Prop where
  held : ∀ c, (((lookupKey t.relwin c).getD []).filter fun h => h.gid != s.grp.gid)
    = ((lookupKey s.relwin c).getD []).filter fun h => h.gid != s.grp.gid
  sent : ∃ ps, t.sent = s.sent ++ ps
  rest : t = { s.accessed t with relwin := t.relwin, sent := t.sent }

/-- What a load that gives `r l` to lane `l` does, all of it but `%kovf`: the effect of its results, and no byte of memory changes. -/
structure LoadEffect (w : LaneShort) (e : EM) (r : Nat → Dword) (es : List Nat) (s t : State) : Prop where
  lane : LaneEffect w e.gn e.t.wide 8 r s { s with grp := { t.grp with kovf := s.grp.kovf, specials := s.grp.specials } }
  bytes : BytesKept (fun _ => False) es s t
  rest : t = s.accessed t

/-- What an instruction that only stores does to the machine besides memory: b0 is zero, the older latches move up, the group's
acknowledgement counter counts its write operations, and nothing else changes. -/
structure StoreRest (s t : State) : Prop where
  latch : ∀ l, t.grp.latchGet 0 l = 0
  older : ∀ j l, j < 3 → t.grp.latchGet (j + 1) l = s.grp.latchGet j l
  ack : s.grp.ack ≤ t.grp.ack
  moved : t.grp.spl = s.grp.spl.past 8
  pend : samePend t.grp.pend s.grp.pend
  group : t.grp = { s.grp with spl := t.grp.spl, latches := t.grp.latches, ack := t.grp.ack, pend := t.grp.pend }
  rest : Stored s t

/-- Byte `i` of lane `l`'s element is the last that the instruction stores at its place: no later byte of the element and no
active lane above stores there. -/
def State.lastAt (s : State) (w : LaneShort) (e : EM) (n off : Nat) (m : Mask) (l i : Nat) (p : Loc) : Prop :=
  let ls (k : Nat) : List Loc := (s.laneElem .write w e n off k).locs
  (ls l)[i]? = some p ∧ (∀ j, i < j → (ls l)[j]? ≠ some p) ∧ ∀ k < 32, l < k → m.getLsbD k = true → p ∉ ls k

/-- The table entries that map the elements of the lanes of `m`. -/
def State.laneEntries (s : State) (k : Access) (w : LaneShort) (e : EM) (n off : Nat) (m : Mask) : List Nat :=
  (lanesOf m).flatMap fun l => (s.laneElem k w e n off l).entries

/-- The places that the lanes of `m` store to. -/
def State.storesAt (s : State) (w : LaneShort) (e : EM) (n off : Nat) (m : Mask) (p : Loc) : Prop :=
  ∃ l < 32, m.getLsbD l = true ∧ p ∈ (s.laneElem .write w e n off l).locs

/-- What an atomic instruction does whose lanes find `old l` (R288, R289): the destination takes the old values in the lanes of the
effective mask, b0 is zero, bytes change only at the elements, and nothing else changes but what an access may. -/
structure AtomicEffect (w : LaneShort) (e : EM) (off : Nat) (old : Nat → Dword) (s t : State) : Prop where
  low : ∀ l < 32, (s.grp.effMask w.g e.gn).getLsbD l = true → w.nw = false → t.grp.laneGet w.d.toNat l = (old l).extractLsb' 0 32
  high : ∀ l < 32, (s.grp.effMask w.g e.gn).getLsbD l = true → w.nw = false → e.t.wide = true →
    t.grp.laneGet (w.d.toNat + 1) l = (old l).extractLsb' 32 32
  kept : ∀ fn i l, l < 32 → s.grp.laneTarget w e.gn e.t.wide fn i l = false → t.grp.frameGet fn i l = s.grp.frameGet fn i l
  bare : ∀ fn, (t.grp.frame? fn).map Frame.bare = (s.grp.frame? fn).map Frame.bare
  latch : ∀ l, t.grp.latchGet 0 l = 0
  older : ∀ j l, j < 3 → t.grp.latchGet (j + 1) l = s.grp.latchGet j l
  uni : ∀ n, t.grp.uniGet n = s.grp.uniGet n
  upred : ∀ n, t.grp.qGet n = s.grp.qGet n
  moved : t.grp.spl = s.grp.spl.past 8
  bytes : BytesKept (fun p => s.storesAt w e e.t.size off (s.grp.effMask w.g e.gn) p ∨ s.stale p)
    (s.laneEntries .write w e e.t.size off (s.grp.effMask w.g e.gn)) s t
  group : t.grp = { s.grp with spl := t.grp.spl, frames := t.grp.frames, latches := t.grp.latches, pend := t.grp.pend
                               ack := t.grp.ack, counters := t.grp.counters }
  rest : Stored s t

/-- The places of row `j` of a collective tile (R248). -/
def State.tileRow (s : State) (k : Access) (w : LaneShort) (e : EM) (j : Nat) : Place := s.placeRow k e.space (s.grp.rowAddr w e j)

/-- A tile transfer can go ahead (R248): its registers are in the frame, all lanes are active, its addresses are multiples of 16,
there is room for one more transfer, no other split's ordering point stands before it (R266), and every row is found. -/
def State.tileReady (s : State) (k : Access) (w : LaneShort) (e : EM) : Bool :=
  s.pipeOpen && decide (w.d.toNat + tileRows w ≤ s.grp.frameSize) && s.grp.spl.mask == 0xFFFFFFFF#32 && (s.grp.uniAddr e 4).toNat % 16 == 0
  && ((s.grp.uniGet w.a.toNat).extractLsb' 0 32).toNat % 16 == 0 && s.grp.opRoom 1
  && (List.range (tileRows w)).all fun j => (s.tileRow k w e j).isFound

/-- The accumulator address of lane `l` (R149). -/
def State.accAddr (s : State) (w : LaneShort) (e : EM) (l : Nat) : Nat := (s.grp.addr w e.c 4 e.offset.toNat l).toNat

/-- The places of the four bytes at an accumulator address of the issuing group's engine. -/
def State.accLocs (s : State) (a : Nat) : List Loc := (List.range 4).map fun i => ⟨3, s.grp.engineKey * 2 ^ 18 + a + i⟩

/-- The checks of R149 in their order: alignment, the group's window, the token of the tile. -/
def State.accFault (s : State) (w : LaneShort) (e : EM) (m : Mask) : Option Nat :=
  let any (f : Nat → Bool) : Bool := (List.range 32).any fun l => m.getLsbD l && f (s.accAddr w e l)
  if any fun a => a % 4 != 0 then some causeMisaligned
  else if any fun a => decide (2 ^ 18 ≤ a) || decide (a / 256 < s.grp.awb) || decide (s.grp.awl ≤ a / 256) then some causeWindow
  else if any fun a => (s.tile (a / 2 ^ 14)).token != .held s.grp.gid then some causeToken
  else none

/-- The two registers of a pair exist and are two. -/
def Group.twoRegs (g : Group) (d : Nat) : Bool :=
  (locate g.frames g.spl.chain d).isSome && (locate g.frames g.spl.chain (d + 1)).isSome
  && locate g.frames g.spl.chain d != locate g.frames g.spl.chain (d + 1)

/-! ### Copies, tasks, queues and logs -/

/-- `u` is `s` after an access that stored nothing and changed no register. -/
structure Accessed (s u : State) : Prop where
  pend : samePend u.grp.pend s.grp.pend
  group : u.grp = { s.grp with pend := u.grp.pend }
  bytes : ∀ l, u.seeGet l = s.seeGet l
  rest : u = s.accessed u

/-- The instruction takes a group fault over lanes `m` after an access that stored nothing. -/
def TakesFaultAfter (i : Instr) (s : State) (cause : Nat) (m : Mask) : Prop :=
  ∃ u, Accessed s u ∧ exec i s = .next (u.raise (u.groupTrap cause 0 m))

/-- The walker has already set A and D in the entry that maps a piece (R383). -/
def State.marked (s : State) (p : Piece) : Prop := s.touch p.entry .read = s ∧ s.touch p.entry .write = s

/-- What the completion target of a copy comes to (R251, R252, R254), none where it faults or waits. -/
def State.copyKind (s : State) (kind : Nat) (clu : Bool) (n : Nat) (caddr fval : Dword) : Option CopyKind :=
  match kind with
  | 0 => some .batch
  | 1 => if (s.team.bind fun t => t.barKey clu n).isSome then some (.bar clu n) else none
  | 2 =>
    match s.globalRun .write caddr.toNat 8 with
    | .ok (p :: _) => if caddr.toNat % 8 = 0 then some (.ctr p.loc.space p.loc.addr) else none
    | _ => none
  | _ =>
    match s.globalRun .write caddr.toNat 16 with
    | .ok (p :: _) => if caddr.toNat % 16 = 0 ∧ !foreignObject p.loc then some (.fut caddr fval p.loc.addr) else none
    | _ => none

/-- The table entries that map the completion target of a copy. -/
def State.targetEntries (s : State) (kind : Nat) (caddr : Dword) : List Nat :=
  match kind with
  | 2 => (s.globalRun .write caddr.toNat 8).entries
  | 3 => (s.globalRun .write caddr.toNat 16).entries
  | _ => []

/-- Where a move reads and writes. -/
def Move.route (m : Move) : Nat × Nat × Nat × Nat × Nat := (m.srcSpace, m.src, m.dstSpace, m.dst, m.len)

/-- The pieces of a place that is found. -/
def Place.pieces : Place → List Piece
  | .ok ps => ps
  | _ => []

/-- A copy of `count` bytes has begun: it is in flight with a kind and the given moves, nothing but their destinations may have
changed in memory, and the split goes on. -/
structure CopyBegun (len : Nat) (kind : CopyKind) (count : Nat) (routes : List (Nat × Nat × Nat × Nat × Nat)) (es : List Nat)
    (s t : State) : Prop where
  bytes : BytesKept (fun l => ∃ r ∈ routes, l.space = r.2.2.1 ∧ r.2.2.2.1 ≤ l.addr ∧ l.addr < r.2.2.2.1 + r.2.2.2.2) es s t
  copy : ∃ c, lookupKey t.copies s.nextCopy = some c ∧ c.gid = s.grp.gid ∧ c.core = s.grp.core ∧ c.kind = kind ∧ c.batch = none
    ∧ c.count = count ∧ c.moves.map Move.route = routes
  others : ∀ k, k ≠ s.nextCopy → lookupKey t.copies k = lookupKey s.copies k
  next : t.nextCopy = s.nextCopy + 1
  moved : t.grp.spl = s.grp.spl.past len
  group : t.grp = { s.grp with spl := t.grp.spl, latches := t.grp.latches }
  rest : t = { s.accessed t with copies := t.copies, nextCopy := t.nextCopy }

/-- An object of `n` bytes at virtual address `va` that `fres` and its like can act on: aligned, mapped with the walker's bits set,
and in this device's memory (R318). -/
def State.objectAt (s : State) (va : Dword) (n : Nat) (p : Piece) : Prop :=
  va.toNat % n = 0 ∧ s.globalRun .write va.toNat n = .ok [p] ∧ foreignObject p.loc = false ∧ s.marked p

/-- A handle with the rights `need` names queue `k` (R305). -/
def State.names (s : State) (h : Dword) (need : BitVec 3) (k : Nat) (q : Queue) : Prop :=
  s.checkHandle (s.partition s.grp.gid) h need = .ok k ∧ lookupKey s.queues k = some q

/-- The routing-log slot that an `rlog` names is there, and its state word reads `v` (R329); `k` says whether the instruction may
write that word. -/
structure LogAt (k : Access) (s : State) (w : UniShort) (sl : LogSlot) (st : Piece) (v : Dword) : Prop where
  aligned : (s.grp.uniGet w.a.toNat).toNat % 32 = 0
  desc : ∃ p q : Piece, s.runPlaces .read .global (s.grp.uniGet w.a.toNat) 2 = [.ok [p], .ok [q]] ∧ s.marked p ∧ s.marked q
    ∧ p.len = 16 ∧ q.len = 16
    ∧ logSlot (BitVec.ofNat 256 (s.valueAt (((List.range 16).map fun i => p.loc.plus i) ++ (List.range 16).map fun i => q.loc.plus i)))
        (s.grp.uniGet w.b.toNat) = some sl
  slot : sl.state.toNat % 8 = 0 ∧ sl.data.toNat % 16 = 0
  word : s.globalRun k sl.state.toNat 8 = .ok [st] ∧ s.marked st ∧ st.len = 8
    ∧ v = BitVec.ofNat 64 (s.valueAt ((List.range 8).map fun i => st.loc.plus i))

/-- A pipe in team memory whose header is at S[a] and whose buffer at S[c] (R330). -/
structure PipeAt (s : State) (w : UniShort) (e : EA) (k : Access) (head tail : Word) (esz slots at_ buf : Nat) : Prop where
  header : s.place .read .team 0 (s.grp.uniGet w.a.toNat) 16 = .ok [{ loc := ⟨1, at_⟩, len := 16, cached := true, entry := none }]
  aligned : (s.grp.uniGet w.a.toNat).toNat % 16 = 0 ∧ (s.grp.uniGet e.c.toNat).toNat % 16 = 0
  fields : s.seenAt ((List.range 4).map fun i => ⟨1, at_ + i⟩) = head.toNat
    ∧ s.seenAt ((List.range 4).map fun i => ⟨1, at_ + 4 + i⟩) = tail.toNat
    ∧ s.seenAt ((List.range 4).map fun i => ⟨1, at_ + 8 + i⟩) = esz ∧ 2 ^ s.seenAt [⟨1, at_ + 12⟩] = slots
  sizes : 2 ≤ slots ∧ slots ≤ 256 ∧ 16 ≤ esz ∧ esz ≤ 16384 ∧ esz % 16 = 0
  buffer : s.runPlaces k .team (s.grp.uniGet e.c.toNat) (esz / 16) =
    (List.range (esz / 16)).map fun i => .ok [{ loc := ⟨1, buf + 16 * i⟩, len := 16, cached := true, entry := none }]

/-! ### Runs of bytes that an instruction of the whole group reads or writes -/

/-- The places of the 128-byte pieces of some runs of global bytes. -/
def State.imagePlaces (s : State) (k : Access) (runs : List (Nat × Nat)) : List Place :=
  (runs.flatMap lineRuns).map fun r => s.globalRun k r.1 r.2

/-- Every place is found, with the walker's bits set in the entries that map it. -/
def State.allFound (s : State) (ps : List Place) : Prop := ∀ p ∈ ps, p.isFound = true ∧ ∀ x ∈ p.pieces, s.marked x

/-- The bytes at some places, in order. -/
def State.bytesOf (s : State) (ps : List Place) : List Byte := (ps.flatMap Place.locs).map s.seeGet

/-- The bytes `bs` have been written to some places, and no other byte of memory has changed but in the entries that map them. -/
structure ImageWritten (ps : List Place) (bs : List Byte) (s t : State) : Prop where
  value : (ps.flatMap Place.locs).Nodup → (∀ l ∈ ps.flatMap Place.locs, l.space < 4 ∧ l.inEntry (ps.flatMap Place.entries) = false) →
    t.bytesOf ps = bs.take (ps.flatMap Place.locs).length
  bytes : BytesKept (fun l => l ∈ ps.flatMap Place.locs) (ps.flatMap Place.entries) s t

/-- What the pieces of an Assay request are (R169). -/
def State.assayPlaces (s : State) (k : Access) (runs : List (Nat × Nat)) : List Place := runs.map fun r => s.globalRun k r.1 r.2

/-- What the frame and the guard decide before a lane instruction of `len` bytes acts (R33, R34, R57): a register beyond the frame is
ILLEGAL_ENCODING; with no lane in the effective mask it is retired, and only its latch takes zero. -/
structure GuardedLane (i : Instr) (regs : List Nat) (g : BitVec 3) (gn : Bool) (len : Nat) (s : State) : Prop where
  beyond : (∃ r ∈ regs, s.grp.frameSize ≤ r) → TakesFault i s causeIllegal s.grp.spl.mask
  retired : (∀ r ∈ regs, r < s.grp.frameSize) → s.grp.effMask g gn = 0 →
    exec i s = .next (s.pushZero.goto (s.grp.spl.pc + BitVec.ofNat 64 len))

/-! ### Events -/

/-- Group `gid` has changed as `r` says, and nothing else has. -/
structure GroupBecomes (gid : Nat) (r : Group → Group → Prop) (s t : State) : Prop where
  changed : ∀ g, s.group? gid = some g → ∃ h, t.group? gid = some h ∧ r g h
  others : ∀ k, k ≠ gid → t.group? k = s.group? k
  rest : t = { s with grp := t.grp, others := t.others }

/-- Group `gid` is `g`, in focus or not. -/
def State.hasGroup (s : State) (gid : Nat) (g : Group) : Prop := s.group? gid = some g ∧ (s.grp.gid = gid → s.grp = g)

/-- An operation of class `c` has completed: fewer of it are outstanding, and those of other classes are as they were. -/
def OpCounted (c : Nat) (g h : Group) : Prop :=
  (g.outstanding c ≠ 0 → h.outstanding c < g.outstanding c)
  ∧ ∀ k, k ≠ c → (h.counters.filter fun o => o.cls == k) = g.counters.filter fun o => o.cls == k

/-- A split whose wait for a translation is over issues its instruction again, or fetches it anew. -/
def Split.readied (p : Split) : Split :=
  match p.status with
  | .waiting .fetch => { p with status := .run }
  | .waiting .translate => { p with status := .again }
  | _ => p

/-- Split `sp` of group `gid` is ready again, and nothing else has changed. -/
def Readied (gid sp : Nat) (s t : State) : Prop :=
  GroupBecomes gid (fun x y => y = x.onSplits fun p => if p.num = sp then p.readied else p) s t

/-- The parked accesses that a test picks, answered where they had no answer. -/
def State.answered (s : State) (which : ParkedAccess → Bool) (a : Answer) : State :=
  { s with parkedAccesses := s.parkedAccesses.map fun p => if which p = true ∧ p.answer = .none then { p with answer := a } else p }

/-- An event has been posted to a partition's service core (R332, R421): where its ring has room, the record stands at TAIL and TAIL
is one more; else it is lost, and LOST counts it. Nothing else has changed. -/
structure EventPosted (part code src : Nat) (v0 v1 : Dword) (s t : State) : Prop where
  put : 8 ≤ ((s.partReg part 0x40).extractLsb' 0 5).toNat →
    ((s.partReg part 0x48).extractLsb' 32 32 - (s.partReg part 0x48).extractLsb' 0 32).toNat
      < 2 ^ ((s.partReg part 0x40).extractLsb' 0 5).toNat →
    t.partReg part 0x48 = ((s.partReg part 0x48).extractLsb' 32 32 + 1) ++ (s.partReg part 0x48).extractLsb' 0 32
    ∧ t.valueAt ((List.range 32).map fun i =>
        ⟨0, (s.partReg part 0x38).toNat + 32 * (((s.partReg part 0x48).extractLsb' 32 32).toNat
          % 2 ^ ((s.partReg part 0x40).extractLsb' 0 5).toNat) + i⟩) = (eventRecord s.postmark code src v0 v1).toNat
  lost : ((s.partReg part 0x40).extractLsb' 0 5).toNat < 8
      ∨ 2 ^ ((s.partReg part 0x40).extractLsb' 0 5).toNat
          ≤ ((s.partReg part 0x48).extractLsb' 32 32 - (s.partReg part 0x48).extractLsb' 0 32).toNat →
    t.mem = s.mem ∧ t.partReg part 0x40 = ((s.partReg part 0x40).extractLsb' 32 32 + 1) ++ (s.partReg part 0x40).extractLsb' 0 32
  rest : t = { s with partRegs := t.partRegs, mem := t.mem }

/-- A command is dropped with CMD_REFUSED (R305, R332). -/
def Refused (c : QcCommand) (op : Nat) (s t : State) : Prop :=
  EventPosted (s.partOf c.ctx) 6 (dieSource c.die 0) ((c.handle.extractLsb' 40 24).setWidth 64) (BitVec.ofNat 64 op) s t

/-- The 64-byte block of a queue stands at its place in the queue table of its partition (R302). -/
def State.holdsBlock (t : State) (k : Nat) (q : Queue) : Prop :=
  t.valueAt ((List.range 64).map fun i => ⟨0, t.qcbAddr (k / 2 ^ 24) (qnumOf k) + i⟩) = q.block.toNat

end Sys2Proof.Machine
end

