-- ==== Sys2Proof/Certificates/Slice0/Obligations.lean ====
section
/-!
DEFINITION. The statements about this model that are to be proved.
-/
open Sys2Proof Sys2Proof.Machine

/-! ### Integer, logic and move instructions of the lane set -/

/-- R94, R96: `iadd`, `isub`, `imul`, `imin`, `imax` with an extension word and `imad`, where they can execute, complete; in every
lane each element of the result is the exact sum, difference, product, minimum, maximum or multiply-add of the sources'
elements, clamped under sat and else modulo 2^n, and nothing but the destination, the latches and the PC changes. -/
def Obligations.IntegerArithmetic : Prop :=
  (∀ io ∈ [(Instr.iaddExt, fun (a b : Int) => a + b), (Instr.isubExt, fun a b => a - b), (Instr.imulExt, fun a b => a * b),
      (Instr.iminExt, fun a b => min a b), (Instr.imaxExt, fun a b => max a b)],
    ∀ (w : LaneShort) (e : EA) (s : State), s.laneReady w e.gn e.t.wide (regs2S w e) = true →
      ∃ r, Completes (io.1 w e) s (LaneEffect w e.gn e.t.wide 8 r s)
        ∧ ∀ l, IntegerResult e.t e.sat
            (fun j => io.2 (intElem e.t (s.grp.srcA w e.t.wide l) j) (intElem e.t (s.grp.srcB2 w e l) j)) (r l))
  ∧ ∀ (w : LaneShort) (e : EA) (s : State), s.laneReady w e.gn e.t.wide (regs3S w e) = true →
      ∃ r, Completes (.imad w e) s (LaneEffect w e.gn e.t.wide 8 r s)
        ∧ ∀ l, IntegerResult e.t e.sat
            (fun j => intElem e.t (s.grp.srcA w e.t.wide l) j * intElem e.t (s.grp.srcB w e.t.wide l) j
              + intElem e.t (s.grp.srcC e e.t.wide l) j) (r l)

/-- R94: the short forms of `iadd`, `isub`, `imul`, `imin` and `imax`, where they can execute, complete; they compute on 32-bit
words, `imin` and `imax` on signed ones, and wrap. -/
def Obligations.IntegerArithmeticShort : Prop :=
  ∀ io ∈ [(Instr.iadd, fun (a b : Word) => a + b), (Instr.isub, fun a b => a - b), (Instr.imul, fun a b => a * b),
      (Instr.imin, fun a b => if a.sle b then a else b), (Instr.imax, fun a b => if a.sle b then b else a)],
    ∀ (w : LaneShort) (s : State), s.laneReady w false false (regs2S w (defaultEA .b32)) = true →
      Completes (io.1 w) s (LaneEffect w false false 4
        (fun l => (io.2 ((s.grp.srcA w false l).extractLsb' 0 32) ((s.grp.srcB w false l).extractLsb' 0 32)).setWidth 64) s)

/-- R95: the logic and shift instructions, with and without an extension word, where they can execute, complete; bit i of the
result is the AND, OR or XOR of the sources' bits i, or the bit of source a that the shift count moves to i, zeros entering
except in `sha`, in which copies of bit W − 1 enter. -/
def Obligations.LogicAndShifts : Prop :=
  (∀ io ∈ [(Instr.andExt, 0), (Instr.orExt, 1), (Instr.xorExt, 2), (Instr.shlExt, 3), (Instr.shrExt, 4), (Instr.shaExt, 5)],
    ∀ (w : LaneShort) (e : EA) (s : State), e.t ∈ [Ty.b32, .u32, .i64, .u64] → s.laneReady w e.gn e.t.wide (regs2S w e) = true →
      ∃ r, Completes (io.1 w e) s (LaneEffect w e.gn e.t.wide 8 r s)
        ∧ ∀ l, BitsResult (elemBits e.t)
            (logicBit io.2 (elemBits e.t) (s.grp.srcA w e.t.wide l) (s.grp.srcB2 w e l) (s.grp.count w e l)) (r l))
  ∧ ∀ io ∈ [(Instr.and, 0), (Instr.or, 1), (Instr.xor, 2), (Instr.shl, 3), (Instr.shr, 4), (Instr.sha, 5)],
    ∀ (w : LaneShort) (s : State), s.laneReady w false false (regs2S w (defaultEA .b32)) = true →
      ∃ r, Completes (io.1 w) s (LaneEffect w false false 4 r s)
        ∧ ∀ l, BitsResult 32
            (logicBit io.2 32 (s.grp.srcA w false l) (s.grp.srcB w false l) ((s.grp.srcB w false l).extractLsb' 0 32).toNat) (r l)

/-- R96: `imadw` multiplies two 32-bit sources and adds a 64-bit one into a pair, exactly and then clamped or wrapped; `lop3`
makes each bit of its result the table bit that the three sources' bits select. -/
def Obligations.WideMultiplyAndTables : Prop :=
  ∀ (w : LaneShort) (e : EA) (s : State),
    (s.laneReady w e.gn true (regs3S w e) = true →
      ∃ r, Completes (.imadw w e) s (LaneEffect w e.gn true 8 r s)
        ∧ ∀ l, IntegerResult (if intSigned e.t then .i64 else .u64) e.sat
            (fun _ => intOf 32 (intSigned e.t) (s.grp.srcA w false l).toNat * intOf 32 (intSigned e.t) (s.grp.srcB w false l).toNat
              + intOf 64 (intSigned e.t) (s.grp.srcC e true l).toNat) (r l))
    ∧ (e.t = .b32 ∨ e.t = .u64 → s.laneReady w e.gn e.t.wide (regs3S w e) = true →
      ∃ r, Completes (.lop3 w e) s (LaneEffect w e.gn e.t.wide 8 r s)
        ∧ ∀ l, BitsResult (elemBits e.t)
            (fun i => e.imm.getLsbD (8 + ((s.grp.srcA w e.t.wide l).getLsbD i).toNat
              + 2 * ((s.grp.srcB w e.t.wide l).getLsbD i).toNat + 4 * ((s.grp.srcC e e.t.wide l).getLsbD i).toNat)) (r l))

/-- R97, R98, R99: `bfx` moves the field down and extends it with its top bit or with zeros; `bfi` replaces the field by the low
bits of source b; `ibit` counts the set bits, the zeros above the highest or below the lowest set bit, or reverses the bits;
`prmt` builds each byte by its selector. -/
def Obligations.BitFields : Prop :=
  ∀ (w : LaneShort) (e : EA) (s : State),
    (e.t ∈ [Ty.b32, .u32, .i64, .u64] → 1 ≤ fieldWidth e.imm → fieldLsb e.imm + fieldWidth e.imm ≤ elemBits e.t →
      (s.laneReady w e.gn e.t.wide (regsD w ++ regsA w) = true →
        ∃ r, Completes (.bfx w e) s (LaneEffect w e.gn e.t.wide 8 r s)
          ∧ ∀ l, BitsResult (elemBits e.t)
              (fun i => if i < fieldWidth e.imm then (s.grp.srcA w e.t.wide l).getLsbD (fieldLsb e.imm + i)
                else intSigned e.t && (s.grp.srcA w e.t.wide l).getLsbD (fieldLsb e.imm + fieldWidth e.imm - 1)) (r l))
      ∧ (s.laneReady w e.gn e.t.wide (regsD w ++ regsA w ++ regsB w false) = true →
        ∃ r, Completes (.bfi w e) s (LaneEffect w e.gn e.t.wide 8 r s)
          ∧ ∀ l, BitsResult (elemBits e.t)
              (fun i => if fieldLsb e.imm ≤ i ∧ i < fieldLsb e.imm + fieldWidth e.imm then
                  (s.grp.srcB w e.t.wide l).getLsbD (i - fieldLsb e.imm)
                else (s.grp.srcA w e.t.wide l).getLsbD i) (r l)))
    ∧ (e.t = .b32 ∨ e.t = .u64 →
      s.laneReady w e.gn (e.t.wide && (WellFormed.minorOf e).toNat == 3) (regsD w ++ regsA w) = true →
        ∃ r, Completes (.ibit w e) s (LaneEffect w e.gn (e.t.wide && (WellFormed.minorOf e).toNat == 3) 8 r s)
          ∧ ∀ l,
            let a := s.grp.srcA w e.t.wide l
            let width := elemBits e.t
            ((WellFormed.minorOf e = 0 → (r l).toNat = ((List.range width).filter fun i => a.getLsbD i).length)
            ∧ (WellFormed.minorOf e = 1 → (r l).toNat ≤ width ∧ (∀ i < width, width - (r l).toNat ≤ i → a.getLsbD i = false)
                ∧ ((r l).toNat < width → a.getLsbD (width - 1 - (r l).toNat) = true))
            ∧ (WellFormed.minorOf e = 2 → (r l).toNat ≤ width ∧ (∀ i < (r l).toNat, a.getLsbD i = false)
                ∧ ((r l).toNat < width → a.getLsbD (r l).toNat = true))
            ∧ (WellFormed.minorOf e = 3 → BitsResult width (fun i => a.getLsbD (width - 1 - i)) (r l))))
    ∧ (s.laneReady w e.gn false (regsD w ++ regsA w ++ regsB w false) = true →
        ∃ r, Completes (.prmt w e) s (LaneEffect w e.gn false 8 r s)
          ∧ ∀ l, ∀ i < 4, byteOf (r l) i =
              prmtByte (e.imm.extractLsb' (12 - 4 * i) 4).toNat
                ((s.grp.srcB w false l).extractLsb' 0 32 ++ (s.grp.srcA w false l).extractLsb' 0 32 : Dword)
                (if i = 0 then byteOf (s.grp.srcA w false l) 0 else byteOf (r l) (i - 1)))

/-- R100, R101, R104, R209: `sel` writes source a where its predicate, negated on request, holds and source b elsewhere; `mov`
moves 32 bits of a lane register, a latch, s(b) or the immediate; `vsr` reads a lane special register; `pmov.reg` packs p1
to p7 above a 1. -/
def Obligations.SelectionAndMoves : Prop :=
  ∀ (w : LaneShort) (s : State),
    (∀ e : EA, e.t ∈ [Ty.b32, .u32, .i64, .u64] → s.laneReady w e.gn e.t.wide (regsD w ++ regsA w ++ regsB w false) = true →
      ∃ r, Completes (.sel w e) s (LaneEffect w e.gn e.t.wide 8 r s)
        ∧ ∀ l, BitsResult (elemBits e.t)
            (fun i => (if s.grp.predGet (e.imm.extractLsb' 0 3).toNat l ^^ e.imm.getLsbD 3 then s.grp.srcA w e.t.wide l
              else s.grp.srcB w e.t.wide l).getLsbD i) (r l))
    ∧ (s.laneReady w false false (regsD w ++ (if w.sk = 3 then [] else regsA w)) = true →
      Completes (.mov w) s (LaneEffect w false false 4
        (fun l => ((if w.sk = 3 then s.grp.uniGet w.b.toNat else if w.sk = 1 then s.grp.latchGet (w.a.toNat % 4) l
          else (s.grp.laneGet w.a.toNat l).setWidth 64).extractLsb' 0 32 : Word).setWidth 64) s))
    ∧ (∀ e : EI, s.laneReady w false false (regsD w) = true →
      Completes (.movImm w e) s (LaneEffect w false false 8 (fun _ => e.imm.setWidth 64) s))
    ∧ (s.laneReady w false (w.a == 4) (regsD w) = true →
      Completes (.vsr w) s (LaneEffect w false (w.a == 4) 4 (fun l => s.grp.laneSpecial w.a.toNat l) s))
    ∧ ∀ e : EA, s.laneReady w e.gn false (regsD w) = true →
      ∃ r, Completes (.pmovReg w e) s (LaneEffect w e.gn false 8 r s)
        ∧ ∀ l, BitsResult 8 (fun n => s.grp.predGet n l) (r l)

/-- R102, R103, R104, R114: `icmp` and `fcmp` write the comparison of their minor, `pset` the combination of two predicates, each
negated on request, and `pmov.pred` the bits of source a for every predicate whose mask bit is 1; all in the lanes of the
effective mask alone. A `pset` is well-formed with exactly the fields that R103 allows. -/
def Obligations.Predicates : Prop :=
  (∀ (w : LaneShort) (e : EA), encode (.pset w e) = [w.toWord 0x28 true, e.toWord]
    ∧ ((Instr.pset w e).wellFormed = true ↔
        e.t = .b32 ∧ e.rnd = .mode ∧ e.sat = false ∧ (w.g = 0 → e.gn = false) ∧ e.c = 0 ∧ e.xc = false ∧ w.sk = 0 ∧ w.nw = false
        ∧ (WellFormed.minorOf e).toNat ≤ 3 ∧ e.imm.extractLsb' 2 10 = 0 ∧ w.a.toNat < 8 ∧ w.b.toNat < 8 ∧ 1 ≤ w.d.toNat ∧ w.d.toNat ≤ 7))
  ∧ ∀ (w : LaneShort) (e : EA) (s : State), s.grp.effMask w.g e.gn ≠ 0 →
    (s.reads (regsA w ++ regsB w false) = true →
      Completes (.icmp w e) s (PredEffect (fun n => n == w.d.toNat) (s.grp.effMask w.g e.gn) 8
        (fun _ l =>
          let a := intElem e.t (s.grp.srcA w e.t.wide l) 0
          let b := intElem e.t (s.grp.srcB w e.t.wide l) 0
          match (WellFormed.minorOf e).toNat with
          | 0 => decide (a = b) | 1 => decide (a ≠ b) | 2 => decide (a < b) | 3 => decide (a ≤ b) | 4 => decide (b < a)
          | _ => decide (b ≤ a)) s)
      ∧ Completes (.fcmp w e) s (PredEffect (fun n => n == w.d.toNat) (s.grp.effMask w.g e.gn) 8
        (fun _ l => floatCompare (WellFormed.minorOf e).toNat (s.grp.floatElem e.t (s.grp.srcA w e.t.wide l) 0)
          (s.grp.floatElem e.t (s.grp.srcB w e.t.wide l) 0)) s))
    ∧ Completes (.pset w e) s (PredEffect (fun n => n == w.d.toNat) (s.grp.effMask w.g e.gn) 8
        (fun _ l =>
          let x := s.grp.predGet w.a.toNat l ^^ e.imm.getLsbD 1
          let y := s.grp.predGet w.b.toNat l ^^ e.imm.getLsbD 0
          match (WellFormed.minorOf e).toNat with
          | 0 => x && y | 1 => x || y | 2 => x ^^ y | _ => x && !y) s)
    ∧ (s.reads (regsA w) = true →
      Completes (.pmovPred w e) s (PredEffect (fun n => decide (1 ≤ n) && decide (n ≤ 7) && e.imm.getLsbD n) (s.grp.effMask w.g e.gn) 8
        (fun n l => (s.grp.srcA w false l).getLsbD n) s))

/-! ### Floating-point and cross-lane instructions -/

/-- R111, R112, R113: the float instructions, where they can execute, complete; every element of the result is the exact sum,
difference, product, fused multiply-add or scaled value of the sources' elements rounded once, or the smaller or larger of
them, and under RS every active lane takes one draw for each element. -/
def Obligations.FloatArithmetic : Prop :=
  (∀ io ∈ [(Instr.faddExt, FVal.add), (Instr.fsubExt, fun rd a b => FVal.add rd a b.neg), (Instr.fmulExt, fun _ a b => FVal.mul a b)],
    ∀ (w : LaneShort) (e : EA) (s : State), s.laneReady w e.gn e.t.wide (regs2S w e) = true →
      ∃ r, Completes (io.1 w e) s (RoundEffect w e e.t.wide 8 (elemCount e.t) r s)
        ∧ ∀ l, FloatResult e.t (fun j => (kindOf e.t).round (s.grp.env e e.sat l j)
            (io.2 (s.grp.rndOf e.rnd == .rd) (s.grp.floatElem e.t (s.grp.srcA w e.t.wide l) j)
              (s.grp.floatElem e.t (s.grp.srcB2 w e l) j))) (r l))
  ∧ (∀ io ∈ [(Instr.fadd, FVal.add), (Instr.fsub, fun rd a b => FVal.add rd a b.neg), (Instr.fmul, fun _ a b => FVal.mul a b)],
    ∀ (w : LaneShort) (s : State), s.laneReady w false false (regs2S w (defaultEA .f32)) = true →
      ∃ r, Completes (io.1 w) s (RoundEffect w (defaultEA .f32) false 4 1 r s)
        ∧ ∀ l, FloatResult .f32 (fun j => FKind.f32.round (s.grp.env (defaultEA .f32) false l j)
            (io.2 (modeRnd s.grp.mode == .rd) (s.grp.floatElem .f32 (s.grp.srcA w false l) j)
              (s.grp.floatElem .f32 (s.grp.srcB w false l) j))) (r l))
  ∧ (∀ (w : LaneShort) (e : EA) (s : State), s.laneReady w e.gn e.t.wide (regs3S w e) = true →
      ∃ r, Completes (.ffma w e) s (RoundEffect w e e.t.wide 8 (elemCount e.t) r s)
        ∧ ∀ l, FloatResult e.t (fun j => (kindOf e.t).round (s.grp.env e e.sat l j)
            (FVal.fma (s.grp.rndOf e.rnd == .rd) (s.grp.floatElem e.t (s.grp.srcA w e.t.wide l) j)
              (s.grp.floatElem e.t (s.grp.srcB w e.t.wide l) j) (s.grp.floatElem e.t (s.grp.srcC e e.t.wide l) j))) (r l))
  ∧ (∀ io ∈ [(Instr.fminExt, false), (Instr.fmaxExt, true)],
    ∀ (w : LaneShort) (e : EA) (s : State), s.laneReady w e.gn e.t.wide (regs2S w e) = true →
      ∃ r, Completes (io.1 w e) s (LaneEffect w e.gn e.t.wide 8 r s)
        ∧ ∀ l, FloatResult e.t (fun j => (kindOf e.t).round s.grp.exactEnv
            (FVal.pick io.2 (s.grp.floatElem e.t (s.grp.srcA w e.t.wide l) j) (s.grp.floatElem e.t (s.grp.srcB2 w e l) j))) (r l))
  ∧ (∀ io ∈ [(Instr.fmin, false), (Instr.fmax, true)],
    ∀ (w : LaneShort) (s : State), s.laneReady w false false (regs2S w (defaultEA .f32)) = true →
      ∃ r, Completes (io.1 w) s (LaneEffect w false false 4 r s)
        ∧ ∀ l, FloatResult .f32 (fun j => FKind.f32.round s.grp.exactEnv
            (FVal.pick io.2 (s.grp.floatElem .f32 (s.grp.srcA w false l) j) (s.grp.floatElem .f32 (s.grp.srcB w false l) j))) (r l))
  ∧ (∀ (w : LaneShort) (e : EA) (s : State), s.laneReady w e.gn e.t.wide (regs2S w e) = true →
      ∃ r, Completes (.fsclExt w e) s (RoundEffect w e e.t.wide 8 (elemCount e.t) r s)
        ∧ ∀ l, FloatResult e.t (fun j => (kindOf e.t).round (s.grp.env e e.sat l j)
            ((s.grp.floatElem e.t (s.grp.srcA w e.t.wide l) j).scl (s.grp.scale w e l))) (r l))
  ∧ ∀ (w : LaneShort) (s : State), s.laneReady w false false (regs2S w (defaultEA .f32)) = true →
      ∃ r, Completes (.fscl w) s (RoundEffect w (defaultEA .f32) false 4 1 r s)
        ∧ ∀ l, FloatResult .f32 (fun j => FKind.f32.round (s.grp.env (defaultEA .f32) false l j)
            ((s.grp.floatElem .f32 (s.grp.srcA w false l) j).scl ((s.grp.srcB w false l).extractLsb' 0 32).toInt)) (r l)

/-- R115, R119, R120: `fsf`, `cvt` and `dot`, where they can execute, complete: `fsf.rcp` and `fsf.sqrt` round the exact
quotient and root once; a scalar `cvt` converts its element, and a packing one keeps the elements that its selector does
not name; `dot` on integers sums the products exactly, clamped under sat. Resting on choices of the model, not on the
spec's words: log 8, 29, 136, 137. -/
def Obligations.SpecialFunctionsAndConversions : Prop :=
  ∀ (w : LaneShort) (e : EA) (s : State),
    (s.laneReady w e.gn false (regsD w ++ regsA w) = true →
      ∃ r, Completes (.fsf w e) s
          (RoundEffect w e false 8 (if WellFormed.minorOf e == 0 || WellFormed.minorOf e == 2 then 1 else 0) r s)
        ∧ ∀ l,
          (WellFormed.minorOf e = 0 → (r l).toNat = (kindOf e.t).round (s.grp.env e e.sat l 0)
            (FVal.div (.fin false 1 0) (s.grp.floatElem e.t (s.grp.srcA w false l) 0)) % 2 ^ 64)
          ∧ (WellFormed.minorOf e = 2 → (r l).toNat = (kindOf e.t).round (s.grp.env e e.sat l 0)
            (s.grp.floatElem e.t (s.grp.srcA w false l) 0).sqrt % 2 ^ 64))
    ∧ (let ts := WellFormed.tyOfBits (e.imm.extractLsb' 0 4)
      let form := WellFormed.cvtForm ts e.t
      let conv (l i x : Nat) : Nat := convert (s.grp.env e (s.grp.cvtSat e) l i) ts e.t x
      s.laneReady w e.gn e.t.wide ((if form = some .pack then [w.d.toNat] ++ regsB w false else regsD w) ++ regsA w) = true →
      ∃ r, Completes (.cvt w e) s (RoundEffect w e e.t.wide 8 (if cvtRounds ts e.t then cvtCount form e.t else 0) r s)
        ∧ ∀ l,
          (form = some .scalar → (r l).toNat = conv l 0 (elemOf ts (s.grp.srcA w ts.wide l) 0) % 2 ^ 64)
          ∧ (form = some .unpack →
              (r l).toNat = conv l 0 (elemOf ts (s.grp.srcA w ts.wide l) (e.imm.extractLsb' 4 3).toNat) % 2 ^ 64)
          ∧ (form = some .repack → FloatResult e.t (fun j => conv l j (elemOf ts (s.grp.srcA w ts.wide l) j)) (r l))
          ∧ (form = some .pack → FloatResult e.t
              (fun j => if j = 2 * (e.imm.extractLsb' 4 3).toNat then conv l 0 (elemOf ts (s.grp.srcA w ts.wide l) 0)
                else if j = 2 * (e.imm.extractLsb' 4 3).toNat + 1 then conv l 1 (elemOf ts (s.grp.srcB w false l) 0)
                else elemOf e.t (s.grp.reg false w.d.toNat l) j) (r l)))
    ∧ (floatTy e.t = true → s.laneReady w e.gn false (regs3S w e) = true →
      Completes (.dot w e) s (RoundEffect w e false 8 1
        (fun l => BitVec.ofNat 64 (FKind.f32.round (s.grp.env e e.sat l 0)
          (dotValue (s.grp.rndOf e.rnd == .rd)
            ((List.range (elemCount e.t)).map fun i => s.grp.floatElem e.t (s.grp.srcA w false l) i)
            ((List.range (elemCount e.t)).map fun i => s.grp.floatElem e.t (s.grp.srcB w false l) i)
            (s.grp.floatElem .f32 (s.grp.srcC e false l) 0)))) s))
    ∧ (floatTy e.t = false → s.laneReady w e.gn false (regs3S w e) = true →
      ∃ r, Completes (.dot w e) s (LaneEffect w e.gn false 8 r s)
        ∧ ∀ l, IntegerResult .b32 e.sat (fun _ =>
            ((List.range (elemCount e.t)).map fun i =>
              intElem e.t (s.grp.srcA w false l) i * intElem e.t (s.grp.srcB w false l) i).sum
            + intOf 32 true (s.grp.srcC e false l).toNat) (r l))

/-- R123 to R126: `shfl` gives each lane of the effective mask the value of its source lane; `vote` counts, tests or collects
a predicate over the effective mask or reads its lowest lane; `redux` on integers adds exactly and otherwise combines the
values of the effective mask; a lane of `scan.incl` combines what the lane below it in the mask has with its own value.
Resting on choices of the model, not on the spec's words: log 57. -/
def Obligations.CrossLane : Prop :=
  ∀ (w : LaneShort) (e : EA) (s : State),
    let m := s.grp.effMask w.g e.gn
    (s.laneReady w e.gn e.t.wide (regsD w ++ regsA w ++ regsB w (e.imm.getLsbD 5)) = true →
      Completes (.shfl w e) s (LaneEffect w e.gn e.t.wide 8
        (fun l =>
          match shflSource (WellFormed.minorOf e).toNat e.imm m l
            (if e.imm.getLsbD 5 then (e.imm.extractLsb' 0 5).toNat else ((s.grp.srcB w false l).extractLsb' 0 32).toNat) with
          | .lane j => cutTo e.t (s.grp.srcA w e.t.wide j)
          | .own => cutTo e.t (s.grp.srcA w e.t.wide l)
          | .zero => 0) s))
    ∧ (m ≠ 0 → s.reads (if WellFormed.minorOf e = 4 then regsA w else []) = true →
      ∃ v, Completes (.vote w e) s (fun t => CrossEffect w.d.toNat v s t ∧ t.grp.lfsr = s.grp.lfsr)
        ∧ let p (l : Nat) : Bool := m.getLsbD l && (s.grp.predGet w.a.toNat l ^^ e.imm.getLsbD 0)
          ((WellFormed.minorOf e = 0 → BitsResult 32 p v)
          ∧ (WellFormed.minorOf e = 1 → v = if (List.range 32).any p then 1 else 0)
          ∧ (WellFormed.minorOf e = 2 → v = if (List.range 32).all (fun l => !m.getLsbD l || p l) then 1 else 0)
          ∧ (WellFormed.minorOf e = 3 → v.toNat = ((List.range 32).filter p).length)
          ∧ (WellFormed.minorOf e = 4 → ∃ l < 32, m.getLsbD l = true ∧ (∀ k < l, m.getLsbD k = false)
              ∧ v = cutTo e.t (s.grp.srcA w e.t.wide l))))
    ∧ (m ≠ 0 → s.reads (regsA w) = true →
      ∃ v, Completes (.redux w e) s (fun t => CrossEffect w.d.toNat v s t ∧ (e.t ≠ .f32 → t.grp.lfsr = s.grp.lfsr))
        ∧ (e.t ≠ .f32 → v = reduceExtend e.t (WellFormed.minorOf e).toNat
            (reduceInt e.t e.sat (WellFormed.minorOf e).toNat ((lanesOf m).map fun l => elemOf e.t (s.grp.srcA w e.t.wide l) 0))))
    ∧ (s.laneReady w e.gn e.t.wide (regsD w ++ regsA w) = true →
      ∃ r, Completes (.scan w e) s (LaneEffect w e.gn e.t.wide 8 r s)
        ∧ let op := (e.imm.extractLsb' 8 4).toNat
          let x (l : Nat) : Nat := elemOf e.t (s.grp.srcA w e.t.wide l) 0
          let start : Nat := if w.sk = 3 then elemOf e.t (s.grp.uniGet w.b.toNat) 0 else scanIdentity e.t op
          ∀ l < 32, m.getLsbD l = true →
            let below := ((lanesOf m).filter fun k => decide (k < l)).map x
            let acc := below.foldl (combine e.t e.sat op) start
            (r l).toNat = (if WellFormed.minorOf e = 0 then combine e.t e.sat op acc (x l) else acc) % 2 ^ 64)

/-! ### Uniform arithmetic -/

/-- R105, R108: the uniform arithmetic instructions, where their guard holds, write s(d) with the 64-bit sum, difference, product,
signed minimum or maximum, logic result or shift of A and B, B being the sign-extended imm32 of the form with an extension
word; `umov` writes B, or the special register that sk = 10 names. -/
def Obligations.UniformArithmetic : Prop :=
  (∀ io ∈ [(Instr.uadd, 0), (Instr.usub, 1), (Instr.umul, 2), (Instr.umin, 3), (Instr.umax, 4), (Instr.uand, 5), (Instr.uor, 6),
      (Instr.uxor, 7), (Instr.ushl, 8), (Instr.ushr, 9), (Instr.usha, 10)],
    ∀ (w : UniShort) (s : State), s.uniReady w.g false = true →
      Completes (io.1 w) s (UniEffect w.d.toNat 4 (uniformResult io.2 (s.uniA w) (s.uniB w)) s))
  ∧ (∀ io ∈ [(Instr.uaddExt, 0), (Instr.usubExt, 1), (Instr.umulExt, 2), (Instr.uminExt, 3), (Instr.umaxExt, 4),
      (Instr.uandExt, 5), (Instr.uorExt, 6), (Instr.uxorExt, 7), (Instr.ushlExt, 8), (Instr.ushrExt, 9), (Instr.ushaExt, 10)],
    ∀ (w : UniShort) (e : EI) (s : State), s.uniReady w.g false = true →
      Completes (io.1 w e) s (UniEffect w.d.toNat 8 (uniformResult io.2 (s.uniA w) (e.imm.signExtend 64)) s))
  ∧ ∀ (w : UniShort) (e : EI) (s : State), s.uniReady w.g false = true →
      Completes (.umov w) s (UniEffect w.d.toNat 4 (if w.sk = 2 then s.special w.a.toNat else s.uniB w) s)
      ∧ Completes (.umovExt w e) s (UniEffect w.d.toNat 8 (e.imm.signExtend 64) s)

/-- R102, R106, R107: `umad` adds exactly and then clamps under sat or wraps; `ubfx` extracts a field; `usel` chooses by a
predicate; `ucmp` writes the comparison of its minor to q(d). A `umad` is well-formed with exactly the fields that R106 allows. -/
def Obligations.UniformSelection : Prop :=
  (∀ (w : UniShort) (e : EA), encode (.umad w e) = [w.toWord 0x03 true, e.toWord]
    ∧ ((Instr.umad w e).wellFormed = true ↔
        (e.t = .i64 ∨ e.t = .u64) ∧ e.rnd = .mode ∧ (w.g = 0 → e.gn = false) ∧ w.sk ≠ 3 ∧ (w.sk = 2 → w.a.toNat ≤ 15)
        ∧ e.xc = false ∧ e.imm = 0))
  ∧ ∀ (w : UniShort) (e : EA) (s : State), s.uniReady w.g e.gn = true →
    (∃ v, Completes (.umad w e) s (UniEffect w.d.toNat 8 v s)
      ∧ IntegerResult (if intSigned e.t then .i64 else .u64) e.sat
          (fun _ => intSource e.t (s.uniA w) * intSource e.t (s.uniB w) + intSource e.t (s.grp.uniGet e.c.toNat)) v)
    ∧ (e.t ∈ [Ty.b32, .u32, .i64, .u64] → 1 ≤ fieldWidth e.imm → fieldLsb e.imm + fieldWidth e.imm ≤ elemBits e.t →
        ∃ v, Completes (.ubfx w e) s (UniEffect w.d.toNat 8 v s)
          ∧ BitsResult (elemBits e.t)
              (fun i => if i < fieldWidth e.imm then (s.uniA w).getLsbD (fieldLsb e.imm + i)
                else intSigned e.t && (s.uniA w).getLsbD (fieldLsb e.imm + fieldWidth e.imm - 1)) v)
    ∧ Completes (.usel w e) s (UniEffect w.d.toNat 8
        (if s.grp.qGet (e.imm.extractLsb' 0 3).toNat ^^ e.imm.getLsbD 3 then s.uniA w else s.uniB w) s)
    ∧ Completes (.ucmp w e) s (UpredEffect w.d.toNat 8
        (let a := intSource e.t (s.uniA w)
         let b := intSource e.t (s.uniB w)
         match (WellFormed.minorOf e).toNat with
         | 0 => decide (a = b) | 1 => decide (a ≠ b) | 2 => decide (a < b) | 3 => decide (a ≤ b) | 4 => decide (b < a)
         | _ => decide (b ≤ a)) s)

/-! ### Control flow -/

/-- R191, R196, R197: `bra` on a uniform condition goes to its target or past itself; on a lane condition all lanes go one way,
or the lanes that do not take it become a new split or, without one to spare, a deferred entry; `brx` goes to s(a). -/
def Obligations.Branches : Prop :=
  ∀ (w : UniShort) (e : EB) (s : State),
    let p := s.grp.spl
    let target := p.pc + 4 * e.offset.signExtend 64
    let t := s.grp.effMask e.pred e.neg
    let n := p.mask &&& ~~~t
    let free := if s.grp.handler.isSome then none else s.grp.freeSplit
    (e.kind = false → exec (.bra w e) s = .next (s.goto (if s.grp.qGet e.pred.toNat ^^ e.neg then target else p.pc + 8)))
    ∧ (e.kind = true → n = 0 → exec (.bra w e) s = .next (s.goto target))
    ∧ (e.kind = true → n ≠ 0 → t = 0 → exec (.bra w e) s = .next (s.goto (p.pc + 8)))
    ∧ (e.kind = true → n ≠ 0 → t ≠ 0 → ∀ k, free = some k →
        Completes (.bra w e) s fun u =>
          u.grp.spl = { p with mask := t, pc := target, status := .run, arrived := false }
          ∧ (∃ c : Split, u.grp.sibs = (s.grp.sibs.filter fun q => q.mask != 0) ++ [c] ∧ c.num = k ∧ c.mask = n ∧ c.pc = p.pc + 8
              ∧ c.chain = p.chain ∧ c.dstack = [] ∧ c.status = .run)
          ∧ u = { s with grp := { s.grp with spl := u.grp.spl, sibs := u.grp.sibs } })
    ∧ (e.kind = true → n ≠ 0 → t ≠ 0 → free = none → p.dstack.length < 8 →
        exec (.bra w e) s = .next (s.withSpl { p with
          mask := t, pc := target, status := .run, arrived := false
          dstack := { waiting := false, mask := n, pc := p.pc + 8, fn := p.topFn, since := s.postmark.toNat } :: p.dstack }))
    ∧ (e.kind = true → n ≠ 0 → t ≠ 0 → free = none → 8 ≤ p.dstack.length → TakesFault (.bra w e) s causeStack p.mask)
    ∧ (s.uniReady w.g false = true → (s.grp.uniGet w.a.toNat).toNat % 4 = 0 →
        exec (.brx w) s = .next (s.goto (s.grp.uniGet w.a.toNat)))
    ∧ (s.uniReady w.g false = true → (s.grp.uniGet w.a.toNat).toNat % 4 ≠ 0 → TakesFault (.brx w) s causeMisaligned p.mask)

/-- R179, R180, R183, R198: a taken `call` or `callx` makes a frame whose overlap registers are the caller's, with the return
address behind it, and goes to its target, or waits for the frame, or takes STACK_OVERFLOW; a call not taken is passed.
Resting on choices of the model, not on the spec's words: log 55. -/
def Obligations.Calls : Prop :=
  ∀ (w : UniShort) (e : EB) (s : State),
    let pc := s.grp.spl.pc
    ((s.grp.qGet e.pred.toNat ^^ e.neg) = true → CallEffect (.call w e) w.d (pc + 4 * e.offset.signExtend 64) (pc + 8) s)
    ∧ ((s.grp.qGet e.pred.toNat ^^ e.neg) = false → exec (.call w e) s = .next (s.goto (pc + 8)))
    ∧ (s.uniReady w.g false = true → (s.grp.uniGet w.a.toNat).toNat % 4 = 0 →
        CallEffect (.callx w) w.d (s.grp.uniGet w.a.toNat) (pc + 4) s)
    ∧ (s.uniReady w.g false = true → (s.grp.uniGet w.a.toNat).toNat % 4 ≠ 0 → TakesFault (.callx w) s causeMisaligned s.grp.spl.mask)

/-- R181, R192, R199, R200: `ret` resolves the deferred entries of its frame, then frees the frame and goes on in the caller
behind the call, whose descriptor is read back where it was spilled; `unwind` leaves n frames at once; both wait for a caller
that is not resident, an `unwind` after its frames have gone, and take STACK_OVERFLOW at the root. Resting on choices of the
model, not on the spec's words: log 31. -/
def Obligations.Returns : Prop :=
  ∀ (w : UniShort) (s : State) (top par : Frame), s.uniReady w.g false = true → s.grp.top? = some top →
    let p := s.grp.spl
    (top.dep = 0 → TakesFault (.ret w) s causeStack p.mask)
    ∧ (top.dep ≠ 0 → (∀ d rest, p.dstack = d :: rest → d.fn ≠ p.topFn) → s.grp.frame? top.pfn = some par →
        (1 < p.near → par.res = true → top.ovll = false →
          exec (.ret w) s = .next (s.onGrp fun g =>
            ({ g with spl := { p with chain := p.chain.tail, near := p.near - 1, pc := top.rpc, status := .run, arrived := false } }
              : Group).release p.topFn))
        ∧ (1 < p.near → par.res = false → Completes (.ret w) s fun t => t.grp.spl = { p with status := .fillWait }
            ∧ ∃ r ∈ t.requests, r.gid = s.grp.gid ∧ r.sp = p.num)
        ∧ (∀ c x rest, p.near ≤ 1 → p.chain = c :: x :: rest → s.spillOk .read [s.grp.descAddr x] → par.res = true →
          Completes (.ret w) s fun t =>
            t.grp.spl = { p with chain := x :: rest, near := 1, pc := top.rpc, status := .run, arrived := false }))
    ∧ (∀ d rest, top.dep ≠ 0 → p.dstack = d :: rest → d.fn = p.topFn →
        (d.waiting = false → exec (.ret w) s = .next (s.withSpl { p with
          mask := d.mask, pc := d.pc, dstack := { d with waiting := true, mask := p.mask, pc := p.pc } :: rest }))
        ∧ (d.waiting = true → d.pc ≠ p.pc → exec (.ret w) s = .next (s.withSpl { p with
          mask := d.mask, pc := d.pc + 4, dstack := { d with mask := p.mask, pc := p.pc } :: rest }))
        ∧ (d.waiting = true → d.pc = p.pc → rest.length < 8 →
          exec (.ret w) s = exec (.ret w) (s.withSpl { p with mask := p.mask ||| d.mask, dstack := rest })))
    ∧ (let n := (s.regOrImm w).toNat
      (p.cont = none → n = 0 ∨ top.dep ≤ n → TakesFault (.unwind w) s causeStack p.mask)
      ∧ (∀ f, p.cont = none → 1 ≤ n → n < top.dep → n < p.near → p.mask ≠ 0 →
        (p.chain[n - 1]?).bind s.grp.frame? = some f → (p.chain[n]?).bind s.grp.frame? = some par → f.res = true ∨ f.ovll = false →
        let gone := p.chain.take n
        let left : Split := { p with
          mask := (p.dstack.filter fun d => gone.contains d.fn).foldl (fun m d => m ||| d.mask) p.mask
          dstack := p.dstack.filter fun d => !gone.contains d.fn
          chain := p.chain.drop n, near := p.near - n }
        (par.res = true → Completes (.unwind w) s fun t =>
          t.grp.spl = { left with pc := f.rpc, status := .run, arrived := false }
          ∧ t = { s with grp := { s.grp with spl := t.grp.spl, frames := t.grp.frames } })
        ∧ (par.res = false → Completes (.unwind w) s fun t =>
          t.grp.spl = { left with
            status := .fillWait
            cont := some { rpc := f.rpc, count := if f.ovll then overlapOf f.kc else 0, values := if f.ovll then f.overlapRegs else [] } }
          ∧ ∃ r ∈ t.requests, r.gid = s.grp.gid ∧ r.sp = p.num))
      ∧ ∀ c, p.cont = some c → top.res = true → Completes (.unwind w) s fun t =>
        t.grp.spl = { p with cont := none, pc := c.rpc, status := .run, arrived := false }
        ∧ t = { s with grp := { s.grp with spl := t.grp.spl, frames := t.grp.frames } })

/-- R192, R193, R194, R201: `rcv` switches to the deferred lanes, joins lanes that wait at it, parks where another split has
the same top frame, and else is passed; two splits parked at one `rcv` become one split with the lanes of both. Resting on
choices of the model, not on the spec's words: log 32. -/
def Obligations.Reconvergence : Prop :=
  ∀ (w : UniShort) (s : State),
    let p := s.grp.spl
    let shared : Bool := s.grp.handler.isNone && s.grp.sibs.any fun q => q.mask != 0 && q.topFn == p.topFn
    let plain : Prop := ∀ d rest, p.dstack = d :: rest → d.fn ≠ p.topFn ∨ (d.waiting = true ∧ d.pc ≠ p.pc)
    (plain → shared = false → exec (.rcv w) s = .next (s.goto (p.pc + 4)))
    ∧ (plain → shared = true →
        exec (.rcv w) s = .next (s.onGrp fun g =>
          ({ g with spl := { p with status := .parked, since := s.postmark.toNat } } : Group).settleParks))
    ∧ (∀ q, shared = true → p.dstack = [] → s.grp.sibs = [q] → q.status = .parked → q.pc = p.pc → q.topFn = p.topFn → p.num < q.num →
        p.mask ≠ 0 → q.mask ≠ 0 → Completes (.rcv w) s fun t =>
          t.grp.spl.num = p.num ∧ t.grp.spl.mask = p.mask ||| q.mask ∧ t.grp.spl.pc = p.pc + 4 ∧ t.grp.spl.status = .run
          ∧ t.grp.spl.dstack = q.dstack ∧ t.grp.sibs = [])
    ∧ ∀ d rest, p.dstack = d :: rest → d.fn = p.topFn →
        (d.waiting = false → exec (.rcv w) s = .next (s.withSpl { p with
          mask := d.mask, pc := d.pc, dstack := { d with waiting := true, mask := p.mask, pc := p.pc } :: rest }))
        ∧ (d.waiting = true → d.pc = p.pc → exec (.rcv w) s = .next (s.withSpl { p with
          mask := p.mask ||| d.mask, dstack := rest, pc := p.pc + 4 }))

/-- R192, R202, R346, R358, R361: `exit` ends the active lanes: the deferred entry on top of the stack resumes, or the split
ends and with the last split the group and with the last group the team; in a fault handler it ends handler mode, in a save
or restore routine it takes PROTECTION. -/
def Obligations.Exit : Prop :=
  ∀ (w : UniShort) (s : State), s.uniReady w.g false = true → (∀ l < 32, s.grp.spl.mask.getLsbD l = true → s.grp.item l = none) →
    let p := s.grp.spl
    let gid := s.grp.gid
    (s.grp.handler = none →
      (∀ d rest, p.dstack = d :: rest → s.grp.live = true → exec (.exit w) s = .next (s.withSpl { p with
        mask := d.mask, pc := if d.waiting then d.pc + 4 else d.pc, dstack := rest, status := .run, cont := none }))
      ∧ (p.dstack = [] → s.grp.dropSplit.live = true → exec (.exit w) s = .next { s with grp := s.grp.dropSplit })
      ∧ (∀ f, p.dstack = [] → s.grp.sibs = [] → s.grp.frames = [(0, f)] → p.chain = [0] → (∀ g ∈ s.others, g.gid ≠ gid) →
        Completes (.exit w) s fun t => t.group? gid = none
          ∧ (s.teamGroups (teamOf gid) = [s.grp] → ∀ tm, s.team? (teamOf gid) = some tm →
              (t.team? (teamOf gid)).map (·.phase) = some .ended)
          ∧ ∀ g ∈ s.others, g.live = true → teamOf g.gid = teamOf gid → t.team? (teamOf gid) = s.team? (teamOf gid)))
    ∧ ∀ h, s.grp.handler = some h →
      let code := (h.cause.extractLsb' 0 8).toNat
      (code = causePreempt ∨ code = causeResume → TakesFault (.exit w) s causeProtection p.mask)
      ∧ (code ≠ causePreempt → code ≠ causeResume → p.dstack = [] → Completes (.exit w) s fun t => t.grp.handler = none)

/-! ### Barriers, fences and counters -/

/-- R231, R232, R233, R234, R236: `bar.init` sets EXP and PEND; an arrival lowers PEND and answers the phase it met;
`bar.expect` raises TX; a phase with PEND and TX at zero ends, its parity turns, and nobody waits for it any more; outside
the reservation all of them take PROTECTION. An arrival first waits for the group's loads (R235, R265). Resting on choices
of the model, not on the spec's words: log 23. -/
def Obligations.BarrierArrivals : Prop :=
  ∀ (w : UniShort) (e : EA) (s : State) (k : Nat), s.uniReady w.g e.gn = true →
    (s.team.bind (fun t => t.barKey (barCluster e) (barNumber e)) = none →
      ∀ i ∈ [Instr.barInit w e, .barArrive w e, .barWait w e, .barArrwait w e, .barExpect w e], TakesFault i s causeProtection s.grp.spl.mask)
    ∧ (s.team.bind (fun t => t.barKey (barCluster e) (barNumber e)) = some k →
      let b := s.bar k
      let v := (s.regOrImm w).toNat
      let alone : Prop := s.grp.sibs = [] ∨ s.waitsAt k (barPh b) = false
      (1 ≤ v → v ≤ 65535 → s.barWaiters k = false →
        ∃ x, exec (.barInit w e) s = .next ((s.setBar k x).goto (s.grp.spl.pc + 8)) ∧ BarrierIs x v v false 0)
      ∧ (∀ n, s.grp.spl.status ≠ .waiting .barrier → s.barCount w e = some n → s.atOrder (barScope e) = true →
        ∃ x, Completes (.barArrive w e) s (fun t => BarrierEffect k x s t
            ∧ (alone → ∀ j, t.grp.uniGet j = if j = w.d.toNat ∧ w.d ≠ 0 then (if barPh b then 1 else 0) else s.grp.uniGet j))
          ∧ BarrierNow x b (barPend b - n) (barTx b))
      ∧ (s.grp.spl.status ≠ .waiting .barrier → v < 2 ^ 30 → barTx b + v < 2 ^ 30 →
        ∃ x, Completes (.barExpect w e) s (fun t => BarrierEffect k x s t ∧ (alone → ∀ n, t.grp.uniGet n = s.grp.uniGet n)
            ∧ t.flights = s.flights)
          ∧ BarrierNow x b (barPend b) (barTx b + v))
      ∧ (v = 0 ∨ 65535 < v → TakesFault (.barInit w e) s causeProtection s.grp.spl.mask)
      ∧ (s.barWaiters k = true → TakesFault (.barInit w e) s causeProtection s.grp.spl.mask)
      ∧ (s.barCount w e = none → TakesFault (.barArrive w e) s causeProtection s.grp.spl.mask)
      ∧ (∀ n, s.barCount w e = some n → s.atOrder (barScope e) = false → exec (.barArrive w e) s = .next (s.waitFor .order))
      ∧ (2 ^ 30 ≤ v ∨ 2 ^ 30 ≤ barTx b + v → TakesFault (.barExpect w e) s causeProtection s.grp.spl.mask))

/-- R234, R235, R236: `bar.wait` passes when the phase parity differs from bit 0 of s(a), `bar.arrwait` when the phase it arrived
in is over, each with an acquire; else the split waits at the instruction until the phase is complete. Resting on choices of
the model, not on the spec's words: log 31. -/
def Obligations.BarrierWaits : Prop :=
  ∀ (w : UniShort) (e : EA) (s : State) (k : Nat), s.uniReady w.g e.gn = true →
    s.team.bind (fun t => t.barKey (barCluster e) (barNumber e)) = some k →
    let p := s.grp.spl
    let sc : Scope := if barCluster e then .clu else .team
    let at_ (arrived ph : Bool) : Split := { p with
      status := .waiting .barrier, since := s.postmark.toNat, arrived := arrived, parity := ph, barClu := barCluster e, barNum := barNumber e }
    let ph := (s.grp.uniGet w.a.toNat).getLsbD 0
    let again : Prop := p.status = .again ∨ (p.status = .waiting .barrier ∧ barPh (s.bar k) ≠ p.parity)
    (p.status = .run → barPh (s.bar k) = ph → exec (.barWait w e) s = .next (s.withSpl (at_ false ph)))
    ∧ (p.status = .run → barPh (s.bar k) ≠ ph → Completes (.barWait w e) s (FenceEffect true false sc s))
    ∧ (again → Completes (.barWait w e) s (FenceEffect true false sc s))
    ∧ (p.arrived = true → again → Completes (.barArrwait w e) s (FenceEffect true false sc s))
    ∧ (p.arrived = true → p.status = .run → barPh (s.bar k) = p.parity → exec (.barArrwait w e) s = .next (s.withSpl (at_ true p.parity)))
    ∧ (p.arrived = true → p.status = .run → barPh (s.bar k) ≠ p.parity → Completes (.barArrwait w e) s (FenceEffect true false sc s))
    ∧ (∀ i ∈ [Instr.barWait w e, .barArrwait w e], p.arrived = true → p.status = .waiting .barrier → barPh (s.bar k) = p.parity →
        exec i s = .next s)
    ∧ ∀ n, p.arrived = false → s.barCount w e = some n →
        let b := s.bar k
        (s.atOrder sc = false → exec (.barArrwait w e) s = .next (s.waitFor .order))
        ∧ (s.atOrder sc = true → barPend b - n ≠ 0 ∨ barTx b ≠ 0 → ∃ x, BarrierNow x b (barPend b - n) (barTx b)
          ∧ exec (.barArrwait w e) s = .next (((s.release sc).setBar k x).withSpl (at_ true (barPh b))))
        ∧ (s.atOrder sc = true → barPend b - n = 0 → barTx b = 0 → s.grp.sibs = [] → ∃ x, BarrierNow x b 0 0
          ∧ Completes (.barArrwait w e) s fun t => t.bar k = x ∧ t.waitsAt k (barPh b) = false
            ∧ t.grp.spl = (at_ true (barPh b)).past 8
            ∧ (s.waitsAt k (barPh b) = false → FenceEffect true true sc ((s.setBar k x).withSpl (at_ true (barPh b))) t))

/-- R258, R265, R266, R268, R290: an acquire fence completes once every load has returned; the others complete when the scope's
order point is reached (`fence.sc`: and the homes within its scope have acknowledged the group's writes), else they wait;
`waitc` completes when at most that many operations of its class are outstanding, else it waits. Resting on choices of the
model, not on the spec's words: log 31. -/
def Obligations.FencesAndCounters : Prop :=
  ∀ (w : UniShort) (e : EA) (s : State),
    (s.uniReady w.g e.gn = true →
      let sc := fenceScope e
      let back : Bool := s.grp.pend.all fun x => !x.wait
      let near (f : Flight) : Bool := f.gid == s.grp.gid && (match sc with
        | .grp | .team => false
        | .clu | .die => f.loc.home == s.die
        | .pkg => decide (f.loc.home ≤ 8)
        | _ => true)
      (back = true → Completes (.fenceAcq w e) s (FenceEffect true false sc s))
      ∧ (back = true → sc ≠ .sys ∨ s.grp.ack = 0 → Completes (.fenceRel w e) s (FenceEffect false true sc s)
          ∧ Completes (.fenceAcqrel w e) s (FenceEffect true true sc s))
      ∧ (back = true → sc ≠ .sys ∨ s.grp.ack = 0 → s.flights.any near = false →
          Completes (.fenceSc w e) s (FenceEffect true true sc s))
      ∧ (back = false → ∀ i ∈ [Instr.fenceAcq w e, .fenceRel w e, .fenceAcqrel w e, .fenceSc w e], exec i s = .next (s.waitFor .order))
      ∧ (sc = .sys → s.grp.ack ≠ 0 → ∀ i ∈ [Instr.fenceRel w e, .fenceAcqrel w e, .fenceSc w e], exec i s = .next (s.waitFor .order))
      ∧ (s.flights.any near = true → exec (.fenceSc w e) s = .next (s.waitFor .order)))
    ∧ (s.uniReady w.g false = true →
      let n := (s.grp.counters.filter fun o => o.cls == w.a.toNat).length
      (n ≤ min 255 (s.uniB w).toNat → exec (.waitc w) s = .next (s.goto (s.grp.spl.pc + 4)))
      ∧ (min 255 (s.uniB w).toNat < n → exec (.waitc w) s = .next (s.waitFor .counter)))

/-! ### Memory -/

/-- R45, R240, R244, R245, R262: `ld` where every lane's element is found completes: in every lane of the effective mask the
destination takes the element's bytes, lowest first, exactly the home's (or the group's own write that is held, R272) where the
core's L1 agrees with the homes; an element that is misaligned or outside its space is a lane fault. Resting on choices of
the model, not on the spec's words: log 22, 23, 24. -/
def Obligations.Loads : Prop :=
  ∀ (w : LaneShort) (e : EM) (s : State),
    let m := s.grp.effMask w.g e.gn
    let el (l : Nat) : Place := s.laneElem .read w e e.t.size e.offset.toNat l
    let es := s.laneEntries .read w e e.t.size e.offset.toNat m
    s.pipeOpen = true →
    (s.laneReady w e.gn e.t.wide (regsD w ++ regsAddr w) = true → (∀ l < 32, m.getLsbD l = true → (el l).isFound = true) →
      ∃ r, Completes (.ld w e) s (fun t => LoadEffect w e r es s t ∧ t.grp.kovf = s.grp.kovf ∧ t.grp.specials = s.grp.specials)
        ∧ (s.coherent s.grp.core → ∀ l < 32, m.getLsbD l = true → (∀ p ∈ (el l).locs, p.inEntry es = false) →
            r l = BitVec.ofNat 64 (s.seenAt (el l).locs)))
    ∧ (s.reads (regsD w ++ regsAddr w) = true → ∀ l c, m.getLsbD l = true → el l = .fail c →
        (∀ k < l, m.getLsbD k = true → (el k).isFound = true) → (∀ k < 32, m.getLsbD k = true → ∀ ps, el k ≠ .wait ps) →
        Completes (.ld w e) s fun t => ∃ (u : State) (tr : Trap), t = u.raise tr ∧ tr.cause = c ∧ tr.pc = s.grp.spl.pc ∧ tr.eff = m
          ∧ tr.lane = some l ∧ ∀ k < 32, tr.lanes.getLsbD k = (m.getLsbD k && decide (el k = .fail c)))

/-- R245, R268: `st` without order, where every lane's element is found and nothing holds it up, stores each lane's data at
its element, higher lanes last; no other byte of memory changes but the walker's bits, and b0 is zero. Resting on choices
of the model, not on the spec's words: log 23, 24. -/
def Obligations.Stores : Prop :=
  ∀ (w : LaneShort) (e : EM) (s : State),
    let m := s.grp.effMask w.g e.gn
    let n := e.t.size
    let off := e.offset.toNat
    let es := s.laneEntries .write w e n off m
    s.pipeOpen = true → s.reads (regsData w ++ regsAddr w) = true → m ≠ 0 →
    (∀ l < 32, m.getLsbD l = true → (s.laneElem .write w e n off l).isFound = true) →
    (e.sem = .rel → s.atOrder e.scope = true) → ((lookupKey s.relwin s.grp.core).getD []).length ≤ 64 → s.grp.ack + 64 ≤ 65535 →
    (e.ord = false → Completes (.st w e) s fun t => StoreRest s t ∧ BytesKept (s.storesAt w e n off m) es s t
      ∧ ∀ l < 32, m.getLsbD l = true → ∀ i p, s.lastAt w e n off m l i p → p.space < 4 → p.inEntry es = false →
          t.seeGet p = byteOf (s.grp.memData w e.t.wide l) i)
    ∧ (e.ord = true → (∀ l < 32, m.getLsbD l = true → (s.heldKey l).isSome = true) → Completes (.st w e) s fun t =>
        BytesKept (fun _ => False) es s t ∧ t = { s.accessed t with relwin := t.relwin }
        ∧ t.grp = { s.grp with spl := s.grp.spl.past 8, latches := t.grp.latches }
        ∧ ∃ ws, lookupKey t.relwin s.grp.core = some (((lookupKey s.relwin s.grp.core).getD []) ++ ws)
          ∧ ∀ l < 32, m.getLsbD l = true → s.heldKey l = some ((((ws.find? fun h => h.lane == l).map fun h => (h.entry, h.seq)).getD (0, 0))))

/-- R246, R247: `ldk` from a window the group has not bound takes PARAM_UNBOUND; else each lane reads its element of the
window, and a lane beyond the window's size reads zero and sets KOVF. Resting on choices of the model, not on the spec's
words: log 33, 23. -/
def Obligations.ParameterLoads : Prop :=
  ∀ (w : LaneShort) (e : EM) (s : State),
    let m := s.grp.effMask w.g e.gn
    (lookupKey s.grp.windows e.c.toNat = none → s.reads (regsD w ++ regsAddr w) = true → m ≠ 0 → TakesFault (.ldk w e) s causeParam m)
    ∧ ∀ win, lookupKey s.grp.windows e.c.toNat = some win → s.laneReady w e.gn e.t.wide (regsD w ++ regsAddr w) = true →
      let off (l : Nat) : Dword := s.grp.paramOffset w e l
      let beyond (l : Nat) : Bool := decide (win.size < (off l).toNat + e.t.size)
      let el (l : Nat) : Place := if beyond l then .ok [] else s.globalRun .read (win.base + off l).toNat e.t.size
      let es := (lanesOf m).flatMap fun l => (el l).entries
      s.pipeOpen = true → (∀ l < 32, m.getLsbD l = true → (win.base + off l).toNat % e.t.size = 0 ∧ (el l).isFound = true) →
      ∃ r, Completes (.ldk w e) s (fun t => LoadEffect w e r es s t
            ∧ t.grp.kovf = (s.grp.kovf || (lanesOf m).any beyond)
            ∧ t.grp.specials = if (lanesOf m).any beyond then s.grp.specials.filter fun x => x.num != 9 else s.grp.specials)
        ∧ (∀ l < 32, m.getLsbD l = true → beyond l = true → r l = 0)
        ∧ (s.coherent s.grp.core → ∀ l < 32, m.getLsbD l = true → beyond l = false → (∀ p ∈ (el l).locs, p.inEntry es = false) →
            r l = BitVec.ofNat 64 (s.seenAt (el l).locs))

/-- R248, R249, R250: `ldc` and `stc` move up to 16 rows of 128 bytes between consecutive registers and memory, lane L taking
bytes 4L to 4L + 3; the transfer counts as outstanding, b0 is zero, and nothing else changes. Resting on choices of the
model, not on the spec's words: log 23, 24, 58. -/
def Obligations.CollectiveTiles : Prop :=
  ∀ (w : LaneShort) (e : EM) (s : State),
    let d := w.d.toNat
    let rows := tileRows w
    let reg (j : Nat) : Option (Nat × Nat) := locate s.grp.frames s.grp.spl.chain (d + j)
    let counted (t : State) : Prop := t.grp.counters = s.grp.counters ++ [{ cls := 1, id := s.grp.clock, finished := false }]
      ∧ t.grp.spl = s.grp.spl.past 8 ∧ (∀ l, t.grp.latchGet 0 l = 0) ∧ (∀ j l, j < 3 → t.grp.latchGet (j + 1) l = s.grp.latchGet j l)
    (s.tileReady .read w e = true → Completes (.ldc w e) s fun t => counted t ∧ t = s.accessed t
      ∧ (let es := (List.range rows).flatMap fun j => (s.tileRow .read w e j).entries
        BytesKept (fun _ => False) es s t
        ∧ (s.coherent s.grp.core → ∀ j < rows, ∀ l < 32, (reg j).isSome = true → (∀ i < rows, j < i → reg i ≠ reg j) →
            let ls := ((s.tileRow .read w e j).locs.drop (4 * l)).take 4
            (∀ p ∈ ls, p.inEntry es = false) → t.grp.laneGet (d + j) l = BitVec.ofNat 32 (s.seenAt ls)))
      ∧ (∀ fn i l, l < 32 → (∀ j < rows, reg j ≠ some (fn, i)) → t.grp.frameGet fn i l = s.grp.frameGet fn i l)
      ∧ t.grp = { s.grp with spl := t.grp.spl, frames := t.grp.frames, latches := t.grp.latches, pend := t.grp.pend
                             counters := t.grp.counters })
    ∧ (s.tileReady .write w e = true → (e.sem = .rel → s.atOrder e.scope = true) → s.grp.ack + 16 ≤ 65535 →
      Completes (.stc w e) s fun t => counted t ∧ Stored s t
        ∧ (let es := (List.range rows).flatMap fun j => (s.tileRow .write w e j).entries
          BytesKept (fun p => ∃ j < rows, p ∈ (s.tileRow .write w e j).locs) es s t
          ∧ ∀ j < rows, ∀ i p, (s.tileRow .write w e j).locs[i]? = some p → (∀ k, i < k → (s.tileRow .write w e j).locs[k]? ≠ some p) →
              (∀ k < rows, j < k → p ∉ (s.tileRow .write w e k).locs) → p.space < 4 → p.inEntry es = false →
              t.seeGet p = byteOf ((s.grp.laneGet (d + j) (i / 4)).setWidth 64) (i % 4))
        ∧ samePend t.grp.pend s.grp.pend
        ∧ t.grp = { s.grp with spl := t.grp.spl, latches := t.grp.latches, counters := t.grp.counters, ack := t.grp.ack
                               pend := t.grp.pend })
    ∧ (s.grp.frameSize < d + rows → TakesFault (.ldc w e) s causeIllegal s.grp.spl.mask ∧ TakesFault (.stc w e) s causeIllegal s.grp.spl.mask)
    ∧ (d + rows ≤ s.grp.frameSize → s.grp.spl.mask ≠ 0xFFFFFFFF#32 →
        TakesFault (.ldc w e) s causeConvergence s.grp.spl.mask ∧ TakesFault (.stc w e) s causeConvergence s.grp.spl.mask)

/-- R287, R288, R289: `atom` and `atomc` where every element is found replace it by their function of the old value and the
lane's data, one lane after another in ascending order, and give each lane the value it found; shown whole in team memory,
where elements are the same place or disjoint. Resting on choices of the model, not on the spec's words: log 23, 125. -/
def Obligations.Atomics : Prop :=
  ∀ (w : LaneShort) (e : EM) (s : State),
    let m := s.grp.effMask w.g e.gn
    let n := e.t.size
    let minor := (e.offset.extractLsb' 8 4).toNat
    let data (l : Nat) : Nat := (s.grp.memData w e.t.wide l).toNat % 2 ^ (8 * n)
    let holds (i : Instr) (off : Nat) (host : Bool) (f : Nat → Nat → Nat) : Prop :=
      let el (l : Nat) : Place := s.laneElem .write w e n off l
      let before (l : Nat) (all : Bool) : Nat :=
        ((lanesOf m).filter fun k => (all || decide (k < l)) && s.grp.addr w e.c n off k == s.grp.addr w e.c n off l).foldl
          (fun v k => f k v % 2 ^ (8 * n)) (s.valueAt (el l).locs)
      (∀ l < 32, m.getLsbD l = true → (el l).isFound = true ∧ (host = true ∨ (el l).host = false)) →
      ∃ old, Completes i s (fun t => AtomicEffect w e off old s t
            ∧ (e.space = .team → ∀ l < 32, m.getLsbD l = true → t.valueAt (el l).locs = before l true))
        ∧ (e.space = .team → ∀ l < 32, m.getLsbD l = true → old l = BitVec.ofNat 64 (before l false))
    s.pipeOpen = true →
    s.laneReady w e.gn e.t.wide (regsD w ++ regsAddr w ++ regsData w) = true → (semReleases e.sem = true → s.atOrder e.scope = true) →
    s.grp.ack + 64 ≤ 65535 → s.grp.opRoom 4 = true →
    holds (.atom w e) (e.offset.extractLsb' 0 8).toNat (hostAtomic minor e.t) (fun l old => atomValue e.t minor old (data l))
    ∧ holds (.atomc w e) e.offset.toNat true
        (fun l old => if old = (s.grp.reg e.t.wide w.d.toNat l).toNat % 2 ^ (8 * n) then data l else old)

/-- R259, R261: `msig` adds S[b] to the 64-bit counter at its home and `mwait` passes, with the counter in s(d), once the counter
is at least S[b]; else it waits. Resting on choices of the model, not on the spec's words: log 23, 31. -/
def Obligations.CountersInMemory : Prop :=
  ∀ (w : UniShort) (e : EM) (s : State) (p : Piece), s.uniReady w.g e.gn = true → s.pipeOpen = true →
    let ls := (List.range 8).map fun i => p.loc.plus i
    let out (t : State) : Prop := t.grp.spl = s.grp.spl.past 8 ∧ samePend t.grp.pend s.grp.pend
    p.len = 8 → (∀ l ∈ ls, l.inEntry p.entry.toList = false ∧ ¬s.stale l) →
    (s.counterPlace .write e = .ok [p] → (semReleases e.sem = true → s.atOrder e.scope = true) → s.grp.ack < 65535 →
      Completes (.msig w e) s fun t => out t ∧ Stored s t
        ∧ t.grp = { s.grp with spl := t.grp.spl, ack := t.grp.ack, pend := t.grp.pend }
        ∧ BytesKept (fun l => l ∈ ls ∨ s.stale l) p.entry.toList s t
        ∧ (p.loc.space ≤ 4 → t.valueAt ls = (s.valueAt ls + (s.uniB w).toNat) % 2 ^ 64))
    ∧ (s.counterPlace .read e = .ok [p] → (∀ f ∈ s.flights, f.core = s.grp.core ∨ f.landed = true) → p.loc.space ≤ 4 →
      ((s.uniB w).toNat ≤ s.seenAt ls → Completes (.mwait w e) s fun t => t.grp.spl = s.grp.spl.past 8 ∧ t = s.accessed t
        ∧ BytesKept s.stale p.entry.toList s t
        ∧ (∀ k, t.grp.uniGet k = if k = w.d.toNat then BitVec.ofNat 64 (s.seenAt ls) else s.grp.uniGet k)
        ∧ t.grp = { s.grp with spl := t.grp.spl, uni := t.grp.uni, pend := t.grp.pend })
      ∧ (s.seenAt ls < (s.uniB w).toNat → Completes (.mwait w e) s fun t =>
          t.grp.spl = { s.grp.spl with status := .waiting .counter, since := s.postmark.toNat }
          ∧ samePend t.grp.pend s.grp.pend ∧ t.grp = { s.grp with spl := t.grp.spl, pend := t.grp.pend }
          ∧ BytesKept s.stale p.entry.toList s t ∧ t = s.accessed t))

/-! ### Accumulator memory, matrix instructions and ranked lists -/

/-- R149, R150: `lda` and `sta` check alignment, then the group's window, then the tile's token, over all lanes; where all
hold each lane reads or writes the 32-bit value at its row and column; a write to a list tile takes PROTECTION. Resting on
choices of the model, not on the spec's words: log 23. -/
def Obligations.AccumulatorAccess : Prop :=
  ∀ (w : LaneShort) (e : EM) (s : State),
    let m := s.grp.effMask w.g e.gn
    let list (l : Nat) : Bool := (s.engine s.grp.engineKey).bindings.any fun b => b.isList (s.accAddr w e l / 2 ^ 14)
    s.pipeOpen = true →
    (s.laneReady w e.gn false (regsD w ++ regsAddr w) = true → s.accFault w e m = none →
      ∃ r, Completes (.lda w e) s (fun t => LaneEffect w e.gn false 8 r s { s with grp := t.grp }
          ∧ BytesKept (fun _ => False) [] s t ∧ t = s.accessed t)
        ∧ ((∀ f ∈ s.flights, f.core = s.grp.core ∨ f.landed = true) → ∀ l < 32, m.getLsbD l = true →
            r l = BitVec.ofNat 64 (s.seenAt (s.accLocs (s.accAddr w e l)))))
    ∧ (s.reads (regsD w ++ regsAddr w) = true → m ≠ 0 → ∀ c, s.accFault w e m = some c → TakesFault (.lda w e) s c m)
    ∧ (s.reads (regsData w ++ regsAddr w) = true → m ≠ 0 → ∀ c, s.accFault w e m = some c → TakesFault (.sta w e) s c m)
    ∧ (s.reads (regsData w ++ regsAddr w) = true → s.accFault w e m = none → ∀ l < 32, m.getLsbD l = true → list l = true →
        TakesFault (.sta w e) s causeProtection m)
    ∧ (s.reads (regsData w ++ regsAddr w) = true → m ≠ 0 → s.accFault w e m = none → (∀ l < 32, m.getLsbD l = true → list l = false) →
        e.ord = false → (e.sem = .rel → s.atOrder e.scope = true) → ((lookupKey s.relwin s.grp.core).getD []).length ≤ 128 →
        s.grp.ack < 65535 →
        Completes (.sta w e) s fun t => StoreRest s t
          ∧ BytesKept (fun p => ∃ l < 32, m.getLsbD l = true ∧ p ∈ s.accLocs (s.accAddr w e l)) [] s t
          ∧ ∀ l < 32, m.getLsbD l = true → (∀ k < 32, l < k → m.getLsbD k = true → s.accAddr w e k ≠ s.accAddr w e l) →
              t.valueAt (s.accLocs (s.accAddr w e l)) = (s.grp.memData w false l).toNat % 2 ^ 32)

/-- R145, R146, R147, R148: `acc.acq` passes when the group holds the tile's token and else asks for it and waits; `acc.rel`
passes the token on; `acc.win` sets another group's window, at once on another sub-core; `acc.alloc` takes tiles from the
pool in ascending order or answers 0; `acc.free` returns one. Resting on choices of the model, not on the spec's words: log
31, 68, 89. -/
def Obligations.TokensAndTiles : Prop :=
  ∀ (w : UniShort) (e : EA) (s : State), s.uniReady w.g e.gn = true →
    let g := s.grp
    let k := g.engineKey
    let key := teamOf g.gid
    let n := (s.regOrImm w).toNat % 16
    let tl := s.tile n
    let v := s.grp.uniGet w.b.toNat
    let base := (v.extractLsb' 0 11).toNat
    let limit := (v.extractLsb' 16 11).toNat
    let target := (s.grp.uniGet w.a.toNat).toNat
    let count := (s.regOrImm w).toNat
    let pool := (List.range 16).filter fun t => ((s.engine k).tile t).team.isNone
    (g.inWindow n = false → TakesFault (.accAcq w e) s causeWindow g.spl.mask ∧ TakesFault (.accRel w e) s causeWindow g.spl.mask)
    ∧ (g.inWindow n = true →
      (tl.token = .held g.gid → exec (.accAcq w e) s = .next (s.goto (g.spl.pc + 8)))
      ∧ (tl.token = .matrix → exec (.accAcq w e) s =
          .next ((s.onTile n fun x => { x with token := .waiting g.gid s.turn }).waitFor (.token n)))
      ∧ (∀ h, h ≠ g.gid → tl.token = .held h → exec (.accAcq w e) s =
          .next ((s.onTile n fun x => if x.waiters.any (fun y => y.1 == g.gid) then x
            else { x with waiters := x.waiters ++ [(g.gid, s.turn)] }).waitFor (.token n)))
      ∧ (tl.token ≠ .held g.gid → TakesFault (.accRel w e) s causeToken g.spl.mask)
      ∧ (tl.token = .held g.gid → s.heldTileWrites k g.gid n = false → exec (.accRel w e) s =
          .next ((s.onTile n fun x => match x.waiters with
            | [] => { x with token := .matrix }
            | y :: rest => { x with token := .waiting y.1 y.2, waiters := rest }).goto (g.spl.pc + 8)))
      ∧ (tl.token = .held g.gid → s.heldTileWrites k g.gid n = true → exec (.accRel w e) s =
          .next ((s.onTile n fun x => { x with token := .releasing g.gid }).goto (g.spl.pc + 8))))
    ∧ (g.gid % 32 ≠ 0 → TakesFault (.accWin w e) s causeProtection g.spl.mask)
    ∧ (g.gid % 32 = 0 → ∀ h, target < 32 → s.group? (32 * key + target) = some h →
      (base ≤ limit → limit ≤ 1024 → (s.engine h.engineKey).holdsRows key base limit = true → exec (.accWin w e) s =
        .next ((s.onGroup h.gid fun x =>
          if h.sub = g.sub then { x with specials := x.specials ++ [{ num := 64, value := v, age := 0 }] }
          else { x with awb := base, awl := limit }).goto (g.spl.pc + 8)))
      ∧ (limit < base ∨ 1024 < limit ∨ (s.engine h.engineKey).holdsRows key base limit = false →
          TakesFault (.accWin w e) s causeWindow g.spl.mask))
    ∧ (count = 0 ∨ 16 < count ∨ pool.length < count → Completes (.accAlloc w e) s (UniEffect w.d.toNat 8 0 s))
    ∧ (1 ≤ count → count ≤ pool.length → Completes (.accAlloc w e) s fun t =>
        t.grp.uniGet w.d.toNat = BitVec.ofNat 64 ((pool.take count).foldl (fun m x => m + 2 ^ x) 0)
        ∧ ∀ x, ((t.engine k).tile x) =
            if x ∈ pool.take count then { team := some key, alloc := true, token := .matrix, waiters := [], clearing := true }
            else (s.engine k).tile x)
    ∧ (tl.team ≠ some key ∨ tl.alloc = false → TakesFault (.accFree w e) s causeProtection g.spl.mask)
    ∧ (tl.team = some key → tl.alloc = true → (s.groups.any fun x => x.engineKey == k && x.inWindow n) = false →
      (tl.token ≠ .matrix → TakesFault (.accFree w e) s causeToken g.spl.mask)
      ∧ (tl.token = .matrix → tl.clearing = false → (s.engine k).steps.all (fun st => st.lead.e.tile.toNat != n) = true →
          exec (.accFree w e) s = .next ((s.onEngine k fun x => { x with tiles := eraseKey x.tiles n }).goto (g.spl.pc + 8)))
      ∧ (tl.token = .matrix → tl.clearing = true → exec (.accFree w e) s = .next (s.waitFor (.freeing n))))

/-- R57, R133, R137: `mma`, `mms` and `mrk` need v(a) in the frame and all lanes, dispatch to the engine with their format block
and s(b) as read, and wait there for their step; a pair instruction of a step that has timed out or been rejected takes its
fault. Resting on choices of the model, not on the spec's words: log 31. -/
def Obligations.MatrixIssue : Prop :=
  ∀ (w : LaneShort) (e : EX) (s : State), ∀ io ∈ [(Instr.mma w e, 0), (Instr.mms w e, 1), (Instr.mrk w e, 2)],
    let g := s.grp
    let k := g.engineKey
    let late := if e.mode = 2 then (s.engine k).pairFailed.find? fun x => x.1 == teamOf g.gid && x.2.1 == g.sc % 4 else none
    (g.frameSize ≤ w.a.toNat → TakesFault io.1 s causeIllegal g.spl.mask)
    ∧ (w.a.toNat < g.frameSize → g.spl.mask ≠ 0xFFFFFFFF#32 → TakesFault io.1 s causeConvergence g.spl.mask)
    ∧ (w.a.toNat < g.frameSize → g.spl.mask = 0xFFFFFFFF#32 →
      ((s.engine k).dispatched g.gid g.spl.num = true → exec io.1 s = .next (s.waitFor .matrix))
      ∧ ((s.engine k).dispatched g.gid g.spl.num = false →
        (∀ x, late = some x → exec io.1 s =
          .next (let u := s.onEngine k fun y => { y with pairFailed := y.pairFailed.erase x }
            u.raise (u.groupTrap x.2.2 0 g.spl.mask)))
        ∧ (late = none → g.opRoom 0 = true → exec io.1 s =
          .next ((s.onEngine k fun x => { x with ports := x.ports ++
            [{ gid := g.gid, sp := g.spl.num, sc := g.sc, op := io.2, w := w, e := e
               fmt := [g.uniGet e.fb.toNat, g.uniGet (e.fb.toNat + 1), g.uniGet (e.fb.toNat + 2), g.uniGet (e.fb.toNat + 3)]
               sb := g.uniGet w.b.toNat }] }).waitFor .matrix))))

/-- R159, R160, R163, R164, R167, R168: `rkadm` writes which lanes' candidates beat the threshold that the group reads;
`rkins` puts a candidate into each lane's list and leaves the slot in b0; `rkrd` reads entries of a list; `rkmrg` sends an
image to the engine; `rkcfg` configures at issue and passes once its configuration is done. Resting on choices of the
model, not on the spec's words: log 23, 31. -/
def Obligations.RankedLists : Prop :=
  ∀ (s : State),
    let g := s.grp
    let k := g.engineKey
    (∀ (w : LaneShort) (e : EA), s.reads (regsA w ++ regsB w false) = true → g.effMask w.g e.gn ≠ 0 →
      Completes (.rkadm w e) s (PredEffect (fun n => n == w.d.toNat) (g.effMask w.g e.gn) 8
        (fun _ l =>
          let c : Word × Word := ((g.srcA w false l).extractLsb' 0 32, (g.srcB w false l).extractLsb' 0 32)
          let thr : Word × Word := (g.thr.extractLsb' 0 32, g.thr.extractLsb' 32 32)
          (!vtNan (vtOf e.t) c.1 && c.2 != 0xFFFFFFFF && (thr.2 == 0xFFFFFFFF || ranksAbove (vtOf e.t) c thr)) ^^ e.imm.getLsbD 0) s))
    ∧ (∀ (w : LaneShort) (e : EA),
      let n := (e.imm.extractLsb' 0 4).toNat
      let np := (e.imm.extractLsb' 4 3).toNat
      let m := g.effMask w.g e.gn
      let reg (i : Nat) : Option (Nat × Nat) := locate g.frames g.spl.chain (w.d.toNat + i)
      let c (l : Nat) : Word × Word := ((g.srcA w false l).extractLsb' 0 32, (g.srcB w false l).extractLsb' 0 32)
      let res (l : Nat) : List (Word × Word) × Word :=
        laneInsert (vtOf e.t) ((List.range n).map fun i => (g.laneGet (w.d.toNat + 2 * i) l, g.laneGet (w.d.toNat + 2 * i + 1) l))
          (c l).1 (c l).2
      s.reads (regsA w ++ regsB w false ++ (List.range (2 * n)).map fun i => w.d.toNat + i) = true → m ≠ 0 →
      (∀ i j, i < j → j < 2 * n → reg i ≠ reg j) →
      Completes (.rkins w e) s fun t =>
        (∀ i l, i < n → l < 32 → m.getLsbD l = true → ∀ x, (res l).1[i]? = some x →
          t.grp.laneGet (w.d.toNat + 2 * i) l = x.1 ∧ t.grp.laneGet (w.d.toNat + 2 * i + 1) l = x.2)
        ∧ (∀ fn i l, l < 32 → m.getLsbD l = false ∨ (∀ j < 2 * n, reg j ≠ some (fn, i)) → t.grp.frameGet fn i l = g.frameGet fn i l)
        ∧ (∀ l < 32, t.grp.latchGet 0 l = if m.getLsbD l then (res l).2.setWidth 64 else 0)
        ∧ (∀ p l, l < 32 → t.grp.predGet p l = if p = np ∧ np ≠ 0 ∧ m.getLsbD l = true then vtNan (vtOf e.t) (c l).1 else g.predGet p l)
        ∧ t.grp.spl = g.spl.past 8
        ∧ t = { s with grp := { g with spl := t.grp.spl, frames := t.grp.frames, latches := t.grp.latches, preds := t.grp.preds
                                       pend := t.grp.pend } })
    ∧ (∀ (w : UniShort) (e : EA), s.uniReady w.g e.gn = true →
      let row := ((g.uniGet w.a.toNat).extractLsb' 0 10).toNat
      (∀ b, w.d.toNat + 1 < g.frameSize → g.twoRegs w.d.toNat = true → (s.engine k).listBinding row = some b →
        g.awb ≤ row → row < g.awl → (s.tile (row / 64)).token = .held g.gid →
        Completes (.rkrd w e) s fun t =>
          (∀ l < 32, g.spl.mask.getLsbD l = true →
            (t.grp.laneGet w.d.toNat l, t.grp.laneGet (w.d.toNat + 1) l) =
              ((s.listAt k row b).entries[(e.imm.extractLsb' 0 7).toNat + l]?).getD (0, 0xFFFFFFFF))
          ∧ t.grp.spl = g.spl.past 8
          ∧ t = { s with grp := { g with spl := t.grp.spl, frames := t.grp.frames, pend := t.grp.pend } })
      ∧ ((∃ o ∈ g.counters, o.cls = configClass ∧ o.id = g.spl.num) →
          (∀ o ∈ g.counters, o.cls = configClass → o.id = g.spl.num → o.finished = true) →
          exec (.rkcfg w e) s = .next ((s.onGrp fun g => { g with
            counters := g.counters.filter fun o => !(o.cls == configClass && o.id == g.spl.num) }).goto (g.spl.pc + 8)))
      ∧ ((∀ o ∈ g.counters, o.cls ≠ configClass ∨ o.id ≠ g.spl.num) →
          let c := listConfig e.imm (g.uniGet w.a.toNat)
          let ts := c.tiles (s.engine k).bindings
          (c.fieldsOk = false → TakesFault (.rkcfg w e) s causeIllegal g.spl.mask)
          ∧ (c.fieldsOk = true → (∀ t ∈ ts, ((s.engine k).tile t).team = some (teamOf g.gid) ∧ g.awb ≤ 64 * t ∧ 64 * t + 64 ≤ g.awl) →
              (∀ t ∈ ts, ((s.engine k).tile t).token = .held g.gid) → s.configBlocked k (teamOf g.gid) c = false →
              Completes (.rkcfg w e) s fun u => u.grp.spl = { g.spl with status := .waiting .engine, since := s.postmark.toNat }
                ∧ (c.nl = false → c.unb = false → ∃ b ∈ (u.engine k).bindings, b.team = teamOf g.gid ∧ b.lt = c.lt ∧ b.st = c.st
                    ∧ b.cap = c.cap ∧ b.vt = c.vt ∧ b.cbase = (g.uniGet w.b.toNat).extractLsb' 0 32
                    ∧ b.cstep = (g.uniGet w.b.toNat).extractLsb' 32 32 ∧ b.dom = if c.lb then some c.dom else none)
                ∧ (c.unb = true → ∀ b ∈ (u.engine k).bindings, b.lt ≠ c.lt))))
    ∧ ∀ (w : UniShort) (e : EM) (b : Binding) (p : Piece), s.uniReady w.g e.gn = true →
      let row := ((g.uniGet w.a.toNat).extractLsb' 0 10).toNat
      let a := g.uniAddr e 4
      let head := (List.range 16).map fun i => s.groupSees (p.loc.plus i)
      let n := leNat (head.take 4) / 2 ^ 8 % 2 ^ 8
      s.pipeOpen = true → (∀ f ∈ s.flights, f.core = g.core ∨ f.landed = true) →
      a.toNat % 16 = 0 → e.space = .team → s.place .read .team 0 a 16 = .ok [p] →
      (∀ i < n, (s.place .read .team 0 (a + BitVec.ofNat 64 (16 + 8 * i)) 8).isFound = true) →
      (s.engine k).listBinding row = some b → g.awb ≤ row → row < g.awl → imageHeaderOk b.vt head = true →
      g.opRoom 2 = true → (s.engine k).mergesWaiting = [] → (s.engine k).merges.length < 4 →
      Completes (.rkmrg w e) s fun t => t.grp.spl = g.spl.past 8
        ∧ t.grp.counters = g.counters ++ [{ cls := 2, id := s.turn, finished := false }]
        ∧ ∃ x, (t.engine k).merges = (s.engine k).merges ++ [x] ∧ x.row = row ∧ x.gid = g.gid
            ∧ x.head = head
            ∧ x.entries = (List.range n).map fun i =>
                (BitVec.ofNat 32 (leNat ((List.range 4).map fun j => s.groupSees (p.loc.plus (16 + 8 * i + j)))),
                 BitVec.ofNat 32 (leNat ((List.range 4).map fun j => s.groupSees (p.loc.plus (20 + 8 * i + j)))))

/-! ### Copies -/

/-- R251, R252, R253, R254: `cpl` and `cpb` whose checks hold put a copy in flight with its completion target and the moves
from the pieces of its sources to those of its destinations; with 64 copies outstanding they wait. Resting on choices of
the model, not on the spec's words: log 31, 59. -/
def Obligations.CopiesBegin : Prop :=
  (∀ (w : LaneShort) (e : EM) (s : State) (kind : CopyKind),
    let m := s.grp.effMask w.g e.gn
    let n := 4 * 2 ^ (w.d.extractLsb' 2 2).toNat
    let src (l : Nat) : Place := s.laneElem .read w e n (e.offset.extractLsb' 0 6).toNat l
    let dst (l : Nat) : Place := s.checkElem .write .team l ((s.grp.laneGet w.b.toNat l).setWidth 64) n
    let v := s.grp.uniGet (e.offset.extractLsb' 6 6).toNat
    s.reads (regsAddr w ++ [w.b.toNat]) = true → m ≠ 0 →
    (64 ≤ s.copiesOf s.grp.gid → exec (.cpl w e) s = .next (s.waitFor .copy))
    ∧ (s.copiesOf s.grp.gid < 64 → s.pipeOpen = true → (∀ l < 32, m.getLsbD l = true → (src l).isFound = true ∧ (dst l).isFound = true) →
        s.copyKind (w.d.extractLsb' 0 2).toNat (v.getLsbD 9) (v.extractLsb' 0 9).toNat v 0 = some kind →
        Completes (.cpl w e) s (CopyBegun 8 kind (n * (lanesOf m).length)
          ((lanesOf m).flatMap fun l => (pairPieces 32 (src l).pieces (dst l).pieces).map Move.route)
          (((lanesOf m).flatMap fun l => (src l).entries) ++ s.targetEntries (w.d.extractLsb' 0 2).toNat v) s)))
  ∧ ∀ (w : UniShort) (s : State) (kind : CopyKind), s.uniReady w.g false = true →
    let d := s.grp.cpbDesc w.a.toNat
    let k := (w.d.extractLsb' 0 2).toNat
    let cs := cpbChunks d
    let src (c : Nat × Nat × Nat) : Place := s.place .read (cpbSpace (fieldNat d 320 3)) 0 (BitVec.ofNat 64 c.1) c.2.2
    let dst (c : Nat × Nat × Nat) : Place := s.place .write (cpbSpace (fieldNat d 323 3)) 0 (BitVec.ofNat 64 c.2.1) c.2.2
    (cpbAligned d = false ∨ cpbCaddrAligned k d = false → TakesFault (.cpb w) s causeMisaligned s.grp.spl.mask)
    ∧ (cpbAligned d = true → cpbCaddrAligned k d = true → cpbRanges d = false → TakesFault (.cpb w) s causeProtection s.grp.spl.mask)
    ∧ (cpbAligned d = true → cpbCaddrAligned k d = true → cpbRanges d = true → 64 ≤ s.copiesOf s.grp.gid →
        k ≠ 1 ∨ (s.team.bind fun t => t.barKey (d.getLsbD 335) (fieldNat d 326 9)).isSome = true → exec (.cpb w) s = .next (s.waitFor .copy))
    ∧ (cpbAligned d = true → cpbCaddrAligned k d = true → cpbRanges d = true → s.copiesOf s.grp.gid < 64 → s.pipeOpen = true →
        (∀ c ∈ cs, (src c).isFound = true ∧ (dst c).isFound = true) →
        s.copyKind k (d.getLsbD 335) (fieldNat d 326 9) (d.extractLsb' 384 64) (d.extractLsb' 448 64) = some kind →
        Completes (.cpb w) s (CopyBegun 4 kind (fieldNat d 128 32 * fieldNat d 160 16 * fieldNat d 176 16)
          (cs.flatMap fun c => (pairPieces 2 (src c).pieces (dst c).pieces).map Move.route)
          ((cs.flatMap fun c => (src c).entries ++ (dst c).entries) ++ s.targetEntries k (d.extractLsb' 384 64)) s))

/-- R255, R256: `cpclose` numbers the open batch one above the last, unless 8 closed batches are not complete: then it waits for
the oldest of them; `cpwait` on a number not yet given takes PROTECTION, waits while a batch up to its number is not complete,
and else passes. Resting on choices of the model, not on the spec's words: log 31. -/
def Obligations.CopyBatches : Prop :=
  ∀ (w : UniShort) (s : State), s.uniReady w.g false = true →
    let g := s.grp
    let left := g.closed.filter fun c => !c.2
    let n := g.batch + 1
    let ahead := ((s.uniA w).extractLsb' 0 32 - g.batch).toNat
    let before (c : Nat × Bool) : Bool := !c.2 && decide (((s.uniA w).extractLsb' 0 32 - BitVec.ofNat 32 c.1).toNat < 2 ^ 31)
    (∀ c rest, left = c :: rest → 8 ≤ left.length → (∀ b, g.spl.status ≠ .waiting (.closing b)) →
        exec (.cpclose w) s = .next (s.waitFor (.closing c.1)))
    ∧ (∀ c ∈ left, g.spl.status = .waiting (.closing c.1) → exec (.cpclose w) s = .next (s.waitFor (.closing c.1)))
    ∧ (left.length < 8 → (∀ c ∈ left, g.spl.status ≠ .waiting (.closing c.1)) → Completes (.cpclose w) s fun t =>
        t.grp.batch = n ∧ (∀ j, t.grp.uniGet j = if j = w.d.toNat then n.setWidth 64 else g.uniGet j)
        ∧ t.grp.closed = (if s.openCopies g.gid then left ++ [(n.toNat, false)] else left)
        ∧ t.copies = s.copies.map (fun c => if c.2.gid = g.gid ∧ c.2.kind = CopyKind.batch ∧ c.2.batch = none
            then (c.1, { c.2 with batch := some n.toNat }) else c)
        ∧ t.grp.spl = g.spl.past 4
        ∧ t = { s with copies := t.copies, grp := { g with spl := t.grp.spl, uni := t.grp.uni, pend := t.grp.pend, batch := t.grp.batch
                                                           closed := t.grp.closed } })
    ∧ (1 ≤ ahead → ahead < 2 ^ 31 → TakesFault (.cpwait w) s causeProtection g.spl.mask)
    ∧ (ahead = 0 ∨ 2 ^ 31 ≤ ahead → g.closed.any before = true → exec (.cpwait w) s = .next (s.waitFor .copy))
    ∧ (ahead = 0 ∨ 2 ^ 31 ≤ ahead → g.closed.any before = false → exec (.cpwait w) s = .next (s.goto (g.spl.pc + 4)))

/-! ### Tasks, queues, items, logs and pipes -/

/-- R318, R319, R320, R321: `fres` writes the value and RESOLVED or FAULTED and begins the walk of the waiters; `freg` puts
its node before the waiters of a pending future, gives up a count of the node's task where the future is resolved, once that
task's block passes the checks, and posts FUTURE_FAULTED where it is faulted; `tspawn` gives up one count of a task, `tdone`
makes its task DONE and resolves its future; a future already resolved is DOUBLE_RESOLVE. Resting on choices of the model,
not on the spec's words: log 23, 61. -/
def Obligations.TasksAndFutures : Prop :=
  ∀ (w : UniShort) (s : State) (p n : Piece), s.uniReady w.g false = true → s.atOrder .sys = true → s.pipeOpen = true →
    let a := s.grp.uniGet w.a.toNat
    let mask := s.grp.spl.mask
    let die := servingDie s.die p.loc
    let ctx := s.ctxOf s.grp.gid
    (s.objectAt a 16 p →
      (2 ≤ s.futureState p.loc → TakesFaultAfter (.fres w) s causeDoubleResolve mask)
      ∧ (s.futureState p.loc < 2 → Completes (.fres w) s fun t =>
          t.objNat p.loc 0 8 = (if w.d.getLsbD 0 then 3 else 2) * 2 ^ 62 ∧ t.objNat p.loc 8 8 = (s.uniB w).toNat
          ∧ t.walks = s.walks ++ (if s.futureList p.loc % 2 ^ 64 = 0 then [] else
              [{ die := die, ctx := ctx, future := a, node := BitVec.ofNat 64 (s.futureList p.loc), faulted := w.d.getLsbD 0
                 succ := 0, left := 0 }])
          ∧ t.grp.spl = s.grp.spl.past 4)
      ∧ (s.objectAt (s.grp.uniGet w.b.toNat) 16 n → (n.loc.addr + 16 ≤ p.loc.addr ∨ p.loc.addr + 16 ≤ n.loc.addr) →
          (s.futureState p.loc < 2 → Completes (.freg w) s fun t =>
            t.objNat n.loc 8 8 = (if s.futureState p.loc = 0 then 0 else s.futureList p.loc % 2 ^ 64)
            ∧ t.objNat p.loc 0 8 = 2 ^ 62 + (s.grp.uniGet w.b.toNat).toNat / 16 ∧ t.grp.spl = s.grp.spl.past 4)
          ∧ (let tcb : Dword := BitVec.ofNat 64 (s.objNat n.loc 0 8)
            (s.futureState p.loc = 2 → tcb.toNat % 64 ≠ 0 → TakesFaultAfter (.freg w) s causeMisaligned mask)
            ∧ (∀ c, s.futureState p.loc = 2 → s.objectAt tcb 64 c → ∃ u, Accessed s u ∧
                exec (.freg w) s = .next ((u.decrement die ctx tcb).advance 4))
            ∧ (s.futureState p.loc = 3 → ∃ u, Accessed s u ∧
                exec (.freg w) s = .next ((u.postEvent (s.partOf ctx) 3 (dieSource die 0) a tcb).advance 4)))))
    ∧ (s.objectAt a 64 p →
      (s.taskState p.loc ≠ 0 ∨ s.objNat p.loc 16 4 = 0 → TakesFaultAfter (.tspawn w) s causeProtection mask)
      ∧ (∀ k q, s.taskState p.loc = 0 → s.objNat p.loc 16 4 ≠ 0 → s.names (BitVec.ofNat 64 (s.objNat p.loc 32 8)) rightsEnq k q →
          q.kind = 3 → q.swr = false →
          ∃ u, Accessed s u ∧ exec (.tspawn w) s = .next ((u.decrement s.die ctx a).advance 4))
      ∧ (s.taskState p.loc ≠ 2 → TakesFaultAfter (.tdone w) s causeProtection mask)
      ∧ (s.taskState p.loc = 2 → s.objNat p.loc 56 8 = 0 → Completes (.tdone w) s fun t =>
          t.taskState p.loc = 3 ∧ t.walks = s.walks ++ (if s.objNat p.loc 20 4 = 0 then [] else
            [{ die := die, ctx := ctx, future := 0, node := 0, faulted := false, succ := BitVec.ofNat 64 (s.objNat p.loc 24 8)
               left := s.objNat p.loc 20 4 }])
          ∧ t.grp.spl = s.grp.spl.past 4)
      ∧ (s.taskState p.loc = 2 → s.objNat p.loc 56 8 ≠ 0 → s.objectAt (BitVec.ofNat 64 (s.objNat p.loc 56 8)) 16 n →
          (2 ≤ s.futureState n.loc → TakesFaultAfter (.tdone w) s causeDoubleResolve mask)
          ∧ (s.futureState n.loc < 2 → (n.loc.addr + 16 ≤ p.loc.addr ∨ p.loc.addr + 64 ≤ n.loc.addr) → Completes (.tdone w) s fun t =>
              t.taskState p.loc = 3 ∧ t.objNat n.loc 0 8 = 2 * 2 ^ 62 ∧ t.objNat n.loc 8 8 = (s.uniB w).toNat
              ∧ t.grp.spl = s.grp.spl.past 4)))

/-- R305, R310, R311, R312: a handle that fails its checks is CAP_CHECK or CAP_RIGHTS; `qenq` gives every lane a slot while the
queue is open and has room, and none when it is closed; with `.ri` a lane whose parked item is there moves it to the
re-injection list; `qdeq` and `qsteal` grant nothing from an empty queue, and one lane takes the record at HEAD or the last
one. Resting on choices of the model, not on the spec's words: log 31. -/
def Obligations.QueueInstructions : Prop :=
  ∀ (w : LaneShort) (e : EM) (s : State) (k : Nat) (q : Queue),
    let m := s.grp.effMask w.g e.gn
    let h := s.grp.uniGet e.c.toNat
    let n := (lanesOf m).length
    let rows := [w.b.toNat, w.b.toNat + 1, w.b.toNat + 2, w.b.toNat + 3]
    let done (t : State) (granted : Nat → Bool) : Prop :=
      (∀ l < 32, m.getLsbD l = true → w.a ≠ 0 → t.grp.predGet w.a.toNat l = granted l)
      ∧ (∀ j l, l < 32 → (j ≠ w.a.toNat ∨ m.getLsbD l = false) → t.grp.predGet j l = s.grp.predGet j l)
      ∧ (∀ l, t.grp.latchGet 0 l = 0) ∧ t.grp.spl = s.grp.spl.past 8
    m ≠ 0 → s.pipeOpen = true →
    (∀ c ri, s.reads rows = true → e.offset.getLsbD 0 = ri →
      s.checkHandle (s.partition s.grp.gid) h (if ri then rightsEnq ||| rightsDeq else rightsEnq) = .error c → TakesFault (.qenq w e) s c m)
    ∧ (s.reads rows = true → e.offset.getLsbD 0 = false → s.names h rightsEnq k q → q.swr = false → q.kind ≠ 2 → q.deferred = [] →
        (∀ l < 32, m.getLsbD l = true → q.kind = 1 → descClass (s.grp.recordOf w.b.toNat l) ≠ 3) →
        (semReleases e.sem = true → s.atOrder e.scope = true) →
        (q.closed = true → Completes (.qenq w e) s fun t => done t (fun _ => false) ∧ lookupKey t.queues k = some q)
        ∧ (q.closed = false → q.count + n ≤ 2 ^ q.logcap → q.logcap ≤ 31 → Completes (.qenq w e) s fun t =>
            done t (fun _ => true)
            ∧ (lookupKey t.queues k).map (fun x => (x.head, x.tail)) = some (q.head, q.tail + BitVec.ofNat 32 n)))
    ∧ (s.reads rows = true → e.offset.getLsbD 0 = true → s.names h (rightsEnq ||| rightsDeq) k q →
        (q.kind ≠ 1 → TakesFault (.qenq w e) s causeProtection m)
        ∧ (∀ l p rest, q.kind = 1 → (semReleases e.sem = true → s.atOrder e.scope = true) → lanesOf m = [l] → q.reinjected.length < 64 →
            takeParked k (descFlow (s.grp.recordOf w.b.toNat l)) ((s.grp.recordOf w.b.toNat l).extractLsb' 32 32)
              (s.parkedTable q.home) = some (p, rest) →
            Completes (.qenq w e) s fun t => done t (fun _ => true) ∧ t.parkedTable q.home = rest
              ∧ (lookupKey t.queues k).map (·.reinjected) = some (q.reinjected ++ [{ desc := p.desc, qkey := k, lock := p.lock }])))
    ∧ (s.reads [w.d.toNat] = true → ∀ x ∈ [(Instr.qdeq w e, rightsDeq, false), (Instr.qsteal w e, rightsStl, true)],
        (∀ c, s.checkHandle (s.partition s.grp.gid) h x.2.1 = .error c → TakesFault x.1 s c m)
        ∧ (s.names h x.2.1 k q → takesFrom x.2.2 q = false → TakesFault x.1 s causeProtection m)
        ∧ (s.names h x.2.1 k q → takesFrom x.2.2 q = true → w.d.toNat + q.recordSize / 4 ≤ s.grp.frameSize →
          (q.tail = q.head → Completes x.1 s fun t => done t (fun _ => false) ∧ lookupKey t.queues k = some q
            ∧ ∀ fn i l, t.grp.frameGet fn i l = s.grp.frameGet fn i l)
          ∧ ∀ l u bs, lanesOf m = [l] → (if x.2.2 then s.stealTail k else s.dequeue k) = (u, some bs) → Completes x.1 s fun t =>
              done t (fun _ => true)
              ∧ ∀ j < q.recordSize / 4, (locate s.grp.frames s.grp.spl.chain (w.d.toNat + j)).isSome = true →
                  (∀ i < q.recordSize / 4, i ≠ j → locate s.grp.frames s.grp.spl.chain (w.d.toNat + i) ≠
                    locate s.grp.frames s.grp.spl.chain (w.d.toNat + j)) →
                  t.grp.laneGet (w.d.toNat + j) l = BitVec.ofNat 32 (leNat ((bs.drop (4 * j)).take 4))))

/-- R218 to R224: `relbl` grants a lane whose item has the flow and class asked for, or whose item is in turn and the lock free:
the item takes them, its old lock or slot is given up; else it answers false. `item.done` empties the lanes and gives up what
their items hold; `item.skip` discards parked items; `item.yield` without target lanes answers which lanes hold an item;
`item.defer` hands the items of its lanes to another queue of the same home. Resting on choices of the model, not on the
spec's words: log 31, 16, 139. -/
def Obligations.Items : Prop :=
  ∀ (w : LaneShort) (e : EA) (s : State), s.grp.effMask w.g e.gn ≠ 0 →
    let m := s.grp.effMask w.g e.gn
    let flow (l : Nat) : Word := (s.grp.srcA w false l).extractLsb' 0 32
    let nc := (e.imm.extractLsb' 0 2).toNat
    let h := s.grp.uniGet e.c.toNat
    let locked : Bool := (s.grp.holding m).any fun l => ((s.grp.item l).bind (·.lock)).isSome
    let older (t : State) : Prop := (∀ l, t.grp.latchGet 0 l = 0) ∧ (∀ j l, j < 3 → t.grp.latchGet (j + 1) l = s.grp.latchGet j l)
      ∧ t.grp.spl = s.grp.spl.past 8
    (s.reads (regsA w) = true →
      (∀ l < 32, m.getLsbD l = true → ∀ it, s.grp.item l = some it → descFlow it.desc = flow l ∧ descClass it.desc = nc) →
      Completes (.relbl w e) s (PredEffect (fun n => n == w.d.toNat) m 8 (fun _ l => (s.grp.item l).isSome) s))
    ∧ (∀ l it q, s.reads (regsA w) = true → lanesOf m = [l] → s.grp.item l = some it → lookupKey s.queues it.qkey = some q →
        (descFlow it.desc ≠ flow l ∨ descClass it.desc ≠ nc) →
        let dest := lockKey q.home (flow l) q.pasid
        let free : Prop := (descClass it.desc ≠ 1 ∨ (s.lock (s.itemEntry it)).point = descSeq it.desc)
          ∧ (nc ≠ 2 ∨ (s.lock dest).held = false ∨ it.lock = some dest)
        (¬free → Completes (.relbl w e) s (PredEffect (fun n => n == w.d.toNat) m 8 (fun _ _ => false) s))
        ∧ (free → Completes (.relbl w e) s fun t => older t
          ∧ (∃ sq, t.grp.item l = some { it with desc := descWith it.desc (flow l) nc sq, lock := if nc = 2 then some dest else none }
              ∧ sq = if nc = 1 then (s.lock dest).next else 0)
          ∧ (nc = 2 → (t.lock dest).held = true)
          ∧ (∀ x, it.lock = some x → nc ≠ 2 ∨ x ≠ dest → (t.lock x).held = false)
          ∧ (w.d ≠ 0 → t.grp.predGet w.d.toNat l = true) ∧ ∀ k, k ≠ l → t.grp.item k = s.grp.item k))
    ∧ (s.pipeOpen = true → (s.grp.orders m = true → s.atOrder .die = true) → Completes (.itemDone w e) s fun t => older t
        ∧ (∀ l < 32, t.grp.item l = if m.getLsbD l then none else s.grp.item l)
        ∧ (∀ l it x, l < 32 → m.getLsbD l = true → s.grp.item l = some it → it.lock = some x → (t.lock x).held = false)
        ∧ (∀ l it, lanesOf m = [l] → s.grp.item l = some it → it.lock = none → descClass it.desc = 1 →
            t.lock (s.itemEntry it) = (s.resolveSlot (s.itemEntry it) (descSeq it.desc)).lock (s.itemEntry it))
        ∧ (s.grp.orders m = false → t.flights = s.flights)
        ∧ t = { s with locks := t.locks, flights := t.flights
                       grp := { s.grp with spl := t.grp.spl, latches := t.grp.latches, items := t.grp.items } })
    ∧ (s.pipeOpen = true → s.grp.orders m = true → s.atOrder .die = false → exec (.itemDone w e) s = .next (s.waitFor .order))
    ∧ (∀ k q, s.reads [w.a.toNat, w.b.toNat] = true → s.pipeOpen = true → s.names h rightsDeq k q →
        Completes (.itemSkip w e) s (fun t => older t
          ∧ (t.parkedTable q.home).length ≤ (s.parkedTable q.home).length
          ∧ t = { s with locks := t.locks, parkedItems := t.parkedItems
                         grp := { s.grp with spl := t.grp.spl, latches := t.grp.latches } })
        ∧ ∀ l p rest, lanesOf m = [l] →
            takeParked k (s.grp.laneGet w.a.toNat l) (s.grp.laneGet w.b.toNat l) (s.parkedTable q.home) = some (p, rest) →
            Completes (.itemSkip w e) s fun t => t.parkedTable q.home = rest ∧ ∀ x, p.lock = some x → (t.lock x).held = false)
    ∧ (s.pipeOpen = true →
        s.grp.queue = none ∨ s.grp.yieldTargets m (w.g == 0 && !e.gn) = 0 ∨ s.isNode s.grp.gid = true →
        Completes (.itemYield w e) s (PredEffect (fun n => n == w.d.toNat) m 8 (fun _ l => (s.grp.item l).isSome) s))
    ∧ (∀ k, s.pipeOpen = true → s.grp.queue = some k → s.grp.yieldTargets m (w.g == 0 && !e.gn) ≠ 0 → s.isNode s.grp.gid = false →
        (lookupKey s.queues k).isSome = true →
        exec (.itemYield w e) s = .next (((s.requestFill k
          { gid := s.grp.gid, sp := s.grp.spl.num, pred := w.d.toNat, eff := m, targets := s.grp.yieldTargets m (w.g == 0 && !e.gn)
            len := 8 }).waitFor .yield).serveFill k))
    ∧ ∀ k q b, s.names h rightsEnq k q → (s.grp.queue).bind (lookupKey s.queues) = some b →
        (q.home = b.home → q.pasid = b.pasid → q.closed = false → q.swr = false → s.pipeOpen = true →
          (locked = true → s.atOrder .die = true) → Completes (.itemDefer w e) s fun t => older t
            ∧ (∀ l < 32, t.grp.item l = if m.getLsbD l then none else s.grp.item l)
            ∧ (∀ l it x, l < 32 → m.getLsbD l = true → s.grp.item l = some it → it.lock = some x → (t.lock x).held = false)
            ∧ (q.deferred = [] → q.count + (s.grp.holding m).length ≤ 2 ^ q.logcap → q.logcap ≤ 31 →
                (lookupKey t.queues k).map (fun x => (x.head, x.tail)) =
                  some (q.head, q.tail + BitVec.ofNat 32 (s.grp.holding m).length)))
        ∧ (q.home ≠ b.home ∨ q.pasid ≠ b.pasid ∨ q.closed = true ∨ q.swr = true → TakesFault (.itemDefer w e) s causeProtection m)

/-- R329: with the state word of the slot at 0 `rlog.push` stores the element and then marks the slot with m + 1; with the
mark there, `rlog.get` answers the element's address and `rlog.ret` clears the word; else they wait or take PROTECTION.
Resting on choices of the model, not on the spec's words: log 31. -/
def Obligations.RoutingLogs : Prop :=
  ∀ (w : UniShort) (e : EA) (s : State) (sl : LogSlot) (st : Piece) (v : Dword), s.uniReady w.g e.gn = true → s.pipeOpen = true →
    (∀ f ∈ s.flights, f.core = s.grp.core ∨ f.landed = true) →
    let mark : Dword := sl.m.setWidth 64 + 1
    let src := s.grp.uniGet e.c.toNat
    let word := (List.range 8).map fun i => st.loc.plus i
    let from_ := s.runPlaces .read .global src (sl.esz / 16)
    let dest := s.runPlaces .write .global sl.data (sl.esz / 16)
    let waits (i : Instr) : Prop := Completes i s fun t => t.grp.spl = { s.grp.spl with status := .waiting .ring, since := s.postmark.toNat }
    (LogAt .write s w sl st v →
      (src.toNat % 16 ≠ 0 → TakesFault (.rlogPush w e) s causeMisaligned s.grp.spl.mask)
      ∧ (v = mark → src.toNat % 16 = 0 → TakesFaultAfter (.rlogPush w e) s causeProtection s.grp.spl.mask)
      ∧ (v ≠ mark → v ≠ 0 → src.toNat % 16 = 0 → waits (.rlogPush w e))
      ∧ (v = 0 → v ≠ mark → src.toNat % 16 = 0 → s.atOrder .sys = true → s.allFound (from_ ++ dest) →
        Completes (.rlogPush w e) s fun t => t.grp.spl = s.grp.spl.past 8
          ∧ BytesKept (fun l => l ∈ word ∨ l ∈ dest.flatMap Place.locs) [] s t
          ∧ (st.loc.space < 4 → t.valueAt word = mark.toNat)
          ∧ (s.coherent s.grp.core → (dest.flatMap Place.locs).Nodup → (∀ l ∈ dest.flatMap Place.locs, l.space < 4 ∧ l ∉ word) →
              t.bytesOf dest = (from_.flatMap Place.locs).map s.groupSees)
          ∧ samePend t.grp.pend s.grp.pend ∧ t.grp = { s.grp with spl := t.grp.spl, ack := t.grp.ack, pend := t.grp.pend }
          ∧ Stored s t)
      ∧ (v ≠ mark → TakesFaultAfter (.rlogRet w e) s causeProtection s.grp.spl.mask)
      ∧ (v = mark → s.atOrder .sys = true → s.grp.ack < 65535 → Completes (.rlogRet w e) s fun t => t.grp.spl = s.grp.spl.past 8
          ∧ BytesKept (fun l => l ∈ word) [] s t ∧ (st.loc.space < 4 → t.valueAt word = 0)
          ∧ samePend t.grp.pend s.grp.pend ∧ t.grp = { s.grp with spl := t.grp.spl, ack := t.grp.ack, pend := t.grp.pend }
          ∧ Stored s t))
    ∧ (LogAt .read s w sl st v →
      (v ≠ mark → waits (.rlogGet w e))
      ∧ (v = mark → Completes (.rlogGet w e) s fun t => t.grp.spl = s.grp.spl.past 8
        ∧ (∀ j, t.grp.uniGet j = if j = w.d.toNat then sl.data else s.grp.uniGet j)
        ∧ (∀ l, t.seeGet l = s.seeGet l) ∧ (∀ x ∈ t.l1, x.1 / 2 ^ 60 ≠ s.grp.core)
        ∧ t.grp = { s.grp with spl := t.grp.spl, uni := t.grp.uni, pend := t.grp.pend } ∧ t = s.accessed t))

/-- R330: `pipe.send` with a free slot copies the buffer into the slot at TAIL and adds 1 to TAIL; `pipe.recv` with a filled
one copies the slot at HEAD into the buffer and adds 1 to HEAD; else they wait. Resting on choices of the model, not on
the spec's words: log 31. -/
def Obligations.Pipes : Prop :=
  ∀ (w : UniShort) (e : EA) (s : State) (head tail : Word) (esz slots at_ buf slot : Nat), s.uniReady w.g e.gn = true →
    s.pipeOpen = true → (∀ f ∈ s.flights, f.core = s.grp.core ∨ f.landed = true) →
    let waits (i : Instr) : Prop := Completes i s fun t => t.grp.spl = { s.grp.spl with status := .waiting .pipe, since := s.postmark.toNat }
    let run (a : Nat) : List Place :=
      (List.range (esz / 16)).map fun i => .ok [{ loc := ⟨1, a + 16 * i⟩, len := 16, cached := true, entry := none }]
    let apart (a b n : Nat) : Prop := a + n ≤ b ∨ b + esz ≤ a
    let out (t : State) : Prop := t.grp.spl = s.grp.spl.past 8 ∧ samePend t.grp.pend s.grp.pend
      ∧ t.grp = { s.grp with spl := t.grp.spl, pend := t.grp.pend } ∧ Stored s t
    (PipeAt s w e .read head tail esz slots at_ buf →
      (slots ≤ (tail - head).toNat → waits (.pipeSend w e))
      ∧ ((tail - head).toNat < slots →
        s.runPlaces .write .team (s.grp.uniGet w.a.toNat + 16 + BitVec.ofNat 64 (esz * (tail.toNat % slots))) (esz / 16) = run slot →
        apart at_ slot 16 → apart buf slot esz → apart at_ buf 16 → Completes (.pipeSend w e) s fun t =>
          (∀ i < esz, t.seeGet ⟨1, slot + i⟩ = s.groupSees ⟨1, buf + i⟩)
          ∧ t.valueAt ((List.range 4).map fun i => ⟨1, at_ + 4 + i⟩) = (tail + 1).toNat
          ∧ BytesKept (fun l => l.space = 1 ∧ ((slot ≤ l.addr ∧ l.addr < slot + esz) ∨ (at_ + 4 ≤ l.addr ∧ l.addr < at_ + 8))) [] s t
          ∧ out t))
    ∧ (PipeAt s w e .write head tail esz slots at_ buf →
      (tail = head → waits (.pipeRecv w e))
      ∧ (tail ≠ head →
        s.runPlaces .read .team (s.grp.uniGet w.a.toNat + 16 + BitVec.ofNat 64 (esz * (head.toNat % slots))) (esz / 16) = run slot →
        apart at_ slot 16 → apart slot buf esz → apart at_ buf 16 → Completes (.pipeRecv w e) s fun t =>
          (∀ i < esz, t.seeGet ⟨1, buf + i⟩ = s.groupSees ⟨1, slot + i⟩)
          ∧ t.valueAt ((List.range 4).map fun i => ⟨1, at_ + i⟩) = (head + 1).toNat
          ∧ BytesKept (fun l => l.space = 1 ∧ ((buf ≤ l.addr ∧ l.addr < buf + esz) ∨ (at_ ≤ l.addr ∧ l.addr < at_ + 4))) [] s t
          ∧ out t))

/-! ### Assay requests, nodes, service calls and the host cache -/

/-- R169, R326: `asy` whose checks hold sends its request to the Assay unit of the stack that holds its logits, and passes at
once where the unit accepts it, with one more operation of class 3; `gnode` puts n records into an open record queue that
has room for all of them, and none into a closed one. Resting on choices of the model, not on the spec's words: log 31,
63. -/
def Obligations.AssayAndNodes : Prop :=
  ∀ (w : UniShort) (s : State) (p : Piece), s.uniReady w.g false = true → s.pipeOpen = true → s.coherent s.grp.core →
    let g := s.grp
    let a := g.uniGet w.a.toNat
    let at_ (n : Nat) : Prop := s.globalRun .read a.toNat n = .ok [p] ∧ s.marked p
    let d : BitVec 256 := BitVec.ofNat 256 (s.seenAt ((List.range 32).map fun i => p.loc.plus i))
    let f := assayFields d
    let logs := s.assayPlaces .read f.logRuns
    let ress := s.assayPlaces .write f.resRuns
    let stack := ((logs.flatMap Place.pieces).map fun x => x.loc.addr / 2 ^ 36).headD 0
    let q := s.assayQueue stack
    let req (ok : Bool) : AssayReq :=
      { gid := g.gid, sp := g.spl.num, op := s.turn, accepted := ok, desc := d
        logAt := placesOf (logs.flatMap Place.pieces), resAt := placesOf (ress.flatMap Place.pieces) }
    let src := (g.uniGet w.d.toNat).toNat
    let n := (s.uniB w).toNat
    let recs := (List.range n).map fun i => s.globalRun .read (src + 16 * i) 16
    let seen := (recs.flatMap Place.locs).map s.groupSees
    let same (t : State) : Prop := samePend t.grp.pend g.pend
    (a.toNat % 32 = 0 → at_ 32 → (s.assay.any fun x => x.2.any fun r => !r.accepted && r.gid == g.gid && r.sp == g.spl.num) = false →
      (f.aligned = false → TakesFaultAfter (.asy w) s causeMisaligned g.spl.mask)
      ∧ (f.aligned = true → s.allFound (logs ++ ress) →
        (f.ranges = false ∨ oneStack (logs.flatMap Place.pieces) = false → TakesFaultAfter (.asy w) s causeProtection g.spl.mask)
        ∧ (f.ranges = true → oneStack (logs.flatMap Place.pieces) = true → g.opRoom 3 = true →
          (q.length < 64 → q.all (·.accepted) = true → Completes (.asy w) s fun t =>
            t.assayQueue stack = q ++ [req true] ∧ (∀ k, k ≠ stack → t.assayQueue k = s.assayQueue k) ∧ same t
            ∧ t.grp = { g with spl := g.spl.past 4, pend := t.grp.pend
                               counters := g.counters ++ [{ cls := 3, id := s.turn, finished := false }] }
            ∧ (∀ l, t.seeGet l = s.seeGet l) ∧ t = { s.accessed t with assay := t.assay })
          ∧ (64 ≤ q.length ∨ q.all (·.accepted) = false → Completes (.asy w) s fun t =>
            t.assayQueue stack = q ++ [req false] ∧ same t
            ∧ t.grp = { g with spl := { g.spl with status := .waiting .assay, since := s.postmark.toNat }, pend := t.grp.pend }))))
    ∧ (∀ k qu, a.toNat % 64 = 0 → src % 16 = 0 → at_ 64 →
        s.names (BitVec.ofNat 64 (s.seenAt ((List.range 8).map fun i => p.loc.plus (48 + i)))) rightsEnq k qu →
        (qu.swr = true ∨ qu.kind = 2 ∨ n = 0 ∨ 2 ^ qu.logcap < n → TakesFaultAfter (.gnode w) s causeProtection g.spl.mask)
        ∧ (qu.swr = false → qu.kind ≠ 2 → n ≠ 0 → n ≤ 2 ^ qu.logcap → s.allFound recs → s.atOrder .sys = true → qu.deferred = [] →
          (∀ i < n, qu.kind = 1 → descClass (BitVec.ofNat 128 (leNat ((seen.drop (16 * i)).take 16))) ≠ 3) →
          (qu.closed = true → Completes (.gnode w) s fun t => same t ∧ t.grp = { g with spl := g.spl.past 4, pend := t.grp.pend }
              ∧ lookupKey t.queues k = some qu)
          ∧ (qu.closed = false → qu.count + n ≤ 2 ^ qu.logcap → qu.logcap ≤ 31 → Completes (.gnode w) s fun t =>
              same t ∧ t.grp = { g with spl := g.spl.past 4, pend := t.grp.pend }
              ∧ (lookupKey t.queues k).map (fun x => (x.head, x.tail)) = some (qu.head, qu.tail + BitVec.ofNat 32 n))))

/-- R387, R388: `svc` copies its request to the partition's call ring at TAIL, adds 1 to TAIL and leaves a ticket in s(d);
`hcoh.flush` writes the dirty bytes of its range back, leaves every line of it clean and no byte changed; `hcoh.inval` leaves
no line of it in the hub's cache nor in any L1. Resting on choices of the model, not on the spec's words: log 31, 84, 86. -/
def Obligations.ServiceCallsAndHostCache : Prop :=
  (∀ (w : UniShort) (s : State) (p : Piece), s.uniReady w.g false = true → s.coherent s.grp.core →
    let a := (s.grp.uniGet w.a.toNat).toNat
    let req : BitVec 512 := BitVec.ofNat 512 (s.seenAt ((List.range 64).map fun i => p.loc.plus i))
    let crec := (req.extractLsb' 64 64).toNat
    let cctr := (req.extractLsb' 128 64).toNat
    let part := s.partition s.grp.gid
    let ptr := s.partReg part callPtr
    let number := Sparse.get 0 s.tickets part
    let gen := ((lookupKey s.contexts (s.ctxOf s.grp.gid)).map (·.gen)).getD 0
    (a % 64 ≠ 0 → TakesFault (.svc w) s causeMisaligned s.grp.spl.mask)
    ∧ (a % 64 = 0 → s.atOrder .sys = false → exec (.svc w) s = .next (s.waitFor .order))
    ∧ (a % 64 = 0 → s.atOrder .sys = true → s.pipeOpen = true → s.globalRun .read a 64 = .ok [p] → s.marked p →
      (crec % 16 ≠ 0 ∨ cctr % 8 ≠ 0 → TakesFaultAfter (.svc w) s causeMisaligned s.grp.spl.mask)
      ∧ (crec % 16 = 0 → cctr % 8 = 0 → (s.globalRun .write crec 16).isFound = true →
          (cctr ≠ 0 → (s.globalRun .write cctr 8).isFound = true) →
          (s.callRoom part = false → Completes (.svc w) s fun t =>
            t.grp.spl = { s.grp.spl with status := .waiting .ring, since := s.postmark.toNat })
          ∧ (s.callRoom part = true → Completes (.svc w) s fun t =>
          (∀ k, t.grp.uniGet k = if k = w.d.toNat then BitVec.ofNat 64 (number % 2 ^ 32 + gen % 256 * 2 ^ 32) else s.grp.uniGet k)
          ∧ t.grp.spl = s.grp.spl.past 4
          ∧ t.calls = s.calls ++ [{ part := part, ctx := s.ctxOf s.grp.gid, req := req
                                    ticket := BitVec.ofNat 64 (number % 2 ^ 32 + gen % 256 * 2 ^ 32) }]
          ∧ (∀ k, t.partReg part k = if k = callPtr then (ptr.extractLsb' 32 32 + 1) ++ ptr.extractLsb' 0 32 else s.partReg part k)
          ∧ t.valueAt ((List.range 64).map fun i => ⟨0, (s.partReg part 0x68).toNat + 64 * ((ptr.extractLsb' 32 32).toNat % 256) + i⟩)
              = req.toNat))))
  ∧ ∀ (w : UniShort) (e : EA) (s : State), s.uniReady w.g e.gn = true →
    let a := (s.grp.uniGet w.a.toNat).toNat
    let n := (s.grp.uniGet w.b.toNat).toNat
    let pages := s.assayPlaces .read (rangePages (n / 4096 + 2) a n)
    let lines := hostLines (pages.flatMap Place.pieces)
    (n < 128 ∨ 2 ^ 30 < n →
      TakesFault (.hcohFlush w e) s causeProtection s.grp.spl.mask ∧ TakesFault (.hcohInval w e) s causeProtection s.grp.spl.mask)
    ∧ (128 ≤ n → n ≤ 2 ^ 30 → a % 128 ≠ 0 ∨ n % 128 ≠ 0 →
      TakesFault (.hcohFlush w e) s causeMisaligned s.grp.spl.mask ∧ TakesFault (.hcohInval w e) s causeMisaligned s.grp.spl.mask)
    ∧ (128 ≤ n → n ≤ 2 ^ 30 → a % 128 = 0 → n % 128 = 0 → s.pipeOpen = true → (∀ p ∈ pages, p.isFound = true) →
      (s.atOrder .sys = true → Completes (.hcohFlush w e) s fun t =>
        t.grp = { s.grp with spl := s.grp.spl.past 8 } ∧ (∀ l : Loc, l.space ≤ 4 → t.seeGet l = s.seeGet l)
        ∧ (∀ l ∈ lines, ∀ h, lookupKey t.hostCache l = some h → h.dirty = 0)
        ∧ (∀ l ∈ lines, ∀ h, lookupKey s.hostCache l = some h → ∀ i < 128, h.dirty.getLsbD i = true →
            t.hostMem.get (128 * l + i) = (h.bytes[i]?).getD 0)
        ∧ t = s.accessed t)
      ∧ (s.atOrder .sys = false → exec (.hcohFlush w e) s = .next (s.waitFor .flush))
      ∧ (Completes (.hcohInval w e) s fun t =>
        t.grp = { s.grp with spl := s.grp.spl.past 8 } ∧ (∀ l : Loc, l.space < 4 → t.seeGet l = s.seeGet l)
        ∧ (∀ l ∈ lines, lookupKey t.hostCache l = none ∧ ∀ x ∈ t.l1, x.1 % 2 ^ 60 ≠ 4 * 2 ^ 56 + l)
        ∧ (∀ x ∈ t.l1, x.1 / 2 ^ 60 ≠ s.grp.core) ∧ t = s.accessed t))

/-! ### Save and restore routines, special registers, exceptions -/

/-- R377, R378, R379, R380, R381: a `ctx` instruction outside its routine takes PROTECTION; `ctx.drain` passes once nothing is
outstanding; the save routine's instructions write the group's splits, frames and lists to its image and change nothing
else; the restore routine's read them back. Resting on choices of the model, not on the spec's words: log 17, 85. -/
def Obligations.ContextInstructions : Prop :=
  ∀ (w : UniShort) (e : EA) (s : State), s.uniReady w.g e.gn = true → s.pipeOpen = true →
    let g := s.grp
    let code := g.entryCode
    let a := (g.uniGet w.a.toNat).toNat
    let n := (s.regOrImm w).toNat
    let k := w.b.toNat
    let gone (x : Group) : Group := x.onSpl fun p => p.past 8
    let seen (ps : List Place) : List Byte := (ps.flatMap Place.locs).map s.groupSees
    let out (t : State) : Prop := samePend t.grp.pend g.pend ∧ t.grp = { gone g with pend := t.grp.pend }
    (code ≠ 16 → ∀ i ∈ [Instr.ctxSvsplit w e, .ctxSvframe w e, .ctxSvlist w e], TakesFault i s causeProtection g.spl.mask)
    ∧ (code ≠ 17 → ∀ i ∈ [Instr.ctxLdsplit w e, .ctxLdframe w e, .ctxSvlistLoad w e], TakesFault i s causeProtection g.spl.mask)
    ∧ (s.drained g (code == 16) = true → exec (.ctxDrain w e) s = .next (s.goto (g.spl.pc + 8)))
    ∧ (s.drained g (code == 16) = false → exec (.ctxDrain w e) s = .next (s.waitFor .drain))
    ∧ (code = 16 → a % 4096 ≠ 0 → ∀ i ∈ [Instr.ctxSvsplit w e, .ctxSvlist w e], TakesFault i s causeMisaligned g.spl.mask)
    ∧ (code = 17 → a % 4096 ≠ 0 → ∀ i ∈ [Instr.ctxLdsplit w e, .ctxSvlistLoad w e], TakesFault i s causeMisaligned g.spl.mask)
    ∧ (code = 16 → a % 4096 = 0 →
      (let part := g.savePart k
       let ps := s.imagePlaces .write [(a + part.1, part.2.length)]
       (∀ p ∈ ps, p.isFound = true) → Completes (.ctxSvsplit w e) s fun t => ImageWritten ps part.2 s t ∧ out t ∧ Stored s t)
      ∧ ∀ tm, s.team = some tm →
        let ps := s.imagePlaces .write (listRuns a k)
        (∀ p ∈ ps, p.isFound = true) → Completes (.ctxSvlist w e) s fun t =>
          ImageWritten ps (s.listBytes tm k) s t ∧ out t ∧ Stored s t
          ∧ (k = 2 → ∀ ws, lookupKey t.relwin g.core = some ws → ∀ x ∈ ws, x.gid ≠ g.gid))
    ∧ (code = 17 → a % 4096 = 0 → s.coherent g.core →
      (∀ ps, ps = s.imagePlaces .read [(a, 0x400)] → k = 4 → s.allFound ps → Completes (.ctxLdsplit w e) s fun t =>
        t.grp = gone (g.loadFields (seen ps)) ∧ t = s.accessed t)
      ∧ (∀ ps, ps = s.imagePlaces .read [(a + 0x400 + 256 * k, 256)] → k < 4 → s.allFound ps →
        let m : Mask := BitVec.ofNat 32 (fieldAt (seen ps) 8 4)
        ((∃ q ∈ g.ordinary, q.num ≠ k ∧ q.mask &&& m ≠ 0) → TakesFaultAfter (.ctxLdsplit w e) s causeProtection g.spl.mask)
        ∧ (m = 0 → Completes (.ctxLdsplit w e) s fun t => out t ∧ t = s.accessed t)
        ∧ ((∀ q ∈ g.ordinary, q.num = k ∨ q.mask &&& m = 0) → ∃ u, Accessed s u
            ∧ exec (.ctxLdsplit w e) s = u.restoreSplit k (seen ps)
            ∧ ∀ v p h, u.loadSplit g.gid k (seen ps) = (v, some (some p)) → v.grp.handler = some h →
                exec (.ctxLdsplit w e) s = .next { v with grp := gone { v.grp with
                  handler := some { h with frozen := (h.frozen.filter fun q => q.num != k) ++ [p] } } }))
      ∧ ∀ tm, s.team = some tm → ∀ ps, ps = s.imagePlaces .read (listRuns a k) → s.allFound ps →
        (k = 0 → s.teamAtBarrier tm.key = true ∨ g.gid % 32 ≠ 0 → TakesFault (.ctxSvlistLoad w e) s causeProtection g.spl.mask)
        ∧ (k = 0 → s.teamAtBarrier tm.key = false → g.gid % 32 = 0 → Completes (.ctxSvlistLoad w e) s fun t =>
            (∀ i < tm.barCount, t.bar (barAt tm.core (tm.barBase + i)) = BitVec.ofNat 64 (fieldAt (seen ps) (8 * i) 8))
            ∧ out t ∧ t = { s.accessed t with barriers := t.barriers })
        ∧ (k = 1 → ∃ u, Accessed s u ∧ exec (.ctxSvlistLoad w e) s = .next ((u.loadItems g.gid (seen ps)).advance 8))
        ∧ (k = 2 → ((lookupKey s.relwin tm.core).getD []).length + (heldOfImage tm g.gid (seen ps)).length ≤ 128 →
            Completes (.ctxSvlistLoad w e) s fun t =>
              lookupKey t.relwin tm.core = some (((lookupKey s.relwin tm.core).getD []) ++ heldOfImage tm g.gid (seen ps))
              ∧ out t ∧ t = { s.accessed t with relwin := t.relwin }))
    ∧ (code = 16 ∨ code = 17 → 511 < n → TakesFault (if code = 16 then .ctxSvframe w e else .ctxLdframe w e) s causeIllegal g.spl.mask)
    ∧ (code = 16 ∨ code = 17 → n = 511 → TakesFault (if code = 16 then .ctxSvframe w e else .ctxLdframe w e) s causeProtection g.spl.mask)
    ∧ (code = 16 → n < 511 →
      (g.frame? n = none → TakesFault (.ctxSvframe w e) s causeProtection g.spl.mask)
      ∧ ∀ f u v, g.frame? n = some f → (if f.res then s.evict g.gid n else (s, .ok)) = (u, .ok) →
          u.spillReach g.gid g.spl.num .write [g.descAddr n] = (v, .ok) →
          Completes (.ctxSvframe w e) s fun t => t = (v.putDescriptor g.gid n).advance 8
            ∧ (s.group? g.gid = some g → ∃ x, t.grp.frame? n = some x ∧ x = { f with res := x.res, gmap := x.gmap, regs := x.regs, ovll := x.ovll }
                ∧ x.res = false))
    ∧ (code = 17 → n < 511 → ∀ u, s.spillReach g.gid g.spl.num .read [g.descAddr n] = (u, .ok) →
      let x := u.reviveFrame n
      let wide (gm : List Nat) : State := x.onGrp fun y => { y with frames := modifyKey y.frames n fun z => { z with gmap := gm } }
      (g.frame? n = none → ∀ f, x.grp.frame? n = some f → f.res = false ∧ f.gmap = [] ∧ f.fn = n)
      ∧ ∀ f, x.grp.frame? n = some f →
        (f.res = true ∨ f.gmap ≠ [] → ∀ v, x.fill g.gid n = (v, .ok) → Completes (.ctxLdframe w e) s fun t => t = v.advance 8
          ∧ (x.group? g.gid = some x.grp → ∃ y, t.grp.frame? n = some y ∧ y = { f with res := true, regs := y.regs }))
        ∧ (f.res = false → f.gmap = [] → x.mayGrant g.sub g.gid g.spl.num (f.fc + 1) = true →
            ∀ v, (wide (x.takeGranules g.sub (f.fc + 1))).fill g.gid n = (v, .ok) → Completes (.ctxLdframe w e) s fun t => t = v.advance 8
              ∧ (x.group? g.gid = some x.grp →
                  ∃ y, t.grp.frame? n = some y ∧ y = { f with res := true, regs := y.regs, gmap := x.takeGranules g.sub (f.fc + 1) }))
        ∧ (f.res = false → f.gmap = [] → x.mayGrant g.sub g.gid g.spl.num (f.fc + 1) = false → Completes (.ctxLdframe w e) s fun t =>
            t.grp = { x.grp with spl := { g.spl with status := .fillWait } } ∧ t = { x with grp := t.grp, requests := t.requests }
            ∧ ∃ r ∈ t.requests, r.gid = g.gid ∧ r.sp = g.spl.num))

/-- R364, R365, R366, R76, R184, R148: `srd` reads a special register of its issue and `srd` with a fault word that word, 0 outside
handler mode; a `swr` writes nothing yet: its write is pending, and lands when two more clks of its sub-core have passed,
`%fcap` within 8 to 128, `%spill` as a page address and only while every frame is resident; so does the window of an
`acc.win`. Resting on choices of the model, not on the spec's words: log 21, 68. -/
def Obligations.SpecialRegisters : Prop :=
  (∀ (w : UniShort) (s : State), s.uniReady w.g false = true →
    Completes (.srd w) s (UniEffect w.d.toNat 4 (s.special w.a.toNat) s)
    ∧ Completes (.srdFaultWord w) s (UniEffect w.d.toNat 4
        (match s.grp.handler with
         | none => 0
         | some h => if w.b = 0 then h.cause else (h.words[w.b.toNat - 1]?).getD 0) s)
    ∧ Completes (.swr w) s fun t =>
        t.grp.specials = s.grp.specials ++ [{ num := w.a.toNat, value := s.grp.uniGet w.b.toNat, age := 0 }]
        ∧ t = { s with grp := { s.grp with spl := s.grp.spl.past 4, specials := t.grp.specials } })
  ∧ (∀ (s : State) (x : SpecialWrite), s.grp.specials = [x] →
      (x.age < 2 → s.ageSpecials = { s with grp := { s.grp with specials := [{ x with age := x.age + 1 }] } })
      ∧ (2 ≤ x.age → s.ageSpecials.grp.specials = []
          ∧ (x.num = 0 → s.ageSpecials.special 0 = (s.grp.landMode x.value).mode)
          ∧ (x.num = 6 → s.ageSpecials.special 6 = if s.grp.handler.isSome then x.value else 0)
          ∧ (x.num = 64 → s.ageSpecials.grp.awb = (x.value.extractLsb' 0 11).toNat
              ∧ s.ageSpecials.grp.awl = (x.value.extractLsb' 16 11).toNat)
          ∧ (x.num = 3 → (s.ageSpecials.special 3).toNat = max 8 (min 128 (x.value.toNat % 256)))
          ∧ (x.num = 9 → s.ageSpecials.special 9 = if x.value.getLsbD 0 then 1 else 0)
          ∧ (x.num = 10 → s.ageSpecials.special 10 =
              if s.grp.frames.any (fun f => !f.2.res) then s.grp.spill else x.value &&& ~~~0xFFF#64)
          ∧ (x.num ∉ [0, 3, 6, 9, 10, 64] → s.ageSpecials = { s with grp := { s.grp with specials := [] } })))

/-- R355, R356, R357, R361, R362: `trap` and `bkpt` take their causes with the code of the instruction, and so does every
reserved word; with a debugger attached `bkpt` is a debug stop, and a no-op once it is continued; in a grid launch with a
fault handler the group enters handler mode: its splits freeze as they stand, `%cause`, `%epc` and the fault words are set,
and the handler context has the lanes and the chain of the faulting split and asks for frame 511; with no fault handler the
team is killed. Resting on choices of the model, not on the spec's words: log 49, 122. -/
def Obligations.TrapsAndExceptionEntry : Prop :=
  (∀ (w : UniShort) (s : State), s.uniReady w.g false = true →
    exec (.trap w) s = .next (s.raise (s.groupTrap 14 w.b.toNat s.grp.spl.mask))
    ∧ (s.grp.attached = false → exec (.bkpt w) s = .next (s.raise (s.groupTrap 15 w.b.toNat s.grp.spl.mask)))
    ∧ (s.grp.attached = true → s.grp.stopped = false → s.grp.spl.num ∉ s.grp.skip → Completes (.bkpt w) s fun t =>
        t = { s with grp := { s.grp with stopped := true, stoppedAt := s.postmark.toNat, skip := s.grp.skip ++ [s.grp.spl.num] }
                     stops := (s.stops.filter fun k => k != s.grp.gid) ++ [s.grp.gid] })
    ∧ (s.grp.attached = true → s.grp.spl.num ∈ s.grp.skip → exec (.bkpt w) s = .next (s.goto (s.grp.spl.pc + 4))))
  ∧ (∀ w ext s, TakesFault (.reservedOp w ext) s 1 s.grp.spl.mask)
  ∧ ∀ (s : State) (t : Trap) (tm : Team), s.grp.handler = none → s.team = some tm → tm.lk = 0 → t.gid = s.grp.gid → t.sp = s.grp.spl.num →
    let u := s.raise t
    let target := s.grp.kdesc.extractLsb' 768 64
    let fc := (s.grp.kdesc.extractLsb' 553 3).toNat
    let calm (p : Split) : Split := if p.cont = none ∧ (p.status = .frameWait ∨ p.status = .fillWait) then { p with status := .run } else p
    let first := t.lanes ≠ 0
    (target ≠ 0 → s.requests = [] →
      u.trap = some t ∧ u.grp.sibs = [] ∧ u.grp.spl.mask = s.grp.spl.mask ∧ u.grp.spl.num = s.grp.spl.num ∧ u.grp.spl.pc = target
      ∧ (∃ h, u.grp.handler = some h ∧ h.epc = t.pc ∧ h.complete = false
          ∧ h.frozen = (s.grp.splits.filter fun p => p.mask != 0).map calm
          ∧ h.words = [t.pc, t.addr, t.eff.setWidth 64, s.postmark, s.wordAt (s.ctxOf t.gid) t.pc, 0]
          ∧ (t.cause < 256 → t.tcode < 256 → h.cause.extractLsb' 0 8 = BitVec.ofNat 8 t.cause
              ∧ h.cause.extractLsb' 8 8 = BitVec.ofNat 8 t.tcode ∧ h.cause.extractLsb' 16 2 = BitVec.ofNat 2 t.sp
              ∧ (h.cause.getLsbD 23 = true ↔ first)))
      ∧ (fc + 1 ≤ s.freeGranules s.grp.sub → u.grp.spl.status = .run ∧ u.grp.spl.chain = 511 :: s.grp.spl.chain
          ∧ ∃ f, u.grp.frame? 511 = some f ∧ f.fc = fc ∧ f.res = true ∧ f.rpc = t.pc ∧ f.dep = s.grp.depth)
      ∧ (s.freeGranules s.grp.sub < fc + 1 → u.grp.spl.status = .frameWait ∧ u.grp.spl.chain = s.grp.spl.chain
          ∧ ∃ r ∈ u.requests, r.gid = s.grp.gid ∧ r.granules = fc + 1 ∧ r.need = .handler target fc))
    ∧ (target = 0 → lookupKey u.teams tm.key = none)

/-- R363: `hret` outside handler mode takes PROTECTION; in a handler it restores the frozen splits as they stood, and the one
that faulted resumes at `%epc`, or behind the instruction there, with the lanes of the handler context added; in a save
routine it completes the save once everything has drained; in a restore routine the restored splits stand. Resting on choices
of the model, not on the spec's words: log 82. -/
def Obligations.HandlerReturn : Prop :=
  ∀ (w : UniShort) (s : State), s.uniReady w.g false = true → s.grp.specials = [] →
    let g := s.grp
    (g.handler = none → TakesFault (.hret w) s causeProtection g.spl.mask)
    ∧ ∀ h, g.handler = some h →
      (g.entryCode = 16 → h.complete = false →
        (s.drained g true = true → Completes (.hret w) s fun t => t = { s with grp := { g with handler := some { h with complete := true } } })
        ∧ (s.drained g true = false → exec (.hret w) s = .next (s.waitFor .drain)))
      ∧ (g.entryCode = 17 → h.frozen ≠ [] → (∀ tm, s.team = some tm → tm.pendingOps = []) →
          (∀ p ∈ h.frozen, p.mask ≠ 0 ∧ ∀ f, (p.chain.head?).bind g.frame? = some f → f.res = true) →
          Completes (.hret w) s fun t => t = { s with grp := t.grp } ∧ t.grp.handler = none ∧ t.grp.splits = h.frozen
            ∧ t.grp = { g with spl := t.grp.spl, sibs := t.grp.sibs, handler := none, frames := t.grp.frames })
      ∧ (g.entryCode ≠ 16 → g.entryCode ≠ 17 → Completes (.hret w) s fun t =>
          t = { s with grp := t.grp } ∧ t.grp.handler = none
          ∧ t.grp = { g with spl := t.grp.spl, sibs := t.grp.sibs, handler := none, frames := t.grp.frames }
          ∧ (∀ f ∈ t.grp.frames, f ∈ g.frames)
          ∧ ((∀ p ∈ h.frozen, p.mask ≠ 0 ∧ ∀ f, (p.chain.head?).bind g.frame? = some f → f.res = true) → h.frozen ≠ [] →
            t.grp.splits = h.frozen.map fun p =>
              if p.num = g.spl.num then
                { p with
                  mask := p.mask ||| g.spl.mask, status := .run, arrived := false
                  pc := if w.b.getLsbD 0 then
                      h.epc + (if (s.wordAt (s.ctxOf g.gid) h.epc).getLsbD 30 then 8 else 4)
                    else h.epc }
              else p))

/-! ### Guards -/

/-- R33, R34, R57: a lane instruction that names a register beyond its frame takes ILLEGAL_ENCODING; one whose effective mask
is zero is retired: zero in its latch, and nothing else; but not `mma`, `mms` and `mrk`, nor an access that orders.
Resting on choices of the model, not on the spec's words: log 28. -/
def Obligations.LaneGuards : Prop :=
  ∀ (w : LaneShort) (e : EA) (m : EM) (x : EI) (s : State),
    let d := regsD w
    let a := regsA w
    let b := regsB w false
    let n4 (r : Nat) : List Nat := [r, r + 1, r + 2, r + 3]
    let short (i : LaneShort → Instr) (regs : List Nat) : Prop := GuardedLane (i w) regs w.g false 4 s
    let ext (i : LaneShort → EA → Instr) (regs : List Nat) : Prop := GuardedLane (i w e) regs w.g e.gn 8 s
    let mem (i : LaneShort → EM → Instr) (regs : List Nat) : Prop := GuardedLane (i w m) regs w.g m.gn 8 s
    (∀ i ∈ [Instr.iadd, .isub, .imul, .imin, .imax, .and, .or, .xor, .shl, .shr, .sha, .fadd, .fsub, .fmul, .fmin, .fmax, .fscl],
      short i (d ++ a ++ b))
    ∧ short .mov (d ++ if w.sk = 3 then [] else a) ∧ short .vsr d ∧ GuardedLane (.movImm w x) d w.g false 8 s
    ∧ (∀ i ∈ [Instr.iaddExt, .isubExt, .imulExt, .iminExt, .imaxExt, .andExt, .orExt, .xorExt, .shlExt, .shrExt, .shaExt, .faddExt
              , .fsubExt, .fmulExt, .fminExt, .fmaxExt, .fsclExt], ext i (d ++ a ++ regsB w e.xc))
    ∧ (∀ i ∈ [Instr.imad, .imadw, .lop3, .ffma, .dot], ext i (d ++ a ++ b ++ regsC e))
    ∧ (∀ i ∈ [Instr.bfx, .ibit, .fsf, .scan], ext i (d ++ a)) ∧ (∀ i ∈ [Instr.bfi, .prmt, .sel], ext i (d ++ a ++ b))
    ∧ ext .shfl (d ++ a ++ regsB w (e.imm.getLsbD 5)) ∧ (∀ i ∈ [Instr.icmp, .fcmp, .rkadm], ext i (a ++ b))
    ∧ (∀ i ∈ [Instr.pset, .itemDone, .itemYield, .itemDefer], ext i []) ∧ ext .pmovReg d
    ∧ (∀ i ∈ [Instr.pmovPred, .redux, .relbl], ext i a) ∧ ext .vote (if WellFormed.minorOf e = 4 then a else [])
    ∧ ext .cvt ((if WellFormed.cvtForm (WellFormed.tyOfBits (e.imm.extractLsb' 0 4)) e.t = some .pack then w.d.toNat :: b else d) ++ a)
    ∧ ext .rkins (a ++ b ++ (List.range (2 * (e.imm.extractLsb' 0 4).toNat)).map fun i => w.d.toNat + i)
    ∧ ext .itemSkip [w.a.toNat, w.b.toNat]
    ∧ (∀ i ∈ [Instr.ldk, .lda], mem i (d ++ regsAddr w)) ∧ mem .cpl (regsAddr w ++ [w.b.toNat]) ∧ mem .qenq (n4 w.b.toNat)
    ∧ (∀ i ∈ [Instr.qdeq, .qsteal], mem i [w.d.toNat]) ∧ (m.sem ≠ .acq → mem .ld (d ++ regsAddr w))
    ∧ (m.sem ≠ .rel → ∀ i ∈ [Instr.st, .sta], mem i (regsData w ++ regsAddr w))

/-- R39, R40: a uniform instruction whose guard condition is false is retired: the split goes on behind it, and nothing else
changes. Resting on choices of the model, not on the spec's words: log 28. -/
def Obligations.UniformGuards : Prop :=
  ∀ (w : UniShort) (e : EA) (m : EM) (x : EI) (s : State), s.grp.spl.begun = false →
    (s.grp.qGet w.g.toNat = false →
      (∀ i ∈ [Instr.uadd, .usub, .umul, .umin, .umax, .uand, .uor, .uxor, .ushl, .ushr, .usha, .umov, .brx, .callx, .ret, .unwind, .exit
              , .waitc, .cpb, .cpclose, .cpwait, .fres, .freg, .tspawn, .tdone, .asy, .gnode, .svc, .srd, .srdFaultWord, .swr, .trap
              , .hret, .bkpt], exec (i w) s = .next (s.goto (s.grp.spl.pc + 4)))
      ∧ ∀ i ∈ [Instr.uaddExt, .usubExt, .umulExt, .uminExt, .umaxExt, .uandExt, .uorExt, .uxorExt, .ushlExt, .ushrExt, .ushaExt
               , .umovExt], exec (i w x) s = .next (s.goto (s.grp.spl.pc + 8)))
    ∧ ((s.grp.qGet w.g.toNat ^^ e.gn) = false →
      (∀ i ∈ [Instr.umad, .ubfx, .usel, .ucmp, .barInit, .barArrive, .barWait, .barArrwait, .barExpect, .fenceAcq, .fenceRel, .fenceAcqrel
              , .fenceSc, .accAcq, .accRel, .accWin, .accAlloc, .accFree, .rkcfg, .rlogPush, .rlogGet, .rlogRet, .pipeSend, .pipeRecv
              , .hcohFlush, .hcohInval, .ctxDrain, .ctxSvsplit, .ctxLdsplit, .ctxSvframe, .ctxLdframe, .ctxSvlist, .ctxSvlistLoad],
        exec (i w e) s = .next (s.goto (s.grp.spl.pc + 8)))
      ∧ (w.d.toNat + 1 < s.grp.frameSize → exec (.rkrd w e) s = .next (s.goto (s.grp.spl.pc + 8)))
      ∧ (s.grp.frameSize ≤ w.d.toNat + 1 → TakesFault (.rkrd w e) s causeIllegal s.grp.spl.mask))
    ∧ ((s.grp.qGet w.g.toNat ^^ m.gn) = false → ∀ i ∈ [Instr.mwait, .msig, .rkmrg], exec (i w m) s = .next (s.goto (s.grp.spl.pc + 8)))

/-! ### Events -/

/-- R21, R22, R24, R25, R76, R194, R203, R235, R236, R242, R249, R259, R268, R288: the events of one group: a park that times out
goes on behind its `rcv`, the 16th refusal of the split that ranks first in its sub-core and a ready split's wait count of 48
make it urgent, a wait that is over lets the split issue again, answers arrive lane by lane, results land one by one, an
acknowledgement counts off one write, and a tile transfer is counted off once nothing of it is under way; no other group and
nothing else changes. Resting on choices of the model, not on the spec's words: log 4, 35. -/
def Obligations.IssueEvents : Prop :=
  ∀ (s : State) (gid sp : Nat) (g : Group), s.hasGroup gid g →
    let one (i : Instr) (f : Group → Split → Split) : Prop :=
      Completes i s (GroupBecomes gid (fun x y => y = x.onSplits fun p => if p.num = sp then f x p else p) s)
    let otherOps (c : Nat) (x y : Group) : Prop :=
      ∀ k, k ≠ c → (y.counters.filter fun o => o.cls == k) = x.counters.filter fun o => o.cls == k
    one (.parkTimeout gid sp) (fun x p => if x.stopped = false ∧ p.status = .parked then { p with pc := p.pc + 4, status := .run } else p)
    ∧ ((leastRank (s.readyIn g.sub)).map (·.2) = some (gid, sp) → s.collectors gid sp ≠ 0 →
        one (.refusalUrgent gid sp) (fun _ p => { p with refusals := 16, urgent := some (p.urgent.getD s.turn) }))
    ∧ ((leastRank (s.readyIn g.sub)).map (·.2) ≠ some (gid, sp) ∨ s.collectors gid sp = 0 →
        exec (.refusalUrgent gid sp) s = .next s)
    ∧ one (.waitCountUrgent gid sp)
        (fun x p => if s.isReady x p then { p with waitCount := 48, urgent := some (p.urgent.getD s.turn) } else p)
    ∧ one (.mwaitSatisfied gid sp) (fun _ p => if p.status = .waiting .counter then { p with status := .again } else p)
    ∧ (∀ p tm k, (g.splits.find? fun x => x.num == sp) = some p → s.team? (teamOf gid) = some tm → tm.barKey p.barClu p.barNum = some k →
        (p.status ≠ .waiting .barrier ∨ barPh (s.bar k) = p.parity → exec (.barWaitRelease gid sp) s = .next s)
        ∧ (p.status = .waiting .barrier → barPh (s.bar k) ≠ p.parity → Completes (.barWaitRelease gid sp) s fun t =>
            t.waitsAt k p.parity = false ∧ t = { s with grp := t.grp, others := t.others }
            ∧ (g.sibs = [] → g.handler = none → t.group? gid = some { g with spl := { g.spl with status := .again } })))
    ∧ (g.oldestTransfer = none → exec (.tileTransferComplete gid) s = .next s)
    ∧ (∀ id, g.oldestTransfer = some id →
        (s.transferBusy g id = true → exec (.tileTransferComplete gid) s = .next s)
        ∧ (s.transferBusy g id = false → Completes (.tileTransferComplete gid) s
            (GroupBecomes gid (fun x y => OpCounted 1 x y ∧ y = { x with counters := y.counters }) s)))
    ∧ ((∀ e ∈ g.pend, e.wait = false) →
        Completes (.memoryResponse gid) s (GroupBecomes gid (fun x y => y = { x with counters := y.counters } ∧ otherOps 4 x y) s))
    ∧ ((∃ e ∈ g.pend, e.wait = true) → (∀ e ∈ g.pend, e.late = []) → Completes (.memoryResponse gid) s fun t =>
        GroupBecomes gid (fun x y =>
          y = { x with counters := y.counters, pend := y.pend } ∧ otherOps 4 x y
          ∧ (∃ e ∈ x.pend, e.wait = true ∧ ∃ m : Mask, m &&& e.mask = m ∧ (e.mask ≠ 0 → m ≠ 0)
              ∧ y.pend = x.pend.map fun f => if f = e then e.arrive m else f)
          ∧ (∀ o ∈ x.counters, o.cls = 4 → o.finished = false → (∃ e ∈ y.pend, e.op = o.id ∧ e.wait = true) → o ∈ y.counters)
          ∧ (x.outstanding 4 = 1 → (∀ o ∈ x.counters, o.cls = 4 → ∀ e ∈ y.pend, e.op = o.id → e.wait = false) → y.outstanding 4 = 0))
          { s with free := t.free } t)
    ∧ ((∀ f ∈ s.flights, f.gid ≠ gid) → Completes (.writeAck gid) s (GroupBecomes gid (fun x y => y = { x with ack := x.ack - 1 }) s))
    ∧ ((∃ f ∈ s.flights, f.gid = gid) → Completes (.writeAck gid) s fun t =>
        (∃ f ∈ s.flights, f.gid = gid
          ∧ (∀ x ∈ t.flights, ¬(x.gid = gid ∧ x.op = f.op ∧ x.part = f.part))
          ∧ ∀ x ∈ s.flights, ¬(x.gid = gid ∧ x.op = f.op ∧ x.part = f.part) → ∃ y ∈ t.flights, y = { x with landed := y.landed })
        ∧ GroupBecomes gid (fun x y => y = { x with ack := x.ack - 1 }) { s with free := t.free, flights := t.flights } t)
    ∧ (s.grp.gid = gid → Completes (.resultWriteback gid) s fun t =>
        t.grp.specials = []
        ∧ (s.grp.specials = [] → s.grp.held = [] → t = { s with free := t.free, grp := { s.grp with pend := t.grp.pend } }
            ∧ (landable s.grp.pend = [] → t.grp.pend = s.grp.pend)
            ∧ (landable s.grp.pend ≠ [] → ∃ e ∈ landable s.grp.pend, t.grp.pend = s.grp.pend.erase e)))

/-- R183 to R189, R203, R357, R359, R370: the request at the head of a sub-core's queue waits while too few granules are free, and
then makes its frame: a call's, a handler's frame 511, or the granules of a frame to fill. The ESE evicts the next victim, or
the request is a STACK_OVERFLOW; it waits for a debug stop to end and for the pending writes of the split whose top goes, and
that split is in SWAPPED at once. An evicted frame holds no granule, its split queues a fill, and a frame that was freed or
made anew meanwhile is left alone; a filled frame is resident, and the split that waited for it goes on. Resting on choices of
the model, not on the spec's words: log 37. -/
def Obligations.FrameEvents : Prop :=
  ∀ (s : State) (core sc : Nat),
    let sub := 8 * core + sc
    let head := s.requests.find? fun r => r.sub == sub
    (head = none → exec (.frameGrant core sc) s = .next s ∧ exec (.eseTrigger core sc) s = .next s)
    ∧ (∀ r, head = some r →
      (s.freeGranules sub < r.granules → exec (.frameGrant core sc) s = .next s)
      ∧ (r.granules ≤ s.freeGranules sub → exec (.eseTrigger core sc) s = .next s)
      ∧ (r.granules ≤ s.freeGranules sub → s.grp.gid = r.gid → s.grp.spl.num = r.sp → s.grp.live = true →
        let t0 : State := { s with requests := s.requests.erase r }
        (∀ target fc kc rpc fn u, r.need = .call target fc kc rpc → s.grp.freeFrame = some fn →
          t0.spillReach r.gid eseSplit .write s.grp.pushPlaces = (u, .ok) →
          Completes (.frameGrant core sc) s fun t =>
            t.grp.spl = { s.grp.spl with
              chain := fn :: s.grp.spl.chain, near := min 16 (s.grp.spl.near + 1), pc := target, status := .run, arrived := false }
            ∧ t.grp.frame? fn = some { fn := fn, dep := s.grp.depth + 1, pfn := s.grp.spl.chain.headD 0, rpc := rpc, kc := kc, fc := fc
                                       ovll := false, res := true, gmap := s.takeGranules s.grp.sub (fc + 1), regs := [] }
            ∧ t.requests = t0.requests
            ∧ (s.grp.spl.near < 16 → t = { t0 with grp := t.grp, parkedAccesses := t.parkedAccesses })
            ∧ ∀ out f l c es, s.grp.pushedOut = some out → s.grp.frame? out = some f →
                s.translate (s.ctxOf s.grp.gid) (s.grp.spill.toNat + 32 * out) .write = .ok l c es → l.space < 4 →
                t.valueAt ((List.range 32).map fun i => l.plus i) = f.descriptor.toNat)
        ∧ (∀ target fc h, r.need = .handler target fc → s.grp.handler = some h →
          (∀ i ∈ [Instr.frameGrant core sc] ++ (if s.grp.core = core ∧ s.grp.sc = sc ∧ s.grp.parkRecs = []
                ∧ (s.saving r.gid && (s.team? (teamOf r.gid)).any fun t => s.grp.savesItself t) = false then [.handlerEntry r.gid] else []),
            Completes i s fun t =>
              t.grp.spl = { s.grp.spl with
                chain := 511 :: s.grp.spl.chain, near := min 16 (s.grp.spl.near + 1), pc := target, status := .run, arrived := false }
              ∧ (∃ f, t.grp.frame? 511 = some f ∧ f.res = true ∧ f.fc = fc ∧ f.rpc = h.epc ∧ f.gmap = s.takeGranules sub (fc + 1))
              ∧ t = { t0 with grp := t.grp })))
      ∧ (∀ fn g f, r.granules ≤ s.freeGranules sub → r.need = .fill fn → s.hasGroup r.gid g → g.frame? fn = some f → f.gmap = [] →
          Completes (.frameGrant core sc) s (GroupBecomes r.gid
            (fun x y => y = { x with frames := y.frames } ∧ y.frame? fn = some { f with gmap := s.takeGranules sub r.granules })
            { s with requests := s.requests.erase r }))
      ∧ ((s.evicting.any fun e => e.sub == sub) = true ∨ (∃ x, s.group? r.gid = some x ∧ x.stopped = true) →
          exec (.eseTrigger core sc) s = .next s)
      ∧ (s.freeGranules sub < r.granules → (s.evicting.any fun e => e.sub == sub) = false →
          (∀ x, s.group? r.gid = some x → x.stopped = false) →
        (s.victim r = none → exec (.eseTrigger core sc) s = .next (if s.hasSplit r.gid r.sp then s.overflowRequest r else s))
        ∧ ∀ v g, s.victim r = some v → s.hasGroup v.gid g →
            (v.top = true → (∃ e ∈ g.pend, ∀ n, v.await = some n → e.sp = n) → exec (.eseTrigger core sc) s = .next s)
            ∧ (v.top = false ∨ (∀ e ∈ g.pend, ∃ n, v.await = some n ∧ e.sp ≠ n) → ∀ u f h, s.startEvict v.gid v.fn = (u, .ok) →
                u.group? v.gid = some h → h.frame? v.fn = some f →
                let u' : State := { u with evicting := u.evicting ++ [{ sub := sub, gid := v.gid, fn := v.fn, gmap := f.gmap }] }
                (v.top = false → exec (.eseTrigger core sc) s = .next u')
                ∧ (v.top = true → Completes (.eseTrigger core sc) s fun t =>
                    t = { u' with grp := t.grp, others := t.others, requests := t.requests }
                    ∧ (∃ y, t.group? v.gid = some y ∧ y.splits = h.splits.map fun p =>
                        if p.mask ≠ 0 ∧ p.topFn = v.fn ∧ p.cont = none then { p with status := .swapped } else p)
                    ∧ ∀ q ∈ t.requests, q ∈ u.requests ∧ ∀ p ∈ h.splits, p.mask ≠ 0 → p.topFn = v.fn → p.cont = none →
                        ¬(q.gid = v.gid ∧ q.sp = p.num)))))
    ∧ (∀ gid g, s.hasGroup gid g →
        (g.parkRecs ≠ [] → s.drained g true = false ∨ s.settled g = false → exec (.handlerEntry gid) s = .next s)
        ∧ (g.parkRecs = [] → (s.saving gid && (s.team? (teamOf gid)).any fun t => g.savesItself t) = true →
            exec (.handlerEntry gid) s = .next (if s.settled g then (s.finishFrees gid).enterSave gid else s))
        ∧ (g.parkRecs = [] → (s.saving gid && (s.team? (teamOf gid)).any fun t => g.savesItself t) = false →
            (∀ r, (s.requests.find? fun r => r.sub == g.sub) = some r → r.gid ≠ gid ∨ g.handler = none) →
            exec (.handlerEntry gid) s = .next s))
    ∧ ((s.evicting.find? fun e => e.sub == sub) = none → exec (.evictionComplete core sc) s = .next s)
    ∧ (∀ e, (s.evicting.find? fun e => e.sub == sub) = some e →
        let done : State := { s with evicting := s.evicting.erase e }
        ((∀ g f, s.group? e.gid = some g → g.frame? e.fn = some f → f.res = false ∨ f.gmap ≠ e.gmap) →
            exec (.evictionComplete core sc) s = .next done)
        ∧ ∀ g f, s.hasGroup e.gid g → g.frame? e.fn = some f → f.res = true → f.gmap = e.gmap →
            ((∃ p ∈ g.pend, ∃ r, p.dest = .lane e.fn r) → exec (.evictionComplete core sc) s = .next s)
            ∧ ((∀ p ∈ g.pend, ∀ r, p.dest ≠ .lane e.fn r) → ∀ u, done.endEvict e.gid e.fn = (u, .ok) →
                ((∀ p ∈ g.splits, p.topFn ≠ e.fn) → Completes (.evictionComplete core sc) s fun t =>
                    t = { u with grp := t.grp, others := t.others }
                    ∧ ∃ h, t.group? e.gid = some h ∧ h.frame? e.fn = some { f with res := false, gmap := [], regs := [] })
                ∧ (∀ p, s.grp.gid = e.gid → g.spl = p → g.sibs = [] → p.mask ≠ 0 → p.chain.head? = some e.fn → f.fn = e.fn → p.cont = none →
                    Completes (.evictionComplete core sc) s fun t =>
                      t.grp.spl = { p with status := .swapped } ∧ t = { u with grp := t.grp, requests := t.requests }
                      ∧ t.grp.frame? e.fn = some { f with res := false, gmap := [], regs := [] }
                      ∧ t.requests = (u.requests.filter fun q => !(q.gid == e.gid && q.sp == p.num))
                          ++ [{ sub := g.sub, gid := e.gid, sp := p.num, granules := f.fc + 1, need := .fill e.fn }])))
    ∧ ∀ gid fn g f, s.hasGroup gid g → g.frame? fn = some f →
        (f.res = true ∨ f.gmap = [] → exec (.fillComplete gid fn) s = .next s)
        ∧ ∀ u, f.res = false → f.gmap ≠ [] → s.fill gid fn = (u, .ok) → Completes (.fillComplete gid fn) s fun t =>
            t.requests = u.requests.filter (fun r => !(r.gid == gid && r.need == FrameNeed.fill fn))
            ∧ t = { u with grp := t.grp, others := t.others, requests := t.requests }
            ∧ (∀ p, g.spl = p → g.sibs = [] → g.handler = none → p.topFn = fn → p.cont = none → p.status = .swapped ∨ p.status = .fillWait →
                (∀ q ∈ t.requests, ¬(q.gid = gid ∧ q.sp = p.num)) →
                ∃ h x, t.group? gid = some h ∧ h.spl = { p with status := if p.status = .swapped then .run else .again }
                  ∧ h.frame? fn = some { f with res := true, regs := x })

/-- R134 to R138, R142, R146, R147, R151, R160, R162, R164, R166: the events of a matrix engine. With 4 accepted steps it accepts
none; a solo set whose checks hold becomes a step, its split goes on, and its B registers are held until the step starts; a
step that may start has started; a step that is written leaves its values in its rows, and every other byte as it was. A pair
step whose partner never comes faults, what issues the partner's side later will, and the timer stands in a debug stop. A fin
phase offers its rows to their lists; a cleared tile reads zero; a token goes to the group that waits once the tile is quiet,
and a released one passes on; a merge gives its entries to its list; `%thr` takes the domain's maximum. Resting on choices of
the model, not on the spec's words: log 35, 69, 129. -/
def Obligations.EngineEvents : Prop :=
  ∀ (s : State) (core eng : Nat),
    let k := 2 * core + eng
    let e := s.engine k
    let at_ (x : Nat) : Tile := e.tile x
    (4 ≤ e.steps.length → exec (.matrixStepAccept core eng) s = .next s)
    ∧ (∀ d tm, e.steps.length < 4 → e.ports = [d] → d.e.mode = 1 → s.team? (teamOf d.gid) = some tm →
        s.halted (s.partition d.gid) = false → s.grp.gid = d.gid → s.grp.spl.num = d.sp → s.grp.live = true →
        ((s.onEngine k fun x => x.takePorts [d]).stepChecks k tm tm d d [d]).all (·.1) = true →
        Completes (.matrixStepAccept core eng) s fun t =>
          (t.engine k).ports = [] ∧ (∃ st, (t.engine k).steps = e.steps ++ [st] ∧ st.id = s.turn ∧ st.lead = d ∧ st.started = false
            ∧ st.members = [(d.gid, d.sp, d.w.a.toNat)])
          ∧ t.grp.spl = s.grp.spl.past 8 ∧ t.grp.counters = s.grp.counters ++ [{ cls := 0, id := s.turn, finished := false }]
          ∧ t.grp.reads = s.grp.reads ++ (s.bRegs (quarterRegs d.fmt d.e.kfrac) (d.gid, d.sp, d.w.a.toNat)).map fun x => (s.turn, x))
    ∧ (∀ st, e.startable [] e.steps = some st → s.halted (s.partition st.lead.gid) = false → st.partner = none →
        Completes (.matrixStepStart core eng) s fun t =>
          (t.engine k).steps = e.steps.map (fun x => if x = st then { x with
              started := true, snap := if Config.freeBool s.free then some s.teamMem else st.snap, srcs := s.startB st } else x)
          ∧ t = { s.freeB st.id with free := s.free + 1, engines := t.engines })
    ∧ (e.startable [] e.steps = none → exec (.matrixStepStart core eng) s = .next s)
    ∧ (∀ st tm, (e.steps.find? fun x => x.started && !x.finPhase) = some st → s.team? (teamOf st.lead.gid) = some tm →
        s.halted (s.partition st.lead.gid) = false → Completes (.matrixStepWrite core eng []) s fun t =>
          let res := s.stepResult k st tm (s.scaleTeam tm st)
          (∀ x ∈ res, ((List.range 4).map fun i => t.seeGet (x.1.plus i)) = x.2)
          ∧ (∀ l : Loc, l.space ≤ 4 → (∀ x ∈ res, ∀ i < 4, l ≠ x.1.plus i) → t.seeGet l = s.seeGet l)
          ∧ (t.engine k).steps = if st.lead.e.fin then e.steps.map (fun x => if x = st then { st with finPhase := true } else x)
              else e.steps.filter fun x => x != st)
    ∧ ((e.steps.find? fun x => x.partner.isSome && !x.joined) = none → exec (.pairTimeout core eng) s = .next s)
    ∧ (∀ st o u, (e.steps.find? fun x => x.partner.isSome && !x.joined) = some st → st.partner = some o →
        (s.team? (teamOf st.lead.gid)).bind s.pairTeam = some u →
        ((s.quadStopped (teamOf st.lead.gid) k || s.quadStopped u.key o) = true → exec (.pairTimeout core eng) s = .next s)
        ∧ ((s.quadStopped (teamOf st.lead.gid) k || s.quadStopped u.key o) = false → o ≠ k → (s.engine o).pairHere u.key = [] →
          ∀ r, st.members = [(s.grp.gid, s.grp.spl.num, r)] → s.grp.live = true →
          ∃ v : State, v = { s with engines := v.engines }
            ∧ (v.engine k).steps = e.steps.filter (fun x => x != st)
            ∧ v.engine o = { s.engine o with
                pairStep := (s.engine o).pairStep + 1
                pairFailed := (s.engine o).pairFailed ++ (List.range 4).map fun i => (u.key, i, causePairTimeout) }
            ∧ exec (.pairTimeout core eng) s =
                .next ((v.raise (v.groupTrap causePairTimeout 0 s.grp.spl.mask)).focusSplit s.grp.gid s.grp.spl.num)))
    ∧ (∀ st b, (e.steps.find? (·.finPhase)) = some st → s.halted (s.partition st.lead.gid) = false →
        (e.bindings.find? fun x => x.st == st.lead.e.tile.toNat) = some b →
        Completes (.finPhaseEnd core eng) s fun t =>
          let u := (List.range (stepRows st.lead.e)).foldl (fun x i => x.finRow k b (st.lead.e.row.toNat + i)) s
          t.accMem = u.accMem ∧ t.domains = u.domains ∧
          (t.engine k).steps = e.steps.filter (fun x => x != st)
          ∧ (t.engine k).bindings = e.bindings.map fun x => if x = b then { b with cbase := b.cbase + b.cstep } else x)
    ∧ (∀ x, ((at_ x).clearing = true → Completes (.tileClearDone core eng x) s fun t =>
          (∀ a, t.accMem.get a = if a / 0x4000 = 16 * k + x then 0 else s.accMem.get a)
          ∧ (t.engine k).tile x = { at_ x with clearing := false } ∧ t = { s with accMem := t.accMem, engines := t.engines })
        ∧ ((at_ x).clearing = false → exec (.tileClearDone core eng x) s = .next s))
    ∧ (∀ x gid since g, (at_ x).token = .waiting gid since → s.hasGroup gid g →
        (e.tileQuiet x since = true → Completes (.tokenGrant core eng x) s fun t =>
          (t.engine k).tile x = { at_ x with token := .held gid }
          ∧ GroupBecomes gid (fun y z => z = y.onSplits fun p => if p.status = .waiting (.token x) then { p with pc := p.pc + 8, status := .run } else p)
              { s with engines := t.engines } t)
        ∧ (e.tileQuiet x since = false → exec (.tokenGrant core eng x) s = .next s))
    ∧ (∀ x gid, (at_ x).token = .releasing gid →
        (s.heldTileWrites k gid x = true → exec (.tokenHandoff core eng x) s = .next s)
        ∧ (s.heldTileWrites k gid x = false → Completes (.tokenHandoff core eng x) s fun t =>
            ((t.engine k).tile x).token = (match (at_ x).waiters with | [] => .matrix | y :: _ => .waiting y.1 y.2)
            ∧ ((t.engine k).tile x).waiters = (at_ x).waiters.drop 1 ∧ t = { s with engines := t.engines }))
    ∧ (∀ x rest, e.mergesWaiting = x :: rest →
        (4 ≤ e.merges.length → exec (.mergeAccept core eng) s = .next s)
        ∧ (e.merges.length < 4 → s.grp.gid = x.gid → s.grp.spl.num = x.sp → s.grp.live = true → Completes (.mergeAccept core eng) s fun t =>
            (t.engine k).mergesWaiting = rest ∧ (t.engine k).merges = e.merges ++ [{ x with id := s.turn }]
            ∧ t.grp = { s.grp with spl := s.grp.spl.past 8, counters := s.grp.counters ++ [{ cls := 2, id := s.turn, finished := false }] }
            ∧ t = { s with grp := t.grp, engines := t.engines }))
    ∧ (∀ x b, (e.merges.find? fun y => e.mergeFree y && !s.halted (s.partition y.gid)) = some x →
        e.listBinding x.row = some b → Completes (.mergeComplete core eng) s fun t =>
          t.accMem = (s.putList k x.row ((s.listAt k x.row b).merge x)).accMem ∧
          (t.engine k).merges = e.merges.filter (fun y => y != x)
          ∧ (∀ l : Loc, l.space ≤ 4 → l.space ≠ 3 → t.seeGet l = s.seeGet l))
    ∧ ∀ gid g, s.hasGroup gid g →
        Completes (.rkcfgComplete gid) s (GroupBecomes gid (fun x y =>
          y.counters = x.counters.map (fun o => if o.cls = configClass then { o with finished := true } else o)
          ∧ y.splits = x.splits.map (fun p => if p.status = .waiting .engine then { p with status := .run } else p)
          ∧ y = { x with spl := y.spl, sibs := y.sibs, counters := y.counters }) s)
        ∧ (∀ d, g.domain = some d → Completes (.thrUpdate gid) s (GroupBecomes gid (fun x y =>
            y = { x with thr := match (s.domain (domainKey (s.clusterOf (teamOf gid)) d)).top with
                                | none => 0xFFFFFFFFFF800000
                                | some p => p.2 ++ p.1 }) s))

/-- R169, R173, R210, R216, R224, R229, R251, R267, R268, R303, R314: the events of the other units: an Assay unit accepts its
first waiting request, where the group's counter has room, and answers its oldest accepted one; a fill gives a lane the item
that is re-injected; the held writes that are due are performed, and counted until their home acknowledges them; a lock entry
that has blocked for the queue's interval is reported once; what waits for a fault queue, a parked table or a queue goes in
where there is room; a copy that completes leaves its source's bytes at its destination; a clock marker that arrives is
applied, behind what was sent in its channel before. Resting on choices of the model, not on the spec's words: log 35, 59,
133, 140. -/
def Obligations.UnitEvents : Prop :=
  ∀ (s : State),
    (∀ stack, ((s.assayQueue stack).find? fun r => !r.accepted) = none → exec (.assayAccept stack) s = .next s)
    ∧ (∀ stack a r b, s.assayQueue stack = a ++ r :: b → (∀ x ∈ a, x.accepted = true) → r.accepted = false →
        (64 ≤ ((s.assayQueue stack).filter (·.accepted)).length ∨ (∃ g, s.group? r.gid = some g ∧ g.opRoom 3 = false) →
          exec (.assayAccept stack) s = .next s)
        ∧ (((s.assayQueue stack).filter (·.accepted)).length < 64 → (∀ g, s.group? r.gid = some g → g.opRoom 3 = true) →
          Completes (.assayAccept stack) s fun t =>
            t.assayQueue stack = a ++ { r with accepted := true, op := s.turn } :: b
            ∧ (s.grp.gid = r.gid → s.grp.spl.num = r.sp → s.grp.live = true →
              t.grp = { s.grp with spl := s.grp.spl.past 4
                                   counters := s.grp.counters ++ [{ cls := 3, id := s.turn, finished := false }] })))
    ∧ (∀ stack r, ((s.assayQueue stack).find? (·.accepted)) = some r → s.halted (s.partition r.gid) = false →
        let f := assayFields r.desc
        let bs := r.logAt.flatMap fun p => (List.range p.2.2).map fun i => s.seeGet ⟨p.1, p.2.1 + i⟩
        let recs := (List.range f.rows).flatMap fun q => assayRecord f.k (assayLogits f (bs.drop (q * f.n * f.size)))
        Completes (.assayComplete stack) s fun t =>
          t.assayQueue stack = (s.assayQueue stack).filter (fun x => x != r)
          ∧ (∀ g, s.group? r.gid = some g → ∀ p ∈ r.resAt, 0 < p.2.2 → ∀ e ∈ t.l1,
              ¬(l1Key g.core ⟨p.1, p.2.1⟩ ≤ e.1 ∧ e.1 ≤ l1Key g.core ⟨p.1, p.2.1 + p.2.2 - 1⟩))
          ∧ ((∀ p ∈ r.resAt, p.1 ≤ 4) → ∀ l : Loc, l.space ≤ 4 → (∀ p ∈ r.resAt, l.space ≠ p.1 ∨ l.addr < p.2.1 ∨ p.2.1 + p.2.2 ≤ l.addr) → t.seeGet l = s.seeGet l)
          ∧ (∀ a, r.resAt = [(0, a, recs.length)] → ((List.range recs.length).map fun i => t.seeGet ⟨0, a + i⟩) = recs))
    ∧ (∀ gid k q r l it, s.grp.gid = gid → s.grp.live = true → s.grp.queue = some k → lookupKey s.queues k = some q →
        (s.halted (k / 2 ^ 24) = true → exec (.gpkFill gid) s = .next s)
        ∧ (s.halted (k / 2 ^ 24) = false → q.deferred = [] → q.waiters = [r] → r.gid = gid → r.sp = s.grp.spl.num →
          s.grp.spl.status = .waiting .yield → s.isNode gid = false → lanesOf r.targets = [l] → q.reinjected = [it] → descClass it.desc ≠ 3 → it.lock = none →
          Completes (.gpkFill gid) s fun t =>
            t.grp.item l = some it ∧ t.grp.spl = { s.grp.spl.past r.len with mask := s.grp.spl.mask ||| laneBit l }
            ∧ (lookupKey t.queues k).map (fun x => (x.reinjected, x.waiters)) = some ([], [])))
    ∧ (∀ core, s.dueWrites core = [] → exec (.releaseWindowPerform core) s = .next s)
    ∧ (∀ core w rest, s.dueWrites core = w :: rest → s.heldReady core w = false → exec (.releaseWindowPerform core) s = .next s)
    ∧ (∀ core w ws, s.dueWrites core = [w] → s.heldReady core w = true → w.space < 4 → lookupKey s.relwin core = some ws →
        Completes (.releaseWindowPerform core) s fun t =>
          lookupKey t.relwin core = some (ws.erase w)
          ∧ ((List.range w.bytes.length).map fun i => t.seeGet ⟨w.space, w.addr + i⟩) = w.bytes
          ∧ (∀ l : Loc, l.space ≤ 4 → (l.space ≠ w.space ∨ l.addr < w.addr ∨ w.addr + w.bytes.length ≤ l.addr) → t.seeGet l = s.seeGet l)
          ∧ (s.grp.gid = w.gid → w.space ≠ 1 → t.grp = { s.grp with ack := s.grp.ack + 1 })
          ∧ (s.grp.gid ≠ w.gid ∨ w.space = 1 → t.grp = s.grp))
    ∧ (∀ die entry key q, lookupKey s.queues key = some q →
        let due (b : Nat × Nat) : Bool := decide (b.2 + q.stallTime ≤ s.postmark.toNat) && !(s.lock entry).posted.contains b.1
        ((∀ b ∈ s.blocks die entry q, due b = false) ∨ q.home ≠ die ∨ entry / 65536 ≠ die → exec (.stall die entry key) s = .next s)
        ∧ ∀ b, (s.blocks die entry q).find? due = some b → q.home = die → entry / 65536 = die → Completes (.stall die entry key) s fun t =>
            (t.lock entry).posted = (s.lock entry).posted ++ [b.1]
            ∧ EventPosted q.part 1 (dieSource die 0) (BitVec.ofNat 64 (qnumOf key)) (BitVec.ofNat 64 (entry % 65536))
                { s with locks := t.locks } t)
    ∧ (∀ die, (∀ e ∈ s.queues, e.2.home = die → ∃ q, lookupKey s.queues e.1 = some q ∧ q.records = [] ∧ q.deferred = []) →
        (s.parkLater = [] → exec (.faultRecordWrite die) s = .next s) ∧ exec (.deferAppend die) s = .next s)
    ∧ (∀ die k q, s.queues = [(k, q)] → q.home = die →
        (∀ rec_, s.parkLater = [] → q.records = [[rec_]] → q.count < 2 ^ q.logcap → Completes (.faultRecordWrite die) s fun t =>
          (lookupKey t.queues k).map (fun x => (x.records, x.head, x.tail)) = some ([], q.head, q.tail + 1))
        ∧ (∀ p, s.parkLater = [p] → p.item.qkey = k → q.records = [] → q.fqv = false → s.parkRoom die = true →
          Completes (.faultRecordWrite die) s fun t =>
            t.parkLater = [] ∧ t.parkedTable die = s.parkedTable die ++
              [{ qkey := k, desc := p.item.desc, lock := p.item.lock, slot := descClass p.item.desc == 1, since := s.postmark.toNat }])
        ∧ (∀ d, q.deferred = [d] → q.full = false → Completes (.deferAppend die) s fun t =>
          (lookupKey t.queues k).map (fun x => (x.deferred, x.head, x.tail)) = some ([], q.head, q.tail + 1)))
    ∧ (∀ cid, lookupKey s.copies cid = none → exec (.copyComplete cid) s = .next s)
    ∧ (∀ cid c m, lookupKey s.copies cid = some c → c.kind = .batch → c.batch = none → c.moves = [m] → m.written = false → m.data = none →
        m.dstSpace < 4 → Completes (.copyComplete cid) s fun t =>
          (∀ i < m.len, t.seeGet ⟨m.dstSpace, m.dst + i⟩ = s.seeGet ⟨m.srcSpace, m.src + i⟩)
          ∧ (∀ l : Loc, l.space ≤ 4 → (l.space ≠ m.dstSpace ∨ l.addr < m.dst ∨ m.dst + m.len ≤ l.addr) → t.seeGet l = s.seeGet l)
          ∧ t.copies = eraseKey s.copies cid ∧ t.grp = s.grp ∧ t.others = s.others)
    ∧ ∀ src dst, ((s.markers.find? fun m => m.src == src && m.dst == dst) = none → exec (.clockMarker src dst) s = .next s)
        ∧ ∀ m, (s.markers.find? fun m => m.src == src && m.dst == dst) = some m → Completes (.clockMarker src dst) s fun t =>
            Sparse.get 0 t.vapp (8 * dst + src) = m.value
            ∧ (∀ f ∈ t.flights, f.sent = true → f.loc.channel = some dst → dieOf f.core = src → f.landed = true)
            ∧ (∀ f ∈ s.flights, ∃ y ∈ t.flights, y = { f with landed := y.landed })
            ∧ t = { s with vapp := t.vapp, markers := s.markers.erase m, flights := t.flights }

/-- R384, R385, R386, R426: a parked access that is answered failure, or whose page is mapped by now, is issued again; the
host's and the service core's answers answer the parked accesses that they name, and no others; a request to the host that
100 ms have gone by without an answer fails; an invalidation waits for copies that hold the translation, then performs the
accesses under way to the page, removes the translation and lets the accesses of its page walk again. Resting on choices of
the model, not on the spec's words: log 9, 34, 35. -/
def Obligations.TranslationEvents : Prop :=
  ∀ (s : State) (tag : Nat),
    (s.parkedTag tag = none → exec (.translationWalk tag) s = .next s)
    ∧ (∀ p g, s.parkedTag tag = some p → s.hasGroup p.gid g →
        (p.answer = .none → exec (.translationWalk tag) s = .next s)
        ∧ (p.answer = .fail → Completes (.translationWalk tag) s (Readied p.gid p.sp s))
        ∧ (p.answer = .ok → (∀ r, s.translate p.ctx p.va.toNat (accessOf p.kind) ≠ .miss r) →
            Completes (.translationWalk tag) s
              (Readied p.gid p.sp { s with parkedAccesses := s.parkedAccesses.filter fun x => x.tag != tag })))
    ∧ (∀ p, s.parkedTag tag = some p →
        (p.host ≠ 1 ∨ p.answer ≠ .none → ∀ a, exec (.atsResponse tag a) s = .next s)
        ∧ (p.host = 1 → p.answer = .none →
          (Completes (.atsResponse tag .untranslated) s fun t =>
            t = { s with parkedAccesses := s.parkedAccesses.map fun x => if x.tag = tag then { x with host := 2, since := s.postmark.toNat } else x })
          ∧ ∀ page wr, Completes (.atsResponse tag (.translated page wr)) s fun t =>
            { pasid := ((lookupKey s.contexts p.ctx).map (·.pasid)).getD 0, page := p.va.toNat / 4096, target := page, write := wr } ∈ t.ats
            ∧ (∀ x ∈ t.parkedAccesses, x.tag = tag → x.answer = .ok) ∧ t = { s with ats := t.ats, parkedAccesses := t.parkedAccesses }))
    ∧ (∀ ok, exec (.priResponse tag ok) s =
        .next (s.answered (fun p => p.tag == tag && p.host == 2) (if ok then .ok else .fail)))
    ∧ exec (.hostRouteTimeout tag) s =
        .next (s.answered
          (fun p => p.tag == tag && (p.host == 1 || p.host == 2) && decide (p.since + 100000000 ≤ s.postmark.toNat)) .fail)
    ∧ (∀ pasid va,
        let held (e : AtsEntry) : Bool := e.pasid == pasid && e.page == va / 4096
        ((∃ e ∈ s.ats, held e = true ∧ s.copyHolds e.target = true) → exec (.atsInvalidation pasid va) s = .next s)
        ∧ ((∀ e ∈ s.ats, held e = true → s.copyHolds e.target = false) → Completes (.atsInvalidation pasid va) s fun t =>
          (∀ e ∈ s.ats, held e = true →
            (∀ f ∈ t.flights, f.space = 4 → f.addr / 4096 = e.target → f.landed = true)
            ∧ ∀ g ∈ t.grp :: t.others, ∀ p ∈ g.pend, ∀ x ∈ p.late, ¬(x.2.1 = 4 ∧ x.2.2.1 / 4096 = e.target))
          ∧ samePend t.grp.pend s.grp.pend ∧ (t.others.map fun g => { g with pend := [] }) = (s.others.map fun g => { g with pend := [] })
          ∧ t = State.answered { s with
                ats := s.ats.filter (fun e => !held e), flights := t.flights, grp := { s.grp with pend := t.grp.pend }, others := t.others }
              (fun p => (p.host == 1 || p.host == 2) && p.va.toNat / 4096 == va / 4096
                && ((lookupKey s.contexts p.ctx).map (·.pasid)).getD 0 == pasid) .ok))
    ∧ ∀ part v, exec (.fltrsp part v) s =
        .next ((s.setPartReg part 0xA8 ((v.extractLsb' 0 17).setWidth 64)).answered
          (fun p => p.tag == (v.extractLsb' 0 16).toNat && p.host == 0 && s.partOf p.ctx == part) (if v.getLsbD 16 then .ok else .fail))

/-- R302, R305, R308, R309, R324, R325, R327, R328: a command whose handle does not match, or is not of an open queue of the
die, is dropped with CMD_REFUSED; OPEN makes the queue of the block in memory open; CLOSE sets CLOSED and FLUSH writes the
block back; NOTIFY moves TAIL of a software ring; NODE binds a node; a node takes the record at HEAD, and reserves its
oldest eligible records for a launch when there are TILE of them, or when FLUSH µs have passed; a full launch queue lets it
wait. A record that has waited for RTO is reported once. Resting on choices of the model, not on the spec's words: log 15,
66. -/
def Obligations.QueueEvents : Prop :=
  (∀ (s : State) (c : QcCommand),
    let part := s.partOf c.ctx
    (s.commandMatches c = false → ∀ x ∈ [(Instr.qcOpen c, 0), (.qcClose c, 1), (.qcNotify c, 2), (.qcFlush c, 3), (.qcNode c, 4)
        , (.qcResident c, 5)], Completes x.1 s (Refused c x.2 s))
    ∧ (∀ op, Completes (.reservedCommand c op) s (Refused c op.toNat s))
    ∧ (s.commandMatches c = true → ∀ x ∈ [(Instr.qcClose c, 1, 7#3), (.qcNotify c, 2, 4#3), (.qcFlush c, 3, 7#3), (.qcNode c, 4, 7#3)
        , (.qcResident c, 5, 6#3)],
        (∀ a, s.checkHandle part c.handle x.2.2 = .error a → Completes x.1 s (Refused c x.2.1 s))
        ∧ ∀ k q, s.checkHandle part c.handle x.2.2 = .ok k → lookupKey s.queues k = some q → q.home ≠ c.die →
            Completes x.1 s (Refused c x.2.1 s))
    ∧ (s.commandMatches c = true →
      let qnum := (c.handle.extractLsb' 40 24).toNat
      let q := queueOfBlock (s.qcbInMemory part qnum)
      ((lookupKey s.queues (queueKeyOf part qnum)).isSome = true ∨ s.mayOpen part c.die q = false →
        Completes (.qcOpen c) s (Refused c 0 s))
      ∧ (lookupKey s.queues (queueKeyOf part qnum) = none → s.mayOpen part c.die q = true →
        c.handle.extractLsb' 0 24 = handleCheck (s.queueKey part) (c.handle.extractLsb' 24 40) →
        (c.handle.extractLsb' 32 5).toNat = part → qnum < (s.partReg part 0x30).toNat →
        q.gen % 256 = (c.handle.extractLsb' 24 8).toNat → c.handle.extractLsb' 37 3 = 7#3 →
        (q.kind ≠ 3 → Completes (.qcOpen c) s fun t =>
          lookupKey t.queues (queueKeyOf part qnum) = some q ∧ t = { s with queues := t.queues })
        ∧ (q.kind = 3 → ∀ i, lowestFree (s.office c.die).indices 64 = some i → Completes (.qcOpen c) s fun t =>
          (lookupKey t.queues (queueKeyOf part qnum)).map (·.arrivals.length) = some q.count
          ∧ lookupKey (t.office c.die).indices i = some (queueKeyOf part qnum)
          ∧ t = { s with queues := t.queues, offices := t.offices })))
    ∧ (∀ k q, s.commandMatches c = true → lookupKey s.queues k = some q → q.home = c.die →
      (s.checkHandle part c.handle 7#3 = .ok k →
        (Completes (.qcClose c) s fun t =>
          lookupKey t.queues k = some { q with closed := true, dirty := false } ∧ t.holdsBlock k { q with closed := true })
        ∧ (s.mayRelease k q = false → Completes (.qcFlush c) s fun t =>
            lookupKey t.queues k = some { q with dirty := false } ∧ t.holdsBlock k q)
        ∧ (s.mayRelease k q = true → Completes (.qcFlush c) s fun t =>
            lookupKey t.queues k = none ∧ t.holdsBlock k q)
        ∧ (q.kind ≠ 1 ∨ c.arg.toNat % 64 ≠ 0 → Completes (.qcNode c) s (Refused c 4 s))
        ∧ (q.kind = 1 → c.arg.toNat % 64 = 0 → q.node = none → Completes (.qcNode c) s fun t =>
            (lookupKey t.queues k).map (·.node) = some (if c.arg = 0 then none else
              some { ncb := c.arg.setWidth 64, eligible := [], reserved := [], launches := 0, restart := s.postmark.toNat, wait := [], lru := []
                     posted := false })
            ∧ t = { s with queues := t.queues }))
      ∧ (s.checkHandle part c.handle 4#3 = .ok k →
        let n : Word := c.arg.extractLsb' 0 32
        let ahead := (n - q.tail).toNat
        (q.swr = false ∨ q.closed = true → Completes (.qcNotify c) s (Refused c 2 s))
        ∧ (q.swr = true → q.closed = false → ahead = 0 ∨ 2 ^ 31 ≤ ahead → exec (.qcNotify c) s = .next s)
        ∧ (q.swr = true → q.closed = false → ahead ≠ 0 → ahead < 2 ^ 31 →
          (2 ^ q.logcap < (n - q.head).toNat → Completes (.qcNotify c) s (Refused c 2 s))
          ∧ ((n - q.head).toNat ≤ 2 ^ q.logcap → Completes (.qcNotify c) s fun t =>
              (lookupKey t.queues k).map (fun x => (x.head, x.tail)) = some (q.head, n) ∧ t = { s with queues := t.queues })))
      ∧ (s.checkHandle part c.handle 6#3 = .ok k →
        (q.node = none → Completes (.qcResident c) s (Refused c 5 s))
        ∧ ∀ u v x ws w, s.nodeView k = (u, some v) → v.stab ≠ 0 → (c.arg.extractLsb' 0 8).toNat < v.nslot →
            u.weightSlots v = (x, ws) → (ws.find? fun y => y.num == (c.arg.extractLsb' 0 8).toNat) = some w →
            exec (.qcResident c) s = .next (x.slotResident k v w))))
  ∧ (∀ (s : State) (k : Nat) (q : Queue), lookupKey s.queues k = some q →
    (Completes (.qcbWriteback k) s fun t =>
      lookupKey t.queues k = some { q with dirty := false }
      ∧ t.valueAt ((List.range 8).map fun i => ⟨0, s.qcbAddr (k / 2 ^ 24) (qnumOf k) + 48 + i⟩) = q.head.toNat + 2 ^ 32 * q.tail.toNat)
    ∧ (q.node = none → ∀ i ∈ [Instr.nodeRecordArrival k, .nodeReserve k, .nodeFlushExpiry k, .residency k], exec i s = .next s)
    ∧ ∀ u v, s.nodeView k = (u, some v) →
        (∀ nd e rest, (lookupKey u.queues k).bind (·.node) = some nd → nd.wait = e :: rest →
          (nd.posted = true ∨ s.postmark.toNat < e.2 + 1000000 * v.rto → exec (.residency k) s = .next u)
          ∧ (nd.posted = false → e.2 + 1000000 * v.rto ≤ s.postmark.toNat → Completes (.residency k) s
              (EventPosted v.part 7 (dieSource v.die 0) nd.ncb ((descFlow e.1).setWidth 64)
                (u.onQueue k fun x => { x with node := x.node.map fun y => { y with posted := true } }))))
        ∧ (let r := u.retryWait k v
          let held := ((lookupKey r.queues k).bind (·.node)).map fun nd => (nd.wait.length, nd.eligible.length)
          (∀ n m, held = some (n, m) → 256 ≤ n ∨ v.tile ≤ m → exec (.nodeRecordArrival k) s = .next r)
          ∧ ∀ n m x bs y d, v.stab = 0 → held = some (n, m) → n < 256 → m < v.tile → r.head k = (x, some bs) →
            x.takeItem k (BitVec.ofNat 128 (leNat (bs.take 16))) = (y, d) → exec (.nodeRecordArrival k) s =
              .next (y.onQueue k fun z => { z with node := z.node.map fun nd => { nd with
                eligible := nd.eligible ++ [(d, y.postmark.toNat)] } }))
        ∧ (v.stab = 0 →
          let r := (u.recheck k v).retryWait k v
          ∀ x nd lq l, lookupKey r.queues k = some x → x.node = some nd → x.reinjected = [] → x.held = [] →
            r.launchQueue v.part v.lqh = some lq → lookupKey r.queues lq = some l → v.tile ≠ 0 →
          let late : Prop := nd.flushFrom r.postmark.toNat + 1000 * v.flush ≤ r.postmark.toNat
          let after (t : State) : Prop := (lookupKey t.queues k).bind (·.node) = some
            { nd with eligible := nd.eligible.drop v.tile, launches := nd.launches + 1, restart := r.postmark.toNat
                      reserved := nd.reserved ++ [(nd.launches, (nd.eligible.take v.tile).map fun e =>
                        { desc := e.1, qkey := k, lock := none })] }
            ∧ (lq ≠ k → (lookupKey t.queues lq).map (fun z => (z.head, z.tail)) = some (l.head, l.tail + 1))
          (nd.eligible.length < v.tile ∨ l.full = true ∨ l.deferred ≠ [] → exec (.nodeReserve k) s = .next r)
          ∧ (v.tile ≤ nd.eligible.length → l.full = false → l.deferred = [] → Completes (.nodeReserve k) s after)
          ∧ (v.flush = 0 ∨ ¬late ∨ nd.eligible = [] → exec (.nodeFlushExpiry k) s = .next r)
          ∧ (v.flush ≠ 0 → late → nd.eligible ≠ [] → l.full = false → l.deferred = [] → Completes (.nodeFlushExpiry k) s after)))
  ∧ ∀ (s : State) (die : Nat),
    ((s.walks.find? fun w => w.die == die) = none → exec (.taskDecrement die) s = .next s)
    ∧ (∀ a w b, s.walks = a ++ w :: b → (∀ x ∈ a, x.die ≠ die) → w.die = die →
        (w.node = 0 → w.left = 0 → exec (.taskDecrement die) s = .next { s with walks := a ++ b })
        ∧ (w.node = 0 → w.left ≠ 0 → ∀ u tcb, s.ctxNat w.ctx die w.succ.toNat 8 = (u, tcb) → Completes (.taskDecrement die) s fun t =>
            t.walks = a ++ (if w.left = 1 then [] else [{ w with succ := w.succ + 8, left := w.left - 1 }]) ++ b
            ∧ t = { u.decrement die w.ctx (BitVec.ofNat 64 tcb) with walks := t.walks }))

/-- R341, R345, R346, R347, R348, R349, R350, R370, R374: the custom CSRs of an office's harts. SOTAKE reads the head record
of the queue an index names, and takes it: the launch begins, or is refused; SONEED reads a descriptor's needs; SOAVAIL a
core's free resources; SOPLACE stages and commits members, of the launch of the hart's own last record, and a commit that
fails leaves them staged; SOEVT gives the next event; SOKILL kills, SOPRE pre-empts a team that runs; SORESM does nothing to one
that is not pre-empted; an unlisted CSR is an illegal instruction. A pre-empted team is saved once its groups are quiet, a time
slice that is over pre-empts, a save routine that is late kills, and a completed team leaves. Resting on choices of the model,
not on the spec's words: log 9, 36, 75, 76, 90, 91, 92. -/
def Obligations.OfficeEvents : Prop :=
  (∀ (s : State) (die h : Nat),
    let x := s.hart die h
    (∀ idx, lookupKey (s.office die).indices (idx % 64) = none → ∀ i ∈ [Instr.sotakeTake die h idx, .sotakePeek die h idx],
        Completes i s fun t => t.hart die h = { x with take := 0, qinf := 0 } ∧ t = { s with harts := t.harts })
    ∧ (∀ idx k q, lookupKey (s.office die).indices (idx % 64) = some k → lookupKey s.queues k = some q →
        let s1 := s.onHart die h fun y => { y with take := 0, qinf := q.info k }
        ((s.office die).busyWith k = true → exec (.sotakeTake die h idx) s = .next s1)
        ∧ (∀ u, s1.head k = (u, none) → exec (.sotakePeek die h idx) s = .next u
            ∧ ((s.office die).busyWith k = false → exec (.sotakeTake die h idx) s = .next u))
        ∧ (∀ u bs, s1.head k = (u, some bs) →
            let r : BitVec 128 := BitVec.ofNat 128 (leNat (bs.take 16))
            let y := { u.hart die h with take := 1, recl := r.extractLsb' 0 64, rech := r.extractLsb' 64 64 }
            let taken := u.onHart die h fun z =>
              { z with take := 1, recl := r.extractLsb' 0 64, rech := r.extractLsb' 64 64, last := some (u.office die).taken }
            (Completes (.sotakePeek die h idx) s fun t => t.hart die h = y ∧ t = { u with harts := t.harts })
            ∧ ∀ w l p, (s.office die).busyWith k = false → taken.readLaunch die k q r = (w, l) → lookupKey w.queues k = some p → p.deferred = [] →
              Completes (.sotakeTake die h idx) s fun t =>
                t.harts = w.harts
                ∧ (lookupKey t.queues k).map (fun z => (z.head, z.tail)) = some (p.head + 1, p.tail)
                ∧ (t.office die).launches = (w.office die).launches ++ l.toList
                ∧ (t.office die).taken = (w.office die).taken + l.toList.length))
    ∧ (∀ addr u c, s.readValid (s.qinfContext die x.qinf) die addr = (u, c) →
        Completes (.soneed die h addr) s fun t =>
          (t.hart die h).needAddr = addr
          ∧ (t.hart die h).need = (match c with | none => 2 ^ 63 | some d => needsWord d.kdesc)
          ∧ t = { u with harts := t.harts })
    ∧ (∀ v core, coreOfCode (v.extractLsb' 0 8).toNat = some core → Completes (.soavail die h v) s fun t =>
        t.hart die h = { x with avail := s.available core (v.extractLsb' 8 4).toNat } ∧ t = { s with harts := t.harts })
    ∧ (∀ v, Completes (.soplaceStage die h v) s fun t =>
        t.hart die h = { x with staged := x.staged ++ [((v.extractLsb' 0 8).toNat, (v.extractLsb' 32 32).toNat, x.subMap)] }
        ∧ t = { s with harts := t.harts })
    ∧ (∀ v, ((s.office die).launches.find? fun l => some l.id == x.last) = none → Completes (.soplaceCommit die h v) s fun t =>
        t.hart die h = { x with place := placeStatus 3 0 0 } ∧ t = { s with harts := t.harts })
    ∧ (∀ v l, ((s.office die).launches.find? fun l => some l.id == x.last) = some l →
        (l.kdescAddr ≠ x.needAddr ∨ s.tryCommit die l (x.staged ++ [x.member v]) = .bad → Completes (.soplaceCommit die h v) s fun t =>
          t.hart die h = { x with place := placeStatus 3 0 0 } ∧ t = { s with harts := t.harts })
        ∧ (l.kdescAddr = x.needAddr → ∀ e, s.tryCommit die l (x.staged ++ [x.member v]) = .no e → l.denied = some e →
          Completes (.soplaceCommit die h v) s fun t =>
            t.hart die h = { x with place := placeStatus (if e = whyNotReady then 2 else 1) e 0 }
            ∧ t = { s with harts := t.harts, offices := t.offices })
        ∧ (l.kdescAddr = x.needAddr → ∀ w ts, s.tryCommit die l (x.staged ++ [x.member v]) = .placed w ts →
          Completes (.soplaceCommit die h v) s fun t =>
            let begun := w.beginTeams die l ts
            let p := placeStatus 0 0 (pidFor (v.extractLsb' 32 32).toNat ts)
            t.hart die h = { begun.hart die h with staged := [], place := p } ∧ t = { begun with harts := t.harts }))
    ∧ ((s.office die).events = [] → Completes (.soevt die h) s fun t =>
        t.hart die h = { x with evt := 0 } ∧ t = { s with harts := t.harts })
    ∧ (∀ e rest, (s.office die).events = e :: rest → Completes (.soevt die h) s fun t =>
        t.hart die h = { x with evt := BitVec.ofNat 64 (e.1 + 16 * e.2) } ∧ (t.office die).events = rest
        ∧ t = { s with harts := t.harts, offices := t.offices })
    ∧ (∀ csr, ((0x7C0 ≤ csr ∧ csr ≤ 0x7CE) ∨ csr = 0xC01 → exec (.illegalCsrAccess die h csr) s = .next s)
        ∧ ((csr < 0x7C0 ∨ 0x7CE < csr) → csr ≠ 0xC01 → Completes (.illegalCsrAccess die h csr) s fun t =>
            t.hart die h = { x with mepc := x.pc, mcause := 2, pc := x.mtvec &&& ~~~3 } ∧ t = { s with harts := t.harts })))
  ∧ (∀ (s : State) (die h : Nat) (v : Dword),
    let key := 4096 * die + (v.extractLsb' 0 12).toNat
    (s.team? key = none → ∀ i ∈ [Instr.sokill die h v, .sopre die h v, .soresm die h v], exec i s = .next s)
    ∧ ∀ t, s.team? key = some t →
      (t.phase = .ended → exec (.sokill die h v) s = .next s)
      ∧ (t.phase ≠ .ended → Completes (.sokill die h v) s fun u =>
          u.team? key = none ∧ ∀ k ≠ key, u.team? k = s.team? k)
      ∧ (t.phase ≠ .running → exec (.sopre die h v) s = .next s)
      ∧ (t.phase ≠ .preempted → exec (.soresm die h v) s = .next s)
      ∧ (t.phase = .running → t.software = false → s.clusterOfTeams t.cluster .running = [key] →
          Completes (.sopre die h v) s fun u =>
            u.team? key = some
              { t with phase := .saving, phaseAt := s.postmark.toNat
                       reason := if s.sliceOver t then 11 else if s.higherWaits t then 10 else 0 }
            ∧ (∀ k ≠ key, u.team? k = s.team? k) ∧ ∀ l : Loc, u.seeGet l = s.seeGet l))
  ∧ (∀ (s : State) (pid : Nat),
    (s.team? pid = none → ∀ i ∈ [Instr.preemptComplete pid, .saveTimeout pid, .timeSliceExpiry pid, .teamCompletionCount pid],
      exec i s = .next s)
    ∧ ∀ t, s.team? pid = some t →
      (t.phase ≠ .saving → ∀ i ∈ [Instr.preemptComplete pid, .saveTimeout pid], exec i s = .next s)
      ∧ ((∃ g ∈ s.teamGroups pid, s.maySave t g = false) ∨ s.tilesClear t = false → exec (.preemptComplete pid) s = .next s)
      ∧ (t.phase = .saving → (∀ g ∈ s.teamGroups pid, s.maySave t g = true) → s.tilesClear t = true →
          let gs := s.teamGroups pid
          let u := gs.foldl (fun s g => (s.finishFrees g.gid).landPending g.gid g.spl.num) s
          let spilled := spillEach (fun gid s => s.saveFrames gid) ((gs.filter fun g => g.saveKind != 1).map (·.gid)) u
          (∀ v, spilled = (v, .wait) → exec (.preemptComplete pid) s = .next v)
          ∧ (∀ v, spilled = (v, .fail) ∨ (spilled = (v, .ok) ∧ v.writeImage t = none) →
              exec (.preemptComplete pid) s = .next (v.haltSoon (v.partOf t.ctx) causeSpill))
          ∧ ∀ v w, spilled = (v, .ok) → v.writeImage t = some w → w.team? pid = some t → t.key = pid →
              Completes (.preemptComplete pid) s fun x => (x.team? pid).map (·.phase) = some .preempted)
      ∧ (t.phase = .saving → t.phaseAt + 2000000 ≤ s.postmark.toNat →
          ((s.teamGroups pid).any fun g => g.saveKind == 1 && match g.handler with | none => false | some h => !h.complete) = true →
          Completes (.saveTimeout pid) s fun u => u.team? pid = none)
      ∧ (s.sliceOver t = false ∨ s.equalWaits t = false → exec (.timeSliceExpiry pid) s = .next s)
      ∧ (s.sliceOver t = true → s.equalWaits t = true → t.phase = .running → t.software = false →
          s.clusterOfTeams t.cluster .running = [pid] → Completes (.timeSliceExpiry pid) s fun u =>
            u.team? pid = some { t with phase := .saving, phaseAt := s.postmark.toNat, reason := 11 })
      ∧ (t.phase ≠ .ended ∨ s.teamBusy pid = true → exec (.teamCompletionCount pid) s = .next s)
      ∧ (t.phase = .ended → s.teamBusy pid = false → t.lk ≠ 2 →
          let va := t.ctr.toNat / 8 * 8
          (va = 0 → Completes (.teamCompletionCount pid) s fun w =>
            w.team? pid = none ∧ ∀ l : Loc, w.seeGet l = s.seeGet l)
          ∧ ∀ u bs v, va ≠ 0 → s.ctxLoad t.ctx (dieOf t.core) va 8 = (u, some bs) →
              u.ctxStore t.ctx (dieOf t.core) va (leBytes 8 (leNat bs + 1)) = some v → Completes (.teamCompletionCount pid) s fun w =>
                w.team? pid = none ∧ ∀ l : Loc, w.seeGet l = v.seeGet l))
  ∧ ∀ (s : State) (die : Nat) (img : List Byte) (sig : BitVec 1042) (key : Nat),
    let good := Config.ecdsaVerifies 16 (leNat (Sha.sha512 img)) (sig.extractLsb' 0 521).toNat (sig.extractLsb' 521 521).toNat
    (524288 < img.length ∨ key ≠ 16 ∨ good = false → exec (.microcodeLoad die img sig key) s = .next s)
    ∧ (img.length ≤ 524288 → key = 16 → good = true → Completes (.microcodeLoad die img sig key) s fun t =>
        (∀ i < img.length, some (t.officeMem.get (524288 * die + i)) = img[i]?)
        ∧ (∀ a, a < 524288 * die ∨ 524288 * die + img.length ≤ a → t.officeMem.get a = s.officeMem.get a)
        ∧ (t.office die).imageLen = img.length ∧ ∀ h < 4, (t.hart die h).staged = [])

/-- R294, R295, R334, R367, R369, R389, R390, R420, R423, R452: a halt and a halt request raise a partition's halt line once and
stop its copies; the watchdog halts for a group past its interval; the debugger stops a group, attached from then on to every
group of its context, steps it, writes a stopped one, and continues the first of the groups whose stops it has not answered; EN
is cleared only for an idle partition; cores new to a partition are clear; a recovery kills the halted partition's teams and
clears HALT. Resting on choices of the model, not on the spec's words: log 1, 9, 49, 77, 141. -/
def Obligations.HaltAndDebugEvents : Prop :=
  (∀ (s : State) (part : Nat) (cause : BitVec 8),
    (s.halted part = true → ∀ i ∈ [Instr.halt part cause, .pctlHaltRequest part], exec i s = .next s)
    ∧ (s.halted part = false → ∀ i ∈ [Instr.halt part cause, .pctlHaltRequest part], Completes i s fun t =>
        t.halted part = true ∧ (∀ c ∈ t.copies, s.partOf c.2.ctx ≠ part) ∧ t.teams = s.teams
        ∧ ((∀ e ∈ s.engines, ∀ st ∈ e.2.steps, st.started = true → s.partition st.lead.gid ≠ part) →
          (∀ c ∈ s.copies, s.partOf c.2.ctx ≠ part) → t.grp = s.grp ∧ t.others = s.others ∧ t.queues = s.queues))
    ∧ (s.halted part = false → exec (.recover part) s = .next s)
    ∧ (s.halted part = true → Completes (.recover part) s fun t =>
        t.halted part = false ∧ t.enabled part = s.enabled part
        ∧ ∀ k tm, s.team? k = some tm → tm.phase ≠ .ended → s.partOf tm.ctx = part → t.team? k = none)
    ∧ (32 ≤ part → ∀ en, exec (.pctlEnable part en) s = .next s)
    ∧ (part < 32 →
        (Completes (.pctlEnable part true) s fun t =>
          t.enabled part = true ∧ ((t.partReg part 0).extractLsb' 16 5).toNat = part ∧ t.halted part = s.halted part
          ∧ t = { s with partRegs := t.partRegs })
        ∧ (s.partIdle part = true → Completes (.pctlEnable part false) s fun t =>
          t.enabled part = false ∧ t.halted part = s.halted part ∧ t = { s with partRegs := t.partRegs })
        ∧ (s.partIdle part = false → exec (.pctlEnable part false) s = .next s))
    ∧ (∀ word v, 32 ≤ part ∨ 3 ≤ word → exec (.cmaskWrite part word v) s = .next s)
    ∧ ∀ word v, part < 32 → word < 3 →
        let fresh (core : Nat) : Prop := ∃ b < 64, core = 64 * word + b ∧ v.getLsbD b = true
          ∧ (s.partReg part (8 + 8 * word)).getLsbD b = false ∧ ∀ t ∈ s.teams, t.2.core ≠ core
        Completes (.cmaskWrite part word v) s fun t =>
          t.partReg part (8 + 8 * word) = v
          ∧ (∀ core, fresh core → (∀ a < 2 ^ 27, t.teamMem.get (core * 2 ^ 27 + a) = emptyByte)
              ∧ ∀ a < 2 ^ 19, t.accMem.get (core * 2 ^ 19 + a) = emptyByte)
          ∧ (∀ core, ¬ fresh core → (∀ a < 2 ^ 27, t.teamMem.get (core * 2 ^ 27 + a) = s.teamMem.get (core * 2 ^ 27 + a))
              ∧ ∀ a < 2 ^ 19, t.accMem.get (core * 2 ^ 19 + a) = s.accMem.get (core * 2 ^ 19 + a))
          ∧ t = { s with partRegs := t.partRegs, teamMem := t.teamMem, accMem := t.accMem, l1 := t.l1 })
  ∧ (∀ (s : State) (gid : Nat),
    (s.group? gid = none → ∀ r v sp, ∀ i ∈ [Instr.watchdog gid, .debugStop gid, .debugStep gid sp, .breakpointStop gid sp
      , .debugRegisterWrite gid r v], exec i s = .next s)
    ∧ ∀ g, s.hasGroup gid g →
      (s.watchExpired g = false → exec (.watchdog gid) s = .next s)
      ∧ (s.watchExpired g = true → exec (.watchdog gid) s =
          .next { s with agenda := .halt (s.partition gid) (BitVec.ofNat 8 causeWatchdog) :: s.agenda })
      ∧ (Completes (.debugStop gid) s fun t =>
          t.group? gid = some { g with
            attached := true, stopped := true, stoppedAt := if g.stopped then g.stoppedAt else s.postmark.toNat }
          ∧ (∀ k h, k ≠ gid → s.group? k = some h →
              t.group? k = some (if s.ctxOf k = s.ctxOf gid then { h with attached := true } else h))
          ∧ t.stops = (s.stops.filter fun x => x != gid) ++ [gid] ∧ s.ctxOf gid ∈ t.debugged ∧ (∀ c ∈ s.debugged, c ∈ t.debugged)
          ∧ t = { s with grp := t.grp, others := t.others, stops := t.stops, debugged := t.debugged })
      ∧ (∀ sp, g.stopped = false ∨ s.hasSplit gid sp = false → exec (.debugStep gid sp) s = .next s)
      ∧ (∀ sp, g.stopped = true → s.hasSplit gid sp = true → Completes (.debugStep gid sp) s
          (GroupBecomes gid
            (fun x y => y = { x.debugStart s.postmark.toNat with stepping := some sp, skip := x.skip ++ [sp] } ∧ y.stopped = false)
            { s with stops := s.stops.filter fun x => x != gid }))
      ∧ (g.stopped = false → ∀ r v, exec (.debugRegisterWrite gid r v) s = .next s)
      ∧ (s.grp.gid = gid → g.stopped = true → g.held = [] → ∀ r v,
          (s.inFlight r = true → Completes (.debugRegisterWrite gid r v) s fun t => t = { s with grp := { s.grp with held := [(r, v)] } })
          ∧ (∀ fn n l f, r = .lane fn n l → s.inFlight r = false → g.frame? fn = some f → n < f.size → l < 32 → f.res = true →
              Completes (.debugRegisterWrite gid r v) s fun t => t = { s with grp := s.grp.frameSet fn n l (v.extractLsb' 0 32) })
          ∧ (∀ n, r = .uni n → s.inFlight r = false → n < 64 →
              Completes (.debugRegisterWrite gid r v) s fun t => t = { s with grp := { s.grp with uni := Sparse.set 0 s.grp.uni n v } }))
      ∧ (s.grp.gid = gid → s.grp.spl.mask ≠ 0 →
          let sp := s.grp.spl.num
          (s.atBreak ≠ some sp → exec (.breakpointStop gid sp) s = .next s)
          ∧ (s.atBreak = some sp → 0 < g.pass → Completes (.breakpointStop gid sp) s fun t =>
              t = { s with grp := { s.grp with pass := s.grp.pass - 1, skip := s.grp.skip ++ [sp] } })
          ∧ (s.atBreak = some sp → g.pass = 0 → Completes (.breakpointStop gid sp) s fun t =>
              t = { s with grp := { s.grp with stopped := true, stoppedAt := s.postmark.toNat, skip := s.grp.skip ++ [sp] }
                           stops := (s.stops.filter fun x => x != gid) ++ [gid] })))
  ∧ ∀ (s : State) (n : Nat),
    (s.stops = [] ∨ n = 0 ∨ 65535 < n → exec (.debugContinue n) s = .next s)
    ∧ ∀ gid rest, s.stops = gid :: rest → 0 < n → n ≤ 65535 → Completes (.debugContinue n) s
        (GroupBecomes gid (fun x y => y = { x.debugStart s.postmark.toNat with pass := n - 1 } ∧ y.stopped = false)
          { s with stops := rest })

/-- R304, R309, R359, R387, R401, R417, R418, R420, R425, R427, R453: a host write lands in the host's own memory, past what the
device holds of it, or in the device memory that it reaches; a Function Level Reset quarantines the
contexts of a function, kills their teams, and frees them after its steps, with their translations and with the page of a
partition that is torn down; the service core takes calls in order and answers each one with its result; register writes
change what their writer may write; an attestation report replaces the buffer that was named. Resting on choices of the
model, not on the spec's words: log 9, 18, 110, 118, 144, 145. -/
def Obligations.HostAndServiceEvents : Prop :=
  (∀ (s : State) (fn off : Nat) (data : List Byte),
    let pa := Sparse.get 0 s.bar2 fn + off
    let bad := 64 < fn ∨ 2 ^ 36 < off + data.length ∨ data = [] ∨ s.ownMemory pa = false ∨ s.ownMemory (pa + data.length - 1) = false
    (fn = 64 → Completes (.hostBar2Write fn off data) s fun t =>
      (∀ i < data.length, some (t.hostMem.get (off + i)) = data[i]?)
      ∧ (∀ a, a < off ∨ off + data.length ≤ a → t.hostMem.get a = s.hostMem.get a)
      ∧ t.hostCache = s.hostCache ∧ ∀ l : Loc, l.space ≤ 3 → t.seeGet l = s.seeGet l)
    ∧ (fn ≠ 64 → bad → exec (.hostBar2Write fn off data) s = .next s)
    ∧ (fn ≠ 64 → ¬ bad → Completes (.hostBar2Write fn off data) s fun t =>
      (∀ i < data.length, some (t.seeGet ⟨0, ownAddr pa + i⟩) = data[i]?)
      ∧ ∀ l : Loc, l.space ≤ 4 → (l.space ≠ 0 ∨ l.addr < ownAddr pa ∨ ownAddr pa + data.length ≤ l.addr) → t.seeGet l = s.seeGet l))
  ∧ (∀ (s : State) (vf : Nat),
    let mine (x : Context) : Prop := x.vf = vf ∧ x.st ≠ 0
    let held := s.contexts.filter fun c => c.2.vf == vf && c.2.st == 2
    (Completes (.flr vf) s fun t =>
      (∀ c x, lookupKey s.contexts c = some x → mine x → (lookupKey t.contexts c).map (fun y => (y.st, y.gen, y.vf, y.pasid)) =
        some (2, (x.gen + 1) % 256, x.vf, x.pasid))
      ∧ (∀ c x, lookupKey s.contexts c = some x → ¬ mine x → (lookupKey t.contexts c).map (fun y => (y.st, y.gen, y.vf, y.pasid)) =
        some (x.st, x.gen, x.vf, x.pasid))
      ∧ ∀ k tm x, s.team? k = some tm → tm.phase ≠ .ended → lookupKey s.contexts tm.ctx = some x → mine x → t.team? k = none)
    ∧ (held = [] → ∀ i ∈ [Instr.flrCleanup vf, .flrAllowanceExpiry vf, .flrComplete vf], exec i s = .next s)
    ∧ (held ≠ [] → Completes (.flrCleanup vf) s fun t =>
        (∀ c ∈ t.calls, ∀ x, lookupKey s.contexts c.ctx = some x → ¬(x.vf = vf ∧ x.st = 2))
        ∧ (∀ f ∈ t.files, f.vf ≠ vf) ∧ ∀ c ∈ t.conns, c.vf = vf → c.isOpen = false ∧ c.waiting = false)
    ∧ (s.quarantined vf 2000000 = false → exec (.flrAllowanceExpiry vf) s = .next s)
    ∧ (s.quarantined vf 2000000 = true → Completes (.flrAllowanceExpiry vf) s fun t =>
        (∀ c ∈ t.conns, c.vf = vf → c.allowance = 0 ∧ c.reservations = 0) ∧ t = { s with conns := t.conns })
    ∧ (s.quarantined vf 4000000 = false ∨ (∃ c ∈ held, c.2.drain ≠ 0) → exec (.flrComplete vf) s = .next s)
    ∧ (s.quarantined vf 4000000 = true → (∀ c ∈ held, c.2.drain = 0) → Completes (.flrComplete vf) s fun t =>
        (∀ c x, lookupKey s.contexts c = some x → lookupKey t.contexts c =
          some (if x.vf = vf ∧ x.st = 2 then { x with st := 0 } else x))
        ∧ (∀ e, e ∈ t.ats ↔ e ∈ s.ats ∧ ∀ c ∈ held, c.2.pasid ≠ e.pasid)
        ∧ (∀ p, p ∈ t.parkedAccesses ↔ p ∈ s.parkedAccesses ∧ ∀ c ∈ held, c.1 ≠ p.ctx)
        ∧ (∀ part off, off < 0x10000 → t.partReg part off =
            if (∃ c ∈ held, c.2.part = part) ∧ s.enabled part = false ∧ (∀ e ∈ t.contexts, e.2.part = part → e.2.st = 0)
            then (if off = 0x98 then 2000000 else 0) else s.partReg part off)
        ∧ t = { s with contexts := t.contexts, ats := t.ats, parkedAccesses := t.parkedAccesses, partRegs := t.partRegs }))
  ∧ (∀ (s : State) (part : Nat) (ans : LoadAnswer) (buf : Dword) (ok : Bool) (data : List Byte),
    let all := [(Instr.svcMint part, 1), (.svcQcmd part, 2), (.svcLoad part ans, 3), (.svcFetch part buf, 4), (.svcFopen part ok, 5)
      , (.svcFwrite part ok, 6), (.svcFread part ok data, 7), (.svcFclose part, 8), (.svcResume part, 9), (.svcKill part, 10)]
    (s.firstCall part = none → exec (.svcNop part) s = .next s ∧ ∀ x ∈ all, exec x.1 s = .next s)
    ∧ ∀ c, s.firstCall part = some c →
      (∀ x ∈ all, c.code ≠ x.2 → exec x.1 s = .next s)
      ∧ (0 < c.code → c.code ≤ 10 → exec (.svcNop part) s = .next s)
      ∧ (10 < c.code → exec (.svcNop part) s = .next (s.finishCall c 1 0))
      ∧ (c.code = 0 → exec (.svcNop part) s = .next (s.finishCall c 0 0)
        ∧ Completes (.svcNop part) s fun t =>
          let h : Word := (s.partReg part 0x70).extractLsb' 0 32
          t.calls = s.calls.erase c ∧ t.partReg part 0x70 = (s.partReg part 0x70).extractLsb' 32 32 ++ (h + 1)
          ∧ (c.cctr = 0 → ∀ u, State.ctxStore { s with calls := s.calls.erase c } c.ctx 8 c.crec.toNat
                (leBytes 16 (completion c.ticket 0 0).toNat) = some u → ∀ l : Loc, t.seeGet l = u.seeGet l))
      ∧ (c.code = 1 →
        ((s.partReg part 0x30).toNat ≤ (c.arg 0).toNat → exec (.svcMint part) s = .next (s.finishCall c 1 0))
        ∧ (∀ q, (c.arg 0).toNat < (s.partReg part 0x30).toNat → lookupKey s.queues (queueKeyOf part (c.arg 0).toNat) = some q →
            exec (.svcMint part) s = .next (s.finishCall c 0
              (makeHandle (s.queueKey part) (c.arg 0).toNat ((c.arg 1).extractLsb' 0 3) part q.gen)))
        ∧ (lookupKey s.queues (queueKeyOf part (c.arg 0).toNat) = none → (c.arg 0).toNat < (s.partReg part 0x30).toNat →
            exec (.svcMint part) s = .next (s.finishCall c 0
              (makeHandle (s.queueKey part) (c.arg 0).toNat ((c.arg 1).extractLsb' 0 3) part
                (queueOfBlock (s.qcbInMemory part (c.arg 0).toNat)).gen))))
      ∧ (c.code = 2 → exec (.svcQcmd part) s = .next ((s.finishCall c 0 0).runCommand ((c.arg 1).extractLsb' 60 4).toNat
          { die := s.homeOf part ((c.arg 0).extractLsb' 40 24).toNat, ctx := c.ctx, handle := c.arg 0, arg := (c.arg 1).extractLsb' 0 60 }))
      ∧ (c.code = 3 → ∀ u, (s.readBuffer c.ctx (c.arg 0).toNat (c.arg 1).toNat = (u, none) →
            exec (.svcLoad part ans) s = .next (u.finishCall c 1 0))
          ∧ ∀ f, s.readBuffer c.ctx (c.arg 0).toNat (c.arg 1).toNat = (u, some f) →
            (executableOk part (u.partReg part 0xA0) f = false → exec (.svcLoad part ans) s = .next (u.finishCall c 1 0))
            ∧ (executableOk part (u.partReg part 0xA0) f = true → exec (.svcLoad part ans) s =
                .next ((ans.writes.foldl (fun u w => u.unitStore 8 ⟨0, w.1⟩ w.2) u).finishCall c 0 0)))
      ∧ (c.code = 4 →
        (s.nodeQueue part (c.arg 0) = none → exec (.svcFetch part buf) s = .next (s.finishCall c 1 0))
        ∧ ∀ k q u v w, s.nodeQueue part (c.arg 0) = some k → s.nodeView k = (u, some v) → v.stab ≠ 0 → (c.arg 1).toNat < v.nslot →
            u.ctxStore v.ctx 8 (v.stab.toNat + 32 * (c.arg 1).toNat + 8) (leBytes 8 buf.toNat) = some w → lookupKey w.queues k = some q →
            exec (.svcFetch part buf) s = .next ((w.finishCall c 0 0).runCommand 5
              { die := v.die, ctx := c.ctx, arg := BitVec.ofNat 60 (c.arg 1).toNat
                handle := makeHandle (w.queueKey part) (qnumOf k) (rightsEnq ||| rightsDeq) part q.gen }))
      ∧ (c.code = 5 → ∀ u path, s.readPath c.ctx 4096 (c.arg 0).toNat = (u, some path) →
        (ok = false → exec (.svcFopen part ok) s = .next (u.finishCall c 1 0))
        ∧ (ok = true → ∃ (f : File) (d : List (List Byte × Memory)), exec (.svcFopen part ok) s =
              .next (State.finishCall { u with files := u.files ++ [f], disk := d } c 0 (BitVec.ofNat 64 f.handle))
            ∧ f.path = path ∧ f.part = part ∧ f.flags = (c.arg 1).toNat % 8 ∧ ∀ x ∈ u.files, x.handle ≠ f.handle))
      ∧ (∀ f, s.fileOf c (c.arg 0) = some f → (c.code = 8 → exec (.svcFclose part) s =
            .next (State.finishCall { s with files := s.files.erase f } c 0 0))
        ∧ (c.code = 6 → ok = true → f.flags / 2 % 2 = 1 → ∀ u bs, s.readBuffer c.ctx (c.arg 2).toNat (c.arg 3).toNat = (u, some bs) →
            ∃ d : List (List Byte × Memory), exec (.svcFwrite part ok) s = .next (State.finishCall { u with disk := d } c 0 (c.arg 3))
              ∧ diskFind d f.path = some (((diskFind u.disk f.path).getD []).store (c.arg 1).toNat bs))
        ∧ (c.code = 7 → ok = true → f.flags % 2 = 1 → ∀ u, s.writeBuffer c.ctx (c.arg 2).toNat (data.take (c.arg 3).toNat) = some u →
            exec (.svcFread part ok data) s = .next (u.finishCall c 0 (BitVec.ofNat 64 (data.take (c.arg 3).toNat).length))))
      ∧ (s.fileOf c (c.arg 0) = none → ∀ x ∈ [(Instr.svcFwrite part ok, 6), (.svcFread part ok data, 7), (.svcFclose part, 8)],
          c.code = x.2 → exec x.1 s = .next (s.finishCall c 1 0))
      ∧ (s.teamAt part (c.arg 0) = none → ∀ x ∈ [(Instr.svcResume part, 9), (.svcKill part, 10)],
          c.code = x.2 → exec x.1 s = .next (s.finishCall c 1 0))
      ∧ ∀ t, s.teamAt part (c.arg 0) = some t →
        (c.code = 10 → Completes (.svcKill part) s fun u => u.team? t.key = none)
        ∧ (c.code = 9 → t.phase ≠ .preempted → (∀ g ∈ s.teamGroups t.key, g.parked = true → g.parkRecs ≠ []) →
            exec (.svcResume part) s = .next (s.finishCall c 1 0))
        ∧ (c.code = 9 → t.phase = .preempted → t.saved.all (fun x => x.2 != 2) = true →
            exec (.svcResume part) s = .next (s.finishCall c 1 0))
        ∧ (c.code = 9 → t.phase = .preempted → t.saved.any (fun x => x.2 == 2) = true → s.team? t.key = some t →
            Completes (.svcResume part) s fun u => u.team? t.key =
              some { t with saved := t.saved.map fun x => if x.2 = 2 then (x.1, 0) else x }))
  ∧ (∀ (s : State) (page off : Nat) (v : Dword),
    exec (.registerWrite .host page off v) s = .next s
    ∧ (∀ part, page ≠ part ∨ 32 ≤ part ∨ off ∉ scRegs → exec (.registerWrite (.serviceCore part) page off v) s = .next s)
    ∧ (page < 32 → off ∈ scRegs → ∀ w ∈ [RegWriter.serviceCore page, .rootMonitor], Completes (.registerWrite w page off v) s fun t =>
        t.partReg page off = (s.partReg page off).extractLsb' 32 32 ++ v.extractLsb' 0 32 ∧ t = { s with partRegs := t.partRegs })
    ∧ (page < 32 → off ∈ heldRegs → s.enabled page = true → exec (.registerWrite .rootMonitor page off v) s = .next s)
    ∧ (page < 32 → off ∉ heldRegs ∨ s.enabled page = false → Completes (.registerWrite .rootMonitor page off v) s fun t =>
        t.partReg page off = mergeBits (partMask off) (s.partReg page off) v
        ∧ (∀ p o, p * 0x10000 + o ≠ page * 0x10000 + off → t.partReg p o = s.partReg p o) ∧ t = { s with partRegs := t.partRegs })
    ∧ (∀ j < 5, Completes (.registerWrite .rootMonitor 32 (0x200 + 8 * j) v) s fun t =>
        ∀ b < 64, t.ready (64 * j + b) = (s.ready (64 * j + b) && v.getLsbD b))
    ∧ (∀ n w x, n < 16 → w < 8 → x = 0 ∨ x = 8 → ¬(s.edgeStep n = 4 ∧ s.edgePers n = 3) →
        exec (.registerWrite .rootMonitor 32 (windowReg n w + x) v) s = .next s)
    ∧ (∀ die < 8, ∀ x ∈ [0, 8], s.dieHolds die = true → exec (.registerWrite .rootMonitor 32 (0x300 + 24 * die + x) v) s = .next s)
    ∧ (∀ c x, page = 0x10000 + c → c < 8192 → lookupKey s.contexts c = some x → x.st ≠ 2 →
        (off / 8 = 1 → v.extractLsb' 8 2 ≠ 3 → Completes (.registerWrite .rootMonitor page off v) s fun t =>
          lookupKey t.contexts c = some { x with gen := (v.extractLsb' 0 8).toNat, st := (v.extractLsb' 8 2).toNat
                                                 cfq := (v.extractLsb' 10 24).toNat, cfqv := v.getLsbD 34, since := s.postmark.toNat }
          ∧ t = { s with contexts := t.contexts })
        ∧ (off / 8 = 3 → Completes (.registerWrite .rootMonitor page off v) s fun t =>
          lookupKey t.contexts c = some { x with tbase := (v.extractLsb' 21 43).toNat * 2 ^ 21 } ∧ t = { s with contexts := t.contexts }))
    ∧ (∀ die n, (Completes (.registerWrite (.hart die n) page 0x7C6 v) s fun t =>
        t.hart die n = { s.hart die n with mapl := v &&& 0x7FFFFFFFFFFFFFFF } ∧ t = { s with harts := t.harts })
      ∧ (Completes (.registerWrite (.hart die n) page 0x7C7 v) s fun t =>
        t.hart die n = { s.hart die n with maph := v &&& 0x1FFFFFFFF } ∧ t = { s with harts := t.harts })
      ∧ Completes (.registerWrite (.hart die n) page 0x7CD v) s fun t =>
        t.hart die n = { s.hart die n with cnt := v &&& 0xFFFF } ∧ t = { s with harts := t.harts }))
  ∧ ∀ (s : State) (part : Nat) (v : Dword),
    (32 ≤ part ∨ (s.partReg part 0xB0).getLsbD 0 = true → exec (.attRequest part v) s = .next s)
    ∧ (part < 32 → (s.partReg part 0xB0).getLsbD 0 = false → Completes (.attRequest part v) s fun t =>
        t.partReg part 0xB0 = (v &&& 0x000FFFFFFFFFFFC0) ||| 1 ∧ t = { s with partRegs := t.partRegs })
    ∧ ((s.partReg part 0xB0).getLsbD 0 = false → exec (.attestationReport part) s = .next s)
    ∧ ((s.partReg part 0xB0).getLsbD 0 = true → Completes (.attestationReport part) s fun t =>
        let pa := (s.partReg part 0xB0).toNat / 64 * 64
        let body := s.reportBody part ((List.range 64).map fun i => s.seeGet ⟨0, pa + 84 + i⟩)
        let sig := Config.ecdsaSign (s.life.secret.getD 0) (leNat (Sha.sha512 body))
        let report := body ++ beInteger sig.1 ++ beInteger sig.2
        (∀ i < report.length, some (t.seeGet ⟨0, pa + i⟩) = report[i]?) ∧ (t.partReg part 0xB0).getLsbD 0 = false
        ∧ ∀ l : Loc, l.space ≤ 4 → (l.space ≠ 0 ∨ l.addr < pa ∨ pa + report.length ≤ l.addr) → t.seeGet l = s.seeGet l)

/-- R5, R10, R243, R375, R419, R428, R430, R432 to R435, R437, R440 to R442, R447, R451 to R453: packets for the device that
their PASID's tables allow are performed and answered, and the others answered RESET; others are relayed; an edge group runs
through the steps of a personality switch; an island follows its margin, its sweeps and its limits; power-on leaves the
lifetime state; functions become ready, the hub only with signatures that verify, and are lost; a core is replaced by a
spare. Resting on choices of the model, not on the spec's words: log 1, 9, 111, 112, 113, 115, 116. -/
def Obligations.FabricAndPowerEvents : Prop :=
  (∀ (s : State) (p : Packet),
    (p.dst.toNat ≠ s.devNum → exec (.peerPacketReceive p) s = .next s)
    ∧ (p.dst.toNat = s.devNum → exec (.packetRelay p) s = .next s)
    ∧ (p.dst.toNat = s.devNum →
      (∀ bits, p.op = .planes bits → p.src.toNat ≠ s.devNum → Completes (.peerPacketReceive p) s fun t =>
        lookupKey t.planes p.src.toNat = some bits ∧ t = { s with planes := t.planes })
      ∧ (∀ what data k x, p.op = .answer what true data → what ≠ .read →
          (s.contexts.find? fun c => c.2.st != 0 && c.2.pasid == p.pasid.toNat) = some (k, x) → Completes (.peerPacketReceive p) s fun t =>
            (lookupKey t.contexts k).map (·.drain) = (lookupKey s.contexts k).map (fun y => y.drain - 1) ∧ t = { s with contexts := t.contexts })
      ∧ (∀ kind, packetKind p = some kind → s.drops p = true → exec (.peerPacketReceive p) s =
          .next { s with sent := s.sent ++ [packetReply p s.devNum kind false []] })
      ∧ (s.drops p = false → ∀ pa,
        let reset (kind : PacketKind) : Prop := exec (.peerPacketReceive p) s =
          .next { s with sent := s.sent ++ [packetReply p s.devNum kind false []] }
        (∀ data, p.op = .write pa data → (s.packetMay p pa data.length .write = false → reset .write)
          ∧ (s.packetMay p pa data.length .write = true → Completes (.peerPacketReceive p) s fun t =>
            (∀ i < data.length, some (t.seeGet ⟨0, ownAddr pa + i⟩) = data[i]?)
            ∧ (∀ l : Loc, l.space ≤ 4 → (l.space ≠ 0 ∨ l.addr < ownAddr pa ∨ ownAddr pa + data.length ≤ l.addr) → t.seeGet l = s.seeGet l)
            ∧ t.sent = s.sent ++ [packetReply p s.devNum .write true []]))
        ∧ (∀ bytes, p.op = .line pa bytes →
          let may : Prop := s.packetMay p pa 128 .write = true ∧ ∀ b ∈ bytes, b.1 / 128 = pa / 128
          (¬ may → reset .write)
          ∧ (may → Completes (.peerPacketReceive p) s fun t =>
            (∀ a, t.seeGet ⟨0, a⟩ = match bytes.reverse.find? fun b => ownAddr b.1 == a with
              | some b => b.2
              | none => s.seeGet ⟨0, a⟩)
            ∧ (∀ l : Loc, 0 < l.space → l.space ≤ 4 → t.seeGet l = s.seeGet l)
            ∧ t.sent = s.sent ++ [packetReply p s.devNum .write true []]))
        ∧ (∀ n, p.op = .read pa n → (s.packetMay p pa n .read = false → reset .read)
          ∧ (s.packetMay p pa n .read = true → Completes (.peerPacketReceive p) s fun t =>
            (∀ l : Loc, t.seeGet l = s.seeGet l)
            ∧ t.sent = s.sent ++ [packetReply p s.devNum .read true ((List.range n).map fun i => s.seeGet ⟨0, ownAddr pa + i⟩)]))
        ∧ (∀ v, p.op = .addTo pa v → (s.packetMay p pa 8 .write = false → reset .atomic)
          ∧ (s.packetMay p pa 8 .write = true → Completes (.peerPacketReceive p) s fun t =>
            let old := (List.range 8).map fun i => s.seeGet ⟨0, ownAddr pa + i⟩
            t.valueAt ((List.range 8).map fun i => ⟨0, ownAddr pa + i⟩) = (leNat old + v.toNat) % 2 ^ 64
            ∧ t.sent = s.sent ++ [packetReply p s.devNum .atomic true old]))))
    ∧ (p.dst.toNat ≠ s.devNum → ((s.presentPlanes p.dst.toNat = [] ∨ ∀ n ∈ s.presentPlanes s.devNum, n = p.plane) →
        exec (.packetRelay p) s = .next { s with relays := s.relays ++ [(p, s.postmark.toNat)] })
      ∧ (s.presentPlanes p.dst.toNat ≠ [] → (∃ n ∈ s.presentPlanes s.devNum, n ≠ p.plane) → Completes (.packetRelay p) s fun t =>
        ∃ out ∈ s.presentPlanes s.devNum, out ≠ p.plane
          ∧ t = { s with free := t.free, sent := s.sent ++ [{ p with age := if p.age = 255 then 255 else p.age + 1, plane := out }] }))
    ∧ ((∀ r ∈ s.relays, r.1 ≠ p) → exec (.relayDrop p) s = .next s)
    ∧ (∀ r, (s.relays.find? fun x => x.1 == p) = some r → s.presentPlanes p.dst.toNat ≠ [] → p.dst.toNat ≠ s.devNum →
        exec (.relayDrop p) s = exec (.packetRelay p) { s with relays := s.relays.erase r })
    ∧ (∀ r, (s.relays.find? fun x => x.1 == p) = some r → s.presentPlanes p.dst.toNat = [] →
        (s.postmark.toNat < r.2 + 1000000 → exec (.relayDrop p) s = .next s)
        ∧ (r.2 + 1000000 ≤ s.postmark.toNat → ∀ kind, packetKind p = some kind → exec (.relayDrop p) s =
            .next { s with relays := s.relays.erase r, sent := s.sent ++ [packetReply p s.devNum kind false []] })))
  ∧ (∀ (s : State) (dev : Nat) (bits : BitVec 128),
    (dev = s.devNum ∨ 512 ≤ dev → exec (.planeMapUpdate dev bits) s = .next s)
    ∧ (dev ≠ s.devNum → dev < 512 → Completes (.planeMapUpdate dev bits) s fun t =>
        lookupKey t.planes dev = some bits ∧ t = { s with planes := t.planes }))
  ∧ (∀ (s : State) (n : Nat), n < 16 →
    let at_ (t : State) (step tgt pers err : Nat) : Prop :=
      t.devReg (edgeReg n) = edgeWord err step tgt pers (if 1 ≤ step ∧ step ≤ 4 then 1 else 0)
      ∧ t.rootEvents.take (s.rootEvents.length + 1) = s.rootEvents ++ [eventRecord s.postmark 17 (0x8040 + n) (BitVec.ofNat 64 n) (BitVec.ofNat 64 step)]
      ∧ Sparse.get 0 t.edgeSince n = s.postmark.toNat
    (∀ v, s.edgeSwitching n = true → exec (.egctlGo n v) s = .next s)
    ∧ (∀ v, s.edgeSwitching n = false → v.getLsbD 0 = false → Completes (.egctlGo n v) s fun t =>
        t.devReg (edgeReg n) = (s.devReg (edgeReg n) &&& ~~~0x300) ||| (v &&& 0x300) ∧ t = { s with devRegs := t.devRegs })
    ∧ (∀ v, s.edgeSwitching n = false → v.getLsbD 0 = true → Completes (.egctlGo n v) s fun t =>
        at_ t 1 (v.extractLsb' 8 2).toNat (s.edgePers n) (s.edgeErr n) ∧ t.ready (208 + n) = false
        ∧ t.ownPlanes = if s.edgePers n = 1 then s.ownPlanes &&& ~~~groupPlanes n else s.ownPlanes)
    ∧ (s.edgeStep n ≠ 1 ∨ s.edgeAge n < 20000 → exec (.drainRequestCutoff n) s = .next s)
    ∧ (s.edgeStep n = 1 → 20000 ≤ s.edgeAge n → Completes (.drainRequestCutoff n) s fun t =>
        n ∈ t.edgeClosed ∧ t = { s with edgeClosed := t.edgeClosed, conns := t.conns })
    ∧ (∀ opens, s.edgeStep n ≠ 1 ∨ (opens ≠ [] ∧ s.edgeAge n < 200000) → exec (.edgeDrainEnd n opens) s = .next s)
    ∧ (s.edgeStep n = 1 → Completes (.edgeDrainEnd n []) s fun t =>
        at_ t 2 (s.edgeTgt n) (s.edgePers n) (s.edgeErr n) ∧ n ∈ t.edgeClosed
        ∧ ∀ i < 128, n ∈ s.windowGroups (i / 8) (i % 8) ∨ i / 8 = n → (t.devReg (windowReg (i / 8) (i % 8))).getLsbD 0 = false)
    ∧ (s.edgeStep n ≠ 2 → exec (.quiesceEnd n) s = .next s)
    ∧ (s.edgeStep n = 2 → Completes (.quiesceEnd n) s fun t => at_ t 3 (s.edgeTgt n) (s.edgePers n) (s.edgeErr n))
    ∧ (∀ up, s.edgeStep n ≠ 3 → exec (.retrainEnd n up) s = .next s)
    ∧ (s.edgeStep n = 3 → s.edgeAge n ≤ s.retrainTime n → exec (.retrainEnd n false) s = .next s
        ∧ Completes (.retrainEnd n true) s fun t => at_ t 4 (s.edgeTgt n) (s.edgeTgt n) (s.edgeErr n)
          ∧ t.ownPlanes = if s.edgeTgt n = 1 then s.ownPlanes ||| groupPlanes n else s.ownPlanes)
    ∧ (∀ up, s.edgeStep n = 3 → s.retrainTime n < s.edgeAge n → Completes (.retrainEnd n up) s fun t =>
        at_ t 6 (s.edgeTgt n) (s.edgePers n) 2)
    ∧ (s.edgeStep n ≠ 4 → exec (.edgeReady n) s = .next s)
    ∧ (s.edgeStep n = 4 → Completes (.edgeReady n) s fun t =>
        at_ t 5 (s.edgeTgt n) (s.edgePers n) (s.edgeErr n) ∧ t.ready (208 + n) = true ∧ n ∉ t.edgeClosed))
  ∧ (∀ (s : State) (isl : Nat),
    let p := s.pisl isl
    (96 ≤ isl → ∀ m vmv f tb a up v, ∀ i ∈ [Instr.quickSample isl m vmv, .fullSweep isl f tb a, .clkStep isl up, .pislWrite isl v],
      exec i s = .next s)
    ∧ (isl < 96 → ∀ m vmv, Completes (.quickSample isl m vmv) s fun t => t.pisl isl =
        if min m 255 < s.guardOf isl then
          { p with margin := min m 255, vmv := vmv.toNat, fcur := if 104 < p.fcur then p.fcur - 1 else p.fcur, trip := true }
        else { p with margin := min m 255, vmv := vmv.toNat })
    ∧ (isl < 96 → ∀ f tb a, Completes (.fullSweep isl f tb a) s fun t =>
        let new := max 104 (min 144 f)
        t.pisl isl = { p with fmax := new, fcur := min p.fcur (min p.fcap new), trip := p.trip && !a }
        ∧ t.guardOf isl = p.guard ∧ lookupKey t.life.margins isl = some tb)
    ∧ (isl < 96 → Completes (.clkStep isl true) s fun t =>
        t.pisl isl = { p with fcur := if p.fcur < p.limit then p.fcur + 1 else p.fcur } ∧ t = { s with devRegs := t.devRegs })
    ∧ (isl < 96 → Completes (.clkStep isl false) s fun t =>
        t.pisl isl = { p with fcur := if 104 < p.fcur then p.fcur - 1 else p.fcur } ∧ t = { s with devRegs := t.devRegs })
    ∧ (isl < 96 → ∀ v, Completes (.pislWrite isl v) s fun t =>
        let cap := max 104 (v.extractLsb' 8 8).toNat
        t.pisl isl = { p with guard := (v.extractLsb' 48 8).toNat, fcap := cap, fcur := min p.fcur (min cap p.fmax) }
        ∧ t = { s with devRegs := t.devRegs }))
  ∧ ∀ (s : State),
    (Completes .powerOnReset s fun t =>
      t.life = s.life ∧ t.teams = [] ∧ t.queues = [] ∧ t.contexts = [] ∧ (∀ b < 320, t.ready b = false)
      ∧ (∀ a < 2 ^ 51, t.mem.get a = emptyByte) ∧ t.hostMem = s.hostMem
      ∧ ∀ n < 16, t.edgePers n = Config.configPersonality s.life.config n % 4 ∧ t.edgeStep n = 0)
    ∧ (Completes .powerRemoval s fun t => t.powered = false ∧ t.life = s.life ∧ t.teams = [] ∧ ∀ a < 2 ^ 51, t.mem.get a = emptyByte)
    ∧ (∀ secret cert config, (s.life.secret ≠ none → exec (.manufacture secret cert config) s = .next s)
        ∧ (s.life.secret = none → exec (.manufacture secret cert config) s =
          .next { s with life := { s.life with secret := some secret, cert := cert, config := config } }))
    ∧ (∀ bit pass, s.mayReady bit = false → exec (.selfTestDone bit pass) s = .next s)
    ∧ (∀ bit, s.mayReady bit = true →
        (bit ≠ 264 ∨ s.signaturesOk = true → Completes (.selfTestDone bit true) s fun t =>
          t.ready bit = true ∧ (∀ b < 320, b ≠ bit → t.ready b = s.ready b) ∧ (bit = 264 → t.firmware = Config.firmwareBytes))
        ∧ ∀ pass, pass = false ∨ (bit = 264 ∧ s.signaturesOk = false) → Completes (.selfTestDone bit pass) s fun t =>
          t.ready bit = false ∧ (∀ b < 320, b ≠ bit → t.ready b = s.ready b) ∧ t.firmware = s.firmware)
    ∧ (∀ bit, bit < 192 ∨ (224 ≤ bit ∧ bit < 256) ∨ 264 ≤ bit → exec (.functionLoss bit) s = .next s)
    ∧ (∀ bit, (192 ≤ bit ∧ bit < 224) ∨ (256 ≤ bit ∧ bit < 264) → Completes (.functionLoss bit) s fun t =>
        t.ready bit = false ∧ ∀ b < 320, b ≠ bit → t.ready b = s.ready b)
    ∧ ∀ core phys trusted, (192 ≤ core → exec (.coreSpare core phys trusted) s = .next s)
      ∧ (core < 192 → Completes (.coreSpare core phys trusted) s fun t => t.ready core = false
        ∧ (s.teamsOn core = [] → phys = 24 ∨ phys = 25 → phys ∉ s.sparesUsed (dieOf core) →
          (core, phys) ∈ t.life.spareCores ∧ (∀ a < 2 ^ 27, t.teamMem.get (core * 2 ^ 27 + a) = emptyByte)
          ∧ (∀ a < 2 ^ 19, t.accMem.get (core * 2 ^ 19 + a) = emptyByte) ∧ (∀ e ∈ t.barriers, e.1 / 2 ^ 18 ≠ core)
          ∧ ∀ b < 2, lookupKey t.engines (2 * core + b) = none))

/-! ### Decoding, stepping, the invariant of memory, reset -/

/-- R35 to R47, R52 to R54: for every well-formed instruction that has words, with every operand at every value that its encoding
admits, decoding its encoding gives the instruction back, and the bytes behind it. -/
def Obligations.DecodeEncode : Prop :=
  ∀ (i : Instr) (rest : List Byte), i.wellFormed = true → i.isInstruction = true → decode (encodeBytes i ++ rest) = .ok (i, rest)

/-- A step keeps every memory of the package in its canonical form: addresses rise, and no byte is listed that reads as an
unlisted one does. Resting on choices of the model, not on the spec's words: log 1. -/
def Obligations.StepKeepsMemoryCanonical : Prop :=
  ∀ (s t : State), s.memWf = true → step s = .next t → t.memWf = true

/-- R5, R424, R430, R442, R447: after reset every memory is in canonical form and lists nothing; no team is placed, no queue
and no context is open; no part is ready; every edge group is DOWN; every island has GUARD 20, FCAP 144, and 104 for FMAX
and FCUR. Resting on choices of the model, not on the spec's words: log 1, 2, 19. -/
def Obligations.ResetState : Prop :=
  State.reset.memWf = true ∧ (∀ a, State.reset.mem.get a = emptyByte ∧ State.reset.teamMem.get a = emptyByte)
  ∧ State.reset.teams = [] ∧ State.reset.groups = [] ∧ State.reset.queues = [] ∧ State.reset.contexts = []
  ∧ (∀ b < 320, State.reset.ready b = false)
  ∧ (∀ n < 16, State.reset.edgePers n = 0 ∧ State.reset.edgeStep n = 0)
  ∧ ∀ isl < 96, State.reset.pisl isl =
      { margin := 0, guard := 20, vmv := 0, fmax := 104, fcur := 104, fcap := 144, trip := false, sweep := false }

/-- R14, R27, R28, R30, R35, R61, R63, R138, R295: in a step in which a split issues, its group stops at a breakpoint, or the
words at its PC are fetched. Where their bytes decode to a well-formed instruction that stands alone, the step is that
instruction's execution, once its own writes to the registers that it names have landed, or a wait while an answer to one of
them is outstanding or a step has still to read one; after an execution the split counts as issued. A chain's members run as
one. Where the words are no instruction, or a chain is broken, the step is the fault ILLEGAL_ENCODING, and where the fetch
fails, its fault. Resting on choices of the model, not on the spec's words: log 3, 25, 126. -/
def Obligations.StepRunsDecodedInstruction : Prop :=
  ∀ (s : State) (gid sp : Nat), s.agenda = [] → s.powered = true → s.pick = some (gid, sp) → s.turn % 16 ≠ 15 →
    let p := s.tick.prepare gid sp
    let pc := p.grp.spl.pc.toNat
    let after : Host.Outcome State Fault Refusal → Host.Outcome State Fault Refusal
      | .next t => .next (t.afterIssue gid sp (p.grp.stepping == some sp) p.grp.skip)
      | o => o
    let illegal (y : State) : Prop := step s = after (.next (y.raise (y.groupTrap causeIllegal 0 y.grp.spl.mask)))
    (∀ n, p.atBreak = some n → step s = exec (.breakpointStop gid n) p)
    ∧ (p.grp.spl.status ≠ .swapped → p.atBreak = none →
      (∀ u c, p.fetch pc = (u, .fail c) → step s = after (.next (u.raise (u.groupTrap c 0 u.grp.spl.mask))))
      ∧ ∀ u w v x, p.fetch pc = (u, .word w) →
        (w.getLsbD 30 = false → v = u ∧ x = 0) → (w.getLsbD 30 = true → u.fetch (pc + 4) = (v, .word x)) →
        let bytes := bytesOfWord w ++ if w.getLsbD 30 = true then bytesOfWord x else []
        (∀ y, (w.getLsbD 31 = true → y = v) → (w.getLsbD 31 = false → v.extent pc = (y, some .alone)) →
          let waits := y.scoreHolds (y.grp.names w x) || y.grp.readHolds [(w, x)]
          (∀ i, decode bytes = .ok (i, []) →
            (waits = true → step s = after (.next (y.waitFor .score)))
            ∧ (waits = false → step s = after (exec i (y.landFor (y.grp.names w x)))))
          ∧ ∀ r, decode bytes = .error (.illegal r) → illegal y)
        ∧ (w.getLsbD 31 = false → ∀ y, v.extent pc = (y, some .broken) → illegal y)
        ∧ (w.getLsbD 31 = false → ∀ y ms, v.extent pc = (y, some (.chain ms)) →
          let waits := y.scoreHolds (y.grp.chainNames ms) || y.grp.readHolds ms
          (waits = true → step s = after (.next (y.waitFor .score)))
          ∧ (waits = false → step s = after (runChain exec ms (y.landFor (y.grp.chainNames ms))))))

/-- R36, R37: the fields of a short form lie where these rules place them, in the lane set and in the uniform set. R42, R44
to R47, R52 to R54: words of each layout, written field by field, decode to the instructions they stand for, and a reserved
op to none of them. -/
def Obligations.DecodeWords : Prop :=
  let lane (l : Bool) (op : BitVec 6) (d a b : BitVec 6) (sk : BitVec 2) (nw : BitVec 1) (g : BitVec 3) : Word :=
    0#1 ++ BitVec.ofBool l ++ op ++ d ++ a ++ b ++ sk ++ nw ++ g
  let uni (l : Bool) (op : BitVec 6) (d a b : BitVec 6) (sk : BitVec 2) (g : BitVec 3) : Word :=
    1#1 ++ BitVec.ofBool l ++ op ++ d ++ a ++ b ++ sk ++ 0#1 ++ g
  let ea (t : BitVec 4) (rnd : BitVec 3) (sat gn : BitVec 1) (c : BitVec 6) (xc : BitVec 1) (imm : BitVec 16) : Word :=
    t ++ rnd ++ sat ++ gn ++ c ++ xc ++ imm
  (∀ l op d a b sk nw g, LaneShort.ofWord (lane l op d a b sk nw g) = { d := d, a := a, b := b, sk := sk, nw := nw == 1, g := g }
    ∧ opOf (lane l op d a b sk nw g) = op.toNat ∧ lengthOf (lane l op d a b sk nw g) = (if l then 8 else 4)
    ∧ layoutOf (lane l op d a b sk nw g) = laneLayout op.toNat)
  ∧ (∀ l op d a b sk g, UniShort.ofWord (uni l op d a b sk g) = { d := d, a := a, b := b, sk := sk, g := g }
    ∧ opOf (uni l op d a b sk g) = op.toNat ∧ lengthOf (uni l op d a b sk g) = (if l then 8 else 4)
    ∧ layoutOf (uni l op d a b sk g) = uniLayout op.toNat)
  ∧ (∀ w x, w.getLsbD 31 = true → w.getLsbD 3 = true → uniLayout (opOf w) ≠ .reserved → decodeWords w x = .error .reservedBits)
  ∧ decodeWords (lane false 0x00 3 1 2 0 0 5) 0 = .ok (.iadd { d := 3, a := 1, b := 2, sk := 0, nw := false, g := 5 })
  ∧ decodeWords (lane true 0x06 1 1 0 0 0 0) (ea 0 0 0 0 0 1 0xFFFF) = .ok (.andExt { d := 1, a := 1, b := 0, sk := 0, nw := false, g := 0 }
      { t := .b32, rnd := .mode, sat := false, gn := false, c := 0, xc := true, imm := 0xFFFF })
  ∧ decodeWords (lane true 0x13 4 5 6 0 0 1) (ea 4 2 0 1 7 0 0) = .ok (.ffma { d := 4, a := 5, b := 6, sk := 0, nw := false, g := 1 }
      { t := .f32, rnd := .rz, sat := false, gn := true, c := 7, xc := false, imm := 0 })
  ∧ decodeWords (lane true 0x1B 9 0 0 0 0 0) 0xDEADBEEF = .ok (.movImm { d := 9, a := 0, b := 0, sk := 0, nw := false, g := 0 } { imm := 0xDEADBEEF })
  ∧ decodeWords (lane true 0x20 8 9 0 0 0 0) (0#3 ++ 0#4 ++ 0#1 ++ 0#1 ++ 5#3 ++ 1#2 ++ 2#6 ++ 4#12) =
      .ok (.ld { d := 8, a := 9, b := 0, sk := 0, nw := false, g := 0 }
        { space := .global, t := .b32, ord := false, gn := false, scope := .sys, sem := .acq, c := 2, offset := 4 })
  ∧ decodeWords (lane true 0x30 0 16 20 0 0 0) (8#6 ++ 5#4 ++ 16#6 ++ 1#2 ++ 0#2 ++ 0#2 ++ 0#1 ++ 0#1 ++ 0#8) =
      .ok (.mma { d := 0, a := 16, b := 20, sk := 0, nw := false, g := 0 }
        { fb := 8, tile := 5, row := 16, mrows := 1, kfrac := 0, mode := 0, fin := false, sp := false })
  ∧ decodeWords (uni true 0x10 0 0 0 0 0) (1#1 ++ 3#3 ++ 1#1 ++ 0#3 ++ 0xFFFFFF#24) =
      .ok (.bra { d := 0, a := 0, b := 0, sk := 0, g := 0 } { kind := true, pred := 3, neg := true, offset := 0xFFFFFF })
  ∧ decodeWords (uni true 0x18 0 1 0 0 0) (ea 0 0 0 0 0 0 0x1000) = .ok (.barArrive { d := 0, a := 1, b := 0, sk := 0, g := 0 }
      { t := .b32, rnd := .mode, sat := false, gn := false, c := 0, xc := false, imm := 0x1000 })
  ∧ decodeWords (uni true 0x00 6 7 0 0 2) 0xFFFFFFFE = .ok (.uaddExt { d := 6, a := 7, b := 0, sk := 0, g := 2 } { imm := 0xFFFFFFFE })
  ∧ decodeWords (uni false 0x30 10 4 0 2 0) 0 = .ok (.srd { d := 10, a := 4, b := 0, sk := 2, g := 0 })
  ∧ decodeWords (uni false 0x17 0 0 0 0 0) 0 = .ok (.exit { d := 0, a := 0, b := 0, sk := 0, g := 0 })
  ∧ decodeWords (lane false 0x3F 0 0 0 0 0 0) 0 = .ok (.reservedOp (lane false 0x3F 0 0 0 0 0 0) none)
end

