-- ==== Sys2Proof/Laws/Sparse.lean ====
section
/-!
SUPPORT. Laws of sparse tables, memories, keyed lists and byte strings: what a read gives after a write, and that every write
keeps the canonical form.
-/
namespace Sys2Proof

/-! ### Sparse tables -/

theorem Sparse.get_drop {α : Type} (z : α) (t : Sparse α) (n m : Nat) :
    Sparse.get z (Sparse.drop t n) m = if m = n then z else Sparse.get z t m := by
  induction t with
  | nil => simp [Sparse.drop, Sparse.get]
  | cons e rest ih =>
    obtain ⟨k, v⟩ := e
    simp only [Sparse.drop, Sparse.get]
    by_cases h1 : n = k
    · subst h1
      by_cases h2 : m = n
      · simp [h2, h2 ▸ ih]
      · simp [ih, h2]
    · by_cases h2 : m = k
      · have h3 : m ≠ n := fun h => h1 (h.symm.trans h2)
        subst h2
        simp [h1, Sparse.get, h3]
      · simp [h1, Sparse.get, h2, ih]

/-- A read after a write: the value written at its key, and everywhere else what was there. -/
theorem Sparse.get_set {α : Type} [DecidableEq α] (z : α) (t : Sparse α) (n m : Nat) (v : α) :
    Sparse.get z (Sparse.set z t n v) m = if m = n then v else Sparse.get z t m := by
  induction t with
  | nil =>
    simp only [Sparse.set]
    split <;> simp_all [Sparse.get]
  | cons e rest ih =>
    obtain ⟨k, w⟩ := e
    simp only [Sparse.set]
    by_cases h1 : n < k
    · by_cases h2 : v = z
      · simp only [h1, h2, if_true, Sparse.get, Sparse.get_drop]
        by_cases h3 : m = k
        · have : m ≠ n := by omega
          simp [h3]; intro h; omega
        · simp [h3]
      · simp [h1, h2, Sparse.get]
    · by_cases h2 : n = k
      · subst h2
        by_cases h3 : v = z
        · simp only [h3, if_true, Nat.lt_irrefl, if_false, Sparse.get_drop, Sparse.get]
          split <;> simp_all
        · simp only [h3, if_false, Nat.lt_irrefl, if_true, Sparse.get]
          split <;> simp_all
      · simp only [h1, h2, if_false, Sparse.get, ih]
        by_cases h3 : m = k
        · have : m ≠ n := fun h => h2 (h ▸ h3)
          simp [h3]; intro h; exact absurd h.symm h2
        · simp [h3]

@[simp] theorem Sparse.get_set_same {α : Type} [DecidableEq α] (z : α) (t : Sparse α) (n : Nat) (v : α) :
    Sparse.get z (Sparse.set z t n v) n = v := by simp [Sparse.get_set]

theorem Sparse.get_set_other {α : Type} [DecidableEq α] (z : α) (t : Sparse α) {n m : Nat} (v : α) (h : m ≠ n) :
    Sparse.get z (Sparse.set z t n v) m = Sparse.get z t m := by simp [Sparse.get_set, h]

@[simp] theorem Sparse.get_nil {α : Type} (z : α) (n : Nat) : Sparse.get z [] n = z := rfl

/-! ### The canonical form -/

theorem Sparse.wfFrom_mono {α : Type} [DecidableEq α] (z : α) (t : Sparse α) {lo hi : Nat} (h : lo ≤ hi)
    (hw : Sparse.wfFrom z hi t = true) : Sparse.wfFrom z lo t = true := by
  cases t with
  | nil => rfl
  | cons e rest =>
    simp only [Sparse.wfFrom, Bool.and_eq_true, decide_eq_true_eq] at hw ⊢
    exact ⟨⟨Nat.le_trans h hw.1.1, hw.1.2⟩, hw.2⟩

theorem Sparse.wfFrom_drop {α : Type} [DecidableEq α] (z : α) (t : Sparse α) (lo n : Nat)
    (hw : Sparse.wfFrom z lo t = true) : Sparse.wfFrom z lo (Sparse.drop t n) = true := by
  induction t generalizing lo with
  | nil => rfl
  | cons e rest ih =>
    simp only [Sparse.wfFrom, Bool.and_eq_true, decide_eq_true_eq] at hw
    simp only [Sparse.drop]
    split
    · exact Sparse.wfFrom_mono z _ (by omega) (ih _ hw.2)
    · simp only [Sparse.wfFrom, Bool.and_eq_true, decide_eq_true_eq]
      exact ⟨hw.1, ih _ hw.2⟩

theorem Sparse.wfFrom_set {α : Type} [DecidableEq α] (z : α) (t : Sparse α) (lo n : Nat) (v : α) (hn : lo ≤ n)
    (hw : Sparse.wfFrom z lo t = true) : Sparse.wfFrom z lo (Sparse.set z t n v) = true := by
  induction t generalizing lo with
  | nil =>
    simp only [Sparse.set]
    split
    · rfl
    · rename_i h; simp [Sparse.wfFrom, h, hn]
  | cons e rest ih =>
    simp only [Sparse.wfFrom, Bool.and_eq_true, decide_eq_true_eq] at hw
    simp only [Sparse.set]
    split
    · split
      · simp only [Sparse.wfFrom, Bool.and_eq_true, decide_eq_true_eq]
        exact ⟨hw.1, Sparse.wfFrom_drop z _ _ _ hw.2⟩
      · rename_i h1 h2
        simp only [Sparse.wfFrom, Bool.and_eq_true, decide_eq_true_eq]
        exact ⟨⟨hn, h2⟩, ⟨by omega, hw.1.2⟩, hw.2⟩
    · split
      · rename_i h1 h2
        split
        · exact Sparse.wfFrom_mono z _ (by omega) (Sparse.wfFrom_drop z _ _ _ hw.2)
        · rename_i h3
          simp only [Sparse.wfFrom, Bool.and_eq_true, decide_eq_true_eq]
          exact ⟨⟨hn, h3⟩, h2 ▸ hw.2⟩
      · simp only [Sparse.wfFrom, Bool.and_eq_true, decide_eq_true_eq]
        exact ⟨hw.1, ih _ (by omega) hw.2⟩

theorem Sparse.wfFrom_filter {α : Type} [DecidableEq α] (z : α) (p : Nat × α → Bool) (t : Sparse α) (lo : Nat)
    (hw : Sparse.wfFrom z lo t = true) : Sparse.wfFrom z lo (t.filter p) = true := by
  induction t generalizing lo with
  | nil => rfl
  | cons e rest ih =>
    simp only [Sparse.wfFrom, Bool.and_eq_true, decide_eq_true_eq] at hw
    simp only [List.filter]
    split
    · simp only [Sparse.wfFrom, Bool.and_eq_true, decide_eq_true_eq]
      exact ⟨hw.1, ih _ hw.2⟩
    · exact Sparse.wfFrom_mono z _ (by omega) (ih _ hw.2)

/-- A write keeps the canonical form. -/
theorem Sparse.wf_set {α : Type} [DecidableEq α] (z : α) (t : Sparse α) (n : Nat) (v : α) (hw : Sparse.wf z t = true) :
    Sparse.wf z (Sparse.set z t n v) = true := Sparse.wfFrom_set z t 0 n v (Nat.zero_le n) hw

/-- Entries taken out keep the canonical form. -/
theorem Sparse.wf_filter {α : Type} [DecidableEq α] (z : α) (p : Nat × α → Bool) (t : Sparse α) (hw : Sparse.wf z t = true) :
    Sparse.wf z (t.filter p) = true := Sparse.wfFrom_filter z p t 0 hw

/-! ### Memories -/

@[simp] theorem Memory.get_set (m : Memory) (a x : Nat) (b : Byte) :
    (m.set a b).get x = if x = a then b else m.get x := Sparse.get_set _ _ _ _ _

theorem Memory.wf_set (m : Memory) (a : Nat) (b : Byte) (h : m.wf = true) : (m.set a b).wf = true :=
  Sparse.wf_set _ _ _ _ h

theorem Memory.wf_store (m : Memory) (a : Nat) (bs : List Byte) (h : m.wf = true) : (m.store a bs).wf = true := by
  induction bs generalizing m a with
  | nil => exact h
  | cons b rest ih => exact ih _ _ (Memory.wf_set _ _ _ h)

theorem Memory.wf_filter (m : Memory) (p : Nat × Byte → Bool) (h : m.wf = true) :
    Memory.wf (m.filter p : Memory) = true := Sparse.wf_filter _ _ _ h

theorem Memory.wf_nil : Memory.wf [] = true := rfl

/-- What a byte reads as after a run of bytes is stored. -/
theorem Memory.get_store (m : Memory) (a x : Nat) (bs : List Byte) :
    (m.store a bs).get x = if a ≤ x ∧ x < a + bs.length then bs.getD (x - a) 0 else m.get x := by
  induction bs generalizing m a with
  | nil => rw [if_neg (by simp only [List.length_nil]; omega)]; rfl
  | cons b rest ih =>
    simp only [Memory.store, ih, Memory.get_set, List.length_cons]
    by_cases h1 : x = a
    · subst h1
      rw [if_neg (by omega), if_pos rfl, if_pos (by omega), Nat.sub_self]; rfl
    · by_cases h2 : a + 1 ≤ x ∧ x < a + 1 + rest.length
      · have h3 : a ≤ x ∧ x < a + (rest.length + 1) := by omega
        have h4 : x - a = (x - (a + 1)) + 1 := by omega
        rw [if_pos h2, if_pos h3, h4, List.getD_cons_succ]
      · have h3 : ¬ (a ≤ x ∧ x < a + (rest.length + 1)) := by omega
        rw [if_neg h2, if_neg h1, if_neg h3]

/-- Outside the stored bytes nothing changes. -/
theorem Memory.get_store_outside (m : Memory) (a x : Nat) (bs : List Byte) (h : x < a ∨ a + bs.length ≤ x) :
    (m.store a bs).get x = m.get x := by
  rw [Memory.get_store, if_neg (by omega)]

@[simp] theorem Memory.bytes_length (m : Memory) (a n : Nat) : (m.bytes a n).length = n := by
  induction n generalizing a with
  | zero => rfl
  | succ n ih => simp [Memory.bytes, ih]

/-! ### Byte strings -/

@[simp] theorem leBytes_length (n v : Nat) : (leBytes n v).length = n := by
  induction n generalizing v with
  | zero => rfl
  | succ n ih => simp [leBytes, ih]

/-- A value comes back from its bytes, modulo their number. -/
theorem leNat_leBytes (n v : Nat) : leNat (leBytes n v) = v % 256 ^ n := by
  induction n generalizing v with
  | zero => simp [leBytes, leNat, Nat.mod_one]
  | succ n ih =>
    have h8 : (2 : Nat) ^ 8 = 256 := rfl
    simp only [leBytes, leNat, ih, BitVec.toNat_ofNat, h8]
    rw [Nat.pow_succ, Nat.mul_comm (256 ^ n) 256, Nat.mod_mul]

/-! ### Keyed lists -/

theorem lookupKey_insertKey {α : Type} (l : List (Nat × α)) (n m : Nat) (v : α) :
    lookupKey (insertKey l n v) m = if n = m then some v else lookupKey l m := by
  induction l with
  | nil => simp [insertKey, lookupKey]
  | cons e rest ih =>
    obtain ⟨k, w⟩ := e
    simp only [insertKey]
    split
    · simp [lookupKey]
    · split
      · rename_i h1 h2
        simp only [lookupKey, h2]
        split <;> simp_all
      · rename_i h1 h2
        simp only [lookupKey, ih]
        split
        · rename_i h3
          have : n ≠ m := fun h => h2 (h3.trans h.symm)
          simp [this]
        · rfl

@[simp] theorem lookupKey_insertKey_same {α : Type} (l : List (Nat × α)) (n : Nat) (v : α) :
    lookupKey (insertKey l n v) n = some v := by simp [lookupKey_insertKey]

theorem lookupKey_modifyKey {α : Type} (l : List (Nat × α)) (n m : Nat) (f : α → α) :
    lookupKey (modifyKey l n f) m = if n = m then (lookupKey l m).map f else lookupKey l m := by
  unfold modifyKey
  split
  · rename_i h
    by_cases e : n = m
    · subst e; simp [h]
    · simp [e]
  · rename_i v h
    rw [lookupKey_insertKey]
    by_cases e : n = m
    · subst e; simp [h]
    · simp [e]

theorem lookupKey_eraseKey {α : Type} (l : List (Nat × α)) (n m : Nat) :
    lookupKey (eraseKey l n) m = if m = n then none else lookupKey l m := by
  induction l with
  | nil => simp [eraseKey, lookupKey]
  | cons e rest ih =>
    obtain ⟨k, w⟩ := e
    by_cases h : k = n
    · subst h
      simp only [eraseKey, if_true, ih, lookupKey]
      by_cases hm : m = k
      · simp [hm]
      · have : ¬k = m := fun h => hm h.symm
        simp [hm, this]
    · simp only [eraseKey, h, if_false, lookupKey, ih]
      by_cases hm : k = m
      · subst hm; simp [h]
      · simp [hm]

end Sys2Proof
end

