-- ==== Sys2Proof/Laws/Memory.lean ====
section
/-!
SUPPORT. Laws of memory: what a place reads as after a write, and that every operation that writes memory keeps every memory
of the package in its canonical form (`State.memWf`). The operations below, and the load of an
office's image, are the only ones of the model that write a memory.
-/
namespace Sys2Proof.Machine

/-! ### A byte at its home -/

/-- Which memory a space number names: every number above 4 names host memory, as 4 does. -/
def Loc.memory (l : Loc) : Nat := min l.space 4

/-- A byte reads as what was written at its place, and every other one as before. -/
theorem State.homeGet_homePut (s : State) (l k : Loc) (b : Byte) :
    (s.homePut l b).homeGet k = if k.memory = l.memory ∧ k.addr = l.addr then b else s.homeGet k := by
  obtain ⟨n, a⟩ := l
  obtain ⟨m, c⟩ := k
  match n, m with
  | 0, 0 | 1, 1 | 2, 2 | 3, 3 => simp [State.homePut, State.homeGet, Loc.memory]
  | 0, 1 | 0, 2 | 0, 3 | 1, 0 | 1, 2 | 1, 3 | 2, 0 | 2, 1 | 2, 3 | 3, 0 | 3, 1 | 3, 2 =>
    simp [State.homePut, State.homeGet, Loc.memory]
  | _ + 4, 0 | _ + 4, 1 | _ + 4, 2 | _ + 4, 3 => simp [State.homePut, State.homeGet, Loc.memory]; try omega
  | 0, _ + 4 | 1, _ + 4 | 2, _ + 4 | 3, _ + 4 => simp [State.homePut, State.homeGet, Loc.memory]; try omega
  | _ + 4, _ + 4 => simp [State.homePut, State.homeGet, Loc.memory]

/-- A byte reads as what was written there. -/
theorem State.homeGet_homePut_same (s : State) (l : Loc) (b : Byte) : (s.homePut l b).homeGet l = b := by
  simp [State.homeGet_homePut]

/-! ### The canonical form -/

/-- The six memories of two states are the same. -/
def State.sameMem (s t : State) : Prop :=
  t.mem = s.mem ∧ t.teamMem = s.teamMem ∧ t.scratch = s.scratch ∧ t.accMem = s.accMem ∧ t.hostMem = s.hostMem
    ∧ t.officeMem = s.officeMem

theorem State.memWf_of_sameMem {s t : State} (h : s.sameMem t) (hw : s.memWf = true) : t.memWf = true := by
  obtain ⟨h0, h1, h2, h3, h4, h5⟩ := h
  simpa only [State.memWf, h0, h1, h2, h3, h4, h5] using hw

theorem State.sameMem_refl (s : State) : s.sameMem s := ⟨rfl, rfl, rfl, rfl, rfl, rfl⟩

theorem State.sameMem_trans {s t u : State} (h : s.sameMem t) (k : t.sameMem u) : s.sameMem u :=
  ⟨k.1.trans h.1, k.2.1.trans h.2.1, k.2.2.1.trans h.2.2.1, k.2.2.2.1.trans h.2.2.2.1, k.2.2.2.2.1.trans h.2.2.2.2.1,
    k.2.2.2.2.2.trans h.2.2.2.2.2⟩

theorem State.memWf_iff (s : State) :
    s.memWf = true ↔ s.mem.wf = true ∧ s.teamMem.wf = true ∧ s.scratch.wf = true ∧ s.accMem.wf = true ∧ s.hostMem.wf = true
      ∧ s.officeMem.wf = true := by
  simp [State.memWf, and_assoc]

/-- A fold keeps what each of its steps keeps. -/
theorem foldl_keeps {σ α : Type} (P : σ → Prop) (f : σ → α → σ) (hf : ∀ s a, P s → P (f s a)) (l : List α) (s : σ) (h : P s) :
    P (l.foldl f s) := by
  induction l generalizing s with
  | nil => exact h
  | cons a rest ih => exact ih _ (hf _ _ h)

theorem State.memWf_reset : State.reset.memWf = true := rfl

theorem State.memWf_homePut (s : State) (l : Loc) (b : Byte) (h : s.memWf = true) : (s.homePut l b).memWf = true := by
  obtain ⟨h0, h1, h2, h3, h4, h5⟩ := (State.memWf_iff s).mp h
  unfold State.homePut
  split <;> simp only [State.memWf, Memory.wf_set, h0, h1, h2, h3, h4, h5, Bool.and_true]

theorem State.memWf_homeStore (s : State) (l : Loc) (bs : List Byte) (h : s.memWf = true) : (s.homeStore l bs).memWf = true := by
  induction bs generalizing s l with
  | nil => exact h
  | cons b rest ih => exact ih _ _ (State.memWf_homePut _ _ _ h)

theorem State.sameMem_hostFetch (s : State) (line : Nat) : s.sameMem (s.hostFetch line) := by
  unfold State.hostFetch
  split <;> exact ⟨rfl, rfl, rfl, rfl, rfl, rfl⟩

theorem State.sameMem_hostPut (s : State) (a : Nat) (b : Byte) : s.sameMem (s.hostPut a b) := by
  obtain ⟨h0, h1, h2, h3, h4, h5⟩ := State.sameMem_hostFetch s (a / 128)
  exact ⟨h0, h1, h2, h3, h4, h5⟩

/-- A memory into which some bytes have been written one after another is in canonical form. -/
theorem Memory.wf_foldl {α : Type} (f : Memory → α → Memory) (hf : ∀ m a, m.wf = true → (f m a).wf = true) (l : List α)
    (m : Memory) (h : m.wf = true) : (l.foldl f m).wf = true :=
  foldl_keeps (fun m => Memory.wf m = true) f hf l m h

theorem State.memWf_hostClean (s : State) (line : Nat) (h : s.memWf = true) : (s.hostClean line).memWf = true := by
  obtain ⟨h0, h1, h2, h3, h4, h5⟩ := (State.memWf_iff s).mp h
  unfold State.hostClean
  split
  · exact h
  · refine (State.memWf_iff _).mpr ⟨h0, h1, h2, h3, Memory.wf_foldl _ (fun m i hm => ?_) _ _ h4, h5⟩
    split
    · exact Memory.wf_set _ _ _ hm
    · exact hm

theorem State.memWf_hostDrop (s : State) (line : Nat) (h : s.memWf = true) : (s.hostDrop line).memWf = true :=
  State.memWf_of_sameMem ⟨rfl, rfl, rfl, rfl, rfl, rfl⟩ (State.memWf_hostClean s line h)

theorem State.memWf_seePut (s : State) (l : Loc) (b : Byte) (h : s.memWf = true) : (s.seePut l b).memWf = true := by
  unfold State.seePut
  split
  · exact State.memWf_of_sameMem (State.sameMem_hostPut s l.addr b) h
  · exact State.memWf_homePut s l b h

theorem State.memWf_corePut (s : State) (core : Nat) (l : Loc) (b : Byte) (h : s.memWf = true) :
    (s.corePut core l b).memWf = true :=
  State.memWf_of_sameMem ⟨rfl, rfl, rfl, rfl, rfl, rfl⟩ (State.memWf_seePut s l b h)

theorem State.memWf_coreStore (s : State) (core : Nat) (l : Loc) (bs : List Byte) (h : s.memWf = true) :
    (s.coreStore core l bs).memWf = true := by
  induction bs generalizing s l with
  | nil => exact h
  | cons b rest ih => exact ih _ _ (State.memWf_corePut _ _ _ _ h)

/-- Performing writes takes none away, keeps their order, and changes only whether they are performed. -/
theorem landAll_spec (pick : Flight → Bool) (fs : List Flight) :
    (landAll pick fs).map (fun f => { f with landed := true }) = fs.map fun f => { f with landed := true } := by
  unfold landAll
  induction fs with
  | nil => rfl
  | cons e rest ih =>
    simp only [List.foldr_cons, List.map_cons]
    split <;> simpa using ih

/-- How far writes are on their way is no memory. -/
theorem State.sameMem_landFlights (s : State) (pick : Flight → Bool) : s.sameMem (s.landFlights pick) := ⟨rfl, rfl, rfl, rfl, rfl, rfl⟩

theorem State.sameMem_awaitMarkers (s : State) (t : Nat) (st : List Word) : s.sameMem (s.awaitMarkers t st) := by
  unfold State.awaitMarkers
  split <;> exact ⟨rfl, rfl, rfl, rfl, rfl, rfl⟩

theorem State.sameMem_look (s : State) (core : Nat) (l : Loc) (n : Nat) : s.sameMem (s.look core l n) := by
  unfold State.look
  refine foldl_keeps (fun t => s.sameMem t) _ (fun t f h => ?_) _ _ (State.sameMem_landFlights s _)
  dsimp only
  split <;> exact State.sameMem_trans h ⟨rfl, rfl, rfl, rfl, rfl, rfl⟩

theorem State.sameMem_mergeStamp (s : State) (r : Nat) (st : List Word) : s.sameMem (s.mergeStamp r st) := by
  unfold State.mergeStamp
  refine foldl_keeps (fun t => s.sameMem t) _ (fun t k h => ?_) _ s s.sameMem_refl
  split
  · exact h
  · split <;> exact State.sameMem_trans h ⟨rfl, rfl, rfl, rfl, rfl, rfl⟩

theorem State.sameMem_stampRead (s : State) (die : Nat) (l : Loc) : s.sameMem (s.stampRead die l) := by
  unfold State.stampRead
  split
  · exact s.sameMem_refl
  · split
    · exact s.sameMem_refl
    · exact State.sameMem_trans (State.sameMem_awaitMarkers s _ _) (State.sameMem_mergeStamp _ _ _)

theorem State.sameMem_stampWrite (s : State) (die : Nat) (l : Loc) : s.sameMem (s.stampWrite die l) := by
  unfold State.stampWrite
  split
  · exact s.sameMem_refl
  · split
    · exact s.sameMem_refl
    · dsimp only
      split
      · exact State.sameMem_awaitMarkers s _ _
      · exact State.sameMem_trans (State.sameMem_awaitMarkers s _ _) ⟨rfl, rfl, rfl, rfl, rfl, rfl⟩

theorem State.memWf_coreWrite (s : State) (core : Nat) (l : Loc) (bs : List Byte) (h : s.memWf = true) :
    (s.coreWrite core l bs).memWf = true :=
  State.memWf_coreStore _ core l bs
    (State.memWf_of_sameMem (State.sameMem_trans (State.sameMem_landFlights s _) (State.sameMem_stampWrite _ _ l)) h)

theorem State.sameMem_homeRead (s : State) (core : Nat) (l : Loc) (n : Nat) : s.sameMem (s.homeRead core l n) :=
  State.sameMem_trans (State.sameMem_stampRead s _ l) (State.sameMem_look _ _ _ _)

theorem State.sameMem_l1Fetch (s : State) (core : Nat) (l : Loc) : s.sameMem (s.l1Fetch core l) :=
  State.sameMem_trans (State.sameMem_homeRead s core l.line 128) ⟨rfl, rfl, rfl, rfl, rfl, rfl⟩

theorem State.sameMem_l1Fill (s : State) (core : Nat) (l : Loc) : s.sameMem (s.l1Fill core l) := by
  unfold State.l1Fill
  split
  · exact State.sameMem_l1Fetch s core l
  · dsimp only
    split
    · exact ⟨rfl, rfl, rfl, rfl, rfl, rfl⟩
    · exact State.sameMem_trans (⟨rfl, rfl, rfl, rfl, rfl, rfl⟩ : s.sameMem { s with free := s.free + 1 })
        (State.sameMem_l1Fetch _ core l)

theorem State.sameMem_l1Refresh (s : State) (core : Nat) (l : Loc) : s.sameMem (s.l1Refresh core l) := by
  unfold State.l1Refresh
  split <;> exact ⟨rfl, rfl, rfl, rfl, rfl, rfl⟩

/-- A load changes no memory. -/
theorem State.sameMem_coreLoad (s : State) (core : Nat) (cached : Bool) (l : Loc) (n : Nat) :
    s.sameMem (s.coreLoad core cached l n).1 := by
  unfold State.coreLoad
  dsimp only
  split
  · split
    · exact State.sameMem_l1Fill _ _ _
    · exact State.sameMem_trans (State.sameMem_l1Fill _ _ _) (State.sameMem_l1Fill _ _ _)
  · exact State.sameMem_trans (State.sameMem_homeRead s core l n) (State.sameMem_l1Refresh _ _ _)

theorem State.sameMem_unitLoad (s : State) (die : Nat) (l : Loc) (n : Nat) : s.sameMem (s.unitLoad die l n).1 :=
  State.sameMem_trans (State.sameMem_landFlights s _) (State.sameMem_stampRead _ die l)

theorem State.memWf_unitStore (s : State) (die : Nat) (l : Loc) (bs : List Byte) (h : s.memWf = true) :
    (s.unitStore die l bs).memWf = true :=
  foldl_keeps (fun t => t.memWf = true) _ (fun t b ht => State.memWf_seePut t _ b.1 ht) _ _
    (State.memWf_of_sameMem (State.sameMem_trans (State.sameMem_landFlights s _) (State.sameMem_stampWrite _ die l)) h)

theorem State.memWf_touch (s : State) (entry : Option Nat) (k : Access) (h : s.memWf = true) : (s.touch entry k).memWf = true := by
  obtain ⟨h0, h1, h2, h3, h4, h5⟩ := (State.memWf_iff s).mp h
  unfold State.touch
  split
  · exact h
  · dsimp only
    generalize (_ ||| _ : Dword) = e
    split
    · exact h
    · simp only [State.memWf, Memory.wf_store, h0, h1, h2, h3, h4, h5, Bool.and_true]

theorem State.memWf_hostWrite (s : State) (a : Nat) (b : Byte) (h : s.memWf = true) : (s.hostWrite a b).memWf = true := by
  obtain ⟨h0, h1, h2, h3, h4, h5⟩ := (State.memWf_iff s).mp h
  exact (State.memWf_iff _).mpr ⟨h0, h1, h2, h3, Memory.wf_set _ _ _ h4, h5⟩

theorem State.sameMem_settleLine (s : State) (l : Loc) : s.sameMem (s.settleLine l) := ⟨rfl, rfl, rfl, rfl, rfl, rfl⟩

theorem State.sameMem_cutHeld (s : State) (l : Loc) (n : Nat) : s.sameMem (s.cutHeld l n) := ⟨rfl, rfl, rfl, rfl, rfl, rfl⟩

theorem State.sameMem_overtake (s : State) (bs : List (Loc × Byte)) : s.sameMem (s.overtake bs) := by
  unfold State.overtake
  exact foldl_keeps (fun t => s.sameMem t) (fun s x => (s.settleLine x.1).cutHeld x.1 1) (fun t x h => State.sameMem_trans h
    (State.sameMem_trans (State.sameMem_settleLine t x.1) (State.sameMem_cutHeld _ x.1 1))) bs s s.sameMem_refl

theorem State.memWf_corePuts (s : State) (core : Nat) (bs : List (Loc × Byte)) (h : s.memWf = true) :
    (s.corePuts core bs).memWf = true :=
  foldl_keeps (fun t : State => t.memWf = true) _ (fun t x ht => State.memWf_corePut t core x.1 x.2 ht) bs s h

theorem State.memWf_sendLine (s : State) (part : Nat) (bs : List (Loc × Byte)) (h : s.memWf = true) :
    (s.sendLine part bs).memWf = true := by
  match bs with
  | [] => exact h
  | b :: rest =>
    unfold State.sendLine
    dsimp only
    have all : ∀ pick, ((((s.overtake (b :: rest)).landFlights pick).stampWrite (dieOf s.grp.core) b.1).corePuts s.grp.core
        (b :: rest)).memWf = true := fun pick =>
      State.memWf_corePuts _ _ _ (State.memWf_of_sameMem
        (State.sameMem_trans (State.sameMem_overtake s _) (State.sameMem_trans (State.sameMem_landFlights _ pick)
          (State.sameMem_stampWrite _ (dieOf s.grp.core) b.1))) h)
    split <;> exact State.memWf_of_sameMem ⟨rfl, rfl, rfl, rfl, rfl, rfl⟩ (all _)

theorem State.memWf_zeroTile (s : State) (k t : Nat) (h : s.memWf = true) : (s.zeroTile k t).memWf = true := by
  obtain ⟨h0, h1, h2, h3, h4, h5⟩ := (State.memWf_iff s).mp h
  simp only [State.zeroTile, State.memWf, Memory.wf_filter, h0, h1, h2, h3, h4, h5, Bool.and_true]

theorem State.memWf_clearCore (s : State) (core : Nat) (h : s.memWf = true) : (s.clearCore core).memWf = true := by
  obtain ⟨h0, h1, h2, h3, h4, h5⟩ := (State.memWf_iff s).mp h
  simp only [State.clearCore, State.l1Invalidate, State.memWf, Memory.wf_filter, h0, h1, h2, h3, h4, h5, Bool.and_true]

theorem State.memWf_powerCycle (s : State) (h : s.memWf = true) : s.powerCycle.memWf = true := by
  obtain ⟨h0, h1, h2, h3, h4, h5⟩ := (State.memWf_iff s).mp h
  exact (State.memWf_iff _).mpr ⟨Memory.wf_filter _ _ h0, rfl, rfl, rfl, h4, rfl⟩

theorem State.memWf_placed (s : State) (bs : List Byte) (h : s.memWf = true) : (s.placed bs).memWf = true := by
  obtain ⟨h0, h1, h2, h3, h4, h5⟩ := (State.memWf_iff s).mp h
  exact (State.memWf_iff _).mpr ⟨Memory.wf_store _ _ _ (Memory.wf_store _ _ _ (Memory.wf_store _ _ _ h0)), h1, h2, h3, h4, h5⟩

end Sys2Proof.Machine
end

