-- ==== Sys2Proof/Laws/PerInstr.lean ====
section
/-!
SUPPORT. What holds of the words of every instruction, constructor by constructor: an event has none, a short form
stands alone with L = 0, and an instruction with an extension word has two with L = 1 (R35).
-/
namespace Sys2Proof.Laws

/-- L, bit 30, of a lane short form. -/
theorem laneShort_bit30 (op : BitVec 6) (l : Bool) (w : LaneShort) : (w.toWord op l).getLsbD 30 = l := by
  change BitVec.getLsbD (w := 1 + 1 + 6 + 6 + 6 + 6 + 2 + 1 + 3) _ 30 = l
  simp only [LaneShort.toWord, BitVec.getLsbD_append]
  simp

/-- L, bit 30, of a uniform short form. -/
theorem uniShort_bit30 (op : BitVec 6) (l : Bool) (w : UniShort) : (w.toWord op l).getLsbD 30 = l := by
  change BitVec.getLsbD (w := 1 + 1 + 6 + 6 + 6 + 6 + 2 + 1 + 3) _ 30 = l
  simp only [UniShort.toWord, BitVec.getLsbD_append]
  simp

/-- S, bit 31, of a lane short form is 0. -/
theorem laneShort_bit31 (op : BitVec 6) (l : Bool) (w : LaneShort) : (w.toWord op l).getLsbD 31 = false := by
  change BitVec.getLsbD (w := 1 + 1 + 6 + 6 + 6 + 6 + 2 + 1 + 3) _ 31 = false
  simp only [LaneShort.toWord, BitVec.getLsbD_append]
  simp

/-- S, bit 31, of a uniform short form is 1. -/
theorem uniShort_bit31 (op : BitVec 6) (l : Bool) (w : UniShort) : (w.toWord op l).getLsbD 31 = true := by
  change BitVec.getLsbD (w := 1 + 1 + 6 + 6 + 6 + 6 + 2 + 1 + 3) _ 31 = true
  simp only [UniShort.toWord, BitVec.getLsbD_append]
  simp

namespace EncodedLength

/-- No word, one word with L = 0, or two of which the first has L = 1. -/
def shape : List Word → Prop
  | [] => True
  | [w] => w.getLsbD 30 = false
  | [w, _] => w.getLsbD 30 = true
  | _ => False

/-- R35: a well-formed instruction has as many words as its L bit says. -/
def Statement (i : Instr) : Prop := i.wellFormed = true → shape (encode i)

theorem lane_short (op : BitVec 6) (w : LaneShort) : shape [w.toWord op false] := laneShort_bit30 op false w
theorem lane_ext (op : BitVec 6) (w : LaneShort) (x : Word) : shape [w.toWord op true, x] := laneShort_bit30 op true w
theorem uni_short (op : BitVec 6) (w : UniShort) : shape [w.toWord op false] := uniShort_bit30 op false w
theorem uni_ext (op : BitVec 6) (w : UniShort) (x : Word) : shape [w.toWord op true, x] := uniShort_bit30 op true w

theorem iadd (w : LaneShort) : Statement (.iadd w) := fun _ => lane_short ..
theorem isub (w : LaneShort) : Statement (.isub w) := fun _ => lane_short ..
theorem imul (w : LaneShort) : Statement (.imul w) := fun _ => lane_short ..
theorem imin (w : LaneShort) : Statement (.imin w) := fun _ => lane_short ..
theorem imax (w : LaneShort) : Statement (.imax w) := fun _ => lane_short ..
theorem and (w : LaneShort) : Statement (.and w) := fun _ => lane_short ..
theorem or (w : LaneShort) : Statement (.or w) := fun _ => lane_short ..
theorem xor (w : LaneShort) : Statement (.xor w) := fun _ => lane_short ..
theorem shl (w : LaneShort) : Statement (.shl w) := fun _ => lane_short ..
theorem shr (w : LaneShort) : Statement (.shr w) := fun _ => lane_short ..
theorem sha (w : LaneShort) : Statement (.sha w) := fun _ => lane_short ..
theorem mov (w : LaneShort) : Statement (.mov w) := fun _ => lane_short ..
theorem fadd (w : LaneShort) : Statement (.fadd w) := fun _ => lane_short ..
theorem fsub (w : LaneShort) : Statement (.fsub w) := fun _ => lane_short ..
theorem fmul (w : LaneShort) : Statement (.fmul w) := fun _ => lane_short ..
theorem fmin (w : LaneShort) : Statement (.fmin w) := fun _ => lane_short ..
theorem fmax (w : LaneShort) : Statement (.fmax w) := fun _ => lane_short ..
theorem fscl (w : LaneShort) : Statement (.fscl w) := fun _ => lane_short ..
theorem vsr (w : LaneShort) : Statement (.vsr w) := fun _ => lane_short ..
theorem iaddExt (w : LaneShort) (e : EA) : Statement (.iaddExt w e) := fun _ => lane_ext ..
theorem isubExt (w : LaneShort) (e : EA) : Statement (.isubExt w e) := fun _ => lane_ext ..
theorem imulExt (w : LaneShort) (e : EA) : Statement (.imulExt w e) := fun _ => lane_ext ..
theorem iminExt (w : LaneShort) (e : EA) : Statement (.iminExt w e) := fun _ => lane_ext ..
theorem imaxExt (w : LaneShort) (e : EA) : Statement (.imaxExt w e) := fun _ => lane_ext ..
theorem andExt (w : LaneShort) (e : EA) : Statement (.andExt w e) := fun _ => lane_ext ..
theorem orExt (w : LaneShort) (e : EA) : Statement (.orExt w e) := fun _ => lane_ext ..
theorem xorExt (w : LaneShort) (e : EA) : Statement (.xorExt w e) := fun _ => lane_ext ..
theorem shlExt (w : LaneShort) (e : EA) : Statement (.shlExt w e) := fun _ => lane_ext ..
theorem shrExt (w : LaneShort) (e : EA) : Statement (.shrExt w e) := fun _ => lane_ext ..
theorem shaExt (w : LaneShort) (e : EA) : Statement (.shaExt w e) := fun _ => lane_ext ..
theorem imad (w : LaneShort) (e : EA) : Statement (.imad w e) := fun _ => lane_ext ..
theorem imadw (w : LaneShort) (e : EA) : Statement (.imadw w e) := fun _ => lane_ext ..
theorem lop3 (w : LaneShort) (e : EA) : Statement (.lop3 w e) := fun _ => lane_ext ..
theorem bfx (w : LaneShort) (e : EA) : Statement (.bfx w e) := fun _ => lane_ext ..
theorem bfi (w : LaneShort) (e : EA) : Statement (.bfi w e) := fun _ => lane_ext ..
theorem ibit (w : LaneShort) (e : EA) : Statement (.ibit w e) := fun _ => lane_ext ..
theorem prmt (w : LaneShort) (e : EA) : Statement (.prmt w e) := fun _ => lane_ext ..
theorem sel (w : LaneShort) (e : EA) : Statement (.sel w e) := fun _ => lane_ext ..
theorem icmp (w : LaneShort) (e : EA) : Statement (.icmp w e) := fun _ => lane_ext ..
theorem pset (w : LaneShort) (e : EA) : Statement (.pset w e) := fun _ => lane_ext ..
theorem pmovReg (w : LaneShort) (e : EA) : Statement (.pmovReg w e) := fun _ => lane_ext ..
theorem pmovPred (w : LaneShort) (e : EA) : Statement (.pmovPred w e) := fun _ => lane_ext ..
theorem faddExt (w : LaneShort) (e : EA) : Statement (.faddExt w e) := fun _ => lane_ext ..
theorem fsubExt (w : LaneShort) (e : EA) : Statement (.fsubExt w e) := fun _ => lane_ext ..
theorem fmulExt (w : LaneShort) (e : EA) : Statement (.fmulExt w e) := fun _ => lane_ext ..
theorem ffma (w : LaneShort) (e : EA) : Statement (.ffma w e) := fun _ => lane_ext ..
theorem fminExt (w : LaneShort) (e : EA) : Statement (.fminExt w e) := fun _ => lane_ext ..
theorem fmaxExt (w : LaneShort) (e : EA) : Statement (.fmaxExt w e) := fun _ => lane_ext ..
theorem fsclExt (w : LaneShort) (e : EA) : Statement (.fsclExt w e) := fun _ => lane_ext ..
theorem fcmp (w : LaneShort) (e : EA) : Statement (.fcmp w e) := fun _ => lane_ext ..
theorem fsf (w : LaneShort) (e : EA) : Statement (.fsf w e) := fun _ => lane_ext ..
theorem cvt (w : LaneShort) (e : EA) : Statement (.cvt w e) := fun _ => lane_ext ..
theorem dot (w : LaneShort) (e : EA) : Statement (.dot w e) := fun _ => lane_ext ..
theorem shfl (w : LaneShort) (e : EA) : Statement (.shfl w e) := fun _ => lane_ext ..
theorem vote (w : LaneShort) (e : EA) : Statement (.vote w e) := fun _ => lane_ext ..
theorem redux (w : LaneShort) (e : EA) : Statement (.redux w e) := fun _ => lane_ext ..
theorem scan (w : LaneShort) (e : EA) : Statement (.scan w e) := fun _ => lane_ext ..
theorem rkadm (w : LaneShort) (e : EA) : Statement (.rkadm w e) := fun _ => lane_ext ..
theorem rkins (w : LaneShort) (e : EA) : Statement (.rkins w e) := fun _ => lane_ext ..
theorem relbl (w : LaneShort) (e : EA) : Statement (.relbl w e) := fun _ => lane_ext ..
theorem itemDone (w : LaneShort) (e : EA) : Statement (.itemDone w e) := fun _ => lane_ext ..
theorem itemSkip (w : LaneShort) (e : EA) : Statement (.itemSkip w e) := fun _ => lane_ext ..
theorem itemYield (w : LaneShort) (e : EA) : Statement (.itemYield w e) := fun _ => lane_ext ..
theorem itemDefer (w : LaneShort) (e : EA) : Statement (.itemDefer w e) := fun _ => lane_ext ..
theorem movImm (w : LaneShort) (e : EI) : Statement (.movImm w e) := fun _ => lane_ext ..
theorem lda (w : LaneShort) (e : EM) : Statement (.lda w e) := fun _ => lane_ext ..
theorem sta (w : LaneShort) (e : EM) : Statement (.sta w e) := fun _ => lane_ext ..
theorem ld (w : LaneShort) (e : EM) : Statement (.ld w e) := fun _ => lane_ext ..
theorem st (w : LaneShort) (e : EM) : Statement (.st w e) := fun _ => lane_ext ..
theorem ldk (w : LaneShort) (e : EM) : Statement (.ldk w e) := fun _ => lane_ext ..
theorem ldc (w : LaneShort) (e : EM) : Statement (.ldc w e) := fun _ => lane_ext ..
theorem stc (w : LaneShort) (e : EM) : Statement (.stc w e) := fun _ => lane_ext ..
theorem cpl (w : LaneShort) (e : EM) : Statement (.cpl w e) := fun _ => lane_ext ..
theorem atom (w : LaneShort) (e : EM) : Statement (.atom w e) := fun _ => lane_ext ..
theorem atomc (w : LaneShort) (e : EM) : Statement (.atomc w e) := fun _ => lane_ext ..
theorem qenq (w : LaneShort) (e : EM) : Statement (.qenq w e) := fun _ => lane_ext ..
theorem qdeq (w : LaneShort) (e : EM) : Statement (.qdeq w e) := fun _ => lane_ext ..
theorem qsteal (w : LaneShort) (e : EM) : Statement (.qsteal w e) := fun _ => lane_ext ..
theorem mma (w : LaneShort) (e : EX) : Statement (.mma w e) := fun _ => lane_ext ..
theorem mms (w : LaneShort) (e : EX) : Statement (.mms w e) := fun _ => lane_ext ..
theorem mrk (w : LaneShort) (e : EX) : Statement (.mrk w e) := fun _ => lane_ext ..
theorem uadd (w : UniShort) : Statement (.uadd w) := fun _ => uni_short ..
theorem usub (w : UniShort) : Statement (.usub w) := fun _ => uni_short ..
theorem umul (w : UniShort) : Statement (.umul w) := fun _ => uni_short ..
theorem umin (w : UniShort) : Statement (.umin w) := fun _ => uni_short ..
theorem umax (w : UniShort) : Statement (.umax w) := fun _ => uni_short ..
theorem uand (w : UniShort) : Statement (.uand w) := fun _ => uni_short ..
theorem uor (w : UniShort) : Statement (.uor w) := fun _ => uni_short ..
theorem uxor (w : UniShort) : Statement (.uxor w) := fun _ => uni_short ..
theorem ushl (w : UniShort) : Statement (.ushl w) := fun _ => uni_short ..
theorem ushr (w : UniShort) : Statement (.ushr w) := fun _ => uni_short ..
theorem usha (w : UniShort) : Statement (.usha w) := fun _ => uni_short ..
theorem umov (w : UniShort) : Statement (.umov w) := fun _ => uni_short ..
theorem brx (w : UniShort) : Statement (.brx w) := fun _ => uni_short ..
theorem callx (w : UniShort) : Statement (.callx w) := fun _ => uni_short ..
theorem ret (w : UniShort) : Statement (.ret w) := fun _ => uni_short ..
theorem unwind (w : UniShort) : Statement (.unwind w) := fun _ => uni_short ..
theorem rcv (w : UniShort) : Statement (.rcv w) := fun _ => uni_short ..
theorem exit (w : UniShort) : Statement (.exit w) := fun _ => uni_short ..
theorem waitc (w : UniShort) : Statement (.waitc w) := fun _ => uni_short ..
theorem cpb (w : UniShort) : Statement (.cpb w) := fun _ => uni_short ..
theorem cpclose (w : UniShort) : Statement (.cpclose w) := fun _ => uni_short ..
theorem cpwait (w : UniShort) : Statement (.cpwait w) := fun _ => uni_short ..
theorem fres (w : UniShort) : Statement (.fres w) := fun _ => uni_short ..
theorem freg (w : UniShort) : Statement (.freg w) := fun _ => uni_short ..
theorem tspawn (w : UniShort) : Statement (.tspawn w) := fun _ => uni_short ..
theorem tdone (w : UniShort) : Statement (.tdone w) := fun _ => uni_short ..
theorem asy (w : UniShort) : Statement (.asy w) := fun _ => uni_short ..
theorem gnode (w : UniShort) : Statement (.gnode w) := fun _ => uni_short ..
theorem svc (w : UniShort) : Statement (.svc w) := fun _ => uni_short ..
theorem srd (w : UniShort) : Statement (.srd w) := fun _ => uni_short ..
theorem srdFaultWord (w : UniShort) : Statement (.srdFaultWord w) := fun _ => uni_short ..
theorem swr (w : UniShort) : Statement (.swr w) := fun _ => uni_short ..
theorem trap (w : UniShort) : Statement (.trap w) := fun _ => uni_short ..
theorem hret (w : UniShort) : Statement (.hret w) := fun _ => uni_short ..
theorem bkpt (w : UniShort) : Statement (.bkpt w) := fun _ => uni_short ..
theorem uaddExt (w : UniShort) (e : EI) : Statement (.uaddExt w e) := fun _ => uni_ext ..
theorem usubExt (w : UniShort) (e : EI) : Statement (.usubExt w e) := fun _ => uni_ext ..
theorem umulExt (w : UniShort) (e : EI) : Statement (.umulExt w e) := fun _ => uni_ext ..
theorem uminExt (w : UniShort) (e : EI) : Statement (.uminExt w e) := fun _ => uni_ext ..
theorem umaxExt (w : UniShort) (e : EI) : Statement (.umaxExt w e) := fun _ => uni_ext ..
theorem uandExt (w : UniShort) (e : EI) : Statement (.uandExt w e) := fun _ => uni_ext ..
theorem uorExt (w : UniShort) (e : EI) : Statement (.uorExt w e) := fun _ => uni_ext ..
theorem uxorExt (w : UniShort) (e : EI) : Statement (.uxorExt w e) := fun _ => uni_ext ..
theorem ushlExt (w : UniShort) (e : EI) : Statement (.ushlExt w e) := fun _ => uni_ext ..
theorem ushrExt (w : UniShort) (e : EI) : Statement (.ushrExt w e) := fun _ => uni_ext ..
theorem ushaExt (w : UniShort) (e : EI) : Statement (.ushaExt w e) := fun _ => uni_ext ..
theorem umovExt (w : UniShort) (e : EI) : Statement (.umovExt w e) := fun _ => uni_ext ..
theorem umad (w : UniShort) (e : EA) : Statement (.umad w e) := fun _ => uni_ext ..
theorem ubfx (w : UniShort) (e : EA) : Statement (.ubfx w e) := fun _ => uni_ext ..
theorem usel (w : UniShort) (e : EA) : Statement (.usel w e) := fun _ => uni_ext ..
theorem ucmp (w : UniShort) (e : EA) : Statement (.ucmp w e) := fun _ => uni_ext ..
theorem barInit (w : UniShort) (e : EA) : Statement (.barInit w e) := fun _ => uni_ext ..
theorem barArrive (w : UniShort) (e : EA) : Statement (.barArrive w e) := fun _ => uni_ext ..
theorem barWait (w : UniShort) (e : EA) : Statement (.barWait w e) := fun _ => uni_ext ..
theorem barArrwait (w : UniShort) (e : EA) : Statement (.barArrwait w e) := fun _ => uni_ext ..
theorem barExpect (w : UniShort) (e : EA) : Statement (.barExpect w e) := fun _ => uni_ext ..
theorem fenceAcq (w : UniShort) (e : EA) : Statement (.fenceAcq w e) := fun _ => uni_ext ..
theorem fenceRel (w : UniShort) (e : EA) : Statement (.fenceRel w e) := fun _ => uni_ext ..
theorem fenceAcqrel (w : UniShort) (e : EA) : Statement (.fenceAcqrel w e) := fun _ => uni_ext ..
theorem fenceSc (w : UniShort) (e : EA) : Statement (.fenceSc w e) := fun _ => uni_ext ..
theorem accAcq (w : UniShort) (e : EA) : Statement (.accAcq w e) := fun _ => uni_ext ..
theorem accRel (w : UniShort) (e : EA) : Statement (.accRel w e) := fun _ => uni_ext ..
theorem accWin (w : UniShort) (e : EA) : Statement (.accWin w e) := fun _ => uni_ext ..
theorem accAlloc (w : UniShort) (e : EA) : Statement (.accAlloc w e) := fun _ => uni_ext ..
theorem accFree (w : UniShort) (e : EA) : Statement (.accFree w e) := fun _ => uni_ext ..
theorem rkcfg (w : UniShort) (e : EA) : Statement (.rkcfg w e) := fun _ => uni_ext ..
theorem rkrd (w : UniShort) (e : EA) : Statement (.rkrd w e) := fun _ => uni_ext ..
theorem rlogPush (w : UniShort) (e : EA) : Statement (.rlogPush w e) := fun _ => uni_ext ..
theorem rlogGet (w : UniShort) (e : EA) : Statement (.rlogGet w e) := fun _ => uni_ext ..
theorem rlogRet (w : UniShort) (e : EA) : Statement (.rlogRet w e) := fun _ => uni_ext ..
theorem pipeSend (w : UniShort) (e : EA) : Statement (.pipeSend w e) := fun _ => uni_ext ..
theorem pipeRecv (w : UniShort) (e : EA) : Statement (.pipeRecv w e) := fun _ => uni_ext ..
theorem hcohFlush (w : UniShort) (e : EA) : Statement (.hcohFlush w e) := fun _ => uni_ext ..
theorem hcohInval (w : UniShort) (e : EA) : Statement (.hcohInval w e) := fun _ => uni_ext ..
theorem ctxDrain (w : UniShort) (e : EA) : Statement (.ctxDrain w e) := fun _ => uni_ext ..
theorem ctxSvsplit (w : UniShort) (e : EA) : Statement (.ctxSvsplit w e) := fun _ => uni_ext ..
theorem ctxLdsplit (w : UniShort) (e : EA) : Statement (.ctxLdsplit w e) := fun _ => uni_ext ..
theorem ctxSvframe (w : UniShort) (e : EA) : Statement (.ctxSvframe w e) := fun _ => uni_ext ..
theorem ctxLdframe (w : UniShort) (e : EA) : Statement (.ctxLdframe w e) := fun _ => uni_ext ..
theorem ctxSvlist (w : UniShort) (e : EA) : Statement (.ctxSvlist w e) := fun _ => uni_ext ..
theorem ctxSvlistLoad (w : UniShort) (e : EA) : Statement (.ctxSvlistLoad w e) := fun _ => uni_ext ..
theorem bra (w : UniShort) (e : EB) : Statement (.bra w e) := fun _ => uni_ext ..
theorem call (w : UniShort) (e : EB) : Statement (.call w e) := fun _ => uni_ext ..
theorem mwait (w : UniShort) (e : EM) : Statement (.mwait w e) := fun _ => uni_ext ..
theorem msig (w : UniShort) (e : EM) : Statement (.msig w e) := fun _ => uni_ext ..
theorem rkmrg (w : UniShort) (e : EM) : Statement (.rkmrg w e) := fun _ => uni_ext ..
theorem reservedOp (w : Word) (x : Option Word) : Statement (.reservedOp w x) := by
  intro h
  have hx : x.isSome = w.getLsbD 30 := by
    simp only [Instr.wellFormed, Instr.illegal, req] at h
    split at h
    · next hc => simp only [Bool.and_eq_true, beq_iff_eq] at hc; exact hc.2
    · simp at h
  cases x <;> exact hx.symm
theorem resultWriteback (gid : Nat) : Statement (.resultWriteback gid) := fun _ => trivial
theorem memoryResponse (gid : Nat) : Statement (.memoryResponse gid) := fun _ => trivial
theorem refusalUrgent (gid : Nat) (sp : Nat) : Statement (.refusalUrgent gid sp) := fun _ => trivial
theorem waitCountUrgent (gid : Nat) (sp : Nat) : Statement (.waitCountUrgent gid sp) := fun _ => trivial
theorem frameGrant (core : Nat) (sc : Nat) : Statement (.frameGrant core sc) := fun _ => trivial
theorem eseTrigger (core : Nat) (sc : Nat) : Statement (.eseTrigger core sc) := fun _ => trivial
theorem evictionComplete (core : Nat) (sc : Nat) : Statement (.evictionComplete core sc) := fun _ => trivial
theorem fillComplete (gid : Nat) (fn : Nat) : Statement (.fillComplete gid fn) := fun _ => trivial
theorem parkTimeout (gid : Nat) (sp : Nat) : Statement (.parkTimeout gid sp) := fun _ => trivial
theorem matrixStepAccept (core : Nat) (eng : Nat) : Statement (.matrixStepAccept core eng) := fun _ => trivial
theorem matrixStepStart (core : Nat) (eng : Nat) : Statement (.matrixStepStart core eng) := fun _ => trivial
theorem matrixStepWrite (core : Nat) (eng : Nat) (fails : (List (Nat × Nat))) : Statement (.matrixStepWrite core eng fails) := fun _ => trivial
theorem pairTimeout (core : Nat) (eng : Nat) : Statement (.pairTimeout core eng) := fun _ => trivial
theorem finPhaseEnd (core : Nat) (eng : Nat) : Statement (.finPhaseEnd core eng) := fun _ => trivial
theorem thrUpdate (gid : Nat) : Statement (.thrUpdate gid) := fun _ => trivial
theorem tileClearDone (core : Nat) (eng : Nat) (tile : Nat) : Statement (.tileClearDone core eng tile) := fun _ => trivial
theorem tokenGrant (core : Nat) (eng : Nat) (tile : Nat) : Statement (.tokenGrant core eng tile) := fun _ => trivial
theorem tokenHandoff (core : Nat) (eng : Nat) (tile : Nat) : Statement (.tokenHandoff core eng tile) := fun _ => trivial
theorem mergeAccept (core : Nat) (eng : Nat) : Statement (.mergeAccept core eng) := fun _ => trivial
theorem mergeComplete (core : Nat) (eng : Nat) : Statement (.mergeComplete core eng) := fun _ => trivial
theorem rkcfgComplete (gid : Nat) : Statement (.rkcfgComplete gid) := fun _ => trivial
theorem assayAccept (stack : Nat) : Statement (.assayAccept stack) := fun _ => trivial
theorem assayComplete (stack : Nat) : Statement (.assayComplete stack) := fun _ => trivial
theorem gpkFill (gid : Nat) : Statement (.gpkFill gid) := fun _ => trivial
theorem releaseWindowPerform (core : Nat) : Statement (.releaseWindowPerform core) := fun _ => trivial
theorem stall (die : Nat) (entry : Nat) (qkey : Nat) : Statement (.stall die entry qkey) := fun _ => trivial
theorem faultRecordWrite (die : Nat) : Statement (.faultRecordWrite die) := fun _ => trivial
theorem deferAppend (die : Nat) : Statement (.deferAppend die) := fun _ => trivial
theorem barWaitRelease (gid : Nat) (sp : Nat) : Statement (.barWaitRelease gid sp) := fun _ => trivial
theorem copyComplete (cid : Nat) : Statement (.copyComplete cid) := fun _ => trivial
theorem tileTransferComplete (gid : Nat) : Statement (.tileTransferComplete gid) := fun _ => trivial
theorem translationWalk (tag : Nat) : Statement (.translationWalk tag) := fun _ => trivial
theorem atsResponse (tag : Nat) (ans : AtsAnswer) : Statement (.atsResponse tag ans) := fun _ => trivial
theorem priResponse (tag : Nat) (ok : Bool) : Statement (.priResponse tag ok) := fun _ => trivial
theorem hostRouteTimeout (tag : Nat) : Statement (.hostRouteTimeout tag) := fun _ => trivial
theorem atsInvalidation (pasid : Nat) (va : Nat) : Statement (.atsInvalidation pasid va) := fun _ => trivial
theorem writeAck (gid : Nat) : Statement (.writeAck gid) := fun _ => trivial
theorem clockMarker (src : Nat) (dst : Nat) : Statement (.clockMarker src dst) := fun _ => trivial
theorem mwaitSatisfied (gid : Nat) (sp : Nat) : Statement (.mwaitSatisfied gid sp) := fun _ => trivial
theorem qcOpen (c : QcCommand) : Statement (.qcOpen c) := fun _ => trivial
theorem qcClose (c : QcCommand) : Statement (.qcClose c) := fun _ => trivial
theorem qcNotify (c : QcCommand) : Statement (.qcNotify c) := fun _ => trivial
theorem qcFlush (c : QcCommand) : Statement (.qcFlush c) := fun _ => trivial
theorem qcNode (c : QcCommand) : Statement (.qcNode c) := fun _ => trivial
theorem qcResident (c : QcCommand) : Statement (.qcResident c) := fun _ => trivial
theorem qcbWriteback (qkey : Nat) : Statement (.qcbWriteback qkey) := fun _ => trivial
theorem taskDecrement (die : Nat) : Statement (.taskDecrement die) := fun _ => trivial
theorem nodeRecordArrival (qkey : Nat) : Statement (.nodeRecordArrival qkey) := fun _ => trivial
theorem nodeReserve (qkey : Nat) : Statement (.nodeReserve qkey) := fun _ => trivial
theorem nodeFlushExpiry (qkey : Nat) : Statement (.nodeFlushExpiry qkey) := fun _ => trivial
theorem residency (qkey : Nat) : Statement (.residency qkey) := fun _ => trivial
theorem sotakeTake (die : Nat) (hart : Nat) (idx : Nat) : Statement (.sotakeTake die hart idx) := fun _ => trivial
theorem sotakePeek (die : Nat) (hart : Nat) (idx : Nat) : Statement (.sotakePeek die hart idx) := fun _ => trivial
theorem soneed (die : Nat) (hart : Nat) (addr : Dword) : Statement (.soneed die hart addr) := fun _ => trivial
theorem soavail (die : Nat) (hart : Nat) (v : Dword) : Statement (.soavail die hart v) := fun _ => trivial
theorem soplaceStage (die : Nat) (hart : Nat) (v : Dword) : Statement (.soplaceStage die hart v) := fun _ => trivial
theorem soplaceCommit (die : Nat) (hart : Nat) (v : Dword) : Statement (.soplaceCommit die hart v) := fun _ => trivial
theorem sopre (die : Nat) (hart : Nat) (v : Dword) : Statement (.sopre die hart v) := fun _ => trivial
theorem soresm (die : Nat) (hart : Nat) (v : Dword) : Statement (.soresm die hart v) := fun _ => trivial
theorem sokill (die : Nat) (hart : Nat) (v : Dword) : Statement (.sokill die hart v) := fun _ => trivial
theorem soevt (die : Nat) (hart : Nat) : Statement (.soevt die hart) := fun _ => trivial
theorem illegalCsrAccess (die : Nat) (hart : Nat) (csr : Nat) : Statement (.illegalCsrAccess die hart csr) := fun _ => trivial
theorem preemptComplete (pid : Nat) : Statement (.preemptComplete pid) := fun _ => trivial
theorem saveTimeout (pid : Nat) : Statement (.saveTimeout pid) := fun _ => trivial
theorem timeSliceExpiry (pid : Nat) : Statement (.timeSliceExpiry pid) := fun _ => trivial
theorem teamCompletionCount (pid : Nat) : Statement (.teamCompletionCount pid) := fun _ => trivial
theorem microcodeLoad (die : Nat) (img : (List (BitVec 8))) (sig : (BitVec 1042)) (key : Nat) : Statement (.microcodeLoad die img sig key) := fun _ => trivial
theorem handlerEntry (gid : Nat) : Statement (.handlerEntry gid) := fun _ => trivial
theorem halt (part : Nat) (cause : (BitVec 8)) : Statement (.halt part cause) := fun _ => trivial
theorem watchdog (gid : Nat) : Statement (.watchdog gid) := fun _ => trivial
theorem debugStop (gid : Nat) : Statement (.debugStop gid) := fun _ => trivial
theorem debugStep (gid : Nat) (sp : Nat) : Statement (.debugStep gid sp) := fun _ => trivial
theorem breakpointStop (gid : Nat) (sp : Nat) : Statement (.breakpointStop gid sp) := fun _ => trivial
theorem debugRegisterWrite (gid : Nat) (r : DebugReg) (v : Dword) : Statement (.debugRegisterWrite gid r v) := fun _ => trivial
theorem hostBar2Write (fn : Nat) (off : Nat) (data : (List (BitVec 8))) : Statement (.hostBar2Write fn off data) := fun _ => trivial
theorem flr (vf : Nat) : Statement (.flr vf) := fun _ => trivial
theorem flrCleanup (vf : Nat) : Statement (.flrCleanup vf) := fun _ => trivial
theorem flrAllowanceExpiry (vf : Nat) : Statement (.flrAllowanceExpiry vf) := fun _ => trivial
theorem flrComplete (vf : Nat) : Statement (.flrComplete vf) := fun _ => trivial
theorem peerPacketReceive (p : Packet) : Statement (.peerPacketReceive p) := fun _ => trivial
theorem pctlEnable (part : Nat) (en : Bool) : Statement (.pctlEnable part en) := fun _ => trivial
theorem pctlHaltRequest (part : Nat) : Statement (.pctlHaltRequest part) := fun _ => trivial
theorem cmaskWrite (part : Nat) (word : Nat) (v : Dword) : Statement (.cmaskWrite part word v) := fun _ => trivial
theorem fltrsp (part : Nat) (v : Dword) : Statement (.fltrsp part v) := fun _ => trivial
theorem attRequest (part : Nat) (v : Dword) : Statement (.attRequest part v) := fun _ => trivial
theorem attestationReport (part : Nat) : Statement (.attestationReport part) := fun _ => trivial
theorem registerWrite (who : RegWriter) (page : Nat) (off : Nat) (v : Dword) : Statement (.registerWrite who page off v) := fun _ => trivial
theorem egctlGo (n : Nat) (v : Dword) : Statement (.egctlGo n v) := fun _ => trivial
theorem edgeDrainEnd (n : Nat) (opens : List Nat) : Statement (.edgeDrainEnd n opens) := fun _ => trivial
theorem quiesceEnd (n : Nat) : Statement (.quiesceEnd n) := fun _ => trivial
theorem retrainEnd (n : Nat) (up : Bool) : Statement (.retrainEnd n up) := fun _ => trivial
theorem edgeReady (n : Nat) : Statement (.edgeReady n) := fun _ => trivial
theorem planeMapUpdate (dev : Nat) (planes : (BitVec 128)) : Statement (.planeMapUpdate dev planes) := fun _ => trivial
theorem packetRelay (p : Packet) : Statement (.packetRelay p) := fun _ => trivial
theorem relayDrop (p : Packet) : Statement (.relayDrop p) := fun _ => trivial
theorem quickSample (isl : Nat) (margin : Nat) (vmv : (BitVec 16)) : Statement (.quickSample isl margin vmv) := fun _ => trivial
theorem fullSweep (isl : Nat) (fmax : Nat) (table : List (BitVec 16)) (allPass : Bool) : Statement (.fullSweep isl fmax table allPass) := fun _ => trivial
theorem clkStep (isl : Nat) (up : Bool) : Statement (.clkStep isl up) := fun _ => trivial
theorem pislWrite (isl : Nat) (v : Dword) : Statement (.pislWrite isl v) := fun _ => trivial
theorem powerOnReset : Statement (.powerOnReset) := fun _ => trivial
theorem selfTestDone (bit : Nat) (pass : Bool) : Statement (.selfTestDone bit pass) := fun _ => trivial
theorem coreSpare (core : Nat) (phys : Nat) (trusted : Bool) : Statement (.coreSpare core phys trusted) := fun _ => trivial
theorem recover (part : Nat) : Statement (.recover part) := fun _ => trivial
theorem svcNop (part : Nat) : Statement (.svcNop part) := fun _ => trivial
theorem svcMint (part : Nat) : Statement (.svcMint part) := fun _ => trivial
theorem svcQcmd (part : Nat) : Statement (.svcQcmd part) := fun _ => trivial
theorem svcLoad (part : Nat) (ok : LoadAnswer) : Statement (.svcLoad part ok) := fun _ => trivial
theorem svcFetch (part : Nat) (bufAddr : Dword) : Statement (.svcFetch part bufAddr) := fun _ => trivial
theorem svcFopen (part : Nat) (ok : Bool) : Statement (.svcFopen part ok) := fun _ => trivial
theorem svcFwrite (part : Nat) (ok : Bool) : Statement (.svcFwrite part ok) := fun _ => trivial
theorem svcFread (part : Nat) (ok : Bool) (data : (List (BitVec 8))) : Statement (.svcFread part ok data) := fun _ => trivial
theorem svcFclose (part : Nat) : Statement (.svcFclose part) := fun _ => trivial
theorem svcResume (part : Nat) : Statement (.svcResume part) := fun _ => trivial
theorem svcKill (part : Nat) : Statement (.svcKill part) := fun _ => trivial
theorem debugContinue (n : Nat) : Statement (.debugContinue n) := fun _ => trivial
theorem powerRemoval : Statement (.powerRemoval) := fun _ => trivial
theorem manufacture (secret : Nat) (cert : (List (BitVec 8))) (config : List (BitVec 8)) : Statement (.manufacture secret cert config) := fun _ => trivial
theorem functionLoss (bit : Nat) : Statement (.functionLoss bit) := fun _ => trivial
theorem drainRequestCutoff (n : Nat) : Statement (.drainRequestCutoff n) := fun _ => trivial
theorem reservedCommand (c : QcCommand) (op : (BitVec 4)) : Statement (.reservedCommand c op) := fun _ => trivial

end EncodedLength

end Sys2Proof.Laws
end

