-- ==== Sys2Proof/Laws/State.lean ====
section
/-!
SUPPORT. What the updates of the state leave alone: one equation per field and update, so that no proof unfolds a record
update.
-/
namespace Sys2Proof.Machine

/-! ### A change of the group in focus -/

@[simp] theorem State.onGrp_grp (s : State) (f : Group → Group) : (s.onGrp f).grp = f s.grp := rfl
@[simp] theorem State.onGrp_agenda (s : State) (f : Group → Group) : (s.onGrp f).agenda = s.agenda := rfl
@[simp] theorem State.onGrp_sched (s : State) (f : Group → Group) : (s.onGrp f).sched = s.sched := rfl
@[simp] theorem State.onGrp_turn (s : State) (f : Group → Group) : (s.onGrp f).turn = s.turn := rfl
@[simp] theorem State.onGrp_free (s : State) (f : Group → Group) : (s.onGrp f).free = s.free := rfl
@[simp] theorem State.onGrp_powered (s : State) (f : Group → Group) : (s.onGrp f).powered = s.powered := rfl
@[simp] theorem State.onGrp_postmark (s : State) (f : Group → Group) : (s.onGrp f).postmark = s.postmark := rfl
@[simp] theorem State.onGrp_others (s : State) (f : Group → Group) : (s.onGrp f).others = s.others := rfl
@[simp] theorem State.onGrp_trap (s : State) (f : Group → Group) : (s.onGrp f).trap = s.trap := rfl
@[simp] theorem State.onGrp_teams (s : State) (f : Group → Group) : (s.onGrp f).teams = s.teams := rfl
@[simp] theorem State.onGrp_nextOrder (s : State) (f : Group → Group) : (s.onGrp f).nextOrder = s.nextOrder := rfl
@[simp] theorem State.onGrp_last (s : State) (f : Group → Group) : (s.onGrp f).last = s.last := rfl
@[simp] theorem State.onGrp_lastSub (s : State) (f : Group → Group) : (s.onGrp f).lastSub = s.lastSub := rfl
@[simp] theorem State.onGrp_mem (s : State) (f : Group → Group) : (s.onGrp f).mem = s.mem := rfl
@[simp] theorem State.onGrp_teamMem (s : State) (f : Group → Group) : (s.onGrp f).teamMem = s.teamMem := rfl
@[simp] theorem State.onGrp_scratch (s : State) (f : Group → Group) : (s.onGrp f).scratch = s.scratch := rfl
@[simp] theorem State.onGrp_accMem (s : State) (f : Group → Group) : (s.onGrp f).accMem = s.accMem := rfl
@[simp] theorem State.onGrp_l1 (s : State) (f : Group → Group) : (s.onGrp f).l1 = s.l1 := rfl
@[simp] theorem State.onGrp_hostMem (s : State) (f : Group → Group) : (s.onGrp f).hostMem = s.hostMem := rfl
@[simp] theorem State.onGrp_hostCache (s : State) (f : Group → Group) : (s.onGrp f).hostCache = s.hostCache := rfl
@[simp] theorem State.onGrp_fcap (s : State) (f : Group → Group) : (s.onGrp f).fcap = s.fcap := rfl
@[simp] theorem State.onGrp_requests (s : State) (f : Group → Group) : (s.onGrp f).requests = s.requests := rfl
@[simp] theorem State.onGrp_evicting (s : State) (f : Group → Group) : (s.onGrp f).evicting = s.evicting := rfl
@[simp] theorem State.onGrp_barriers (s : State) (f : Group → Group) : (s.onGrp f).barriers = s.barriers := rfl
@[simp] theorem State.onGrp_relwin (s : State) (f : Group → Group) : (s.onGrp f).relwin = s.relwin := rfl
@[simp] theorem State.onGrp_flights (s : State) (f : Group → Group) : (s.onGrp f).flights = s.flights := rfl
@[simp] theorem State.onGrp_copies (s : State) (f : Group → Group) : (s.onGrp f).copies = s.copies := rfl
@[simp] theorem State.onGrp_nextCopy (s : State) (f : Group → Group) : (s.onGrp f).nextCopy = s.nextCopy := rfl
@[simp] theorem State.onGrp_engines (s : State) (f : Group → Group) : (s.onGrp f).engines = s.engines := rfl
@[simp] theorem State.onGrp_domains (s : State) (f : Group → Group) : (s.onGrp f).domains = s.domains := rfl
@[simp] theorem State.onGrp_assay (s : State) (f : Group → Group) : (s.onGrp f).assay = s.assay := rfl
@[simp] theorem State.onGrp_vrel (s : State) (f : Group → Group) : (s.onGrp f).vrel = s.vrel := rfl
@[simp] theorem State.onGrp_vapp (s : State) (f : Group → Group) : (s.onGrp f).vapp = s.vapp := rfl
@[simp] theorem State.onGrp_stamps (s : State) (f : Group → Group) : (s.onGrp f).stamps = s.stamps := rfl
@[simp] theorem State.onGrp_hubVec (s : State) (f : Group → Group) : (s.onGrp f).hubVec = s.hubVec := rfl
@[simp] theorem State.onGrp_markers (s : State) (f : Group → Group) : (s.onGrp f).markers = s.markers := rfl
@[simp] theorem State.onGrp_queues (s : State) (f : Group → Group) : (s.onGrp f).queues = s.queues := rfl
@[simp] theorem State.onGrp_locks (s : State) (f : Group → Group) : (s.onGrp f).locks = s.locks := rfl
@[simp] theorem State.onGrp_parkedItems (s : State) (f : Group → Group) : (s.onGrp f).parkedItems = s.parkedItems := rfl
@[simp] theorem State.onGrp_parkLater (s : State) (f : Group → Group) : (s.onGrp f).parkLater = s.parkLater := rfl
@[simp] theorem State.onGrp_walks (s : State) (f : Group → Group) : (s.onGrp f).walks = s.walks := rfl
@[simp] theorem State.onGrp_offices (s : State) (f : Group → Group) : (s.onGrp f).offices = s.offices := rfl
@[simp] theorem State.onGrp_harts (s : State) (f : Group → Group) : (s.onGrp f).harts = s.harts := rfl
@[simp] theorem State.onGrp_officeMem (s : State) (f : Group → Group) : (s.onGrp f).officeMem = s.officeMem := rfl
@[simp] theorem State.onGrp_officeCounters (s : State) (f : Group → Group) : (s.onGrp f).officeCounters = s.officeCounters := rfl
@[simp] theorem State.onGrp_contexts (s : State) (f : Group → Group) : (s.onGrp f).contexts = s.contexts := rfl
@[simp] theorem State.onGrp_queueKeys (s : State) (f : Group → Group) : (s.onGrp f).queueKeys = s.queueKeys := rfl
@[simp] theorem State.onGrp_partRegs (s : State) (f : Group → Group) : (s.onGrp f).partRegs = s.partRegs := rfl
@[simp] theorem State.onGrp_devRegs (s : State) (f : Group → Group) : (s.onGrp f).devRegs = s.devRegs := rfl
@[simp] theorem State.onGrp_devNum (s : State) (f : Group → Group) : (s.onGrp f).devNum = s.devNum := rfl
@[simp] theorem State.onGrp_parkedAccesses (s : State) (f : Group → Group) : (s.onGrp f).parkedAccesses = s.parkedAccesses := rfl
@[simp] theorem State.onGrp_nextTag (s : State) (f : Group → Group) : (s.onGrp f).nextTag = s.nextTag := rfl
@[simp] theorem State.onGrp_ats (s : State) (f : Group → Group) : (s.onGrp f).ats = s.ats := rfl
@[simp] theorem State.onGrp_tickets (s : State) (f : Group → Group) : (s.onGrp f).tickets = s.tickets := rfl
@[simp] theorem State.onGrp_calls (s : State) (f : Group → Group) : (s.onGrp f).calls = s.calls := rfl
@[simp] theorem State.onGrp_files (s : State) (f : Group → Group) : (s.onGrp f).files = s.files := rfl
@[simp] theorem State.onGrp_disk (s : State) (f : Group → Group) : (s.onGrp f).disk = s.disk := rfl
@[simp] theorem State.onGrp_planes (s : State) (f : Group → Group) : (s.onGrp f).planes = s.planes := rfl
@[simp] theorem State.onGrp_relays (s : State) (f : Group → Group) : (s.onGrp f).relays = s.relays := rfl
@[simp] theorem State.onGrp_sent (s : State) (f : Group → Group) : (s.onGrp f).sent = s.sent := rfl
@[simp] theorem State.onGrp_edgeSince (s : State) (f : Group → Group) : (s.onGrp f).edgeSince = s.edgeSince := rfl
@[simp] theorem State.onGrp_edgeClosed (s : State) (f : Group → Group) : (s.onGrp f).edgeClosed = s.edgeClosed := rfl
@[simp] theorem State.onGrp_conns (s : State) (f : Group → Group) : (s.onGrp f).conns = s.conns := rfl
@[simp] theorem State.onGrp_bar2 (s : State) (f : Group → Group) : (s.onGrp f).bar2 = s.bar2 := rfl
@[simp] theorem State.onGrp_delegated (s : State) (f : Group → Group) : (s.onGrp f).delegated = s.delegated := rfl
@[simp] theorem State.onGrp_firmware (s : State) (f : Group → Group) : (s.onGrp f).firmware = s.firmware := rfl
@[simp] theorem State.onGrp_rootEvents (s : State) (f : Group → Group) : (s.onGrp f).rootEvents = s.rootEvents := rfl
@[simp] theorem State.onGrp_life (s : State) (f : Group → Group) : (s.onGrp f).life = s.life := rfl
@[simp] theorem State.onGrp_guards (s : State) (f : Group → Group) : (s.onGrp f).guards = s.guards := rfl
@[simp] theorem State.onGrp_breakpoints (s : State) (f : Group → Group) : (s.onGrp f).breakpoints = s.breakpoints := rfl
@[simp] theorem State.onGrp_debugged (s : State) (f : Group → Group) : (s.onGrp f).debugged = s.debugged := rfl
@[simp] theorem State.onGrp_stops (s : State) (f : Group → Group) : (s.onGrp f).stops = s.stops := rfl
@[simp] theorem State.onGrp_busy (s : State) (f : Group → Group) : (s.onGrp f).busy = s.busy := rfl
@[simp] theorem State.onGrp_busyRest (s : State) (f : Group → Group) : (s.onGrp f).busyRest = s.busyRest := rfl

/-! ### The split in focus goes on elsewhere -/

@[simp] theorem State.goto_spl (s : State) (pc : Dword) : (s.goto pc).grp.spl = { s.grp.spl with pc := pc, status := .run, arrived := false } := rfl
@[simp] theorem State.goto_agenda (s : State) (pc : Dword) : (s.goto pc).agenda = s.agenda := rfl
@[simp] theorem State.goto_sched (s : State) (pc : Dword) : (s.goto pc).sched = s.sched := rfl
@[simp] theorem State.goto_turn (s : State) (pc : Dword) : (s.goto pc).turn = s.turn := rfl
@[simp] theorem State.goto_free (s : State) (pc : Dword) : (s.goto pc).free = s.free := rfl
@[simp] theorem State.goto_powered (s : State) (pc : Dword) : (s.goto pc).powered = s.powered := rfl
@[simp] theorem State.goto_postmark (s : State) (pc : Dword) : (s.goto pc).postmark = s.postmark := rfl
@[simp] theorem State.goto_others (s : State) (pc : Dword) : (s.goto pc).others = s.others := rfl
@[simp] theorem State.goto_trap (s : State) (pc : Dword) : (s.goto pc).trap = s.trap := rfl
@[simp] theorem State.goto_teams (s : State) (pc : Dword) : (s.goto pc).teams = s.teams := rfl
@[simp] theorem State.goto_nextOrder (s : State) (pc : Dword) : (s.goto pc).nextOrder = s.nextOrder := rfl
@[simp] theorem State.goto_last (s : State) (pc : Dword) : (s.goto pc).last = s.last := rfl
@[simp] theorem State.goto_lastSub (s : State) (pc : Dword) : (s.goto pc).lastSub = s.lastSub := rfl
@[simp] theorem State.goto_mem (s : State) (pc : Dword) : (s.goto pc).mem = s.mem := rfl
@[simp] theorem State.goto_teamMem (s : State) (pc : Dword) : (s.goto pc).teamMem = s.teamMem := rfl
@[simp] theorem State.goto_scratch (s : State) (pc : Dword) : (s.goto pc).scratch = s.scratch := rfl
@[simp] theorem State.goto_accMem (s : State) (pc : Dword) : (s.goto pc).accMem = s.accMem := rfl
@[simp] theorem State.goto_l1 (s : State) (pc : Dword) : (s.goto pc).l1 = s.l1 := rfl
@[simp] theorem State.goto_hostMem (s : State) (pc : Dword) : (s.goto pc).hostMem = s.hostMem := rfl
@[simp] theorem State.goto_hostCache (s : State) (pc : Dword) : (s.goto pc).hostCache = s.hostCache := rfl
@[simp] theorem State.goto_fcap (s : State) (pc : Dword) : (s.goto pc).fcap = s.fcap := rfl
@[simp] theorem State.goto_requests (s : State) (pc : Dword) : (s.goto pc).requests = s.requests := rfl
@[simp] theorem State.goto_evicting (s : State) (pc : Dword) : (s.goto pc).evicting = s.evicting := rfl
@[simp] theorem State.goto_barriers (s : State) (pc : Dword) : (s.goto pc).barriers = s.barriers := rfl
@[simp] theorem State.goto_relwin (s : State) (pc : Dword) : (s.goto pc).relwin = s.relwin := rfl
@[simp] theorem State.goto_flights (s : State) (pc : Dword) : (s.goto pc).flights = s.flights := rfl
@[simp] theorem State.goto_copies (s : State) (pc : Dword) : (s.goto pc).copies = s.copies := rfl
@[simp] theorem State.goto_nextCopy (s : State) (pc : Dword) : (s.goto pc).nextCopy = s.nextCopy := rfl
@[simp] theorem State.goto_engines (s : State) (pc : Dword) : (s.goto pc).engines = s.engines := rfl
@[simp] theorem State.goto_domains (s : State) (pc : Dword) : (s.goto pc).domains = s.domains := rfl
@[simp] theorem State.goto_assay (s : State) (pc : Dword) : (s.goto pc).assay = s.assay := rfl
@[simp] theorem State.goto_vrel (s : State) (pc : Dword) : (s.goto pc).vrel = s.vrel := rfl
@[simp] theorem State.goto_vapp (s : State) (pc : Dword) : (s.goto pc).vapp = s.vapp := rfl
@[simp] theorem State.goto_stamps (s : State) (pc : Dword) : (s.goto pc).stamps = s.stamps := rfl
@[simp] theorem State.goto_hubVec (s : State) (pc : Dword) : (s.goto pc).hubVec = s.hubVec := rfl
@[simp] theorem State.goto_markers (s : State) (pc : Dword) : (s.goto pc).markers = s.markers := rfl
@[simp] theorem State.goto_queues (s : State) (pc : Dword) : (s.goto pc).queues = s.queues := rfl
@[simp] theorem State.goto_locks (s : State) (pc : Dword) : (s.goto pc).locks = s.locks := rfl
@[simp] theorem State.goto_parkedItems (s : State) (pc : Dword) : (s.goto pc).parkedItems = s.parkedItems := rfl
@[simp] theorem State.goto_parkLater (s : State) (pc : Dword) : (s.goto pc).parkLater = s.parkLater := rfl
@[simp] theorem State.goto_walks (s : State) (pc : Dword) : (s.goto pc).walks = s.walks := rfl
@[simp] theorem State.goto_offices (s : State) (pc : Dword) : (s.goto pc).offices = s.offices := rfl
@[simp] theorem State.goto_harts (s : State) (pc : Dword) : (s.goto pc).harts = s.harts := rfl
@[simp] theorem State.goto_officeMem (s : State) (pc : Dword) : (s.goto pc).officeMem = s.officeMem := rfl
@[simp] theorem State.goto_officeCounters (s : State) (pc : Dword) : (s.goto pc).officeCounters = s.officeCounters := rfl
@[simp] theorem State.goto_contexts (s : State) (pc : Dword) : (s.goto pc).contexts = s.contexts := rfl
@[simp] theorem State.goto_queueKeys (s : State) (pc : Dword) : (s.goto pc).queueKeys = s.queueKeys := rfl
@[simp] theorem State.goto_partRegs (s : State) (pc : Dword) : (s.goto pc).partRegs = s.partRegs := rfl
@[simp] theorem State.goto_devRegs (s : State) (pc : Dword) : (s.goto pc).devRegs = s.devRegs := rfl
@[simp] theorem State.goto_devNum (s : State) (pc : Dword) : (s.goto pc).devNum = s.devNum := rfl
@[simp] theorem State.goto_parkedAccesses (s : State) (pc : Dword) : (s.goto pc).parkedAccesses = s.parkedAccesses := rfl
@[simp] theorem State.goto_nextTag (s : State) (pc : Dword) : (s.goto pc).nextTag = s.nextTag := rfl
@[simp] theorem State.goto_ats (s : State) (pc : Dword) : (s.goto pc).ats = s.ats := rfl
@[simp] theorem State.goto_tickets (s : State) (pc : Dword) : (s.goto pc).tickets = s.tickets := rfl
@[simp] theorem State.goto_calls (s : State) (pc : Dword) : (s.goto pc).calls = s.calls := rfl
@[simp] theorem State.goto_files (s : State) (pc : Dword) : (s.goto pc).files = s.files := rfl
@[simp] theorem State.goto_disk (s : State) (pc : Dword) : (s.goto pc).disk = s.disk := rfl
@[simp] theorem State.goto_planes (s : State) (pc : Dword) : (s.goto pc).planes = s.planes := rfl
@[simp] theorem State.goto_relays (s : State) (pc : Dword) : (s.goto pc).relays = s.relays := rfl
@[simp] theorem State.goto_sent (s : State) (pc : Dword) : (s.goto pc).sent = s.sent := rfl
@[simp] theorem State.goto_edgeSince (s : State) (pc : Dword) : (s.goto pc).edgeSince = s.edgeSince := rfl
@[simp] theorem State.goto_edgeClosed (s : State) (pc : Dword) : (s.goto pc).edgeClosed = s.edgeClosed := rfl
@[simp] theorem State.goto_conns (s : State) (pc : Dword) : (s.goto pc).conns = s.conns := rfl
@[simp] theorem State.goto_bar2 (s : State) (pc : Dword) : (s.goto pc).bar2 = s.bar2 := rfl
@[simp] theorem State.goto_delegated (s : State) (pc : Dword) : (s.goto pc).delegated = s.delegated := rfl
@[simp] theorem State.goto_firmware (s : State) (pc : Dword) : (s.goto pc).firmware = s.firmware := rfl
@[simp] theorem State.goto_rootEvents (s : State) (pc : Dword) : (s.goto pc).rootEvents = s.rootEvents := rfl
@[simp] theorem State.goto_life (s : State) (pc : Dword) : (s.goto pc).life = s.life := rfl
@[simp] theorem State.goto_guards (s : State) (pc : Dword) : (s.goto pc).guards = s.guards := rfl
@[simp] theorem State.goto_breakpoints (s : State) (pc : Dword) : (s.goto pc).breakpoints = s.breakpoints := rfl
@[simp] theorem State.goto_debugged (s : State) (pc : Dword) : (s.goto pc).debugged = s.debugged := rfl
@[simp] theorem State.goto_stops (s : State) (pc : Dword) : (s.goto pc).stops = s.stops := rfl
@[simp] theorem State.goto_busy (s : State) (pc : Dword) : (s.goto pc).busy = s.busy := rfl
@[simp] theorem State.goto_busyRest (s : State) (pc : Dword) : (s.goto pc).busyRest = s.busyRest := rfl

@[simp] theorem State.goto_grp_gid (s : State) (pc : Dword) : (s.goto pc).grp.gid = s.grp.gid := rfl
@[simp] theorem State.goto_grp_kdesc (s : State) (pc : Dword) : (s.goto pc).grp.kdesc = s.grp.kdesc := rfl
@[simp] theorem State.goto_grp_core (s : State) (pc : Dword) : (s.goto pc).grp.core = s.grp.core := rfl
@[simp] theorem State.goto_grp_sc (s : State) (pc : Dword) : (s.goto pc).grp.sc = s.grp.sc := rfl
@[simp] theorem State.goto_grp_slot (s : State) (pc : Dword) : (s.goto pc).grp.slot = s.grp.slot := rfl
@[simp] theorem State.goto_grp_prio (s : State) (pc : Dword) : (s.goto pc).grp.prio = s.grp.prio := rfl
@[simp] theorem State.goto_grp_order (s : State) (pc : Dword) : (s.goto pc).grp.order = s.grp.order := rfl
@[simp] theorem State.goto_grp_sibs (s : State) (pc : Dword) : (s.goto pc).grp.sibs = s.grp.sibs := rfl
@[simp] theorem State.goto_grp_frames (s : State) (pc : Dword) : (s.goto pc).grp.frames = s.grp.frames := rfl
@[simp] theorem State.goto_grp_uni (s : State) (pc : Dword) : (s.goto pc).grp.uni = s.grp.uni := rfl
@[simp] theorem State.goto_grp_preds (s : State) (pc : Dword) : (s.goto pc).grp.preds = s.grp.preds := rfl
@[simp] theorem State.goto_grp_q (s : State) (pc : Dword) : (s.goto pc).grp.q = s.grp.q := rfl
@[simp] theorem State.goto_grp_latches (s : State) (pc : Dword) : (s.goto pc).grp.latches = s.grp.latches := rfl
@[simp] theorem State.goto_grp_mode (s : State) (pc : Dword) : (s.goto pc).grp.mode = s.grp.mode := rfl
@[simp] theorem State.goto_grp_thr (s : State) (pc : Dword) : (s.goto pc).grp.thr = s.grp.thr := rfl
@[simp] theorem State.goto_grp_kovf (s : State) (pc : Dword) : (s.goto pc).grp.kovf = s.grp.kovf := rfl
@[simp] theorem State.goto_grp_spill (s : State) (pc : Dword) : (s.goto pc).grp.spill = s.grp.spill := rfl
@[simp] theorem State.goto_grp_awb (s : State) (pc : Dword) : (s.goto pc).grp.awb = s.grp.awb := rfl
@[simp] theorem State.goto_grp_awl (s : State) (pc : Dword) : (s.goto pc).grp.awl = s.grp.awl := rfl
@[simp] theorem State.goto_grp_lfsr (s : State) (pc : Dword) : (s.goto pc).grp.lfsr = s.grp.lfsr := rfl
@[simp] theorem State.goto_grp_pend (s : State) (pc : Dword) : (s.goto pc).grp.pend = s.grp.pend := rfl
@[simp] theorem State.goto_grp_specials (s : State) (pc : Dword) : (s.goto pc).grp.specials = s.grp.specials := rfl
@[simp] theorem State.goto_grp_items (s : State) (pc : Dword) : (s.goto pc).grp.items = s.grp.items := rfl
@[simp] theorem State.goto_grp_windows (s : State) (pc : Dword) : (s.goto pc).grp.windows = s.grp.windows := rfl
@[simp] theorem State.goto_grp_queue (s : State) (pc : Dword) : (s.goto pc).grp.queue = s.grp.queue := rfl
@[simp] theorem State.goto_grp_batch (s : State) (pc : Dword) : (s.goto pc).grp.batch = s.grp.batch := rfl
@[simp] theorem State.goto_grp_closed (s : State) (pc : Dword) : (s.goto pc).grp.closed = s.grp.closed := rfl
@[simp] theorem State.goto_grp_counters (s : State) (pc : Dword) : (s.goto pc).grp.counters = s.grp.counters := rfl
@[simp] theorem State.goto_grp_reads (s : State) (pc : Dword) : (s.goto pc).grp.reads = s.grp.reads := rfl
@[simp] theorem State.goto_grp_ack (s : State) (pc : Dword) : (s.goto pc).grp.ack = s.grp.ack := rfl
@[simp] theorem State.goto_grp_privBase (s : State) (pc : Dword) : (s.goto pc).grp.privBase = s.grp.privBase := rfl
@[simp] theorem State.goto_grp_domain (s : State) (pc : Dword) : (s.goto pc).grp.domain = s.grp.domain := rfl
@[simp] theorem State.goto_grp_handler (s : State) (pc : Dword) : (s.goto pc).grp.handler = s.grp.handler := rfl
@[simp] theorem State.goto_grp_parked (s : State) (pc : Dword) : (s.goto pc).grp.parked = s.grp.parked := rfl
@[simp] theorem State.goto_grp_parkRecs (s : State) (pc : Dword) : (s.goto pc).grp.parkRecs = s.grp.parkRecs := rfl
@[simp] theorem State.goto_grp_stopped (s : State) (pc : Dword) : (s.goto pc).grp.stopped = s.grp.stopped := rfl
@[simp] theorem State.goto_grp_stoppedAt (s : State) (pc : Dword) : (s.goto pc).grp.stoppedAt = s.grp.stoppedAt := rfl
@[simp] theorem State.goto_grp_attached (s : State) (pc : Dword) : (s.goto pc).grp.attached = s.grp.attached := rfl
@[simp] theorem State.goto_grp_pass (s : State) (pc : Dword) : (s.goto pc).grp.pass = s.grp.pass := rfl
@[simp] theorem State.goto_grp_skip (s : State) (pc : Dword) : (s.goto pc).grp.skip = s.grp.skip := rfl
@[simp] theorem State.goto_grp_stepping (s : State) (pc : Dword) : (s.goto pc).grp.stepping = s.grp.stepping := rfl
@[simp] theorem State.goto_grp_lastIssue (s : State) (pc : Dword) : (s.goto pc).grp.lastIssue = s.grp.lastIssue := rfl
@[simp] theorem State.goto_grp_clock (s : State) (pc : Dword) : (s.goto pc).grp.clock = s.grp.clock := rfl
@[simp] theorem State.goto_grp_held (s : State) (pc : Dword) : (s.goto pc).grp.held = s.grp.held := rfl

/-! ### The split in focus goes on behind its instruction -/

@[simp] theorem State.advance_spl (s : State) (n : Nat) :
    (s.advance n).grp.spl = { s.grp.spl with pc := s.grp.spl.pc + BitVec.ofNat 64 n, status := .run, arrived := false } := rfl
@[simp] theorem State.advance_agenda (s : State) (n : Nat) : (s.advance n).agenda = s.agenda := rfl
@[simp] theorem State.advance_sched (s : State) (n : Nat) : (s.advance n).sched = s.sched := rfl
@[simp] theorem State.advance_turn (s : State) (n : Nat) : (s.advance n).turn = s.turn := rfl
@[simp] theorem State.advance_free (s : State) (n : Nat) : (s.advance n).free = s.free := rfl
@[simp] theorem State.advance_powered (s : State) (n : Nat) : (s.advance n).powered = s.powered := rfl
@[simp] theorem State.advance_postmark (s : State) (n : Nat) : (s.advance n).postmark = s.postmark := rfl
@[simp] theorem State.advance_others (s : State) (n : Nat) : (s.advance n).others = s.others := rfl
@[simp] theorem State.advance_trap (s : State) (n : Nat) : (s.advance n).trap = s.trap := rfl
@[simp] theorem State.advance_teams (s : State) (n : Nat) : (s.advance n).teams = s.teams := rfl
@[simp] theorem State.advance_nextOrder (s : State) (n : Nat) : (s.advance n).nextOrder = s.nextOrder := rfl
@[simp] theorem State.advance_last (s : State) (n : Nat) : (s.advance n).last = s.last := rfl
@[simp] theorem State.advance_lastSub (s : State) (n : Nat) : (s.advance n).lastSub = s.lastSub := rfl
@[simp] theorem State.advance_mem (s : State) (n : Nat) : (s.advance n).mem = s.mem := rfl
@[simp] theorem State.advance_teamMem (s : State) (n : Nat) : (s.advance n).teamMem = s.teamMem := rfl
@[simp] theorem State.advance_scratch (s : State) (n : Nat) : (s.advance n).scratch = s.scratch := rfl
@[simp] theorem State.advance_accMem (s : State) (n : Nat) : (s.advance n).accMem = s.accMem := rfl
@[simp] theorem State.advance_l1 (s : State) (n : Nat) : (s.advance n).l1 = s.l1 := rfl
@[simp] theorem State.advance_hostMem (s : State) (n : Nat) : (s.advance n).hostMem = s.hostMem := rfl
@[simp] theorem State.advance_hostCache (s : State) (n : Nat) : (s.advance n).hostCache = s.hostCache := rfl
@[simp] theorem State.advance_fcap (s : State) (n : Nat) : (s.advance n).fcap = s.fcap := rfl
@[simp] theorem State.advance_requests (s : State) (n : Nat) : (s.advance n).requests = s.requests := rfl
@[simp] theorem State.advance_evicting (s : State) (n : Nat) : (s.advance n).evicting = s.evicting := rfl
@[simp] theorem State.advance_barriers (s : State) (n : Nat) : (s.advance n).barriers = s.barriers := rfl
@[simp] theorem State.advance_relwin (s : State) (n : Nat) : (s.advance n).relwin = s.relwin := rfl
@[simp] theorem State.advance_flights (s : State) (n : Nat) : (s.advance n).flights = s.flights := rfl
@[simp] theorem State.advance_copies (s : State) (n : Nat) : (s.advance n).copies = s.copies := rfl
@[simp] theorem State.advance_nextCopy (s : State) (n : Nat) : (s.advance n).nextCopy = s.nextCopy := rfl
@[simp] theorem State.advance_engines (s : State) (n : Nat) : (s.advance n).engines = s.engines := rfl
@[simp] theorem State.advance_domains (s : State) (n : Nat) : (s.advance n).domains = s.domains := rfl
@[simp] theorem State.advance_assay (s : State) (n : Nat) : (s.advance n).assay = s.assay := rfl
@[simp] theorem State.advance_vrel (s : State) (n : Nat) : (s.advance n).vrel = s.vrel := rfl
@[simp] theorem State.advance_vapp (s : State) (n : Nat) : (s.advance n).vapp = s.vapp := rfl
@[simp] theorem State.advance_stamps (s : State) (n : Nat) : (s.advance n).stamps = s.stamps := rfl
@[simp] theorem State.advance_hubVec (s : State) (n : Nat) : (s.advance n).hubVec = s.hubVec := rfl
@[simp] theorem State.advance_markers (s : State) (n : Nat) : (s.advance n).markers = s.markers := rfl
@[simp] theorem State.advance_queues (s : State) (n : Nat) : (s.advance n).queues = s.queues := rfl
@[simp] theorem State.advance_locks (s : State) (n : Nat) : (s.advance n).locks = s.locks := rfl
@[simp] theorem State.advance_parkedItems (s : State) (n : Nat) : (s.advance n).parkedItems = s.parkedItems := rfl
@[simp] theorem State.advance_parkLater (s : State) (n : Nat) : (s.advance n).parkLater = s.parkLater := rfl
@[simp] theorem State.advance_walks (s : State) (n : Nat) : (s.advance n).walks = s.walks := rfl
@[simp] theorem State.advance_offices (s : State) (n : Nat) : (s.advance n).offices = s.offices := rfl
@[simp] theorem State.advance_harts (s : State) (n : Nat) : (s.advance n).harts = s.harts := rfl
@[simp] theorem State.advance_officeMem (s : State) (n : Nat) : (s.advance n).officeMem = s.officeMem := rfl
@[simp] theorem State.advance_officeCounters (s : State) (n : Nat) : (s.advance n).officeCounters = s.officeCounters := rfl
@[simp] theorem State.advance_contexts (s : State) (n : Nat) : (s.advance n).contexts = s.contexts := rfl
@[simp] theorem State.advance_queueKeys (s : State) (n : Nat) : (s.advance n).queueKeys = s.queueKeys := rfl
@[simp] theorem State.advance_partRegs (s : State) (n : Nat) : (s.advance n).partRegs = s.partRegs := rfl
@[simp] theorem State.advance_devRegs (s : State) (n : Nat) : (s.advance n).devRegs = s.devRegs := rfl
@[simp] theorem State.advance_devNum (s : State) (n : Nat) : (s.advance n).devNum = s.devNum := rfl
@[simp] theorem State.advance_parkedAccesses (s : State) (n : Nat) : (s.advance n).parkedAccesses = s.parkedAccesses := rfl
@[simp] theorem State.advance_nextTag (s : State) (n : Nat) : (s.advance n).nextTag = s.nextTag := rfl
@[simp] theorem State.advance_ats (s : State) (n : Nat) : (s.advance n).ats = s.ats := rfl
@[simp] theorem State.advance_tickets (s : State) (n : Nat) : (s.advance n).tickets = s.tickets := rfl
@[simp] theorem State.advance_calls (s : State) (n : Nat) : (s.advance n).calls = s.calls := rfl
@[simp] theorem State.advance_files (s : State) (n : Nat) : (s.advance n).files = s.files := rfl
@[simp] theorem State.advance_disk (s : State) (n : Nat) : (s.advance n).disk = s.disk := rfl
@[simp] theorem State.advance_planes (s : State) (n : Nat) : (s.advance n).planes = s.planes := rfl
@[simp] theorem State.advance_relays (s : State) (n : Nat) : (s.advance n).relays = s.relays := rfl
@[simp] theorem State.advance_sent (s : State) (n : Nat) : (s.advance n).sent = s.sent := rfl
@[simp] theorem State.advance_edgeSince (s : State) (n : Nat) : (s.advance n).edgeSince = s.edgeSince := rfl
@[simp] theorem State.advance_edgeClosed (s : State) (n : Nat) : (s.advance n).edgeClosed = s.edgeClosed := rfl
@[simp] theorem State.advance_conns (s : State) (n : Nat) : (s.advance n).conns = s.conns := rfl
@[simp] theorem State.advance_bar2 (s : State) (n : Nat) : (s.advance n).bar2 = s.bar2 := rfl
@[simp] theorem State.advance_delegated (s : State) (n : Nat) : (s.advance n).delegated = s.delegated := rfl
@[simp] theorem State.advance_firmware (s : State) (n : Nat) : (s.advance n).firmware = s.firmware := rfl
@[simp] theorem State.advance_rootEvents (s : State) (n : Nat) : (s.advance n).rootEvents = s.rootEvents := rfl
@[simp] theorem State.advance_life (s : State) (n : Nat) : (s.advance n).life = s.life := rfl
@[simp] theorem State.advance_guards (s : State) (n : Nat) : (s.advance n).guards = s.guards := rfl
@[simp] theorem State.advance_breakpoints (s : State) (n : Nat) : (s.advance n).breakpoints = s.breakpoints := rfl
@[simp] theorem State.advance_debugged (s : State) (n : Nat) : (s.advance n).debugged = s.debugged := rfl
@[simp] theorem State.advance_stops (s : State) (n : Nat) : (s.advance n).stops = s.stops := rfl
@[simp] theorem State.advance_busy (s : State) (n : Nat) : (s.advance n).busy = s.busy := rfl
@[simp] theorem State.advance_busyRest (s : State) (n : Nat) : (s.advance n).busyRest = s.busyRest := rfl

@[simp] theorem State.advance_grp_gid (s : State) (n : Nat) : (s.advance n).grp.gid = s.grp.gid := rfl
@[simp] theorem State.advance_grp_kdesc (s : State) (n : Nat) : (s.advance n).grp.kdesc = s.grp.kdesc := rfl
@[simp] theorem State.advance_grp_core (s : State) (n : Nat) : (s.advance n).grp.core = s.grp.core := rfl
@[simp] theorem State.advance_grp_sc (s : State) (n : Nat) : (s.advance n).grp.sc = s.grp.sc := rfl
@[simp] theorem State.advance_grp_slot (s : State) (n : Nat) : (s.advance n).grp.slot = s.grp.slot := rfl
@[simp] theorem State.advance_grp_prio (s : State) (n : Nat) : (s.advance n).grp.prio = s.grp.prio := rfl
@[simp] theorem State.advance_grp_order (s : State) (n : Nat) : (s.advance n).grp.order = s.grp.order := rfl
@[simp] theorem State.advance_grp_sibs (s : State) (n : Nat) : (s.advance n).grp.sibs = s.grp.sibs := rfl
@[simp] theorem State.advance_grp_frames (s : State) (n : Nat) : (s.advance n).grp.frames = s.grp.frames := rfl
@[simp] theorem State.advance_grp_uni (s : State) (n : Nat) : (s.advance n).grp.uni = s.grp.uni := rfl
@[simp] theorem State.advance_grp_preds (s : State) (n : Nat) : (s.advance n).grp.preds = s.grp.preds := rfl
@[simp] theorem State.advance_grp_q (s : State) (n : Nat) : (s.advance n).grp.q = s.grp.q := rfl
@[simp] theorem State.advance_grp_latches (s : State) (n : Nat) : (s.advance n).grp.latches = s.grp.latches := rfl
@[simp] theorem State.advance_grp_mode (s : State) (n : Nat) : (s.advance n).grp.mode = s.grp.mode := rfl
@[simp] theorem State.advance_grp_thr (s : State) (n : Nat) : (s.advance n).grp.thr = s.grp.thr := rfl
@[simp] theorem State.advance_grp_kovf (s : State) (n : Nat) : (s.advance n).grp.kovf = s.grp.kovf := rfl
@[simp] theorem State.advance_grp_spill (s : State) (n : Nat) : (s.advance n).grp.spill = s.grp.spill := rfl
@[simp] theorem State.advance_grp_awb (s : State) (n : Nat) : (s.advance n).grp.awb = s.grp.awb := rfl
@[simp] theorem State.advance_grp_awl (s : State) (n : Nat) : (s.advance n).grp.awl = s.grp.awl := rfl
@[simp] theorem State.advance_grp_lfsr (s : State) (n : Nat) : (s.advance n).grp.lfsr = s.grp.lfsr := rfl
@[simp] theorem State.advance_grp_pend (s : State) (n : Nat) : (s.advance n).grp.pend = s.grp.pend := rfl
@[simp] theorem State.advance_grp_specials (s : State) (n : Nat) : (s.advance n).grp.specials = s.grp.specials := rfl
@[simp] theorem State.advance_grp_items (s : State) (n : Nat) : (s.advance n).grp.items = s.grp.items := rfl
@[simp] theorem State.advance_grp_windows (s : State) (n : Nat) : (s.advance n).grp.windows = s.grp.windows := rfl
@[simp] theorem State.advance_grp_queue (s : State) (n : Nat) : (s.advance n).grp.queue = s.grp.queue := rfl
@[simp] theorem State.advance_grp_batch (s : State) (n : Nat) : (s.advance n).grp.batch = s.grp.batch := rfl
@[simp] theorem State.advance_grp_closed (s : State) (n : Nat) : (s.advance n).grp.closed = s.grp.closed := rfl
@[simp] theorem State.advance_grp_counters (s : State) (n : Nat) : (s.advance n).grp.counters = s.grp.counters := rfl
@[simp] theorem State.advance_grp_reads (s : State) (n : Nat) : (s.advance n).grp.reads = s.grp.reads := rfl
@[simp] theorem State.advance_grp_ack (s : State) (n : Nat) : (s.advance n).grp.ack = s.grp.ack := rfl
@[simp] theorem State.advance_grp_privBase (s : State) (n : Nat) : (s.advance n).grp.privBase = s.grp.privBase := rfl
@[simp] theorem State.advance_grp_domain (s : State) (n : Nat) : (s.advance n).grp.domain = s.grp.domain := rfl
@[simp] theorem State.advance_grp_handler (s : State) (n : Nat) : (s.advance n).grp.handler = s.grp.handler := rfl
@[simp] theorem State.advance_grp_parked (s : State) (n : Nat) : (s.advance n).grp.parked = s.grp.parked := rfl
@[simp] theorem State.advance_grp_parkRecs (s : State) (n : Nat) : (s.advance n).grp.parkRecs = s.grp.parkRecs := rfl
@[simp] theorem State.advance_grp_stopped (s : State) (n : Nat) : (s.advance n).grp.stopped = s.grp.stopped := rfl
@[simp] theorem State.advance_grp_stoppedAt (s : State) (n : Nat) : (s.advance n).grp.stoppedAt = s.grp.stoppedAt := rfl
@[simp] theorem State.advance_grp_attached (s : State) (n : Nat) : (s.advance n).grp.attached = s.grp.attached := rfl
@[simp] theorem State.advance_grp_pass (s : State) (n : Nat) : (s.advance n).grp.pass = s.grp.pass := rfl
@[simp] theorem State.advance_grp_skip (s : State) (n : Nat) : (s.advance n).grp.skip = s.grp.skip := rfl
@[simp] theorem State.advance_grp_stepping (s : State) (n : Nat) : (s.advance n).grp.stepping = s.grp.stepping := rfl
@[simp] theorem State.advance_grp_lastIssue (s : State) (n : Nat) : (s.advance n).grp.lastIssue = s.grp.lastIssue := rfl
@[simp] theorem State.advance_grp_clock (s : State) (n : Nat) : (s.advance n).grp.clock = s.grp.clock := rfl
@[simp] theorem State.advance_grp_held (s : State) (n : Nat) : (s.advance n).grp.held = s.grp.held := rfl

@[simp] theorem State.done_eq (s : State) (n : Nat) : s.done n = .next (s.advance n) := rfl

/-! ### The split in focus waits -/

@[simp] theorem State.waitFor_spl (s : State) (w : Why) :
    (s.waitFor w).grp.spl = { s.grp.spl with status := .waiting w, since := s.postmark.toNat } := rfl
@[simp] theorem State.waitFor_agenda (s : State) (w : Why) : (s.waitFor w).agenda = s.agenda := rfl
@[simp] theorem State.waitFor_sched (s : State) (w : Why) : (s.waitFor w).sched = s.sched := rfl
@[simp] theorem State.waitFor_turn (s : State) (w : Why) : (s.waitFor w).turn = s.turn := rfl
@[simp] theorem State.waitFor_free (s : State) (w : Why) : (s.waitFor w).free = s.free := rfl
@[simp] theorem State.waitFor_powered (s : State) (w : Why) : (s.waitFor w).powered = s.powered := rfl
@[simp] theorem State.waitFor_postmark (s : State) (w : Why) : (s.waitFor w).postmark = s.postmark := rfl
@[simp] theorem State.waitFor_others (s : State) (w : Why) : (s.waitFor w).others = s.others := rfl
@[simp] theorem State.waitFor_trap (s : State) (w : Why) : (s.waitFor w).trap = s.trap := rfl
@[simp] theorem State.waitFor_teams (s : State) (w : Why) : (s.waitFor w).teams = s.teams := rfl
@[simp] theorem State.waitFor_nextOrder (s : State) (w : Why) : (s.waitFor w).nextOrder = s.nextOrder := rfl
@[simp] theorem State.waitFor_last (s : State) (w : Why) : (s.waitFor w).last = s.last := rfl
@[simp] theorem State.waitFor_lastSub (s : State) (w : Why) : (s.waitFor w).lastSub = s.lastSub := rfl
@[simp] theorem State.waitFor_mem (s : State) (w : Why) : (s.waitFor w).mem = s.mem := rfl
@[simp] theorem State.waitFor_teamMem (s : State) (w : Why) : (s.waitFor w).teamMem = s.teamMem := rfl
@[simp] theorem State.waitFor_scratch (s : State) (w : Why) : (s.waitFor w).scratch = s.scratch := rfl
@[simp] theorem State.waitFor_accMem (s : State) (w : Why) : (s.waitFor w).accMem = s.accMem := rfl
@[simp] theorem State.waitFor_l1 (s : State) (w : Why) : (s.waitFor w).l1 = s.l1 := rfl
@[simp] theorem State.waitFor_hostMem (s : State) (w : Why) : (s.waitFor w).hostMem = s.hostMem := rfl
@[simp] theorem State.waitFor_hostCache (s : State) (w : Why) : (s.waitFor w).hostCache = s.hostCache := rfl
@[simp] theorem State.waitFor_fcap (s : State) (w : Why) : (s.waitFor w).fcap = s.fcap := rfl
@[simp] theorem State.waitFor_requests (s : State) (w : Why) : (s.waitFor w).requests = s.requests := rfl
@[simp] theorem State.waitFor_evicting (s : State) (w : Why) : (s.waitFor w).evicting = s.evicting := rfl
@[simp] theorem State.waitFor_barriers (s : State) (w : Why) : (s.waitFor w).barriers = s.barriers := rfl
@[simp] theorem State.waitFor_relwin (s : State) (w : Why) : (s.waitFor w).relwin = s.relwin := rfl
@[simp] theorem State.waitFor_flights (s : State) (w : Why) : (s.waitFor w).flights = s.flights := rfl
@[simp] theorem State.waitFor_copies (s : State) (w : Why) : (s.waitFor w).copies = s.copies := rfl
@[simp] theorem State.waitFor_nextCopy (s : State) (w : Why) : (s.waitFor w).nextCopy = s.nextCopy := rfl
@[simp] theorem State.waitFor_engines (s : State) (w : Why) : (s.waitFor w).engines = s.engines := rfl
@[simp] theorem State.waitFor_domains (s : State) (w : Why) : (s.waitFor w).domains = s.domains := rfl
@[simp] theorem State.waitFor_assay (s : State) (w : Why) : (s.waitFor w).assay = s.assay := rfl
@[simp] theorem State.waitFor_vrel (s : State) (w : Why) : (s.waitFor w).vrel = s.vrel := rfl
@[simp] theorem State.waitFor_vapp (s : State) (w : Why) : (s.waitFor w).vapp = s.vapp := rfl
@[simp] theorem State.waitFor_stamps (s : State) (w : Why) : (s.waitFor w).stamps = s.stamps := rfl
@[simp] theorem State.waitFor_hubVec (s : State) (w : Why) : (s.waitFor w).hubVec = s.hubVec := rfl
@[simp] theorem State.waitFor_markers (s : State) (w : Why) : (s.waitFor w).markers = s.markers := rfl
@[simp] theorem State.waitFor_queues (s : State) (w : Why) : (s.waitFor w).queues = s.queues := rfl
@[simp] theorem State.waitFor_locks (s : State) (w : Why) : (s.waitFor w).locks = s.locks := rfl
@[simp] theorem State.waitFor_parkedItems (s : State) (w : Why) : (s.waitFor w).parkedItems = s.parkedItems := rfl
@[simp] theorem State.waitFor_parkLater (s : State) (w : Why) : (s.waitFor w).parkLater = s.parkLater := rfl
@[simp] theorem State.waitFor_walks (s : State) (w : Why) : (s.waitFor w).walks = s.walks := rfl
@[simp] theorem State.waitFor_offices (s : State) (w : Why) : (s.waitFor w).offices = s.offices := rfl
@[simp] theorem State.waitFor_harts (s : State) (w : Why) : (s.waitFor w).harts = s.harts := rfl
@[simp] theorem State.waitFor_officeMem (s : State) (w : Why) : (s.waitFor w).officeMem = s.officeMem := rfl
@[simp] theorem State.waitFor_officeCounters (s : State) (w : Why) : (s.waitFor w).officeCounters = s.officeCounters := rfl
@[simp] theorem State.waitFor_contexts (s : State) (w : Why) : (s.waitFor w).contexts = s.contexts := rfl
@[simp] theorem State.waitFor_queueKeys (s : State) (w : Why) : (s.waitFor w).queueKeys = s.queueKeys := rfl
@[simp] theorem State.waitFor_partRegs (s : State) (w : Why) : (s.waitFor w).partRegs = s.partRegs := rfl
@[simp] theorem State.waitFor_devRegs (s : State) (w : Why) : (s.waitFor w).devRegs = s.devRegs := rfl
@[simp] theorem State.waitFor_devNum (s : State) (w : Why) : (s.waitFor w).devNum = s.devNum := rfl
@[simp] theorem State.waitFor_parkedAccesses (s : State) (w : Why) : (s.waitFor w).parkedAccesses = s.parkedAccesses := rfl
@[simp] theorem State.waitFor_nextTag (s : State) (w : Why) : (s.waitFor w).nextTag = s.nextTag := rfl
@[simp] theorem State.waitFor_ats (s : State) (w : Why) : (s.waitFor w).ats = s.ats := rfl
@[simp] theorem State.waitFor_tickets (s : State) (w : Why) : (s.waitFor w).tickets = s.tickets := rfl
@[simp] theorem State.waitFor_calls (s : State) (w : Why) : (s.waitFor w).calls = s.calls := rfl
@[simp] theorem State.waitFor_files (s : State) (w : Why) : (s.waitFor w).files = s.files := rfl
@[simp] theorem State.waitFor_disk (s : State) (w : Why) : (s.waitFor w).disk = s.disk := rfl
@[simp] theorem State.waitFor_planes (s : State) (w : Why) : (s.waitFor w).planes = s.planes := rfl
@[simp] theorem State.waitFor_relays (s : State) (w : Why) : (s.waitFor w).relays = s.relays := rfl
@[simp] theorem State.waitFor_sent (s : State) (w : Why) : (s.waitFor w).sent = s.sent := rfl
@[simp] theorem State.waitFor_edgeSince (s : State) (w : Why) : (s.waitFor w).edgeSince = s.edgeSince := rfl
@[simp] theorem State.waitFor_edgeClosed (s : State) (w : Why) : (s.waitFor w).edgeClosed = s.edgeClosed := rfl
@[simp] theorem State.waitFor_conns (s : State) (w : Why) : (s.waitFor w).conns = s.conns := rfl
@[simp] theorem State.waitFor_bar2 (s : State) (w : Why) : (s.waitFor w).bar2 = s.bar2 := rfl
@[simp] theorem State.waitFor_delegated (s : State) (w : Why) : (s.waitFor w).delegated = s.delegated := rfl
@[simp] theorem State.waitFor_firmware (s : State) (w : Why) : (s.waitFor w).firmware = s.firmware := rfl
@[simp] theorem State.waitFor_rootEvents (s : State) (w : Why) : (s.waitFor w).rootEvents = s.rootEvents := rfl
@[simp] theorem State.waitFor_life (s : State) (w : Why) : (s.waitFor w).life = s.life := rfl
@[simp] theorem State.waitFor_guards (s : State) (w : Why) : (s.waitFor w).guards = s.guards := rfl
@[simp] theorem State.waitFor_breakpoints (s : State) (w : Why) : (s.waitFor w).breakpoints = s.breakpoints := rfl
@[simp] theorem State.waitFor_debugged (s : State) (w : Why) : (s.waitFor w).debugged = s.debugged := rfl
@[simp] theorem State.waitFor_stops (s : State) (w : Why) : (s.waitFor w).stops = s.stops := rfl
@[simp] theorem State.waitFor_busy (s : State) (w : Why) : (s.waitFor w).busy = s.busy := rfl
@[simp] theorem State.waitFor_busyRest (s : State) (w : Why) : (s.waitFor w).busyRest = s.busyRest := rfl

@[simp] theorem State.waitFor_grp_gid (s : State) (w : Why) : (s.waitFor w).grp.gid = s.grp.gid := rfl
@[simp] theorem State.waitFor_grp_kdesc (s : State) (w : Why) : (s.waitFor w).grp.kdesc = s.grp.kdesc := rfl
@[simp] theorem State.waitFor_grp_core (s : State) (w : Why) : (s.waitFor w).grp.core = s.grp.core := rfl
@[simp] theorem State.waitFor_grp_sc (s : State) (w : Why) : (s.waitFor w).grp.sc = s.grp.sc := rfl
@[simp] theorem State.waitFor_grp_slot (s : State) (w : Why) : (s.waitFor w).grp.slot = s.grp.slot := rfl
@[simp] theorem State.waitFor_grp_prio (s : State) (w : Why) : (s.waitFor w).grp.prio = s.grp.prio := rfl
@[simp] theorem State.waitFor_grp_order (s : State) (w : Why) : (s.waitFor w).grp.order = s.grp.order := rfl
@[simp] theorem State.waitFor_grp_sibs (s : State) (w : Why) : (s.waitFor w).grp.sibs = s.grp.sibs := rfl
@[simp] theorem State.waitFor_grp_frames (s : State) (w : Why) : (s.waitFor w).grp.frames = s.grp.frames := rfl
@[simp] theorem State.waitFor_grp_uni (s : State) (w : Why) : (s.waitFor w).grp.uni = s.grp.uni := rfl
@[simp] theorem State.waitFor_grp_preds (s : State) (w : Why) : (s.waitFor w).grp.preds = s.grp.preds := rfl
@[simp] theorem State.waitFor_grp_q (s : State) (w : Why) : (s.waitFor w).grp.q = s.grp.q := rfl
@[simp] theorem State.waitFor_grp_latches (s : State) (w : Why) : (s.waitFor w).grp.latches = s.grp.latches := rfl
@[simp] theorem State.waitFor_grp_mode (s : State) (w : Why) : (s.waitFor w).grp.mode = s.grp.mode := rfl
@[simp] theorem State.waitFor_grp_thr (s : State) (w : Why) : (s.waitFor w).grp.thr = s.grp.thr := rfl
@[simp] theorem State.waitFor_grp_kovf (s : State) (w : Why) : (s.waitFor w).grp.kovf = s.grp.kovf := rfl
@[simp] theorem State.waitFor_grp_spill (s : State) (w : Why) : (s.waitFor w).grp.spill = s.grp.spill := rfl
@[simp] theorem State.waitFor_grp_awb (s : State) (w : Why) : (s.waitFor w).grp.awb = s.grp.awb := rfl
@[simp] theorem State.waitFor_grp_awl (s : State) (w : Why) : (s.waitFor w).grp.awl = s.grp.awl := rfl
@[simp] theorem State.waitFor_grp_lfsr (s : State) (w : Why) : (s.waitFor w).grp.lfsr = s.grp.lfsr := rfl
@[simp] theorem State.waitFor_grp_pend (s : State) (w : Why) : (s.waitFor w).grp.pend = s.grp.pend := rfl
@[simp] theorem State.waitFor_grp_specials (s : State) (w : Why) : (s.waitFor w).grp.specials = s.grp.specials := rfl
@[simp] theorem State.waitFor_grp_items (s : State) (w : Why) : (s.waitFor w).grp.items = s.grp.items := rfl
@[simp] theorem State.waitFor_grp_windows (s : State) (w : Why) : (s.waitFor w).grp.windows = s.grp.windows := rfl
@[simp] theorem State.waitFor_grp_queue (s : State) (w : Why) : (s.waitFor w).grp.queue = s.grp.queue := rfl
@[simp] theorem State.waitFor_grp_batch (s : State) (w : Why) : (s.waitFor w).grp.batch = s.grp.batch := rfl
@[simp] theorem State.waitFor_grp_closed (s : State) (w : Why) : (s.waitFor w).grp.closed = s.grp.closed := rfl
@[simp] theorem State.waitFor_grp_counters (s : State) (w : Why) : (s.waitFor w).grp.counters = s.grp.counters := rfl
@[simp] theorem State.waitFor_grp_reads (s : State) (w : Why) : (s.waitFor w).grp.reads = s.grp.reads := rfl
@[simp] theorem State.waitFor_grp_ack (s : State) (w : Why) : (s.waitFor w).grp.ack = s.grp.ack := rfl
@[simp] theorem State.waitFor_grp_privBase (s : State) (w : Why) : (s.waitFor w).grp.privBase = s.grp.privBase := rfl
@[simp] theorem State.waitFor_grp_domain (s : State) (w : Why) : (s.waitFor w).grp.domain = s.grp.domain := rfl
@[simp] theorem State.waitFor_grp_handler (s : State) (w : Why) : (s.waitFor w).grp.handler = s.grp.handler := rfl
@[simp] theorem State.waitFor_grp_parked (s : State) (w : Why) : (s.waitFor w).grp.parked = s.grp.parked := rfl
@[simp] theorem State.waitFor_grp_parkRecs (s : State) (w : Why) : (s.waitFor w).grp.parkRecs = s.grp.parkRecs := rfl
@[simp] theorem State.waitFor_grp_stopped (s : State) (w : Why) : (s.waitFor w).grp.stopped = s.grp.stopped := rfl
@[simp] theorem State.waitFor_grp_stoppedAt (s : State) (w : Why) : (s.waitFor w).grp.stoppedAt = s.grp.stoppedAt := rfl
@[simp] theorem State.waitFor_grp_attached (s : State) (w : Why) : (s.waitFor w).grp.attached = s.grp.attached := rfl
@[simp] theorem State.waitFor_grp_pass (s : State) (w : Why) : (s.waitFor w).grp.pass = s.grp.pass := rfl
@[simp] theorem State.waitFor_grp_skip (s : State) (w : Why) : (s.waitFor w).grp.skip = s.grp.skip := rfl
@[simp] theorem State.waitFor_grp_stepping (s : State) (w : Why) : (s.waitFor w).grp.stepping = s.grp.stepping := rfl
@[simp] theorem State.waitFor_grp_lastIssue (s : State) (w : Why) : (s.waitFor w).grp.lastIssue = s.grp.lastIssue := rfl
@[simp] theorem State.waitFor_grp_clock (s : State) (w : Why) : (s.waitFor w).grp.clock = s.grp.clock := rfl
@[simp] theorem State.waitFor_grp_held (s : State) (w : Why) : (s.waitFor w).grp.held = s.grp.held := rfl

@[simp] theorem State.stay_eq (s : State) (w : Why) : s.stay w = .next (s.waitFor w) := rfl

/-! ### A latch is pushed -/

@[simp] theorem Group.pushLatch_latches (g : Group) (r : Sparse Dword) : (g.pushLatch r).latches = (r :: g.latches).take 4 := rfl
@[simp] theorem Group.pushLatch_gid (g : Group) (r : Sparse Dword) : (g.pushLatch r).gid = g.gid := rfl
@[simp] theorem Group.pushLatch_kdesc (g : Group) (r : Sparse Dword) : (g.pushLatch r).kdesc = g.kdesc := rfl
@[simp] theorem Group.pushLatch_core (g : Group) (r : Sparse Dword) : (g.pushLatch r).core = g.core := rfl
@[simp] theorem Group.pushLatch_sc (g : Group) (r : Sparse Dword) : (g.pushLatch r).sc = g.sc := rfl
@[simp] theorem Group.pushLatch_slot (g : Group) (r : Sparse Dword) : (g.pushLatch r).slot = g.slot := rfl
@[simp] theorem Group.pushLatch_prio (g : Group) (r : Sparse Dword) : (g.pushLatch r).prio = g.prio := rfl
@[simp] theorem Group.pushLatch_order (g : Group) (r : Sparse Dword) : (g.pushLatch r).order = g.order := rfl
@[simp] theorem Group.pushLatch_spl (g : Group) (r : Sparse Dword) : (g.pushLatch r).spl = g.spl := rfl
@[simp] theorem Group.pushLatch_sibs (g : Group) (r : Sparse Dword) : (g.pushLatch r).sibs = g.sibs := rfl
@[simp] theorem Group.pushLatch_frames (g : Group) (r : Sparse Dword) : (g.pushLatch r).frames = g.frames := rfl
@[simp] theorem Group.pushLatch_uni (g : Group) (r : Sparse Dword) : (g.pushLatch r).uni = g.uni := rfl
@[simp] theorem Group.pushLatch_preds (g : Group) (r : Sparse Dword) : (g.pushLatch r).preds = g.preds := rfl
@[simp] theorem Group.pushLatch_q (g : Group) (r : Sparse Dword) : (g.pushLatch r).q = g.q := rfl
@[simp] theorem Group.pushLatch_mode (g : Group) (r : Sparse Dword) : (g.pushLatch r).mode = g.mode := rfl
@[simp] theorem Group.pushLatch_thr (g : Group) (r : Sparse Dword) : (g.pushLatch r).thr = g.thr := rfl
@[simp] theorem Group.pushLatch_kovf (g : Group) (r : Sparse Dword) : (g.pushLatch r).kovf = g.kovf := rfl
@[simp] theorem Group.pushLatch_spill (g : Group) (r : Sparse Dword) : (g.pushLatch r).spill = g.spill := rfl
@[simp] theorem Group.pushLatch_awb (g : Group) (r : Sparse Dword) : (g.pushLatch r).awb = g.awb := rfl
@[simp] theorem Group.pushLatch_awl (g : Group) (r : Sparse Dword) : (g.pushLatch r).awl = g.awl := rfl
@[simp] theorem Group.pushLatch_lfsr (g : Group) (r : Sparse Dword) : (g.pushLatch r).lfsr = g.lfsr := rfl
@[simp] theorem Group.pushLatch_pend (g : Group) (r : Sparse Dword) : (g.pushLatch r).pend = g.pend := rfl
@[simp] theorem Group.pushLatch_specials (g : Group) (r : Sparse Dword) : (g.pushLatch r).specials = g.specials := rfl
@[simp] theorem Group.pushLatch_items (g : Group) (r : Sparse Dword) : (g.pushLatch r).items = g.items := rfl
@[simp] theorem Group.pushLatch_windows (g : Group) (r : Sparse Dword) : (g.pushLatch r).windows = g.windows := rfl
@[simp] theorem Group.pushLatch_queue (g : Group) (r : Sparse Dword) : (g.pushLatch r).queue = g.queue := rfl
@[simp] theorem Group.pushLatch_batch (g : Group) (r : Sparse Dword) : (g.pushLatch r).batch = g.batch := rfl
@[simp] theorem Group.pushLatch_closed (g : Group) (r : Sparse Dword) : (g.pushLatch r).closed = g.closed := rfl
@[simp] theorem Group.pushLatch_counters (g : Group) (r : Sparse Dword) : (g.pushLatch r).counters = g.counters := rfl
@[simp] theorem Group.pushLatch_reads (g : Group) (r : Sparse Dword) : (g.pushLatch r).reads = g.reads := rfl
@[simp] theorem Group.pushLatch_ack (g : Group) (r : Sparse Dword) : (g.pushLatch r).ack = g.ack := rfl
@[simp] theorem Group.pushLatch_privBase (g : Group) (r : Sparse Dword) : (g.pushLatch r).privBase = g.privBase := rfl
@[simp] theorem Group.pushLatch_domain (g : Group) (r : Sparse Dword) : (g.pushLatch r).domain = g.domain := rfl
@[simp] theorem Group.pushLatch_handler (g : Group) (r : Sparse Dword) : (g.pushLatch r).handler = g.handler := rfl
@[simp] theorem Group.pushLatch_parked (g : Group) (r : Sparse Dword) : (g.pushLatch r).parked = g.parked := rfl
@[simp] theorem Group.pushLatch_parkRecs (g : Group) (r : Sparse Dword) : (g.pushLatch r).parkRecs = g.parkRecs := rfl
@[simp] theorem Group.pushLatch_stopped (g : Group) (r : Sparse Dword) : (g.pushLatch r).stopped = g.stopped := rfl
@[simp] theorem Group.pushLatch_stoppedAt (g : Group) (r : Sparse Dword) : (g.pushLatch r).stoppedAt = g.stoppedAt := rfl
@[simp] theorem Group.pushLatch_attached (g : Group) (r : Sparse Dword) : (g.pushLatch r).attached = g.attached := rfl
@[simp] theorem Group.pushLatch_pass (g : Group) (r : Sparse Dword) : (g.pushLatch r).pass = g.pass := rfl
@[simp] theorem Group.pushLatch_skip (g : Group) (r : Sparse Dword) : (g.pushLatch r).skip = g.skip := rfl
@[simp] theorem Group.pushLatch_stepping (g : Group) (r : Sparse Dword) : (g.pushLatch r).stepping = g.stepping := rfl
@[simp] theorem Group.pushLatch_lastIssue (g : Group) (r : Sparse Dword) : (g.pushLatch r).lastIssue = g.lastIssue := rfl
@[simp] theorem Group.pushLatch_clock (g : Group) (r : Sparse Dword) : (g.pushLatch r).clock = g.clock := rfl
@[simp] theorem Group.pushLatch_held (g : Group) (r : Sparse Dword) : (g.pushLatch r).held = g.held := rfl

/-! ### A write becomes pending -/

@[simp] theorem Group.addPend_pend (g : Group) (d : PendDest) (m : Mask) (v : Dword) (w : Bool) (o : Sparse Word) :
    (g.addPend d m v w o).pend
      = g.pend ++ [{ sp := g.spl.num, dest := d, mask := m, old := v, wait := w, age := 0, op := g.clock, was := o, late := [] }] := rfl
@[simp] theorem Group.addPend_gid (g : Group) (d : PendDest) (m : Mask) (v : Dword) (w : Bool) (o : Sparse Word) : (g.addPend d m v w o).gid = g.gid := rfl
@[simp] theorem Group.addPend_kdesc (g : Group) (d : PendDest) (m : Mask) (v : Dword) (w : Bool) (o : Sparse Word) : (g.addPend d m v w o).kdesc = g.kdesc := rfl
@[simp] theorem Group.addPend_core (g : Group) (d : PendDest) (m : Mask) (v : Dword) (w : Bool) (o : Sparse Word) : (g.addPend d m v w o).core = g.core := rfl
@[simp] theorem Group.addPend_sc (g : Group) (d : PendDest) (m : Mask) (v : Dword) (w : Bool) (o : Sparse Word) : (g.addPend d m v w o).sc = g.sc := rfl
@[simp] theorem Group.addPend_slot (g : Group) (d : PendDest) (m : Mask) (v : Dword) (w : Bool) (o : Sparse Word) : (g.addPend d m v w o).slot = g.slot := rfl
@[simp] theorem Group.addPend_prio (g : Group) (d : PendDest) (m : Mask) (v : Dword) (w : Bool) (o : Sparse Word) : (g.addPend d m v w o).prio = g.prio := rfl
@[simp] theorem Group.addPend_order (g : Group) (d : PendDest) (m : Mask) (v : Dword) (w : Bool) (o : Sparse Word) : (g.addPend d m v w o).order = g.order := rfl
@[simp] theorem Group.addPend_spl (g : Group) (d : PendDest) (m : Mask) (v : Dword) (w : Bool) (o : Sparse Word) : (g.addPend d m v w o).spl = g.spl := rfl
@[simp] theorem Group.addPend_sibs (g : Group) (d : PendDest) (m : Mask) (v : Dword) (w : Bool) (o : Sparse Word) : (g.addPend d m v w o).sibs = g.sibs := rfl
@[simp] theorem Group.addPend_frames (g : Group) (d : PendDest) (m : Mask) (v : Dword) (w : Bool) (o : Sparse Word) : (g.addPend d m v w o).frames = g.frames := rfl
@[simp] theorem Group.addPend_uni (g : Group) (d : PendDest) (m : Mask) (v : Dword) (w : Bool) (o : Sparse Word) : (g.addPend d m v w o).uni = g.uni := rfl
@[simp] theorem Group.addPend_preds (g : Group) (d : PendDest) (m : Mask) (v : Dword) (w : Bool) (o : Sparse Word) : (g.addPend d m v w o).preds = g.preds := rfl
@[simp] theorem Group.addPend_q (g : Group) (d : PendDest) (m : Mask) (v : Dword) (w : Bool) (o : Sparse Word) : (g.addPend d m v w o).q = g.q := rfl
@[simp] theorem Group.addPend_latches (g : Group) (d : PendDest) (m : Mask) (v : Dword) (w : Bool) (o : Sparse Word) : (g.addPend d m v w o).latches = g.latches := rfl
@[simp] theorem Group.addPend_mode (g : Group) (d : PendDest) (m : Mask) (v : Dword) (w : Bool) (o : Sparse Word) : (g.addPend d m v w o).mode = g.mode := rfl
@[simp] theorem Group.addPend_thr (g : Group) (d : PendDest) (m : Mask) (v : Dword) (w : Bool) (o : Sparse Word) : (g.addPend d m v w o).thr = g.thr := rfl
@[simp] theorem Group.addPend_kovf (g : Group) (d : PendDest) (m : Mask) (v : Dword) (w : Bool) (o : Sparse Word) : (g.addPend d m v w o).kovf = g.kovf := rfl
@[simp] theorem Group.addPend_spill (g : Group) (d : PendDest) (m : Mask) (v : Dword) (w : Bool) (o : Sparse Word) : (g.addPend d m v w o).spill = g.spill := rfl
@[simp] theorem Group.addPend_awb (g : Group) (d : PendDest) (m : Mask) (v : Dword) (w : Bool) (o : Sparse Word) : (g.addPend d m v w o).awb = g.awb := rfl
@[simp] theorem Group.addPend_awl (g : Group) (d : PendDest) (m : Mask) (v : Dword) (w : Bool) (o : Sparse Word) : (g.addPend d m v w o).awl = g.awl := rfl
@[simp] theorem Group.addPend_lfsr (g : Group) (d : PendDest) (m : Mask) (v : Dword) (w : Bool) (o : Sparse Word) : (g.addPend d m v w o).lfsr = g.lfsr := rfl
@[simp] theorem Group.addPend_specials (g : Group) (d : PendDest) (m : Mask) (v : Dword) (w : Bool) (o : Sparse Word) : (g.addPend d m v w o).specials = g.specials := rfl
@[simp] theorem Group.addPend_items (g : Group) (d : PendDest) (m : Mask) (v : Dword) (w : Bool) (o : Sparse Word) : (g.addPend d m v w o).items = g.items := rfl
@[simp] theorem Group.addPend_windows (g : Group) (d : PendDest) (m : Mask) (v : Dword) (w : Bool) (o : Sparse Word) : (g.addPend d m v w o).windows = g.windows := rfl
@[simp] theorem Group.addPend_queue (g : Group) (d : PendDest) (m : Mask) (v : Dword) (w : Bool) (o : Sparse Word) : (g.addPend d m v w o).queue = g.queue := rfl
@[simp] theorem Group.addPend_batch (g : Group) (d : PendDest) (m : Mask) (v : Dword) (w : Bool) (o : Sparse Word) : (g.addPend d m v w o).batch = g.batch := rfl
@[simp] theorem Group.addPend_closed (g : Group) (d : PendDest) (m : Mask) (v : Dword) (w : Bool) (o : Sparse Word) : (g.addPend d m v w o).closed = g.closed := rfl
@[simp] theorem Group.addPend_counters (g : Group) (d : PendDest) (m : Mask) (v : Dword) (w : Bool) (o : Sparse Word) : (g.addPend d m v w o).counters = g.counters := rfl
@[simp] theorem Group.addPend_reads (g : Group) (d : PendDest) (m : Mask) (v : Dword) (w : Bool) (o : Sparse Word) : (g.addPend d m v w o).reads = g.reads := rfl
@[simp] theorem Group.addPend_ack (g : Group) (d : PendDest) (m : Mask) (v : Dword) (w : Bool) (o : Sparse Word) : (g.addPend d m v w o).ack = g.ack := rfl
@[simp] theorem Group.addPend_privBase (g : Group) (d : PendDest) (m : Mask) (v : Dword) (w : Bool) (o : Sparse Word) : (g.addPend d m v w o).privBase = g.privBase := rfl
@[simp] theorem Group.addPend_domain (g : Group) (d : PendDest) (m : Mask) (v : Dword) (w : Bool) (o : Sparse Word) : (g.addPend d m v w o).domain = g.domain := rfl
@[simp] theorem Group.addPend_handler (g : Group) (d : PendDest) (m : Mask) (v : Dword) (w : Bool) (o : Sparse Word) : (g.addPend d m v w o).handler = g.handler := rfl
@[simp] theorem Group.addPend_parked (g : Group) (d : PendDest) (m : Mask) (v : Dword) (w : Bool) (o : Sparse Word) : (g.addPend d m v w o).parked = g.parked := rfl
@[simp] theorem Group.addPend_parkRecs (g : Group) (d : PendDest) (m : Mask) (v : Dword) (w : Bool) (o : Sparse Word) : (g.addPend d m v w o).parkRecs = g.parkRecs := rfl
@[simp] theorem Group.addPend_stopped (g : Group) (d : PendDest) (m : Mask) (v : Dword) (w : Bool) (o : Sparse Word) : (g.addPend d m v w o).stopped = g.stopped := rfl
@[simp] theorem Group.addPend_stoppedAt (g : Group) (d : PendDest) (m : Mask) (v : Dword) (w : Bool) (o : Sparse Word) : (g.addPend d m v w o).stoppedAt = g.stoppedAt := rfl
@[simp] theorem Group.addPend_attached (g : Group) (d : PendDest) (m : Mask) (v : Dword) (w : Bool) (o : Sparse Word) : (g.addPend d m v w o).attached = g.attached := rfl
@[simp] theorem Group.addPend_pass (g : Group) (d : PendDest) (m : Mask) (v : Dword) (w : Bool) (o : Sparse Word) : (g.addPend d m v w o).pass = g.pass := rfl
@[simp] theorem Group.addPend_skip (g : Group) (d : PendDest) (m : Mask) (v : Dword) (w : Bool) (o : Sparse Word) : (g.addPend d m v w o).skip = g.skip := rfl
@[simp] theorem Group.addPend_stepping (g : Group) (d : PendDest) (m : Mask) (v : Dword) (w : Bool) (o : Sparse Word) : (g.addPend d m v w o).stepping = g.stepping := rfl
@[simp] theorem Group.addPend_lastIssue (g : Group) (d : PendDest) (m : Mask) (v : Dword) (w : Bool) (o : Sparse Word) : (g.addPend d m v w o).lastIssue = g.lastIssue := rfl
@[simp] theorem Group.addPend_clock (g : Group) (d : PendDest) (m : Mask) (v : Dword) (w : Bool) (o : Sparse Word) : (g.addPend d m v w o).clock = g.clock := rfl
@[simp] theorem Group.addPend_held (g : Group) (d : PendDest) (m : Mask) (v : Dword) (w : Bool) (o : Sparse Word) : (g.addPend d m v w o).held = g.held := rfl

/-! ### A uniform register is written -/

@[simp] theorem Group.uniSet_uni (g : Group) (n : Nat) (v : Dword) : (g.uniSet n v).uni = Sparse.set 0 g.uni n v := rfl
@[simp] theorem Group.uniSet_gid (g : Group) (n : Nat) (v : Dword) : (g.uniSet n v).gid = g.gid := rfl
@[simp] theorem Group.uniSet_kdesc (g : Group) (n : Nat) (v : Dword) : (g.uniSet n v).kdesc = g.kdesc := rfl
@[simp] theorem Group.uniSet_core (g : Group) (n : Nat) (v : Dword) : (g.uniSet n v).core = g.core := rfl
@[simp] theorem Group.uniSet_sc (g : Group) (n : Nat) (v : Dword) : (g.uniSet n v).sc = g.sc := rfl
@[simp] theorem Group.uniSet_slot (g : Group) (n : Nat) (v : Dword) : (g.uniSet n v).slot = g.slot := rfl
@[simp] theorem Group.uniSet_prio (g : Group) (n : Nat) (v : Dword) : (g.uniSet n v).prio = g.prio := rfl
@[simp] theorem Group.uniSet_order (g : Group) (n : Nat) (v : Dword) : (g.uniSet n v).order = g.order := rfl
@[simp] theorem Group.uniSet_spl (g : Group) (n : Nat) (v : Dword) : (g.uniSet n v).spl = g.spl := rfl
@[simp] theorem Group.uniSet_sibs (g : Group) (n : Nat) (v : Dword) : (g.uniSet n v).sibs = g.sibs := rfl
@[simp] theorem Group.uniSet_frames (g : Group) (n : Nat) (v : Dword) : (g.uniSet n v).frames = g.frames := rfl
@[simp] theorem Group.uniSet_preds (g : Group) (n : Nat) (v : Dword) : (g.uniSet n v).preds = g.preds := rfl
@[simp] theorem Group.uniSet_q (g : Group) (n : Nat) (v : Dword) : (g.uniSet n v).q = g.q := rfl
@[simp] theorem Group.uniSet_latches (g : Group) (n : Nat) (v : Dword) : (g.uniSet n v).latches = g.latches := rfl
@[simp] theorem Group.uniSet_mode (g : Group) (n : Nat) (v : Dword) : (g.uniSet n v).mode = g.mode := rfl
@[simp] theorem Group.uniSet_thr (g : Group) (n : Nat) (v : Dword) : (g.uniSet n v).thr = g.thr := rfl
@[simp] theorem Group.uniSet_kovf (g : Group) (n : Nat) (v : Dword) : (g.uniSet n v).kovf = g.kovf := rfl
@[simp] theorem Group.uniSet_spill (g : Group) (n : Nat) (v : Dword) : (g.uniSet n v).spill = g.spill := rfl
@[simp] theorem Group.uniSet_awb (g : Group) (n : Nat) (v : Dword) : (g.uniSet n v).awb = g.awb := rfl
@[simp] theorem Group.uniSet_awl (g : Group) (n : Nat) (v : Dword) : (g.uniSet n v).awl = g.awl := rfl
@[simp] theorem Group.uniSet_lfsr (g : Group) (n : Nat) (v : Dword) : (g.uniSet n v).lfsr = g.lfsr := rfl
@[simp] theorem Group.uniSet_specials (g : Group) (n : Nat) (v : Dword) : (g.uniSet n v).specials = g.specials := rfl
@[simp] theorem Group.uniSet_items (g : Group) (n : Nat) (v : Dword) : (g.uniSet n v).items = g.items := rfl
@[simp] theorem Group.uniSet_windows (g : Group) (n : Nat) (v : Dword) : (g.uniSet n v).windows = g.windows := rfl
@[simp] theorem Group.uniSet_queue (g : Group) (n : Nat) (v : Dword) : (g.uniSet n v).queue = g.queue := rfl
@[simp] theorem Group.uniSet_batch (g : Group) (n : Nat) (v : Dword) : (g.uniSet n v).batch = g.batch := rfl
@[simp] theorem Group.uniSet_closed (g : Group) (n : Nat) (v : Dword) : (g.uniSet n v).closed = g.closed := rfl
@[simp] theorem Group.uniSet_counters (g : Group) (n : Nat) (v : Dword) : (g.uniSet n v).counters = g.counters := rfl
@[simp] theorem Group.uniSet_reads (g : Group) (n : Nat) (v : Dword) : (g.uniSet n v).reads = g.reads := rfl
@[simp] theorem Group.uniSet_ack (g : Group) (n : Nat) (v : Dword) : (g.uniSet n v).ack = g.ack := rfl
@[simp] theorem Group.uniSet_privBase (g : Group) (n : Nat) (v : Dword) : (g.uniSet n v).privBase = g.privBase := rfl
@[simp] theorem Group.uniSet_domain (g : Group) (n : Nat) (v : Dword) : (g.uniSet n v).domain = g.domain := rfl
@[simp] theorem Group.uniSet_handler (g : Group) (n : Nat) (v : Dword) : (g.uniSet n v).handler = g.handler := rfl
@[simp] theorem Group.uniSet_parked (g : Group) (n : Nat) (v : Dword) : (g.uniSet n v).parked = g.parked := rfl
@[simp] theorem Group.uniSet_parkRecs (g : Group) (n : Nat) (v : Dword) : (g.uniSet n v).parkRecs = g.parkRecs := rfl
@[simp] theorem Group.uniSet_stopped (g : Group) (n : Nat) (v : Dword) : (g.uniSet n v).stopped = g.stopped := rfl
@[simp] theorem Group.uniSet_stoppedAt (g : Group) (n : Nat) (v : Dword) : (g.uniSet n v).stoppedAt = g.stoppedAt := rfl
@[simp] theorem Group.uniSet_attached (g : Group) (n : Nat) (v : Dword) : (g.uniSet n v).attached = g.attached := rfl
@[simp] theorem Group.uniSet_pass (g : Group) (n : Nat) (v : Dword) : (g.uniSet n v).pass = g.pass := rfl
@[simp] theorem Group.uniSet_skip (g : Group) (n : Nat) (v : Dword) : (g.uniSet n v).skip = g.skip := rfl
@[simp] theorem Group.uniSet_stepping (g : Group) (n : Nat) (v : Dword) : (g.uniSet n v).stepping = g.stepping := rfl
@[simp] theorem Group.uniSet_lastIssue (g : Group) (n : Nat) (v : Dword) : (g.uniSet n v).lastIssue = g.lastIssue := rfl
@[simp] theorem Group.uniSet_clock (g : Group) (n : Nat) (v : Dword) : (g.uniSet n v).clock = g.clock := rfl
@[simp] theorem Group.uniSet_held (g : Group) (n : Nat) (v : Dword) : (g.uniSet n v).held = g.held := rfl

/-! ### A register of a frame is written -/

@[simp] theorem Group.frameSet_gid (g : Group) (fn r l : Nat) (v : Word) : (g.frameSet fn r l v).gid = g.gid := rfl
@[simp] theorem Group.frameSet_kdesc (g : Group) (fn r l : Nat) (v : Word) : (g.frameSet fn r l v).kdesc = g.kdesc := rfl
@[simp] theorem Group.frameSet_core (g : Group) (fn r l : Nat) (v : Word) : (g.frameSet fn r l v).core = g.core := rfl
@[simp] theorem Group.frameSet_sc (g : Group) (fn r l : Nat) (v : Word) : (g.frameSet fn r l v).sc = g.sc := rfl
@[simp] theorem Group.frameSet_slot (g : Group) (fn r l : Nat) (v : Word) : (g.frameSet fn r l v).slot = g.slot := rfl
@[simp] theorem Group.frameSet_prio (g : Group) (fn r l : Nat) (v : Word) : (g.frameSet fn r l v).prio = g.prio := rfl
@[simp] theorem Group.frameSet_order (g : Group) (fn r l : Nat) (v : Word) : (g.frameSet fn r l v).order = g.order := rfl
@[simp] theorem Group.frameSet_spl (g : Group) (fn r l : Nat) (v : Word) : (g.frameSet fn r l v).spl = g.spl := rfl
@[simp] theorem Group.frameSet_sibs (g : Group) (fn r l : Nat) (v : Word) : (g.frameSet fn r l v).sibs = g.sibs := rfl
@[simp] theorem Group.frameSet_uni (g : Group) (fn r l : Nat) (v : Word) : (g.frameSet fn r l v).uni = g.uni := rfl
@[simp] theorem Group.frameSet_preds (g : Group) (fn r l : Nat) (v : Word) : (g.frameSet fn r l v).preds = g.preds := rfl
@[simp] theorem Group.frameSet_q (g : Group) (fn r l : Nat) (v : Word) : (g.frameSet fn r l v).q = g.q := rfl
@[simp] theorem Group.frameSet_latches (g : Group) (fn r l : Nat) (v : Word) : (g.frameSet fn r l v).latches = g.latches := rfl
@[simp] theorem Group.frameSet_mode (g : Group) (fn r l : Nat) (v : Word) : (g.frameSet fn r l v).mode = g.mode := rfl
@[simp] theorem Group.frameSet_thr (g : Group) (fn r l : Nat) (v : Word) : (g.frameSet fn r l v).thr = g.thr := rfl
@[simp] theorem Group.frameSet_kovf (g : Group) (fn r l : Nat) (v : Word) : (g.frameSet fn r l v).kovf = g.kovf := rfl
@[simp] theorem Group.frameSet_spill (g : Group) (fn r l : Nat) (v : Word) : (g.frameSet fn r l v).spill = g.spill := rfl
@[simp] theorem Group.frameSet_awb (g : Group) (fn r l : Nat) (v : Word) : (g.frameSet fn r l v).awb = g.awb := rfl
@[simp] theorem Group.frameSet_awl (g : Group) (fn r l : Nat) (v : Word) : (g.frameSet fn r l v).awl = g.awl := rfl
@[simp] theorem Group.frameSet_lfsr (g : Group) (fn r l : Nat) (v : Word) : (g.frameSet fn r l v).lfsr = g.lfsr := rfl
@[simp] theorem Group.frameSet_pend (g : Group) (fn r l : Nat) (v : Word) : (g.frameSet fn r l v).pend = g.pend := rfl
@[simp] theorem Group.frameSet_specials (g : Group) (fn r l : Nat) (v : Word) : (g.frameSet fn r l v).specials = g.specials := rfl
@[simp] theorem Group.frameSet_items (g : Group) (fn r l : Nat) (v : Word) : (g.frameSet fn r l v).items = g.items := rfl
@[simp] theorem Group.frameSet_windows (g : Group) (fn r l : Nat) (v : Word) : (g.frameSet fn r l v).windows = g.windows := rfl
@[simp] theorem Group.frameSet_queue (g : Group) (fn r l : Nat) (v : Word) : (g.frameSet fn r l v).queue = g.queue := rfl
@[simp] theorem Group.frameSet_batch (g : Group) (fn r l : Nat) (v : Word) : (g.frameSet fn r l v).batch = g.batch := rfl
@[simp] theorem Group.frameSet_closed (g : Group) (fn r l : Nat) (v : Word) : (g.frameSet fn r l v).closed = g.closed := rfl
@[simp] theorem Group.frameSet_counters (g : Group) (fn r l : Nat) (v : Word) : (g.frameSet fn r l v).counters = g.counters := rfl
@[simp] theorem Group.frameSet_reads (g : Group) (fn r l : Nat) (v : Word) : (g.frameSet fn r l v).reads = g.reads := rfl
@[simp] theorem Group.frameSet_ack (g : Group) (fn r l : Nat) (v : Word) : (g.frameSet fn r l v).ack = g.ack := rfl
@[simp] theorem Group.frameSet_privBase (g : Group) (fn r l : Nat) (v : Word) : (g.frameSet fn r l v).privBase = g.privBase := rfl
@[simp] theorem Group.frameSet_domain (g : Group) (fn r l : Nat) (v : Word) : (g.frameSet fn r l v).domain = g.domain := rfl
@[simp] theorem Group.frameSet_handler (g : Group) (fn r l : Nat) (v : Word) : (g.frameSet fn r l v).handler = g.handler := rfl
@[simp] theorem Group.frameSet_parked (g : Group) (fn r l : Nat) (v : Word) : (g.frameSet fn r l v).parked = g.parked := rfl
@[simp] theorem Group.frameSet_parkRecs (g : Group) (fn r l : Nat) (v : Word) : (g.frameSet fn r l v).parkRecs = g.parkRecs := rfl
@[simp] theorem Group.frameSet_stopped (g : Group) (fn r l : Nat) (v : Word) : (g.frameSet fn r l v).stopped = g.stopped := rfl
@[simp] theorem Group.frameSet_stoppedAt (g : Group) (fn r l : Nat) (v : Word) : (g.frameSet fn r l v).stoppedAt = g.stoppedAt := rfl
@[simp] theorem Group.frameSet_attached (g : Group) (fn r l : Nat) (v : Word) : (g.frameSet fn r l v).attached = g.attached := rfl
@[simp] theorem Group.frameSet_pass (g : Group) (fn r l : Nat) (v : Word) : (g.frameSet fn r l v).pass = g.pass := rfl
@[simp] theorem Group.frameSet_skip (g : Group) (fn r l : Nat) (v : Word) : (g.frameSet fn r l v).skip = g.skip := rfl
@[simp] theorem Group.frameSet_stepping (g : Group) (fn r l : Nat) (v : Word) : (g.frameSet fn r l v).stepping = g.stepping := rfl
@[simp] theorem Group.frameSet_lastIssue (g : Group) (fn r l : Nat) (v : Word) : (g.frameSet fn r l v).lastIssue = g.lastIssue := rfl
@[simp] theorem Group.frameSet_clock (g : Group) (fn r l : Nat) (v : Word) : (g.frameSet fn r l v).clock = g.clock := rfl
@[simp] theorem Group.frameSet_held (g : Group) (fn r l : Nat) (v : Word) : (g.frameSet fn r l v).held = g.held := rfl

/-! ### The split in focus is changed -/

@[simp] theorem Group.onSpl_spl (g : Group) (f : Split → Split) : (g.onSpl f).spl = f g.spl := rfl
@[simp] theorem Group.onSpl_gid (g : Group) (f : Split → Split) : (g.onSpl f).gid = g.gid := rfl
@[simp] theorem Group.onSpl_kdesc (g : Group) (f : Split → Split) : (g.onSpl f).kdesc = g.kdesc := rfl
@[simp] theorem Group.onSpl_core (g : Group) (f : Split → Split) : (g.onSpl f).core = g.core := rfl
@[simp] theorem Group.onSpl_sc (g : Group) (f : Split → Split) : (g.onSpl f).sc = g.sc := rfl
@[simp] theorem Group.onSpl_slot (g : Group) (f : Split → Split) : (g.onSpl f).slot = g.slot := rfl
@[simp] theorem Group.onSpl_prio (g : Group) (f : Split → Split) : (g.onSpl f).prio = g.prio := rfl
@[simp] theorem Group.onSpl_order (g : Group) (f : Split → Split) : (g.onSpl f).order = g.order := rfl
@[simp] theorem Group.onSpl_sibs (g : Group) (f : Split → Split) : (g.onSpl f).sibs = g.sibs := rfl
@[simp] theorem Group.onSpl_frames (g : Group) (f : Split → Split) : (g.onSpl f).frames = g.frames := rfl
@[simp] theorem Group.onSpl_uni (g : Group) (f : Split → Split) : (g.onSpl f).uni = g.uni := rfl
@[simp] theorem Group.onSpl_preds (g : Group) (f : Split → Split) : (g.onSpl f).preds = g.preds := rfl
@[simp] theorem Group.onSpl_q (g : Group) (f : Split → Split) : (g.onSpl f).q = g.q := rfl
@[simp] theorem Group.onSpl_latches (g : Group) (f : Split → Split) : (g.onSpl f).latches = g.latches := rfl
@[simp] theorem Group.onSpl_mode (g : Group) (f : Split → Split) : (g.onSpl f).mode = g.mode := rfl
@[simp] theorem Group.onSpl_thr (g : Group) (f : Split → Split) : (g.onSpl f).thr = g.thr := rfl
@[simp] theorem Group.onSpl_kovf (g : Group) (f : Split → Split) : (g.onSpl f).kovf = g.kovf := rfl
@[simp] theorem Group.onSpl_spill (g : Group) (f : Split → Split) : (g.onSpl f).spill = g.spill := rfl
@[simp] theorem Group.onSpl_awb (g : Group) (f : Split → Split) : (g.onSpl f).awb = g.awb := rfl
@[simp] theorem Group.onSpl_awl (g : Group) (f : Split → Split) : (g.onSpl f).awl = g.awl := rfl
@[simp] theorem Group.onSpl_lfsr (g : Group) (f : Split → Split) : (g.onSpl f).lfsr = g.lfsr := rfl
@[simp] theorem Group.onSpl_pend (g : Group) (f : Split → Split) : (g.onSpl f).pend = g.pend := rfl
@[simp] theorem Group.onSpl_specials (g : Group) (f : Split → Split) : (g.onSpl f).specials = g.specials := rfl
@[simp] theorem Group.onSpl_items (g : Group) (f : Split → Split) : (g.onSpl f).items = g.items := rfl
@[simp] theorem Group.onSpl_windows (g : Group) (f : Split → Split) : (g.onSpl f).windows = g.windows := rfl
@[simp] theorem Group.onSpl_queue (g : Group) (f : Split → Split) : (g.onSpl f).queue = g.queue := rfl
@[simp] theorem Group.onSpl_batch (g : Group) (f : Split → Split) : (g.onSpl f).batch = g.batch := rfl
@[simp] theorem Group.onSpl_closed (g : Group) (f : Split → Split) : (g.onSpl f).closed = g.closed := rfl
@[simp] theorem Group.onSpl_counters (g : Group) (f : Split → Split) : (g.onSpl f).counters = g.counters := rfl
@[simp] theorem Group.onSpl_reads (g : Group) (f : Split → Split) : (g.onSpl f).reads = g.reads := rfl
@[simp] theorem Group.onSpl_ack (g : Group) (f : Split → Split) : (g.onSpl f).ack = g.ack := rfl
@[simp] theorem Group.onSpl_privBase (g : Group) (f : Split → Split) : (g.onSpl f).privBase = g.privBase := rfl
@[simp] theorem Group.onSpl_domain (g : Group) (f : Split → Split) : (g.onSpl f).domain = g.domain := rfl
@[simp] theorem Group.onSpl_handler (g : Group) (f : Split → Split) : (g.onSpl f).handler = g.handler := rfl
@[simp] theorem Group.onSpl_parked (g : Group) (f : Split → Split) : (g.onSpl f).parked = g.parked := rfl
@[simp] theorem Group.onSpl_parkRecs (g : Group) (f : Split → Split) : (g.onSpl f).parkRecs = g.parkRecs := rfl
@[simp] theorem Group.onSpl_stopped (g : Group) (f : Split → Split) : (g.onSpl f).stopped = g.stopped := rfl
@[simp] theorem Group.onSpl_stoppedAt (g : Group) (f : Split → Split) : (g.onSpl f).stoppedAt = g.stoppedAt := rfl
@[simp] theorem Group.onSpl_attached (g : Group) (f : Split → Split) : (g.onSpl f).attached = g.attached := rfl
@[simp] theorem Group.onSpl_pass (g : Group) (f : Split → Split) : (g.onSpl f).pass = g.pass := rfl
@[simp] theorem Group.onSpl_skip (g : Group) (f : Split → Split) : (g.onSpl f).skip = g.skip := rfl
@[simp] theorem Group.onSpl_stepping (g : Group) (f : Split → Split) : (g.onSpl f).stepping = g.stepping := rfl
@[simp] theorem Group.onSpl_lastIssue (g : Group) (f : Split → Split) : (g.onSpl f).lastIssue = g.lastIssue := rfl
@[simp] theorem Group.onSpl_clock (g : Group) (f : Split → Split) : (g.onSpl f).clock = g.clock := rfl
@[simp] theorem Group.onSpl_held (g : Group) (f : Split → Split) : (g.onSpl f).held = g.held := rfl

end Sys2Proof.Machine
end

