-- ==== Sys2Proof/Laws/Registers.lean ====
section
/-!
SUPPORT. Laws of masks and of the registers of a group: what a lane register, a uniform register, a predicate or a latch reads as
after a write.
-/
namespace Sys2Proof.Machine

/-! ### Masks -/

theorem mem_lanesOf {m : Mask} {l : Nat} : l ∈ lanesOf m ↔ l < 32 ∧ m.getLsbD l = true := by
  simp [lanesOf]

theorem getLsbD_laneBit (n l : Nat) (h : l < 32) : (laneBit n).getLsbD l = decide (l = n) := by
  simp only [laneBit, BitVec.getLsbD_ofNat, h, decide_true, Bool.true_and, Nat.testBit_two_pow]
  exact decide_eq_decide.mpr eq_comm

theorem getLsbD_foldl_laneBit (ls : List Nat) (m : Mask) (l : Nat) (h : l < 32) :
    (ls.foldl (fun m l => m ||| laneBit l) m).getLsbD l = (m.getLsbD l || decide (l ∈ ls)) := by
  induction ls generalizing m with
  | nil => simp
  | cons n rest ih =>
    simp only [List.foldl_cons, ih, BitVec.getLsbD_or, getLsbD_laneBit n l h, List.mem_cons]
    cases m.getLsbD l <;> simp

/-- A mask made of a list holds the lanes of the list. -/
theorem getLsbD_maskOf (ls : List Nat) (l : Nat) (h : l < 32) : (maskOf ls).getLsbD l = decide (l ∈ ls) := by
  rw [maskOf, getLsbD_foldl_laneBit ls 0 l h, show (0 : Mask).getLsbD l = false from BitVec.getLsbD_zero, Bool.false_or]

/-- The lanes of a mask make the mask again. -/
theorem maskOf_lanesOf (m : Mask) : maskOf (lanesOf m) = m := by
  apply BitVec.eq_of_getLsbD_eq
  intro l h
  rw [getLsbD_maskOf _ _ h]
  cases hm : m.getLsbD l <;> simp [-BitVec.getLsbD_eq_getElem, mem_lanesOf, h, hm]

theorem nodup_lanesOf (m : Mask) : (lanesOf m).Nodup := List.Pairwise.filter _ List.nodup_range

/-- A condition over the lanes of a mask. -/
theorem getLsbD_maskWhere (m : Mask) (f : Nat → Bool) (l : Nat) (h : l < 32) :
    (maskWhere m f).getLsbD l = (m.getLsbD l && f l) := by
  rw [maskWhere, getLsbD_maskOf _ _ h]
  cases hm : m.getLsbD l <;> cases hf : f l <;> simp [-BitVec.getLsbD_eq_getElem, mem_lanesOf, h, hm, hf]

/-! ### Frames -/

theorem lookupKey_modify_regs (fs : List (Nat × Frame)) (fn n : Nat) (u : Frame → Sparse Word) :
    lookupKey (modifyKey fs fn fun f => { f with regs := u f }) n =
      (lookupKey fs n).map fun f => if n = fn then { f with regs := u f } else f := by
  rw [lookupKey_modifyKey]
  split
  · rename_i h; simp [h]
  · rename_i h; simp [Ne.symm h]

/-- Where a window register lies depends on no register. -/
theorem locate_modify_regs (fs : List (Nat × Frame)) (fn : Nat) (u : Frame → Sparse Word) (chain : List Nat) (i : Nat) :
    locate (modifyKey fs fn fun f => { f with regs := u f }) chain i = locate fs chain i := by
  induction chain generalizing i with
  | nil => rfl
  | cons n rest ih =>
    simp only [locate, lookupKey_modify_regs fs fn n]
    cases h : lookupKey fs n with
    | none => rfl
    | some f =>
      simp only [Option.map_some]
      have hk : (if n = fn then { f with regs := u f } else f).kc = f.kc := by split <;> rfl
      have ho : (if n = fn then { f with regs := u f } else f).ovll = f.ovll := by split <;> rfl
      rw [hk, ho]
      split
      · cases rest with
        | nil => rfl
        | cons p tail =>
          simp only [lookupKey_modify_regs]
          cases hp : lookupKey fs p with
          | none => rfl
          | some c =>
            simp only [Option.map_some]
            have hs : (if p = fn then { c with regs := u c } else c).size = c.size := by split <;> rfl
            rw [hs, ih]
      · rfl

@[simp] theorem locate_frameSet (g : Group) (fn r l : Nat) (v : Word) (chain : List Nat) (i : Nat) :
    locate (g.frameSet fn r l v).frames chain i = locate g.frames chain i := locate_modify_regs _ _ _ _ _

theorem frame?_frameSet (g : Group) (fn r l : Nat) (v : Word) (n : Nat) :
    (g.frameSet fn r l v).frame? n =
      (g.frame? n).map fun f => if n = fn then { f with regs := Sparse.set 0 f.regs (32 * r + l) v } else f :=
  lookupKey_modify_regs _ _ _ _

/-- A register of a frame after a write to a register of a frame that exists. -/
theorem frameGet_frameSet (g : Group) (fn r l : Nat) (v : Word) (n i k : Nat) (hl : l < 32) (hk : k < 32)
    (h : (g.frame? fn).isSome) :
    (g.frameSet fn r l v).frameGet n i k = if n = fn ∧ i = r ∧ k = l then v else g.frameGet n i k := by
  simp only [Group.frameGet, frame?_frameSet]
  by_cases hn : n = fn
  · subst hn
    cases hf : g.frame? n with
    | none => simp [hf] at h
    | some f =>
      simp only [Option.map_some, if_true, Sparse.get_set, true_and]
      by_cases hik : i = r ∧ k = l
      · simp [hik]
      · have : 32 * i + k ≠ 32 * r + l := by omega
        simp [hik, this]
  · cases hf : g.frame? n <;> simp [hn]

/-- A window register that is found lies in a frame that exists. -/
theorem locate_isSome (fs : List (Nat × Frame)) (chain : List Nat) (i fn r : Nat) (h : locate fs chain i = some (fn, r)) :
    (lookupKey fs fn).isSome := by
  induction chain generalizing i with
  | nil => simp [locate] at h
  | cons n rest ih =>
    simp only [locate] at h
    split at h
    · simp at h
    · rename_i f hf
      split at h
      · split at h
        · simp at h
        · split at h
          · simp at h
          · exact ih _ h
      · simp only [Option.some.injEq, Prod.mk.injEq] at h
        rw [← h.1, hf]; rfl

/-! ### Lane registers -/

theorem laneGet_of_locate (g : Group) (i l fn r : Nat) (h : locate g.frames g.spl.chain i = some (fn, r)) :
    g.laneGet i l = g.frameGet fn r l := by simp [Group.laneGet, h]

theorem laneSet_of_locate (g : Group) (i l fn r : Nat) (v : Word) (h : locate g.frames g.spl.chain i = some (fn, r)) :
    g.laneSet i l v = g.frameSet fn r l v := by simp [Group.laneSet, h]

@[simp] theorem laneSet_spl (g : Group) (i l : Nat) (v : Word) : (g.laneSet i l v).spl = g.spl := by
  unfold Group.laneSet; split <;> rfl

@[simp] theorem locate_laneSet (g : Group) (i l : Nat) (v : Word) (chain : List Nat) (j : Nat) :
    locate (g.laneSet i l v).frames chain j = locate g.frames chain j := by
  unfold Group.laneSet; split
  · rfl
  · simp

/-- A lane register after a write to a lane register: the value where the two are one register, else what was there. -/
theorem laneGet_laneSet (g : Group) (i l j k : Nat) (v : Word) (hl : l < 32) (hk : k < 32)
    (hi : (locate g.frames g.spl.chain i).isSome) :
    (g.laneSet i l v).laneGet j k =
      if locate g.frames g.spl.chain j = locate g.frames g.spl.chain i ∧ k = l then v else g.laneGet j k := by
  obtain ⟨⟨fn, r⟩, h⟩ := Option.isSome_iff_exists.mp hi
  rw [laneSet_of_locate g i l fn r v h]
  simp only [Group.laneGet, locate_frameSet, Group.frameSet_spl, h]
  cases hj : locate g.frames g.spl.chain j with
  | none => simp
  | some q =>
    obtain ⟨n, t⟩ := q
    simp only [Option.some.injEq, Prod.mk.injEq]
    rw [frameGet_frameSet g fn r l v n t k hl hk (locate_isSome _ _ _ _ _ h)]
    by_cases e : n = fn ∧ t = r <;> by_cases e' : k = l <;> simp_all

/-! ### Uniform registers and predicates -/

/-- Landing takes writes out and changes none. -/
theorem landWhere_sublist (ok : Pend → Bool) (l : List Pend) : ∀ kept, (landWhere ok kept l).Sublist l := by
  induction l with
  | nil => exact fun _ => .slnil
  | cons e rest ih =>
    intro kept
    unfold landWhere
    split
    · exact (ih kept).cons e
    · exact (ih _).cons_cons e

/-- A write whose answer is outstanding does not land. -/
theorem mem_landWhere_of_wait (ok : Pend → Bool) (l : List Pend) (e : Pend) (he : e ∈ l) (hw : e.wait = true) :
    ∀ kept, e ∈ landWhere ok kept l := by
  induction l with
  | nil => cases he
  | cons f rest ih =>
    intro kept
    unfold landWhere
    obtain rfl | h := List.mem_cons.1 he
    · simp [hw]
    · split
      · exact ih h kept
      · exact List.mem_cons_of_mem _ (ih h _)

theorem pendOld_append (sp : Nat) (d : PendDest) (l : List Pend) (e : Pend) (acc : Option Dword) :
    pendOld sp d (l ++ [e]) acc =
      if e.dest = d then (if e.sp = sp then none else if (pendOld sp d l acc).isSome then pendOld sp d l acc else some e.old)
      else pendOld sp d l acc := by
  induction l generalizing acc with
  | nil => simp only [List.nil_append, pendOld]; split <;> rfl
  | cons x rest ih =>
    simp only [List.cons_append, pendOld]
    split
    · split <;> exact ih _
    · exact ih _

/-- A uniform register as the split that wrote a uniform register reads it. -/
theorem uniGet_uniSet (g : Group) (n m : Nat) (v : Dword) :
    (g.uniSet n v).uniGet m = if m = n then v else g.uniGet m := by
  simp only [Group.uniGet, Group.uniSet_spl]
  show (pendOld g.spl.num (.uni m) (g.pend ++ [_]) none).getD (Sparse.get 0 (Sparse.set 0 g.uni n v) m) = _
  rw [pendOld_append, Sparse.get_set]
  by_cases h : m = n
  · simp [h]
  · have : PendDest.uni n ≠ PendDest.uni m := fun e => h (by injection e with e; exact e.symm)
    simp [this, h]

@[simp] theorem uniGet_addPend_lane (g : Group) (fn r n : Nat) (m : Mask) (v : Dword) (w : Bool) (o : Sparse Word) :
    (g.addPend (.lane fn r) m v w o).uniGet n = g.uniGet n := by
  simp [Group.uniGet, pendOld_append]

@[simp] theorem uniGet_addPend_pred (g : Group) (k n : Nat) (m : Mask) (v : Dword) (w : Bool) (o : Sparse Word) :
    (g.addPend (.pred k) m v w o).uniGet n = g.uniGet n := by
  simp [Group.uniGet, pendOld_append]

@[simp] theorem qGet_addPend_lane (g : Group) (fn r n : Nat) (m : Mask) (v : Dword) (w : Bool) (o : Sparse Word) :
    (g.addPend (.lane fn r) m v w o).qGet n = g.qGet n := by
  simp [Group.qGet, pendOld_append]

@[simp] theorem qGet_addPend_pred (g : Group) (k n : Nat) (m : Mask) (v : Dword) (w : Bool) (o : Sparse Word) :
    (g.addPend (.pred k) m v w o).qGet n = g.qGet n := by
  simp [Group.qGet, pendOld_append]

@[simp] theorem qGet_uniSet (g : Group) (n m : Nat) (v : Dword) : (g.uniSet n v).qGet m = g.qGet m := by
  show (m == 0 || ((pendOld g.spl.num (.upred m) (g.pend ++ [_]) none).map _).getD _) = _
  rw [pendOld_append]
  simp [Group.qGet]

/-- A lane predicate after a write: the new bits in the lanes written, p0 as ever. -/
theorem predGet_predSet (g : Group) (n k l : Nat) (m v : Mask) (hl : l < 32) :
    (g.predSet n m v).predGet k l = if k = n ∧ n ≠ 0 ∧ m.getLsbD l = true then v.getLsbD l else g.predGet k l := by
  by_cases hn : n = 0
  · simp [Group.predSet, hn]
  · simp only [Group.predSet, hn, if_false, Group.predGet, Group.predMask]
    by_cases hk : k = 0
    · have : ¬ k = n := fun h => hn (h.symm.trans hk)
      simp [hk, Ne.symm hn]
    · simp only [hk, if_false, Sparse.get_set]
      by_cases hkn : k = n
      · subst hkn
        cases hm : m.getLsbD l <;> simp [-BitVec.getLsbD_eq_getElem, hm, hn, hl]
      · simp [hkn]

/-! ### Latches -/

/-- b0 after a lane instruction is its result. -/
theorem latchGet_pushLatch_zero (g : Group) (r : Sparse Dword) (l : Nat) : (g.pushLatch r).latchGet 0 l = Sparse.get 0 r l := by
  simp [Group.latchGet]

/-- The older latches move up by one (R27). -/
theorem latchGet_pushLatch_succ (g : Group) (r : Sparse Dword) (j l : Nat) (h : j < 3) :
    (g.pushLatch r).latchGet (j + 1) l = g.latchGet j l := by
  simp only [Group.latchGet, Group.pushLatch_latches, List.getElem?_take]
  have : j + 1 < 4 := by omega
  simp [this]

theorem get_foldl_set (res : List (Nat × Dword)) (t : Sparse Dword) (l : Nat) :
    Sparse.get 0 (res.foldl (fun t r => Sparse.set 0 t r.1 r.2) t) l =
      ((res.reverse.find? fun r => r.1 == l).map (·.2)).getD (Sparse.get 0 t l) := by
  induction res generalizing t with
  | nil => rfl
  | cons r rest ih =>
    simp only [List.foldl_cons, ih, List.reverse_cons, List.find?_append, Sparse.get_set]
    cases h : rest.reverse.find? fun r => r.1 == l with
    | some x => simp
    | none =>
      by_cases e : l = r.1
      · subst e; simp
      · have : ¬ (r.1 = l) := fun h => e h.symm
        simp [e, this]

theorem find?_map_lane (ls : List Nat) (f : Nat → Dword) (l : Nat) :
    (((ls.map fun l => (l, f l)).reverse.find? fun r => r.1 == l).map (·.2)) = if l ∈ ls then some (f l) else none := by
  rw [← List.map_reverse, List.find?_map]
  simp only [Option.map_map, Function.comp_def]
  by_cases h : l ∈ ls
  · simp only [h, if_true]
    cases hf : ls.reverse.find? fun x => x == l with
    | none =>
      rw [List.find?_eq_none] at hf
      exact absurd (hf l (List.mem_reverse.mpr h)) (by simp)
    | some x =>
      have := List.find?_some hf
      simp at this
      simp [this]
  · simp only [h, if_false, Option.map_eq_none_iff, List.find?_eq_none]
    intro x hx e
    exact h (by simpa [beq_iff_eq.mp e] using hx)

/-- The latch of a lane instruction holds each lane's result and zero elsewhere. -/
theorem get_latchOf (m : Mask) (f : Nat → Dword) (l : Nat) :
    Sparse.get 0 (latchOf ((lanesOf m).map fun l => (l, f l))) l = if l < 32 ∧ m.getLsbD l = true then f l else 0 := by
  rw [latchOf, get_foldl_set, find?_map_lane]
  simp only [mem_lanesOf, Sparse.get_nil]
  split <;> simp

end Sys2Proof.Machine
end

