-- ==== Sys2Proof/Laws/Shapes.lean ====
section
/-!
SUPPORT. What the shapes of instructions do: a lane result, a predicate result, a uniform result, an instruction retired by its
guard or by an effective mask of zero.
-/
namespace Sys2Proof.Machine

/-! ### Lane results -/

theorem laneSet_eq_frames (g : Group) (d l : Nat) (v : Word) : ∃ fs, g.laneSet d l v = { g with frames := fs } := by
  unfold Group.laneSet; split
  · exact ⟨g.frames, rfl⟩
  · exact ⟨_, rfl⟩

theorem frameGet_laneSet (g : Group) (d l : Nat) (v : Word) (fn i k : Nat) (hl : l < 32) (hk : k < 32) :
    (g.laneSet d l v).frameGet fn i k =
      if locate g.frames g.spl.chain d = some (fn, i) ∧ k = l then v else g.frameGet fn i k := by
  unfold Group.laneSet
  cases h : locate g.frames g.spl.chain d with
  | none => simp
  | some q =>
    obtain ⟨n, r⟩ := q
    simp only [Option.some.injEq, Prod.mk.injEq]
    rw [frameGet_frameSet g n r l v fn i k hl hk (locate_isSome _ _ _ _ _ h)]
    by_cases e : n = fn ∧ r = i <;> by_cases e' : k = l <;> simp_all [eq_comm]

theorem bare_laneSet (g : Group) (d l : Nat) (v : Word) (fn : Nat) :
    ((g.laneSet d l v).frame? fn).map Frame.bare = (g.frame? fn).map Frame.bare := by
  unfold Group.laneSet
  split
  · rfl
  · rw [frame?_frameSet, Option.map_map]
    congr 1
    funext f
    simp only [Function.comp_apply]
    split <;> rfl

/-- One lane's result written to a register, or to a pair. -/
def Group.put (g : Group) (d : Nat) (wide : Bool) (l : Nat) (v : Dword) : Group :=
  if wide then g.lanePairSet d l v else g.laneSet d l (v.extractLsb' 0 32)

@[simp] theorem put_spl (g : Group) (d : Nat) (wide : Bool) (l : Nat) (v : Dword) : (g.put d wide l v).spl = g.spl := by
  unfold Group.put Group.lanePairSet; split <;> simp

@[simp] theorem locate_put (g : Group) (d : Nat) (wide : Bool) (l : Nat) (v : Dword) (chain : List Nat) (j : Nat) :
    locate (g.put d wide l v).frames chain j = locate g.frames chain j := by
  unfold Group.put Group.lanePairSet; split <;> simp

theorem put_eq_frames (g : Group) (d : Nat) (wide : Bool) (l : Nat) (v : Dword) :
    ∃ fs, g.put d wide l v = { g with frames := fs } := by
  unfold Group.put Group.lanePairSet
  split
  · obtain ⟨f1, e1⟩ := laneSet_eq_frames g d l (v.extractLsb' 0 32)
    obtain ⟨f2, e2⟩ := laneSet_eq_frames (g.laneSet d l (v.extractLsb' 0 32)) (d + 1) l (v.extractLsb' 32 32)
    exact ⟨f2, by rw [e2, e1]⟩
  · exact laneSet_eq_frames _ _ _ _

theorem bare_put (g : Group) (d : Nat) (wide : Bool) (l : Nat) (v : Dword) (fn : Nat) :
    ((g.put d wide l v).frame? fn).map Frame.bare = (g.frame? fn).map Frame.bare := by
  unfold Group.put Group.lanePairSet
  split <;> simp [bare_laneSet]

theorem frameGet_put (g : Group) (d : Nat) (wide : Bool) (l : Nat) (v : Dword) (fn i k : Nat) (hl : l < 32) (hk : k < 32) :
    (g.put d wide l v).frameGet fn i k =
      if k = l ∧ wide = true ∧ locate g.frames g.spl.chain (d + 1) = some (fn, i) then v.extractLsb' 32 32
      else if k = l ∧ locate g.frames g.spl.chain d = some (fn, i) then v.extractLsb' 0 32
      else g.frameGet fn i k := by
  unfold Group.put Group.lanePairSet
  cases wide
  · simp only [Bool.false_eq_true, if_false, false_and, and_false]
    rw [frameGet_laneSet _ _ _ _ _ _ _ hl hk]
    simp only [and_comm]
  · simp only [if_true, true_and]
    rw [frameGet_laneSet _ _ _ _ _ _ _ hl hk, frameGet_laneSet _ _ _ _ _ _ _ hl hk]
    simp only [locate_laneSet, laneSet_spl, and_comm]

/-- Results written lane by lane: everything the writes do. -/
theorem puts_spec (d : Nat) (wide : Bool) (f : Nat → Dword) (ls : List Nat) (hls : ∀ l ∈ ls, l < 32) (g : Group) :
    let h := (ls.map fun l => (l, f l)).foldl (fun g r => g.put d wide r.1 r.2) g
    (∃ fs, h = { g with frames := fs })
    ∧ (∀ chain j, locate h.frames chain j = locate g.frames chain j)
    ∧ (∀ fn, (h.frame? fn).map Frame.bare = (g.frame? fn).map Frame.bare)
    ∧ ∀ fn i k, k < 32 → h.frameGet fn i k =
        if k ∈ ls ∧ wide = true ∧ locate g.frames g.spl.chain (d + 1) = some (fn, i) then (f k).extractLsb' 32 32
        else if k ∈ ls ∧ locate g.frames g.spl.chain d = some (fn, i) then (f k).extractLsb' 0 32
        else g.frameGet fn i k := by
  induction ls generalizing g with
  | nil => exact ⟨⟨g.frames, rfl⟩, fun _ _ => rfl, fun _ => rfl, by simp⟩
  | cons l rest ih =>
    have hl : l < 32 := hls l (by simp)
    obtain ⟨⟨fs, h1⟩, h2, h3, h4⟩ := ih (fun x hx => hls x (List.mem_cons_of_mem _ hx)) (g.put d wide l (f l))
    simp only [List.map_cons, List.foldl_cons]
    refine ⟨?_, ?_, ?_, ?_⟩
    · obtain ⟨f0, e0⟩ := put_eq_frames g d wide l (f l)
      exact ⟨fs, by rw [h1, e0]⟩
    · intro c j; rw [h2, locate_put]
    · intro fn; rw [h3, bare_put]
    · intro fn i k hk
      rw [h4 fn i k hk, frameGet_put _ _ _ _ _ _ _ _ hl hk]
      simp only [locate_put, put_spl, List.mem_cons]
      by_cases e : k = l <;> by_cases m : k ∈ rest <;> simp [e, m] <;> (try subst e) <;> simp_all

/-- What the results of a lane instruction do to the group. -/
theorem laneWrite_spec (g : Group) (d : Nat) (nw wide wait : Bool) (m : Mask) (f : Nat → Dword) :
    let h := g.laneWrite d nw wide wait ((lanesOf m).map fun l => (l, f l))
    (∃ fs p, h = { g with frames := fs, pend := p })
    ∧ (∀ chain j, locate h.frames chain j = locate g.frames chain j)
    ∧ (∀ fn, (h.frame? fn).map Frame.bare = (g.frame? fn).map Frame.bare)
    ∧ (∀ n, h.uniGet n = g.uniGet n) ∧ (∀ n, h.qGet n = g.qGet n)
    ∧ ∀ fn i k, k < 32 → h.frameGet fn i k =
        if nw = false ∧ m.getLsbD k = true ∧ wide = true ∧ locate g.frames g.spl.chain (d + 1) = some (fn, i) then
          (f k).extractLsb' 32 32
        else if nw = false ∧ m.getLsbD k = true ∧ locate g.frames g.spl.chain d = some (fn, i) then (f k).extractLsb' 0 32
        else g.frameGet fn i k := by
  have pl : ∀ (g b : Group) (i : Nat) (m : Mask) (w : Bool), ∃ p, g.pendLane b i m w = { g with pend := p }
      ∧ (∀ n, (g.pendLane b i m w).uniGet n = g.uniGet n) ∧ ∀ n, (g.pendLane b i m w).qGet n = g.qGet n := by
    intro g b i m w
    unfold Group.pendLane
    split
    · exact ⟨g.pend, rfl, fun _ => rfl, fun _ => rfl⟩
    · exact ⟨_, rfl, by simp, by simp⟩
  cases nw with
  | true => exact ⟨⟨g.frames, g.pend, rfl⟩, fun _ _ => rfl, fun _ => rfl, fun _ => rfl, fun _ => rfl, by simp [Group.laneWrite]⟩
  | false =>
    obtain ⟨⟨fs, h1⟩, h2, h3, h4⟩ := puts_spec d wide f (lanesOf m) (fun l hl => (mem_lanesOf.mp hl).1) g
    simp only [Group.laneWrite, Bool.false_eq_true, if_false]
    have hp : (fun (g : Group) (r : Nat × Dword) =>
        if wide then g.lanePairSet d r.1 r.2 else g.laneSet d r.1 (r.2.extractLsb' 0 32)) = fun g r => g.put d wide r.1 r.2 := rfl
    rw [hp]
    generalize (List.map (fun l => (l, f l)) (lanesOf m)).foldl (fun g r => g.put d wide r.1 r.2) g = h at h1 h2 h3 h4
    have hu : ∀ n, h.uniGet n = g.uniGet n := fun n => by rw [h1]; rfl
    have hq : ∀ n, h.qGet n = g.qGet n := fun n => by rw [h1]; rfl
    generalize maskOf ((List.map (fun l => (l, f l)) (lanesOf m)).map fun x => x.1) = mm
    obtain ⟨p1, e1, u1, q1⟩ := pl h g d mm wait
    have fin : ∀ h' : Group, (∃ p, h' = { h with pend := p }) → (∀ n, h'.uniGet n = h.uniGet n) → (∀ n, h'.qGet n = h.qGet n) →
        (∃ fs p, h' = { g with frames := fs, pend := p })
        ∧ (∀ chain j, locate h'.frames chain j = locate g.frames chain j)
        ∧ (∀ fn, (h'.frame? fn).map Frame.bare = (g.frame? fn).map Frame.bare)
        ∧ (∀ n, h'.uniGet n = g.uniGet n) ∧ (∀ n, h'.qGet n = g.qGet n)
        ∧ ∀ fn i k, k < 32 → h'.frameGet fn i k =
            if false = false ∧ m.getLsbD k = true ∧ wide = true ∧ locate g.frames g.spl.chain (d + 1) = some (fn, i) then
              (f k).extractLsb' 32 32
            else if false = false ∧ m.getLsbD k = true ∧ locate g.frames g.spl.chain d = some (fn, i) then (f k).extractLsb' 0 32
            else g.frameGet fn i k := by
      intro h' ⟨p, e⟩ u q
      refine ⟨?_, ?_, ?_, ?_, ?_, ?_⟩
      · exact ⟨fs, p, by rw [e, h1]⟩
      · intro c j; rw [e]; exact h2 c j
      · intro fn; rw [e]; exact h3 fn
      · intro n; rw [u, hu]
      · intro n; rw [q, hq]
      · intro fn i k hk
        rw [e]
        have := h4 fn i k hk
        simp only [mem_lanesOf, hk, true_and] at this ⊢
        exact this
    cases wide with
    | false => simpa using fin _ ⟨p1, e1⟩ u1 q1
    | true =>
      obtain ⟨p2, e2, u2, q2⟩ := pl (h.pendLane g d mm wait) g (d + 1) mm wait
      simpa using fin _ ⟨p2, by rw [e2, e1]⟩ (fun n => by rw [u2, u1]) (fun n => by rw [q2, q1])

/-- A lane instruction with results: where it can execute it completes, with the whole effect of its results. -/
theorem laneOp_effect (regs : List Nat) (w : LaneShort) (gn wide : Bool) (len : Nat) (s : State) (f : Nat → Dword)
    (hd : w.nw = false → w.d.toNat ∈ regs) (h : s.laneReady w gn wide regs = true) :
    ∃ t, laneOp regs w gn wide len s f = .next t ∧ LaneEffect w gn wide len f s t := by
  simp only [State.laneReady, State.reads, Bool.and_eq_true, List.all_eq_true, decide_eq_true_eq, bne_iff_ne, ne_eq,
    Bool.or_eq_true, Bool.not_eq_true'] at h
  obtain ⟨⟨h1, h2⟩, h3⟩ := h
  have hr : (regs.any fun r => decide (s.grp.frameSize ≤ r)) = false := by
    simp only [List.any_eq_false, decide_eq_true_eq]
    intro r hr
    exact Nat.not_le.mpr (h1 r hr).1
  obtain ⟨⟨fs, p, e⟩, hl, hb, hu, hq, hg⟩ := laneWrite_spec s.grp w.d.toNat w.nw wide false (s.grp.effMask w.g gn) f
  refine ⟨(s.onGrp fun g => (g.laneWrite w.d.toNat w.nw wide false
      ((lanesOf (s.grp.effMask w.g gn)).map fun l => (l, f l))).pushLatch
        (latchOf ((lanesOf (s.grp.effMask w.g gn)).map fun l => (l, f l)))).advance len,
    by simp only [laneOp, lanes, hr, Bool.false_eq_true, if_false, h2, decide_false, Bool.false_and]; rfl, ?_⟩
  simp only [State.onGrp]
  generalize s.grp.laneWrite w.d.toNat w.nw wide false ((lanesOf (s.grp.effMask w.g gn)).map fun l => (l, f l)) = h at *
  have hspl : h.spl = s.grp.spl := by rw [e]
  have hlat : h.latches = s.grp.latches := by rw [e]
  constructor
  · intro l h32 hm hnw
    have hs := (h1 _ (hd hnw)).2
    obtain ⟨⟨fn, r⟩, hloc⟩ := Option.isSome_iff_exists.mp hs
    have : (State.advance { s with grp := h.pushLatch (latchOf ((lanesOf (s.grp.effMask w.g gn)).map fun l => (l, f l))) } len).grp.laneGet
        w.d.toNat l = h.laneGet w.d.toNat l := rfl
    rw [this, Group.laneGet, hspl, hl, hloc]
    simp only
    rw [hg fn r l h32, if_neg, if_pos ⟨hnw, hm, hloc⟩]
    rintro ⟨-, -, hw, hd1⟩
    rcases h3 with (h3 | h3) | h3
    · simp [hnw] at h3
    · simp [hw] at h3
    · exact h3.2 (hd1.trans hloc.symm)
  · intro l h32 hm hnw hw
    have : (State.advance { s with grp := h.pushLatch (latchOf ((lanesOf (s.grp.effMask w.g gn)).map fun l => (l, f l))) } len).grp.laneGet
        (w.d.toNat + 1) l = h.laneGet (w.d.toNat + 1) l := rfl
    rw [this]
    rcases h3 with (h3 | h3) | h3
    · simp [hnw] at h3
    · simp [hw] at h3
    · obtain ⟨⟨fn, r⟩, hloc⟩ := Option.isSome_iff_exists.mp h3.1
      rw [Group.laneGet, hspl, hl, hloc]
      simp only
      rw [hg fn r l h32, if_pos ⟨hnw, hm, hw, hloc⟩]
  · intro fn i l h32 ht
    show h.frameGet fn i l = _
    rw [hg fn i l h32]
    simp only [Group.laneTarget, Bool.and_eq_false_iff, Bool.not_eq_false', Bool.or_eq_false_iff, beq_eq_false_iff_ne,
      ne_eq] at ht
    rw [if_neg, if_neg]
    · rintro ⟨hnw, hm, hloc⟩
      simp [hnw, hm, hloc] at ht
    · rintro ⟨hnw, hm, hw, hloc⟩
      simp [hnw, hm, hw, hloc] at ht
  · exact fun fn => hb fn
  · intro l h32
    show (h.pushLatch _).latchGet 0 l = _
    rw [latchGet_pushLatch_zero, get_latchOf]
    simp [h32]
  · intro j l hj
    show (h.pushLatch _).latchGet (j + 1) l = _
    rw [latchGet_pushLatch_succ _ _ _ _ hj, Group.latchGet, Group.latchGet, hlat]
  · exact fun n => hu n
  · exact fun n => hq n
  · show ({ h.spl with pc := h.spl.pc + BitVec.ofNat 64 len, status := .run, arrived := false } : Split) = _
    rw [hspl]; rfl
  · show State.advance { s with grp := h.pushLatch _ } len = _
    subst e
    rfl

/-- Where a register is beyond the frame, a lane instruction takes ILLEGAL_ENCODING (R57). -/
theorem lanes_illegal (regs : List Nat) (g : BitVec 3) (gn exempt : Bool) (len : Nat) (s : State) (body : Mask → State → Out)
    (h : (regs.any fun r => decide (s.grp.frameSize ≤ r)) = true) : lanes regs g gn exempt len s body = s.fault causeIllegal := by
  simp [lanes, h]

/-- With an effective mask of zero a lane instruction is retired (R33, R34). -/
theorem lanes_retired (regs : List Nat) (g : BitVec 3) (gn : Bool) (len : Nat) (s : State) (body : Mask → State → Out)
    (h : (regs.any fun r => decide (s.grp.frameSize ≤ r)) = false) (hm : s.grp.effMask g gn = 0) :
    lanes regs g gn false len s body = s.pushZero.done len := by
  simp [lanes, h, hm]

/-- A lane instruction that can execute runs on its effective mask. -/
theorem lanes_ready (regs : List Nat) (g : BitVec 3) (gn exempt : Bool) (len : Nat) (s : State) (body : Mask → State → Out)
    (h : s.reads regs = true) (hm : s.grp.effMask g gn ≠ 0 ∨ exempt = true) :
    lanes regs g gn exempt len s body = body (s.grp.effMask g gn) s := by
  simp only [State.reads, List.all_eq_true, Bool.and_eq_true, decide_eq_true_eq] at h
  have hr : (regs.any fun r => decide (s.grp.frameSize ≤ r)) = false := by
    simp only [List.any_eq_false, decide_eq_true_eq]
    intro r hr
    exact Nat.not_le.mpr (h r hr).1
  unfold lanes
  rw [hr]
  simp only [Bool.false_eq_true, if_false]
  rcases hm with hm | hm
  · rw [decide_eq_false hm]; rfl
  · rw [hm, Bool.not_true, Bool.and_false]; rfl

/-- A uniform instruction whose guard holds executes. -/
theorem uniform_ready (g : BitVec 3) (gn : Bool) (len : Nat) (s : State) (body : State → Out) (h : s.uniReady g gn = true) :
    uniform g gn len s body = body s := by
  simp only [State.uniReady] at h
  simp [uniform, h]

/-- A uniform instruction whose guard fails is retired (R40). -/
theorem uniform_retired (g : BitVec 3) (gn : Bool) (len : Nat) (s : State) (body : State → Out) (h : s.uniReady g gn = false) :
    uniform g gn len s body = s.done len := by
  simp only [State.uniReady] at h
  simp [uniform, h]

/-- A uniform instruction with a result: where its guard holds it completes, with the whole effect of its result. -/
theorem uniOp_effect (w : UniShort) (gn : Bool) (len : Nat) (s : State) (v : Dword) (h : s.uniReady w.g gn = true) :
    ∃ t, uniOp w gn len s v = .next t ∧ UniEffect w.d.toNat len v s t := by
  refine ⟨_, by rw [uniOp, uniform_ready _ _ _ _ _ h]; rfl, ?_⟩
  constructor
  · show (s.grp.uniSet w.d.toNat v).uniGet w.d.toNat = v
    simp [uniGet_uniSet]
  · intro k hk
    show (s.grp.uniSet w.d.toNat v).uniGet k = _
    simp [uniGet_uniSet, hk]
  · intro k
    show (s.grp.uniSet w.d.toNat v).qGet k = _
    simp
  · rfl
  · rfl

/-- q(k) after q(n) is written by the same split; q0 reads true. -/
theorem qGet_qSet (g : Group) (n k : Nat) (b : Bool) (hn : n < 8) (hk : k < 8) :
    (g.qSet n b).qGet k = if k = n ∧ n ≠ 0 then b else g.qGet k := by
  by_cases h0 : n = 0
  · simp [Group.qSet, h0]
  · simp only [Group.qSet, h0, if_false]
    show (k == 0 || ((pendOld g.spl.num (.upred k) (g.pend ++ [_]) none).map _).getD _) = _
    rw [pendOld_append]
    have hb : ∀ q : BitVec 8, (if b = true then q ||| BitVec.ofNat 8 (2 ^ n) else q &&& ~~~BitVec.ofNat 8 (2 ^ n)).getLsbD k =
        if k = n then b else q.getLsbD k := by
      intro q
      have ht : (BitVec.ofNat 8 (2 ^ n)).getLsbD k = decide (k = n) := by
        simp only [BitVec.getLsbD_ofNat, hk, decide_true, Bool.true_and, Nat.testBit_two_pow]
        exact decide_eq_decide.mpr eq_comm
      cases b
      · simp only [Bool.false_eq_true, if_false, BitVec.getLsbD_and, BitVec.getLsbD_not, hk, decide_true, Bool.true_and, ht]
        by_cases e : k = n <;> simp [e]
      · simp only [if_true, BitVec.getLsbD_or, ht]
        by_cases e : k = n <;> simp [e]
    by_cases e : k = n
    · subst e
      simp only [if_true, Option.map_none, Option.getD_none, ne_eq, h0, not_false_eq_true, and_self]
      have : (k == 0) = false := by simp [h0]
      rw [this, Bool.false_or, Group.addPend_q, hb]; simp
    · have hd : PendDest.upred n ≠ PendDest.upred k := fun x => e (by injection x with x; exact x.symm)
      simp only [hd, if_false, e, false_and, Group.qGet]
      cases hp : pendOld g.spl.num (.upred k) g.pend none
      · simp only [Option.map_none, Option.getD_none]
        rw [Group.addPend_q, hb]; simp [e]
      · rfl

/-- A write of a lane predicate touches no uniform register, predicate of the uniform set or latch. -/
theorem lanePred_rest (s : State) (n : Nat) (m v : Mask) :
    ∃ ps p, s.lanePred n m v = { s with grp := { s.grp with preds := ps, pend := p } }
      ∧ (∀ k, (s.lanePred n m v).grp.uniGet k = s.grp.uniGet k) ∧ (∀ k, (s.lanePred n m v).grp.qGet k = s.grp.qGet k)
      ∧ ∀ k l, l < 32 → (s.lanePred n m v).grp.predGet k l =
          if k = n ∧ n ≠ 0 ∧ m.getLsbD l = true then v.getLsbD l else s.grp.predGet k l := by
  have hs : ∃ ps, s.grp.predSet n m v = { s.grp with preds := ps } := by
    unfold Group.predSet; split
    · exact ⟨s.grp.preds, rfl⟩
    · exact ⟨_, rfl⟩
  obtain ⟨ps, e⟩ := hs
  refine ⟨ps, (s.lanePred n m v).grp.pend, ?_, ?_, ?_, ?_⟩
  · simp only [State.lanePred, State.onGrp, e]; rfl
  · intro k
    show ((s.grp.predSet n m v).addPend (.pred n) m ((s.grp.predMask n).setWidth 64) false []).uniGet k = _
    rw [uniGet_addPend_pred, e]; rfl
  · intro k
    show ((s.grp.predSet n m v).addPend (.pred n) m ((s.grp.predMask n).setWidth 64) false []).qGet k = _
    rw [qGet_addPend_pred, e]; rfl
  · intro k l hl
    exact predGet_predSet _ _ _ _ _ _ hl

/-- One predicate written and a zero latch pushed: the whole effect. -/
theorem lanePred_effect (s : State) (n : Nat) (m v : Mask) (len : Nat) (f : Nat → Bool)
    (hf : ∀ l < 32, m.getLsbD l = true → v.getLsbD l = f l) :
    ∃ t, (s.lanePred n m v).pushZero.done len = .next t ∧ PredEffect (fun k => k == n) m len (fun _ => f) s t := by
  obtain ⟨ps, p, e, hu, hq, hp⟩ := lanePred_rest s n m v
  refine ⟨_, rfl, ?_⟩
  constructor
  · intro k l hl hk hn hm
    show (s.lanePred n m v).grp.predGet k l = _
    have hkn : k = n := by simpa using hn
    subst hkn
    rw [hp k l hl, if_pos ⟨rfl, hk, hm⟩, hf l hl hm]
  · intro k l hl hk
    show (s.lanePred n m v).grp.predGet k l = _
    rw [hp k l hl, if_neg]
    rintro ⟨rfl, h0, hm⟩
    rcases hk with hk | hk | hk
    · exact h0 hk
    · simp at hk
    · simp [hm] at hk
  · intro l
    show ((s.lanePred n m v).grp.pushLatch []).latchGet 0 l = 0
    rw [latchGet_pushLatch_zero]; rfl
  · intro j l hj
    show ((s.lanePred n m v).grp.pushLatch []).latchGet (j + 1) l = _
    rw [latchGet_pushLatch_succ _ _ _ _ hj, e]; rfl
  · exact hu
  · exact hq
  · show ({ (s.lanePred n m v).grp.spl with pc := _, status := _, arrived := _ } : Split) = _
    rw [e]; rfl
  · rw [e]; rfl

/-- A lane instruction that writes a predicate: where it can execute it completes, with its whole effect. -/
theorem predInstr_effect (regs : List Nat) (w : LaneShort) (gn : Bool) (len : Nat) (s : State) (f : Nat → Bool)
    (h : s.reads regs = true) (hm : s.grp.effMask w.g gn ≠ 0) :
    ∃ t, predInstr regs w gn len s f = .next t
      ∧ PredEffect (fun k => k == w.d.toNat) (s.grp.effMask w.g gn) len (fun _ => f) s t := by
  rw [predInstr, lanes_ready _ _ _ _ _ _ _ h (Or.inl hm)]
  exact lanePred_effect _ _ _ _ _ _ fun l hl hml => by rw [getLsbD_maskWhere _ _ _ hl, hml, Bool.true_and]

end Sys2Proof.Machine
end

