-- ==== Sys2Proof/Tests/Slice0.lean ====
section
/-!
SUPPORT. Tests: ill-formed terms refused by name, words written out bit by bit from the encodings of the spec, witnesses that the
hypotheses of every statement can be met, and small checks of single instructions.
-/
namespace Sys2Proof.Tests
set_option Elab.async false
open Sys2Proof.Machine

/-! ### Small states -/

/-- The state in which an instruction issues: group 0 of a grid launch, 64 registers, all lanes. -/
def base : State := State.reset.placed []

/-- The same with its group changed. -/
def with_ (f : Group → Group) : State := { base with grp := f base.grp }

/-- The same with its issuing split changed. -/
def split (f : Split → Split) : State := with_ fun g => { g with spl := f g.spl }

/-- The same with its team changed. -/
def team (f : Team → Team) : State := { base with teams := [(0, f placedTeam)] }

/-- A lane short form v2, v4, v6. -/
def lw : LaneShort := { d := 2, a := 4, b := 6, sk := 0, nw := false, g := 0 }

/-- A uniform short form s2, s4, s6 guarded by q0. -/
def uw : UniShort := { d := 2, a := 4, b := 6, sk := 0, g := 0 }

/-- An EA word of a type. -/
def ea (t : Ty) (imm : BitVec 16) : EA := { t := t, rnd := .mode, sat := false, gn := false, c := 8, xc := false, imm := imm }

/-- An EM word of a space and a type with S[8] as base. -/
def em (sp : Space) (t : Ty) (off : BitVec 12) : EM :=
  { space := sp, t := t, ord := false, gn := false, scope := .grp, sem := .rlx, c := 8, offset := off }

/-! ### Witnesses: instructions of the lane set -/

theorem witness_integerArithmetic :
    base.laneReady lw false true (regs2S lw (ea .i64 0)) = true ∧ base.laneReady lw false false (regs2S lw (ea .i8x4 0)) = true
    ∧ base.laneReady lw false true (regs3S lw (ea .u64 0)) = true := by decide +kernel

theorem witness_integerArithmeticShort : base.laneReady lw false false (regs2S lw (defaultEA .b32)) = true := by decide +kernel

theorem witness_logicAndShifts :
    base.laneReady lw false true (regs2S lw (ea .i64 0)) = true ∧ Ty.i64 ∈ [Ty.b32, .u32, .i64, .u64]
    ∧ base.laneReady lw false false (regs2S lw (defaultEA .b32)) = true := by decide +kernel

theorem witness_wideMultiplyAndTables :
    base.laneReady lw false true (regs3S lw (ea .i64 0)) = true ∧ base.laneReady lw false true (regs3S lw (ea .u64 0xCA00)) = true := by
  decide +kernel

/-- The widest field and the highest bit: 64 bits from bit 0, and one bit from bit 63. -/
theorem witness_bitFields :
    (1 ≤ fieldWidth 0x1000 ∧ fieldLsb 0x1000 + fieldWidth 0x1000 ≤ elemBits .u64)
    ∧ (1 ≤ fieldWidth 0x007F ∧ fieldLsb 0x007F + fieldWidth 0x007F ≤ elemBits .u64)
    ∧ base.laneReady lw false true (regsD lw ++ regsA lw ++ regsB lw false) = true
    ∧ (Ty.u64.wide && (WellFormed.minorOf (ea .u64 0x3000)).toNat == 3) = true ∧ base.laneReady lw false true (regsD lw ++ regsA lw) = true := by
  decide +kernel

theorem witness_selectionAndMoves :
    base.laneReady lw false true (regsD lw ++ regsA lw ++ regsB lw false) = true
    ∧ base.laneReady { lw with sk := 3 } false false (regsD lw) = true
    ∧ base.laneReady { lw with a := 4 } false ((4 : BitVec 6) == 4) (regsD lw) = true := by decide +kernel

theorem witness_predicates :
    base.grp.effMask lw.g false ≠ 0 ∧ base.reads (regsA lw ++ regsB lw false) = true
    ∧ (Instr.pset { lw with d := 7, a := 7, b := 0 } { ea .b32 0x3003 with c := 0 }).wellFormed = true := by decide +kernel

theorem witness_floatArithmetic :
    base.laneReady lw false true (regs2S lw (ea .f64 0)) = true ∧ base.laneReady lw false false (regs3S lw (ea .f16x2 0)) = true
    ∧ base.laneReady lw false false (regs2S lw (defaultEA .f32)) = true := by decide +kernel

theorem witness_specialFunctionsAndConversions :
    base.laneReady lw false false (regsD lw ++ regsA lw) = true
    ∧ WellFormed.cvtForm (WellFormed.tyOfBits ((ea .f64 0x0004).imm.extractLsb' 0 4)) .f64 = some .scalar
    ∧ base.laneReady lw false true (regsD lw ++ regsA lw) = true
    ∧ floatTy .e4m3x4 = true ∧ floatTy .i8x4 = false ∧ base.laneReady lw false false (regs3S lw (ea .i8x4 0)) = true := by decide +kernel

/-- One active lane, the highest, and all of them. -/
theorem witness_crossLane : ∀ s ∈ [base, split fun p => { p with mask := 0x80000000#32 }],
    s.laneReady lw false false (regsD lw ++ regsA lw ++ regsB lw true) = true ∧ s.grp.effMask lw.g false ≠ 0
    ∧ s.reads (regsA lw) = true := by decide +kernel

/-! ### Witnesses: uniform instructions and control flow -/

theorem witness_uniformArithmetic : base.uniReady uw.g false = true := by decide +kernel

theorem witness_uniformSelection :
    base.uniReady uw.g false = true ∧ 1 ≤ fieldWidth 0x1000 ∧ fieldLsb 0x1000 + fieldWidth 0x1000 ≤ elemBits .u64
    ∧ (Instr.umad uw { ea .i64 0 with c := 8 }).wellFormed = true := by decide +kernel

/-- A branch word on a lane predicate. -/
def eb : EB := { kind := true, pred := 1, neg := false, offset := 2 }

/-- p1 holds in lane 0 alone. -/
def lane0 (ds : List Deferred) (sibs : List Split) : State :=
  with_ fun g => { g with preds := [(1, 1)], spl := { g.spl with dstack := ds }, sibs := sibs }

/-- An entry of a deferred-mask stack of frame 0. -/
def deferred (waiting : Bool) (pc : Dword) : Deferred := { waiting := waiting, mask := 2, pc := pc, fn := 0, since := 0 }

/-- Another split with lanes, by number. -/
def sib (n : Nat) : Split := { base.grp.spl with num := n, mask := 4 }

theorem witness_branches :
    (∀ s ∈ [lane0 [] [], lane0 [] [sib 1, sib 2, sib 3]],
      s.grp.spl.mask &&& ~~~(s.grp.effMask 1 false) ≠ 0 ∧ s.grp.effMask 1 false ≠ 0)
    ∧ (lane0 [] []).grp.freeSplit = some 1 ∧ (lane0 [] [sib 1, sib 2, sib 3]).grp.freeSplit = none
    ∧ (split fun p => { p with mask := 0 }).grp.spl.mask &&& ~~~((split fun p => { p with mask := 0 }).grp.effMask 1 false) = 0
    ∧ base.grp.effMask 1 false = 0
    ∧ (base.grp.uniGet uw.a.toNat).toNat % 4 = 0 ∧ ((with_ fun g => { g with uni := [(4, 2)] }).grp.uniGet uw.a.toNat).toNat % 4 ≠ 0 := by
  decide +kernel

/-- The placed sub-core's granules allow a frame, or all of them are taken by a request ahead. -/
theorem witness_calls :
    (base.grp.qGet 0 ^^ false) = true ∧ (base.grp.qGet 1 ^^ false) = false
    ∧ base.grp.freeFrame = some 1 ∧ base.grp.depth < 127 ∧ base.mayGrant base.grp.sub base.grp.gid base.grp.spl.num 8 = true
    ∧ ({ base with requests := [{ gid := 0, sp := 1, granules := 1, need := .fill 1, sub := 0 }] } : State).mayGrant 0 0 0 1 = false := by
  decide +kernel

/-- A chain of `n` frames above the root, the one below the top resident or not, with a deferred-mask stack. -/
def deep (n : Nat) (res : Bool) (ds : List Deferred) : State :=
  with_ fun g =>
    { g with
      frames := (List.range (n + 1)).map fun i => (i, { placedFrame with
        fn := i, dep := i, pfn := i - 1, rpc := BitVec.ofNat 64 (0x2000 + 16 * i), fc := if i = 0 then 7 else 1
        res := if i + 1 = n then res else true, gmap := if i = 0 then placedFrame.gmap else [6 + 2 * i, 7 + 2 * i] })
      spl := { g.spl with chain := (List.range (n + 1)).reverse, dstack := ds } }

/-- The same entry for the frame on top of a chain of one above the root. -/
def entry (waiting : Bool) (pc : Dword) : Deferred := { deferred waiting pc with fn := 1 }

theorem witness_returns :
    base.uniReady uw.g false = true ∧ (base.grp.top?.map (·.dep)) = some 0
    ∧ (∀ r ∈ [true, false], ∀ ds ∈ [[], [deferred true 0]], ((deep 1 r ds).grp.top?.map fun f => (f.dep, f.pfn, f.ovll)) = some (1, 0, false)
      ∧ (((deep 1 r ds).grp.frame? 0).map (·.res)) = some r ∧ (deep 1 r ds).grp.spl.topFn = 1)
    ∧ (∀ d ∈ [entry false 0, entry true 0, entry true 0x1000], (deep 1 true [d]).grp.spl.dstack = [d] ∧ d.fn = (deep 1 true [d]).grp.spl.topFn)
    ∧ ((deep 3 true []).grp.top?.map (·.dep)) = some 3
    ∧ ((deep 3 true []).regOrImm { uw with sk := 1, b := 2 }).toNat = 2 ∧ (((deep 3 false []).grp.spl.chain[1]?).isSome ∧ ((deep 3 false []).grp.spl.chain[2]?).isSome) := by
  decide +kernel

/-- A second split of the issuing split's frame that is parked at its `rcv`. -/
def parkedSib : Split := { sib 1 with status := .parked }

theorem witness_reconvergence :
    (∀ s ∈ [base, split fun p => { p with dstack := [deferred true 0x2000] }], s.grp.sibs = [] ∧ s.grp.handler = none)
    ∧ (let s := lane0 [] [parkedSib]
      (s.grp.handler.isNone && s.grp.sibs.any fun q => q.mask != 0 && q.topFn == s.grp.spl.topFn) = true
      ∧ s.grp.spl.dstack = [] ∧ parkedSib.status = .parked ∧ parkedSib.pc = s.grp.spl.pc ∧ parkedSib.topFn = s.grp.spl.topFn
      ∧ s.grp.spl.num < parkedSib.num ∧ s.grp.spl.mask ≠ 0 ∧ parkedSib.mask ≠ 0)
    ∧ (deferred false 0).fn = base.grp.spl.topFn ∧ (deferred true 0x1000).pc = base.grp.spl.pc := by decide +kernel

/-- A group in handler mode with a cause code. -/
def handling (code : Nat) : State :=
  with_ fun g =>
    let h : Handler := { cause := BitVec.ofNat 64 code, epc := 0x1000, words := [], frozen := [g.spl], complete := false }
    { g with handler := some h }

theorem witness_exit :
    base.uniReady uw.g false = true ∧ base.grp.items = [] ∧ base.grp.handler = none ∧ base.grp.spl.dstack = []
    ∧ (split fun p => { p with dstack := [deferred true 0] }).grp.live = true ∧ (lane0 [] [sib 1]).grp.dropSplit.live = true
    ∧ base.grp.sibs = [] ∧ base.grp.frames = [(0, placedFrame)] ∧ base.grp.spl.chain = [0] ∧ base.others = []
    ∧ base.teamGroups 0 = [base.grp] ∧ base.team? 0 = some placedTeam ∧ { base.grp with gid := 1 }.live = true
    ∧ (∀ c ∈ [causePreempt, causeResume, causeTrap], ((handling c).grp.handler.map fun h => (h.cause.extractLsb' 0 8).toNat) = some c)
    ∧ causeTrap ≠ causePreempt ∧ causeTrap ≠ causeResume := by
  decide +kernel

/-! ### Witnesses: barriers, fences and counters -/

/-- The group waits for the answer to a load of v3 in lane 0. -/
def loading : State :=
  with_ fun g => { g with pend := [{ sp := 0, dest := .lane 0 3, mask := 1, old := 0, wait := true, age := 0, op := 0, was := [], late := [] }] }

/-- A write of the group of one byte at 0x9000 is on its way. -/
def flying : State :=
  { with_ fun g => { g with ack := 1 } with
    flights := [{ gid := 0, core := 0, op := 0, part := 0, space := 0, addr := 0x9000, old := [(0x9000, 0)], sent := false, landed := false }] }

/-- A team with one barrier of its own, whose word is given. -/
def barrier (w : Dword) : State := { team fun t => { t with barCount := 1 } with barriers := [(0, w)] }

theorem witness_barrierArrivals :
    base.uniReady uw.g false = true ∧ base.team.bind (fun t => t.barKey false 0) = none
    ∧ (barrier 0).team.bind (fun t => t.barKey (barCluster (ea .b32 0)) (barNumber (ea .b32 0))) = some 0
    ∧ (barrier 0).barWaiters 0 = false
    ∧ ((barrier 0).regOrImm { uw with sk := 1, b := 1 }).toNat = 1
    ∧ (({ barrier 0 with grp := { base.grp with uni := [(4, 65535)] } } : State).regOrImm uw).toNat = 65535
    ∧ (({ barrier 0 with grp := { base.grp with uni := [(4, 0x3FFFFFFF)] } } : State).regOrImm uw).toNat < 2 ^ 30 ∧ barTx ((barrier 0).bar 0) = 0
    ∧ ((barrier 0x10001).barCount { uw with sk := 1, b := 1 } (ea .b32 0)).isSome
    ∧ (barrier 0).barCount uw (ea .b32 0) = none
    ∧ ({ barrier 0 with others := [{ base.grp with gid := 1, spl := { base.grp.spl with status := .waiting .barrier } }] } : State).barWaiters 0
      = true
    ∧ base.grp.spl.status ≠ .waiting .barrier ∧ base.grp.sibs = [] ∧ (barrier 0).waitsAt 0 false = false
    ∧ (barrier 0).atOrder .team = true ∧ ({ barrier 0 with grp := loading.grp } : State).atOrder .team = false
    ∧ ({ barrier 0 with others := [{ base.grp with gid := 1, spl := { base.grp.spl with status := .waiting .barrier } }] } : State).waitsAt 0 false
      = true := by
  decide +kernel

/-- The split has arrived at barrier 0 in a phase. -/
def arrivedIn (ph : Bool) (s : State) : State :=
  { s with grp := { s.grp with spl := { s.grp.spl with arrived := true, parity := ph } } }

theorem witness_barrierWaits :
    base.uniReady uw.g false = true ∧ (barrier 0).team.bind (fun t => t.barKey (barCluster (ea .b32 0)) (barNumber (ea .b32 0))) = some 0
    ∧ (∀ ph ∈ [true, false], ∀ w ∈ [(0 : Dword).toNat, 2 ^ 31],
        (arrivedIn ph (barrier (BitVec.ofNat 64 w))).grp.spl.arrived = true ∧ (barrier (BitVec.ofNat 64 w)).grp.sibs = [])
    ∧ barPh ((barrier 0).bar 0) = false ∧ barPh ((barrier 0x80000000).bar 0) = true
    ∧ (barrier 0).grp.spl.arrived = false ∧ ((barrier 0).grp.uniGet 4).getLsbD 0 = false
    ∧ (barrier 0x0001000100000000).barCount { uw with sk := 1, b := 1 } (ea .b32 0) = some 1
    ∧ barPend ((barrier 0x0001000100000000).bar 0) = 1 ∧ barTx ((barrier 0x0001000100000000).bar 0) = 0
    ∧ barPend ((barrier 0x0002000200000000).bar 0) - 1 ≠ 0
    ∧ base.grp.spl.status = .run ∧ (split fun p => { p with status := .again }).grp.spl.status = .again
    ∧ (split fun p => { p with status := .waiting .barrier, arrived := true }).grp.spl.status = .waiting .barrier
    ∧ (split fun p => { p with status := .again }).uniReady uw.g false = true
    ∧ (∀ sc ∈ [Scope.team, .clu], (barrier 0).atOrder sc = true ∧ ({ barrier 0 with grp := loading.grp } : State).atOrder sc = false) := by
  decide +kernel

/-- An EA word of a fence with a scope code in its parameter. -/
theorem witness_fencesAndCounters :
    base.uniReady uw.g false = true ∧ base.grp.ack = 0
    ∧ fenceScope (ea .b32 0x0000) = .grp ∧ fenceScope (ea .b32 0x0005) = .sys ∧ (with_ fun g => { g with ack := 1 }).grp.ack ≠ 0
    ∧ (base.grp.pend.all fun x => !x.wait) = true ∧ (loading.grp.pend.all fun x => !x.wait) = false
    ∧ (flying.flights.any fun f => f.gid == 0 && decide (f.loc.home ≤ 8)) = true ∧ flying.grp.ack ≠ 0
    ∧ (base.grp.counters.filter fun o => o.cls == uw.a.toNat).length = 0
    ∧ min 255 (base.uniB uw).toNat = 0
    ∧ ((with_ fun g => { g with counters := [{ cls := 4, id := 0, finished := false }] }).grp.counters.filter fun o => o.cls == uw.a.toNat).length
      = 1 := by decide +kernel

/-! ### Witnesses: memory -/

/-- A team of 4 KiB of team memory, and lane index L in v4. -/
def mem : State :=
  { team fun t => { t with tmSize := 4096 } with
    grp := { base.grp with frames := [(0, { placedFrame with regs := (List.range 31).map fun l => (32 * 4 + l + 1, BitVec.ofNat 32 (l + 1)) })] } }

/-- The same with lane 31 alone. -/
def mem31 : State := { mem with grp := { mem.grp with spl := { mem.grp.spl with mask := 0x80000000#32 } } }

theorem coherent_mem : mem.coherent mem.grp.core := ⟨fun _ => rfl, by decide +kernel⟩

/-- Team memory up to its last element, and global memory through the page table. -/
theorem witness_loads : mem.pipeOpen = true ∧
    (∀ sp ∈ [Space.team, .global], mem.laneReady lw false false (regsD lw ++ regsAddr lw) = true
      ∧ ∀ l < 32, (mem.laneElem .read lw (em sp .b32 0) 4 0 l).isFound = true)
    ∧ mem31.grp.effMask 0 false = 0x80000000#32 ∧ (mem31.laneElem .read lw (em .team .b32 0) 4 992 31).isFound = true ∧ mem31.reads (regsD lw ++ regsAddr lw) = true
    ∧ mem31.laneElem .read lw (em .team .b32 0) 4 993 31 = .fail causeProtection := by
  decide +kernel

theorem witness_stores :
    mem.reads (regsData lw ++ regsAddr lw) = true ∧ mem.grp.effMask lw.g false ≠ 0
    ∧ (∀ sp ∈ [Space.team, .global], ∀ l < 32, (mem.laneElem .write lw (em sp .b32 0) 4 0 l).isFound = true)
    ∧ mem.pipeOpen = true ∧ mem.flights = [] ∧ mem.atOrder .sys = true
    ∧ (em .team .b32 0).sem ≠ .rel ∧ ((lookupKey mem.relwin mem.grp.core).getD []).length ≤ 64 ∧ mem.grp.ack + 64 ≤ 65535
    ∧ ({ mem31 with grp := { mem31.grp with items := [(31, { desc := 0x500000000, qkey := 0, lock := none })] } } : State).heldKey 31 = some (0, 1) := by
  decide +kernel

theorem witness_parameterLoads :
    lookupKey mem.grp.windows 8 = none
    ∧ ({ mem with grp := { mem.grp with windows := [(8, { base := 0x8000, size := 64 })] } } : State).laneReady lw false false (regsD lw ++ regsAddr lw)
      = true
    ∧ (∀ l < 32, (0x8000 + mem.grp.paramOffset lw (em .param .b32 0) l).toNat % 4 = 0
        ∧ (mem.globalRun .read (0x8000 + mem.grp.paramOffset lw (em .param .b32 0) l).toNat 4).isFound = true)
    ∧ (mem.grp.paramOffset lw (em .param .b32 0) 15).toNat + 4 = 64 := by decide +kernel

/-- 16 rows of 128 bytes up to the end of team memory, into the last registers of the frame. -/
def tileState : State := { mem with grp := { mem.grp with uni := [(4, 128), (8, 2048)] } }

theorem witness_collectiveTiles :
    tileState.tileReady .read { lw with d := 48, b := 15 } (em .team .b32 0) = true
    ∧ tileState.tileReady .write { lw with d := 48, b := 15 } (em .global .b32 0) = true ∧ tileState.grp.ack + 128 ≤ 65535
    ∧ tileState.grp.frameSize < 49 + tileRows { lw with b := 15 } ∧ mem31.grp.spl.mask ≠ 0xFFFFFFFF#32 := by decide +kernel

theorem witness_atomics :
    mem.laneReady lw false false (regsD lw ++ regsAddr lw ++ regsData lw) = true ∧ mem.grp.opRoom 4 = true ∧ mem.grp.ack + 64 ≤ 65535
    ∧ semReleases (em .team .b32 0).sem = false
    ∧ ∀ l < 32, (mem.laneElem .write lw (em .team .b32 0) 4 0 l).isFound = true ∧ (mem.laneElem .write lw (em .team .b32 0) 4 0 l).host = false := by
  decide +kernel

theorem witness_countersInMemory :
    (∀ k ∈ [true, false], mem.counterPlace (if k then .write else .read) (em .team .u64 511) =
      .ok [{ loc := ⟨1, 4088⟩, len := 8, cached := true, entry := none }])
    ∧ mem.uniReady uw.g false = true ∧ (mem.uniB uw).toNat ≤ mem.valueAt ((List.range 8).map fun i => ⟨1, 4088 + i⟩)
    ∧ mem.valueAt ((List.range 8).map fun i => ⟨1, 4088 + i⟩) < (mem.uniB { uw with sk := 1, b := 1 }).toNat ∧ mem.grp.ack < 65535
    ∧ (mem.uniB uw).toNat ≤ mem.seenAt ((List.range 8).map fun i => ⟨1, 4088 + i⟩) ∧ mem.hostCache = [] := by
  decide +kernel

/-! ### Witnesses: accumulator memory and matrix instructions -/

/-- Tile 0 is the team's, its token held by the group or not, and the group's window is its 64 rows. -/
def acc (t : Token) (alloc : Bool) (steps : List MatStep) : State :=
  { mem with
    engines := [(0, { Engine.empty with
      steps := steps, tiles := [(0, { team := some 0, alloc := alloc, token := t, waiters := [], clearing := false })] })]
    grp := { mem.grp with awb := 0, awl := 64 } }

theorem witness_accumulatorAccess :
    (acc (.held 0) false []).laneReady lw false false (regsD lw ++ regsAddr lw) = true
    ∧ (acc (.held 0) false []).accFault lw (em .team .b32 0) 0xFFFFFFFF#32 = none
    ∧ (acc .matrix false []).accFault lw (em .team .b32 0) 0xFFFFFFFF#32 = some causeToken
    ∧ (acc (.held 0) false []).accFault lw (em .team .b32 4095) 0xFFFFFFFF#32 = some causeWindow
    ∧ ({ acc (.held 0) false [] with grp := { (acc (.held 0) false []).grp with uni := [(8, 2)] } } : State).accFault lw (em .team .b32 0) 0xFFFFFFFF#32
      = some causeMisaligned
    ∧ (acc (.held 0) false []).reads (regsData lw ++ regsAddr lw) = true
    ∧ ((acc (.held 0) false []).engine 0).bindings = [] ∧ (acc (.held 0) false []).pipeOpen = true
    ∧ ({ team := 0, lt := 0, st := 1, cap := 1, vt := 0, cbase := 0, cstep := 0, dom := none } : Binding).isList 0 = true := by
  decide +kernel

theorem witness_tokensAndTiles :
    base.uniReady uw.g false = true ∧ (acc .matrix true []).grp.inWindow 0 = true ∧ (acc .matrix true []).grp.inWindow 1 = false
    ∧ ((acc .matrix true []).regOrImm uw).toNat % 16 = 0
    ∧ (∀ x ∈ [Token.held 0, .held 1, .matrix], ((acc x true []).tile 0).token = x ∧ ((acc x true []).tile 0).team = some 0)
    ∧ (acc (.held 0) true []).heldTileWrites 0 0 0 = false
    ∧ ({ acc (.held 0) true [] with relwin := [(0, [{ entry := 0, seq := 0, gid := 0, lane := 0, space := 3, addr := 0, bytes := [1], sem := 0, scope := 5 }])] }
        : State).heldTileWrites 0 0 0 = true
    ∧ ({ base with others := [{ base.grp with gid := 1, sc := 1 }] } : State).group? 1 = some { base.grp with gid := 1, sc := 1 }
    ∧ base.grp.sub ≠ { base.grp with sc := 1 }.sub ∧ ((acc .matrix true []).engine 0).steps.all (fun st => st.lead.e.tile.toNat != 0) = true
    ∧ ((acc .matrix true []).onTile 0 fun x => { x with clearing := true }).tile 0 =
      { team := some 0, alloc := true, token := .matrix, waiters := [], clearing := true }
    ∧ base.group? 0 = some base.grp ∧ ((acc .matrix true []).engine 0).holdsRows 0 0 64 = true
    ∧ ((acc .matrix true []).engine 0).holdsRows 0 64 65 = false
    ∧ (base.regOrImm { uw with sk := 1, b := 16 }).toNat = 16
    ∧ ((List.range 16).filter fun t => ((base.engine 0).tile t).team.isNone).length = 16
    ∧ ({ acc .matrix true [] with grp := base.grp }.groups.any fun x => x.engineKey == 0 && x.inWindow 0) = false := by decide +kernel

/-- An EX word in quad mode. -/
def ex : EX := { fb := 8, tile := 0, row := 0, mrows := 0, kfrac := 0, mode := 0, fin := false, sp := false }

theorem witness_matrixIssue :
    base.grp.spl.mask = 0xFFFFFFFF#32 ∧ mem31.grp.spl.mask ≠ 0xFFFFFFFF#32 ∧ (base.engine 0).dispatched 0 0 = false
    ∧ ({ Engine.empty with ports := [{ gid := 0, sp := 0, sc := 0, op := 0, w := lw, e := ex, fmt := [], sb := 0 }] } : Engine).dispatched 0 0 = true
    ∧ base.grp.opRoom 0 = true ∧ lw.a.toNat < base.grp.frameSize
    ∧ (with_ fun g => { g with frames := [(0, { placedFrame with fc := 0 })] }).grp.frameSize ≤ ({ lw with a := 8 } : LaneShort).a.toNat
    ∧ (({ Engine.empty with pairFailed := [(0, 0, causePairTimeout)] } : Engine).pairFailed.find? fun x => x.1 == 0 && x.2.1 == base.grp.sc % 4)
      = some (0, 0, causePairTimeout)
    ∧ ({ ex with mode := 2 } : EX).mode = 2 := by decide +kernel

/-! ### Witnesses: ranked lists and copies -/

/-- Tiles 0 and 1 are the team's and held; list tile 0 is bound with staging tile 1 where `bound`. -/
def lists (bound : Bool) : State :=
  let tile : Tile := { team := some 0, alloc := false, token := .held 0, waiters := [], clearing := false }
  let b : Binding := { team := 0, lt := 0, st := 1, cap := 0, vt := 0, cbase := 0, cstep := 0, dom := none }
  { mem with
    engines := [(0, { Engine.empty with tiles := [(0, tile), (1, tile)], bindings := if bound then [b] else [] })]
    grp := { mem.grp with awb := 0, awl := 128 } }

theorem witness_rankedLists :
    base.reads (regsA lw ++ regsB lw false) = true ∧ base.grp.effMask lw.g false ≠ 0
    ∧ base.reads (regsA lw ++ regsB lw false ++ (List.range (2 * 8)).map fun i => 48 + i) = true
    ∧ (∀ j < 2 * 8, ∀ i < j, locate base.grp.frames base.grp.spl.chain (48 + i) ≠ locate base.grp.frames base.grp.spl.chain (48 + j))
    ∧ 62 + 1 < base.grp.frameSize ∧ base.grp.twoRegs 62 = true
    ∧ (((lists true).engine 0).listBinding 63).isSome ∧ (lists true).grp.awb ≤ 63 ∧ 63 < (lists true).grp.awl
    ∧ ((lists true).tile (63 / 64)).token = .held 0
    ∧ (listConfig 0x0310 0).fieldsOk = false ∧ (listConfig 0x0010 0).fieldsOk = true
    ∧ (∀ t ∈ (listConfig 0x0010 0).tiles ((lists false).engine 0).bindings, (((lists false).engine 0).tile t).team = some 0
        ∧ (lists false).grp.awb ≤ 64 * t ∧ 64 * t + 64 ≤ (lists false).grp.awl ∧ (((lists false).engine 0).tile t).token = .held 0)
    ∧ (lists false).configBlocked 0 0 (listConfig 0x0010 0) = false ∧ base.grp.counters = []
    ∧ (∀ fin ∈ [true], ∀ o ∈ [({ cls := configClass, id := 0, finished := fin } : EngineOp)], o.id = base.grp.spl.num ∧ o.finished = true)
    ∧ (lists true).place .read .team 0 ((lists true).grp.uniAddr (em .team .b32 0) 4) 16 =
        .ok [{ loc := ⟨1, 0⟩, len := 16, cached := true, entry := none }]
    ∧ imageHeaderOk 0 ((List.range 16).map fun i => (lists true).seeGet ⟨1, i⟩) = true ∧ (lists true).grp.opRoom 2 = true
    ∧ (lists true).pipeOpen = true ∧ (lists true).flights = [] ∧ ((lists true).engine 0).mergesWaiting = [] ∧ ((lists true).engine 0).merges.length < 4 := by decide +kernel

/-- Copies of the group in flight. -/
def copying (n : Nat) (batch : Option Nat) : State :=
  { mem with copies := (List.range n).map fun i =>
      (i, { gid := 0, core := 0, ctx := 0, moves := [], kind := .batch, batch := batch, count := 0 }) }

/-- A descriptor of `cpb` in s8 to s15: one row of 16 bytes from global 0x8000 to team 0. -/
def cpbState : State :=
  { mem with grp := { mem.grp with uni := [(8, 0x8000), (10, 0x0001000100000010), (13, 0x8)] } }

theorem witness_copiesBegin :
    mem.reads (regsAddr lw ++ [lw.b.toNat]) = true ∧ mem.grp.effMask lw.g false ≠ 0 ∧ (copying 64 none).copiesOf 0 = 64
    ∧ (copying 63 none).copiesOf 0 < 64
    ∧ (∀ l < 32, (mem.laneElem .read { lw with d := 0 } (em .global .b32 0) 4 0 l).isFound = true
        ∧ (mem.checkElem .write .team l ((mem.grp.laneGet 6 l).setWidth 64) 4).isFound = true)
    ∧ mem.copyKind 0 false 0 0 0 = some .batch ∧ (mem.copyKind 2 false 0 0x8000 0).isSome ∧ (mem.copyKind 3 false 0 0x8000 0).isSome
    ∧ ({ mem with teams := [(0, { placedTeam with tmSize := 4096, barCount := 1 })] } : State).copyKind 1 false 0 0 0 = some (.bar false 0)
    ∧ mem.pipeOpen = true ∧ cpbState.pipeOpen = true
    ∧ (∀ k ∈ [0, 1, 2, 3], cpbCaddrAligned k (cpbState.grp.cpbDesc 8) = true)
    ∧ cpbCaddrAligned 2 (({ cpbState with grp := { cpbState.grp with uni := [(8, 0x8000), (10, 0x0001000100000010), (13, 0x8), (14, 1)] } } : State).grp.cpbDesc 8)
      = false
    ∧ cpbAligned (cpbState.grp.cpbDesc 8) = true ∧ cpbRanges (cpbState.grp.cpbDesc 8) = true
    ∧ (∀ c ∈ cpbChunks (cpbState.grp.cpbDesc 8),
        (cpbState.place .read (cpbSpace (fieldNat (cpbState.grp.cpbDesc 8) 320 3)) 0 (BitVec.ofNat 64 c.1) c.2.2).isFound = true
        ∧ (cpbState.place .write (cpbSpace (fieldNat (cpbState.grp.cpbDesc 8) 323 3)) 0 (BitVec.ofNat 64 c.2.1) c.2.2).isFound = true) := by
  decide +kernel

theorem witness_copyBatches :
    base.uniReady uw.g false = true
    ∧ (List.replicate 8 ((1 : Nat), false)).filter (fun c => !c.2) = (1, false) :: List.replicate 7 (1, false) ∧ base.grp.closed = []
    ∧ (∀ b < 9, base.grp.spl.status ≠ .waiting (.closing b))
    ∧ (split fun p => { p with status := .waiting (.closing 1) }).grp.spl.status = .waiting (.closing 1)
    ∧ (split fun p => { p with status := .waiting (.closing 1) }).uniReady uw.g false = true
    ∧ ((base.uniA uw).extractLsb' 0 32 - base.grp.batch).toNat = 0
    ∧ ((1 : Word) - base.grp.batch).toNat = 1 ∧ ((0x7FFFFFFF : Word) - base.grp.batch).toNat < 2 ^ 31
    ∧ 2 ^ 31 ≤ ((0x80000000 : Word) - base.grp.batch).toNat := by decide +kernel

/-! ### Witnesses: tasks, queues, items, logs and pipes -/

/-- Bytes in device memory, which context 0 maps with the walker's bits set, and uniform registers. -/
def glob (ms : List (Nat × List Byte)) (us : List (Nat × Dword)) : State :=
  { mem with
    mem := (ms.foldl (fun m x => m.store x.1 x.2) mem.mem).store 0x400000 [0xCF]
    grp := { mem.grp with uni := us } }

/-- A handle of queue 7 of partition 0 with every right, under the key 0. -/
def handle7 : Dword := 0x000007E0008BC263

/-- The same of queue 8. -/
def handle8 : Dword := 0x000008E0007CEB4A

/-- An empty queue of a kind, of 16 slots at 0xA000, at home on die 0. -/
def queueOf (kind : Nat) : Queue := { queueOfBlock 0 with base := 0xA000, logcap := 4, kind := kind }

/-- The state with queue 7 open. -/
def open7 (s : State) (q : Queue) : State := { s with queues := [(7, q)], partRegs := Sparse.set 0 s.partRegs 0x30 100 }

theorem ok_of (x : Except Nat Nat) (k : Nat) (h : x.toOption = some k) : x = .ok k := by
  cases x <;> simp_all [Except.toOption]

theorem names_of {s : State} {h : Dword} {need : BitVec 3} {k : Nat} {q : Queue}
    (a : (s.checkHandle (s.partition s.grp.gid) h need).toOption = some k) (b : lookupKey s.queues k = some q) : s.names h need k q :=
  ⟨ok_of _ _ a, b⟩

/-- A handle that fails its check, with the cause. -/
theorem error_of (x : Except Nat Nat) (h : x.toOption = none) : ∃ c, x = .error c := by
  cases x <;> simp_all [Except.toOption]

/-- The place of bytes of device memory that context 0 maps. -/
def piece (a n : Nat) : Piece := { loc := ⟨0, a⟩, len := n, cached := true, entry := some 0x400000 }

/-- A future at 0x8000 with a waiter node beside it whose task is at `tcb`, pending or resolved. -/
def futures (st tcb : Nat) : State := glob [(0x8007, [BitVec.ofNat 8 (64 * st)]), (0x8010, leBytes 8 tcb)] [(4, 0x8000), (6, 0x8010)]

theorem witness_futures :
    (∀ st ∈ [0, 1, 2, 3], ∀ tcb ∈ [0x8040, 0x8048], (futures st tcb).uniReady uw.g false = true ∧ (futures st tcb).atOrder .sys = true
      ∧ (futures st tcb).pipeOpen = true
      ∧ (futures st tcb).objectAt ((futures st tcb).grp.uniGet 4) 16 (piece 0x8000 16)
      ∧ (futures st tcb).objectAt ((futures st tcb).grp.uniGet 6) 16 (piece 0x8010 16) ∧ (futures st tcb).futureState ⟨0, 0x8000⟩ = st
      ∧ (futures st tcb).objNat ⟨0, 0x8010⟩ 0 8 = tcb)
    ∧ (futures 2 0x8040).objectAt (0x8040 : Dword) 64 (piece 0x8040 64) ∧ 0x8048 % 64 ≠ 0
    ∧ (0x8000 : Nat) + 16 ≤ 0x8010 := by
  unfold State.objectAt State.marked; decide +kernel

/-- A task control block at 0x8000 in a state, with one count, a launch queue and perhaps a future at 0x8040. -/
def taskAt (st pend : Nat) (fut : Nat) : State :=
  open7 (glob [(0x8000, leBytes 1 st), (0x8010, leBytes 4 pend), (0x8020, leBytes 8 handle7.toNat), (0x8038, leBytes 8 fut)] [(4, 0x8000)])
    (queueOf 3)

theorem witness_tasks :
    ∀ t ∈ [taskAt 0 1 0, taskAt 2 1 0, taskAt 2 0 0x8040], t.uniReady uw.g false = true ∧ t.atOrder .sys = true ∧ t.pipeOpen = true
      ∧ t.objectAt (t.grp.uniGet 4) 64 (piece 0x8000 64) ∧ t.objectAt (0x8040 : Dword) 16 (piece 0x8040 16)
      ∧ (t.taskState ⟨0, 0x8000⟩, t.objNat ⟨0, 0x8000⟩ 16 4, t.objNat ⟨0, 0x8000⟩ 56 8)
        ∈ [(0, 1, 0), (2, 1, 0), (2, 0, 0x8040)] ∧ t.futureState ⟨0, 0x8040⟩ < 2 := by
  unfold State.objectAt State.marked; decide +kernel

theorem witness_taskSpawn : ((taskAt 0 1 0).names (BitVec.ofNat 64 ((taskAt 0 1 0).objNat ⟨0, 0x8000⟩ 32 8)) rightsEnq 7 (queueOf 3))
    ∧ (queueOf 3).kind = 3 ∧ (queueOf 3).swr = false :=
  ⟨names_of (by decide +kernel) (by decide +kernel), by decide +kernel⟩

/-- Queue 7 as a ring whose first 16 slots are valid, and its handle in s8. -/
def ring (q : Queue) (h : Dword) (m : Mask) : State :=
  let s := glob ((List.range 16).map fun i => (0xA000 + q.slotSize * i, leBytes 16 (100 + i) ++ List.replicate (q.slotSize - 24) 0 ++ leBytes 8 1)) [(8, h)]
  open7 { s with grp := { s.grp with spl := { mem.grp.spl with mask := m } } } q

theorem witness_queueInstructions :
    (ring (queueOf 0) handle7 0xFFFFFFFF#32).grp.effMask lw.g false = 0xFFFFFFFF#32
    ∧ (ring (queueOf 0) handle7 0xFFFFFFFF#32).reads [6, 7, 8, 9] = true ∧ (em .global .b32 0).offset.getLsbD 0 = false
    ∧ (queueOf 0).swr = false ∧ (queueOf 0).kind ≠ 2 ∧ (queueOf 0).deferred = [] ∧ semReleases (em .global .b32 0).sem = false
    ∧ { queueOf 0 with closed := true }.closed = true ∧ (queueOf 0).count + 16 ≤ 2 ^ (queueOf 0).logcap ∧ (queueOf 0).logcap ≤ 31
    ∧ (ring (queueOf 0) handle7 1).reads [2] = true ∧ (queueOf 0).recordSize / 4 ≤ 64
    ∧ takesFrom false (queueOf 0) = true ∧ takesFrom true (queueOf 0) = true ∧ takesFrom true { queueOf 1 with bound := [1] } = false
    ∧ (queueOf 0).tail = (queueOf 0).head ∧ lanesOf 1 = [0] ∧ (ring (queueOf 0) handle7 1).pipeOpen = true
    ∧ (ring (queueOf 1) handle7 1).atOrder .sys = true ∧ (∀ l < 32, descClass ((ring (queueOf 1) handle7 1).grp.recordOf 6 l) ≠ 3)
    ∧ (em .global .b32 1).offset.getLsbD 0 = true ∧ (queueOf 1).reinjected.length < 64 ∧ (queueOf 1).kind = 1 ∧ (queueOf 0).kind ≠ 1
    ∧ ((ring { queueOf 0 with tail := 3 } handle7 1).dequeue 7).2.isSome ∧ ((ring { queueOf 0 with tail := 3 } handle7 1).stealTail 7).2.isSome := by
  decide +kernel

theorem witness_queueHandles :
    (ring (queueOf 0) handle7 1).names handle7 rightsEnq 7 (queueOf 0) ∧ (ring (queueOf 0) handle7 1).names handle7 rightsDeq 7 (queueOf 0)
    ∧ (ring (queueOf 0) handle7 1).names handle7 rightsStl 7 (queueOf 0)
    ∧ (ring (queueOf 1) handle7 1).names handle7 (rightsEnq ||| rightsDeq) 7 (queueOf 1)
    ∧ ∃ c, (ring (queueOf 0) handle7 1).checkHandle ((ring (queueOf 0) handle7 1).partition 0) 0 rightsEnq = .error c :=
  ⟨names_of (by decide +kernel) (by decide +kernel), names_of (by decide +kernel) (by decide +kernel),
    names_of (by decide +kernel) (by decide +kernel), names_of (by decide +kernel) (by decide +kernel), error_of _ (by decide +kernel)⟩

/-- Lane 0 holds an item of queue 7 with flow 5, a class and a sequence, under a lock; lane 0 of v6 to v9 is the descriptor of an
item that is parked. -/
def itemWith (q : Queue) (m : Mask) (cls seq : Nat) (lock : Option Nat) : State :=
  let s := ring q handle7 m
  let it : Item := { desc := descWith 0 5 cls seq, qkey := 7, lock := lock }
  let p := descWith 0 5 2 1
  { s with
    locks := [(3, { held := true, next := 1, point := 0, resolved := [], since := 0, waited := 0, posted := [] })]
    parkedItems := [(0, [{ qkey := 7, desc := p, lock := some 3, slot := false, since := 0 }])]
    grp := { s.grp with items := [(0, it)], queue := some 7
                        frames := [(0, { placedFrame with regs :=
                          [(32 * 4, 5), (32 * 6, p.extractLsb' 0 32), (32 * 7, p.extractLsb' 32 32), (32 * 8, p.extractLsb' 64 32)
                          , (32 * 9, p.extractLsb' 96 32)] })] } }

/-- The same with class 0, under lock 3. -/
def itemState (q : Queue) (m : Mask) : State := itemWith q m 0 0 (some 3)

theorem witness_items :
    (itemState (queueOf 0) 1).reads (regsA lw) = true ∧ (itemState (queueOf 0) 1).grp.effMask lw.g false = 1
    ∧ (∀ it, (itemState (queueOf 0) 1).grp.item 0 = some it → descFlow it.desc = 5 ∧ descClass it.desc = 0)
    ∧ ((itemState (queueOf 0) 1).grp.srcA lw false 0).extractLsb' 0 32 = 5
    ∧ ((itemState (queueOf 0) 1).grp.item 0).map (fun it => (it.qkey, descClass it.desc)) = some (7, 0)
    ∧ lookupKey (itemState (queueOf 0) 1).queues 7 = some (queueOf 0) ∧ lanesOf 1 = [0] ∧ (itemState (queueOf 0) 1).pipeOpen = true
    ∧ (itemState (queueOf 0) 1).reads [4, 7] = true
    ∧ (takeParked 7 ((itemState (queueOf 0) 1).grp.laneGet 4 0) ((itemState (queueOf 0) 1).grp.laneGet 7 0)
        ((itemState (queueOf 0) 1).parkedTable 0)).isSome
    ∧ (let d := (itemState (queueOf 1) 1).grp.recordOf 6 0
       (takeParked 7 (descFlow d) (d.extractLsb' 32 32) ((itemState (queueOf 1) 1).parkedTable (queueOf 1).home)).isSome)
    ∧ (ring (queueOf 0) handle7 1).grp.queue = none
    ∧ (itemState (queueOf 0) 3).grp.yieldTargets 3 true ≠ 0 ∧ (itemState (queueOf 0) 3).isNode 0 = false
    ∧ ((itemState (queueOf 0) 1).grp.queue).bind (lookupKey (itemState (queueOf 0) 1).queues) = some (queueOf 0)
    ∧ (queueOf 0).closed = false ∧ { queueOf 0 with closed := true }.closed = true := by
  decide +kernel

/-- An item in turn or out of turn, the lock of its flow free or held by another; writes of the group still to be acknowledged. -/
theorem witness_itemLocks :
    (∀ sq ∈ [0, 1], ∀ it, (itemWith (queueOf 0) 1 1 sq none).grp.item 0 = some it → it.lock = none ∧ descClass it.desc = 1
      ∧ (((itemWith (queueOf 0) 1 1 sq none).lock ((itemWith (queueOf 0) 1 1 sq none).itemEntry it)).point = descSeq it.desc ↔ sq = 0))
    ∧ (lockKey 0 5 0 ≠ 3 ∧ ((itemState (queueOf 0) 1).lock (lockKey 0 5 0)).held = false ∧ ((itemState (queueOf 0) 1).lock 3).held = true)
    ∧ ({ itemState (queueOf 0) 1 with locks := [(lockKey 0 5 0, { held := true, next := 0, point := 0, resolved := [], since := 0, waited := 0
                                                                  posted := [] })] } : State).lock (lockKey 0 5 0)
      = { held := true, next := 0, point := 0, resolved := [], since := 0, waited := 0, posted := [] }
    ∧ (itemWith (queueOf 0) 1 2 0 (some 3)).grp.orders 1 = true ∧ (itemState (queueOf 0) 1).grp.orders 1 = false
    ∧ (itemState (queueOf 0) 1).atOrder .die = true
    ∧ ({ itemState (queueOf 0) 1 with grp := { (itemState (queueOf 0) 1).grp with pend := loading.grp.pend } } : State).atOrder .die = false := by
  decide +kernel

theorem witness_itemHandles : (itemState (queueOf 0) 1).names ((itemState (queueOf 0) 1).grp.uniGet 8) rightsDeq 7 (queueOf 0)
    ∧ (itemState (queueOf 0) 1).names ((itemState (queueOf 0) 1).grp.uniGet 8) rightsEnq 7 (queueOf 0) :=
  ⟨names_of (by decide +kernel) (by decide +kernel), names_of (by decide +kernel) (by decide +kernel)⟩

/-- A routing log of one layer and one slot of 16 bytes, whose state word reads `v`. -/
def logState (v : Nat) : State :=
  glob [(0x8000, leBytes 32 (0x9000 * 2 ^ 192 + 0xB000 * 2 ^ 128 + 16 * 2 ^ 96 + 2 ^ 80)), (0x9000, leBytes 8 v)] [(4, 0x8000), (8, 0xC000)]

/-- Its slot, for micro-batch 0 and layer 0. -/
def slot0 : LogSlot := { state := 0x9000, data := 0xB000, esz := 16, m := 0 }

theorem witness_routingLogs : ∀ v ∈ [0, 1, 5], (logState v).uniReady uw.g false = true
    ∧ (logState v).atOrder .sys = true ∧ (logState v).pipeOpen = true ∧ (logState v).flights = [] ∧ ((logState v).grp.uniGet 8).toNat % 16 = 0
    ∧ ∀ p ∈ (logState v).runPlaces .read .global 0xC000 1 ++ (logState v).runPlaces .write .global 0xB000 1,
        p.isFound = true ∧ ∀ x ∈ p.pieces, (logState v).marked x := by
  unfold State.marked; decide +kernel

theorem witness_routingSlots :
    ∀ k ∈ [Access.read, .write], ∀ v ∈ [0, 1, 5], LogAt k (logState v) uw slot0 (piece 0x9000 8) (BitVec.ofNat 64 v) := by
  intro k hk v hv
  have h : ∀ k ∈ [Access.read, .write], ∀ v ∈ [0, 1, 5],
      ((logState v).grp.uniGet 4).toNat % 32 = 0
      ∧ ((logState v).runPlaces .read .global ((logState v).grp.uniGet 4) 2 = [.ok [piece 0x8000 16], .ok [piece 0x8010 16]]
        ∧ (logState v).marked (piece 0x8000 16) ∧ (logState v).marked (piece 0x8010 16)
        ∧ (piece 0x8000 16).len = 16 ∧ (piece 0x8010 16).len = 16
        ∧ logSlot (BitVec.ofNat 256 ((logState v).valueAt (((List.range 16).map fun i => (piece 0x8000 16).loc.plus i)
            ++ (List.range 16).map fun i => (piece 0x8010 16).loc.plus i))) ((logState v).grp.uniGet 6) = some slot0)
      ∧ (slot0.state.toNat % 8 = 0 ∧ slot0.data.toNat % 16 = 0)
      ∧ ((logState v).globalRun k slot0.state.toNat 8 = .ok [piece 0x9000 8] ∧ (logState v).marked (piece 0x9000 8)
        ∧ (piece 0x9000 8).len = 8
        ∧ BitVec.ofNat 64 v = BitVec.ofNat 64 ((logState v).valueAt ((List.range 8).map fun i => (piece 0x9000 8).loc.plus i))) := by
    unfold State.marked; decide +kernel
  obtain ⟨a, b, c, d⟩ := h k hk v hv
  exact ⟨a, ⟨_, _, b⟩, c, d⟩

/-- A pipe of 2 slots of 16 bytes at 0 of team memory, and a buffer at 64. -/
def pipeState (head tail : Nat) : State :=
  let s := glob [] [(8, 64)]
  { s with teamMem := s.teamMem.store 0 (leBytes 4 head ++ leBytes 4 tail ++ leBytes 4 16 ++ leBytes 4 1) }

theorem witness_pipes : ∀ x ∈ [(0, 0), (0, 1), (0, 2)], ∀ k ∈ [true, false],
    PipeAt (pipeState x.1 x.2) uw (ea .b32 0) (if k then .read else .write) (BitVec.ofNat 32 x.1) (BitVec.ofNat 32 x.2) 16 2 0 64 := by
  intro x hx k hk
  have h : ∀ x ∈ [(0, 0), (0, 1), (0, 2)], ∀ k ∈ [true, false],
      let s := pipeState x.1 x.2
      let a : Access := if k then .read else .write
      (s.place .read .team 0 (s.grp.uniGet 4) 16 = .ok [{ loc := ⟨1, 0⟩, len := 16, cached := true, entry := none }])
      ∧ ((s.grp.uniGet 4).toNat % 16 = 0 ∧ (s.grp.uniGet 8).toNat % 16 = 0)
      ∧ (s.valueAt ((List.range 4).map fun i => ⟨1, 0 + i⟩) = (BitVec.ofNat 32 x.1).toNat
        ∧ s.valueAt ((List.range 4).map fun i => ⟨1, 0 + 4 + i⟩) = (BitVec.ofNat 32 x.2).toNat
        ∧ s.valueAt ((List.range 4).map fun i => ⟨1, 0 + 8 + i⟩) = 16 ∧ 2 ^ s.valueAt [⟨1, 0 + 12⟩] = 2)
      ∧ s.runPlaces a .team (s.grp.uniGet 8) (16 / 16) =
        (List.range (16 / 16)).map fun i => .ok [{ loc := ⟨1, 64 + 16 * i⟩, len := 16, cached := true, entry := none }] := by
    decide +kernel
  obtain ⟨a, b, c, d⟩ := h x hx k hk
  exact ⟨a, b, c, by decide, d⟩

theorem witness_pipeSlots : (pipeState 0 0).uniReady uw.g false = true ∧ (pipeState 0 0).pipeOpen = true ∧ (pipeState 0 0).flights = []
    ∧ (∀ k ∈ [true, false], (pipeState 0 1).runPlaces (if k then .read else .write) .team
        ((pipeState 0 1).grp.uniGet uw.a.toNat + 16 + BitVec.ofNat 64 (16 * ((0 : Word).toNat % 2))) (16 / 16)
      = [.ok [{ loc := ⟨1, 16⟩, len := 16, cached := true, entry := none }]])
    ∧ (2 : Nat) ≤ ((2 : Word) - 0).toNat ∧ ((1 : Word) - 0).toNat < 2 := by decide +kernel

/-! ### Witnesses: Assay requests, nodes, service calls and the host cache -/

/-- An Assay descriptor at 0x8000 for one row of 16 logits at 0xA000, the K best to 0xC000, and requests queued. -/
def assayState (d : Nat) (q : List AssayReq) : State :=
  { glob [(0x8000, leBytes 32 d)] [(4, 0x8000)] with assay := [(0, q)] }

/-- The descriptor: K 2, N 16, one row, stride 64. -/
def assayDesc : Nat := 2 ^ 193 + 16 * 2 ^ 176 + 2 ^ 160 + 64 * 2 ^ 128 + 0xC000 * 2 ^ 64 + 0xA000

/-- A request of another group. -/
def otherReq (ok : Bool) : AssayReq := { gid := 7, sp := 0, op := 0, accepted := ok, desc := 0, logAt := [], resAt := [] }

theorem coherent_assay : (assayState assayDesc []).coherent (assayState assayDesc []).grp.core := ⟨fun _ => rfl, by decide +kernel⟩

theorem witness_assay :
    (assayState assayDesc []).uniReady uw.g false = true
    ∧ (assayState assayDesc []).globalRun .read 0x8000 32 = .ok [piece 0x8000 32] ∧ (assayState assayDesc []).marked (piece 0x8000 32)
    ∧ (assayState assayDesc []).pipeOpen = true
    ∧ ((assayState assayDesc [otherReq false]).assay.any fun x => x.2.any fun r => !r.accepted && r.gid == 0 && r.sp == 0) = false
    ∧ BitVec.ofNat 256 ((assayState assayDesc []).seenAt ((List.range 32).map fun i => (piece 0x8000 32).loc.plus i)) = BitVec.ofNat 256 assayDesc
    ∧ (assayFields (BitVec.ofNat 256 assayDesc)).aligned = true ∧ (assayFields (BitVec.ofNat 256 (assayDesc + 1))).aligned = false
    ∧ (assayFields (BitVec.ofNat 256 assayDesc)).ranges = true ∧ (assayFields (BitVec.ofNat 256 (assayDesc + 2 ^ 255))).ranges = false
    ∧ (assayFields (BitVec.ofNat 256 assayDesc)).logRuns = [(0xA000, 64)] ∧ (assayFields (BitVec.ofNat 256 assayDesc)).resRuns = [(0xC000, 24)]
    ∧ (assayState assayDesc []).assayPlaces .read [(0xA000, 64)] ++ (assayState assayDesc []).assayPlaces .write [(0xC000, 24)]
        = [.ok [piece 0xA000 64], .ok [piece 0xC000 24]]
    ∧ (assayState assayDesc []).marked (piece 0xA000 64) ∧ (assayState assayDesc []).marked (piece 0xC000 24)
    ∧ oneStack [piece 0xA000 64] = true ∧ (assayState assayDesc []).grp.opRoom 3 = true
    ∧ ((assayState assayDesc [otherReq false]).assayQueue 0).all (·.accepted) = false
    ∧ 64 ≤ ((assayState assayDesc (List.replicate 64 (otherReq true))).assayQueue 0).length := by
  unfold State.marked; decide +kernel

/-- An NCB at 0x8000 of queue 7, with two records at 0x9000, and a count of them in s6. -/
def nodeState (n : Nat) (q : Queue) : State :=
  open7 (glob [(0x8030, leBytes 8 handle7.toNat)] [(4, 0x8000), (2, 0x9000), (6, BitVec.ofNat 64 n)]) q

theorem witness_graphNode :
    (nodeState 2 (queueOf 1)).uniReady uw.g false = true ∧ (nodeState 2 (queueOf 1)).globalRun .read 0x8000 64 = .ok [piece 0x8000 64]
    ∧ (nodeState 2 (queueOf 1)).marked (piece 0x8000 64) ∧ (nodeState 2 (queueOf 1)).uniB uw = 2
    ∧ (nodeState 17 (queueOf 1)).uniB uw = 17 ∧ 2 ^ (queueOf 1).logcap < 17
    ∧ (∀ i < 2, (nodeState 2 (queueOf 1)).globalRun .read (0x9000 + 16 * i) 16 = .ok [piece (0x9000 + 16 * i) 16]
        ∧ (nodeState 2 (queueOf 1)).marked (piece (0x9000 + 16 * i) 16))
    ∧ (nodeState 2 (queueOf 1)).pipeOpen = true ∧ (nodeState 2 (queueOf 1)).atOrder .sys = true ∧ (queueOf 1).deferred = []
    ∧ descClass 0 ≠ 3 ∧ { queueOf 1 with closed := true }.closed = true ∧ (queueOf 1).count + 2 ≤ 2 ^ (queueOf 1).logcap := by
  unfold State.marked; decide +kernel

theorem witness_graphNodeQueue : (nodeState 2 (queueOf 1)).names
    (BitVec.ofNat 64 ((nodeState 2 (queueOf 1)).seenAt ((List.range 8).map fun i => (piece 0x8000 64).loc.plus (48 + i)))) rightsEnq 7 (queueOf 1) :=
  names_of (by decide +kernel) (by decide +kernel)

theorem coherent_node : (nodeState 2 (queueOf 1)).coherent (nodeState 2 (queueOf 1)).grp.core := ⟨fun _ => rfl, by decide +kernel⟩

/-- A service request at 0x8000 whose completion record goes to `crec` and whose counter is at `cctr`. -/
def callState (crec cctr : Nat) (ptr : Dword) : State :=
  let s := glob [(0x8008, leBytes 8 crec), (0x8010, leBytes 8 cctr)] [(4, 0x8000)]
  { s with partRegs := Sparse.set 0 (Sparse.set 0 s.partRegs 0x68 0x10000) callPtr ptr }

theorem coherent_call : (callState 0x9000 0x9100 0).coherent (callState 0x9000 0x9100 0).grp.core := ⟨fun _ => rfl, by decide +kernel⟩

theorem witness_serviceCalls :
    (callState 0x9000 0x9100 0).uniReady uw.g false = true ∧ (callState 0x9000 0x9100 0).atOrder .sys = true
    ∧ (callState 0x9000 0x9100 0).pipeOpen = true
    ∧ ({ callState 0x9000 0x9100 0 with grp := { (callState 0x9000 0x9100 0).grp with ack := 1 } } : State).atOrder .sys = false
    ∧ (callState 0x9000 0x9100 0).globalRun .read 0x8000 64 = .ok [piece 0x8000 64] ∧ (callState 0x9000 0x9100 0).marked (piece 0x8000 64)
    ∧ (((BitVec.ofNat 512 ((callState 0x9000 0x9100 0).seenAt ((List.range 64).map fun i => (piece 0x8000 64).loc.plus i))).extractLsb' 64 64).toNat
      = 0x9000)
    ∧ ((callState 0x9000 0x9100 0).globalRun .write 0x9000 16).isFound = true ∧ ((callState 0x9000 0x9100 0).globalRun .write 0x9100 8).isFound = true
    ∧ (callState 0x9000 0x9100 0xFF00000000).callRoom 0 = true ∧ (callState 0x9000 0x9100 0x10000000000).callRoom 0 = false
    ∧ (0x9008 : Nat) % 16 ≠ 0 ∧ (0x8010 : Nat) % 64 ≠ 0 := by
  unfold State.marked; decide +kernel

/-- 128 bytes of host memory at 2^39, in the hub's cache where `dirty` says how. -/
def hostState (lines : List (Nat × HostLine)) : State :=
  let s := glob [(0x200008, [0x11])] [(4, 0x8000000000), (6, 128)]
  { s with hostCache := lines, ats := [{ pasid := 0, page := 2 ^ 27, target := 5, write := true }], grp := { s.grp with uni := [(4, 0x8000000000), (6, 128)] } }

theorem witness_hostCache :
    (hostState [(160, { bytes := List.replicate 128 3, dirty := 3 })]).uniReady uw.g false = true
    ∧ (hostState [(160, { bytes := List.replicate 128 3, dirty := 3 })]).assayPlaces .read (rangePages 2 (2 ^ 39) 128)
      = [.ok [{ loc := ⟨4, 0x5000⟩, len := 128, cached := true, entry := none }]]
    ∧ hostLines [{ loc := ⟨4, 0x5000⟩, len := 128, cached := true, entry := none }] = [160]
    ∧ (∀ x ∈ [(160, { bytes := List.replicate 128 (3 : Byte), dirty := 3 : HostLine })], x.2.bytes.length = 128)
    ∧ (hostState []).pipeOpen = true ∧ (hostState []).atOrder .sys = true
    ∧ ({ hostState [] with grp := { (hostState []).grp with ack := 1 } } : State).atOrder .sys = false
    ∧ ((hostState []).grp.uniGet 6).toNat = 128 ∧ (2 ^ 39 : Nat) % 128 = 0 := by decide +kernel

/-! ### Witnesses: save and restore routines, special registers, exceptions -/

/-- A save or restore routine whose image is at 0x8000, with lanes 0 and 1 frozen in split 1. -/
def routine (code : Nat) : State :=
  let s := glob [(0x8508, [0xF0]), (0x8A90, [1])] [(4, 0x8000)]
  let h : Handler :=
    { cause := BitVec.ofNat 64 code, epc := 0x1000, words := [], frozen := [{ s.grp.spl with num := 1, mask := 3 }], complete := false }
  { s with relwin := [(0, [{ entry := 0, seq := 0, gid := 0, lane := 0, space := 0, addr := 0x9000, bytes := [1], sem := 0, scope := 5 }])]
           grp := { s.grp with handler := some h } }

theorem coherent_routine : (routine 17).coherent (routine 17).grp.core := ⟨fun _ => rfl, by decide +kernel⟩

theorem witness_contextInstructions :
    (routine 16).pipeOpen = true ∧ (routine 17).pipeOpen = true ∧ (routine 16).uniReady uw.g false = true ∧ (routine 16).grp.entryCode = 16 ∧ (routine 17).grp.entryCode = 17 ∧ mem.grp.entryCode = 0
    ∧ (routine 16).drained (routine 16).grp true = true ∧ (copying 1 none).drained (copying 1 none).grp false = false
    ∧ ((routine 16).grp.uniGet 4).toNat % 4096 = 0 ∧ ((glob [] [(4, 0x8010)]).grp.uniGet 4).toNat % 4096 ≠ 0
    ∧ (∀ n ∈ [0, 1, 4], ∀ p ∈ (routine 16).imagePlaces .write [(0x8000 + ((routine 16).grp.savePart n).1, ((routine 16).grp.savePart n).2.length)],
        p.isFound = true)
    ∧ (∀ n ∈ [0, 1, 2], ∀ p ∈ (routine 16).imagePlaces .write (listRuns 0x8000 n), p.isFound = true)
    ∧ (routine 16).team = some { placedTeam with tmSize := 4096 }
    ∧ (∀ r ∈ [[(0x8000, 0x400)], [(0x8500, 256)], listRuns 0x8000 0, listRuns 0x8000 1, listRuns 0x8000 2],
        ∀ p ∈ (routine 17).imagePlaces .read r, p.isFound = true ∧ ∀ x ∈ p.pieces, (routine 17).marked x)
    ∧ (BitVec.ofNat 32 (fieldAt ((routine 17).bytesOf ((routine 17).imagePlaces .read [(0x8500, 256)])) 8 4) : Mask) = 0xF0
    ∧ (∀ q ∈ (routine 17).grp.ordinary, q.num = 1 ∨ q.mask &&& (0xF0 : Mask) = 0)
    ∧ (routine 17).teamAtBarrier 0 = false ∧ ((routine 17).regOrImm { uw with sk := 1, b := 0 }).toNat = 0
    ∧ ((routine 16).grp.frame? 0).isSome ∧ (routine 16).grp.frame? 9 = none := by
  unfold State.marked; decide +kernel

/-- Frame 0 of the routine, resident or with no granules. -/
def routineFrame (code : Nat) (res : Bool) : State :=
  let s := routine code
  { s with grp := { s.grp with frames := [(0, { placedFrame with res := res, gmap := if res then placedFrame.gmap else [] })], spill := 0x100000 } }

theorem witness_contextFrames :
    ((routineFrame 16 true).evict 0 0).2 = .ok
    ∧ (((routineFrame 16 true).evict 0 0).1.spillReach 0 0 .write [(routineFrame 16 true).grp.descAddr 0]).2 = .ok
    ∧ ((routineFrame 16 false).spillReach 0 0 .write [(routineFrame 16 false).grp.descAddr 0]).2 = .ok
    ∧ (∀ r ∈ [true, false], ((routineFrame 17 r).spillReach 0 0 .read [(routineFrame 17 r).grp.descAddr 0]).2 = .ok
      ∧ ((routineFrame 17 r).reviveFrame 0).group? 0 = some ((routineFrame 17 r).reviveFrame 0).grp)
    ∧ (((routineFrame 17 true).reviveFrame 0).fill 0 0).2 = .ok
    ∧ (((routineFrame 17 true).reviveFrame 0).grp.frame? 0).map (·.res) = some true
    ∧ (((routineFrame 17 false).reviveFrame 0).grp.frame? 0).map (fun f => (f.res, f.gmap)) = some (false, [])
    ∧ ((routineFrame 17 false).reviveFrame 0).mayGrant 0 0 0 8 = true
    ∧ (({ routineFrame 17 false with requests := [{ sub := 0, gid := 3, sp := 0, granules := 1, need := .fill 1 }] } : State).mayGrant 0 0 0 8 = false) := by
  decide +kernel

theorem witness_specialRegisters :
    base.uniReady uw.g false = true
    ∧ (∀ n ∈ [0, 3, 6, 9, 10, 12, 64], ∀ a ∈ [0, 1, 2], (with_ fun g => { g with specials := [{ num := n, value := 0x5001, age := a }] }).grp.specials
        = [{ num := n, value := 0x5001, age := a }])
    ∧ base.grp.frames.any (fun f => !f.2.res) = false := by decide +kernel

/-- A grid launch whose kernel descriptor has a fault handler at 0x3000 with a frame of code 1. -/
def faulting (target : Nat) (reqs : List FrameReq) : State :=
  { with_ fun g => { g with kdesc := BitVec.ofNat 1024 (target * 2 ^ 768 + 2 ^ 553) } with requests := reqs }

/-- A fault of lane 3. -/
def laneFault : Trap := { gid := 0, sp := 0, pc := 0x1000, cause := 5, tcode := 0, lanes := 8, addrs := [(3, 0x77)], eff := 0xFF }

theorem witness_traps :
    base.uniReady uw.g false = true ∧ base.grp.attached = false ∧ base.grp.stopped = false ∧ base.grp.spl.num ∉ (with_ fun g => { g with attached := true }).grp.skip
    ∧ base.grp.spl.num ∈ (with_ fun g => { g with attached := true, skip := [0] }).grp.skip
    ∧ (faulting 0x3000 []).requests = []
    ∧ (faulting 0x3000 []).grp.handler = none ∧ (faulting 0x3000 []).team = some placedTeam ∧ placedTeam.lk = 0
    ∧ laneFault.gid = (faulting 0x3000 []).grp.gid ∧ laneFault.sp = (faulting 0x3000 []).grp.spl.num ∧ laneFault.lanes ≠ 0
    ∧ (faulting 0x3000 []).grp.kdesc.extractLsb' 768 64 = 0x3000 ∧ ((faulting 0x3000 []).grp.kdesc.extractLsb' 553 3).toNat + 1 ≤ (faulting 0x3000 []).freeGranules 0
    ∧ (let big : List (Nat × Frame) := (List.range 24).map fun i => (i, { placedFrame with fn := i, gmap := [8 * i, 8 * i + 1, 8 * i + 2, 8 * i + 3, 8 * i + 4, 8 * i + 5, 8 * i + 6, 8 * i + 7] })
       ({ faulting 0x3000 [] with grp := { (faulting 0x3000 []).grp with frames := big } } : State).freeGranules 0 < 2)
    ∧ (faulting 0 []).grp.kdesc.extractLsb' 768 64 = 0 := by decide +kernel

theorem witness_handlerReturn :
    base.uniReady uw.g false = true ∧ base.grp.specials = [] ∧ base.grp.handler = none
    ∧ (routine 16).grp.entryCode = 16 ∧ ((routine 16).grp.handler.map (·.complete)) = some false ∧ (routine 16).drained (routine 16).grp true = true
    ∧ (handling 5).grp.entryCode ≠ 16 ∧ (handling 5).grp.entryCode ≠ 17 ∧ (handling 5).grp.handler.isSome
    ∧ (∀ h, (handling 5).grp.handler = some h → h.frozen ≠ [] ∧ ∀ p ∈ h.frozen, p.mask ≠ 0
        ∧ ∀ f, (p.chain.head?).bind (handling 5).grp.frame? = some f → f.res = true) := by
  decide +kernel

/-- No lane active, or lanes that the guard turns off; registers inside the frame and beyond it. -/
theorem witness_guards :
    (lane0 [] []).grp.effMask 1 false = 1 ∧ (with_ fun g => g).grp.effMask 1 false = 0
    ∧ (∀ r ∈ regsD lw ++ regsA lw ++ regsB lw false, r < base.grp.frameSize) ∧ base.grp.frameSize ≤ 64
    ∧ base.grp.spl.begun = false ∧ base.grp.qGet 3 = false ∧ (base.grp.qGet 0 ^^ true) = false
    ∧ uw.d.toNat + 1 < base.grp.frameSize := by decide +kernel

/-! ### Witnesses: events of groups, frames and engines -/

/-- A write of s(n) that has not landed, of the instruction of turn `op`. -/
def pendUni (n op : Nat) (wait : Bool) : Pend :=
  { sp := 0, dest := .uni n, mask := 0, old := 7, wait := wait, age := 0, op := op, was := [], late := [] }

/-- The base state with one more group, and operations and writes of the focused one in flight. -/
def evGroups : State :=
  { with_ fun g => { g with
      spl := { g.spl with status := .waiting .counter }, ack := 3
      counters := [{ cls := 1, id := 4, finished := false }, { cls := 4, id := 5, finished := false }]
      pend := [pendUni 3 9 false, pendUni 4 5 true] } with
    others := [{ base.grp with gid := 1, spl := { base.grp.spl with status := .parked } }] }

theorem witness_issueEvents :
    evGroups.hasGroup 0 evGroups.grp ∧ (evGroups.grp.outstanding 1 ≠ 0) ∧ evGroups.grp.outstanding 4 ≠ 0
    ∧ (leastRank (base.readyIn base.grp.sub)).map (·.2) = some (0, 0) ∧ base.collectors 0 0 ≠ 0
    ∧ (leastRank (evGroups.readyIn evGroups.grp.sub)).map (·.2) ≠ some (0, 0)
    ∧ (∃ e ∈ evGroups.grp.pend, e.wait = true) ∧ (∀ e ∈ evGroups.grp.pend, e.late = []) ∧ (∀ e ∈ base.grp.pend, e.wait = false)
    ∧ base.grp.oldestTransfer = none ∧ evGroups.grp.oldestTransfer = some 4 ∧ evGroups.transferBusy evGroups.grp 4 = false
    ∧ evGroups.transferBusy evGroups.grp 5 = true ∧ (∀ f ∈ evGroups.flights, f.gid ≠ 0) ∧ (∃ f ∈ flying.flights, f.gid = 0)
    ∧ landable evGroups.grp.pend ≠ [] ∧ landable [pendUni 4 5 true] = []
    ∧ evGroups.grp.specials = [] ∧ evGroups.grp.held = [] ∧ evGroups.grp.sibs = [] ∧ evGroups.grp.handler = none := by
  unfold State.hasGroup; decide +kernel

/-- The group in focus waits at barrier 0 for the phase of parity `ph` to end. -/
def atBarrier (ph : Bool) : State :=
  { barrier 0 with grp := { base.grp with spl := { base.grp.spl with status := .waiting .barrier, parity := ph } } }

theorem witness_barrierRelease : ∀ ph ∈ [true, false],
    ((atBarrier ph).grp.splits.find? fun x => x.num == 0).map (fun p => (p.status, p.parity)) = some (.waiting .barrier, ph)
    ∧ (atBarrier ph).team.bind (fun t => t.barKey (atBarrier ph).grp.spl.barClu (atBarrier ph).grp.spl.barNum) = some 0
    ∧ barPh ((atBarrier ph).bar 0) = false ∧ (atBarrier ph).grp.sibs = [] := by decide +kernel

/-- Frames 0 to 23 of 8 granules each: no granule of the sub-core is free. -/
def fullFrames : List (Nat × Frame) :=
  (List.range 24).map fun i => (i, { placedFrame with fn := i, gmap := (List.range 8).map fun j => 8 * i + j })

/-- Requests at sub-core 0 of core 0, with the frames given and a chain. -/
def requesting (r : List FrameReq) (fs : List (Nat × Frame)) (chain : List Nat) : State :=
  { with_ fun g => { g with frames := fs, spl := { g.spl with status := .frameWait, chain := chain } } with requests := r }

/-- A request of the issuing split. -/
def want (n : Nat) (need : FrameNeed) : FrameReq := { sub := 0, gid := 0, sp := 0, granules := n, need := need }

theorem witness_frameEvents :
    base.requests.find? (fun r => r.sub == 0) = none
    ∧ (requesting [want 2 (.call 0x2000 1 0 0x1008)] [(0, placedFrame)] [0]).requests.find? (fun r => r.sub == 0) = some (want 2 (.call 0x2000 1 0 0x1008))
    ∧ 2 ≤ (requesting [want 2 (.call 0x2000 1 0 0x1008)] [(0, placedFrame)] [0]).freeGranules 0
    ∧ (requesting [want 2 (.call 0x2000 1 0 0x1008)] fullFrames [0]).freeGranules 0 < 2
    ∧ (requesting [want 2 (.call 0x2000 1 0 0x1008)] [(0, placedFrame)] [0]).grp.live = true
    ∧ (requesting [want 2 (.call 0x2000 1 0 0x1008)] [(0, placedFrame)] [0]).grp.freeFrame = some 1
    ∧ (handling 5).grp.handler.isSome
    ∧ ((requesting [want 2 (.fill 1)] [(0, placedFrame), (1, { placedFrame with fn := 1, res := false, gmap := [] })] [1, 0]).grp.frame? 1).map (·.gmap) = some []
    ∧ (requesting [want 2 (.call 0x2000 1 0 0x1008)] fullFrames [0]).evicting = []
    ∧ ((requesting [want 2 (.call 0x2000 1 0 0x1008)] [(0, placedFrame)] [0]).spillReach 0 eseSplit .write
        (requesting [want 2 (.call 0x2000 1 0 0x1008)] [(0, placedFrame)] [0]).grp.pushPlaces).2 = .ok
    ∧ (requesting [want 2 (.call 0x2000 1 0 0x1008)] [(0, placedFrame)] [0]).grp.spl.near < 16
    ∧ ((requesting [want 2 (.call 0x2000 1 0 0x1008)] [(0, { placedFrame with gmap := List.range 192 })] [0]).victim (want 2 (.call 0x2000 1 0 0x1008))) = none
    ∧ (((requesting [want 2 (.call 0x2000 1 0 0x1008)] fullFrames [1, 0]).victim (want 2 (.call 0x2000 1 0 0x1008))).map (·.top)) = some false
    ∧ base.grp.parkRecs = [] ∧ (base.saving 0 && (base.team? 0).any fun t => base.grp.savesItself t) = false
    ∧ base.settled base.grp = true ∧ (base.requests.find? fun r => r.sub == base.grp.sub) = none := by
  decide +kernel

/-- The granules are all taken by a top frame of each of two splits; the request is split 0's. -/
def topsOnly (pend : List Pend) : State :=
  let f (n : Nat) : Frame := { placedFrame with fn := n, gmap := (List.range 96).map fun j => 96 * n + j }
  { with_ fun g => { g with
      pend := pend, frames := [(0, f 0), (1, f 1)]
      spl := { g.spl with status := .frameWait, chain := [0] }
      sibs := [{ g.spl with num := 1, mask := 4, chain := [1] }] } with
    requests := [want 2 (.call 0x2000 1 0 0x1008)] }

theorem witness_frameTops :
    (topsOnly []).victim (want 2 (.call 0x2000 1 0 0x1008)) = some { gid := 0, fn := 1, top := true, await := some 1 }
    ∧ (topsOnly []).freeGranules 0 < 2 ∧ (topsOnly []).hasGroup 0 (topsOnly []).grp
    ∧ (∃ e ∈ (topsOnly [{ pendUni 3 0 true with sp := 1 }]).grp.pend, ∀ n, some 1 = some n → e.sp = n)
    ∧ (∀ e ∈ (topsOnly [pendUni 3 0 true]).grp.pend, ∃ n, some 1 = some n ∧ e.sp ≠ n)
    ∧ (with_ fun g => { g with stopped := true }).grp.stopped = true
    ∧ (let s := with_ fun g => { g with parkRecs := [0] }
       s.grp.parkRecs ≠ [] ∧ ({ s with grp := { s.grp with pend := [pendUni 3 0 true] } } : State).drained { s.grp with pend := [pendUni 3 0 true] } true = false)
    ∧ (let s : State := { base with teams := [(0, { placedTeam with phase := .saving, software := true })] }
       (s.saving 0 && (s.team? 0).any fun t => s.grp.savesItself t) = true) := by
  unfold State.hasGroup; decide +kernel

/-- Frame 1 below the top or on top, being evicted, or with granules and not yet filled. -/
def evictState (res : Bool) (chain : List Nat) (st : Status) : State :=
  let s := glob [] []
  { s with
    evicting := [{ sub := 0, gid := 0, fn := 1, gmap := [8] }]
    grp := { s.grp with
      spill := 0x100000, frames := [(0, placedFrame), (1, { placedFrame with fn := 1, dep := 1, fc := 0, res := res, gmap := [8] })]
      spl := { s.grp.spl with chain := chain, status := st } } }

/-- The eviction of frame 1. -/
def evict1 : Eviction := { sub := 0, gid := 0, fn := 1, gmap := [8] }

theorem witness_frameEvictions :
    (∀ c ∈ [[1, 0], [0, 1]], let s := evictState true c .run
      (s.evicting.find? fun e => e.sub == 0) = some evict1 ∧ s.hasGroup 0 s.grp
      ∧ (s.grp.frame? 1).map (fun f => (f.fn, f.res, f.gmap)) = some (1, true, [8]) ∧ s.grp.pend = []
      ∧ (({ s with evicting := [] } : State).endEvict 0 1).2 = .ok ∧ s.grp.sibs = [] ∧ s.grp.spl.mask ≠ 0 ∧ s.grp.spl.cont = none)
    ∧ (∀ p ∈ (evictState true [0, 1] .run).grp.splits, p.topFn ≠ 1) ∧ (evictState true [1, 0] .run).grp.spl.chain.head? = some 1
    ∧ (∃ p ∈ [({ pendUni 0 0 true with dest := .lane 1 3 } : Pend)], ∃ r, p.dest = .lane 1 r)
    ∧ (∀ st ∈ [Status.swapped, .fillWait, .run], let s := evictState false [1, 0] st
      (s.grp.frame? 1).map (fun f => (f.res, f.gmap)) = some (false, [8]) ∧ (s.fill 0 1).2 = .ok ∧ s.grp.handler = none
      ∧ s.grp.spl.topFn = 1 ∧ s.requests = [])
    ∧ ((requesting [want 2 (.call 0x2000 1 0 0x1008)] fullFrames [1, 0]).startEvict 0 1).2 = .ok
    ∧ (((topsOnly []).startEvict 0 1).1.group? 0).isSome ∧ ((topsOnly []).startEvict 0 1).2 = .ok := by
  unfold State.hasGroup
  refine ⟨by decide +kernel, by decide +kernel, by decide +kernel, ⟨_, List.mem_singleton.2 rfl, 3, rfl⟩, by decide +kernel, by decide +kernel,
    by decide +kernel, by decide +kernel⟩

/-- A solo matrix instruction with FP16 operands: 16 rows, K 64. -/
def solo (fin : Bool) : Dispatched :=
  { gid := 0, sp := 0, sc := 0, op := 0, w := { lw with a := 16, d := 0 }, e := { ex with mode := 1, mrows := 2, fin := fin }, fmt := [6, 6, 0, 0]
    sb := 0x0000008000000000 }

/-- Its step. -/
def step0 (fin started finPhase : Bool) (partner : Option Nat) : MatStep :=
  { id := 0, lead := solo fin, par := solo fin, members := [(0, 0, 16)], srcs := [(0, [1, 2, 3])], partner := partner, joined := false
    started := started, snap := none, runs := 0, failed := [], finPhase := finPhase }

/-- An engine of the placed team with some ports, steps, merges and a tile 0. -/
def engineOf (ports : List Dispatched) (steps : List MatStep) (tile : Tile) (bs : List Binding) : State :=
  { mem with
    engines := [(0, { Engine.empty with ports := ports, steps := steps, tiles := [(0, tile)], bindings := bs })]
    grp := { mem.grp with awb := 0, awl := 64, spl := { mem.grp.spl with status := .waiting .matrix } } }

/-- Tile 0 of the placed team, its token as given. -/
def tile0 (t : Token) (clearing : Bool) : Tile := { team := some 0, alloc := false, token := t, waiters := [(3, 9)], clearing := clearing }

theorem witness_matrixEvents :
    4 ≤ ((engineOf [] (List.replicate 4 (step0 false false false none)) (tile0 .matrix false) []).engine 0).steps.length
    ∧ ((engineOf [solo false] [] (tile0 .matrix false) []).engine 0).ports = [solo false] ∧ (solo false).e.mode = 1
    ∧ (engineOf [solo false] [] (tile0 .matrix false) []).halted 0 = false ∧ (engineOf [solo false] [] (tile0 .matrix false) []).grp.live = true
    ∧ ((engineOf [solo false] [] (tile0 .matrix false) []).team? 0 = some { placedTeam with tmSize := 4096 })
    ∧ (((engineOf [solo false] [] (tile0 .matrix false) []).onEngine 0 fun x => x.takePorts [solo false]).stepChecks 0
        { placedTeam with tmSize := 4096 } { placedTeam with tmSize := 4096 } (solo false) (solo false) [solo false]).all (·.1) = true
    ∧ ((engineOf [] [step0 false false false none] (tile0 .matrix false) []).engine 0).startable [] [step0 false false false none]
      = some (step0 false false false none)
    ∧ ((engineOf [] [] (tile0 .matrix false) []).engine 0).startable [] [] = none
    ∧ ([step0 false true false none].find? fun x => x.started && !x.finPhase) = some (step0 false true false none)
    ∧ ([step0 true true true none].find? (·.finPhase)) = some (step0 true true true none)
    ∧ ([step0 false false false (some 2)].find? fun x => x.partner.isSome && !x.joined) = some (step0 false false false (some 2)) := by
  decide +kernel

/-- Two teams of one cluster placed as a pair, the second on core 1. -/
def pairState : State :=
  let t : Team := { placedTeam with kdesc := 2 ^ 638, cw := 2 }
  { engineOf [] [step0 false false false (some 2)] (tile0 .matrix false) [] with
    teams := [(0, t), (1, { t with key := 1, core := 1, rank := 1 })] }

/-- A binding of list tile 0 with staging tile 0. -/
def bind0 : Binding := { team := 0, lt := 0, st := 0, cap := 0, vt := 0, cbase := 5, cstep := 64, dom := none }

/-- A merge of one entry into list row 0. -/
def merge0 : Merge := { id := 0, gid := 0, sp := 0, row := 0, head := [], entries := [(5, 6)] }

theorem witness_pairsAndLists :
    (pairState.team? 0).bind pairState.pairTeam = some { placedTeam with kdesc := 2 ^ 638, cw := 2, key := 1, core := 1, rank := 1 }
    ∧ (pairState.quadStopped 0 0 || pairState.quadStopped 1 2) = false
    ∧ (let s : State := { pairState with grp := { pairState.grp with stopped := true } }
       (s.quadStopped 0 0 || s.quadStopped 1 2) = true)
    ∧ (pairState.engine 2).pairHere 1 = [] ∧ (step0 false false false (some 2)).members = [(pairState.grp.gid, pairState.grp.spl.num, 16)]
    ∧ pairState.grp.live = true
    ∧ (([bind0].find? fun x => x.st == (step0 true true true none).lead.e.tile.toNat) = some bind0)
    ∧ ((engineOf [] [] (tile0 .matrix true) []).tile 0).clearing = true
    ∧ ((engineOf [] [] (tile0 (.waiting 0 5) false) []).tile 0).token = .waiting 0 5
    ∧ (engineOf [] [] (tile0 (.waiting 0 5) false) []).hasGroup 0 (engineOf [] [] (tile0 (.waiting 0 5) false) []).grp
    ∧ ((engineOf [] [] (tile0 (.waiting 0 5) false) []).engine 0).tileQuiet 0 5 = true
    ∧ ((engineOf [] [step0 false false false none] (tile0 (.waiting 0 5) false) []).engine 0).tileQuiet 0 5 = false
    ∧ (engineOf [] [] (tile0 (.releasing 0) false) []).heldTileWrites 0 0 0 = false
    ∧ ({ Engine.empty with merges := [merge0] } : Engine).mergeFree merge0 = true
    ∧ (({ engineOf [] [] (tile0 .matrix false) [bind0] with grp := base.grp } : State).engine 0).listBinding 0 = some bind0
    ∧ (with_ fun g => { g with domain := some 3 }).grp.domain = some 3 := by
  unfold State.hasGroup; decide +kernel

/-! ### Witnesses: events of other units -/

/-- Item of class 0 with flow 5. -/
def item5 (lock : Option Nat) : Item := { desc := descWith 0 5 0 0, qkey := 7, lock := lock }

/-- A group that waits for items in lane 0, with one re-injected. -/
def yielding : State :=
  let s := ring { queueOf 0 with
      reinjected := [item5 none], waiters := [{ gid := 0, sp := 0, pred := 2, eff := 1, targets := 1, len := 8 }] } handle7 1
  { s with grp := { s.grp with queue := some 7, spl := { s.grp.spl with status := .waiting .yield } } }

/-- A held write whose sequence is passed. -/
def due : HeldWrite := { entry := 3, seq := 0, gid := 0, lane := 0, space := 0, addr := 0x9000, bytes := [1, 2, 3, 4], sem := 0, scope := 5 }

/-- It stands in the release window of core 0; item 5 blocks entry 3 of queue 7. -/
def dueState : State :=
  { itemState (queueOf 1) 1 with
    postmark := 10000000
    relwin := [(0, [due])], locks := [(3, { held := true, next := 2, point := 1, resolved := [], since := 0, waited := 0, posted := [] })] }

theorem witness_unitEvents :
    ((assayState assayDesc []).assayQueue 0).find? (fun r => !r.accepted) = none
    ∧ (assayState assayDesc [otherReq true, otherReq false]).assayQueue 0 = [otherReq true] ++ otherReq false :: []
    ∧ (((assayState assayDesc [otherReq true, otherReq false]).assayQueue 0).filter (·.accepted)).length < 64
    ∧ ((assayState assayDesc [otherReq true]).assayQueue 0).find? (·.accepted) = some (otherReq true)
    ∧ (assayState assayDesc []).halted 0 = false
    ∧ yielding.grp.live = true ∧ yielding.grp.queue = some 7 ∧ (lookupKey yielding.queues 7).isSome ∧ yielding.isNode 0 = false
    ∧ dueState.dueWrites 0 = [due] ∧ dueState.dueWrites 1 = [] ∧ (due.sem = 2 → due.scope ≠ 5) ∧ due.space < 4
    ∧ dueState.heldReady 0 due = true ∧ ({ dueState with grp := { dueState.grp with ack := 65535 } } : State).heldReady 0 due = false
    ∧ (dueState.blocks 0 3 (queueOf 1)).find? (fun b => decide (b.2 + (queueOf 1).stallTime ≤ dueState.postmark.toNat)
        && !(dueState.lock 3).posted.contains b.1) = some (0, 0)
    ∧ (queueOf 1).home = 0 ∧ 3 / 65536 = 0
    ∧ (assayState assayDesc [otherReq false]).grp.opRoom 3 = true ∧ (∀ g, (assayState assayDesc [otherReq false]).group? 7 = some g → g.opRoom 3 = true)
    ∧ base.parkRoom 0 = true ∧ descClass (item5 none).desc ≠ 3
    ∧ (queueOf 1).count < 2 ^ (queueOf 1).logcap ∧ (queueOf 1).full = false
    ∧ lookupKey (copying 2 none).copies 5 = none
    ∧ ([({ src := 0, dst := 1, value := 3 } : Marker)].find? fun m => m.src == 0 && m.dst == 1) = some { src := 0, dst := 1, value := 3 } := by
  decide +kernel

/-- An access of the group in focus parked on page 0x8000. -/
def parkedState (host : Nat) (a : Answer) (ok : Bool) : State :=
  { (if ok then glob [] [] else { glob [] [] with mem := [] }) with
    parkedAccesses := [{ tag := 3, gid := 0, sp := 0, ctx := 0, va := 0x8000, kind := 0, host := host, answer := a, since := 0 }] }

theorem witness_translationEvents :
    base.parkedTag 3 = none ∧ (parkedState 0 .none true).parkedTag 3 = (parkedState 0 .none true).parkedAccesses.head?
    ∧ (parkedState 0 .none true).hasGroup 0 (parkedState 0 .none true).grp
    ∧ (∀ r ∈ [0, 1, 2, 3], (parkedState 0 .ok true).translate 0 0x8000 .read ≠ .miss r)
    ∧ (parkedState 0 .ok true).translate 0 0x8000 .read = .ok ⟨0, 0x8000⟩ true (some 0x400000)
    ∧ (let e : AtsEntry := { pasid := 0, page := 8, target := 5, write := true }
       let m : Move := { srcSpace := 4, src := 0x5000, dstSpace := 0, dst := 0x9000, len := 16, data := none, written := false }
       (({ base with ats := [e], copies := [(0, { gid := 0, core := 0, ctx := 0, kind := .batch, batch := none, count := 16, moves := [m] })] } : State).copyHolds
          e.target = true)
       ∧ ({ base with ats := [e] } : State).copyHolds e.target = false) := by
  unfold State.hasGroup; decide +kernel

/-! ### Witnesses: queue controllers and Sorting Offices -/

/-- The queue table of partition 0 at 0x20000, with a block for queue 7. -/
def tabled (s : State) (q : Queue) : State :=
  { s with
    partRegs := Sparse.set 0 (Sparse.set 0 s.partRegs 0x30 100) 0x28 0x20000
    mem := s.mem.store 0x201C0 (leBytes 64 q.block.toNat) }

/-- A command on queue 7 in context 0. -/
def cmd (arg : BitVec 60) : QcCommand := { die := 0, ctx := 0, handle := handle7, arg := arg }

theorem witness_queueCommands :
    (base.commandMatches { cmd 0 with ctx := 9 } = false) ∧ (tabled base (queueOf 0)).commandMatches (cmd 0) = true
    ∧ (tabled base (queueOf 0)).partOf 0 = 0 ∧ (handle7.extractLsb' 40 24).toNat = 7
    ∧ (queueOfBlock ((tabled base (queueOf 3)).qcbInMemory 0 7)) = queueOf 3
    ∧ (∀ kd ∈ [0, 3], (tabled base (queueOf kd)).mayOpen 0 0 (queueOf kd) = true) ∧ (tabled base (queueOf 4)).mayOpen 0 0 (queueOf 4) = false
    ∧ lookupKey (tabled base (queueOf 0)).queues 7 = none ∧ handle7.extractLsb' 0 24 = handleCheck ((tabled base (queueOf 0)).queueKey 0) (handle7.extractLsb' 24 40)
    ∧ (handle7.extractLsb' 32 5).toNat = 0 ∧ 7 < ((tabled base (queueOf 0)).partReg 0 0x30).toNat ∧ (queueOf 0).gen % 256 = (handle7.extractLsb' 24 8).toNat
    ∧ handle7.extractLsb' 37 3 = 7#3 ∧ lowestFree ((tabled base (queueOf 3)).office 0).indices 64 = some 0
    ∧ (open7 base { queueOf 0 with closed := true }).mayRelease 7 { queueOf 0 with closed := true } = true
    ∧ (open7 base (queueOf 0)).mayRelease 7 (queueOf 0) = false
    ∧ ({ queueOf 0 with swr := true }).swr = true ∧ (5 - (queueOf 0).tail).toNat ≠ 0 ∧ (5 - (queueOf 0).head).toNat ≤ 2 ^ (queueOf 0).logcap
    ∧ 2 ^ (queueOf 0).logcap < (50 - (queueOf 0).head).toNat ∧ 2 ^ 31 ≤ ((0x80000000 : Word) - (queueOf 0).tail).toNat := by
  decide +kernel

theorem witness_queueCommandHandles :
    (∀ r ∈ [7#3, 4#3, 6#3], (open7 base (queueOf 0)).checkHandle 0 handle7 r = .ok 7)
    ∧ (∃ c, (open7 base (queueOf 0)).checkHandle 0 0 7#3 = .error c) ∧ lookupKey (open7 base (queueOf 0)).queues 7 = some (queueOf 0) := by
  refine ⟨fun r _ => ?_, error_of _ (by decide +kernel), by decide +kernel⟩
  have h : ∀ n < 8, ((open7 base (queueOf 0)).checkHandle 0 handle7 (BitVec.ofNat 3 n)).toOption = some 7 := by decide +kernel
  exact ok_of _ _ (by simpa using h r.toNat r.isLt)

/-- Queue 7 with a node whose NCB at 0x8000 has a tile of 1, and a launch queue, queue 7 of the handle itself where `kd` is 3. -/
def nodeWaiting (el : List (BitVec 128)) (wt : List (BitVec 128 × Nat)) (stab : Nat) (tl : Word) : State :=
  let nd : Node := { ncb := 0x8000, eligible := el.map fun d => (d, 0), reserved := [], launches := 0, restart := 0, wait := wt, lru := [], posted := false }
  open7 (glob [(0x8000, [1]), (0x8011, [1]), (0x8014, [9]), (0x8018, leBytes 8 stab), (0xA000, leBytes 16 33), (0xA018, [1]), (0x9004, [1])] [])
    { queueOf 1 with node := some nd, tail := tl }

/-- The same with no record in the wait list. -/
def nodeQueue (el : List (BitVec 128)) (stab : Nat) (tl : Word) : State := nodeWaiting el [] stab tl

/-- Whether a test holds of the queue and the node as NODE_RESERVE finds them, and of the launch queue. -/
def nodeFinds (s : State) (p : State → NodeView → Queue → Node → Nat → Queue → Bool) : Bool :=
  match s.nodeView 7 with
  | (u, some v) =>
    let r := (u.recheck 7 v).retryWait 7 v
    (match lookupKey r.queues 7 with
     | some x =>
       (match x.node, r.launchQueue v.part v.lqh with
        | some nd, some lq => (match lookupKey r.queues lq with | some l => p r v x nd lq l | none => false)
        | _, _ => false)
     | none => false)
  | _ => false

/-- A node bound to queue 7 whose launch queue is queue 8, with `n` records of its 16 slots in use. -/
def nodeLaunch (el : List (BitVec 128)) (now : Dword) (n : Word) : State :=
  let s := nodeQueue el 0 0
  { s with postmark := now, queues := s.queues ++ [(8, { queueOf 3 with base := 0xB000, tail := n })]
           mem := s.mem.store 0x8028 (leBytes 8 handle8.toNat) }

theorem witness_nodeLaunches :
    (∀ x ∈ [([5], (0 : Dword), (0 : Word)), ([], 0, 0), ([5], 0, 16), ([5], 9000, 0)],
      nodeFinds (nodeLaunch x.1 x.2.1 x.2.2) (fun r v q nd lq l =>
        q.reinjected == [] && q.held == [] && lq == 8 && l.deferred == [] && v.tile == 1 && v.stab == 0 && v.flush == 9
        && (nd.eligible.length == x.1.length) && (l.full == (x.2.2 == 16))
        && (decide (nd.flushFrom r.postmark.toNat + 1000 * v.flush ≤ r.postmark.toNat) == (x.2.1 == 9000))) = true) := by
  decide +kernel

/-- RTO is 10 ms, and a record has waited since 0. -/
theorem witness_nodeWaits :
    ((nodeWaiting [] [(5, 0)] 0x9000 0).nodeView 7).2.map (·.rto) = some 10
    ∧ (((nodeWaiting [] [(5, 0)] 0x9000 0).nodeView 7).1.queues.map fun q => (q.2.node.map fun nd => (nd.wait, nd.posted))) = [some ([(5, 0)], false)]
    ∧ 0 + 1000000 * 10 ≤ (10000000 : Nat) ∧ ¬ 0 + 1000000 * 10 ≤ (9999999 : Nat) := by
  decide +kernel

theorem witness_nodes :
    ((nodeQueue [] 0 1).nodeView 7).2.map (fun v => (v.stab, v.tile, v.nslot, v.flush)) = some (0, 1, 1, 9)
    ∧ ((nodeQueue [5] 0x9000 1).nodeView 7).2.map (fun v => (v.stab, v.nslot)) = some (0x9000, 1)
    ∧ (((nodeQueue [] 0 1).nodeView 7).2.map fun v =>
        ((((nodeQueue [] 0 1).nodeView 7).1.retryWait 7 v).head 7).2.isSome) = some true
    ∧ (((nodeQueue [5] 0x9000 1).nodeView 7).2.map fun v =>
        ((((nodeQueue [5] 0x9000 1).nodeView 7).1.weightSlots v).2.find? fun y => y.num == 0).isSome) = some true
    ∧ (queueOf 1).node = none ∧ 1 ≤ [(5 : BitVec 128)].length ∧ (0 : Nat) % 64 = 0 ∧ (0x8001 : BitVec 60).toNat % 64 ≠ 0 := by
  decide +kernel

theorem witness_taskWalks :
    ([({ die := 0, ctx := 0, future := 0, node := 0, faulted := false, succ := 0x8000, left := 2 } : Walk)].find? fun w => w.die == 0).isSome
    ∧ ((glob [] []).ctxNat 0 0 0x8000 8).2 = 0 := by decide +kernel

/-- The descriptor of one group on one core, with a root frame of two granules. -/
def kd1 : BitVec 1024 := (BitVec.ofNat 64 (2 ^ 58 + 2 ^ 55 + 2 ^ 25)).setWidth 1024 <<< 576

/-- A launch of one team from queue 7. -/
def launch0 (d : Option Nat) : Launch :=
  { qkey := 7, record := 0, kdescAddr := 0x8000, kdesc := kd1, binds := [], members := [], block := 0, ctx := 0, teams := 1, next := 0, arrived := 0, denied := d, id := 0 }

/-- Office 0 with launch queue 7 as index 0, a record at its head, its core 0 ready or not, and hart 0 as given. -/
def officeState (ls : List Launch) (ready : Bool) (x : Hart) (tl : Word) : State :=
  let s := ring { queueOf 3 with tail := tl } handle7 1
  { s with
    offices := [(0, { indices := [(0, 7)], launches := ls, taken := 1, events := [(2, 5), (1, 3)], imageLen := 0 })]
    harts := [(0, x)]
    partRegs := Sparse.set 0 (Sparse.set 0 s.partRegs 0 1) 8 1
    devRegs := if ready then Sparse.set 0 s.devRegs 0x200 1 else s.devRegs
    grp := Group.empty, teams := [] }

theorem witness_offices :
    lookupKey ((officeState [] true Hart.empty 1).office 0).indices 5 = none ∧ lookupKey ((officeState [] true Hart.empty 1).office 0).indices 0 = some 7
    ∧ ((officeState [launch0 none] true Hart.empty 1).office 0).busyWith 7 = true ∧ ((officeState [] true Hart.empty 1).office 0).busyWith 7 = false
    ∧ (lookupKey (officeState [] true Hart.empty 1).queues 7).isSome
    ∧ ((((officeState [] true Hart.empty 1).onHart 0 0 fun y => { y with take := 0, qinf := ({ queueOf 3 with tail := 1 } : Queue).info 7 }).head 7).2.isSome)
    ∧ ((((officeState [] true Hart.empty 0).onHart 0 0 fun y => { y with take := 0, qinf := (queueOf 3).info 7 }).head 7).2 = none)
    ∧ coreOfCode 0 = some 0 ∧ ((officeState [launch0 none] true Hart.empty 1).office 0).events = [(2, 5), (1, 3)]
    ∧ (launch0 none).kdescAddr = ({ Hart.empty with needAddr := 0x8000, last := some 0 } : Hart).needAddr
    ∧ (((officeState [launch0 none] true { Hart.empty with needAddr := 0x8000, last := some 0 } 1).office 0).launches.find? fun l => some l.id == some 0)
      = some (launch0 none)
    ∧ (match (officeState [launch0 none] true Hart.empty 1).tryCommit 0 (launch0 none) [Hart.empty.member 0] with
       | .placed _ ts => ts.length == 1 | _ => false) = true
    ∧ (match (officeState [launch0 (some 8)] false Hart.empty 1).tryCommit 0 (launch0 (some 8)) [Hart.empty.member 0] with
       | .no e => e == 8 | _ => false) = true := by
  decide +kernel

/-- Team 0 in a phase, with a slice of one unit begun at 0, one launch of its priority waiting, and a completion counter. -/
def phaseState (ph : Phase) (now : Dword) (ctr : Dword) (wait : Bool) : State :=
  let s := glob [] []
  { s with
    postmark := now
    offices := if wait then [(0, { indices := [], launches := [launch0 none], taken := 1, events := [], imageLen := 0 })] else []
    teams := [(0, { placedTeam with phase := ph, slice := 1, ctr := ctr, image := 0x1000000 })] }

theorem witness_teamEvents :
    base.team? 9 = none ∧ (phaseState .running 0 0 false).team? 0 = some { placedTeam with slice := 1, image := 0x1000000 }
    ∧ (phaseState .running 0 0 false).clusterOfTeams 0 .running = [0]
    ∧ ((phaseState .saving 0 0 false).teamGroups 0).all ((phaseState .saving 0 0 false).maySave { placedTeam with slice := 1, image := 0x1000000, phase := .saving }) = true
    ∧ (phaseState .saving 0 0 false).tilesClear { placedTeam with slice := 1, image := 0x1000000, phase := .saving } = true
    ∧ (phaseState .running 100000 0 true).sliceOver { placedTeam with slice := 1, image := 0x1000000 } = true
    ∧ (phaseState .running 100000 0 true).equalWaits { placedTeam with slice := 1, image := 0x1000000 } = true
    ∧ (phaseState .ended 0 0x8000 false).teamBusy 0 = false ∧ (0x8000 : Dword).toNat / 8 * 8 ≠ 0
    ∧ ((phaseState .ended 0 0x8000 false).ctxLoad 0 0 0x8000 8).2.isSome
    ∧ ((phaseState .ended 0 0x8000 false).ctxStore 0 0 0x8000 (leBytes 8 1)).isSome
    ∧ (let s := handling 16
      let t : State := { s with postmark := 2000000, teams := [(0, { placedTeam with phase := .saving })] }
      ((t.teamGroups 0).any fun g => g.saveKind == 1 && match g.handler with | none => false | some h => !h.complete) = true) := by
  decide +kernel

/-- A team that is being saved to an image, with its context or without, whose one group has saved itself or has no routine. -/
def saving (image : Dword) (ctx done : Bool) : State :=
  let s := handling 16
  { s with
    contexts := if ctx then s.contexts else []
    teams := [(0, { placedTeam with phase := .saving, image := image })]
    grp := { s.grp with handler := if done then s.grp.handler.map fun h => { h with complete := true } else none } }

/-- The team. -/
def savedTeam (image : Dword) : Team := { placedTeam with image := image, phase := .saving }

/-- What the groups of team 0 leave in their spill areas. -/
def savedFrames (s : State) : State × Spill :=
  let gs := s.teamGroups 0
  let u := gs.foldl (fun s g => (s.finishFrees g.gid).landPending g.gid g.spl.num) s
  spillEach (fun gid s => s.saveFrames gid) ((gs.filter fun g => g.saveKind != 1).map (·.gid)) u

/-- The image is written where its pages are mapped and not where they are not; without its context the spill areas wait. -/
theorem witness_teamImage :
    (∀ x ∈ [(true, true), (true, false), (false, false)], (saving 0x1000000 x.1 x.2).team? 0 = some (savedTeam 0x1000000)
      ∧ ((saving 0x1000000 x.1 x.2).teamGroups 0).all ((saving 0x1000000 x.1 x.2).maySave (savedTeam 0x1000000)) = true
      ∧ (saving 0x1000000 x.1 x.2).tilesClear (savedTeam 0x1000000) = true)
    ∧ (let r := savedFrames (saving 0x1000000 true true)
       r.2 = .ok ∧ (((r.1.writeImage (savedTeam 0x1000000)).bind fun u => u.team? 0) = some (savedTeam 0x1000000)))
    ∧ (let r := savedFrames (saving 0x400000000000 true false)
       r.2 = .ok ∧ r.1.writeImage (savedTeam 0x400000000000) = none)
    ∧ (savedFrames (saving 0x1000000 false false)).2 = .wait := by
  decide +kernel

/-- Whatever the signature check answers, one of the two clauses about microcode applies. -/
theorem witness_microcode (img : List Byte) (sig : BitVec 1042) : img.length ≤ 524288 →
    let good := Config.ecdsaVerifies 16 (leNat (Sha.sha512 img)) (sig.extractLsb' 0 521).toNat (sig.extractLsb' 521 521).toNat
    (524288 < img.length ∨ (16 : Nat) ≠ 16 ∨ good = false) ∨ (img.length ≤ 524288 ∧ good = true) := by
  intro h good
  cases good <;> simp [h]

/-! ### Witnesses: halts, the debugger, the host and the fabric -/

/-- Partition 0 halted, or not. -/
def haltState (h : Bool) : State :=
  let s := glob [] []
  { s with partRegs := Sparse.set 0 s.partRegs 0 (if h then 3 else 1) }

theorem witness_halts :
    (haltState true).halted 0 = true ∧ (haltState false).halted 0 = false ∧ (haltState true).team? 0 = some { placedTeam with tmSize := 4096 }
    ∧ (haltState false).partIdle 0 = false ∧ (haltState false).partIdle 1 = true ∧ (haltState false).partOf 0 = 0
    ∧ (∀ e ∈ (haltState false).engines, ∀ st ∈ e.2.steps, st.started = true → (haltState false).partition st.lead.gid ≠ 0)
    ∧ (copying 1 none).partOf 0 = 0 := by decide +kernel

/-- The group in focus under a debugger, stopped or not, at a breakpoint. -/
def debugged (stopped : Bool) (pass : Nat) : State :=
  { with_ fun g => { g with attached := true, stopped := stopped, pass := pass } with
    breakpoints := [0x1000], stops := [0], postmark := 2000000000 }

theorem witness_debug :
    (debugged true 0).hasGroup 0 (debugged true 0).grp ∧ base.group? 9 = none ∧ (debugged false 0).watchExpired (debugged false 0).grp = true
    ∧ base.watchExpired base.grp = false ∧ (debugged true 0).hasSplit 0 0 = true ∧ (debugged true 0).hasSplit 0 5 = false
    ∧ (debugged true 0).grp.held = [] ∧ (debugged true 0).inFlight (.uni 3) = false
    ∧ evGroups.inFlight (.uni 3) = true ∧ ((debugged true 0).grp.frame? 0).map (fun f => (f.size, f.res)) = some (64, true)
    ∧ (debugged false 0).atBreak = some 0 ∧ (debugged false 3).grp.pass = 3 ∧ base.atBreak ≠ some 0 ∧ (debugged false 0).stops = [0] := by
  unfold State.hasGroup; decide +kernel

/-- A call of a function with arguments, oldest of partition 0, whose record goes to 0x8000. -/
def callOf (code : Nat) (args : Nat) : Call :=
  { part := 0, ctx := 0, ticket := 5, req := BitVec.ofNat 512 (code + 0x8000 * 2 ^ 64 + args * 2 ^ 192) }

/-- The state with that call pending. -/
def called (c : Call) : State := { open7 (glob [(0x9000, [0x61, 0x62])] []) (queueOf 0) with calls := [c] }

/-- An open file of path "ab" with both rights. -/
def file1 : File := { handle := 1, part := 0, vf := 0, flags := 3, path := [0x61, 0x62] }

theorem witness_services :
    base.firstCall 0 = none ∧ (∀ n ∈ List.range 12, ((called (callOf n 0)).firstCall 0).map (·.code) = some n)
    ∧ ((called (callOf 1 7)).partReg 0 0x30).toNat = 100 ∧ ((callOf 1 7).arg 0).toNat = 7 ∧ ((callOf 1 200).arg 0).toNat = 200
    ∧ (lookupKey (called (callOf 1 7)).queues (queueKeyOf 0 7)).isSome
    ∧ ((called (callOf 3 (0x9000 + 2 * 2 ^ 64))).readBuffer 0 0x9000 2).2.isSome ∧ ((called (callOf 3 0)).readBuffer 9 0x9000 2).2 = none
    ∧ executableOk 0 0 [1, 2] = false
    ∧ ((called (callOf 5 0x9000)).readPath 0 4096 0x9000).2 = some [0x61, 0x62]
    ∧ ({ called (callOf 8 1) with files := [file1] } : State).fileOf (callOf 8 1) ((callOf 8 1).arg 0) = some file1
    ∧ (called (callOf 8 1)).fileOf (callOf 8 1) ((callOf 8 1).arg 0) = none ∧ file1.flags / 2 % 2 = 1 ∧ file1.flags % 2 = 1
    ∧ ((called (callOf 7 0)).writeBuffer 0 0x9000 [1, 2, 3]).isSome
    ∧ (called (callOf 10 5)).teamAt 0 ((callOf 10 5).arg 0) = none ∧ ((called (callOf 10 0)).teamAt 0 ((callOf 10 0).arg 0)).isSome
    ∧ lookupKey (called (callOf 1 8)).queues (queueKeyOf 0 8) = none ∧ (∀ g ∈ base.teamGroups 0, g.parked = true → g.parkRecs ≠ [])
    ∧ [(0, 1), (1, 2)].any (fun x => x.2 == 2) = true ∧ [((0 : Nat), (1 : Nat))].all (fun x => x.2 != 2) = true := by
  decide +kernel

theorem witness_fetchCalls :
    (({ nodeQueue [] 0x9000 0 with calls := [callOf 4 0x8000] } : State).nodeQueue 0 ((callOf 4 0x8000).arg 0)) = some 7
    ∧ (called (callOf 4 0x8000)).nodeQueue 0 ((callOf 4 0x8000).arg 0) = none ∧ ((callOf 4 0x8000).arg 1).toNat < 1
    ∧ ((nodeQueue [] 0x9000 0).ctxStore 0 8 (0x9000 + 8) (leBytes 8 0x10000)).isSome := by decide +kernel

/-- Contexts 0 in use, 1 quarantined since 0, both of function 0. -/
def flrState (now : Dword) (drain : Nat) : State :=
  let s := glob [] []
  { s with
    postmark := now, contexts := s.contexts ++ [(1, { placedContext with st := 2, pasid := 3, drain := drain })]
    files := [file1], conns := [{ vf := 0, edge := 2, waiting := false, allowance := 3, reservations := 1, isOpen := true }] }

theorem witness_hostEvents :
    (flrState 0 0).contexts.filter (fun c => c.2.vf == 0 && c.2.st == 2) ≠ [] ∧ (flrState 0 0).contexts.filter (fun c => c.2.vf == 5 && c.2.st == 2) = []
    ∧ (flrState 0 0).quarantined 0 2000000 = false ∧ (flrState 4000000 0).quarantined 0 2000000 = true ∧ (flrState 4000000 0).quarantined 0 4000000 = true
    ∧ lookupKey (flrState 0 0).contexts 0 = some placedContext ∧ (flrState 0 0).team? 0 = some { placedTeam with tmSize := 4096 }
    ∧ (flrState 4000000 0).enabled 0 = false ∧ (flrState 4000000 0).contexts.any (fun c => c.2.part == 0 && c.2.st == 1) = true
    ∧ ((flrState 0 0).ownMemory 0x8000 = true ∧ (flrState 0 0).ownMemory 0x8003 = true ∧ (flrState 0 0).ownMemory (2 ^ 50) = false)
    ∧ (0x48 ∈ scRegs ∧ 0x10 ∉ scRegs ∧ 0x20 ∈ heldRegs ∧ 0x98 ∉ heldRegs) ∧ (haltState false).enabled 0 = true ∧ base.enabled 1 = false
    ∧ ¬(base.edgeStep 0 = 4 ∧ base.edgePers 0 = 3) ∧ base.dieHolds 0 = true ∧ (lookupKey base.contexts 0).map (·.st) = some 1
    ∧ (base.partReg 0 0xB0).getLsbD 0 = false ∧ ((base.setPartReg 0 0xB0 0x8001).partReg 0 0xB0).getLsbD 0 = true := by
  decide +kernel

/-- A packet of another device for this one, device 0, or for a third. -/
def packet (dst : BitVec 9) (op : PacketOp) : Packet :=
  { age := 3, src := 5, dst := dst, pasid := 9, gen := 0, pnum := 1, plane := 0, op := op }

/-- The device has planes 0 and 1, device 7 plane 1; edge group 2 is in a step of a switch that began at 0. -/
def fabric (step tgt pers : Nat) (now : Dword) : State :=
  let s := glob [] []
  { s with
    planes := [(0, 3), (7, 2)], postmark := now
    devRegs := Sparse.set 0 s.devRegs (edgeReg 2) (edgeWord 0 step tgt pers (if 1 ≤ step ∧ step ≤ 4 then 1 else 0)) }

theorem witness_fabric :
    (packet 7 (.read 0x8000 4)).dst.toNat ≠ base.devNum ∧ (packet 0 (.read 0x8000 4)).dst.toNat = base.devNum
    ∧ (packet 0 (.planes 6)).src.toNat ≠ base.devNum ∧ (packet 0 (.read 0x8000 4)).pasid.toNat = 9
    ∧ base.drops (packet 0 (.read 0x8000 4)) = false ∧ (packet 0 (.answer .write true [])).op = .answer .write true []
    ∧ ({ base with contexts := [(0, { placedContext with pasid := 9, gen := 1 })] } : State).drops (packet 0 (.read 0x8000 4)) = true
    ∧ packetKind (packet 0 (.read 0x8000 4)) = some .read
    ∧ (fabric 0 0 0 0).presentPlanes 7 ≠ [] ∧ (fabric 0 0 0 0).presentPlanes 8 = [] ∧ (1 ∈ (fabric 0 0 0 0).presentPlanes (fabric 0 0 0 0).devNum)
    ∧ (({ base with relays := [(packet 8 (.read 0 4), 0)] } : State).relays.find? fun x => x.1 == packet 8 (.read 0 4)) = some (packet 8 (.read 0 4), 0)
    ∧ (fabric 1 1 2 20000).edgeStep 2 = 1 ∧ (fabric 1 1 2 20000).edgeAge 2 = 20000 ∧ (fabric 0 0 2 0).edgeSwitching 2 = false
    ∧ (fabric 2 1 2 0).edgeStep 2 = 2 ∧ (fabric 3 1 2 0).edgeAge 2 ≤ (fabric 3 1 2 0).retrainTime 2
    ∧ (fabric 3 1 2 0xFFFFFFFF).retrainTime 2 < (fabric 3 1 2 0xFFFFFFFF).edgeAge 2 ∧ (fabric 4 1 1 0).edgeStep 2 = 4 ∧ (fabric 1 1 2 0).edgeSwitching 2 = true := by
  decide +kernel

/-- Context 0 with its tables maps page 0x8000 for PASID 9, which a packet carries, and no page of PASID 3. -/
theorem witness_packets :
    (let s : State := { fabric 0 0 0 0 with contexts := [(0, { placedContext with pasid := 9 })] }
     let p := packet 0 (.read 0x8000 4)
     (s.drops p == false) && s.packetMay p 0x8000 4 .read && !s.packetMay { p with pasid := 3 } 0x8000 4 .read && !s.packetMay p (2 ^ 50) 4 .read) = true := by
  decide +kernel

/-- A packet held while device 7 had no plane, which has one again. -/
theorem witness_relays :
    (({ fabric 0 0 0 0 with relays := [(packet 7 (.read 0 4), 0)] } : State).relays.find? fun x => x.1 == packet 7 (.read 0 4))
        = some (packet 7 (.read 0 4), 0)
    ∧ (packet 7 (.read 0 4)).dst.toNat ≠ (fabric 0 0 0 0).devNum ∧ (packet 7 (.line 0x8000 [(0x8001, 5)])).op = .line 0x8000 [(0x8001, 5)]
    ∧ ∀ b ∈ [((0x8001 : Nat), (5 : Byte))], b.1 / 128 = 0x8000 / 128 := by decide +kernel

/-- Whatever the signatures are, one of the two clauses about the hub's self test applies. -/
theorem witness_selfTest (s : State) :
    ((264 : Nat) ≠ 264 ∨ s.signaturesOk = true) ∨ (true = false ∨ ((264 : Nat) = 264 ∧ s.signaturesOk = false)) := by
  cases s.signaturesOk <;> simp

theorem witness_power :
    base.life.secret = none ∧ ({ base with life := { base.life with secret := some 5 } } : State).life.secret ≠ none
    ∧ base.mayReady 400 = false ∧ base.mayReady 264 = true ∧ (List.range 320).any (fun b => base.mayReady b) = true ∧ base.teamsOn 1 = [] ∧ 24 ∉ base.sparesUsed (dieOf 1)
    ∧ (base.pisl 0).guard = 20 ∧ 200 < 256 ∧ 192 ≤ 200 := by decide +kernel

/-! ### Witnesses: decoding, stepping, the invariant -/

theorem witness_decodeEncode : (Instr.iaddExt lw { ea .i64 0 with c := 0 }).wellFormed = true ∧ (Instr.iaddExt lw { ea .i64 0 with c := 0 }).isInstruction = true := by
  decide +kernel

theorem witness_stepKeepsMemory : base.memWf = true ∧ State.reset.memWf = true := by decide +kernel

/-- The placed state with `mov v2, s4` at 0x1000, about to issue. -/
def placedMov : State := State.reset.placed (encodeBytes (.mov { lw with b := 0 }))

/-- The word at 0x1000 stands alone, and its split neither waits nor meets a breakpoint. -/
theorem witness_step :
    placedMov.agenda = [] ∧ placedMov.powered = true ∧ placedMov.pick = some (0, 0) ∧ placedMov.turn % 16 ≠ 15
    ∧ (placedMov.tick.prepare 0 0).grp.spl.status ≠ .swapped ∧ (placedMov.tick.prepare 0 0).atBreak = none
    ∧ (match (placedMov.tick.prepare 0 0).fetch 0x1000 with
       | (u, .word w) =>
         w.getLsbD 30 == false && (w.getLsbD 31 == false) && ((u.extent 0x1000).2 == some .alone)
         && !((u.extent 0x1000).1.scoreHolds ((u.extent 0x1000).1.grp.names w 0)) && !((u.extent 0x1000).1.grp.readHolds [(w, 0)])
       | _ => false) = true := by decide +kernel

/-- A breakpoint at the split's PC, in a group that the debugger is attached to. -/
theorem witness_stepBreak :
    (let s : State := { placedMov with breakpoints := [0x1000], grp := { placedMov.grp with attached := true } }
     s.pick = some (0, 0) ∧ (s.tick.prepare 0 0).atBreak = some 0) := by decide +kernel

/-- Words placed at 0x1000, in the state in which their split issues. -/
def issuing (is : List Instr) : State := ((State.reset.placed (is.flatMap encodeBytes)).tick).prepare 0 0

/-- A producer and a reader of its latch form a chain; a reader with no producer before it is no chain at all. -/
theorem witness_stepChain :
    (∀ is ∈ [[.iadd { lw with b := 0 }, .iadd { lw with sk := 1, a := 0 }], [.iadd { lw with sk := 1, a := 0 }]],
      (State.reset.placed (is.flatMap encodeBytes)).pick = some (0, 0) ∧ (issuing is).atBreak = none)
    ∧ ((issuing [.iadd { lw with b := 0 }, .iadd { lw with sk := 1, a := 0 }]).extent 0x1000).2 = some (.chain [(0x00084000, 0), (0x00080190, 0)])
    ∧ ((issuing [.iadd { lw with sk := 1, a := 0 }]).extent 0x1000).2 = some .broken
    ∧ (issuing [.iadd { lw with b := 0 }]).scoreHolds (fun _ => true) = false
    ∧ (evGroups.scoreHolds fun _ => true) = true := by decide +kernel

/-! ### Ill-formed terms, one for each name, each refused -/

theorem test_illformed_terms : ∀ p ∈ ([
    (.iadd { lw with sk := 1, a := 4 }, .latch), (.iaddExt lw { ea .f32 0 with c := 0 }, .typeCode), (.iaddExt lw { ea .b32 0 with c := 0, rnd := .rz }, .rounding),
    (.iminExt lw { ea .b32 0 with c := 0, sat := true }, .saturation), (.ld { lw with b := 0 } (em .param .b32 0), .space),
    (.ldk { lw with b := 0 } { em .param .b32 0 with c := 0, scope := .team }, .scope), (.ld { lw with b := 0 } { em .global .b32 0 with sem := .rel }, .semantics),
    (.mov { lw with sk := 2, b := 0 }, .sourceKind), (.icmp lw { ea .b32 0x6000 with c := 0 }, .minor), (.srd { uw with a := 16, b := 0, sk := 2 }, .special),
    (.iaddExt lw { ea .b32 0 with c := 0, gn := true }, .guard), (.iaddExt { lw with a := 5 } { ea .i64 0 with c := 0 }, .oddPair),
    (.icmp { lw with d := 8 } { ea .b32 0 with c := 0 }, .predicate), (.iadd { lw with nw := true }, .destination), (.iaddExt lw (ea .b32 0), .unused),
    (.bfx { lw with b := 0 } { ea .b32 (33 * 64) with c := 0 }, .parameter), (.callx { uw with b := 0, d := 1 }, .reservedBits),
    (.mma { lw with d := 0, a := 16 } { ex with mrows := 3 }, .matrixField), (.reservedOp 0x00000000 none, .reservedOp)] : List (Instr × Illegal)),
    p.1.illegal = some p.2 := by decide +kernel

/-- R41: an op that takes no extension word with L = 1, and an op that needs one with L = 0; a reserved extension bit. -/
theorem test_illformed_words :
    decodeWords 0x6C000000#32 0 = .error .extension ∧ decodeWords 0x20000000#32 0 = .error .extension ∧ decodeWords 0xD7000000#32 0 = .error .extension
    ∧ decodeWords 0x80000008#32 0 = .error .reservedBits ∧ decodeWords 0xD0000000#32 0x01000000 = .error .reservedBits
    ∧ decodeWords 0x40000000#32 0x0E000000 = .error .rounding ∧ decodeWords 0x60000000#32 0xA0000000 = .error .space
    ∧ decodeWords 0x60000000#32 0x00600000 = .error .scope := by
  refine ⟨?_, ?_, ?_, ?_, ?_, ?_, ?_, ?_⟩ <;> rfl

/-! ### Single instructions, their results from the worked examples of the spec -/

/-- The base state with registers of the root frame set, by register and lane. -/
def regs (rs : List (Nat × Nat × Word)) : State := with_ fun g => rs.foldl (fun g r => g.frameSet 0 r.1 r.2.1 r.2.2) g

/-- What an instruction leaves of the group that issues it. -/
def after (i : Instr) (s : State) (p : Group → Bool) : Bool :=
  match exec i s with
  | .next t => p t.grp
  | _ => false

/-- An EA word with nothing but a type and a parameter. -/
def plain (t : Ty) (imm : BitVec 16) : EA := { ea t imm with c := 0 }

/-- R94: `imul.i32.sat` of the least number by -1, and `imul` of the same. -/
theorem test_imul_saturates : after (.imulExt lw { plain .b32 0 with sat := true }) (regs [(4, 3, 0x80000000), (6, 3, 0xFFFFFFFF)])
      (fun g => g.laneGet 2 3 == 0x7FFFFFFF) = true
    ∧ after (.imul lw) (regs [(4, 3, 0x80000000), (6, 3, 0xFFFFFFFF)]) (fun g => g.laneGet 2 3 == 0x80000000) = true := by decide +kernel

/-- R94: the two unsigned examples of saturation. -/
theorem test_unsigned_saturation : after (.iaddExt lw { plain .u32 0 with sat := true }) (regs [(4, 0, 0xFFFFFFF0), (6, 0, 0x20)])
      (fun g => g.laneGet 2 0 == 0xFFFFFFFF) = true
    ∧ after (.isubExt lw { plain .u32 0 with sat := true }) (regs [(4, 0, 3), (6, 0, 5)]) (fun g => g.laneGet 2 0 == 0) = true := by decide +kernel

/-- R94, R43: `iadd.i64 v4:v5, v4:v5, #-8` extends the sign of its immediate; `iadd.u64` does not. -/
theorem test_iadd_immediate : after (.iaddExt { lw with d := 4, b := 0 } { plain .i64 0xFFF8 with xc := true }) (regs [(4, 1, 4)])
      (fun g => g.laneGet 4 1 == 0xFFFFFFFC && g.laneGet 5 1 == 0xFFFFFFFF) = true
    ∧ after (.iaddExt { lw with d := 4, b := 0 } { plain .u64 0xFFF8 with xc := true }) (regs [(4, 1, 0xFFFF0000), (5, 1, 7)])
      (fun g => g.laneGet 4 1 == 0xFFFFFFF8 && g.laneGet 5 1 == 7) = true := by decide +kernel

/-- R97: `bfx.i32 v2, v4, #4, #8` of 0x0F30. -/
theorem test_bfx : after (.bfx { lw with b := 0 } (plain .b32 (8 * 64 + 4))) (regs [(4, 0, 0x0F30)]) (fun g => g.laneGet 2 0 == 0xFFFFFFF3) = true := by
  decide +kernel

/-- The tile example of chapter 4: `imadw.u32` with a row of 3, a stride of 0x100 and a column offset of 0x1C. -/
theorem test_imadw : after (.imadw { lw with d := 4, a := 1, b := 3, sk := 3 } { plain .u32 0 with c := 8 })
      (with_ fun g => { ((g.frameSet 0 1 31 3).frameSet 0 8 31 0x1C) with uni := [(3, 0x100)] })
      (fun g => g.laneGet 4 31 == 0x31C && g.laneGet 5 31 == 0) = true := by decide +kernel

/-- R112, R80: `fmin.f32` of the least negative subnormal and +0, with FTZ 0 and 1. -/
theorem test_fmin_ftz : ∀ k ∈ [false, true], after (.fmin lw)
      (with_ fun g => { g.frameSet 0 4 0 0x80000001 with mode := if k then g.mode ||| 0x20 else g.mode })
      (fun g => g.laneGet 2 0 == if g.mode.getLsbD 5 then 0x80000000 else 0x80000001) = true := by decide +kernel

/-- R118: the pack example, `cvt.e4m3x4.f32.rne v7, v1, v2, #1` and its `.sat` form. -/
theorem test_cvt_pack : ∀ k ∈ [false, true],
    after (.cvt { lw with d := 7, a := 1, b := 2 } { plain .e4m3x4 0x14 with rnd := .rne, sat := k })
      (regs [(1, 0, 0x3E99999A), (2, 0, 0x43FA0000), (7, 0, 0x11223344)]) (fun g => g.laneGet 7 0 == if k then 0x7E2A3344 else 0x7F2A3344) = true := by
  decide +kernel

/-- The twelve lanes of the example of chapter 5, with 1 to 4 in v4 and p2 where the value is 3 or 4. -/
def twelve : State :=
  let s := regs ((List.range 12).map fun l => (4, l, BitVec.ofNat 32 (l % 4 + 1)))
  { s with grp := { s.grp with spl := { s.grp.spl with mask := 0xFFF }, preds := [(2, 0xCCC)] } }

theorem test_vote_example : after (.vote { lw with d := 7, a := 2, b := 0 } (plain .b32 0)) twelve (fun g => g.uniGet 7 == 0xCCC) = true
    ∧ after (.vote { lw with d := 9, a := 4, b := 0, g := 2 } (plain .b32 0x4000)) twelve (fun g => g.uniGet 9 == 3) = true := by decide +kernel

theorem test_redux_example : after (.redux { lw with d := 3, a := 4, b := 0 } (plain .b32 0)) twelve (fun g => g.uniGet 3 == 30) = true := by
  decide +kernel

theorem test_scan_example : after (.scan { lw with d := 6, a := 4, b := 0 } (plain .b32 0x1000)) twelve
      (fun g => (List.range 12).map (fun l => (g.laneGet 6 l).toNat) == [0, 1, 3, 6, 10, 11, 13, 16, 20, 21, 23, 26]) = true := by decide +kernel

theorem test_shfl_example : after (.shfl { lw with d := 5, a := 4, b := 0 } (plain .b32 0x2021)) twelve
      (fun g => (List.range 12).map (fun l => (g.laneGet 5 l).toNat) == [2, 3, 4, 1, 2, 3, 4, 1, 2, 3, 4, 4]) = true := by decide +kernel

/-- R168: `rkins.f32 v20, v10, v11, k3, p4` offered (0.7, 4) with (0.5, 0), (0.5, 3), (+0, 6) in the list. -/
theorem test_rkins_example : after (.rkins { lw with d := 20, a := 10, b := 11 } (plain .f32 0x43))
      (regs [(10, 0, 0x3F333333), (11, 0, 4), (20, 0, 0x3F000000), (21, 0, 0), (22, 0, 0x3F000000), (23, 0, 3), (24, 0, 0), (25, 0, 6)])
      (fun g => (List.range 6).map (fun r => (g.laneGet (20 + r) 0).toNat) == [0x3F333333, 4, 0x3F000000, 0, 0x3F000000, 3]
        && g.latchGet 0 0 == 0 && g.predGet 4 0 == false) = true := by decide +kernel

/-- R168: a duplicate of (0.5, 0) is refused, and a NaN sets p4. -/
theorem test_rkins_refusals : ∀ p ∈ [((0x3F000000 : Nat), (0 : Nat), false), (0x7FC00000, 1, true)],
    after (.rkins { lw with d := 20, a := 10, b := 11 } (plain .f32 0x43))
      (regs [(10, 0, BitVec.ofNat 32 p.1), (11, 0, BitVec.ofNat 32 p.2.1), (20, 0, 0x3F333333), (21, 0, 4), (22, 0, 0x3F000000), (23, 0, 0), (24, 0, 0x3F000000), (25, 0, 3)])
      (fun g => g.laneGet 20 0 == 0x3F333333 && g.laneGet 22 0 == 0x3F000000 && g.latchGet 0 0 == 0xFFFFFFFF && g.predGet 4 0 == p.2.2) = true := by
  decide +kernel

/-- R211: the lock entries of flows 0x33 and 0x22 of PASID 5, as chapter 12 gives them. -/
theorem test_lock_entries : lockHash 0x33 5 = 0x5FB3 ∧ lockHash 0x22 5 = 0x1A73 := by decide +kernel

/-- R105, R44: a 32-bit immediate of all ones extends its sign. -/
theorem test_uadd_immediate : after (.uaddExt { uw with b := 0 } { imm := 0xFFFFFFFF }) (with_ fun g => { g with uni := [(4, 0)] })
      (fun g => g.uniGet 2 == 0xFFFFFFFFFFFFFFFF) = true := by decide +kernel

/-- R287: `atom.add` on global memory returns the old value and stores the sum. -/
theorem test_atom_add : (match exec (.atom { lw with b := 6 } (em .global .u32 0))
      { mem with grp := { (mem.grp.frameSet 0 6 3 5) with spl := { mem.grp.spl with mask := 8 }, uni := [(8, 0x9000)] } } with
    | .next t => t.valueAt [⟨0, 0x900C⟩] == 5
    | _ => false) = true := by decide +kernel

/-- R202: `exit` leaves the split without lanes. -/
theorem test_exit_ends : (match exec (.exit { uw with d := 0, a := 0, b := 0 }) base with
    | .next t => t.grp.spl.mask == 0
    | _ => false) = true := by decide +kernel

/-! ### Words written out bit by bit (R36, R37, R42 to R47, R52 to R54), S L op first -/

theorem test_decode_lane_integer_short : ∀ p ∈ ([
    (0b0_0_000000_000010_000100_000110_00_0_101, .iadd ⟨2, 4, 6, 0, false, 5⟩),
    (0b0_0_000001_000010_000100_000110_00_0_101, .isub ⟨2, 4, 6, 0, false, 5⟩),
    (0b0_0_000010_000010_000100_000110_00_0_101, .imul ⟨2, 4, 6, 0, false, 5⟩),
    (0b0_0_000100_000010_000100_000110_00_0_101, .imin ⟨2, 4, 6, 0, false, 5⟩),
    (0b0_0_000101_000010_000100_000110_00_0_101, .imax ⟨2, 4, 6, 0, false, 5⟩),
    (0b0_0_000110_000010_000100_000110_00_0_101, .and ⟨2, 4, 6, 0, false, 5⟩),
    (0b0_0_000111_000010_000100_000110_00_0_101, .or ⟨2, 4, 6, 0, false, 5⟩),
    (0b0_0_001000_000010_000100_000110_00_0_101, .xor ⟨2, 4, 6, 0, false, 5⟩),
    (0b0_0_001001_000010_000100_000110_00_0_101, .shl ⟨2, 4, 6, 0, false, 5⟩),
    (0b0_0_001010_000010_000100_000110_00_0_101, .shr ⟨2, 4, 6, 0, false, 5⟩),
    (0b0_0_001011_000010_000100_000110_00_0_101, .sha ⟨2, 4, 6, 0, false, 5⟩)] : List (Nat × Instr)),
    decodeTableWord 32 p.1 = some p.2 := by decide +kernel

theorem test_decode_lane_integer : ∀ p ∈ ([
    (0b0_1_000000_000010_000100_000110_00_0_011,
      0b0010_000_0_1_000000_0_0000000000000000, .iaddExt ⟨2, 4, 6, 0, false, 3⟩ ⟨.i64, .mode, false, true, 0, false, 0⟩),
    (0b0_1_000001_000010_000100_000110_00_0_011,
      0b0010_000_0_1_000000_0_0000000000000000, .isubExt ⟨2, 4, 6, 0, false, 3⟩ ⟨.i64, .mode, false, true, 0, false, 0⟩),
    (0b0_1_000010_000010_000100_000110_00_0_011,
      0b0010_000_0_1_000000_0_0000000000000000, .imulExt ⟨2, 4, 6, 0, false, 3⟩ ⟨.i64, .mode, false, true, 0, false, 0⟩),
    (0b0_1_000100_000010_000100_000110_00_0_011,
      0b0010_000_0_1_000000_0_0000000000000000, .iminExt ⟨2, 4, 6, 0, false, 3⟩ ⟨.i64, .mode, false, true, 0, false, 0⟩),
    (0b0_1_000101_000010_000100_000110_00_0_011,
      0b0010_000_0_1_000000_0_0000000000000000, .imaxExt ⟨2, 4, 6, 0, false, 3⟩ ⟨.i64, .mode, false, true, 0, false, 0⟩),
    (0b0_1_000110_000010_000100_000110_00_0_011,
      0b0010_000_0_1_000000_0_0000000000000000, .andExt ⟨2, 4, 6, 0, false, 3⟩ ⟨.i64, .mode, false, true, 0, false, 0⟩),
    (0b0_1_000111_000010_000100_000110_00_0_011,
      0b0010_000_0_1_000000_0_0000000000000000, .orExt ⟨2, 4, 6, 0, false, 3⟩ ⟨.i64, .mode, false, true, 0, false, 0⟩),
    (0b0_1_001000_000010_000100_000110_00_0_011,
      0b0010_000_0_1_000000_0_0000000000000000, .xorExt ⟨2, 4, 6, 0, false, 3⟩ ⟨.i64, .mode, false, true, 0, false, 0⟩),
    (0b0_1_001001_000010_000100_000110_00_0_011,
      0b0010_000_0_1_000000_0_0000000000000000, .shlExt ⟨2, 4, 6, 0, false, 3⟩ ⟨.i64, .mode, false, true, 0, false, 0⟩),
    (0b0_1_001010_000010_000100_000110_00_0_011,
      0b0010_000_0_1_000000_0_0000000000000000, .shrExt ⟨2, 4, 6, 0, false, 3⟩ ⟨.i64, .mode, false, true, 0, false, 0⟩),
    (0b0_1_001011_000010_000100_000110_00_0_011,
      0b0010_000_0_1_000000_0_0000000000000000, .shaExt ⟨2, 4, 6, 0, false, 3⟩ ⟨.i64, .mode, false, true, 0, false, 0⟩),
    (0b0_1_000000_000011_000001_000000_01_0_010,
      0b0001_000_1_0_000000_1_1111111111111110, .iaddExt ⟨3, 1, 0, 1, false, 2⟩ ⟨.u32, .mode, true, false, 0, true, 65534⟩),
    (0b0_1_000011_000010_000100_000110_00_0_001,
      0b0010_000_0_0_001010_0_0000000000000000, .imad ⟨2, 4, 6, 0, false, 1⟩ ⟨.i64, .mode, false, false, 10, false, 0⟩),
    (0b0_1_111000_000010_000101_000111_00_0_000,
      0b0001_000_0_0_001010_0_0000000000000000, .imadw ⟨2, 5, 7, 0, false, 0⟩ ⟨.u32, .mode, false, false, 10, false, 0⟩),
    (0b0_1_111010_000001_000011_000101_00_0_000,
      0b0000_000_0_0_000111_0_1100101000000000, .lop3 ⟨1, 3, 5, 0, false, 0⟩ ⟨.b32, .mode, false, false, 7, false, 51712⟩),
    (0b0_1_001100_000001_000011_000000_01_0_000,
      0b0000_000_0_0_000000_0_0000001000000101, .bfx ⟨1, 3, 0, 1, false, 0⟩ ⟨.b32, .mode, false, false, 0, false, 517⟩),
    (0b0_1_001101_000001_000011_000101_00_0_000,
      0b0001_000_0_0_000000_0_0000001000011000, .bfi ⟨1, 3, 5, 0, false, 0⟩ ⟨.u32, .mode, false, false, 0, false, 536⟩),
    (0b0_1_001110_000001_000011_000000_00_0_000,
      0b0000_000_0_0_000000_0_0010000000000000, .ibit ⟨1, 3, 0, 0, false, 0⟩ ⟨.b32, .mode, false, false, 0, false, 8192⟩),
    (0b0_1_111001_000001_000011_000101_00_0_000,
      0b0000_000_0_0_000000_0_1000101000000001, .prmt ⟨1, 3, 5, 0, false, 0⟩ ⟨.b32, .mode, false, false, 0, false, 35329⟩)] : List (Nat × Nat × Instr)),
    decodeTableWord 64 (p.1 + 2 ^ 32 * p.2.1) = some p.2.2 := by decide +kernel

theorem test_decode_lane_float_short : ∀ p ∈ ([
    (0b0_0_010000_000011_000101_000111_11_0_001, .fadd ⟨3, 5, 7, 3, false, 1⟩),
    (0b0_0_010001_000011_000101_000111_11_0_001, .fsub ⟨3, 5, 7, 3, false, 1⟩),
    (0b0_0_010010_000011_000101_000111_11_0_001, .fmul ⟨3, 5, 7, 3, false, 1⟩),
    (0b0_0_010100_000011_000101_000111_11_0_001, .fmin ⟨3, 5, 7, 3, false, 1⟩),
    (0b0_0_010101_000011_000101_000111_11_0_001, .fmax ⟨3, 5, 7, 3, false, 1⟩),
    (0b0_0_111011_000011_000101_000111_11_0_001, .fscl ⟨3, 5, 7, 3, false, 1⟩)] : List (Nat × Instr)),
    decodeTableWord 32 p.1 = some p.2 := by decide +kernel

theorem test_decode_lane_float : ∀ p ∈ ([
    (0b0_1_010000_000010_000100_000110_00_0_011,
      0b0101_000_0_1_000000_0_0000000000000000, .faddExt ⟨2, 4, 6, 0, false, 3⟩ ⟨.f64, .mode, false, true, 0, false, 0⟩),
    (0b0_1_010001_000010_000100_000110_00_0_011,
      0b0101_000_0_1_000000_0_0000000000000000, .fsubExt ⟨2, 4, 6, 0, false, 3⟩ ⟨.f64, .mode, false, true, 0, false, 0⟩),
    (0b0_1_010010_000010_000100_000110_00_0_011,
      0b0101_000_0_1_000000_0_0000000000000000, .fmulExt ⟨2, 4, 6, 0, false, 3⟩ ⟨.f64, .mode, false, true, 0, false, 0⟩),
    (0b0_1_010100_000010_000100_000110_00_0_011,
      0b0101_000_0_1_000000_0_0000000000000000, .fminExt ⟨2, 4, 6, 0, false, 3⟩ ⟨.f64, .mode, false, true, 0, false, 0⟩),
    (0b0_1_010101_000010_000100_000110_00_0_011,
      0b0101_000_0_1_000000_0_0000000000000000, .fmaxExt ⟨2, 4, 6, 0, false, 3⟩ ⟨.f64, .mode, false, true, 0, false, 0⟩),
    (0b0_1_111011_000010_000100_000110_00_0_011,
      0b0101_000_0_1_000000_0_0000000000000000, .fsclExt ⟨2, 4, 6, 0, false, 3⟩ ⟨.f64, .mode, false, true, 0, false, 0⟩),
    (0b0_1_010011_000100_000101_000110_00_0_001,
      0b0100_010_0_1_000111_0_0000000000000000, .ffma ⟨4, 5, 6, 0, false, 1⟩ ⟨.f32, .rz, false, true, 7, false, 0⟩),
    (0b0_1_011000_000100_000101_000000_00_0_000,
      0b0100_011_0_0_000000_0_0010000000000000, .fsf ⟨4, 5, 0, 0, false, 0⟩ ⟨.f32, .ru, false, false, 0, false, 8192⟩),
    (0b0_1_011001_000100_000101_000000_00_0_000,
      0b0100_110_0_0_000000_0_0000000000011100, .cvt ⟨4, 5, 0, 0, false, 0⟩ ⟨.f32, .rs, false, false, 0, false, 28⟩),
    (0b0_1_011010_000100_000101_000110_00_0_000,
      0b1011_000_0_0_000111_0_0000000000000000, .dot ⟨4, 5, 6, 0, false, 0⟩ ⟨.i8x4, .mode, false, false, 7, false, 0⟩)] : List (Nat × Nat × Instr)),
    decodeTableWord 64 (p.1 + 2 ^ 32 * p.2.1) = some p.2.2 := by decide +kernel

theorem test_decode_lane_select : ∀ p ∈ ([
    (0b0_0_011011_001001_000000_000101_11_0_100, .mov ⟨9, 0, 5, 3, false, 4⟩),
    (0b0_0_101100_000110_000100_000000_00_0_000, .vsr ⟨6, 4, 0, 0, false, 0⟩)] : List (Nat × Instr)),
    decodeTableWord 32 p.1 = some p.2 := by decide +kernel

theorem test_decode_lane_select_ext : ∀ p ∈ ([
    (0b0_1_011011_001001_000000_000000_00_0_000,
      0b11011110101011011011111011101111, .movImm ⟨9, 0, 0, 0, false, 0⟩ ⟨3735928559⟩),
    (0b0_1_001111_000001_000011_000101_00_0_000,
      0b0000_000_0_0_000000_0_0000000000001011, .sel ⟨1, 3, 5, 0, false, 0⟩ ⟨.b32, .mode, false, false, 0, false, 11⟩),
    (0b0_1_010110_000011_000100_000110_00_0_000,
      0b0011_000_0_0_000000_0_0101000000000000, .icmp ⟨3, 4, 6, 0, false, 0⟩ ⟨.u64, .mode, false, false, 0, false, 20480⟩),
    (0b0_1_010111_000011_000101_000111_00_0_000,
      0b0110_000_0_0_000000_0_1101000000000000, .fcmp ⟨3, 5, 7, 0, false, 0⟩ ⟨.f16, .mode, false, false, 0, false, 53248⟩),
    (0b0_1_101000_000011_000001_000010_00_0_000,
      0b0000_000_0_0_000000_0_0011000000000011, .pset ⟨3, 1, 2, 0, false, 0⟩ ⟨.b32, .mode, false, false, 0, false, 12291⟩),
    (0b0_1_101001_001001_000000_000000_00_0_000,
      0b0000_000_0_0_000000_0_0000000000000000, .pmovReg ⟨9, 0, 0, 0, false, 0⟩ ⟨.b32, .mode, false, false, 0, false, 0⟩),
    (0b0_1_101001_000000_001001_000000_00_0_000,
      0b0000_000_0_0_000000_0_0001000011111110, .pmovPred ⟨0, 9, 0, 0, false, 0⟩ ⟨.b32, .mode, false, false, 0, false, 4350⟩)] : List (Nat × Nat × Instr)),
    decodeTableWord 64 (p.1 + 2 ^ 32 * p.2.1) = some p.2.2 := by decide +kernel

theorem test_decode_lane_exchange : ∀ p ∈ ([
    (0b0_1_011100_000100_000101_000000_00_0_000,
      0b0000_000_0_0_000000_0_0011001011100111, .shfl ⟨4, 5, 0, 0, false, 0⟩ ⟨.b32, .mode, false, false, 0, false, 13031⟩),
    (0b0_1_011101_000100_000011_000000_00_0_000,
      0b0000_000_0_0_000000_0_0000000000000001, .vote ⟨4, 3, 0, 0, false, 0⟩ ⟨.b32, .mode, false, false, 0, false, 1⟩),
    (0b0_1_011110_000100_000101_000000_00_0_000,
      0b0100_001_0_0_000000_0_0000000000000000, .redux ⟨4, 5, 0, 0, false, 0⟩ ⟨.f32, .rne, false, false, 0, false, 0⟩),
    (0b0_1_011111_000100_000110_000000_00_0_000,
      0b0010_000_0_0_000000_0_0001001000000000, .scan ⟨4, 6, 0, 0, false, 0⟩ ⟨.i64, .mode, false, false, 0, false, 4608⟩),
    (0b0_1_101011_000011_000110_001001_00_0_000,
      0b0100_000_0_0_000000_0_0000000000000001, .rkadm ⟨3, 6, 9, 0, false, 0⟩ ⟨.f32, .mode, false, false, 0, false, 1⟩),
    (0b0_1_101010_000100_000110_001001_00_0_000,
      0b0000_000_0_0_000000_0_0000000001011000, .rkins ⟨4, 6, 9, 0, false, 0⟩ ⟨.b32, .mode, false, false, 0, false, 88⟩),
    (0b0_1_101101_000011_000110_000000_00_0_000,
      0b0000_000_0_0_000000_0_0000000000000010, .relbl ⟨3, 6, 0, 0, false, 0⟩ ⟨.b32, .mode, false, false, 0, false, 2⟩),
    (0b0_1_110011_000000_000000_000000_00_0_001,
      0b0000_000_0_0_000000_0_0000000000000000, .itemDone ⟨0, 0, 0, 0, false, 1⟩ ⟨.b32, .mode, false, false, 0, false, 0⟩),
    (0b0_1_110011_000000_000101_000111_00_0_001,
      0b0000_000_0_0_001001_0_0001000000000000, .itemSkip ⟨0, 5, 7, 0, false, 1⟩ ⟨.b32, .mode, false, false, 9, false, 4096⟩),
    (0b0_1_110011_000011_000000_000000_00_0_001,
      0b0000_000_0_0_000000_0_0010000000000000, .itemYield ⟨3, 0, 0, 0, false, 1⟩ ⟨.b32, .mode, false, false, 0, false, 8192⟩),
    (0b0_1_110011_000000_000000_000000_00_0_001,
      0b0000_000_0_0_001001_0_0011000000000000, .itemDefer ⟨0, 0, 0, 0, false, 1⟩ ⟨.b32, .mode, false, false, 9, false, 12288⟩)] : List (Nat × Nat × Instr)),
    decodeTableWord 64 (p.1 + 2 ^ 32 * p.2.1) = some p.2.2 := by decide +kernel

theorem test_decode_lane_memory : ∀ p ∈ ([
    (0b0_1_100000_001000_001001_000000_00_0_000,
      0b000_0000_0_0_101_01_000010_100000000100, .ld ⟨8, 9, 0, 0, false, 0⟩ ⟨.global, .b32, false, false, .sys, .acq, 2, 2052⟩),
    (0b0_1_100001_000000_001001_001010_00_0_000,
      0b001_0100_1_0_010_10_000010_000000000100, .st ⟨0, 9, 10, 0, false, 0⟩ ⟨.team, .f32, true, false, .clu, .rel, 2, 4⟩),
    (0b0_1_100101_001000_001001_000000_00_0_000,
      0b110_0011_0_0_000_00_000101_000000010000, .ldk ⟨8, 9, 0, 0, false, 0⟩ ⟨.param, .u64, false, false, .grp, .rlx, 5, 16⟩),
    (0b0_1_100110_001000_001001_000011_00_0_000,
      0b010_0000_0_0_001_01_000010_000001000000, .ldc ⟨8, 9, 3, 0, false, 0⟩ ⟨.cluster, .b32, false, false, .team, .acq, 2, 64⟩),
    (0b0_1_100111_001000_001001_000011_00_0_000,
      0b011_0000_0_0_011_10_000010_000001000000, .stc ⟨8, 9, 3, 0, false, 0⟩ ⟨.scratch, .b32, false, false, .die, .rel, 2, 64⟩),
    (0b0_1_100100_000110_001001_000011_00_0_000,
      0b000_0000_0_0_000_00_000010_000001000001, .cpl ⟨6, 9, 3, 0, false, 0⟩ ⟨.global, .b32, false, false, .grp, .rlx, 2, 65⟩),
    (0b0_1_100010_001000_001001_001010_00_0_000,
      0b000_0100_0_0_100_11_000010_100000000000, .atom ⟨8, 9, 10, 0, false, 0⟩ ⟨.global, .f32, false, false, .pkg, .acqrel, 2, 2048⟩),
    (0b0_1_100011_001000_001001_001010_00_0_000,
      0b001_0010_0_0_000_11_000010_000000001100, .atomc ⟨8, 9, 10, 0, false, 0⟩ ⟨.team, .i64, false, false, .grp, .acqrel, 2, 12⟩),
    (0b0_1_101110_001000_001001_000000_00_0_000,
      0b000_0100_0_0_000_00_000010_000000001100, .lda ⟨8, 9, 0, 0, false, 0⟩ ⟨.global, .f32, false, false, .grp, .rlx, 2, 12⟩),
    (0b0_1_101111_000000_001001_001010_00_0_000,
      0b000_0001_0_0_000_10_000010_000000001100, .sta ⟨0, 9, 10, 0, false, 0⟩ ⟨.global, .u32, false, false, .grp, .rel, 2, 12⟩),
    (0b0_1_110100_000000_000011_001100_00_0_000,
      0b000_0000_0_0_011_10_000010_000000000001, .qenq ⟨0, 3, 12, 0, false, 0⟩ ⟨.global, .b32, false, false, .die, .rel, 2, 1⟩),
    (0b0_1_110101_001000_000011_000000_00_0_000,
      0b000_0000_0_0_100_01_000010_000000000000, .qdeq ⟨8, 3, 0, 0, false, 0⟩ ⟨.global, .b32, false, false, .pkg, .acq, 2, 0⟩),
    (0b0_1_110110_001000_000011_000000_00_0_000,
      0b000_0000_0_0_101_01_000010_000000000000, .qsteal ⟨8, 3, 0, 0, false, 0⟩ ⟨.global, .b32, false, false, .sys, .acq, 2, 0⟩)] : List (Nat × Nat × Instr)),
    decodeTableWord 64 (p.1 + 2 ^ 32 * p.2.1) = some p.2.2 := by decide +kernel

theorem test_decode_matrix : ∀ p ∈ ([
    (0b0_1_110000_000000_010000_010100_00_0_000,
      0b001000_0101_010000_01_10_00_0_0_00000000, .mma ⟨0, 16, 20, 0, false, 0⟩ ⟨8, 5, 16, 1, 2, 0, false, false⟩),
    (0b0_1_110001_000001_010000_010101_00_0_000,
      0b001000_0101_010000_01_10_01_0_1_00000000, .mms ⟨1, 16, 21, 0, false, 0⟩ ⟨8, 5, 16, 1, 2, 1, false, true⟩),
    (0b0_1_110010_000000_010000_010100_00_0_000,
      0b001000_0101_010000_01_10_00_1_0_00000000, .mrk ⟨0, 16, 20, 0, false, 0⟩ ⟨8, 5, 16, 1, 2, 0, true, false⟩)] : List (Nat × Nat × Instr)),
    decodeTableWord 64 (p.1 + 2 ^ 32 * p.2.1) = some p.2.2 := by decide +kernel

theorem test_decode_uniform_short : ∀ p ∈ ([
    (0b1_0_000000_000011_000100_000101_01_0_110, .uadd ⟨3, 4, 5, 1, 6⟩),
    (0b1_0_000001_000011_000100_000101_01_0_110, .usub ⟨3, 4, 5, 1, 6⟩),
    (0b1_0_000010_000011_000100_000101_01_0_110, .umul ⟨3, 4, 5, 1, 6⟩),
    (0b1_0_000100_000011_000100_000101_01_0_110, .umin ⟨3, 4, 5, 1, 6⟩),
    (0b1_0_000101_000011_000100_000101_01_0_110, .umax ⟨3, 4, 5, 1, 6⟩),
    (0b1_0_000110_000011_000100_000101_01_0_110, .uand ⟨3, 4, 5, 1, 6⟩),
    (0b1_0_000111_000011_000100_000101_01_0_110, .uor ⟨3, 4, 5, 1, 6⟩),
    (0b1_0_001000_000011_000100_000101_01_0_110, .uxor ⟨3, 4, 5, 1, 6⟩),
    (0b1_0_001001_000011_000100_000101_01_0_110, .ushl ⟨3, 4, 5, 1, 6⟩),
    (0b1_0_001010_000011_000100_000101_01_0_110, .ushr ⟨3, 4, 5, 1, 6⟩),
    (0b1_0_001011_000011_000100_000101_01_0_110, .usha ⟨3, 4, 5, 1, 6⟩),
    (0b1_0_001110_000011_000000_000101_01_0_110, .umov ⟨3, 0, 5, 1, 6⟩)] : List (Nat × Instr)),
    decodeTableWord 32 p.1 = some p.2 := by decide +kernel

theorem test_decode_uniform : ∀ p ∈ ([
    (0b1_1_000000_000110_000111_000000_00_0_010,
      0b11111111111111111111111111111110, .uaddExt ⟨6, 7, 0, 0, 2⟩ ⟨4294967294⟩),
    (0b1_1_000001_000110_000111_000000_00_0_010,
      0b11111111111111111111111111111110, .usubExt ⟨6, 7, 0, 0, 2⟩ ⟨4294967294⟩),
    (0b1_1_000010_000110_000111_000000_00_0_010,
      0b11111111111111111111111111111110, .umulExt ⟨6, 7, 0, 0, 2⟩ ⟨4294967294⟩),
    (0b1_1_000100_000110_000111_000000_00_0_010,
      0b11111111111111111111111111111110, .uminExt ⟨6, 7, 0, 0, 2⟩ ⟨4294967294⟩),
    (0b1_1_000101_000110_000111_000000_00_0_010,
      0b11111111111111111111111111111110, .umaxExt ⟨6, 7, 0, 0, 2⟩ ⟨4294967294⟩),
    (0b1_1_000110_000110_000111_000000_00_0_010,
      0b11111111111111111111111111111110, .uandExt ⟨6, 7, 0, 0, 2⟩ ⟨4294967294⟩),
    (0b1_1_000111_000110_000111_000000_00_0_010,
      0b11111111111111111111111111111110, .uorExt ⟨6, 7, 0, 0, 2⟩ ⟨4294967294⟩),
    (0b1_1_001000_000110_000111_000000_00_0_010,
      0b11111111111111111111111111111110, .uxorExt ⟨6, 7, 0, 0, 2⟩ ⟨4294967294⟩),
    (0b1_1_001001_000110_000111_000000_00_0_010,
      0b11111111111111111111111111111110, .ushlExt ⟨6, 7, 0, 0, 2⟩ ⟨4294967294⟩),
    (0b1_1_001010_000110_000111_000000_00_0_010,
      0b11111111111111111111111111111110, .ushrExt ⟨6, 7, 0, 0, 2⟩ ⟨4294967294⟩),
    (0b1_1_001011_000110_000111_000000_00_0_010,
      0b11111111111111111111111111111110, .ushaExt ⟨6, 7, 0, 0, 2⟩ ⟨4294967294⟩),
    (0b1_1_001110_000110_000000_000000_00_0_010,
      0b11111111111111111111111111111110, .umovExt ⟨6, 0, 0, 0, 2⟩ ⟨4294967294⟩),
    (0b1_1_000011_000010_000100_000110_00_0_000,
      0b0011_000_0_0_001001_0_0000000000000000, .umad ⟨2, 4, 6, 0, 0⟩ ⟨.u64, .mode, false, false, 9, false, 0⟩),
    (0b1_1_001100_000010_000100_000000_00_0_000,
      0b0010_000_0_0_000000_0_0000010000101000, .ubfx ⟨2, 4, 0, 0, 0⟩ ⟨.i64, .mode, false, false, 0, false, 1064⟩),
    (0b1_1_001111_000010_000100_000110_00_0_000,
      0b0011_000_0_0_000000_0_0000000000001100, .usel ⟨2, 4, 6, 0, 0⟩ ⟨.u64, .mode, false, false, 0, false, 12⟩),
    (0b1_1_001101_000011_000100_000110_00_0_000,
      0b0010_000_0_0_000000_0_0010000000000000, .ucmp ⟨3, 4, 6, 0, 0⟩ ⟨.i64, .mode, false, false, 0, false, 8192⟩)] : List (Nat × Nat × Instr)),
    decodeTableWord 64 (p.1 + 2 ^ 32 * p.2.1) = some p.2.2 := by decide +kernel

theorem test_decode_control : ∀ p ∈ ([
    (0b1_0_010001_000000_000100_000000_00_0_001, .brx ⟨0, 4, 0, 0, 1⟩),
    (0b1_0_010011_111100_000100_000000_00_0_000, .callx ⟨60, 4, 0, 0, 0⟩),
    (0b1_0_010100_000000_000000_000000_00_0_010, .ret ⟨0, 0, 0, 0, 2⟩),
    (0b1_0_010101_000000_000000_000011_01_0_000, .unwind ⟨0, 0, 3, 1, 0⟩),
    (0b1_0_010110_000000_000000_000000_00_0_000, .rcv ⟨0, 0, 0, 0, 0⟩),
    (0b1_0_010111_000000_000000_000000_00_0_111, .exit ⟨0, 0, 0, 0, 7⟩),
    (0b1_0_011010_000000_000100_000111_01_0_000, .waitc ⟨0, 4, 7, 1, 0⟩)] : List (Nat × Instr)),
    decodeTableWord 32 p.1 = some p.2 := by decide +kernel

theorem test_decode_control_ext : ∀ p ∈ ([
    (0b1_1_010000_000000_000000_000000_00_0_000,
      0b1_011_1_000_111111111111111111111111, .bra ⟨0, 0, 0, 0, 0⟩ ⟨true, 3, true, 16777215⟩),
    (0b1_1_010010_011010_000000_000000_00_0_000,
      0b0_000_0_000_000000000000000000010000, .call ⟨26, 0, 0, 0, 0⟩ ⟨false, 0, false, 16⟩),
    (0b1_1_011000_000000_000101_000000_00_0_000,
      0b0000_000_0_0_000000_0_0000000000000000, .barInit ⟨0, 5, 0, 0, 0⟩ ⟨.b32, .mode, false, false, 0, false, 0⟩),
    (0b1_1_011000_000011_000101_000000_00_0_000,
      0b0000_000_0_0_000000_0_0001000000000000, .barArrive ⟨3, 5, 0, 0, 0⟩ ⟨.b32, .mode, false, false, 0, false, 4096⟩),
    (0b1_1_011000_000000_000101_000000_00_0_000,
      0b0000_000_0_0_000000_0_0010000000000000, .barWait ⟨0, 5, 0, 0, 0⟩ ⟨.b32, .mode, false, false, 0, false, 8192⟩),
    (0b1_1_011000_000000_000101_000000_00_0_000,
      0b0000_000_0_0_000000_0_0011000000000000, .barArrwait ⟨0, 5, 0, 0, 0⟩ ⟨.b32, .mode, false, false, 0, false, 12288⟩),
    (0b1_1_011000_000000_000101_000000_00_0_000,
      0b0000_000_0_0_000000_0_0100000000000000, .barExpect ⟨0, 5, 0, 0, 0⟩ ⟨.b32, .mode, false, false, 0, false, 16384⟩),
    (0b1_1_011001_000000_000000_000000_00_0_000,
      0b0000_000_0_0_000000_0_0000000000000010, .fenceAcq ⟨0, 0, 0, 0, 0⟩ ⟨.b32, .mode, false, false, 0, false, 2⟩),
    (0b1_1_011001_000000_000000_000000_00_0_000,
      0b0000_000_0_0_000000_0_0001000000000011, .fenceRel ⟨0, 0, 0, 0, 0⟩ ⟨.b32, .mode, false, false, 0, false, 4099⟩),
    (0b1_1_011001_000000_000000_000000_00_0_000,
      0b0000_000_0_0_000000_0_0010000000000100, .fenceAcqrel ⟨0, 0, 0, 0, 0⟩ ⟨.b32, .mode, false, false, 0, false, 8196⟩),
    (0b1_1_011001_000000_000000_000000_00_0_000,
      0b0000_000_0_0_000000_0_0011000000000101, .fenceSc ⟨0, 0, 0, 0, 0⟩ ⟨.b32, .mode, false, false, 0, false, 12293⟩)] : List (Nat × Nat × Instr)),
    decodeTableWord 64 (p.1 + 2 ^ 32 * p.2.1) = some p.2.2 := by decide +kernel

theorem test_decode_copies : ∀ p ∈ ([
    (0b1_0_011011_000010_001000_000000_00_0_000, .cpb ⟨2, 8, 0, 0, 0⟩),
    (0b1_0_011100_000010_000000_000000_00_0_000, .cpclose ⟨2, 0, 0, 0, 0⟩),
    (0b1_0_011101_000000_000100_000000_00_0_000, .cpwait ⟨0, 4, 0, 0, 0⟩)] : List (Nat × Instr)),
    decodeTableWord 32 p.1 = some p.2 := by decide +kernel

theorem test_decode_copies_ext : ∀ p ∈ ([
    (0b1_1_011110_000010_000000_000101_01_0_000,
      0b001_0011_0_0_010_01_001001_000000001000, .mwait ⟨2, 0, 5, 1, 0⟩ ⟨.team, .u64, false, false, .clu, .acq, 9, 8⟩),
    (0b1_1_011111_000000_000000_000101_00_0_000,
      0b000_0011_0_0_101_10_001001_000000001000, .msig ⟨0, 0, 5, 0, 0⟩ ⟨.global, .u64, false, false, .sys, .rel, 9, 8⟩)] : List (Nat × Nat × Instr)),
    decodeTableWord 64 (p.1 + 2 ^ 32 * p.2.1) = some p.2.2 := by decide +kernel

theorem test_decode_tasks : ∀ p ∈ ([
    (0b1_0_100000_000001_000100_000110_01_0_000, .fres ⟨1, 4, 6, 1, 0⟩),
    (0b1_0_100001_000000_000100_000110_00_0_000, .freg ⟨0, 4, 6, 0, 0⟩),
    (0b1_0_100010_000000_000100_000000_00_0_000, .tspawn ⟨0, 4, 0, 0, 0⟩),
    (0b1_0_100011_000000_000100_000110_01_0_000, .tdone ⟨0, 4, 6, 1, 0⟩),
    (0b1_0_101000_000000_000100_000000_00_0_000, .asy ⟨0, 4, 0, 0, 0⟩),
    (0b1_0_101011_000010_000100_000110_01_0_000, .gnode ⟨2, 4, 6, 1, 0⟩),
    (0b1_0_101100_000010_000100_000000_00_0_000, .svc ⟨2, 4, 0, 0, 0⟩)] : List (Nat × Instr)),
    decodeTableWord 32 p.1 = some p.2 := by decide +kernel

theorem test_decode_tasks_ext : ∀ p ∈ ([
    (0b1_1_101001_000000_000101_000111_00_0_000,
      0b0000_000_0_0_001001_0_0000000000000000, .rlogPush ⟨0, 5, 7, 0, 0⟩ ⟨.b32, .mode, false, false, 9, false, 0⟩),
    (0b1_1_101001_000011_000101_000111_00_0_000,
      0b0000_000_0_0_000000_0_0001000000000000, .rlogGet ⟨3, 5, 7, 0, 0⟩ ⟨.b32, .mode, false, false, 0, false, 4096⟩),
    (0b1_1_101001_000000_000101_000111_00_0_000,
      0b0000_000_0_0_000000_0_0010000000000000, .rlogRet ⟨0, 5, 7, 0, 0⟩ ⟨.b32, .mode, false, false, 0, false, 8192⟩),
    (0b1_1_101010_000000_000101_000000_00_0_000,
      0b0000_000_0_0_001001_0_0000000000000000, .pipeSend ⟨0, 5, 0, 0, 0⟩ ⟨.b32, .mode, false, false, 9, false, 0⟩),
    (0b1_1_101010_000000_000101_000000_00_0_000,
      0b0000_000_0_0_001001_0_0001000000000000, .pipeRecv ⟨0, 5, 0, 0, 0⟩ ⟨.b32, .mode, false, false, 9, false, 4096⟩)] : List (Nat × Nat × Instr)),
    decodeTableWord 64 (p.1 + 2 ^ 32 * p.2.1) = some p.2.2 := by decide +kernel

theorem test_decode_lists : ∀ p ∈ ([
    (0b1_1_100100_000000_000101_000000_00_0_000,
      0b0000_000_0_0_000000_0_0000000000000000, .accAcq ⟨0, 5, 0, 0, 0⟩ ⟨.b32, .mode, false, false, 0, false, 0⟩),
    (0b1_1_100100_000000_000101_000000_00_0_000,
      0b0000_000_0_0_000000_0_0001000000000000, .accRel ⟨0, 5, 0, 0, 0⟩ ⟨.b32, .mode, false, false, 0, false, 4096⟩),
    (0b1_1_100100_000000_000101_000111_00_0_000,
      0b0000_000_0_0_000000_0_0010000000000000, .accWin ⟨0, 5, 7, 0, 0⟩ ⟨.b32, .mode, false, false, 0, false, 8192⟩),
    (0b1_1_100100_000011_000101_000000_00_0_000,
      0b0000_000_0_0_000000_0_0011000000000000, .accAlloc ⟨3, 5, 0, 0, 0⟩ ⟨.b32, .mode, false, false, 0, false, 12288⟩),
    (0b1_1_100100_000000_000101_000000_00_0_000,
      0b0000_000_0_0_000000_0_0100000000000000, .accFree ⟨0, 5, 0, 0, 0⟩ ⟨.b32, .mode, false, false, 0, false, 16384⟩),
    (0b1_1_100101_000000_000100_000110_00_0_000,
      0b0000_000_0_0_000000_0_1000000100100011, .rkcfg ⟨0, 4, 6, 0, 0⟩ ⟨.b32, .mode, false, false, 0, false, 33059⟩),
    (0b1_1_100111_000010_000100_000000_00_0_000,
      0b0000_000_0_0_000000_0_0000000001111101, .rkrd ⟨2, 4, 0, 0, 0⟩ ⟨.b32, .mode, false, false, 0, false, 125⟩),
    (0b1_1_100110_000000_000100_000000_00_0_000,
      0b001_0000_0_0_010_01_000010_000000001000, .rkmrg ⟨0, 4, 0, 0, 0⟩ ⟨.team, .b32, false, false, .clu, .acq, 2, 8⟩)] : List (Nat × Nat × Instr)),
    decodeTableWord 64 (p.1 + 2 ^ 32 * p.2.1) = some p.2.2 := by decide +kernel

theorem test_decode_system : ∀ p ∈ ([
    (0b1_0_110000_001010_000100_000000_10_0_000, .srd ⟨10, 4, 0, 2, 0⟩),
    (0b1_0_110000_001010_000000_000110_01_0_000, .srdFaultWord ⟨10, 0, 6, 1, 0⟩),
    (0b1_0_110001_000000_001001_000100_10_0_001, .swr ⟨0, 9, 4, 2, 1⟩),
    (0b1_0_110010_000000_000000_100001_01_0_000, .trap ⟨0, 0, 33, 1, 0⟩),
    (0b1_0_110011_000000_000000_000001_01_0_000, .hret ⟨0, 0, 1, 1, 0⟩),
    (0b1_0_110100_000000_000000_001001_01_0_000, .bkpt ⟨0, 0, 9, 1, 0⟩)] : List (Nat × Instr)),
    decodeTableWord 32 p.1 = some p.2 := by decide +kernel

theorem test_decode_system_ext : ∀ p ∈ ([
    (0b1_1_101101_000000_000100_000110_00_0_000,
      0b0000_000_0_0_000000_0_0000000000000000, .hcohFlush ⟨0, 4, 6, 0, 0⟩ ⟨.b32, .mode, false, false, 0, false, 0⟩),
    (0b1_1_101101_000000_000100_000110_00_0_000,
      0b0000_000_0_0_000000_0_0001000000000000, .hcohInval ⟨0, 4, 6, 0, 0⟩ ⟨.b32, .mode, false, false, 0, false, 4096⟩),
    (0b1_1_110101_000000_000000_000000_00_0_000,
      0b0000_000_0_0_000000_0_0000000000000000, .ctxDrain ⟨0, 0, 0, 0, 0⟩ ⟨.b32, .mode, false, false, 0, false, 0⟩),
    (0b1_1_110101_000000_000100_000010_01_0_000,
      0b0000_000_0_0_000000_0_0001000000000000, .ctxSvsplit ⟨0, 4, 2, 1, 0⟩ ⟨.b32, .mode, false, false, 0, false, 4096⟩),
    (0b1_1_110101_000000_000100_000010_01_0_000,
      0b0000_000_0_0_000000_0_0010000000000000, .ctxLdsplit ⟨0, 4, 2, 1, 0⟩ ⟨.b32, .mode, false, false, 0, false, 8192⟩),
    (0b1_1_110101_000000_000000_000010_01_0_000,
      0b0000_000_0_0_000000_0_0011000000000000, .ctxSvframe ⟨0, 0, 2, 1, 0⟩ ⟨.b32, .mode, false, false, 0, false, 12288⟩),
    (0b1_1_110101_000000_000000_000010_01_0_000,
      0b0000_000_0_0_000000_0_0100000000000000, .ctxLdframe ⟨0, 0, 2, 1, 0⟩ ⟨.b32, .mode, false, false, 0, false, 16384⟩),
    (0b1_1_110101_000000_000100_000010_01_0_000,
      0b0000_000_0_0_000000_0_0101000000000000, .ctxSvlist ⟨0, 4, 2, 1, 0⟩ ⟨.b32, .mode, false, false, 0, false, 20480⟩),
    (0b1_1_110101_000000_000100_000001_01_0_000,
      0b0000_000_0_0_000000_0_0101000000000001, .ctxSvlistLoad ⟨0, 4, 1, 1, 0⟩ ⟨.b32, .mode, false, false, 0, false, 20481⟩)] : List (Nat × Nat × Instr)),
    decodeTableWord 64 (p.1 + 2 ^ 32 * p.2.1) = some p.2.2 := by decide +kernel

/-- Words that the chapters of the spec spell out beside an assembly line. -/
theorem test_decode_worked_words : ∀ p ∈ ([
    (0x410C3002, 0x00010001, .isubExt ⟨3, 3, 0, 0, false, 2⟩ ⟨.b32, .mode, false, false, 0, true, 1⟩),
    (0x6200608F, 0x02004000, .atom ⟨0, 6, 2, 0, true, 7⟩ ⟨.global, .u32, false, false, .grp, .rlx, 4, 0⟩),
    (0x61004087, 0x01005000, .st ⟨0, 4, 2, 0, false, 7⟩ ⟨.global, .b32, true, false, .grp, .rlx, 5, 0⟩),
    (0x730061C0, 0x00121000, .itemSkip ⟨0, 6, 7, 0, false, 0⟩ ⟨.b32, .mode, false, false, 9, false, 4096⟩),
    (0xD0000000, 0x10FFFFE3, .bra ⟨0, 0, 0, 0, 0⟩ ⟨false, 1, false, 0xFFFFE3⟩),
    (0xD0000000, 0xB0000015, .bra ⟨0, 0, 0, 0, 0⟩ ⟨true, 3, false, 21⟩),
    (0xD2500000, 0x0000000B, .call ⟨20, 0, 0, 0, 0⟩ ⟨false, 0, false, 11⟩),
    (0xCC202020, 0x300001D0, .ubfx ⟨8, 2, 0, 2, 0⟩ ⟨.u64, .mode, false, false, 0, false, 464⟩),
    (0x6A501270, 0x40000052, .rkins ⟨20, 1, 9, 3, false, 0⟩ ⟨.f32, .mode, false, false, 0, false, 82⟩),
    (0x53103280, 0x40040000, .ffma ⟨4, 3, 10, 0, false, 0⟩ ⟨.f32, .mode, false, false, 2, false, 0⟩),
    (0x5D244002, 0x00004000, .vote ⟨9, 4, 0, 0, false, 2⟩ ⟨.b32, .mode, false, false, 0, false, 16384⟩),
    (0x5F34C000, 0x00001000, .scan ⟨13, 12, 0, 0, false, 0⟩ ⟨.b32, .mode, false, false, 0, false, 4096⟩),
    (0x5C144000, 0x00002021, .shfl ⟨5, 4, 0, 0, false, 0⟩ ⟨.b32, .mode, false, false, 0, false, 8225⟩),
    (0x781010F0, 0x10100000, .imadw ⟨4, 1, 3, 3, false, 0⟩ ⟨.u32, .mode, false, false, 8, false, 0⟩),
    (0x591C1080, 0xC3000014, .cvt ⟨7, 1, 2, 0, false, 0⟩ ⟨.e4m3x4, .rne, true, false, 0, false, 20⟩),
    (0xDE280240, 0x06554000, .mwait ⟨10, 0, 9, 0, 0⟩ ⟨.global, .u64, false, false, .sys, .acq, 20, 0⟩),
    (0x70810180, 0x20005400, .mma ⟨32, 16, 6, 0, false, 0⟩ ⟨8, 0, 0, 1, 1, 1, false, false⟩),
    (0x6E001000, 0x0003C000, .lda ⟨0, 1, 0, 0, false, 0⟩ ⟨.global, .b32, false, false, .grp, .rlx, 60, 0⟩),
    (0x74002100, 0x00489000, .qenq ⟨0, 2, 4, 0, false, 0⟩ ⟨.global, .b32, false, false, .pkg, .rel, 9, 0⟩),
    (0x75203000, 0x00449000, .qdeq ⟨8, 3, 0, 0, false, 0⟩ ⟨.global, .b32, false, false, .pkg, .acq, 9, 0⟩),
    (0x631821C0, 0x00344000, .atomc ⟨6, 2, 7, 0, false, 0⟩ ⟨.global, .b32, false, false, .die, .acq, 4, 0⟩),
    (0xF503E010, 0x00005001, .ctxSvlistLoad ⟨0, 62, 0, 1, 0⟩ ⟨.b32, .mode, false, false, 0, false, 20481⟩)] : List (Nat × Nat × Instr)),
    decodeTableWord 64 (p.1 + 2 ^ 32 * p.2.1) = some p.2.2 := by decide +kernel

/-- Short forms that the chapters of the spec spell out. -/
theorem test_decode_worked_short_words : ∀ p ∈ ([
    (0x9D00B020, .cpwait ⟨0, 11, 0, 2, 0⟩),
    (0x95000090, .unwind ⟨0, 0, 2, 1, 0⟩),
    (0x9B0D0000, .cpb ⟨3, 16, 0, 0, 0⟩),
    (0xA10155C0, .freg ⟨0, 21, 23, 0, 0⟩),
    (0xA3005300, .tdone ⟨0, 5, 12, 0, 0⟩),
    (0xA0005050, .fres ⟨0, 5, 1, 1, 0⟩),
    (0xA800C000, .asy ⟨0, 12, 0, 0, 0⟩),
    (0xB0FC0190, .srdFaultWord ⟨63, 0, 6, 1, 0⟩),
    (0x1B300234, .mov ⟨12, 0, 8, 3, false, 4⟩),
    (0x2C041000, .vsr ⟨1, 1, 0, 0, false, 0⟩),
    (0x81208050, .usub ⟨8, 8, 1, 1, 0⟩),
    (0x96000000, .rcv ⟨0, 0, 0, 0, 0⟩)] : List (Nat × Instr)),
    decodeTableWord 32 p.1 = some p.2 := by decide +kernel

/-- R52, R54: reserved cells decode to the step RESERVED_OP. -/
theorem test_decode_reserved_cells : ∀ w ∈ [(0x37000000 : Nat), 0x3C000000, 0x3F000000, 0xAE000000, 0xB6000000, 0xBF000000],
    decodeTableWord 32 w = some (.reservedOp (BitVec.ofNat 32 w) none) := by decide +kernel

/-- R8, R35: the words of an instruction lie little-endian, the short form first. -/
theorem test_decode_byte_order : decode [0x02, 0x30, 0x0C, 0x41, 0x01, 0x00, 0x01, 0x00, 0xAA] =
    .ok (.isubExt ⟨3, 3, 0, 0, false, 2⟩ ⟨.b32, .mode, false, false, 0, true, 1⟩, [0xAA]) := rfl

end Sys2Proof.Tests
end

/-! # Every step keeps every memory in canonical form

A memory of the package is written by a few operations only, and each of them keeps the canonical form (`State.memWf_homePut`
and its neighbours under Laws/Memory.lean). What is left to show is that everything else of a step reaches a memory through
them: one rule for each operation of the model, in the model's order, each citing the rules of the operations it calls.

`grind` joins the branches of an operation once the rules that it takes are named. Its arithmetic solvers stay off: no goal
here is one of arithmetic. -/

namespace Sys2Proof.Machine

/-- Every memory is in canonical form in the state that an outcome leaves, where it leaves one. -/
def outMemWf : Out → Bool
  | .next t => t.memWf
  | .fault _ | .refused _ => true

/-- What a fold keeps of the memories, where each of its steps keeps it. -/
theorem foldl_memWf {α : Type} {s : State} (h : s.memWf = true) (f : State → α → State)
    (hf : ∀ t a, t.memWf = true → (f t a).memWf = true) (l : List α) : (l.foldl f s).memWf = true :=
  foldl_keeps (fun t : State => t.memWf = true) f hf l s h

/-- The same of a fold that carries something beside the state. -/
theorem foldl_fst_memWf {α β : Type} {p : State × β} (h : p.1.memWf = true) (f : State × β → α → State × β)
    (hf : ∀ q a, q.1.memWf = true → (f q a).1.memWf = true) (l : List α) : (l.foldl f p).1.memWf = true :=
  foldl_keeps (fun q : State × β => q.1.memWf = true) f hf l p h

/-- The same of a fold that can fail: each step keeps it of the state that it leaves, where it leaves one. -/
theorem foldl_option_memWf {α : Type} {o : Option State} (ho : ∀ t, o = some t → t.memWf = true)
    (f : Option State → α → Option State)
    (hf : ∀ p a, (∀ t, p = some t → t.memWf = true) → ∀ t, f p a = some t → t.memWf = true) (l : List α) {u : State}
    (hu : l.foldl f o = some u) : u.memWf = true :=
  foldl_keeps (fun p : Option State => ∀ t, p = some t → t.memWf = true) f hf l o ho u hu

/-- A state that may not be there, where what stands in for it is in canonical form. -/
theorem memWf_getD {s : State} (h : s.memWf = true) {o : Option State} (ho : ∀ t, o = some t → t.memWf = true) :
    (o.getD s).memWf = true := by
  cases o with
  | none => exact h
  | some t => exact ho t rfl

theorem outMemWf_getD {d : Out} (h : outMemWf d = true) {o : Option Out} (ho : ∀ r, o = some r → outMemWf r = true) :
    outMemWf (o.getD d) = true := by
  cases o with
  | none => exact h
  | some r => exact ho r rfl

end Sys2Proof.Machine

/-! ## Memories, records and translation -/

namespace Sys2Proof.Machine

section
variable {s : State} (h : s.memWf = true)
include h

/-! ### Homes, clocks and caches -/

theorem State.memWf_landFlights (pick : Flight → Bool) : (s.landFlights pick).memWf = true :=
  State.memWf_of_sameMem (State.sameMem_landFlights s ..) h

theorem State.memWf_landAt (l : Loc) (n : Nat) : (s.landAt l n).memWf = true := h
theorem State.memWf_sendFlights (gid die : Nat) : (s.sendFlights gid die).memWf = true := h

theorem State.memWf_stampRead (die : Nat) (l : Loc) : (s.stampRead die l).memWf = true :=
  State.memWf_of_sameMem (State.sameMem_stampRead s ..) h

theorem State.memWf_l1Fetch (core : Nat) (l : Loc) : (s.l1Fetch core l).memWf = true :=
  State.memWf_of_sameMem (State.sameMem_l1Fetch s ..) h

theorem State.memWf_l1Refresh (core : Nat) (l : Loc) : (s.l1Refresh core l).memWf = true :=
  State.memWf_of_sameMem (State.sameMem_l1Refresh s ..) h

theorem State.memWf_coreLoad (core : Nat) (cached : Bool) (l : Loc) (n : Nat) :
    (s.coreLoad core cached l n).1.memWf = true :=
  State.memWf_of_sameMem (State.sameMem_coreLoad s ..) h

theorem State.memWf_l1Invalidate (core : Nat) : (s.l1Invalidate core).memWf = true := h
theorem State.memWf_l1Drop (space line : Nat) : (s.l1Drop space line).memWf = true := h

theorem State.memWf_unitLoad (die : Nat) (l : Loc) (n : Nat) : (s.unitLoad die l n).1.memWf = true :=
  State.memWf_of_sameMem (State.sameMem_unitLoad s ..) h

theorem State.memWf_setDevReg (off : Nat) (v : Dword) : (s.setDevReg off v).memWf = true := h
theorem State.memWf_setPartReg (part off : Nat) (v : Dword) : (s.setPartReg part off v).memWf = true := h

/-! ### Registers, rings, records and readiness -/

theorem State.memWf_putRecord (pa n v : Nat) : (s.putRecord pa n v).memWf = true := by
  unfold State.putRecord
  grind -ring -linarith [State.memWf_homeStore]

theorem State.memWf_partRing (part off size v : Nat) : (s.partRing part off size v).memWf = true := by
  unfold State.partRing
  grind -ring -linarith [State.memWf_setPartReg, State.memWf_putRecord]

theorem State.memWf_devRing (overwrite : Bool) (off size v : Nat) : (s.devRing overwrite off size v).memWf = true := by
  unfold State.devRing
  grind -ring -linarith [State.memWf_setDevReg, State.memWf_putRecord]

theorem State.memWf_postEvent (part code src : Nat) (v0 v1 : Dword) : (s.postEvent part code src v0 v1).memWf = true :=
  State.memWf_partRing h ..

theorem State.memWf_postRoot (code src : Nat) (v0 v1 : Dword) : (s.postRoot code src v0 v1).memWf = true := h

theorem State.memWf_logRecord (src kind isl unit : Nat) (data : Dword) :
    (s.logRecord src kind isl unit data).memWf = true := by
  unfold State.logRecord
  grind -ring -linarith [State.memWf_devRing, State.memWf]

theorem State.memWf_onOffice (die : Nat) (f : Office → Office) : (s.onOffice die f).memWf = true := h
theorem State.memWf_officeEvent (die code v : Nat) : (s.officeEvent die code v).memWf = true := h

theorem State.memWf_setReady (b : Nat) (v : Bool) : (s.setReady b v).memWf = true := by
  unfold State.setReady
  grind -ring -linarith [State.memWf_setDevReg, State.memWf_postRoot, State.memWf_logRecord, State.memWf_officeEvent]

theorem State.memWf_decision (die kind reason : Nat) (tag : Word) (team qnum pasid prio cmask : Nat) :
    (s.decision die kind reason tag team qnum pasid prio cmask).memWf = true := by
  unfold State.decision
  refine State.memWf_devRing ?_ ..
  dsimp only
  split <;> exact h

/-! ### Translation and parked accesses -/

theorem State.memWf_unpark (tag : Nat) : (s.unpark tag).memWf = true := h

theorem State.memWf_park (gid sp ctx va : Nat) (k : Access) (route die : Nat) :
    (s.park gid sp ctx va k route die).memWf = true := by
  unfold State.park
  grind -ring -linarith [State.memWf_postEvent, State.memWf]

theorem State.memWf_parkMiss (gid sp ctx va die : Nat) (k : Access) (route : Nat) :
    (s.parkMiss gid sp ctx va die k route).memWf = true := by
  unfold State.parkMiss
  grind -ring -linarith [State.memWf_unpark, State.memWf_park]

theorem State.memWf_dropAnswered (gid sp : Nat) (k : Access) (failed : Bool) :
    (s.dropAnswered gid sp k failed).memWf = true := h

theorem State.memWf_access (gid sp ctx va die : Nat) (k : Access) : (s.access gid sp ctx va die k).1.memWf = true := by
  unfold State.access
  grind -ring -linarith [State.memWf_parkMiss, State.memWf_dropAnswered]

end

end Sys2Proof.Machine

/-! ## Groups, frames and queue slots -/

namespace Sys2Proof.Machine

section
variable {s : State} (h : s.memWf = true)
include h

/-! ### Groups, teams and engines -/

theorem State.memWf_onGroup (gid : Nat) (f : Group → Group) : (s.onGroup gid f).memWf = true := by
  unfold State.onGroup
  split <;> exact h

theorem State.memWf_onGroups (f : Group → Group) : (s.onGroups f).memWf = true := h
theorem State.memWf_onGrp (f : Group → Group) : (s.onGrp f).memWf = true := h

theorem State.memWf_focus (gid : Nat) : (s.focus gid).memWf = true := by
  unfold State.focus
  grind -ring -linarith [State.memWf]

theorem State.memWf_focusSplit (gid n : Nat) : (s.focusSplit gid n).memWf = true := by
  unfold State.focusSplit
  grind -ring -linarith [State.memWf_onGrp, State.memWf_focus]

theorem State.memWf_within (gid n : Nat) (f : State → State) (hf : ∀ t, t.memWf = true → (f t).memWf = true) :
    (s.within gid n f).memWf = true := by
  unfold State.within
  dsimp only
  split
  · exact State.memWf_focusSplit (hf _ (State.memWf_focusSplit h ..)) ..
  · exact h

theorem State.memWf_waitFor (w : Why) : (s.waitFor w).memWf = true := h

theorem State.memWf_wake (gid n : Nat) : (s.wake gid n).memWf = true :=
  State.memWf_onGroup h ..

theorem State.memWf_onTeam (key : Nat) (f : Team → Team) : (s.onTeam key f).memWf = true := h
theorem State.memWf_onEngine (k : Nat) (f : Engine → Engine) : (s.onEngine k f).memWf = true := h
theorem State.memWf_onQueue (k : Nat) (f : Queue → Queue) : (s.onQueue k f).memWf = true := h

/-! ### Frames and the spill area -/

theorem State.memWf_ctxLoad (ctx die va n : Nat) : (s.ctxLoad ctx die va n).1.memWf = true := by
  unfold State.ctxLoad
  grind -ring -linarith [State.memWf_unitLoad, State.memWf_touch]

theorem State.memWf_ctxStore (ctx die va : Nat) (bs : List Byte) {u : State} (hu : s.ctxStore ctx die va bs = some u) :
    u.memWf = true := by
  unfold State.ctxStore at hu
  grind -ring -linarith [State.memWf_unitStore, State.memWf_touch]

theorem State.memWf_ctxNat (ctx die va n : Nat) : (s.ctxNat ctx die va n).1.memWf = true := by
  unfold State.ctxNat
  grind -ring -linarith [State.memWf_ctxLoad]

theorem State.memWf_ctxStoreLong (ctx die va : Nat) (bs : List Byte) {u : State}
    (hu : s.ctxStoreLong ctx die va bs = some u) : u.memWf = true := by
  unfold State.ctxStoreLong at hu
  refine foldl_option_memWf ?_ _ ?_ _ hu
  · grind
  · grind -ring -linarith [State.memWf_ctxStore]

theorem State.memWf_ctxLoadLong (ctx die va n : Nat) : (s.ctxLoadLong ctx die va n).1.memWf = true := by
  unfold State.ctxLoadLong
  grind -ring -linarith [State.memWf_ctxLoad, foldl_fst_memWf]

theorem State.memWf_spillReach (gid sp : Nat) (k : Access) (vas : List Nat) :
    (s.spillReach gid sp k vas).1.memWf = true := by
  unfold State.spillReach
  grind -ring -linarith [State.memWf_parkMiss, State.memWf_dropAnswered, foldl_memWf]

theorem State.memWf_spillLoad (g : Group) (va n : Nat) : (s.spillLoad g va n).1.memWf = true := by
  unfold State.spillLoad
  grind -ring -linarith [State.memWf_ctxLoad]

theorem State.memWf_spillStore (g : Group) (va : Nat) (bs : List Byte) : (s.spillStore g va bs).memWf = true := by
  unfold State.spillStore
  grind -ring -linarith [State.memWf_ctxStore, memWf_getD]

theorem State.memWf_putDescriptor (gid fn : Nat) : (s.putDescriptor gid fn).memWf = true := by
  unfold State.putDescriptor
  grind -ring -linarith [State.memWf_spillStore]

theorem State.memWf_startEvict (gid n : Nat) : (s.startEvict gid n).1.memWf = true := by
  unfold State.startEvict
  grind -ring -linarith [State.memWf_onGroup, State.memWf_spillReach, State.memWf_putDescriptor, foldl_memWf]

theorem State.memWf_endEvict (gid n : Nat) : (s.endEvict gid n).1.memWf = true := by
  unfold State.endEvict
  grind -ring -linarith [State.memWf_onGroup, State.memWf_spillReach, State.memWf_spillStore, State.memWf_putDescriptor,
    foldl_memWf]

theorem State.memWf_evict (gid n : Nat) : (s.evict gid n).1.memWf = true := by
  unfold State.evict
  grind -ring -linarith [State.memWf_startEvict, State.memWf_endEvict]

theorem State.memWf_readImage (g : Group) (n k : Nat) : (s.readImage g n k).1.memWf = true := by
  unfold State.readImage
  grind -ring -linarith [State.memWf_spillLoad, foldl_fst_memWf]

theorem State.memWf_fill (gid n : Nat) : (s.fill gid n).1.memWf = true := by
  unfold State.fill
  grind -ring -linarith [State.memWf_onGroup, State.memWf_spillReach, State.memWf_putDescriptor, State.memWf_readImage]

theorem State.memWf_readBack : s.readBack.1.memWf = true := by
  unfold State.readBack
  grind -ring -linarith [State.memWf_onGrp, State.memWf_spillReach, State.memWf_spillLoad]

theorem State.memWf_dropRequests (gid sp : Nat) : (s.dropRequests gid sp).memWf = true := h

theorem State.memWf_request (r : FrameReq) : (s.request r).memWf = true := by
  unfold State.request
  split <;> exact h

/-! ### Slots, locks and fault records -/

theorem State.memWf_slotRecord (q : Queue) (i : Word) : (s.slotRecord q i).1.memWf = true := by
  unfold State.slotRecord
  grind -ring -linarith [State.memWf_ctxNat, State.memWf_ctxLoadLong]

theorem State.memWf_slotWrite (k : Nat) (rec_ : List Byte) : (s.slotWrite k rec_).memWf = true := by
  unfold State.slotWrite
  grind -ring -linarith [State.memWf_onQueue, State.memWf_ctxStore, State.memWf_ctxStoreLong, memWf_getD]

theorem State.memWf_onLock (k : Nat) (f : LockEntry → LockEntry) : (s.onLock k f).memWf = true := h
theorem State.memWf_resolveSlot (k seq : Nat) : (s.resolveSlot k seq).memWf = true := h
theorem State.memWf_unlock (k : Nat) : (s.unlock k).memWf = true := h
theorem State.memWf_takeLock (k : Nat) : (s.takeLock k).memWf = true := h

theorem State.memWf_discardHeld (core gid lane : Nat) (it : Item) : (s.discardHeld core gid lane it).memWf = true := by
  unfold State.discardHeld
  split <;> exact h

theorem State.memWf_completeItem (it : Item) : (s.completeItem it).memWf = true := by
  unfold State.completeItem
  grind -ring -linarith [State.memWf_resolveSlot, State.memWf_unlock]

theorem State.memWf_drainRecords (k n : Nat) : (s.drainRecords k n).memWf = true := by
  fun_induction s.drainRecords k n <;> grind -ring -linarith [State.memWf_onQueue, State.memWf_slotWrite, foldl_memWf]

theorem State.memWf_putRecords (k : Nat) (rs : List (BitVec 512)) : (s.putRecords k rs).memWf = true := by
  unfold State.putRecords
  grind -ring -linarith [State.memWf_onQueue, State.memWf_drainRecords]

theorem State.memWf_putContextRecords (ctx die team : Nat) (rs : List (BitVec 512)) :
    (s.putContextRecords ctx die team rs).memWf = true := by
  unfold State.putContextRecords
  grind -ring -linarith [State.memWf_postEvent, State.memWf_putRecords]

theorem State.memWf_unbindTeam (team : Nat) : (s.unbindTeam team).memWf = true := h

theorem State.memWf_parkItem (it : Item) (lane cause : Nat) (addr pc : Dword) :
    (s.parkItem it lane cause addr pc).memWf = true := by
  unfold State.parkItem
  grind -ring -linarith [State.memWf_postEvent, State.memWf_putRecords, State.memWf]

theorem State.memWf_parkWaiting (die : Nat) : (s.parkWaiting die).memWf = true := by
  unfold State.parkWaiting
  grind -ring -linarith [State.memWf_parkItem, foldl_memWf, State.memWf]

/-! ### Team images -/

theorem State.memWf_loadItems (gid : Nat) (bs : List Byte) : (s.loadItems gid bs).memWf = true := by
  unfold State.loadItems
  grind -ring -linarith [State.memWf_onGroup]

theorem State.memWf_storePieces (ctx die base : Nat) (ps : List (Nat × List Byte)) {u : State}
    (hu : s.storePieces ctx die base ps = some u) : u.memWf = true := by
  unfold State.storePieces at hu
  refine foldl_option_memWf ?_ _ ?_ _ hu
  · grind
  · grind -ring -linarith [State.memWf_ctxStoreLong]

theorem State.memWf_saveGroup (gid base : Nat) {u : State} (hu : s.saveGroup gid base = some u) : u.memWf = true := by
  unfold State.saveGroup at hu
  grind -ring -linarith [State.memWf_storePieces]

theorem State.memWf_readChain (ctx die spill fuel fn : Nat) : (s.readChain ctx die spill fuel fn).1.memWf = true := by
  fun_induction s.readChain ctx die spill fuel fn <;> grind -ring -linarith [State.memWf_ctxLoadLong]

theorem State.memWf_loadSplit (gid n : Nat) (bs : List Byte) : (s.loadSplit gid n bs).1.memWf = true := by
  unfold State.loadSplit
  grind -ring -linarith [State.memWf_onGroup, State.memWf_readChain]

end

end Sys2Proof.Machine

/-! ## Faults, shapes of instructions, issue

What a shape of instruction runs on, and the meaning `run` of an instruction that issues, has to keep the canonical form
from every state that it can be given. -/

namespace Sys2Proof.Machine

section
variable {s : State} (h : s.memWf = true)
include h

/-! ### Moving on, ordering, endings and faults -/

theorem State.memWf_goto (pc : Dword) : (s.goto pc).memWf = true := h
theorem State.memWf_advance (len : Nat) : (s.advance len).memWf = true := h
theorem State.memWf_done (len : Nat) : outMemWf (s.done len) = true := h
theorem State.memWf_stay (w : Why) : outMemWf (s.stay w) = true := h
theorem State.memWf_haltSoon (part cause : Nat) : (s.haltSoon part cause).memWf = true := h
theorem State.memWf_clockStep (d : Nat) : (s.clockStep d).memWf = true := h

theorem State.memWf_release (sc : Scope) : (s.release sc).memWf = true := by
  unfold State.release
  split <;> exact h

theorem State.memWf_acquire (sc : Scope) : (s.acquire sc).memWf = true := by
  unfold State.acquire
  split <;> exact h

theorem State.memWf_countWrites (n : Nat) : (s.countWrites n).memWf = true := h

theorem State.memWf_countPeers (ctx n : Nat) : (s.countPeers ctx n).memWf = true := by
  unfold State.countPeers
  split <;> exact h

theorem State.memWf_completeLanes (m : Mask) : (s.completeLanes m).memWf = true := by
  unfold State.completeLanes
  grind -ring -linarith [State.memWf_onGrp, State.memWf_completeItem, foldl_memWf]

theorem State.memWf_forgetGroup (gid : Nat) : (s.forgetGroup gid).memWf = true := h
theorem State.memWf_dropCaps : s.dropCaps.memWf = true := h
theorem State.memWf_freeEngines (key : Nat) : (s.freeEngines key).memWf = true := h

theorem State.memWf_teamDecision (t : Team) (kind reason : Nat) : (s.teamDecision t kind reason).memWf = true :=
  State.memWf_decision h ..

theorem State.memWf_coreFreed (core : Nat) : (s.coreFreed core).memWf = true := by
  unfold State.coreFreed
  grind -ring -linarith [State.memWf]

theorem State.memWf_endTeam (key : Nat) : (s.endTeam key).memWf = true := by
  unfold State.endTeam
  grind -ring -linarith [State.memWf_officeEvent, State.memWf_onTeam, State.memWf_freeEngines, State.memWf_teamDecision,
    State.memWf_coreFreed]

theorem State.memWf_afterExit (gid : Nat) : (s.afterExit gid).memWf = true := by
  unfold State.afterExit
  grind -ring -linarith [State.memWf_forgetGroup, State.memWf_dropCaps, State.memWf_endTeam]

theorem State.memWf_parkGroupItems (items : List (Nat × Item)) (cause : Nat) (pc : Dword) :
    (s.parkGroupItems items cause pc).memWf = true := by
  unfold State.parkGroupItems
  grind -ring -linarith [State.memWf_parkItem, foldl_memWf]

theorem State.memWf_killGroup (g : Group) : (s.killGroup g).memWf = true := by
  unfold State.killGroup
  grind -ring -linarith [State.memWf_onGroup, State.memWf_discardHeld, State.memWf_forgetGroup, foldl_memWf]

theorem State.memWf_killTeam (key cause reason : Nat) (discard : Bool) :
    (s.killTeam key cause reason discard).memWf = true := by
  unfold State.killTeam
  grind -ring -linarith [State.memWf_landFlights, State.memWf_completeItem, State.memWf_unbindTeam, State.memWf_dropCaps,
    State.memWf_freeEngines, State.memWf_teamDecision, State.memWf_coreFreed, State.memWf_parkGroupItems,
    State.memWf_killGroup, foldl_memWf, State.memWf]

theorem State.memWf_groupRecords (gid : Nat) (rs : List (BitVec 512)) : (s.groupRecords gid rs).memWf = true := by
  unfold State.groupRecords
  grind -ring -linarith [State.memWf_putContextRecords]

theorem State.memWf_enterHandler (cause epc : Dword) (words : List Dword) (mask : Mask) (chain : List Nat) (num : Nat)
    (target : Dword) (fc : Nat) :
    (s.enterHandler cause epc words mask chain num target fc).memWf = true := by
  unfold State.enterHandler
  grind -ring -linarith [State.memWf_onGrp, State.memWf_request, State.memWf_goto, State.memWf]

theorem State.memWf_parkGroup (t : Trap) (hd : Handler) : (s.parkGroup t hd).memWf = true := by
  unfold State.parkGroup
  grind -ring -linarith [State.memWf_onGrp]

theorem State.memWf_parkLanes (t : Trap) : (s.parkLanes t).memWf = true := by
  unfold State.parkLanes
  grind -ring -linarith [State.memWf_postEvent, State.memWf_onGrp, State.memWf_waitFor, State.memWf_discardHeld,
    State.memWf_parkItem, State.memWf_release, State.memWf_afterExit, foldl_memWf]

theorem State.memWf_faultTask (t : Trap) (tm : Team) : (s.faultTask t tm).memWf = true := by
  unfold State.faultTask
  grind -ring -linarith [State.memWf_postEvent, State.memWf_ctxStore, State.memWf_putRecords, State.memWf_killTeam,
    memWf_getD]

theorem State.memWf_raise (t : Trap) : (s.raise t).memWf = true := by
  unfold State.raise
  grind -ring -linarith [State.memWf_putContextRecords, State.memWf_killTeam, State.memWf_enterHandler,
    State.memWf_parkGroup, State.memWf_parkLanes, State.memWf_faultTask, State.memWf]

theorem State.memWf_faultIn (cause : Nat) (eff : Mask) : outMemWf (s.faultIn cause eff) = true :=
  State.memWf_raise h ..

theorem State.memWf_fault (cause : Nat) : outMemWf (s.fault cause) = true :=
  State.memWf_faultIn h ..

theorem State.memWf_faultLanes (cause : Nat) (eff : Mask) (fails : List (Nat × Dword)) :
    outMemWf (s.faultLanes cause eff fails) = true :=
  State.memWf_raise h ..

theorem memWf_uniform (g : BitVec 3) (gn : Bool) (len : Nat) (body : State → Out)
    (hbody : ∀ t, t.memWf = true → outMemWf (body t) = true) :
    outMemWf (uniform g gn len s body) = true := by
  unfold uniform
  split
  · exact hbody _ h
  · exact State.memWf_done h ..

theorem State.memWf_pushZero : s.pushZero.memWf = true := h

theorem memWf_lanes (regs : List Nat) (g : BitVec 3) (gn exempt : Bool) (len : Nat) (body : Mask → State → Out)
    (hbody : ∀ a t, t.memWf = true → outMemWf (body a t) = true) :
    outMemWf (lanes regs g gn exempt len s body) = true := by
  unfold lanes
  dsimp only
  split
  · exact State.memWf_fault h ..
  split
  · exact State.memWf_done (State.memWf_pushZero h) ..
  · exact hbody _ _ h

theorem State.memWf_lanePred (n : Nat) (m v : Mask) : (s.lanePred n m v).memWf = true := h

/-! ### Special registers and the debugger's writes -/

theorem State.memWf_landSpecial (n : Nat) (v : Dword) : (s.landSpecial n v).memWf = true := by
  unfold State.landSpecial
  grind -ring -linarith [State.memWf_onGrp, State.memWf]

theorem State.memWf_debugPut (r : DebugReg) (v : Dword) : (s.debugPut r v).memWf = true := by
  unfold State.debugPut
  grind -ring -linarith [State.memWf_onGrp, State.memWf_ctxStore, State.memWf_landSpecial, memWf_getD]

theorem State.memWf_settleHeld : s.settleHeld.memWf = true := by
  unfold State.settleHeld
  grind -ring -linarith [State.memWf_onGrp, State.memWf_debugPut, foldl_memWf]

theorem State.memWf_ageSpecials : s.ageSpecials.memWf = true := by
  unfold State.ageSpecials
  grind -ring -linarith [State.memWf_onGrp, State.memWf_landSpecial, foldl_memWf]

/-! ### Fetch, chains and the issue of a split -/

theorem State.memWf_fetch (va : Nat) : (s.fetch va).1.memWf = true := by
  unfold State.fetch
  grind -ring -linarith [State.memWf_landAt, State.memWf_touch, State.memWf_access]

theorem State.memWf_lookAhead (fuel pc : Nat) : (s.lookAhead fuel pc).1.memWf = true := by
  fun_induction s.lookAhead fuel pc <;> grind -ring -linarith [State.memWf_fetch]

theorem State.memWf_extent (pc : Nat) : (s.extent pc).1.memWf = true := by
  unfold State.extent
  grind -ring -linarith [State.memWf_lookAhead]

theorem State.memWf_landFor (names : PendDest → Bool) : (s.landFor names).memWf = true := h
theorem State.memWf_selected (sub gid sp : Nat) : (s.selected sub gid sp).memWf = true := h

theorem State.memWf_clk : s.clk.memWf = true := by
  unfold State.clk
  grind -ring -linarith [State.memWf_settleHeld, State.memWf_ageSpecials, State.memWf]

theorem State.memWf_prepare (gid sp : Nat) : (s.prepare gid sp).memWf = true := by
  unfold State.prepare
  grind -ring -linarith [State.memWf_onGrp, State.memWf_focusSplit, State.memWf_selected, State.memWf_clk, State.memWf]

theorem memWf_runMembers (run : Instr → State → Out) (ls : List (Word × Word))
    (hrun : ∀ a t, t.memWf = true → outMemWf (run a t) = true) :
    outMemWf (runMembers run ls s) = true := by
  fun_induction runMembers run ls s <;> grind -ring -linarith [State.memWf_fault, State.memWf_clk, outMemWf]

theorem memWf_runChain (run : Instr → State → Out) (ms : List (Word × Word))
    (hrun : ∀ a t, t.memWf = true → outMemWf (run a t) = true) :
    outMemWf (runChain run ms s) = true := by
  unfold runChain
  grind -ring -linarith [State.memWf_raise, memWf_runMembers, outMemWf, State.memWf]

theorem memWf_issueWords (run : Instr → State → Out) (w x : Word) (ext : Extent)
    (hrun : ∀ a t, t.memWf = true → outMemWf (run a t) = true) :
    outMemWf (issueWords run w x ext s) = true := by
  unfold issueWords
  grind -ring -linarith [State.memWf_stay, State.memWf_fault, State.memWf_landFor, memWf_runChain, outMemWf]

theorem memWf_issueAt (run : Instr → State → Out) (hrun : ∀ a t, t.memWf = true → outMemWf (run a t) = true) :
    outMemWf (issueAt run s) = true := by
  unfold issueAt
  grind -ring -linarith [State.memWf_stay, State.memWf_fault, State.memWf_fetch, State.memWf_extent, memWf_issueWords,
    outMemWf]

theorem State.memWf_noteStop (gid : Nat) : (s.noteStop gid).memWf = true := h
theorem State.memWf_debugStopHere (sp : Nat) : (s.debugStopHere sp).memWf = true := h

theorem State.memWf_requeueFill : s.requeueFill.memWf = true := by
  unfold State.requeueFill
  grind -ring -linarith [State.memWf_request]

theorem State.memWf_afterIssue (gid sp : Nat) (stepped : Bool) (passed : List Nat) :
    (s.afterIssue gid sp stepped passed).memWf = true := by
  unfold State.afterIssue
  grind -ring -linarith [State.memWf_onGroup, State.memWf_noteStop]

theorem memWf_issue (run : Instr → State → Out) (gid sp : Nat) (hrun : ∀ a t, t.memWf = true → outMemWf (run a t) = true) :
    outMemWf (issue run gid sp s) = true := by
  unfold issue
  grind -ring -linarith [State.memWf_prepare, memWf_issueAt, State.memWf_requeueFill, State.memWf_afterIssue, outMemWf]

end

end Sys2Proof.Machine

/-! ## Memory and engines -/

namespace Sys2Proof.Machine

section
variable {s : State} (h : s.memWf = true)
include h

/-! ### Accesses of lanes and groups -/

theorem State.memWf_parkPages (k : Access) (pages : List (Nat × Nat)) : (s.parkPages k pages).memWf = true := by
  unfold State.parkPages
  grind -ring -linarith [State.memWf_parkMiss, foldl_memWf]

theorem State.memWf_gather (k : Access) (eff : Mask) (xs : List (Nat × Dword × Place))
    (go : State → List (Nat × List Piece) → Out) (hgo : ∀ t b, t.memWf = true → outMemWf (go t b) = true) :
    outMemWf (s.gather k eff xs go) = true := by
  unfold State.gather
  split
  · exact State.memWf_stay h ..
  split
  · exact State.memWf_stay (State.memWf_parkPages h ..) ..
  dsimp only
  split
  · exact hgo _ _ (State.memWf_dropAnswered h ..)
  · exact State.memWf_faultLanes (State.memWf_dropAnswered h ..) ..

theorem State.memWf_gatherGroup (k : Access) (eff : Mask) (ps : List Place) (go : State → List (List Piece) → Out)
    (hgo : ∀ t b, t.memWf = true → outMemWf (go t b) = true) :
    outMemWf (s.gatherGroup k eff ps go) = true := by
  unfold State.gatherGroup
  dsimp only
  split
  · exact State.memWf_stay h ..
  split
  · exact State.memWf_stay (State.memWf_parkPages h ..) ..
  split
  · exact hgo _ _ (State.memWf_dropAnswered h ..)
  · exact State.memWf_faultIn (State.memWf_dropAnswered h ..) ..

theorem State.memWf_settleLine (l : Loc) : (s.settleLine l).memWf = true :=
  State.memWf_of_sameMem (State.sameMem_settleLine s ..) h

theorem State.memWf_loadRun (cached : Bool) (p : Piece) : (s.loadRun cached p).1.memWf = true := by
  unfold State.loadRun
  grind -ring -linarith [State.memWf_coreLoad, State.memWf_touch, State.memWf_settleLine]

theorem State.memWf_loadPieces (ps : List Piece) : (s.loadPieces ps).1.memWf = true := by
  unfold State.loadPieces
  grind -ring -linarith [State.memWf_loadRun, foldl_fst_memWf]

theorem State.memWf_cutHeld (l : Loc) (n : Nat) : (s.cutHeld l n).memWf = true :=
  State.memWf_of_sameMem (State.sameMem_cutHeld s ..) h

theorem State.memWf_storeBytes (ps : List Piece) (bs : List Byte) : (s.storeBytes ps bs).memWf = true := by
  unfold State.storeBytes
  grind -ring -linarith [State.memWf_coreWrite, State.memWf_touch, State.memWf_settleLine, State.memWf_cutHeld,
    foldl_fst_memWf]

theorem State.memWf_sendLines (part : Nat) (ops : List (List (Loc × Byte))) : (s.sendLines part ops).memWf = true := by
  unfold State.sendLines
  grind -ring -linarith [State.memWf_sendLine, foldl_memWf]

theorem State.memWf_sendBytes (bs : List (Loc × Byte)) : (s.sendBytes bs).memWf = true := by
  unfold State.sendBytes
  grind -ring -linarith [State.memWf_corePut, State.memWf_settleLine, State.memWf_cutHeld, State.memWf_sendLines,
    foldl_memWf]

theorem State.memWf_landedWrite (part : Nat) (l : Loc) : (s.landedWrite part l).memWf = true := h

theorem State.memWf_countLines (xs : List (Nat × List Piece)) : (s.countLines xs).memWf = true := by
  unfold State.countLines
  grind -ring -linarith [State.memWf_countWrites, State.memWf_countPeers]

theorem State.memWf_countLandedFrom (part : Nat) (xs : List (Nat × List Piece)) :
    (s.countLandedFrom part xs).memWf = true := by
  unfold State.countLandedFrom
  grind -ring -linarith [State.memWf_landedWrite, State.memWf_countLines, foldl_memWf]

theorem State.memWf_countLanded (xs : List (Nat × List Piece)) : (s.countLanded xs).memWf = true :=
  State.memWf_countLandedFrom h ..

/-! ### Loads, stores, tiles and counters -/

theorem memWf_execWaitc (w : UniShort) : outMemWf (execWaitc w s) = true := by
  unfold execWaitc
  grind -ring -linarith [State.memWf_done, State.memWf_stay, memWf_uniform, outMemWf]

theorem State.memWf_loadLanes (ps : List (Nat × List Piece)) : (s.loadLanes ps).1.memWf = true := by
  unfold State.loadLanes
  grind -ring -linarith [State.memWf_loadPieces, foldl_fst_memWf]

theorem memWf_execLd (w : LaneShort) (e : EM) : outMemWf (execLd w e s) = true := by
  unfold execLd
  grind -ring -linarith [State.memWf_onGrp, State.memWf_done, State.memWf_acquire, memWf_lanes, State.memWf_gather,
    State.memWf_loadLanes, outMemWf]

theorem State.memWf_hold (core : Nat) (ws : List HeldWrite) : (s.hold core ws).memWf = true := h

theorem State.memWf_touchStores (xs : List (List Piece)) : (s.touchStores xs).memWf = true := by
  unfold State.touchStores
  grind -ring -linarith [State.memWf_touch, foldl_memWf]

theorem State.memWf_storeLanes (ord : Bool) (sem : Sem) (sc : Scope) (len : Nat) (xs : List (Nat × List Piece × List Byte))
    :
    outMemWf (s.storeLanes ord sem sc len xs) = true := by
  unfold State.storeLanes
  grind -ring -linarith [State.memWf_done, State.memWf_stay, State.memWf_release, State.memWf_countWrites,
    State.memWf_pushZero, State.memWf_sendBytes, State.memWf_landedWrite, State.memWf_countLines, State.memWf_hold,
    State.memWf_touchStores, outMemWf]

theorem memWf_execSt (w : LaneShort) (e : EM) : outMemWf (execSt w e s) = true := by
  unfold execSt
  grind -ring -linarith [memWf_lanes, State.memWf_gather, State.memWf_storeLanes, outMemWf]

theorem State.memWf_releaseHeld (core : Nat) (w : HeldWrite) : (s.releaseHeld core w).memWf = true := by
  unfold State.releaseHeld
  grind -ring -linarith [State.memWf_sendFlights, State.memWf_clockStep]

theorem State.memWf_performHeld (core : Nat) (w : HeldWrite) : (s.performHeld core w).memWf = true := by
  unfold State.performHeld
  grind -ring -linarith [State.memWf_coreWrite, State.memWf_onGroup, State.memWf_countPeers, State.memWf_releaseHeld,
    State.memWf]

theorem memWf_performDue (core : Nat) (ls : List HeldWrite) : (performDue core ls s).memWf = true := by
  fun_induction performDue core ls s <;> grind -ring -linarith [State.memWf_performHeld]

theorem memWf_execLdk (w : LaneShort) (e : EM) : outMemWf (execLdk w e s) = true := by
  unfold execLdk
  grind -ring -linarith [State.memWf_onGrp, State.memWf_done, State.memWf_faultIn, memWf_lanes, State.memWf_gather,
    State.memWf_loadLanes, outMemWf]

theorem memWf_tileChecks (w : LaneShort) (e : EM) (body : State → Out)
    (hbody : ∀ t, t.memWf = true → outMemWf (body t) = true) :
    outMemWf (tileChecks w e s body) = true := by
  unfold tileChecks
  grind -ring -linarith [State.memWf_stay, State.memWf_fault, outMemWf]

theorem memWf_execLdc (w : LaneShort) (e : EM) : outMemWf (execLdc w e s) = true := by
  unfold execLdc
  grind -ring -linarith [State.memWf_onGrp, State.memWf_done, State.memWf_acquire, State.memWf_pushZero,
    State.memWf_gatherGroup, State.memWf_loadPieces, memWf_tileChecks, foldl_memWf, outMemWf]

theorem State.memWf_storeRows (d : Nat) (rows : List (List Piece)) : (s.storeRows d rows).memWf = true := by
  unfold State.storeRows
  grind -ring -linarith [State.memWf_corePut, State.memWf_settleLine, State.memWf_cutHeld, State.memWf_sendLine,
    State.memWf_touchStores, foldl_memWf]

theorem memWf_execStc (w : LaneShort) (e : EM) : outMemWf (execStc w e s) = true := by
  unfold execStc
  grind -ring -linarith [State.memWf_onGrp, State.memWf_done, State.memWf_stay, State.memWf_release,
    State.memWf_countWrites, State.memWf_countPeers, State.memWf_fault, State.memWf_pushZero, State.memWf_gatherGroup,
    memWf_tileChecks, State.memWf_storeRows, outMemWf]

theorem memWf_execTileTransferComplete (gid : Nat) : outMemWf (execTileTransferComplete gid s) = true := by
  unfold execTileTransferComplete
  grind -ring -linarith [State.memWf_onGroup, outMemWf]

theorem State.memWf_rmwAt (core : Nat) (l : Loc) (n : Nat) (f : Nat → Nat) : (s.rmwAt core l n f).1.memWf = true := by
  unfold State.rmwAt
  grind -ring -linarith [State.memWf_homeStore, State.memWf_landAt, State.memWf_stampRead, State.memWf_hostDrop,
    State.memWf_l1Refresh, State.memWf_coreWrite]

theorem State.memWf_addAt (core : Nat) (l : Loc) (v : Dword) : (s.addAt core l v).memWf = true :=
  State.memWf_rmwAt h ..

theorem memWf_execMsig (w : UniShort) (e : EM) : outMemWf (execMsig w e s) = true := by
  unfold execMsig
  grind -ring -linarith [State.memWf_touch, State.memWf_done, State.memWf_stay, State.memWf_release, memWf_uniform,
    State.memWf_gatherGroup, State.memWf_settleLine, State.memWf_cutHeld, State.memWf_countLanded, State.memWf_addAt,
    foldl_memWf, outMemWf]

theorem State.memWf_counterBytes (p : Piece) : (s.counterBytes p).1.memWf = true := by
  unfold State.counterBytes
  grind -ring -linarith [State.memWf_hostDrop, State.memWf_touch, State.memWf_loadRun]

theorem memWf_execMwait (w : UniShort) (e : EM) : outMemWf (execMwait w e s) = true := by
  unfold execMwait
  grind -ring -linarith [State.memWf_onGrp, State.memWf_done, State.memWf_stay, State.memWf_acquire, memWf_uniform,
    State.memWf_gatherGroup, State.memWf_counterBytes, foldl_fst_memWf, outMemWf]

theorem State.memWf_choose (xs : List α) : (s.choose xs).1.memWf = true := h

theorem memWf_execResultWriteback (gid : Nat) : outMemWf (execResultWriteback gid s) = true := by
  unfold execResultWriteback
  grind -ring -linarith [State.memWf_onGrp, State.memWf_within, State.memWf_landSpecial, State.memWf_settleHeld,
    State.memWf_choose, foldl_memWf, outMemWf]

theorem State.memWf_loadLate (gid : Nat) (e : Pend) (m : Mask) : (s.loadLate gid e m).memWf = true := by
  unfold State.loadLate
  grind -ring -linarith [State.memWf_l1Fetch, State.memWf_onGrp, State.memWf_within, foldl_memWf]

theorem memWf_execMemoryResponse (gid : Nat) : outMemWf (execMemoryResponse gid s) = true := by
  unfold execMemoryResponse
  grind -ring -linarith [State.memWf_onGroup, State.memWf_choose, State.memWf_loadLate, outMemWf, State.memWf]

theorem memWf_execWriteAck (gid : Nat) : outMemWf (execWriteAck gid s) = true := by
  unfold execWriteAck
  grind -ring -linarith [State.memWf_landFlights, State.memWf_onGroup, State.memWf_choose, outMemWf, State.memWf]

/-! ### Matrix steps -/

theorem memWf_matrixIssue (op : Nat) (w : LaneShort) (e : EX) : outMemWf (matrixIssue op w e s) = true := by
  unfold matrixIssue
  grind -ring -linarith [State.memWf_onEngine, State.memWf_stay, State.memWf_fault, memWf_lanes, outMemWf]

theorem State.memWf_faultMember (gid sp cause : Nat) : (s.faultMember gid sp cause).memWf = true := by
  unfold State.faultMember
  grind -ring -linarith [State.memWf_within, State.memWf_raise]

theorem State.memWf_faultMembers (ms : List (Nat × Nat)) (cause : Nat) : (s.faultMembers ms cause).memWf = true := by
  unfold State.faultMembers
  grind -ring -linarith [State.memWf_faultMember, foldl_memWf]

theorem State.memWf_acceptMember (id gid sp : Nat) : (s.acceptMember id gid sp).memWf = true := by
  unfold State.acceptMember
  grind -ring -linarith [State.memWf_onGrp, State.memWf_within, State.memWf_advance, State.memWf_pushZero]

theorem State.memWf_holdB (id n : Nat) (ms : List (Nat × Nat × Nat)) : (s.holdB id n ms).memWf = true := by
  unfold State.holdB
  grind -ring -linarith [State.memWf_onGroup, foldl_memWf]

theorem State.memWf_freeB (id : Nat) : (s.freeB id).memWf = true := h

theorem State.memWf_acceptOwn (k : Nat) (t : Team) (d : Dispatched) (ms : List Dispatched) :
    (s.acceptOwn k t d ms).memWf = true := by
  unfold State.acceptOwn
  grind -ring -linarith [State.memWf_onEngine, State.memWf_faultMembers, State.memWf_acceptMember, State.memWf_holdB,
    foldl_memWf]

theorem State.memWf_joinPair (k o : Nat) (t u : Team) (a b : MatStep) : (s.joinPair k o t u a b).memWf = true := by
  unfold State.joinPair
  grind -ring -linarith [State.memWf_onEngine, State.memWf_faultMembers, State.memWf_acceptMember, State.memWf_holdB,
    foldl_memWf]

theorem State.memWf_failPair (o : Nat) (u : Team) (ms : List (Nat × Nat)) (cause : Nat) :
    (s.failPair o u ms cause).memWf = true := by
  unfold State.failPair
  grind -ring -linarith [State.memWf_onEngine, State.memWf_faultMembers]

theorem State.memWf_acceptSide (k : Nat) (t : Team) (d : Dispatched) (ms : List Dispatched) :
    (s.acceptSide k t d ms).memWf = true := by
  unfold State.acceptSide
  grind -ring -linarith [State.memWf_onEngine, State.memWf_faultMembers, State.memWf_joinPair, State.memWf_failPair]

theorem memWf_execMatrixStepAccept (core eng : Nat) : outMemWf (execMatrixStepAccept core eng s) = true := by
  unfold execMatrixStepAccept
  grind -ring -linarith [State.memWf_acceptOwn, State.memWf_acceptSide, outMemWf]

theorem memWf_execPairTimeout (core eng : Nat) : outMemWf (execPairTimeout core eng s) = true := by
  unfold execPairTimeout
  grind -ring -linarith [State.memWf_onEngine, State.memWf_failPair, outMemWf]

theorem memWf_execMatrixStepStart (core eng : Nat) : outMemWf (execMatrixStepStart core eng s) = true := by
  unfold execMatrixStepStart
  grind -ring -linarith [State.memWf_onEngine, State.memWf_freeB, outMemWf, State.memWf]

theorem State.memWf_putAll (xs : List (Loc × List Byte)) : (s.putAll xs).memWf = true := by
  unfold State.putAll
  grind -ring -linarith [State.memWf_homeStore, foldl_memWf]

theorem State.memWf_residue (k : Nat) (first : Bool) (c : Nat × Nat) : (s.residue k first c).memWf = true := by
  unfold State.residue
  grind -ring -linarith [State.memWf_logRecord, State.memWf_onEngine]

theorem State.memWf_failCore (core part : Nat) : (s.failCore core part).memWf = true := by
  unfold State.failCore
  grind -ring -linarith [State.memWf_setReady, State.memWf_haltSoon]

theorem State.memWf_spareColumn (k part : Nat) (c : Nat × Nat) : (s.spareColumn k part c).memWf = true := by
  unfold State.spareColumn
  grind -ring -linarith [State.memWf_logRecord, State.memWf_onEngine, State.memWf_failCore, State.memWf]

theorem State.memWf_rerun (k : Nat) (st : MatStep) (fails : List (Nat × Nat)) : (s.rerun k st fails).memWf = true := by
  unfold State.rerun
  grind -ring -linarith [State.memWf_onEngine, State.memWf_residue, State.memWf_failCore, State.memWf_spareColumn,
    foldl_memWf]

theorem State.memWf_countStep (st : MatStep) : (s.countStep st).memWf = true := by
  unfold State.countStep
  grind -ring -linarith [State.memWf_onGroup, foldl_memWf]

theorem State.memWf_writeStep (k : Nat) (st : MatStep) (t : Team) : (s.writeStep k st t).memWf = true := by
  unfold State.writeStep
  grind -ring -linarith [State.memWf_onEngine, State.memWf_putAll, State.memWf_countStep, State.memWf]

theorem memWf_execMatrixStepWrite (core eng : Nat) (fails : List (Nat × Nat)) :
    outMemWf (execMatrixStepWrite core eng fails s) = true := by
  unfold execMatrixStepWrite
  grind -ring -linarith [State.memWf_rerun, State.memWf_writeStep, outMemWf]

/-! ### Tokens and accumulator windows -/

theorem State.memWf_onTile (t : Nat) (f : Tile → Tile) : (s.onTile t f).memWf = true := h

theorem memWf_execAccAcq (w : UniShort) (e : EA) : outMemWf (execAccAcq w e s) = true := by
  unfold execAccAcq
  grind -ring -linarith [State.memWf_done, State.memWf_stay, State.memWf_fault, memWf_uniform, State.memWf_onTile, outMemWf]

theorem memWf_execAccRel (w : UniShort) (e : EA) : outMemWf (execAccRel w e s) = true := by
  unfold execAccRel
  grind -ring -linarith [State.memWf_done, State.memWf_fault, memWf_uniform, State.memWf_onTile, outMemWf]

theorem State.memWf_setWindow (hd : Group) (v : Dword) : (s.setWindow hd v).memWf = true := by
  unfold State.setWindow
  grind -ring -linarith [State.memWf_onGroup]

theorem memWf_execAccWin (w : UniShort) (e : EA) : outMemWf (execAccWin w e s) = true := by
  unfold execAccWin
  grind -ring -linarith [State.memWf_done, State.memWf_fault, memWf_uniform, State.memWf_setWindow, outMemWf]

theorem memWf_execAccAlloc (w : UniShort) (e : EA) : outMemWf (execAccAlloc w e s) = true := by
  unfold execAccAlloc
  grind -ring -linarith [State.memWf_onGrp, State.memWf_onEngine, State.memWf_done, memWf_uniform, outMemWf]

theorem memWf_execAccFree (w : UniShort) (e : EA) : outMemWf (execAccFree w e s) = true := by
  unfold execAccFree
  grind -ring -linarith [State.memWf_onEngine, State.memWf_done, State.memWf_stay, State.memWf_fault, memWf_uniform,
    outMemWf]

theorem memWf_execLda (w : LaneShort) (e : EM) : outMemWf (execLda w e s) = true := by
  unfold execLda
  grind -ring -linarith [State.memWf_onGrp, State.memWf_done, State.memWf_stay, State.memWf_faultIn, memWf_lanes,
    State.memWf_loadLanes, outMemWf]

theorem memWf_execSta (w : LaneShort) (e : EM) : outMemWf (execSta w e s) = true := by
  unfold execSta
  grind -ring -linarith [State.memWf_stay, State.memWf_faultIn, memWf_lanes, State.memWf_storeLanes, outMemWf]

theorem memWf_execTileClearDone (core eng tile : Nat) : outMemWf (execTileClearDone core eng tile s) = true := by
  unfold execTileClearDone
  grind -ring -linarith [State.memWf_onEngine, State.memWf_zeroTile, outMemWf]

theorem memWf_execTokenGrant (core eng tile : Nat) : outMemWf (execTokenGrant core eng tile s) = true := by
  unfold execTokenGrant
  grind -ring -linarith [State.memWf_onGroup, State.memWf_onEngine, outMemWf]

theorem memWf_execTokenHandoff (core eng tile : Nat) : outMemWf (execTokenHandoff core eng tile s) = true := by
  unfold execTokenHandoff
  grind -ring -linarith [State.memWf_onEngine, outMemWf]

/-! ### Ranked lists -/

theorem State.memWf_putList (k row : Nat) (r : Ranked) : (s.putList k row r).memWf = true := by
  unfold State.putList
  grind -ring -linarith [State.memWf_homeStore]

theorem State.memWf_publish (b : Binding) (t : Word × Word) : (s.publish b t).memWf = true := by
  unfold State.publish
  split <;> exact h

theorem State.memWf_clearDomain (cluster dom : Nat) : (s.clearDomain cluster dom).memWf = true := h

theorem memWf_execThrUpdate (gid : Nat) : outMemWf (execThrUpdate gid s) = true := by
  unfold execThrUpdate
  grind -ring -linarith [State.memWf_onGroup, outMemWf]

theorem State.memWf_resetLists (k : Nat) (c : ListConfig) : (s.resetLists k c).memWf = true := by
  unfold State.resetLists
  grind -ring -linarith [State.memWf_zeroTile, State.memWf_putList, foldl_memWf]

theorem State.memWf_configure (k team : Nat) (c : ListConfig) (b : Dword) : (s.configure k team c b).memWf = true := by
  unfold State.configure
  grind -ring -linarith [State.memWf_onGrp, State.memWf_onEngine, State.memWf_clearDomain, State.memWf_resetLists,
    State.memWf]

theorem memWf_execRkcfg (w : UniShort) (e : EA) : outMemWf (execRkcfg w e s) = true := by
  unfold execRkcfg
  grind -ring -linarith [State.memWf_onGrp, State.memWf_done, State.memWf_stay, State.memWf_fault, memWf_uniform,
    State.memWf_configure, outMemWf]

theorem memWf_execRkrd (w : UniShort) (e : EA) : outMemWf (execRkrd w e s) = true := by
  unfold execRkrd
  grind -ring -linarith [State.memWf_onGrp, State.memWf_done, State.memWf_fault, memWf_uniform, outMemWf]

theorem State.memWf_sendMerge (k : Nat) (x : Merge) : outMemWf (s.sendMerge k x) = true := by
  unfold State.sendMerge
  grind -ring -linarith [State.memWf_onGrp, State.memWf_onEngine, State.memWf_done, State.memWf_stay, outMemWf]

theorem memWf_execRkmrg (w : UniShort) (e : EM) : outMemWf (execRkmrg w e s) = true := by
  unfold execRkmrg
  grind -ring -linarith [State.memWf_stay, State.memWf_acquire, State.memWf_fault, memWf_uniform, State.memWf_gatherGroup,
    State.memWf_loadPieces, State.memWf_sendMerge, outMemWf]

theorem memWf_execMergeAccept (core eng : Nat) : outMemWf (execMergeAccept core eng s) = true := by
  unfold execMergeAccept
  grind -ring -linarith [State.memWf_onGrp, State.memWf_within, State.memWf_onEngine, State.memWf_advance, outMemWf]

theorem memWf_execMergeComplete (core eng : Nat) : outMemWf (execMergeComplete core eng s) = true := by
  unfold execMergeComplete
  grind -ring -linarith [State.memWf_onGroup, State.memWf_onEngine, State.memWf_putList, State.memWf_publish, outMemWf]

theorem State.memWf_finRow (k : Nat) (b : Binding) (q : Nat) : (s.finRow k b q).memWf = true := by
  unfold State.finRow
  grind -ring -linarith [State.memWf_homeStore, State.memWf_putList, State.memWf_publish]

theorem memWf_execFinPhaseEnd (core eng : Nat) : outMemWf (execFinPhaseEnd core eng s) = true := by
  unfold execFinPhaseEnd
  grind -ring -linarith [State.memWf_onEngine, State.memWf_countStep, State.memWf_finRow, foldl_memWf, outMemWf]

theorem memWf_execRkadm (w : LaneShort) (e : EA) : outMemWf (execRkadm w e s) = true := by
  unfold execRkadm
  grind -ring -linarith [State.memWf_done, State.memWf_pushZero, memWf_lanes, State.memWf_lanePred, outMemWf]

theorem memWf_execRkins (w : LaneShort) (e : EA) : outMemWf (execRkins w e s) = true := by
  unfold execRkins
  grind -ring -linarith [State.memWf_onGrp, State.memWf_done, memWf_lanes, State.memWf_lanePred, outMemWf]

/-! ### Assay requests -/

theorem State.memWf_onAssay (stack : Nat) (f : List AssayReq → List AssayReq) : (s.onAssay stack f).memWf = true := h

theorem State.memWf_sendAssay (stack : Nat) (r : AssayReq) : outMemWf (s.sendAssay stack r) = true := by
  unfold State.sendAssay
  grind -ring -linarith [State.memWf_onGrp, State.memWf_done, State.memWf_stay, State.memWf_onAssay, outMemWf]

theorem memWf_execAsy (w : UniShort) : outMemWf (execAsy w s) = true := by
  unfold execAsy
  grind -ring -linarith [State.memWf_touch, State.memWf_stay, State.memWf_fault, memWf_uniform, State.memWf_gatherGroup,
    State.memWf_loadPieces, State.memWf_sendAssay, foldl_memWf, outMemWf]

theorem memWf_execAssayAccept (stack : Nat) : outMemWf (execAssayAccept stack s) = true := by
  unfold execAssayAccept
  grind -ring -linarith [State.memWf_onGrp, State.memWf_within, State.memWf_advance, State.memWf_onAssay, outMemWf]

theorem State.memWf_readPlaces (die : Nat) (ps : List (Nat × Nat × Nat)) : (s.readPlaces die ps).1.memWf = true := by
  unfold State.readPlaces
  grind -ring -linarith [State.memWf_unitLoad, foldl_fst_memWf]

theorem State.memWf_writePlaces (die : Nat) (ps : List (Nat × Nat × Nat)) (bs : List Byte) :
    (s.writePlaces die ps bs).memWf = true := by
  unfold State.writePlaces
  grind -ring -linarith [State.memWf_unitStore, foldl_fst_memWf]

theorem State.memWf_l1Forget (core : Nat) (ps : List (Nat × Nat × Nat)) : (s.l1Forget core ps).memWf = true := h

theorem memWf_execAssayComplete (stack : Nat) : outMemWf (execAssayComplete stack s) = true := by
  unfold execAssayComplete
  grind -ring -linarith [State.memWf_onGroup, State.memWf_onAssay, State.memWf_readPlaces, State.memWf_writePlaces,
    State.memWf_l1Forget, outMemWf]

/-! ### Atomics and fences -/

theorem State.memWf_rmw (ps : List Piece) (n : Nat) (f : Nat → Nat) : (s.rmw ps n f).1.memWf = true := by
  unfold State.rmw
  grind -ring -linarith [State.memWf_touch, State.memWf_settleLine, State.memWf_cutHeld, State.memWf_rmwAt]

theorem memWf_atomic (w : LaneShort) (e : EM) (off : Nat) (regs : List Nat) (host : Bool) (f : Nat → Nat → Nat) :
    outMemWf (atomic w e off regs host s f) = true := by
  unfold atomic
  grind -ring -linarith [State.memWf_onGrp, State.memWf_done, State.memWf_stay, State.memWf_release, State.memWf_acquire,
    State.memWf_pushZero, memWf_lanes, State.memWf_gather, State.memWf_countLanded, State.memWf_rmw, foldl_fst_memWf,
    outMemWf]

theorem memWf_execAtom (w : LaneShort) (e : EM) : outMemWf (execAtom w e s) = true := by
  unfold execAtom
  grind -ring -linarith [memWf_atomic, outMemWf]

theorem memWf_execAtomc (w : LaneShort) (e : EM) : outMemWf (execAtomc w e s) = true := by
  unfold execAtomc
  grind -ring -linarith [memWf_atomic, outMemWf]

theorem memWf_execFenceAcq (w : UniShort) (e : EA) : outMemWf (execFenceAcq w e s) = true := by
  unfold execFenceAcq
  grind -ring -linarith [State.memWf_done, State.memWf_stay, State.memWf_acquire, memWf_uniform, outMemWf]

theorem memWf_execFenceRel (w : UniShort) (e : EA) : outMemWf (execFenceRel w e s) = true := by
  unfold execFenceRel
  grind -ring -linarith [State.memWf_done, State.memWf_stay, State.memWf_release, memWf_uniform, outMemWf]

theorem memWf_execFenceAcqrel (w : UniShort) (e : EA) : outMemWf (execFenceAcqrel w e s) = true := by
  unfold execFenceAcqrel
  grind -ring -linarith [State.memWf_done, State.memWf_stay, State.memWf_release, State.memWf_acquire, memWf_uniform,
    outMemWf]

theorem memWf_execFenceSc (w : UniShort) (e : EA) : outMemWf (execFenceSc w e s) = true := by
  unfold execFenceSc
  grind -ring -linarith [State.memWf_done, State.memWf_stay, State.memWf_release, State.memWf_acquire, memWf_uniform,
    outMemWf]

theorem memWf_execClockMarker (src dst : Nat) : outMemWf (execClockMarker src dst s) = true := by
  unfold execClockMarker
  split <;> exact h

end

end Sys2Proof.Machine

/-! ## Barriers, queues, tasks and nodes -/

namespace Sys2Proof.Machine

section
variable {s : State} (h : s.memWf = true)
include h

/-! ### Time -/

theorem State.memWf_tick : s.tick.memWf = true := h

/-! ### Barriers -/

theorem State.memWf_setBar (k : Nat) (w : Dword) : (s.setBar k w).memWf = true := h
theorem State.memWf_freeWaiters (k : Nat) (ph : Bool) : (s.freeWaiters k ph).memWf = true := h

theorem State.memWf_putBar (k : Nat) (w : Dword) : (s.putBar k w).memWf = true := by
  unfold State.putBar
  grind -ring -linarith [State.memWf_setBar, State.memWf_freeWaiters]

theorem State.memWf_barCopied (t : Team) (clu : Bool) (n bytes : Nat) : (s.barCopied t clu n bytes).memWf = true := by
  unfold State.barCopied
  grind -ring -linarith [State.memWf_putBar]

theorem memWf_barrier (w : UniShort) (e : EA) (body : Nat → State → Out)
    (hbody : ∀ a t, t.memWf = true → outMemWf (body a t) = true) :
    outMemWf (barrier w e s body) = true := by
  unfold barrier
  grind -ring -linarith [State.memWf_fault, memWf_uniform, outMemWf]

theorem memWf_execBarInit (w : UniShort) (e : EA) : outMemWf (execBarInit w e s) = true := by
  unfold execBarInit
  grind -ring -linarith [State.memWf_done, State.memWf_fault, State.memWf_setBar, memWf_barrier, outMemWf]

theorem State.memWf_arriving (w : UniShort) (e : EA) (go : Nat → State → Out)
    (hgo : ∀ a t, t.memWf = true → outMemWf (go a t) = true) :
    outMemWf (s.arriving w e go) = true := by
  unfold State.arriving
  grind -ring -linarith [State.memWf_stay, State.memWf_release, State.memWf_fault, outMemWf]

theorem memWf_execBarArrive (w : UniShort) (e : EA) : outMemWf (execBarArrive w e s) = true := by
  unfold execBarArrive
  grind -ring -linarith [State.memWf_onGrp, State.memWf_done, State.memWf_putBar, memWf_barrier, State.memWf_arriving,
    outMemWf]

theorem State.memWf_barWaits (e : EA) (arrived ph : Bool) : (s.barWaits e arrived ph).memWf = true := h

theorem State.memWf_barPass (e : EA) : outMemWf (s.barPass e) = true := by
  unfold State.barPass
  grind -ring -linarith [State.memWf_done, State.memWf_acquire, outMemWf]

theorem State.memWf_barAgain (e : EA) (k : Nat) : outMemWf (s.barAgain e k) = true := by
  unfold State.barAgain
  grind -ring -linarith [State.memWf_barPass, outMemWf]

theorem memWf_execBarWait (w : UniShort) (e : EA) : outMemWf (execBarWait w e s) = true := by
  unfold execBarWait
  grind -ring -linarith [memWf_barrier, State.memWf_barWaits, State.memWf_barPass, State.memWf_barAgain, outMemWf]

theorem memWf_execBarArrwait (w : UniShort) (e : EA) : outMemWf (execBarArrwait w e s) = true := by
  unfold execBarArrwait
  grind -ring -linarith [State.memWf_putBar, memWf_barrier, State.memWf_arriving, State.memWf_barWaits,
    State.memWf_barPass, State.memWf_barAgain, outMemWf]

theorem memWf_execBarExpect (w : UniShort) (e : EA) : outMemWf (execBarExpect w e s) = true := by
  unfold execBarExpect
  grind -ring -linarith [State.memWf_done, State.memWf_fault, State.memWf_putBar, memWf_barrier, outMemWf]

theorem memWf_execBarWaitRelease (gid sp : Nat) : outMemWf (execBarWaitRelease gid sp s) = true := by
  unfold execBarWaitRelease
  grind -ring -linarith [State.memWf_freeWaiters, outMemWf]

/-! ### Call rings -/

theorem State.memWf_postCall (part ctx : Nat) (ticket : Dword) (req : BitVec 512) :
    (s.postCall part ctx ticket req).memWf = true := by
  unfold State.postCall
  grind -ring -linarith [State.memWf_homeStore, State.memWf_setPartReg, State.memWf]

/-! ### Records in and out of queues -/

theorem State.memWf_append (k : Nat) (rec_ : BitVec 128) : (s.append k rec_).memWf = true := by
  unfold State.append
  grind -ring -linarith [State.memWf_onQueue, State.memWf_slotWrite]

theorem State.memWf_drainDeferred (k n : Nat) : (s.drainDeferred k n).memWf = true := by
  fun_induction s.drainDeferred k n <;> grind -ring -linarith [State.memWf_onQueue, State.memWf_append]

theorem State.memWf_settleQueue (k : Nat) : (s.settleQueue k).memWf = true := by
  unfold State.settleQueue
  grind -ring -linarith [State.memWf_drainDeferred]

theorem State.memWf_appendOrHold (k : Nat) (rec_ : BitVec 128) : (s.appendOrHold k rec_).memWf = true := by
  unfold State.appendOrHold
  grind -ring -linarith [State.memWf_onQueue, State.memWf_settleQueue]

theorem State.memWf_sequenced (q : Queue) (d : BitVec 128) : (s.sequenced q d).1.memWf = true := by
  unfold State.sequenced
  split <;> exact h

theorem State.memWf_enqueue (k : Nat) (rec_ : BitVec 128) : (s.enqueue k rec_).1.memWf = true := by
  unfold State.enqueue
  grind -ring -linarith [State.memWf_append, State.memWf_settleQueue, State.memWf_sequenced]

theorem State.memWf_reinject (k : Nat) (rec_ : BitVec 128) : (s.reinject k rec_).1.memWf = true := by
  unfold State.reinject
  grind -ring -linarith [State.memWf_onQueue, State.memWf]

theorem State.memWf_skipParked (k : Nat) (flow word1 : Word) : (s.skipParked k flow word1).memWf = true := by
  unfold State.skipParked
  grind -ring -linarith [State.memWf_completeItem, State.memWf]

theorem State.memWf_headPast (k : Nat) : (s.headPast k).memWf = true := h

theorem State.memWf_headRecord (k n : Nat) : (s.headRecord k n).1.memWf = true := by
  fun_induction s.headRecord k n <;> grind -ring -linarith [State.memWf_slotRecord, State.memWf_parkItem,
    State.memWf_headPast]

theorem State.memWf_head (k : Nat) : (s.head k).1.memWf = true := by
  unfold State.head
  grind -ring -linarith [State.memWf_headRecord]

theorem State.memWf_takeItem (k : Nat) (d : BitVec 128) : (s.takeItem k d).1.memWf = true := by
  unfold State.takeItem
  grind -ring -linarith [State.memWf_sequenced, State.memWf_headPast]

theorem State.memWf_packed (k : Nat) (q : Queue) (d : BitVec 128) : (s.packed k q d).1.memWf = true := by
  unfold State.packed
  split <;> exact h

theorem State.memWf_setAside (k : Nat) (q : Queue) (d : BitVec 128) : (s.setAside k q d).memWf = true := by
  unfold State.setAside
  grind -ring -linarith [State.memWf_onQueue, State.memWf_onLock]

theorem State.memWf_packQueue (k n : Nat) : (s.packQueue k n).1.memWf = true := by
  fun_induction s.packQueue k n <;> grind -ring -linarith [State.memWf_head, State.memWf_takeItem, State.memWf_packed,
    State.memWf_setAside]

theorem State.memWf_packLists (k : Nat) : (s.packLists k).1.memWf = true := by
  unfold State.packLists
  grind -ring -linarith [State.memWf_onQueue, State.memWf_packed]

theorem State.memWf_packReserved (k key n : Nat) : (s.packReserved k key n).1.memWf = true := by
  fun_induction s.packReserved k key n <;> grind -ring -linarith [State.memWf_onQueue, State.memWf_packed,
    State.memWf_setAside]

theorem State.memWf_packOne (k key : Nat) (node : Bool) : (s.packOne k key node).1.memWf = true := by
  unfold State.packOne
  grind -ring -linarith [State.memWf_packQueue, State.memWf_packLists, State.memWf_packReserved]

theorem State.memWf_packLanes (gid k : Nat) (node : Bool) (ls : List Nat) : (s.packLanes gid k node ls).1.memWf = true := by
  fun_induction s.packLanes gid k node ls <;> grind -ring -linarith [State.memWf_onGroup, State.memWf_packOne]

theorem State.memWf_endFill (k : Nat) (r : FillReq) (filled : Mask) : (s.endFill k r filled).memWf = true := by
  unfold State.endFill
  grind -ring -linarith [State.memWf_l1Invalidate, State.memWf_onGrp, State.memWf_within, State.memWf_onQueue,
    State.memWf_advance, State.memWf_afterExit]

theorem State.memWf_serveFill (k : Nat) : (s.serveFill k).memWf = true := by
  unfold State.serveFill
  grind -ring -linarith [State.memWf_onQueue, State.memWf_settleQueue, State.memWf_packLanes, State.memWf_endFill]

theorem State.memWf_requestFill (k : Nat) (r : FillReq) : (s.requestFill k r).memWf = true := h

theorem memWf_withHandle (hd : Dword) (need : BitVec 3) (eff : Mask) (body : Nat → Queue → Out)
    (hbody : ∀ a b, outMemWf (body a b) = true) :
    outMemWf (withHandle s hd need eff body) = true := by
  unfold withHandle
  split
  · exact State.memWf_faultIn h ..
  split
  · exact State.memWf_faultIn h ..
  · exact hbody _ _

/-! ### Tasks and futures -/

theorem State.memWf_objPut (die : Nat) (l : Loc) (off n v : Nat) : (s.objPut die l off n v).memWf = true := by
  unfold State.objPut
  grind -ring -linarith [State.memWf_unitStore]

theorem State.memWf_setTaskState (die : Nat) (l : Loc) (st : Nat) : (s.setTaskState die l st).memWf = true :=
  State.memWf_objPut h ..

theorem State.memWf_object (ctx : Nat) (va : Dword) {u : State} {v : Loc} (hu : s.object ctx va = some (u, v)) :
    u.memWf = true := by
  unfold State.object at hu
  grind -ring -linarith [State.memWf_landAt, State.memWf_touch]

theorem State.memWf_kernelPri (ctx die : Nat) (kdesc : Dword) : (s.kernelPri ctx die kdesc).1.memWf = true :=
  State.memWf_ctxNat h ..

theorem State.memWf_launchTask (die ctx : Nat) (tcb : Dword) (l : Loc) : (s.launchTask die ctx tcb l).memWf = true := by
  unfold State.launchTask
  grind -ring -linarith [State.memWf_postEvent, State.memWf_appendOrHold, State.memWf_setTaskState, State.memWf_kernelPri]

theorem State.memWf_decrement (own ctx : Nat) (tcb : Dword) : (s.decrement own ctx tcb).memWf = true := by
  unfold State.decrement
  grind -ring -linarith [State.memWf_stampRead, State.memWf_postEvent, State.memWf_objPut, State.memWf_object,
    State.memWf_launchTask]

theorem State.memWf_startWalk (w : Walk) : (s.startWalk w).memWf = true := by
  unfold State.startWalk
  split <;> exact h

theorem State.memWf_resolveFuture (die ctx : Nat) (fut : Dword) (l : Loc) (v : Dword) (flt : Bool) (succ : Dword)
    (left : Nat) :
    (s.resolveFuture die ctx fut l v flt succ left).memWf = true := by
  unfold State.resolveFuture
  grind -ring -linarith [State.memWf_objPut, State.memWf_startWalk]

theorem State.memWf_resolveOrPost (own ctx : Nat) (fut : Dword) (l : Loc) (v : Dword) :
    (s.resolveOrPost own ctx fut l v).memWf = true := by
  unfold State.resolveOrPost
  grind -ring -linarith [State.memWf_postEvent, State.memWf_resolveFuture]

theorem State.memWf_finishTask (own ctx : Nat) (l : Loc) (fut : Option Loc) (v : Dword) :
    (s.finishTask own ctx l fut v).memWf = true := by
  unfold State.finishTask
  grind -ring -linarith [State.memWf_setTaskState, State.memWf_startWalk, State.memWf_resolveFuture]

theorem State.memWf_taskEnded (own ctx : Nat) (tcb : Dword) : (s.taskEnded own ctx tcb).memWf = true := by
  unfold State.taskEnded
  grind -ring -linarith [State.memWf_postEvent, State.memWf_object, State.memWf_finishTask]

theorem State.memWf_walkOnce (w : Walk) : (s.walkOnce w).1.memWf = true := by
  unfold State.walkOnce
  grind -ring -linarith [State.memWf_stampRead, State.memWf_postEvent, State.memWf_ctxNat, State.memWf_object,
    State.memWf_decrement]

theorem memWf_execTaskDecrement (die : Nat) : outMemWf (execTaskDecrement die s) = true := by
  unfold execTaskDecrement
  grind -ring -linarith [State.memWf_walkOnce, outMemWf, State.memWf]

theorem memWf_onObjects (objs : List (Dword × Nat)) (body : State → List Loc → Out)
    (hbody : ∀ t b, t.memWf = true → outMemWf (body t b) = true) :
    outMemWf (onObjects objs s body) = true := by
  unfold onObjects
  grind -ring -linarith [State.memWf_landAt, State.memWf_stampRead, State.memWf_touch, State.memWf_stay,
    State.memWf_release, State.memWf_fault, State.memWf_gatherGroup, foldl_memWf, outMemWf]

theorem memWf_execFres (w : UniShort) : outMemWf (execFres w s) = true := by
  unfold execFres
  grind -ring -linarith [State.memWf_done, State.memWf_fault, memWf_uniform, State.memWf_resolveFuture, memWf_onObjects,
    outMemWf]

theorem memWf_execFreg (w : UniShort) : outMemWf (execFreg w s) = true := by
  unfold execFreg
  grind -ring -linarith [State.memWf_postEvent, State.memWf_done, memWf_uniform, State.memWf_objPut, State.memWf_decrement,
    memWf_onObjects, outMemWf]

theorem memWf_execTspawn (w : UniShort) : outMemWf (execTspawn w s) = true := by
  unfold execTspawn
  grind -ring -linarith [State.memWf_done, State.memWf_fault, memWf_uniform, memWf_withHandle, State.memWf_decrement,
    memWf_onObjects, outMemWf]

theorem memWf_execTdone (w : UniShort) : outMemWf (execTdone w s) = true := by
  unfold execTdone
  grind -ring -linarith [State.memWf_done, State.memWf_fault, memWf_uniform, State.memWf_finishTask, memWf_onObjects,
    outMemWf]

/-! ### Nodes -/

theorem State.memWf_nodeView (k : Nat) : (s.nodeView k).1.memWf = true := by
  unfold State.nodeView
  grind -ring -linarith [State.memWf_ctxLoadLong]

theorem State.memWf_weightSlots (v : NodeView) : (s.weightSlots v).1.memWf = true := by
  unfold State.weightSlots
  grind -ring -linarith [State.memWf_ctxLoadLong, foldl_fst_memWf]

theorem State.memWf_setSlot (v : NodeView) (w : WeightSlot) (expert : Word) (st : Nat) :
    (s.setSlot v w expert st).memWf = true := by
  unfold State.setSlot
  grind -ring -linarith [State.memWf_ctxStore, memWf_getD]

theorem State.memWf_onNode (k : Nat) (f : Node → Node) : (s.onNode k f).memWf = true := h
theorem State.memWf_useSlot (k n : Nat) : (s.useSlot k n).memWf = true := h

theorem State.memWf_startFetch (k : Nat) (v : NodeView) (w : WeightSlot) (d : BitVec 128) :
    (s.startFetch k v w d).1.memWf = true := by
  unfold State.startFetch
  grind -ring -linarith [State.memWf_postCall, State.memWf_appendOrHold, State.memWf_setSlot, State.memWf_useSlot]

theorem State.memWf_nodeTry (k : Nat) (v : NodeView) (d : BitVec 128) (at_ : Nat) :
    (s.nodeTry k v d at_).1.memWf = true := by
  unfold State.nodeTry
  grind -ring -linarith [State.memWf_appendOrHold, State.memWf_weightSlots, State.memWf_onNode, State.memWf_useSlot,
    State.memWf_startFetch]

theorem State.memWf_retryWait (k : Nat) (v : NodeView) : (s.retryWait k v).memWf = true := by
  unfold State.retryWait
  grind -ring -linarith [State.memWf_onNode, State.memWf_nodeTry, foldl_fst_memWf]

theorem memWf_execNodeRecordArrival (qkey : Nat) : outMemWf (execNodeRecordArrival qkey s) = true := by
  unfold execNodeRecordArrival
  grind -ring -linarith [State.memWf_head, State.memWf_takeItem, State.memWf_nodeView, State.memWf_onNode,
    State.memWf_nodeTry, State.memWf_retryWait, outMemWf]

theorem State.memWf_residentIn (v : NodeView) : (s.residentIn v).1.memWf = true := by
  unfold State.residentIn
  grind -ring -linarith [State.memWf_weightSlots]

theorem State.memWf_recheck (k : Nat) (v : NodeView) : (s.recheck k v).memWf = true := by
  unfold State.recheck
  grind -ring -linarith [State.memWf_onNode, State.memWf_nodeTry, State.memWf_residentIn, foldl_memWf]

theorem State.memWf_reserve (k least : Nat) (v : NodeView) : (s.reserve k least v).memWf = true := by
  unfold State.reserve
  grind -ring -linarith [State.memWf_onQueue, State.memWf_appendOrHold, State.memWf_kernelPri, State.memWf_residentIn]

theorem memWf_execNodeReserve (qkey : Nat) : outMemWf (execNodeReserve qkey s) = true := by
  unfold execNodeReserve
  grind -ring -linarith [State.memWf_nodeView, State.memWf_retryWait, State.memWf_recheck, State.memWf_reserve, outMemWf]

theorem memWf_execNodeFlushExpiry (qkey : Nat) : outMemWf (execNodeFlushExpiry qkey s) = true := by
  unfold execNodeFlushExpiry
  grind -ring -linarith [State.memWf_nodeView, State.memWf_retryWait, State.memWf_recheck, State.memWf_reserve, outMemWf]

theorem memWf_execResidency (qkey : Nat) : outMemWf (execResidency qkey s) = true := by
  unfold execResidency
  grind -ring -linarith [State.memWf_postEvent, State.memWf_nodeView, State.memWf_onNode, outMemWf]

theorem State.memWf_slotResident (k : Nat) (v : NodeView) (w : WeightSlot) : (s.slotResident k v w).memWf = true := by
  unfold State.slotResident
  grind -ring -linarith [State.memWf_settleQueue, State.memWf_headPast, State.memWf_head, State.memWf_setSlot,
    State.memWf_onNode, State.memWf_useSlot, State.memWf_retryWait, foldl_fst_memWf]

theorem State.memWf_enqueueAll (k : Nat) (ds : List (BitVec 128)) : (s.enqueueAll k ds).memWf = true := by
  unfold State.enqueueAll
  grind -ring -linarith [State.memWf_enqueue, foldl_memWf]

theorem memWf_execGnode (w : UniShort) : outMemWf (execGnode w s) = true := by
  unfold execGnode
  grind -ring -linarith [State.memWf_done, State.memWf_stay, State.memWf_release, State.memWf_fault, memWf_uniform,
    State.memWf_gatherGroup, State.memWf_loadPieces, State.memWf_settleQueue, memWf_withHandle, State.memWf_enqueueAll,
    outMemWf]

/-! ### Commands of the queue controllers -/

theorem State.memWf_writeBack (k : Nat) : (s.writeBack k).memWf = true := by
  unfold State.writeBack
  grind -ring -linarith [State.memWf_unitStore, State.memWf_onQueue]

theorem memWf_execQcbWriteback (qkey : Nat) : outMemWf (execQcbWriteback qkey s) = true := by
  unfold execQcbWriteback
  grind -ring -linarith [State.memWf_unitStore, State.memWf_onQueue, outMemWf]

theorem State.memWf_releaseQueue (k : Nat) : (s.releaseQueue k).memWf = true := by
  unfold State.releaseQueue
  grind -ring -linarith [State.memWf_onOffice, State.memWf_writeBack, State.memWf]

theorem State.memWf_refuseCommand (c : QcCommand) (op : Nat) : (s.refuseCommand c op).memWf = true :=
  State.memWf_postEvent h ..

theorem State.memWf_command (c : QcCommand) (op : Nat) (need : BitVec 3) (body : State → Nat → Queue → State)
    (hbody : ∀ t b c, t.memWf = true → (body t b c).memWf = true) :
    (s.command c op need body).memWf = true := by
  unfold State.command
  grind -ring -linarith [State.memWf_refuseCommand]

theorem State.memWf_openQueue (c : QcCommand) : (s.openQueue c).memWf = true := by
  unfold State.openQueue
  grind -ring -linarith [State.memWf_onOffice, State.memWf_refuseCommand, State.memWf]

theorem State.memWf_closeQueue (c : QcCommand) : (s.closeQueue c).memWf = true := by
  unfold State.closeQueue
  grind -ring -linarith [State.memWf_onQueue, State.memWf_writeBack, State.memWf_command]

theorem State.memWf_notify (c : QcCommand) : (s.notify c).memWf = true := by
  unfold State.notify
  grind -ring -linarith [State.memWf_onQueue, State.memWf_refuseCommand, State.memWf_command]

theorem State.memWf_flushQueue (c : QcCommand) : (s.flushQueue c).memWf = true := by
  unfold State.flushQueue
  grind -ring -linarith [State.memWf_writeBack, State.memWf_releaseQueue, State.memWf_command]

theorem State.memWf_bindNode (c : QcCommand) : (s.bindNode c).memWf = true := by
  unfold State.bindNode
  grind -ring -linarith [State.memWf_onQueue, State.memWf_refuseCommand, State.memWf_command]

theorem State.memWf_resident (c : QcCommand) : (s.resident c).memWf = true := by
  unfold State.resident
  grind -ring -linarith [State.memWf_nodeView, State.memWf_weightSlots, State.memWf_slotResident,
    State.memWf_refuseCommand, State.memWf_command]

theorem State.memWf_runCommand (op : Nat) (c : QcCommand) : (s.runCommand op c).memWf = true := by
  unfold State.runCommand
  grind -ring -linarith [State.memWf_refuseCommand, State.memWf_openQueue, State.memWf_closeQueue, State.memWf_notify,
    State.memWf_flushQueue, State.memWf_bindNode, State.memWf_resident]

end

end Sys2Proof.Machine

/-! ## Control flow, copies, arithmetic and exceptions -/

namespace Sys2Proof.Machine

section
variable {s : State} (h : s.memWf = true)
include h

/-! ### Branches, calls and frame requests -/

theorem State.memWf_diverge (t n : Mask) (target next : Dword) : outMemWf (s.diverge t n target next) = true := by
  unfold State.diverge
  grind -ring -linarith [State.memWf_onGrp, State.memWf_goto, State.memWf_fault, outMemWf]

theorem memWf_execBra (w : UniShort) (e : EB) : outMemWf (execBra w e s) = true := by
  unfold execBra
  grind -ring -linarith [State.memWf_goto, State.memWf_done, State.memWf_diverge, outMemWf]

theorem memWf_execBrx (w : UniShort) : outMemWf (execBrx w s) = true := by
  unfold execBrx
  grind -ring -linarith [State.memWf_goto, State.memWf_fault, memWf_uniform, outMemWf]

theorem State.memWf_pushCall (fn : Nat) (target : Dword) (fc kc : Nat) (rpc : Dword) :
    (s.pushCall fn target fc kc rpc).memWf = true := by
  unfold State.pushCall
  grind -ring -linarith [State.memWf_onGrp, State.memWf_putDescriptor, State.memWf_goto]

theorem State.memWf_spilling (k : Access) (vas : List Nat) (go : State → Out)
    (hgo : ∀ t, t.memWf = true → outMemWf (go t) = true) :
    outMemWf (s.spilling k vas go) = true := by
  unfold State.spilling
  grind -ring -linarith [State.memWf_spillReach, State.memWf_stay, State.memWf_haltSoon, outMemWf]

theorem State.memWf_callTo (d : BitVec 6) (target rpc : Dword) : outMemWf (s.callTo d target rpc) = true := by
  unfold State.callTo
  grind -ring -linarith [State.memWf_onGrp, State.memWf_request, State.memWf_fault, State.memWf_pushCall,
    State.memWf_spilling, outMemWf]

theorem memWf_execCall (w : UniShort) (e : EB) : outMemWf (execCall w e s) = true := by
  unfold execCall
  grind -ring -linarith [State.memWf_done, State.memWf_callTo, outMemWf]

theorem memWf_execCallx (w : UniShort) : outMemWf (execCallx w s) = true := by
  unfold execCallx
  grind -ring -linarith [State.memWf_fault, memWf_uniform, State.memWf_callTo, outMemWf]

theorem State.memWf_fillWait (f : Frame) : outMemWf (s.fillWait f) = true := by
  unfold State.fillWait
  grind -ring -linarith [State.memWf_onGrp, State.memWf_request, outMemWf]

theorem State.memWf_returnTo (rpc : Dword) : (s.returnTo rpc).memWf = true := h

theorem memWf_execRet (w : UniShort) : outMemWf (execRet w s) = true := by
  unfold execRet
  refine memWf_uniform h _ _ _ _ fun t ht => ?_
  grind -ring -linarith [State.memWf_fault, State.memWf_onGrp, State.memWf_done, State.memWf_readBack, State.memWf_stay,
    State.memWf_haltSoon, State.memWf_fillWait, State.memWf_returnTo, outMemWf]

theorem State.memWf_finishUnwind (c : Cont) : outMemWf (s.finishUnwind c) = true := by
  unfold State.finishUnwind
  grind -ring -linarith [State.memWf_onGrp, State.memWf_fault, State.memWf_fillWait, outMemWf]

theorem State.memWf_unwindCont (f : Frame) : (s.unwindCont f).1.memWf = true := by
  unfold State.unwindCont
  grind -ring -linarith [State.memWf_readImage]

theorem memWf_execUnwind (w : UniShort) : outMemWf (execUnwind w s) = true := by
  unfold execUnwind
  grind -ring -linarith [State.memWf_onGrp, State.memWf_fault, memWf_uniform, State.memWf_spilling,
    State.memWf_finishUnwind, State.memWf_unwindCont, outMemWf]

theorem memWf_execRcv (w : UniShort) : outMemWf (execRcv w s) = true := by
  unfold execRcv
  grind -ring -linarith [State.memWf_onGrp, State.memWf_done, outMemWf]

theorem memWf_execExit (w : UniShort) : outMemWf (execExit w s) = true := by
  unfold execExit
  grind -ring -linarith [State.memWf_onGrp, State.memWf_stay, State.memWf_release, State.memWf_completeLanes,
    State.memWf_afterExit, State.memWf_fault, memWf_uniform, outMemWf]

theorem State.memWf_runSplit (gid sp : Nat) : (s.runSplit gid sp).memWf = true :=
  State.memWf_onGroup h ..

theorem memWf_execFrameGrant (core sc : Nat) : outMemWf (execFrameGrant core sc s) = true := by
  unfold execFrameGrant
  dsimp only
  split
  · exact h
  next r _ =>
  have hr : ({ s with requests := s.requests.erase r } : State).memWf = true := h
  split
  · exact h
  split
  · refine State.memWf_within h _ _ _ fun t ht => ?_
    grind -ring -linarith [State.memWf_raise, State.memWf_runSplit, State.memWf_spillReach, State.memWf_pushCall,
      State.memWf_haltSoon, State.memWf]
  · exact State.memWf_within hr _ _ _ fun t ht => ht
  · split
    · exact h
    · exact State.memWf_onGroup hr ..

theorem memWf_execFillComplete (gid fn : Nat) : outMemWf (execFillComplete gid fn s) = true := by
  unfold execFillComplete
  grind -ring -linarith [State.memWf_onGroup, State.memWf_fill, State.memWf_haltSoon, outMemWf, State.memWf]

theorem State.memWf_overflowRequest (r : FrameReq) : (s.overflowRequest r).memWf = true := by
  unfold State.overflowRequest
  grind -ring -linarith [State.memWf_within, State.memWf_raise, State.memWf_runSplit, State.memWf]

theorem State.memWf_swapTops (gid fn : Nat) : (s.swapTops gid fn).memWf = true := by
  unfold State.swapTops
  grind -ring -linarith [State.memWf_onGroup, State.memWf_dropRequests, foldl_memWf]

theorem memWf_execEseTrigger (core sc : Nat) : outMemWf (execEseTrigger core sc s) = true := by
  unfold execEseTrigger
  grind -ring -linarith [State.memWf_startEvict, State.memWf_haltSoon, State.memWf_overflowRequest, State.memWf_swapTops,
    outMemWf, State.memWf]

theorem memWf_execEvictionComplete (core sc : Nat) : outMemWf (execEvictionComplete core sc s) = true := by
  unfold execEvictionComplete
  grind -ring -linarith [State.memWf_within, State.memWf_endEvict, State.memWf_haltSoon, State.memWf_requeueFill,
    State.memWf_swapTops, foldl_memWf, outMemWf, State.memWf]

theorem memWf_execRefusalUrgent (gid sp : Nat) : outMemWf (execRefusalUrgent gid sp s) = true := by
  unfold execRefusalUrgent
  grind -ring -linarith [State.memWf_onGroup, outMemWf]

/-! ### Copies -/

theorem State.memWf_readMove (core : Nat) (m : Move) : (s.readMove core m).1.memWf = true := by
  unfold State.readMove
  grind -ring -linarith [State.memWf_landAt, State.memWf_stampRead]

theorem State.memWf_doMove (core ctx : Nat) (m : Move) : (s.doMove core ctx m).memWf = true := by
  unfold State.doMove
  grind -ring -linarith [State.memWf_coreWrite, State.memWf_countPeers, State.memWf_readMove]

theorem State.memWf_beginMoves (core ctx : Nat) (ls : List Move) : (s.beginMoves core ctx ls).1.memWf = true := by
  fun_induction s.beginMoves core ctx ls <;> grind -ring -linarith [State.memWf_readMove, State.memWf_doMove, State.memWf]

theorem State.memWf_startCopy (kind : CopyKind) (count : Nat) (ms : List Move) :
    (s.startCopy kind count ms).memWf = true :=
  State.memWf_beginMoves h ..

theorem State.memWf_touchPieces (k : Access) (ps : List Piece) : (s.touchPieces k ps).memWf = true := by
  unfold State.touchPieces
  grind -ring -linarith [State.memWf_touch, foldl_memWf]

theorem State.memWf_copyTarget (eff : Mask) (kind : Nat) (clu : Bool) (n : Nat) (caddr fval : Dword)
    (go : State → CopyKind → Out) (hgo : ∀ t b, t.memWf = true → outMemWf (go t b) = true) :
    outMemWf (s.copyTarget eff kind clu n caddr fval go) = true := by
  unfold State.copyTarget
  grind -ring -linarith [State.memWf_touch, State.memWf_faultIn, State.memWf_gatherGroup, outMemWf]

theorem memWf_execCpl (w : LaneShort) (e : EM) : outMemWf (execCpl w e s) = true := by
  unfold execCpl
  grind -ring -linarith [State.memWf_done, State.memWf_stay, State.memWf_pushZero, memWf_lanes, State.memWf_gather,
    State.memWf_startCopy, State.memWf_touchPieces, State.memWf_copyTarget, outMemWf]

theorem memWf_execCpb (w : UniShort) : outMemWf (execCpb w s) = true := by
  unfold execCpb
  grind -ring -linarith [State.memWf_done, State.memWf_stay, State.memWf_fault, memWf_uniform, State.memWf_gatherGroup,
    State.memWf_startCopy, State.memWf_touchPieces, State.memWf_copyTarget, outMemWf]

theorem memWf_execCpclose (w : UniShort) : outMemWf (execCpclose w s) = true := by
  unfold execCpclose
  grind -ring -linarith [State.memWf_onGrp, State.memWf_done, State.memWf_stay, memWf_uniform, outMemWf, State.memWf]

theorem memWf_execCpwait (w : UniShort) : outMemWf (execCpwait w s) = true := by
  unfold execCpwait
  grind -ring -linarith [State.memWf_done, State.memWf_stay, State.memWf_fault, memWf_uniform, outMemWf]

theorem State.memWf_countCopy (c : Copy) : (s.countCopy c).memWf = true := by
  unfold State.countCopy
  grind -ring -linarith [State.memWf_countPeers, State.memWf_addAt, State.memWf_barCopied, State.memWf_resolveOrPost]

theorem memWf_execCopyComplete (cid : Nat) : outMemWf (execCopyComplete cid s) = true := by
  unfold execCopyComplete
  grind -ring -linarith [State.memWf_onGroup, State.memWf_doMove, State.memWf_countCopy, foldl_memWf, outMemWf, State.memWf]

/-! ### Integer instructions -/

theorem memWf_laneOp (regs : List Nat) (w : LaneShort) (gn wide : Bool) (len : Nat) (f : Nat → Dword) :
    outMemWf (laneOp regs w gn wide len s f) = true := by
  unfold laneOp
  grind -ring -linarith [State.memWf_onGrp, State.memWf_done, memWf_lanes, outMemWf]

theorem memWf_predInstr (regs : List Nat) (w : LaneShort) (gn : Bool) (len : Nat) (f : Nat → Bool) :
    outMemWf (predInstr regs w gn len s f) = true := by
  unfold predInstr
  grind -ring -linarith [State.memWf_done, State.memWf_pushZero, memWf_lanes, State.memWf_lanePred, outMemWf]

theorem memWf_int2S (op : Int → Int → Int) (w : LaneShort) (e : EA) (len : Nat) : outMemWf (int2S op w e len s) = true :=
  memWf_laneOp h ..

theorem memWf_logic2S (op : Dword → Dword → Dword) (w : LaneShort) (e : EA) (len : Nat) :
    outMemWf (logic2S op w e len s) = true :=
  memWf_laneOp h ..

theorem memWf_shift2S (op : Nat → Dword → Nat → Dword) (w : LaneShort) (e : EA) (len : Nat) :
    outMemWf (shift2S op w e len s) = true :=
  memWf_laneOp h ..

theorem memWf_execPset (w : LaneShort) (e : EA) : outMemWf (execPset w e s) = true := by
  unfold execPset
  grind -ring -linarith [State.memWf_done, State.memWf_pushZero, memWf_lanes, State.memWf_lanePred, outMemWf]

theorem memWf_execPmovPred (w : LaneShort) (e : EA) : outMemWf (execPmovPred w e s) = true := by
  unfold execPmovPred
  grind -ring -linarith [State.memWf_done, State.memWf_pushZero, memWf_lanes, State.memWf_lanePred, foldl_memWf, outMemWf]

/-! ### Uniform instructions -/

theorem memWf_uniOp (w : UniShort) (gn : Bool) (len : Nat) (v : Dword) : outMemWf (uniOp w gn len s v) = true := by
  unfold uniOp
  grind -ring -linarith [State.memWf_onGrp, State.memWf_done, memWf_uniform, outMemWf]

theorem memWf_uni2 (op : Dword → Dword → Dword) (w : UniShort) : outMemWf (uni2 op w s) = true :=
  memWf_uniOp h ..

theorem memWf_uniImm (op : Dword → Dword → Dword) (w : UniShort) (e : EI) : outMemWf (uniImm op w e s) = true :=
  memWf_uniOp h ..

theorem memWf_execUcmp (w : UniShort) (e : EA) : outMemWf (execUcmp w e s) = true := by
  unfold execUcmp
  grind -ring -linarith [State.memWf_onGrp, State.memWf_done, memWf_uniform, outMemWf]

/-! ### Handlers, service calls and the host cache -/

theorem memWf_execSwr (w : UniShort) : outMemWf (execSwr w s) = true := by
  unfold execSwr
  grind -ring -linarith [State.memWf_onGrp, State.memWf_done, memWf_uniform, outMemWf]

theorem State.memWf_trapWith (cause tcode : Nat) : outMemWf (s.trapWith cause tcode) = true :=
  State.memWf_raise h ..

theorem memWf_execTrap (w : UniShort) : outMemWf (execTrap w s) = true := by
  unfold execTrap
  grind -ring -linarith [memWf_uniform, State.memWf_trapWith, outMemWf]

theorem memWf_execBkpt (w : UniShort) : outMemWf (execBkpt w s) = true := by
  unfold execBkpt
  grind -ring -linarith [State.memWf_done, memWf_uniform, State.memWf_debugStopHere, State.memWf_trapWith, outMemWf]

theorem memWf_execCtxDrain (w : UniShort) (e : EA) : outMemWf (execCtxDrain w e s) = true := by
  unfold execCtxDrain
  grind -ring -linarith [State.memWf_done, State.memWf_stay, memWf_uniform, outMemWf]

theorem State.memWf_reenterOne (t : Team) (nt i : Nat) (o : PendingOp) : (s.reenterOne t nt i o).1.memWf = true := by
  unfold State.reenterOne
  grind -ring -linarith [State.memWf_onEngine, State.memWf_ctxLoadLong]

theorem State.memWf_reenter (key : Nat) : (s.reenter key).memWf = true := by
  unfold State.reenter
  grind -ring -linarith [State.memWf_onTeam, State.memWf_haltSoon, State.memWf_reenterOne, foldl_fst_memWf]

theorem State.memWf_endRoutine (hd : Handler) : (s.endRoutine hd).memWf = true := by
  unfold State.endRoutine
  grind -ring -linarith [State.memWf_onGrp, State.memWf_afterExit, State.memWf_reenter]

theorem State.memWf_landSpecials : s.landSpecials.memWf = true := by
  unfold State.landSpecials
  grind -ring -linarith [State.memWf_onGrp, State.memWf_landSpecial, foldl_memWf]

theorem memWf_execHret (w : UniShort) : outMemWf (execHret w s) = true := by
  unfold execHret
  grind -ring -linarith [State.memWf_onGrp, State.memWf_stay, State.memWf_fault, memWf_uniform, State.memWf_endRoutine,
    State.memWf_landSpecials, outMemWf]

theorem State.memWf_issueCall (part ctx : Nat) (req : BitVec 512) : (s.issueCall part ctx req).1.memWf = true := by
  unfold State.issueCall
  grind -ring -linarith [State.memWf_postCall, State.memWf]

theorem memWf_execSvc (w : UniShort) : outMemWf (execSvc w s) = true := by
  unfold execSvc
  refine memWf_uniform h _ _ _ _ fun t ht => ?_
  dsimp only
  split
  · exact State.memWf_fault ht ..
  split
  · exact State.memWf_stay ht ..
  refine State.memWf_gatherGroup ht _ _ _ _ fun t rows ht => ?_
  have hp := State.memWf_loadPieces ht (rows.flatMap id)
  split
  · exact State.memWf_fault hp ..
  refine State.memWf_gatherGroup hp _ _ _ _ fun t rows ht => ?_
  split
  · exact State.memWf_stay ht ..
  · exact State.memWf_done (State.memWf_onGrp (State.memWf_issueCall (State.memWf_release ht _) ..) _) ..

theorem memWf_hcoh (w : UniShort) (e : EA) (flush : Bool) (body : List Nat → State → State)
    (hbody : ∀ a t, t.memWf = true → (body a t).memWf = true) :
    outMemWf (hcoh w e flush s body) = true := by
  unfold hcoh
  grind -ring -linarith [State.memWf_done, State.memWf_stay, State.memWf_fault, memWf_uniform, State.memWf_gatherGroup,
    outMemWf]

theorem memWf_execHcohFlush (w : UniShort) (e : EA) : outMemWf (execHcohFlush w e s) = true := by
  unfold execHcohFlush
  grind -ring -linarith [State.memWf_hostClean, memWf_hcoh, foldl_memWf, outMemWf]

theorem memWf_execHcohInval (w : UniShort) (e : EA) : outMemWf (execHcohInval w e s) = true := by
  unfold execHcohInval
  grind -ring -linarith [State.memWf_hostDrop, State.memWf_l1Drop, State.memWf_acquire, memWf_hcoh, foldl_memWf, outMemWf]

/-! ### Save and restore routines -/

theorem memWf_ctxOp (code : Nat) (w : UniShort) (e : EA) (body : State → Out)
    (hbody : ∀ t, t.memWf = true → outMemWf (body t) = true) :
    outMemWf (ctxOp code w e s body) = true := by
  unfold ctxOp
  grind -ring -linarith [State.memWf_fault, memWf_uniform, outMemWf]

theorem State.memWf_imageRuns (k : Access) (runs : List (Nat × Nat)) (go : State → List Piece → Out)
    (hgo : ∀ t b, t.memWf = true → outMemWf (go t b) = true) :
    outMemWf (s.imageRuns k runs go) = true := by
  unfold State.imageRuns
  grind -ring -linarith [State.memWf_gatherGroup, outMemWf]

theorem memWf_imageBase (w : UniShort) (body : Nat → State → Out)
    (hbody : ∀ a t, t.memWf = true → outMemWf (body a t) = true) :
    outMemWf (imageBase w s body) = true := by
  unfold imageBase
  grind -ring -linarith [State.memWf_fault, outMemWf]

theorem memWf_frameOperand (w : UniShort) (body : Nat → State → Out)
    (hbody : ∀ a t, t.memWf = true → outMemWf (body a t) = true) :
    outMemWf (frameOperand w s body) = true := by
  unfold frameOperand
  grind -ring -linarith [State.memWf_fault, outMemWf]

theorem memWf_execCtxSvsplit (w : UniShort) (e : EA) : outMemWf (execCtxSvsplit w e s) = true := by
  unfold execCtxSvsplit
  grind -ring -linarith [State.memWf_done, State.memWf_storeBytes, memWf_ctxOp, State.memWf_imageRuns, memWf_imageBase,
    outMemWf]

theorem State.memWf_restoreSplit (n : Nat) (bs : List Byte) : outMemWf (s.restoreSplit n bs) = true := by
  unfold State.restoreSplit
  grind -ring -linarith [State.memWf_onGrp, State.memWf_loadSplit, State.memWf_done, State.memWf_haltSoon,
    State.memWf_fault, outMemWf]

theorem memWf_execCtxLdsplit (w : UniShort) (e : EA) : outMemWf (execCtxLdsplit w e s) = true := by
  unfold execCtxLdsplit
  grind -ring -linarith [State.memWf_onGrp, State.memWf_done, State.memWf_fault, State.memWf_loadPieces, memWf_ctxOp,
    State.memWf_imageRuns, memWf_imageBase, State.memWf_restoreSplit, outMemWf]

theorem memWf_execCtxSvframe (w : UniShort) (e : EA) : outMemWf (execCtxSvframe w e s) = true := by
  unfold execCtxSvframe
  grind -ring -linarith [State.memWf_putDescriptor, State.memWf_evict, State.memWf_done, State.memWf_stay,
    State.memWf_haltSoon, State.memWf_fault, State.memWf_spilling, memWf_ctxOp, memWf_frameOperand, outMemWf]

theorem State.memWf_reviveFrame (n : Nat) : (s.reviveFrame n).memWf = true := by
  unfold State.reviveFrame
  grind -ring -linarith [State.memWf_onGrp, State.memWf_spillLoad]

theorem memWf_execCtxLdframe (w : UniShort) (e : EA) : outMemWf (execCtxLdframe w e s) = true := by
  unfold execCtxLdframe
  grind -ring -linarith [State.memWf_onGrp, State.memWf_fill, State.memWf_done, State.memWf_stay, State.memWf_haltSoon,
    State.memWf_fault, State.memWf_spilling, State.memWf_fillWait, memWf_ctxOp, memWf_frameOperand,
    State.memWf_reviveFrame, outMemWf]

theorem State.memWf_loadBarriers (t : Team) (bs : List Byte) : (s.loadBarriers t bs).memWf = true := by
  unfold State.loadBarriers
  grind -ring -linarith [State.memWf_setBar, foldl_memWf]

theorem State.memWf_takeHeld (core gid : Nat) : (s.takeHeld core gid).memWf = true := h

theorem memWf_execCtxSvlist (w : UniShort) (e : EA) : outMemWf (execCtxSvlist w e s) = true := by
  unfold execCtxSvlist
  grind -ring -linarith [State.memWf_done, State.memWf_fault, State.memWf_storeBytes, memWf_ctxOp, State.memWf_imageRuns,
    memWf_imageBase, State.memWf_takeHeld, outMemWf]

theorem memWf_execCtxSvlistLoad (w : UniShort) (e : EA) : outMemWf (execCtxSvlistLoad w e s) = true := by
  unfold execCtxSvlistLoad
  grind -ring -linarith [State.memWf_loadItems, State.memWf_done, State.memWf_stay, State.memWf_fault,
    State.memWf_loadPieces, State.memWf_hold, memWf_ctxOp, State.memWf_imageRuns, memWf_imageBase,
    State.memWf_loadBarriers, outMemWf]

end

end Sys2Proof.Machine

/-! ## Offices, pages, the host and the links -/

namespace Sys2Proof.Machine

section
variable {s : State} (h : s.memWf = true)
include h

/-! ### Descriptors -/

theorem State.memWf_readDescriptor (ctx die : Nat) (a : Dword) : (s.readDescriptor ctx die a).1.memWf = true := by
  unfold State.readDescriptor
  grind -ring -linarith [State.memWf_ctxLoadLong]

theorem State.memWf_readBinds (ctx die : Nat) (k : BitVec 1024) : (s.readBinds ctx die k).1.memWf = true := by
  unfold State.readBinds
  grind -ring -linarith [State.memWf_ctxLoadLong]

theorem State.memWf_readKernel (ctx die : Nat) (a : Dword) : (s.readKernel ctx die a).1.memWf = true := by
  unfold State.readKernel
  grind -ring -linarith [State.memWf_readDescriptor, State.memWf_readBinds]

theorem State.memWf_readMembers (ctx die : Nat) (as : List Dword) : (s.readMembers ctx die as).1.memWf = true := by
  unfold State.readMembers
  grind -ring -linarith [State.memWf_readKernel, foldl_fst_memWf]

theorem State.memWf_readValid (ctx die : Nat) (a : Dword) : (s.readValid ctx die a).1.memWf = true := by
  unfold State.readValid
  grind -ring -linarith [State.memWf_readKernel, State.memWf_readMembers]

/-! ### Halts and the debugger -/

theorem State.memWf_stopCompute (k : Nat) (st : MatStep) : (s.stopCompute k st).memWf = true := by
  unfold State.stopCompute
  grind -ring -linarith [State.memWf_putAll, State.memWf]

theorem State.memWf_stopFin (k : Nat) (st : MatStep) : (s.stopFin k st).memWf = true := by
  unfold State.stopFin
  grind -ring -linarith [State.memWf_finRow, foldl_memWf, State.memWf]

theorem State.memWf_stopEngine (part k : Nat) : (s.stopEngine part k).memWf = true := by
  unfold State.stopEngine
  grind -ring -linarith [State.memWf_onEngine, State.memWf_stopCompute, State.memWf_stopFin, foldl_memWf]

theorem State.memWf_stopMove (core ctx : Nat) (m : Move) : (s.stopMove core ctx m).memWf = true := by
  unfold State.stopMove
  grind -ring -linarith [State.memWf_doMove, State.memWf]

theorem State.memWf_stopCopies (part : Nat) : (s.stopCopies part).memWf = true := by
  unfold State.stopCopies
  grind -ring -linarith [State.memWf_stopMove, foldl_memWf, State.memWf]

theorem State.memWf_haltNow (part cause : Nat) : (s.haltNow part cause).memWf = true := by
  unfold State.haltNow
  grind -ring -linarith [State.memWf_setPartReg, State.memWf_partRing, State.memWf_stopEngine, State.memWf_stopCopies,
    foldl_memWf]

theorem memWf_execHalt (part : Nat) (cause : BitVec 8) : outMemWf (execHalt part cause s) = true := by
  unfold execHalt
  grind -ring -linarith [State.memWf_haltNow, outMemWf]

theorem memWf_execWatchdog (gid : Nat) : outMemWf (execWatchdog gid s) = true := by
  unfold execWatchdog
  grind -ring -linarith [State.memWf_haltSoon, outMemWf]

theorem memWf_execDebugStop (gid : Nat) : outMemWf (execDebugStop gid s) = true := by
  unfold execDebugStop
  grind -ring -linarith [State.memWf_onGroup, State.memWf_onGroups, State.memWf_noteStop, outMemWf, State.memWf]

theorem memWf_execDebugStep (gid sp : Nat) : outMemWf (execDebugStep gid sp s) = true := by
  unfold execDebugStep
  grind -ring -linarith [State.memWf_onGroup, outMemWf, State.memWf]

theorem memWf_execBreakpointStop (gid sp : Nat) : outMemWf (execBreakpointStop gid sp s) = true := by
  unfold execBreakpointStop
  grind -ring -linarith [State.memWf_onGrp, State.memWf_within, State.memWf_debugStopHere, outMemWf]

theorem memWf_execDebugRegisterWrite (gid : Nat) (r : DebugReg) (v : Dword) :
    outMemWf (execDebugRegisterWrite gid r v s) = true := by
  unfold execDebugRegisterWrite
  grind -ring -linarith [State.memWf_onGrp, State.memWf_within, State.memWf_settleHeld, outMemWf]

theorem memWf_execDebugContinue (n : Nat) : outMemWf (execDebugContinue n s) = true := by
  unfold execDebugContinue
  grind -ring -linarith [State.memWf_onGroup, outMemWf, State.memWf]

/-! ### Placing teams -/

theorem State.memWf_addGroup (g : Group) : (s.addGroup g).memWf = true := h

theorem State.memWf_startGroup (t : Team) (block : BitVec 512) (g : Nat) : (s.startGroup t block g).memWf = true := by
  unfold State.startGroup
  grind -ring -linarith [State.memWf_onTeam, State.memWf_requestFill, State.memWf_addGroup]

theorem State.memWf_pipeHeader (t : Team) (e : BitVec 128) : (s.pipeHeader t e).memWf = true := by
  unfold State.pipeHeader
  grind -ring -linarith [State.memWf_homeStore]

theorem State.memWf_pipeHeaders (t : Team) : (s.pipeHeaders t).memWf = true := by
  unfold State.pipeHeaders
  grind -ring -linarith [State.memWf_pipeHeader, foldl_memWf]

theorem State.memWf_reserveTiles (t : Team) : (s.reserveTiles t).memWf = true := by
  unfold State.reserveTiles
  grind -ring -linarith [State.memWf_onEngine, foldl_memWf]

theorem State.memWf_countOffice (die sel idx : Nat) (v : Dword) : (s.countOffice die sel idx v).memWf = true := h

theorem State.memWf_coreTaken (core : Nat) : (s.coreTaken core).memWf = true := by
  unfold State.coreTaken
  split <;> exact h

theorem State.memWf_bindWork (t : Team) : (s.bindWork t).memWf = true := by
  unfold State.bindWork
  grind -ring -linarith [State.memWf_onQueue, State.memWf_setTaskState, State.memWf_object]

theorem State.memWf_startTeam (t : Team) (block : BitVec 512) : (s.startTeam t block).memWf = true := by
  unfold State.startTeam
  grind -ring -linarith [State.memWf_l1Invalidate, State.memWf_teamDecision, State.memWf_startGroup,
    State.memWf_pipeHeaders, State.memWf_reserveTiles, State.memWf_countOffice, State.memWf_coreTaken,
    State.memWf_bindWork, foldl_memWf]

theorem State.memWf_initBarriers (ts : List Team) : (s.initBarriers ts).memWf = true := by
  unfold State.initBarriers
  grind -ring -linarith [State.memWf_setBar, foldl_memWf]

theorem State.memWf_clearDomains (cluster : Nat) : (s.clearDomains cluster).memWf = true := by
  unfold State.clearDomains
  grind -ring -linarith [State.memWf_clearDomain, foldl_memWf]

/-! ### The Sorting Office -/

theorem State.memWf_onHart (die hd : Nat) (f : Hart → Hart) : (s.onHart die hd f).memWf = true := by
  unfold State.onHart
  grind -ring -linarith [State.memWf]

theorem State.memWf_readLaunch (die k : Nat) (q : Queue) (r : BitVec 128) : (s.readLaunch die k q r).1.memWf = true := by
  unfold State.readLaunch
  grind -ring -linarith [State.memWf_ctxLoadLong, State.memWf_readValid]

theorem State.memWf_deny (die k : Nat) (r : BitVec 128) (team reason cmask : Nat) :
    (s.deny die k r team reason cmask).memWf = true := by
  unfold State.deny
  grind -ring -linarith [State.memWf_decision, State.memWf_countOffice]

theorem State.memWf_takeLaunch (die k : Nat) (q : Queue) (r : BitVec 128) : (s.takeLaunch die k q r).memWf = true := by
  unfold State.takeLaunch
  grind -ring -linarith [State.memWf_onOffice, State.memWf_settleQueue, State.memWf_headPast, State.memWf_countOffice,
    State.memWf_readLaunch, State.memWf_deny]

theorem State.memWf_soTake (die hd idx : Nat) (peek : Bool) : (s.soTake die hd idx peek).memWf = true := by
  unfold State.soTake
  grind -ring -linarith [State.memWf_head, State.memWf_onHart, State.memWf_takeLaunch]

theorem memWf_execSoneed (die hart : Nat) (addr : Dword) : outMemWf (execSoneed die hart addr s) = true := by
  unfold execSoneed
  grind -ring -linarith [State.memWf_readValid, State.memWf_onHart, outMemWf]

theorem State.memWf_placeMember (die part : Nat) (l : Launch) (bound : Option Nat) (r : Nat × Nat × Nat × Nat)
    (home : Option Team) (core number : Nat) (subs : List Nat) {u : State} {v : Team}
    (hu : s.placeMember die part l bound r home core number subs = .ok (u, v)) : u.memWf = true := by
  unfold State.placeMember at hu
  grind -ring -linarith [State.memWf]

theorem State.memWf_placeMembers (die part : Nat) (l : Launch) (bound : Option Nat) (r : Nat × Nat × Nat × Nat)
    (ms : List (Nat × Nat × List Nat)) (ts : List Team) {u : State} {v : List Team}
    (hu : s.placeMembers die part l bound r ms ts = .ok (u, v)) : u.memWf = true := by
  fun_induction s.placeMembers die part l bound r ms ts <;> grind -ring -linarith [State.memWf_placeMember]

theorem State.memWf_onLaunch (die k : Nat) (f : Launch → Option Launch) : (s.onLaunch die k f).memWf = true := h

theorem State.memWf_beginTeams (die : Nat) (l : Launch) (ts : List Team) : (s.beginTeams die l ts).memWf = true := by
  unfold State.beginTeams
  grind -ring -linarith [State.memWf_countOffice, State.memWf_startTeam, State.memWf_initBarriers,
    State.memWf_clearDomains, State.memWf_onLaunch, foldl_memWf]

theorem State.memWf_tryCommit (die : Nat) (l : Launch) (ms : List (Nat × Nat × List Nat)) {u : State} {ts : List Team}
    (hu : s.tryCommit die l ms = .placed u ts) : u.memWf = true := by
  unfold State.tryCommit at hu
  dsimp only at hu
  split at hu
  · cases hu
  split at hu
  · cases hu
  split at hu
  · cases hu
  split at hu
  · cases hu
  split at hu
  · cases hu
  next v us hv =>
    cases hu
    exact State.memWf_placeMembers h _ _ _ _ _ _ _ hv

theorem State.memWf_commit (die : Nat) (l : Launch) (ms : List (Nat × Nat × List Nat)) (number : Nat) :
    (s.commit die l ms number).1.memWf = true := by
  unfold State.commit
  split
  · exact h
  · exact State.memWf_onLaunch (State.memWf_deny h ..) ..
  next e _ =>
    dsimp only
    split
    · exact State.memWf_onLaunch h ..
    · exact State.memWf_onLaunch (State.memWf_deny h ..) ..
  next u ts hu => exact State.memWf_beginTeams (State.memWf_tryCommit h _ _ _ hu) ..

theorem memWf_execSoplaceCommit (die hart : Nat) (v : Dword) : outMemWf (execSoplaceCommit die hart v s) = true := by
  unfold execSoplaceCommit
  grind -ring -linarith [State.memWf_onHart, State.memWf_commit, outMemWf]

theorem memWf_execSokill (die hart : Nat) (v : Dword) : outMemWf (execSokill die hart v s) = true := by
  unfold execSokill
  grind -ring -linarith [State.memWf_killTeam, outMemWf]

theorem memWf_execSoevt (die hart : Nat) : outMemWf (execSoevt die hart s) = true := by
  unfold execSoevt
  split <;> exact h

theorem memWf_execIllegalCsrAccess (die hart csr : Nat) : outMemWf (execIllegalCsrAccess die hart csr s) = true := by
  unfold execIllegalCsrAccess
  split <;> exact h

theorem memWf_execMicrocodeLoad (die : Nat) (img : List Byte) (sig : BitVec 1042) (key : Nat) :
    outMemWf (execMicrocodeLoad die img sig key s) = true := by
  unfold execMicrocodeLoad
  dsimp only
  split
  · exact h
  · obtain ⟨h0, h1, h2, h3, h4, h5⟩ := (State.memWf_iff s).mp h
    refine State.memWf_decision (foldl_memWf (State.memWf_onOffice ?_ ..) _ (fun t a ht => State.memWf_onHart ht ..) _) ..
    exact (State.memWf_iff _).mpr ⟨h0, h1, h2, h3, h4, Memory.wf_store _ _ _ h5⟩

/-! ### Answers to translations -/

theorem State.memWf_onParked (tag : Nat) (f : ParkedAccess → ParkedAccess) : (s.onParked tag f).memWf = true := h
theorem State.memWf_answerWhere (which : ParkedAccess → Bool) (a : Answer) : (s.answerWhere which a).memWf = true := h

theorem memWf_execTranslationWalk (tag : Nat) : outMemWf (execTranslationWalk tag s) = true := by
  unfold execTranslationWalk
  grind -ring -linarith [State.memWf_unpark, State.memWf_park, State.memWf_wake, outMemWf]

theorem memWf_execAtsResponse (tag : Nat) (ans : AtsAnswer) : outMemWf (execAtsResponse tag ans s) = true := by
  unfold execAtsResponse
  grind -ring -linarith [State.memWf_onParked, outMemWf, State.memWf]

theorem State.memWf_settlePage (page : Nat) : (s.settlePage page).memWf = true := h

theorem memWf_execAtsInvalidation (pasid va : Nat) : outMemWf (execAtsInvalidation pasid va s) = true := by
  unfold execAtsInvalidation
  grind -ring -linarith [State.memWf_answerWhere, State.memWf_settlePage, foldl_memWf, outMemWf, State.memWf]

/-! ### Register pages -/

theorem State.memWf_writePart (part off : Nat) (v : Dword) : (s.writePart part off v).memWf = true := by
  unfold State.writePart
  split <;> exact h

theorem memWf_execPctlEnable (part : Nat) (en : Bool) : outMemWf (execPctlEnable part en s) = true := by
  unfold execPctlEnable
  grind -ring -linarith [State.memWf_setPartReg, outMemWf]

theorem memWf_execPctlHaltRequest (part : Nat) : outMemWf (execPctlHaltRequest part s) = true := by
  unfold execPctlHaltRequest
  grind -ring -linarith [State.memWf_haltNow, outMemWf]

theorem memWf_execCmaskWrite (part word : Nat) (v : Dword) : outMemWf (execCmaskWrite part word v s) = true := by
  unfold execCmaskWrite
  grind -ring -linarith [State.memWf_setPartReg, State.memWf_clearCore, foldl_memWf, outMemWf]

theorem State.memWf_clearReady (j : Nat) (v : Dword) : (s.clearReady j v).memWf = true := by
  unfold State.clearReady
  grind -ring -linarith [State.memWf_setReady, foldl_memWf]

theorem State.memWf_cxlRetry : s.cxlRetry.memWf = true := h

theorem State.memWf_writeDev (off : Nat) (v : Dword) : (s.writeDev off v).memWf = true := by
  unfold State.writeDev
  grind -ring -linarith [State.memWf_setDevReg, State.memWf_clearReady, State.memWf_cxlRetry]

theorem State.memWf_writeContext (ctx q : Nat) (v : Dword) : (s.writeContext ctx q v).memWf = true := by
  unfold State.writeContext
  grind -ring -linarith [State.memWf]

theorem State.memWf_writeOther (off : Nat) (v : Dword) : (s.writeOther off v).memWf = true := by
  unfold State.writeOther
  split
  · exact h
  split
  · exact h
  split
  · exact h
  split
  · dsimp only
    split <;> exact h
  · exact h

theorem State.memWf_writeCsr (die hart csr : Nat) (v : Dword) : (s.writeCsr die hart csr v).memWf = true := by
  unfold State.writeCsr
  split <;> exact h

theorem memWf_execRegisterWrite (who : RegWriter) (page off : Nat) (v : Dword) :
    outMemWf (execRegisterWrite who page off v s) = true := by
  unfold execRegisterWrite
  grind -ring -linarith [State.memWf_writePart, State.memWf_writeDev, State.memWf_writeContext, State.memWf_writeOther,
    State.memWf_writeCsr, outMemWf]

theorem memWf_execAttRequest (part : Nat) (v : Dword) : outMemWf (execAttRequest part v s) = true := by
  unfold execAttRequest
  split <;> exact h

theorem memWf_execAttestationReport (part : Nat) : outMemWf (execAttestationReport part s) = true := by
  unfold execAttestationReport
  grind -ring -linarith [State.memWf_unitLoad, State.memWf_unitStore, State.memWf_setPartReg, outMemWf]

/-! ### Host, functions and packets -/

theorem State.memWf_bump (ctx : Nat) (a : Dword) : (s.bump ctx a).memWf = true := by
  unfold State.bump
  grind -ring -linarith [State.memWf_ctxLoad, State.memWf_ctxStore, memWf_getD]

theorem State.memWf_answerCall (c : Call) (status : Nat) (result : Dword) :
    (s.answerCall c status result).memWf = true := by
  unfold State.answerCall
  grind -ring -linarith [State.memWf_ctxStore, State.memWf_bump, memWf_getD]

theorem State.memWf_callTaken (part : Nat) : (s.callTaken part).memWf = true := h

theorem memWf_execHostBar2Write (fn off : Nat) (data : List Byte) : outMemWf (execHostBar2Write fn off data s) = true := by
  unfold execHostBar2Write
  grind -ring -linarith [State.memWf_unitStore, State.memWf_hostWrite, foldl_memWf, outMemWf]

theorem State.memWf_quarantine (vf : Nat) : (s.quarantine vf).memWf = true := h

theorem State.memWf_discardItems (k : Nat) : (s.discardItems k).memWf = true := by
  unfold State.discardItems
  grind -ring -linarith [State.memWf_completeItem, foldl_memWf, State.memWf]

theorem State.memWf_clearFunction (vf : Nat) : (s.clearFunction vf).memWf = true := by
  unfold State.clearFunction
  grind -ring -linarith [State.memWf_killTeam, State.memWf_releaseQueue, State.memWf_discardItems, foldl_memWf, State.memWf]

theorem memWf_execFlr (vf : Nat) : outMemWf (execFlr vf s) = true := by
  unfold execFlr
  grind -ring -linarith [State.memWf_quarantine, State.memWf_clearFunction, outMemWf]

theorem memWf_execFlrCleanup (vf : Nat) : outMemWf (execFlrCleanup vf s) = true := by
  unfold execFlrCleanup
  grind -ring -linarith [State.memWf_answerCall, State.memWf_callTaken, foldl_memWf, outMemWf, State.memWf]

theorem memWf_execFlrAllowanceExpiry (vf : Nat) : outMemWf (execFlrAllowanceExpiry vf s) = true := by
  unfold execFlrAllowanceExpiry
  split <;> exact h

theorem State.memWf_dropTranslations (ctx pasid : Nat) : (s.dropTranslations ctx pasid).memWf = true := h

theorem State.memWf_clearPage (part : Nat) : (s.clearPage part).memWf = true := by
  unfold State.clearPage
  split <;> exact h

theorem memWf_execFlrComplete (vf : Nat) : outMemWf (execFlrComplete vf s) = true := by
  unfold execFlrComplete
  grind -ring -linarith [State.memWf_dropTranslations, State.memWf_clearPage, foldl_memWf, outMemWf, State.memWf]

theorem State.memWf_resetReply (p : Packet) : (s.resetReply p).memWf = true := by
  unfold State.resetReply
  split <;> exact h

theorem State.memWf_performPacket (p : Packet) : (s.performPacket p).memWf = true := by
  unfold State.performPacket
  grind -ring -linarith [State.memWf_unitLoad, State.memWf_unitStore, State.memWf_resetReply, foldl_memWf, State.memWf]

theorem State.memWf_linkError (part n : Nat) : (s.linkError part n).memWf = true := by
  unfold State.linkError
  grind -ring -linarith [State.memWf_partRing, State.memWf_haltNow]

theorem State.memWf_takeAnswer (p : Packet) (what : PacketKind) (ok : Bool) : (s.takeAnswer p what ok).memWf = true := by
  unfold State.takeAnswer
  grind -ring -linarith [State.memWf_linkError, State.memWf]

theorem State.memWf_setPlanes (dev : Nat) (bits : BitVec 128) : (s.setPlanes dev bits).memWf = true := by
  unfold State.setPlanes
  split <;> exact h

theorem memWf_execPeerPacketReceive (p : Packet) : outMemWf (execPeerPacketReceive p s) = true := by
  unfold execPeerPacketReceive
  grind -ring -linarith [State.memWf_resetReply, State.memWf_performPacket, State.memWf_takeAnswer, State.memWf_setPlanes,
    outMemWf]

theorem State.memWf_relay (p : Packet) : (s.relay p).memWf = true := by
  unfold State.relay
  grind -ring -linarith [State.memWf]

theorem memWf_execPacketRelay (p : Packet) : outMemWf (execPacketRelay p s) = true := by
  unfold execPacketRelay
  grind -ring -linarith [State.memWf_relay, outMemWf]

theorem memWf_execRelayDrop (p : Packet) : outMemWf (execRelayDrop p s) = true := by
  unfold execRelayDrop
  split
  · exact h
  next r _ =>
    have hr : ({ s with relays := s.relays.erase r } : State).memWf = true := h
    dsimp only
    split
    · exact State.memWf_relay hr _
    split
    · exact State.memWf_resetReply hr _
    · exact h

/-! ### Edge groups -/

theorem State.memWf_enterStep (n step tgt pers err : Nat) : (s.enterStep n step tgt pers err).memWf = true := h

theorem State.memWf_announce (m : BitVec 128) : (s.announce m).memWf = true := by
  unfold State.announce
  split <;> exact h

theorem memWf_execEgctlGo (n : Nat) (v : Dword) : outMemWf (execEgctlGo n v s) = true := by
  unfold execEgctlGo
  grind -ring -linarith [State.memWf_setDevReg, State.memWf_setReady, State.memWf_enterStep, State.memWf_announce, outMemWf]

theorem State.memWf_closeGroup (n : Nat) : (s.closeGroup n).memWf = true := by
  unfold State.closeGroup
  split <;> exact h

theorem memWf_execDrainRequestCutoff (n : Nat) : outMemWf (execDrainRequestCutoff n s) = true := by
  unfold execDrainRequestCutoff
  grind -ring -linarith [State.memWf_closeGroup, outMemWf]

theorem State.memWf_closeWindows (n : Nat) : (s.closeWindows n).memWf = true := by
  unfold State.closeWindows
  grind -ring -linarith [State.memWf_setDevReg, foldl_memWf]

theorem memWf_execEdgeDrainEnd (n : Nat) (opens : List Nat) : outMemWf (execEdgeDrainEnd n opens s) = true := by
  unfold execEdgeDrainEnd
  grind -ring -linarith [State.memWf_linkError, State.memWf_enterStep, State.memWf_closeGroup, State.memWf_closeWindows,
    foldl_memWf, outMemWf, State.memWf]

theorem memWf_execQuiesceEnd (n : Nat) : outMemWf (execQuiesceEnd n s) = true := by
  unfold execQuiesceEnd
  split <;> exact h

theorem State.memWf_cxlSettle : s.cxlSettle.memWf = true := h

theorem State.memWf_switchFailed (n : Nat) : (s.switchFailed n).memWf = true := by
  unfold State.switchFailed
  grind -ring -linarith [State.memWf_enterStep, State.memWf_cxlSettle, State.memWf]

theorem memWf_execRetrainEnd (n : Nat) (up : Bool) : outMemWf (execRetrainEnd n up s) = true := by
  unfold execRetrainEnd
  grind -ring -linarith [State.memWf_enterStep, State.memWf_announce, State.memWf_switchFailed, outMemWf]

theorem memWf_execEdgeReady (n : Nat) : outMemWf (execEdgeReady n s) = true := by
  unfold execEdgeReady
  grind -ring -linarith [State.memWf_setReady, State.memWf_enterStep, State.memWf_cxlSettle, outMemWf, State.memWf]

end

end Sys2Proof.Machine

/-! ## Lanes, items, logs, pre-emption and service -/

namespace Sys2Proof.Machine

section
variable {s : State} (h : s.memWf = true)
include h

/-! ### Floating-point instructions -/

theorem memWf_roundOp (regs : List Nat) (w : LaneShort) (e : EA) (wide : Bool) (len n : Nat) (f : Nat → Dword) :
    outMemWf (roundOp regs w e wide len n s f) = true := by
  unfold roundOp
  grind -ring -linarith [State.memWf_onGrp, State.memWf_done, memWf_lanes, outMemWf]

theorem memWf_float2S (op : Bool → FVal → FVal → FVal) (w : LaneShort) (e : EA) (len : Nat) :
    outMemWf (float2S op w e len s) = true :=
  memWf_roundOp h ..

theorem memWf_pick2S (max : Bool) (w : LaneShort) (e : EA) (len : Nat) : outMemWf (pick2S max w e len s) = true :=
  memWf_laneOp h ..

theorem memWf_scale2S (w : LaneShort) (e : EA) (len : Nat) : outMemWf (scale2S w e len s) = true :=
  memWf_roundOp h ..

theorem memWf_execDot (w : LaneShort) (e : EA) : outMemWf (execDot w e s) = true := by
  unfold execDot
  grind -ring -linarith [memWf_laneOp, memWf_roundOp, outMemWf]

/-! ### Cross-lane instructions -/

theorem memWf_execShfl (w : LaneShort) (e : EA) : outMemWf (execShfl w e s) = true := by
  unfold execShfl
  grind -ring -linarith [State.memWf_onGrp, State.memWf_done, memWf_lanes, outMemWf]

theorem State.memWf_putUniform (d : Nat) (v : Dword) : (s.putUniform d v).memWf = true := h

theorem memWf_execVote (w : LaneShort) (e : EA) : outMemWf (execVote w e s) = true := by
  unfold execVote
  grind -ring -linarith [State.memWf_done, memWf_lanes, State.memWf_putUniform, outMemWf]

theorem memWf_execRedux (w : LaneShort) (e : EA) : outMemWf (execRedux w e s) = true := by
  unfold execRedux
  grind -ring -linarith [State.memWf_done, memWf_lanes, State.memWf_putUniform, outMemWf, State.memWf]

theorem memWf_execScan (w : LaneShort) (e : EA) : outMemWf (execScan w e s) = true := by
  unfold execScan
  grind -ring -linarith [State.memWf_onGrp, State.memWf_done, memWf_lanes, outMemWf]

/-! ### The first event that changes the state -/

theorem memWf_firstChange (run : Instr → State → Out) (ls : List Instr)
    (hrun : ∀ a t, t.memWf = true → outMemWf (run a t) = true) {o : Out} (ho : firstChange run s ls = some o) :
    outMemWf o = true := by
  fun_induction firstChange run s ls <;> grind -ring -linarith

/-! ### Items -/

theorem State.memWf_relabelTo (q : Queue) (l : Nat) (it : Item) (flow : Word) (nc : Nat) :
    (s.relabelTo q l it flow nc).memWf = true := by
  unfold State.relabelTo
  grind -ring -linarith [State.memWf_l1Invalidate, State.memWf_onGrp, State.memWf_resolveSlot, State.memWf_unlock,
    State.memWf_takeLock, State.memWf_release, State.memWf_sequenced]

theorem State.memWf_relabel (l : Nat) (flow : Word) (nc : Nat) : (s.relabel l flow nc).1.memWf = true := by
  unfold State.relabel
  grind -ring -linarith [State.memWf_onGrp, State.memWf_relabelTo]

theorem State.memWf_relabelLanes (flow : Nat → Word) (nc : Nat) (ls : List Nat) :
    (s.relabelLanes flow nc ls).1.memWf = true := by
  fun_induction s.relabelLanes flow nc ls <;> grind -ring -linarith [State.memWf_relabel]

theorem memWf_execRelbl (w : LaneShort) (e : EA) : outMemWf (execRelbl w e s) = true := by
  unfold execRelbl
  grind -ring -linarith [State.memWf_done, State.memWf_pushZero, memWf_lanes, State.memWf_lanePred,
    State.memWf_relabelLanes, outMemWf]

theorem State.memWf_itemOrder (rel : Bool) (body : State → Out) (hbody : ∀ t, t.memWf = true → outMemWf (body t) = true) :
    outMemWf (s.itemOrder rel body) = true := by
  unfold State.itemOrder
  split
  · exact State.memWf_stay h ..
  split
  · exact hbody _ h
  split
  · exact hbody _ (State.memWf_release h ..)
  · exact State.memWf_stay h ..

theorem memWf_execItemDone (w : LaneShort) (e : EA) : outMemWf (execItemDone w e s) = true := by
  unfold execItemDone
  grind -ring -linarith [State.memWf_done, State.memWf_completeLanes, State.memWf_pushZero, memWf_lanes,
    State.memWf_itemOrder, outMemWf]

theorem memWf_execItemSkip (w : LaneShort) (e : EA) : outMemWf (execItemSkip w e s) = true := by
  unfold execItemSkip
  grind -ring -linarith [State.memWf_done, State.memWf_pushZero, memWf_lanes, State.memWf_skipParked, memWf_withHandle,
    State.memWf_itemOrder, foldl_memWf, outMemWf]

theorem memWf_execItemYield (w : LaneShort) (e : EA) : outMemWf (execItemYield w e s) = true := by
  unfold execItemYield
  grind -ring -linarith [State.memWf_waitFor, State.memWf_done, State.memWf_pushZero, memWf_lanes, State.memWf_lanePred,
    State.memWf_serveFill, State.memWf_requestFill, State.memWf_itemOrder, outMemWf]

theorem State.memWf_deferLanes (k : Nat) (ls : List Nat) : (s.deferLanes k ls).memWf = true := by
  unfold State.deferLanes
  grind -ring -linarith [State.memWf_onGrp, State.memWf_unlock, State.memWf_discardHeld, State.memWf_appendOrHold,
    foldl_memWf]

theorem memWf_execItemDefer (w : LaneShort) (e : EA) : outMemWf (execItemDefer w e s) = true := by
  unfold execItemDefer
  grind -ring -linarith [State.memWf_done, State.memWf_faultIn, State.memWf_pushZero, memWf_lanes, memWf_withHandle,
    State.memWf_itemOrder, State.memWf_deferLanes, outMemWf]

theorem memWf_execGpkFill (gid : Nat) : outMemWf (execGpkFill gid s) = true := by
  unfold execGpkFill
  grind -ring -linarith [State.memWf_serveFill, outMemWf]

theorem memWf_execStall (die entry qkey : Nat) : outMemWf (execStall die entry qkey s) = true := by
  unfold execStall
  grind -ring -linarith [State.memWf_postEvent, State.memWf_onLock, outMemWf]

theorem memWf_execFaultRecordWrite (die : Nat) : outMemWf (execFaultRecordWrite die s) = true := by
  unfold execFaultRecordWrite
  grind -ring -linarith [State.memWf_drainRecords, State.memWf_parkWaiting, foldl_memWf, outMemWf]

theorem memWf_execDeferAppend (die : Nat) : outMemWf (execDeferAppend die s) = true := by
  unfold execDeferAppend
  grind -ring -linarith [State.memWf_settleQueue, foldl_memWf, outMemWf]

/-! ### Routing logs and pipes -/

theorem State.memWf_readHome (ps : List Piece) : (s.readHome ps).1.memWf = true := by
  unfold State.readHome
  grind -ring -linarith [State.memWf_coreLoad, State.memWf_touch, foldl_fst_memWf]

theorem memWf_withLogSlot (k : Access) (w : UniShort) (body : LogSlot → List Piece → Dword → State → Out)
    (hbody : ∀ a b c t, t.memWf = true → outMemWf (body a b c t) = true) :
    outMemWf (withLogSlot k w s body) = true := by
  unfold withLogSlot
  grind -ring -linarith [State.memWf_fault, State.memWf_gatherGroup, State.memWf_readHome, outMemWf]

theorem memWf_execRlogPush (w : UniShort) (e : EA) : outMemWf (execRlogPush w e s) = true := by
  unfold execRlogPush
  grind -ring -linarith [State.memWf_done, State.memWf_stay, State.memWf_release, State.memWf_fault, memWf_uniform,
    State.memWf_gatherGroup, State.memWf_loadPieces, State.memWf_storeBytes, State.memWf_countLandedFrom,
    State.memWf_countLanded, memWf_withLogSlot, outMemWf]

theorem memWf_execRlogGet (w : UniShort) (e : EA) : outMemWf (execRlogGet w e s) = true := by
  unfold execRlogGet
  grind -ring -linarith [State.memWf_onGrp, State.memWf_done, State.memWf_stay, State.memWf_acquire, memWf_uniform,
    memWf_withLogSlot, outMemWf]

theorem memWf_execRlogRet (w : UniShort) (e : EA) : outMemWf (execRlogRet w e s) = true := by
  unfold execRlogRet
  grind -ring -linarith [State.memWf_done, State.memWf_stay, State.memWf_release, State.memWf_fault, memWf_uniform,
    State.memWf_storeBytes, State.memWf_countLanded, memWf_withLogSlot, outMemWf]

theorem memWf_withPipe (w : UniShort) (e : EA) (k : Access) (body : PipeHead → Dword → List Piece → State → Out)
    (hbody : ∀ a b c t, t.memWf = true → outMemWf (body a b c t) = true) :
    outMemWf (withPipe w e k s body) = true := by
  unfold withPipe
  grind -ring -linarith [State.memWf_fault, State.memWf_gatherGroup, State.memWf_loadPieces, outMemWf]

theorem State.memWf_putCount (hd : PipeHead) (off : Nat) (v : Word) : (s.putCount hd off v).memWf = true := by
  unfold State.putCount
  grind -ring -linarith [State.memWf_coreWrite]

theorem memWf_execPipeSend (w : UniShort) (e : EA) : outMemWf (execPipeSend w e s) = true := by
  unfold execPipeSend
  grind -ring -linarith [State.memWf_done, State.memWf_stay, memWf_uniform, State.memWf_gatherGroup,
    State.memWf_loadPieces, State.memWf_storeBytes, memWf_withPipe, State.memWf_putCount, outMemWf]

theorem memWf_execPipeRecv (w : UniShort) (e : EA) : outMemWf (execPipeRecv w e s) = true := by
  unfold execPipeRecv
  grind -ring -linarith [State.memWf_done, State.memWf_stay, State.memWf_acquire, memWf_uniform, State.memWf_gatherGroup,
    State.memWf_loadPieces, State.memWf_storeBytes, memWf_withPipe, State.memWf_putCount, outMemWf]

/-! ### Pre-emption and resumption -/

theorem State.memWf_withdrawTeam (key : Nat) : (s.withdrawTeam key).memWf = true := h

theorem State.memWf_enterSave (gid : Nat) : (s.enterSave gid).memWf = true := by
  unfold State.enterSave
  grind -ring -linarith [State.memWf_within, State.memWf_enterHandler]

theorem State.memWf_finishFree (gid : Nat) (p : Split) : (s.finishFree gid p).memWf = true := by
  unfold State.finishFree
  grind -ring -linarith [State.memWf_onGroup, State.memWf_onEngine]

theorem State.memWf_finishFrees (gid : Nat) : (s.finishFrees gid).memWf = true := by
  unfold State.finishFrees
  grind -ring -linarith [State.memWf_finishFree, foldl_memWf]

theorem State.memWf_landPending (gid n : Nat) : (s.landPending gid n).memWf = true := by
  unfold State.landPending
  grind -ring -linarith [State.memWf_onGrp, State.memWf_within, State.memWf_landSpecials]

theorem State.memWf_finishPark (g : Group) : (s.finishPark g).memWf = true := by
  unfold State.finishPark
  grind -ring -linarith [State.memWf_onGroup, State.memWf_onTeam, State.memWf_saveGroup, State.memWf_haltSoon,
    State.memWf_groupRecords, State.memWf_landPending, memWf_getD]

theorem State.memWf_startRoutine (g : Group) : (s.startRoutine g).memWf = true := by
  unfold State.startRoutine
  grind -ring -linarith [State.memWf_enterSave, State.memWf_finishFrees]

theorem memWf_execHandlerEntry (gid : Nat) : outMemWf (execHandlerEntry gid s) = true := by
  unfold execHandlerEntry
  grind -ring -linarith [memWf_execFrameGrant, State.memWf_finishPark, State.memWf_startRoutine, outMemWf]

theorem State.memWf_beginSave (reason key : Nat) : (s.beginSave reason key).memWf = true := by
  unfold State.beginSave
  grind -ring -linarith [State.memWf_onTeam, State.memWf_withdrawTeam, State.memWf_startRoutine, foldl_memWf]

theorem State.memWf_preempt (key reason : Nat) : (s.preempt key reason).memWf = true := by
  unfold State.preempt
  grind -ring -linarith [State.memWf_beginSave, foldl_memWf]

theorem memWf_spillEach (f : Nat → State → State × Spill) (ls : List Nat)
    (hf : ∀ a t, t.memWf = true → (f a t).1.memWf = true) :
    (spillEach f ls s).1.memWf = true := by
  fun_induction spillEach f ls s <;> grind -ring -linarith

theorem State.memWf_saveFrames (gid : Nat) : (s.saveFrames gid).1.memWf = true := by
  unfold State.saveFrames
  grind -ring -linarith [State.memWf_spillReach, State.memWf_putDescriptor, State.memWf_evict, memWf_spillEach, foldl_memWf]

theorem State.memWf_parkedImages (t : Team) (ls : List Group) : (s.parkedImages t ls).1.memWf = true := by
  delta State.parkedImages State.parkedImages._f
  generalize (1024 : Nat) = n
  induction ls generalizing s with
  | nil => exact h
  | cons g rest ih =>
    dsimp only [List.brecOn] at ih ⊢
    split
    · exact ih h
    next src _ =>
      have hl := State.memWf_ctxLoadLong h t.ctx (dieOf t.core) src n
      split
      next u he => rwa [he] at hl
      next u bs he =>
        rw [he] at hl
        have hr := ih hl
        split
        next v hv => rwa [hv] at hr
        next v xs hv => rwa [hv] at hr

theorem State.memWf_writeImage (t : Team) {u : State} (hu : s.writeImage t = some u) : u.memWf = true := by
  have hp := State.memWf_parkedImages h t ((s.teamGroups t.key).filter fun g => g.saveKind == 2)
  unfold State.writeImage at hu
  dsimp only at hu
  split at hu
  · cases hu
  next s' parked he =>
    rw [he] at hp
    obtain ⟨v, hv, hu⟩ := Option.bind_eq_some_iff.mp hu
    have hw : v.memWf = true := by
      refine foldl_option_memWf (fun w hw => foldl_option_memWf ?_ _ ?_ _ hw) _ ?_ _ hv
      · grind
      · grind -ring -linarith [State.memWf_saveGroup, Option.bind_eq_some_iff]
      · grind -ring -linarith [State.memWf_ctxStoreLong, Option.bind_eq_some_iff]
    exact State.memWf_storePieces hw _ _ _ _ hu

theorem State.memWf_removeGroup (core gid : Nat) : (s.removeGroup core gid).memWf = true := by
  unfold State.removeGroup
  grind -ring -linarith [State.memWf_onGroup, State.memWf_forgetGroup, State.memWf_takeHeld]

theorem State.memWf_finishSave (t : Team) : (s.finishSave t).memWf = true := by
  unfold State.finishSave
  grind -ring -linarith [State.memWf_officeEvent, State.memWf_onTeam, State.memWf_dropCaps, State.memWf_freeEngines,
    State.memWf_teamDecision, State.memWf_coreFreed, State.memWf_countOffice, State.memWf_removeGroup, foldl_memWf]

theorem memWf_execPreemptComplete (pid : Nat) : outMemWf (execPreemptComplete pid s) = true := by
  unfold execPreemptComplete
  grind -ring -linarith [State.memWf_haltSoon, State.memWf_finishFrees, State.memWf_landPending, memWf_spillEach,
    State.memWf_saveFrames, State.memWf_writeImage, State.memWf_finishSave, foldl_memWf, outMemWf]

theorem memWf_execSaveTimeout (pid : Nat) : outMemWf (execSaveTimeout pid s) = true := by
  unfold execSaveTimeout
  grind -ring -linarith [State.memWf_killTeam, outMemWf]

theorem State.memWf_loadSplits (gid : Nat) (bs : List Byte) : (s.loadSplits gid bs).1.memWf = true := by
  unfold State.loadSplits
  grind -ring -linarith [State.memWf_loadSplit, foldl_fst_memWf]

theorem State.memWf_loadContext (gid : Nat) (bs : List Byte) : (s.loadContext gid bs).1.memWf = true := by
  unfold State.loadContext
  grind -ring -linarith [State.memWf_onGroup, State.memWf_loadSplit, State.memWf_loadSplits]

theorem State.memWf_loadGroup (t : Team) (gid base : Nat) : (s.loadGroup t gid base).1.memWf = true := by
  unfold State.loadGroup
  generalize (1024 : Nat) = n
  have hl := State.memWf_ctxLoadLong h t.ctx (dieOf t.core) base n
  split
  next u he => rwa [he] at hl
  next u bs he =>
    rw [he] at hl
    dsimp only
    generalize hg : State.onGroup u gid _ = v
    have hv : v.memWf = true := hg ▸ State.memWf_onGroup hl ..
    have hf := State.memWf_fill hv gid 0
    split
    next w hw => rwa [hw] at hf
    next w hw => rwa [hw] at hf
    next w hw =>
      rw [hw] at hf
      have hc := State.memWf_loadContext hf gid bs
      split
      next x hx => rwa [hx] at hc
      next x hx =>
        rw [hx] at hc
        dsimp only
        split
        · exact State.memWf_loadItems hc ..
        · exact State.memWf_hold (State.memWf_loadItems hc ..) ..

theorem State.memWf_refill (gid : Nat) : (s.refill gid).memWf = true := by
  unfold State.refill
  grind -ring -linarith [State.memWf_onGroup, State.memWf_requestFill]

theorem State.memWf_enterRestore (gid base : Nat) : (s.enterRestore gid base).memWf = true := by
  unfold State.enterRestore
  grind -ring -linarith [State.memWf_within, State.memWf_enterHandler]

theorem State.memWf_resumeGroup (t : Team) (nt : Nat) (x : Nat × Nat) : (s.resumeGroup t nt x).1.memWf = true := by
  unfold State.resumeGroup
  grind -ring -linarith [State.memWf_onGroup, State.memWf_onTeam, State.memWf_addGroup, State.memWf_loadGroup,
    State.memWf_refill, State.memWf_enterRestore]

theorem State.memWf_regrant (t : Team) : (s.regrant t).memWf = true := by
  unfold State.regrant
  grind -ring -linarith [State.memWf_onEngine, foldl_memWf]

theorem State.memWf_joinDomain (key : Nat) (x : Domain) : (s.joinDomain key x).memWf = true := by
  unfold State.joinDomain
  split <;> exact h

theorem State.memWf_restoreTeam (t : Team) (hd share bars tiles : List Byte) :
    (s.restoreTeam t hd share bars tiles).memWf = true := by
  unfold State.restoreTeam
  grind -ring -linarith [State.memWf_homeStore, State.memWf_onEngine, State.memWf_zeroTile, State.memWf_setBar,
    State.memWf_loadBarriers, State.memWf_joinDomain, foldl_memWf]

theorem State.memWf_loadTeam (t : Team) : (s.loadTeam t).1.memWf = true := by
  unfold State.loadTeam
  grind -ring -linarith [State.memWf_ctxLoadLong, State.memWf_restoreTeam]

theorem State.memWf_recount (t : Team) : (s.recount t).memWf = true := by
  unfold State.recount
  grind -ring -linarith [State.memWf_onGroup, foldl_memWf]

theorem State.memWf_resumeMember (t : Team) (core : Nat) (home : Option Team) {u : State} {v : Team}
    (hu : s.resumeMember t core home = some (u, v)) : u.memWf = true := by
  unfold State.resumeMember at hu
  grind -ring -linarith [State.memWf]

theorem State.memWf_resumeMembers (from_ dest : Nat) (ts us : List Team) {u : State} {v : List Team}
    (hu : s.resumeMembers from_ dest ts us = some (u, v)) : u.memWf = true := by
  fun_induction s.resumeMembers from_ dest ts us <;> grind -ring -linarith [State.memWf_resumeMember]

theorem State.memWf_restart (t : Team) : (s.restart t).memWf = true := by
  unfold State.restart
  grind -ring -linarith [State.memWf_l1Invalidate, State.memWf_haltSoon, State.memWf_teamDecision, State.memWf_reenter,
    State.memWf_coreTaken, State.memWf_resumeGroup, State.memWf_regrant, State.memWf_loadTeam, State.memWf_recount,
    foldl_fst_memWf]

theorem State.memWf_resume (key core : Nat) : (s.resume key core).memWf = true := by
  unfold State.resume
  grind -ring -linarith [State.memWf_clearDomains, State.memWf_resumeMembers, State.memWf_restart, foldl_memWf]

theorem memWf_execSoresm (die hart : Nat) (v : Dword) : outMemWf (execSoresm die hart v s) = true := by
  unfold execSoresm
  grind -ring -linarith [State.memWf_resume, outMemWf]

theorem memWf_execSopre (die hart : Nat) (v : Dword) : outMemWf (execSopre die hart v s) = true := by
  unfold execSopre
  grind -ring -linarith [State.memWf_preempt, outMemWf]

theorem memWf_execTimeSliceExpiry (pid : Nat) : outMemWf (execTimeSliceExpiry pid s) = true := by
  unfold execTimeSliceExpiry
  grind -ring -linarith [State.memWf_preempt, outMemWf]

theorem State.memWf_addCounter (ctx die : Nat) (a : Dword) : (s.addCounter ctx die a).memWf = true := by
  unfold State.addCounter
  grind -ring -linarith [State.memWf_ctxLoad, State.memWf_ctxStore, memWf_getD]

theorem memWf_execTeamCompletionCount (pid : Nat) : outMemWf (execTeamCompletionCount pid s) = true := by
  unfold execTeamCompletionCount
  grind -ring -linarith [State.memWf_unbindTeam, State.memWf_taskEnded, State.memWf_addCounter, outMemWf, State.memWf]

/-! ### Islands, power and spares -/

theorem State.memWf_setPisl (isl : Nat) (p : Pisl) : (s.setPisl isl p).memWf = true := h

theorem State.memWf_patinaLog (isl kind : Nat) (data : Dword) : (s.patinaLog isl kind data).memWf = true :=
  State.memWf_logRecord h ..

theorem memWf_execQuickSample (isl margin : Nat) (vmv : BitVec 16) :
    outMemWf (execQuickSample isl margin vmv s) = true := by
  unfold execQuickSample
  grind -ring -linarith [State.memWf_setPisl, State.memWf_patinaLog, outMemWf]

theorem State.memWf_newInterval (isl : Nat) : (s.newInterval isl).memWf = true := h

theorem memWf_execFullSweep (isl fmax : Nat) (table : List (BitVec 16)) (allPass : Bool) :
    outMemWf (execFullSweep isl fmax table allPass s) = true := by
  unfold execFullSweep
  grind -ring -linarith [State.memWf_setPisl, State.memWf_patinaLog, State.memWf_newInterval, outMemWf, State.memWf]

theorem memWf_execClkStep (isl : Nat) (up : Bool) : outMemWf (execClkStep isl up s) = true := by
  unfold execClkStep
  grind -ring -linarith [State.memWf_setPisl, outMemWf]

theorem memWf_execPislWrite (isl : Nat) (v : Dword) : outMemWf (execPislWrite isl v s) = true := by
  unfold execPislWrite
  split <;> exact h

theorem State.memWf_powerOnEdges : s.powerOnEdges.memWf = true := by
  unfold State.powerOnEdges
  grind -ring -linarith [State.memWf_setDevReg, foldl_memWf]

theorem memWf_execPowerOnReset : outMemWf (execPowerOnReset s) = true := by
  unfold execPowerOnReset
  grind -ring -linarith [State.memWf_powerCycle, State.memWf_powerOnEdges, outMemWf]

theorem memWf_execPowerRemoval : outMemWf (execPowerRemoval s) = true := by
  unfold execPowerRemoval
  grind -ring -linarith [State.memWf_powerCycle, outMemWf, State.memWf]

theorem memWf_execManufacture (secret : Nat) (cert config : List Byte) :
    outMemWf (execManufacture secret cert config s) = true := by
  unfold execManufacture
  split <;> exact h

theorem memWf_execSelfTestDone (bit : Nat) (pass : Bool) : outMemWf (execSelfTestDone bit pass s) = true := by
  unfold execSelfTestDone
  grind -ring -linarith [State.memWf_logRecord, State.memWf_setReady, outMemWf, State.memWf]

theorem memWf_execFunctionLoss (bit : Nat) : outMemWf (execFunctionLoss bit s) = true := by
  unfold execFunctionLoss
  grind -ring -linarith [State.memWf_setReady, outMemWf]

theorem State.memWf_mapSpare (core phys : Nat) : (s.mapSpare core phys).memWf = true := by
  unfold State.mapSpare
  grind -ring -linarith [State.memWf_logRecord, State.memWf_clearCore, State.memWf]

theorem memWf_execCoreSpare (core phys : Nat) (trusted : Bool) : outMemWf (execCoreSpare core phys trusted s) = true := by
  unfold execCoreSpare
  grind -ring -linarith [State.memWf_setReady, State.memWf_killTeam, State.memWf_preempt, State.memWf_mapSpare,
    foldl_memWf, outMemWf]

theorem memWf_execRecover (part : Nat) : outMemWf (execRecover part s) = true := by
  unfold execRecover
  grind -ring -linarith [State.memWf_setPartReg, State.memWf_postEvent, State.memWf_killTeam, foldl_memWf, outMemWf]

/-! ### Queue instructions -/

theorem State.memWf_enqueueLanes (ri : Bool) (k b : Nat) (ls : List Nat) : (s.enqueueLanes ri k b ls).1.memWf = true := by
  fun_induction s.enqueueLanes ri k b ls <;> grind -ring -linarith [State.memWf_enqueue, State.memWf_reinject]

theorem memWf_execQenq (w : LaneShort) (e : EM) : outMemWf (execQenq w e s) = true := by
  unfold execQenq
  grind -ring -linarith [State.memWf_done, State.memWf_stay, State.memWf_release, State.memWf_faultIn,
    State.memWf_faultLanes, State.memWf_pushZero, memWf_lanes, State.memWf_lanePred, memWf_withHandle,
    State.memWf_enqueueLanes, outMemWf]

theorem State.memWf_dequeue (k : Nat) : (s.dequeue k).1.memWf = true := by
  unfold State.dequeue
  grind -ring -linarith [State.memWf_head, State.memWf_takeItem]

theorem State.memWf_stealTail (k : Nat) : (s.stealTail k).1.memWf = true := by
  unfold State.stealTail
  grind -ring -linarith [State.memWf_onQueue, State.memWf_slotRecord]

theorem State.memWf_takeLanes (steal : Bool) (k : Nat) (ls : List Nat) : (s.takeLanes steal k ls).1.memWf = true := by
  fun_induction s.takeLanes steal k ls <;> grind -ring -linarith [State.memWf_dequeue, State.memWf_stealTail]

theorem memWf_takeRecords (steal : Bool) (need : BitVec 3) (w : LaneShort) (e : EM) :
    outMemWf (takeRecords steal need w e s) = true := by
  unfold takeRecords
  grind -ring -linarith [State.memWf_onGrp, State.memWf_done, State.memWf_stay, State.memWf_acquire, State.memWf_faultIn,
    State.memWf_pushZero, memWf_lanes, State.memWf_lanePred, memWf_withHandle, State.memWf_takeLanes, outMemWf]

/-! ### Service calls -/

theorem State.memWf_finishCall (c : Call) (status : Nat) (result : Dword) :
    (s.finishCall c status result).memWf = true := by
  unfold State.finishCall
  grind -ring -linarith [State.memWf_answerCall, State.memWf_callTaken, State.memWf]

theorem State.memWf_serve (part code : Nat) (body : State → Call → Out)
    (hbody : ∀ t b, t.memWf = true → outMemWf (body t b) = true) :
    outMemWf (s.serve part code body) = true := by
  unfold State.serve
  split
  · exact h
  split
  · exact hbody _ _ h
  · exact h

theorem State.memWf_readBuffer (ctx a n : Nat) : (s.readBuffer ctx a n).1.memWf = true := by
  unfold State.readBuffer
  grind -ring -linarith [State.memWf_ctxLoad, foldl_fst_memWf]

theorem State.memWf_writeBuffer (ctx a : Nat) (bs : List Byte) {u : State} (hu : s.writeBuffer ctx a bs = some u) :
    u.memWf = true := by
  unfold State.writeBuffer at hu
  refine foldl_option_memWf ?_ _ ?_ _ hu
  · grind
  · grind -ring -linarith [State.memWf_ctxStore, Option.bind_eq_some_iff]

theorem memWf_execSvcNop (part : Nat) : outMemWf (execSvcNop part s) = true := by
  unfold execSvcNop
  grind -ring -linarith [State.memWf_finishCall, outMemWf]

theorem memWf_execSvcMint (part : Nat) : outMemWf (execSvcMint part s) = true := by
  unfold execSvcMint
  grind -ring -linarith [State.memWf_finishCall, State.memWf_serve, outMemWf]

theorem memWf_execSvcQcmd (part : Nat) : outMemWf (execSvcQcmd part s) = true := by
  unfold execSvcQcmd
  grind -ring -linarith [State.memWf_runCommand, State.memWf_finishCall, State.memWf_serve, outMemWf]

theorem memWf_execSvcLoad (part : Nat) (ok : LoadAnswer) : outMemWf (execSvcLoad part ok s) = true := by
  unfold execSvcLoad
  grind -ring -linarith [State.memWf_unitStore, State.memWf_finishCall, State.memWf_serve, State.memWf_readBuffer,
    foldl_memWf, outMemWf]

theorem memWf_execSvcFetch (part : Nat) (bufAddr : Dword) : outMemWf (execSvcFetch part bufAddr s) = true := by
  unfold execSvcFetch
  grind -ring -linarith [State.memWf_ctxStore, State.memWf_nodeView, State.memWf_runCommand, State.memWf_finishCall,
    State.memWf_serve, memWf_getD, outMemWf]

theorem State.memWf_readPath (ctx fuel a : Nat) : (s.readPath ctx fuel a).1.memWf = true := by
  fun_induction s.readPath ctx fuel a <;> grind -ring -linarith [State.memWf_ctxLoad]

theorem memWf_execSvcFopen (part : Nat) (ok : Bool) : outMemWf (execSvcFopen part ok s) = true := by
  unfold execSvcFopen
  grind -ring -linarith [State.memWf_finishCall, State.memWf_serve, State.memWf_readPath, outMemWf, State.memWf]

theorem memWf_execSvcFwrite (part : Nat) (ok : Bool) : outMemWf (execSvcFwrite part ok s) = true := by
  unfold execSvcFwrite
  grind -ring -linarith [State.memWf_finishCall, State.memWf_serve, State.memWf_readBuffer, outMemWf, State.memWf]

theorem memWf_execSvcFread (part : Nat) (ok : Bool) (data : List Byte) : outMemWf (execSvcFread part ok data s) = true := by
  unfold execSvcFread
  grind -ring -linarith [State.memWf_finishCall, State.memWf_serve, State.memWf_writeBuffer, outMemWf]

theorem memWf_execSvcFclose (part : Nat) : outMemWf (execSvcFclose part s) = true := by
  unfold execSvcFclose
  grind -ring -linarith [State.memWf_finishCall, State.memWf_serve, outMemWf, State.memWf]

theorem State.memWf_unparkGroup (t : Team) (g : Group) : (s.unparkGroup t g).1.memWf = true := by
  unfold State.unparkGroup
  grind -ring -linarith [State.memWf_onGroup, State.memWf_onTeam, State.memWf_ctxLoadLong, State.memWf_loadContext]

theorem memWf_execSvcResume (part : Nat) : outMemWf (execSvcResume part s) = true := by
  unfold execSvcResume
  grind -ring -linarith [State.memWf_onTeam, State.memWf_finishCall, State.memWf_serve, State.memWf_unparkGroup,
    foldl_fst_memWf, outMemWf]

theorem memWf_execSvcKill (part : Nat) : outMemWf (execSvcKill part s) = true := by
  unfold execSvcKill
  grind -ring -linarith [State.memWf_killTeam, State.memWf_finishCall, State.memWf_serve, outMemWf]

end

end Sys2Proof.Machine

/-! ## Every instruction, and what goes on between them -/

namespace Sys2Proof.Machine

section
variable {s : State} (h : s.memWf = true)
include h

/-! ### Every instruction and event -/

theorem memWf_exec (i : Instr) : outMemWf (exec i s) = true := by
  cases i with
  | iadd | isub | imul | imin | imax | iaddExt | isubExt | imulExt | iminExt | imaxExt => exact memWf_int2S h ..
  | and | or | xor | andExt | orExt | xorExt => exact memWf_logic2S h ..
  | shl | shr | sha | shlExt | shrExt | shaExt => exact memWf_shift2S h ..
  | mov | vsr | imad | imadw | lop3 | bfx | bfi | ibit | prmt | sel | pmovReg | movImm => exact memWf_laneOp h ..
  | fadd | fsub | fmul | faddExt | fsubExt | fmulExt => exact memWf_float2S h ..
  | fmin | fmax | fminExt | fmaxExt => exact memWf_pick2S h ..
  | fscl | fsclExt => exact memWf_scale2S h ..
  | icmp | fcmp => exact memWf_predInstr h ..
  | pset => exact memWf_execPset h ..
  | pmovPred => exact memWf_execPmovPred h ..
  | ffma | fsf | cvt => exact memWf_roundOp h ..
  | dot => exact memWf_execDot h ..
  | shfl => exact memWf_execShfl h ..
  | vote => exact memWf_execVote h ..
  | redux => exact memWf_execRedux h ..
  | scan => exact memWf_execScan h ..
  | rkadm => exact memWf_execRkadm h ..
  | rkins => exact memWf_execRkins h ..
  | relbl => exact memWf_execRelbl h ..
  | itemDone => exact memWf_execItemDone h ..
  | itemSkip => exact memWf_execItemSkip h ..
  | itemYield => exact memWf_execItemYield h ..
  | itemDefer => exact memWf_execItemDefer h ..
  | lda => exact memWf_execLda h ..
  | sta => exact memWf_execSta h ..
  | ld => exact memWf_execLd h ..
  | st => exact memWf_execSt h ..
  | ldk => exact memWf_execLdk h ..
  | ldc => exact memWf_execLdc h ..
  | stc => exact memWf_execStc h ..
  | cpl => exact memWf_execCpl h ..
  | atom => exact memWf_execAtom h ..
  | atomc => exact memWf_execAtomc h ..
  | qenq => exact memWf_execQenq h ..
  | qdeq | qsteal => exact memWf_takeRecords h ..
  | mma | mms | mrk => exact memWf_matrixIssue h ..
  | uadd | usub | umul | umin | umax | uand | uor | uxor | ushl | ushr | usha => exact memWf_uni2 h ..
  | umov | srd | srdFaultWord | umovExt | umad | ubfx | usel => exact memWf_uniOp h ..
  | brx => exact memWf_execBrx h ..
  | callx => exact memWf_execCallx h ..
  | ret => exact memWf_execRet h ..
  | unwind => exact memWf_execUnwind h ..
  | rcv w => exact memWf_execRcv h w
  | exit => exact memWf_execExit h ..
  | waitc => exact memWf_execWaitc h ..
  | cpb => exact memWf_execCpb h ..
  | cpclose => exact memWf_execCpclose h ..
  | cpwait => exact memWf_execCpwait h ..
  | fres => exact memWf_execFres h ..
  | freg => exact memWf_execFreg h ..
  | tspawn => exact memWf_execTspawn h ..
  | tdone => exact memWf_execTdone h ..
  | asy => exact memWf_execAsy h ..
  | gnode => exact memWf_execGnode h ..
  | svc => exact memWf_execSvc h ..
  | swr => exact memWf_execSwr h ..
  | trap => exact memWf_execTrap h ..
  | hret => exact memWf_execHret h ..
  | bkpt => exact memWf_execBkpt h ..
  | uaddExt | usubExt | umulExt | uminExt | umaxExt | uandExt | uorExt | uxorExt | ushlExt | ushrExt | ushaExt =>
    exact memWf_uniImm h ..
  | ucmp => exact memWf_execUcmp h ..
  | barInit => exact memWf_execBarInit h ..
  | barArrive => exact memWf_execBarArrive h ..
  | barWait => exact memWf_execBarWait h ..
  | barArrwait => exact memWf_execBarArrwait h ..
  | barExpect => exact memWf_execBarExpect h ..
  | fenceAcq => exact memWf_execFenceAcq h ..
  | fenceRel => exact memWf_execFenceRel h ..
  | fenceAcqrel => exact memWf_execFenceAcqrel h ..
  | fenceSc => exact memWf_execFenceSc h ..
  | accAcq => exact memWf_execAccAcq h ..
  | accRel => exact memWf_execAccRel h ..
  | accWin => exact memWf_execAccWin h ..
  | accAlloc => exact memWf_execAccAlloc h ..
  | accFree => exact memWf_execAccFree h ..
  | rkcfg => exact memWf_execRkcfg h ..
  | rkrd => exact memWf_execRkrd h ..
  | rlogPush => exact memWf_execRlogPush h ..
  | rlogGet => exact memWf_execRlogGet h ..
  | rlogRet => exact memWf_execRlogRet h ..
  | pipeSend => exact memWf_execPipeSend h ..
  | pipeRecv => exact memWf_execPipeRecv h ..
  | hcohFlush => exact memWf_execHcohFlush h ..
  | hcohInval => exact memWf_execHcohInval h ..
  | ctxDrain => exact memWf_execCtxDrain h ..
  | ctxSvsplit => exact memWf_execCtxSvsplit h ..
  | ctxLdsplit => exact memWf_execCtxLdsplit h ..
  | ctxSvframe => exact memWf_execCtxSvframe h ..
  | ctxLdframe => exact memWf_execCtxLdframe h ..
  | ctxSvlist => exact memWf_execCtxSvlist h ..
  | ctxSvlistLoad => exact memWf_execCtxSvlistLoad h ..
  | bra w e => exact memWf_execBra h w e
  | call => exact memWf_execCall h ..
  | mwait => exact memWf_execMwait h ..
  | msig => exact memWf_execMsig h ..
  | rkmrg => exact memWf_execRkmrg h ..
  | reservedOp => exact State.memWf_fault h ..
  | resultWriteback => exact memWf_execResultWriteback h ..
  | memoryResponse => exact memWf_execMemoryResponse h ..
  | refusalUrgent => exact memWf_execRefusalUrgent h ..
  | waitCountUrgent | parkTimeout | rkcfgComplete | mwaitSatisfied => exact State.memWf_onGroup h ..
  | frameGrant => exact memWf_execFrameGrant h ..
  | eseTrigger => exact memWf_execEseTrigger h ..
  | evictionComplete => exact memWf_execEvictionComplete h ..
  | fillComplete => exact memWf_execFillComplete h ..
  | matrixStepAccept => exact memWf_execMatrixStepAccept h ..
  | matrixStepStart => exact memWf_execMatrixStepStart h ..
  | matrixStepWrite => exact memWf_execMatrixStepWrite h ..
  | pairTimeout => exact memWf_execPairTimeout h ..
  | finPhaseEnd => exact memWf_execFinPhaseEnd h ..
  | thrUpdate => exact memWf_execThrUpdate h ..
  | tileClearDone => exact memWf_execTileClearDone h ..
  | tokenGrant => exact memWf_execTokenGrant h ..
  | tokenHandoff => exact memWf_execTokenHandoff h ..
  | mergeAccept => exact memWf_execMergeAccept h ..
  | mergeComplete => exact memWf_execMergeComplete h ..
  | assayAccept => exact memWf_execAssayAccept h ..
  | assayComplete => exact memWf_execAssayComplete h ..
  | gpkFill => exact memWf_execGpkFill h ..
  | releaseWindowPerform => exact memWf_performDue h ..
  | stall => exact memWf_execStall h ..
  | faultRecordWrite => exact memWf_execFaultRecordWrite h ..
  | deferAppend => exact memWf_execDeferAppend h ..
  | barWaitRelease => exact memWf_execBarWaitRelease h ..
  | copyComplete => exact memWf_execCopyComplete h ..
  | tileTransferComplete => exact memWf_execTileTransferComplete h ..
  | translationWalk => exact memWf_execTranslationWalk h ..
  | atsResponse => exact memWf_execAtsResponse h ..
  | priResponse | hostRouteTimeout | soavail | soplaceStage | fltrsp => exact h
  | atsInvalidation => exact memWf_execAtsInvalidation h ..
  | writeAck => exact memWf_execWriteAck h ..
  | clockMarker => exact memWf_execClockMarker h ..
  | qcOpen => exact State.memWf_openQueue h ..
  | qcClose => exact State.memWf_closeQueue h ..
  | qcNotify => exact State.memWf_notify h ..
  | qcFlush => exact State.memWf_flushQueue h ..
  | qcNode => exact State.memWf_bindNode h ..
  | qcResident => exact State.memWf_resident h ..
  | qcbWriteback => exact memWf_execQcbWriteback h ..
  | taskDecrement => exact memWf_execTaskDecrement h ..
  | nodeRecordArrival => exact memWf_execNodeRecordArrival h ..
  | nodeReserve => exact memWf_execNodeReserve h ..
  | nodeFlushExpiry => exact memWf_execNodeFlushExpiry h ..
  | residency => exact memWf_execResidency h ..
  | sotakeTake | sotakePeek => exact State.memWf_soTake h ..
  | soneed => exact memWf_execSoneed h ..
  | soplaceCommit => exact memWf_execSoplaceCommit h ..
  | sopre die hart v => exact memWf_execSopre h die hart v
  | soresm die hart v => exact memWf_execSoresm h die hart v
  | sokill die hart v => exact memWf_execSokill h die hart v
  | soevt => exact memWf_execSoevt h ..
  | illegalCsrAccess => exact memWf_execIllegalCsrAccess h ..
  | preemptComplete => exact memWf_execPreemptComplete h ..
  | saveTimeout => exact memWf_execSaveTimeout h ..
  | timeSliceExpiry => exact memWf_execTimeSliceExpiry h ..
  | teamCompletionCount => exact memWf_execTeamCompletionCount h ..
  | microcodeLoad => exact memWf_execMicrocodeLoad h ..
  | handlerEntry => exact memWf_execHandlerEntry h ..
  | halt => exact memWf_execHalt h ..
  | watchdog => exact memWf_execWatchdog h ..
  | debugStop => exact memWf_execDebugStop h ..
  | debugStep => exact memWf_execDebugStep h ..
  | breakpointStop => exact memWf_execBreakpointStop h ..
  | debugRegisterWrite => exact memWf_execDebugRegisterWrite h ..
  | hostBar2Write => exact memWf_execHostBar2Write h ..
  | flr => exact memWf_execFlr h ..
  | flrCleanup => exact memWf_execFlrCleanup h ..
  | flrAllowanceExpiry => exact memWf_execFlrAllowanceExpiry h ..
  | flrComplete => exact memWf_execFlrComplete h ..
  | peerPacketReceive => exact memWf_execPeerPacketReceive h ..
  | pctlEnable => exact memWf_execPctlEnable h ..
  | pctlHaltRequest => exact memWf_execPctlHaltRequest h ..
  | cmaskWrite => exact memWf_execCmaskWrite h ..
  | attRequest => exact memWf_execAttRequest h ..
  | attestationReport => exact memWf_execAttestationReport h ..
  | registerWrite => exact memWf_execRegisterWrite h ..
  | egctlGo => exact memWf_execEgctlGo h ..
  | edgeDrainEnd => exact memWf_execEdgeDrainEnd h ..
  | quiesceEnd => exact memWf_execQuiesceEnd h ..
  | retrainEnd => exact memWf_execRetrainEnd h ..
  | edgeReady => exact memWf_execEdgeReady h ..
  | planeMapUpdate => exact State.memWf_setPlanes h ..
  | packetRelay => exact memWf_execPacketRelay h ..
  | relayDrop => exact memWf_execRelayDrop h ..
  | quickSample => exact memWf_execQuickSample h ..
  | fullSweep => exact memWf_execFullSweep h ..
  | clkStep => exact memWf_execClkStep h ..
  | pislWrite => exact memWf_execPislWrite h ..
  | powerOnReset => exact memWf_execPowerOnReset h
  | selfTestDone => exact memWf_execSelfTestDone h ..
  | coreSpare => exact memWf_execCoreSpare h ..
  | recover => exact memWf_execRecover h ..
  | svcNop => exact memWf_execSvcNop h ..
  | svcMint => exact memWf_execSvcMint h ..
  | svcQcmd => exact memWf_execSvcQcmd h ..
  | svcLoad => exact memWf_execSvcLoad h ..
  | svcFetch => exact memWf_execSvcFetch h ..
  | svcFopen => exact memWf_execSvcFopen h ..
  | svcFwrite => exact memWf_execSvcFwrite h ..
  | svcFread => exact memWf_execSvcFread h ..
  | svcFclose => exact memWf_execSvcFclose h ..
  | svcResume => exact memWf_execSvcResume h ..
  | svcKill => exact memWf_execSvcKill h ..
  | debugContinue => exact memWf_execDebugContinue h ..
  | powerRemoval => exact memWf_execPowerRemoval h
  | manufacture => exact memWf_execManufacture h ..
  | functionLoss => exact memWf_execFunctionLoss h ..
  | drainRequestCutoff => exact memWf_execDrainRequestCutoff h ..
  | reservedCommand => exact State.memWf_refuseCommand h ..

/-! ### What goes on in the background -/

theorem memWf_happen (events : List Instr) : outMemWf (happen s events) = true := by
  have hs : ({ s with trap := none } : State).tick.memWf = true := State.memWf_tick (s := { s with trap := none }) h
  unfold happen
  split
  next o ho => exact memWf_firstChange hs _ _ (fun i t ht => memWf_exec ht i) ho
  · exact hs

theorem memWf_background (events : List Instr) : outMemWf (background s events) = true := by
  have first : ∀ o, firstChange exec ({ s with trap := none } : State).tick events = some o → outMemWf o = true :=
    fun o => memWf_firstChange (State.memWf_tick (s := { s with trap := none }) h) _ _ fun i t ht => memWf_exec ht i
  have again : ∀ o, ((leastRank s.waitingSplits).map fun w => issue exec w.2.1 w.2.2 s.tick) = some o →
      outMemWf o = true := by
    intro o ho
    obtain ⟨w, -, rfl⟩ := Option.map_eq_some_iff.mp ho
    exact memWf_issue (State.memWf_tick h) _ _ _ fun i t ht => memWf_exec ht i
  unfold background
  dsimp only
  split
  · exact outMemWf_getD (outMemWf_getD (memWf_happen h _) again) first
  · exact outMemWf_getD (memWf_happen h _) again

end

end Sys2Proof.Machine

namespace Sys2Proof.Machine

theorem memWf_step {s : State} (h : s.memWf = true) : outMemWf (step s) = true := by
  unfold step
  split
  next i rest _ =>
    have hr : ({ s with agenda := rest, trap := none } : State).memWf = true := h
    split
    · exact memWf_exec (State.memWf_tick hr) i
    · exact h
  · split
    · rfl
    split
    next gid sp _ =>
      split
      · exact memWf_background h _
      · exact memWf_issue (State.memWf_tick h) _ _ _ fun i t ht => memWf_exec ht i
    · exact memWf_background h _

end Sys2Proof.Machine

/-- Settles O57: every operation that a step is made of keeps the canonical form of the memories (`memWf_step`). -/
theorem stepKeepsMemoryCanonical : Obligations.StepKeepsMemoryCanonical := by
  intro s t h hs
  have ht := Sys2Proof.Machine.memWf_step h
  rwa [hs] at ht

/-! # Integer and uniform instructions

The shapes of these instructions (`laneOp_effect`, `predInstr_effect`, `uniOp_effect`) already say what each of them changes. What
is left is the value: the model computes on natural numbers and integers, the statements speak of exact integers and of bits. Both
meet in words of the element's width: `intWrap` and `intOf` are `BitVec.ofInt` and `BitVec.toInt`, whose bits the library knows. -/

namespace Sys2Proof.Machine

/-! ### Completion of the shapes -/

/-- An instruction that is a lane operation completes, where it can execute, with the effect of its results. -/
theorem completes_laneOp {i : Instr} {s : State} {regs : List Nat} {w : LaneShort} {gn wide : Bool} {len : Nat} {f : Nat → Dword}
    (hi : exec i s = laneOp regs w gn wide len s f) (hd : regsD w ⊆ regs) (h : s.laneReady w gn wide regs = true) :
    Completes i s (LaneEffect w gn wide len f s) := by
  rw [Completes, hi]
  exact laneOp_effect regs w gn wide len s f (fun hnw => hd (by simp [regsD, hnw])) h

theorem completes_uniOp {i : Instr} {s : State} {w : UniShort} {gn : Bool} {len : Nat} {v : Dword}
    (hi : exec i s = uniOp w gn len s v) (h : s.uniReady w.g gn = true) : Completes i s (UniEffect w.d.toNat len v s) := by
  rw [Completes, hi]
  exact uniOp_effect w gn len s v h

theorem regsD_subset_append (w : LaneShort) (xs ys : List Nat) : regsD w ⊆ regsD w ++ xs ++ ys := by simp

theorem regsD_subset_regs2S (w : LaneShort) (e : EA) : regsD w ⊆ regs2S w e := regsD_subset_append ..

theorem regsD_subset_regs3S (w : LaneShort) (e : EA) : regsD w ⊆ regs3S w e := by simp [regs3S]

/-! ### Integers of a width -/

theorem intWrap_eq (n : Nat) (x : Int) : intWrap n x = (BitVec.ofInt n x).toNat := (BitVec.toNat_ofInt x).symm

theorem natCast_intWrap (n : Nat) (x : Int) : (intWrap n x : Int) = x % 2 ^ n := by
  have h : ((2 ^ n : Nat) : Int) ≠ 0 := by
    have := Nat.two_pow_pos n
    omega
  exact (Int.toNat_of_nonneg (Int.emod_nonneg x h)).trans (congrArg (x % ·) (Int.natCast_pow 2 n))

theorem intOf_signed (n p : Nat) : intOf n true p = (BitVec.ofNat n p).toInt := by
  simp only [intOf, BitVec.toInt_eq_toNat_cond, BitVec.toNat_ofNat, Bool.true_and, decide_eq_true_eq]
  by_cases h : 2 * (p % 2 ^ n) < 2 ^ n
  · simp [h, Nat.not_le.mpr h]
  · simp [h, Nat.not_lt.mp h]

theorem intOf_unsigned (n p : Nat) : intOf n false p = (BitVec.ofNat n p).toNat := by simp [intOf]

theorem intMin_le_intMax (n : Nat) (sg : Bool) : intMin n sg ≤ intMax n sg := by
  have h1 := Nat.two_pow_pos (n - 1)
  have h2 := Nat.two_pow_pos n
  cases sg <;> simp only [intMin, intMax] <;> omega

theorem intClamp_eq (n : Nat) (sg : Bool) (x : Int) : intClamp n sg x = max (intMin n sg) (min (intMax n sg) x) := by
  have := intMin_le_intMax n sg
  unfold intClamp
  split
  · omega
  · split <;> omega

theorem natCast_intResult (n : Nat) (sg sat : Bool) (x : Int) :
    (intResult n sg sat x : Int) = (if sat then max (intMin n sg) (min (intMax n sg) x) else x) % 2 ^ n := by
  rw [intResult, natCast_intWrap, intClamp_eq]

theorem intResult_lt (n : Nat) (sg sat : Bool) (x : Int) : intResult n sg sat x < 2 ^ n := by
  rw [intResult, intWrap_eq]
  exact BitVec.isLt _

/-! ### Packed elements -/

/-- A digit of a value whose digits are `xs`, least first. -/
theorem foldr_digit (b : Nat) (xs : List Nat) (j : Nat) (h : j < xs.length) :
    xs.foldr (fun x acc => x % 2 ^ b + 2 ^ b * acc) 0 / 2 ^ (b * j) % 2 ^ b = xs[j] % 2 ^ b := by
  induction xs generalizing j with
  | nil => simp at h
  | cons x rest ih =>
    have hb := Nat.two_pow_pos b
    cases j with
    | zero => simp
    | succ j =>
      have hx : x % 2 ^ b / 2 ^ b = 0 := Nat.div_eq_of_lt (Nat.mod_lt _ hb)
      rw [List.foldr_cons, Nat.mul_succ, Nat.add_comm (b * j), Nat.pow_add, ← Nat.div_div_eq_div_mul, Nat.add_mul_div_left _ _ hb, hx,
        Nat.zero_add, ih j (by simpa using h), List.getElem_cons_succ]

theorem elemBits_mul_elemCount_le (t : Ty) : elemBits t * elemCount t ≤ 64 := by cases t <;> decide

theorem elemOf_ofNat (t : Ty) (v j : Nat) (h : j < elemCount t) :
    elemOf t (BitVec.ofNat 64 v) j = v / 2 ^ (elemBits t * j) % 2 ^ elemBits t := by
  have h64 : elemBits t * j + elemBits t ≤ 64 :=
    Nat.le_trans (Nat.mul_le_mul_left (elemBits t) h) (elemBits_mul_elemCount_le t)
  have hp : 2 ^ 64 = 2 ^ (elemBits t * j) * 2 ^ (64 - elemBits t * j) := by rw [← Nat.pow_add]; congr 1; omega
  rw [elemOf, BitVec.toNat_ofNat, hp, Nat.mod_mul_right_div_self, Nat.mod_mod_of_dvd _ (Nat.pow_dvd_pow 2 (by omega))]

theorem elemOf_packElems (t : Ty) (xs : List Nat) (j : Nat) (h : j < elemCount t) (hx : j < xs.length) :
    elemOf t (packElems t xs) j = xs[j] % 2 ^ elemBits t := by
  rw [packElems, elemOf_ofNat t _ j h, foldr_digit _ _ _ hx]

/-- Every element of an integer instruction's result is exact, then clamped or wrapped. -/
theorem integerResult_intElems (t : Ty) (sat : Bool) (x : Nat → Int) : IntegerResult t sat x (intElems t sat x) := by
  intro j hj
  rw [intElems, elemOf_packElems t _ j hj (by simpa using hj), List.getElem_map, List.getElem_range,
    Nat.mod_eq_of_lt (intResult_lt ..), natCast_intResult]

/-- A 64-bit integer result is the one element of its type. -/
theorem integerResult_ofNat (sg sat : Bool) (x : Int) :
    IntegerResult (if sg then .i64 else .u64) sat (fun _ => x) (BitVec.ofNat 64 (intResult 64 sg sat x)) := by
  have h : ∀ t : Ty, elemBits t = 64 → elemCount t = 1 → intSigned t = sg →
      IntegerResult t sat (fun _ => x) (BitVec.ofNat 64 (intResult 64 sg sat x)) := by
    intro t hb hc hs j hj
    obtain rfl : j = 0 := by omega
    rw [elemOf_ofNat t _ 0 hj, hb, hs, ← natCast_intResult, Nat.mul_zero, Nat.pow_zero, Nat.div_one,
      Nat.mod_eq_of_lt (intResult_lt ..)]
  cases sg
  · exact h .u64 rfl rfl rfl
  · exact h .i64 rfl rfl rfl

/-! ### Arithmetic with an extension word (R94, R96) -/

theorem completes_int2S (op : Int → Int → Int) {i : Instr} {w : LaneShort} {e : EA} {s : State} (hi : exec i s = int2S op w e 8 s)
    (h : s.laneReady w e.gn e.t.wide (regs2S w e) = true) :
    ∃ r, Completes i s (LaneEffect w e.gn e.t.wide 8 r s)
      ∧ ∀ l, IntegerResult e.t e.sat
          (fun j => op (intElem e.t (s.grp.srcA w e.t.wide l) j) (intElem e.t (s.grp.srcB2 w e l) j)) (r l) :=
  ⟨_, completes_laneOp hi (regsD_subset_regs2S w e) h, fun _ => integerResult_intElems _ _ _⟩


/-! ### Arithmetic on 32-bit words (R94) -/

/-- Element 0 of a source of type b32 is its low word, signed. -/
theorem intElem_b32 (v : Dword) : intElem .b32 v 0 = (v.extractLsb' 0 32).toInt := by
  rw [intElem, show intSigned .b32 = true from rfl, intOf_signed]
  congr 1
  exact BitVec.eq_of_toNat_eq (by simp [elemOf, elemBits])

/-- A wrapping result of type b32 is the exact integer as a 32-bit word. -/
theorem intElems_b32 (f : Nat → Int) : intElems .b32 false f = (BitVec.ofInt 32 (f 0)).setWidth 64 := by
  have h : (BitVec.ofInt 32 (f 0)).toNat < 2 ^ 32 := BitVec.isLt _
  rw [← BitVec.ofNat_toNat]
  simp only [intElems, elemCount, WellFormed.elems, List.range_one, List.map_cons, List.map_nil, packElems, List.foldr_cons,
    List.foldr_nil, elemBits, intResult, intWrap_eq, Bool.false_eq_true, if_false, Nat.mul_zero, Nat.add_zero, Nat.mod_eq_of_lt h]

theorem ofInt_toInt_sub (a b : Word) : BitVec.ofInt 32 (a.toInt - b.toInt) = a - b := by
  rw [← BitVec.toInt_inj, BitVec.toInt_ofInt, BitVec.toInt_sub]

theorem ofInt_toInt_min (a b : Word) : BitVec.ofInt 32 (min a.toInt b.toInt) = if a.sle b then a else b := by
  by_cases h : a.toInt ≤ b.toInt
  · rw [if_pos (BitVec.sle_iff_toInt_le.mpr h), Int.min_eq_left h, BitVec.ofInt_toInt]
  · rw [if_neg (mt BitVec.sle_iff_toInt_le.mp h), Int.min_eq_right (by omega), BitVec.ofInt_toInt]

theorem ofInt_toInt_max (a b : Word) : BitVec.ofInt 32 (max a.toInt b.toInt) = if a.sle b then b else a := by
  by_cases h : a.toInt ≤ b.toInt
  · rw [if_pos (BitVec.sle_iff_toInt_le.mpr h), Int.max_eq_right h, BitVec.ofInt_toInt]
  · rw [if_neg (mt BitVec.sle_iff_toInt_le.mp h), Int.max_eq_left (by omega), BitVec.ofInt_toInt]

/-- A short form whose exact operation `op` is `opW` on signed words. -/
theorem completes_int2S_short {op : Int → Int → Int} {opW : Word → Word → Word}
    (hop : ∀ a b : Word, BitVec.ofInt 32 (op a.toInt b.toInt) = opW a b) {i : Instr} {w : LaneShort} {s : State}
    (hi : exec i s = int2S op w (defaultEA .b32) 4 s) (h : s.laneReady w false false (regs2S w (defaultEA .b32)) = true) :
    Completes i s (LaneEffect w false false 4
      (fun l => (opW ((s.grp.srcA w false l).extractLsb' 0 32) ((s.grp.srcB w false l).extractLsb' 0 32)).setWidth 64) s) := by
  refine completes_laneOp (hi.trans ?_) (regsD_subset_regs2S w _) h
  refine congrArg (laneOp _ w false false 4 s) (funext fun l => ?_)
  rw [← hop, ← intElem_b32, ← intElem_b32]
  exact intElems_b32 _

/-! ### Bits of a result -/

theorem BitsResult.congr {width : Nat} {b c : Nat → Bool} {r : Dword} (h : BitsResult width b r) (hb : ∀ i < width, b i = c i) :
    BitsResult width c r := by
  intro i
  rw [h i]
  by_cases hi : i < width
  · rw [hb i hi]
  · simp [hi]

/-- A word of at most 64 bits. -/
theorem bitsResult_setWidth {width : Nat} (hw : width ≤ 64) (x : BitVec width) : BitsResult width x.getLsbD (x.setWidth 64) := by
  intro i
  rw [BitVec.getLsbD_setWidth]
  by_cases hi : i < width
  · simp [hi, Nat.lt_of_lt_of_le hi hw]
  · simp [hi, BitVec.getLsbD_of_ge x i (by omega)]

/-- A natural number of at most 64 bits. -/
theorem bitsResult_ofNat {width : Nat} (hw : width ≤ 64) {v : Nat} (hv : v < 2 ^ width) :
    BitsResult width v.testBit (BitVec.ofNat 64 v) := by
  intro i
  rw [BitVec.getLsbD_ofNat]
  by_cases hi : i < width
  · simp [hi, Nat.lt_of_lt_of_le hi hw]
  · rw [Nat.testBit_lt_two_pow (Nat.lt_of_lt_of_le hv (Nat.pow_le_pow_right (by decide) (Nat.not_lt.mp hi)))]
    simp

/-- A type of the logic instructions has one element of 64 bits or of 32. -/
theorem elemBits_scalar {t : Ty} (ht : t ∈ [Ty.b32, .u32, .i64, .u64]) : elemBits t = if t.wide then 64 else 32 := by
  revert t; decide

theorem elemBits_le (t : Ty) : elemBits t ≤ 64 := by cases t <;> decide

theorem getLsbD_lowWord (i : Nat) : (0xFFFFFFFF : Dword).getLsbD i = decide (i < 32) := by
  rw [show (0xFFFFFFFF : Dword) = (BitVec.allOnes 32).setWidth 64 from rfl, BitVec.getLsbD_setWidth, BitVec.getLsbD_allOnes]
  by_cases h : i < 32
  · rw [decide_eq_true h, decide_eq_true (Nat.lt_trans h (by decide)), Bool.and_true]
  · rw [decide_eq_false h, Bool.and_false]

theorem bitsResult_cutTo {t : Ty} (ht : t ∈ [Ty.b32, .u32, .i64, .u64]) (v : Dword) :
    BitsResult (elemBits t) v.getLsbD (cutTo t v) := by
  intro i
  rw [elemBits_scalar ht, cutTo]
  cases t.wide
  · rw [if_neg Bool.false_ne_true, if_neg Bool.false_ne_true, BitVec.getLsbD_and, getLsbD_lowWord, Bool.and_comm]
  · rw [if_pos rfl, if_pos rfl]
    by_cases hi : i < 64
    · simp [-BitVec.getLsbD_eq_getElem, hi]
    · simp [hi, BitVec.getLsbD_of_ge v i (by omega)]

/-! ### Shifts (R95) -/

theorem bitsResult_shiftLeft (width : Nat) (a b : Dword) (c : Nat) (_ : 0 < width) (hw : width ≤ 64) :
    BitsResult width (logicBit 3 width a b c) (shiftLeft width a c) := by
  unfold shiftLeft
  split
  · refine (bitsResult_ofNat hw (Nat.mod_lt _ (Nat.two_pow_pos width))).congr fun i hi => ?_
    rw [Nat.testBit_mod_two_pow, Nat.testBit_mul_two_pow, BitVec.testBit_toNat]
    simp [-BitVec.getLsbD_eq_getElem, logicBit, hi]
  · intro i
    by_cases hi : i < width
    · simp [logicBit, show ¬ c ≤ i by omega]
    · simp [hi]

theorem bitsResult_shiftRight (width : Nat) (a b : Dword) (c : Nat) (_ : 0 < width) (hw : width ≤ 64) :
    BitsResult width (logicBit 4 width a b c) (shiftRight width a c) := by
  unfold shiftRight
  split
  · have hv : a.toNat % 2 ^ width / 2 ^ c < 2 ^ width := 
      Nat.lt_of_le_of_lt (Nat.div_le_self ..) (Nat.mod_lt _ (Nat.two_pow_pos width))
    refine (bitsResult_ofNat hw hv).congr fun i _ => ?_
    rw [Nat.testBit_div_two_pow, Nat.testBit_mod_two_pow, BitVec.testBit_toNat]
    rfl
  · intro i
    simp [logicBit, show ¬ i + c < width by omega]

/-- The model's arithmetic shift is the one on words of the width. -/
theorem shiftArith_eq (width : Nat) (a : Dword) (c : Nat) :
    shiftArith width a c = ((a.setWidth width).sshiftRight (min c width)).setWidth 64 := by
  have h : (a.setWidth width).toInt / 2 ^ min c width = ((a.setWidth width).sshiftRight (min c width)).toInt := by
    rw [BitVec.toInt_sshiftRight, Int.shiftRight_eq_div_pow]
    exact congrArg (_ / ·) (Int.natCast_pow 2 _).symm
  rw [shiftArith, intOf_signed, BitVec.ofNat_toNat, intWrap_eq, BitVec.ofNat_toNat, h, BitVec.ofInt_toInt]

theorem bitsResult_shiftArith (width : Nat) (a b : Dword) (c : Nat) (h0 : 0 < width) (hw : width ≤ 64) :
    BitsResult width (logicBit 5 width a b c) (shiftArith width a c) := by
  rw [shiftArith_eq]
  refine (bitsResult_setWidth hw _).congr fun i hi => ?_
  show _ = a.getLsbD (min (i + c) (width - 1))
  rw [BitVec.getLsbD_sshiftRight, BitVec.msb_eq_getLsbD_last, BitVec.getLsbD_setWidth, BitVec.getLsbD_setWidth,
    decide_eq_false (Nat.not_le.mpr hi), Bool.not_false, Bool.true_and]
  by_cases hc : i + c < width
  · rw [if_pos (by omega), decide_eq_true (by omega), Bool.true_and, show min c width + i = min (i + c) (width - 1) by omega]
  · rw [if_neg (by omega), decide_eq_true (by omega), Bool.true_and, show width - 1 = min (i + c) (width - 1) by omega]
    simp

theorem getLsbD_and_logicBit (width : Nat) (a b : Dword) (c i : Nat) : (a &&& b).getLsbD i = logicBit 0 width a b c i :=
  BitVec.getLsbD_and

theorem getLsbD_or_logicBit (width : Nat) (a b : Dword) (c i : Nat) : (a ||| b).getLsbD i = logicBit 1 width a b c i :=
  BitVec.getLsbD_or

theorem getLsbD_xor_logicBit (width : Nat) (a b : Dword) (c i : Nat) : (a ^^^ b).getLsbD i = logicBit 2 width a b c i :=
  BitVec.getLsbD_xor

/-- A bitwise instruction: what holds of its operation's bits holds of its result's. -/
theorem completes_logic2S {op : Dword → Dword → Dword} {n : Nat}
    (hop : ∀ width a b c i, (op a b).getLsbD i = logicBit n width a b c i) {i : Instr} {w : LaneShort} {e : EA} {len : Nat} {s : State}
    (hi : exec i s = logic2S op w e len s) (ht : e.t ∈ [Ty.b32, .u32, .i64, .u64])
    (h : s.laneReady w e.gn e.t.wide (regs2S w e) = true) :
    ∃ r, Completes i s (LaneEffect w e.gn e.t.wide len r s)
      ∧ ∀ l, BitsResult (elemBits e.t)
          (logicBit n (elemBits e.t) (s.grp.srcA w e.t.wide l) (s.grp.srcB2 w e l) (s.grp.count w e l)) (r l) :=
  ⟨_, completes_laneOp hi (regsD_subset_regs2S w e) h, fun _ => (bitsResult_cutTo ht _).congr fun _ _ => hop _ _ _ _ _⟩

theorem completes_shift2S {op : Nat → Dword → Nat → Dword} {n : Nat}
    (hop : ∀ width a b c, 0 < width → width ≤ 64 → BitsResult width (logicBit n width a b c) (op width a c))
    {i : Instr} {w : LaneShort} {e : EA} {len : Nat} {s : State} (hi : exec i s = shift2S op w e len s)
    (h : s.laneReady w e.gn e.t.wide (regs2S w e) = true) :
    ∃ r, Completes i s (LaneEffect w e.gn e.t.wide len r s)
      ∧ ∀ l, BitsResult (elemBits e.t)
          (logicBit n (elemBits e.t) (s.grp.srcA w e.t.wide l) (s.grp.srcB2 w e l) (s.grp.count w e l)) (r l) :=
  ⟨_, completes_laneOp hi (regsD_subset_regs2S w e) h,
    fun _ => hop _ _ _ _ (by cases e.t <;> decide) (elemBits_le e.t)⟩

/-! ### The table function (R96) -/

/-- A bit of the OR of those values that a condition picks. -/
theorem getLsbD_foldl_or (p : Nat → Bool) (f : Nat → Dword) (js : List Nat) (v : Dword) (i : Nat) :
    (js.foldl (fun v j => if p j then v ||| f j else v) v).getLsbD i = (v.getLsbD i || js.any fun j => p j && (f j).getLsbD i) := by
  induction js generalizing v with
  | nil => simp
  | cons j rest ih =>
    rw [List.foldl_cons, ih, List.any_cons, ← Bool.or_assoc]
    congr 1
    cases p j <;> simp [-BitVec.getLsbD_eq_getElem]

/-- The bits that table bit `j` of R96 stands for. -/
def minterm (a b c : Dword) (j : Nat) : Dword :=
  (if j % 2 = 1 then a else ~~~a) &&& (if j / 2 % 2 = 1 then b else ~~~b) &&& (if j / 4 = 1 then c else ~~~c)

theorem lop3Value_eq (t : BitVec 8) (a b c : Dword) :
    lop3Value t a b c = (List.range 8).foldl (fun v j => if t.getLsbD j then v ||| minterm a b c j else v) 0 := rfl

/-- A value or its complement, as a bit of the table index says. -/
theorem getLsbD_literal (a : Dword) (i n : Nat) (hi : i < 64) (hn : n < 2) :
    (if n = 1 then a else ~~~a).getLsbD i = decide (n = (a.getLsbD i).toNat) := by
  obtain rfl | rfl : n = 0 ∨ n = 1 := by omega
  · cases h : a.getLsbD i <;> simp [-BitVec.getLsbD_eq_getElem, h, hi]
  · cases h : a.getLsbD i <;> simp [-BitVec.getLsbD_eq_getElem, h]

theorem getLsbD_minterm (a b c : Dword) (i j : Nat) (hi : i < 64) (hj : j < 8) :
    (minterm a b c j).getLsbD i = decide (j = (a.getLsbD i).toNat + 2 * (b.getLsbD i).toNat + 4 * (c.getLsbD i).toNat) := by
  rw [minterm, BitVec.getLsbD_and, BitVec.getLsbD_and, getLsbD_literal a i _ hi (by omega), getLsbD_literal b i _ hi (by omega),
    getLsbD_literal c i _ hi (by omega), ← Bool.decide_and, ← Bool.decide_and, decide_eq_decide]
  have := (a.getLsbD i).toNat_lt
  have := (b.getLsbD i).toNat_lt
  have := (c.getLsbD i).toNat_lt
  omega

theorem getLsbD_lop3Value (t : BitVec 8) (a b c : Dword) (i : Nat) (hi : i < 64) :
    (lop3Value t a b c).getLsbD i =
      t.getLsbD ((a.getLsbD i).toNat + 2 * (b.getLsbD i).toNat + 4 * (c.getLsbD i).toNat) := by
  have hk : (a.getLsbD i).toNat + 2 * (b.getLsbD i).toNat + 4 * (c.getLsbD i).toNat < 8 := by
    have := (a.getLsbD i).toNat_lt
    have := (b.getLsbD i).toNat_lt
    have := (c.getLsbD i).toNat_lt
    omega
  rw [lop3Value_eq, getLsbD_foldl_or, show (0 : Dword).getLsbD i = false from BitVec.getLsbD_zero, Bool.false_or, Bool.eq_iff_iff,
    List.any_eq_true]
  generalize hn : (a.getLsbD i).toNat + 2 * (b.getLsbD i).toNat + 4 * (c.getLsbD i).toNat = k at hk
  constructor
  · rintro ⟨j, hj, ht⟩
    rw [getLsbD_minterm a b c i j hi (List.mem_range.mp hj), hn, Bool.and_eq_true, decide_eq_true_eq] at ht
    exact ht.2 ▸ ht.1
  · intro ht
    refine ⟨k, List.mem_range.mpr hk, ?_⟩
    rw [getLsbD_minterm a b c i k hi hk, hn, ht, decide_eq_true rfl, Bool.and_true]

theorem bitsResult_lop3 {t : Ty} (ht : t ∈ [Ty.b32, .u32, .i64, .u64]) (imm : BitVec 16) (a b c : Dword) :
    BitsResult (elemBits t)
      (fun i => imm.getLsbD (8 + (a.getLsbD i).toNat + 2 * (b.getLsbD i).toNat + 4 * (c.getLsbD i).toNat))
      (cutTo t (lop3Value (imm.extractLsb' 8 8) a b c)) := by
  refine (bitsResult_cutTo ht _).congr fun i hi => ?_
  have := (a.getLsbD i).toNat_lt
  have := (b.getLsbD i).toNat_lt
  have := (c.getLsbD i).toNat_lt
  rw [getLsbD_lop3Value _ _ _ _ i (Nat.lt_of_lt_of_le hi (elemBits_le t)), BitVec.getLsbD_extractLsb', decide_eq_true (by omega), Bool.true_and]
  simp only [Nat.add_assoc]

/-! ### Bit fields (R97) -/

/-- The field of R97 is a word of its own width, extended by its top bit or by zeros. -/
theorem fieldOf_eq (t : Ty) (imm : BitVec 16) (a : Dword) :
    fieldOf t imm a =
      (if intSigned t then (a.extractLsb' (fieldLsb imm) (fieldWidth imm)).signExtend (elemBits t)
        else (a.extractLsb' (fieldLsb imm) (fieldWidth imm)).setWidth (elemBits t)).setWidth 64 := by
  have hx : BitVec.ofNat (fieldWidth imm) (a.toNat / 2 ^ fieldLsb imm) = a.extractLsb' (fieldLsb imm) (fieldWidth imm) := by
    rw [BitVec.extractLsb', Nat.shiftRight_eq_div_pow]
  rw [fieldOf, intWrap_eq, BitVec.ofNat_toNat]
  cases intSigned t
  · rw [intOf_unsigned, hx, BitVec.ofInt_natCast, BitVec.ofNat_toNat]; rfl
  · rw [intOf_signed, hx]; rfl

theorem bitsResult_fieldOf (t : Ty) {imm : BitVec 16} (h1 : 1 ≤ fieldWidth imm) (a : Dword) :
    BitsResult (elemBits t)
      (fun i => if i < fieldWidth imm then a.getLsbD (fieldLsb imm + i)
        else intSigned t && a.getLsbD (fieldLsb imm + fieldWidth imm - 1)) (fieldOf t imm a) := by
  rw [fieldOf_eq]
  refine (bitsResult_setWidth (elemBits_le t) _).congr fun i hi => ?_
  cases intSigned t
  · rw [if_neg Bool.false_ne_true, BitVec.getLsbD_setWidth, BitVec.getLsbD_extractLsb']
    by_cases hw : i < fieldWidth imm <;> simp [-BitVec.getLsbD_eq_getElem, hi, hw]
  · rw [if_pos rfl, BitVec.getLsbD_signExtend, BitVec.msb_eq_getLsbD_last, BitVec.getLsbD_extractLsb', BitVec.getLsbD_extractLsb']
    by_cases hw : i < fieldWidth imm
    · simp [-BitVec.getLsbD_eq_getElem, hi, hw]
    · rw [if_neg hw, if_neg hw, decide_eq_true hi, decide_eq_true (Nat.sub_lt h1 Nat.one_pos), Nat.add_sub_assoc h1]
      simp only [Bool.true_and]

/-- The bits of the field of R97. -/
theorem getLsbD_fieldMask (imm : BitVec 16) (i : Nat) :
    (BitVec.ofNat 64 ((2 ^ fieldWidth imm - 1) * 2 ^ fieldLsb imm)).getLsbD i =
      (decide (i < 64) && decide (fieldLsb imm ≤ i ∧ i < fieldLsb imm + fieldWidth imm)) := by
  rw [BitVec.getLsbD_ofNat, Nat.testBit_mul_two_pow, Nat.testBit_two_pow_sub_one, ← Bool.decide_and]
  congr 2
  exact propext ⟨fun ⟨h1, h2⟩ => ⟨h1, by omega⟩, fun ⟨h1, h2⟩ => ⟨h1, by omega⟩⟩

/-- The result of `bfi`: the field from source b, moved up, and the other bits from source a. -/
def insertField (imm : BitVec 16) (a b : Dword) : Dword :=
  (a &&& ~~~BitVec.ofNat 64 ((2 ^ fieldWidth imm - 1) * 2 ^ fieldLsb imm))
    ||| (BitVec.ofNat 64 (b.toNat * 2 ^ fieldLsb imm) &&& BitVec.ofNat 64 ((2 ^ fieldWidth imm - 1) * 2 ^ fieldLsb imm))

theorem exec_bfi (w : LaneShort) (e : EA) (s : State) : exec (.bfi w e) s =
    laneOp (regsD w ++ regsA w ++ regsB w false) w e.gn e.t.wide 8 s fun l =>
      cutTo e.t (insertField e.imm (s.grp.srcA w e.t.wide l) (s.grp.srcB w e.t.wide l)) := rfl

theorem getLsbD_insertField (imm : BitVec 16) (a b : Dword) (i : Nat) (hi : i < 64) :
    (insertField imm a b).getLsbD i =
      if fieldLsb imm ≤ i ∧ i < fieldLsb imm + fieldWidth imm then b.getLsbD (i - fieldLsb imm) else a.getLsbD i := by
  rw [insertField, BitVec.getLsbD_or, BitVec.getLsbD_and, BitVec.getLsbD_and, BitVec.getLsbD_not, getLsbD_fieldMask, BitVec.getLsbD_ofNat,
    Nat.testBit_mul_two_pow, BitVec.testBit_toNat]
  by_cases h : fieldLsb imm ≤ i ∧ i < fieldLsb imm + fieldWidth imm
  · simp [-BitVec.getLsbD_eq_getElem, hi, h]
  · simp [-BitVec.getLsbD_eq_getElem, hi, h]

/-! ### Counts and the reversal of bits (R98) -/

/-- The numbers of the set bits among the low `width`, ascending. -/
def onesOf (width : Nat) (a : Dword) : List Nat := (List.range width).filter fun i => a.getLsbD i

theorem mem_onesOf {width : Nat} {a : Dword} {i : Nat} : i ∈ onesOf width a ↔ i < width ∧ a.getLsbD i = true := by
  simp [onesOf]

theorem nodup_onesOf (width : Nat) (a : Dword) : (onesOf width a).Nodup := List.nodup_range.filter _

theorem toNat_ofNat_of_le {v : Nat} (h : v ≤ 64) : (BitVec.ofNat 64 v).toNat = v := by
  rw [BitVec.toNat_ofNat, Nat.mod_eq_of_lt (by omega)]

theorem bitCount_population {width : Nat} (hw : width ≤ 64) (a : Dword) :
    (bitCount 0 width a).toNat = ((List.range width).filter fun i => a.getLsbD i).length := by
  have hl : (onesOf width a).length ≤ width := 
    Nat.le_trans (List.length_filter_le ..) (Nat.le_of_eq List.length_range)
  exact toNat_ofNat_of_le (Nat.le_trans hl hw)

/-- The last of those below `n` that a condition picks. -/
theorem getLast?_filter_range {p : Nat → Bool} {n i : Nat} (h : ((List.range n).filter p).getLast? = some i) :
    i < n ∧ p i = true ∧ ∀ j < n, i < j → p j = false := by
  induction n with
  | zero => simp at h
  | succ n ih =>
    rw [List.range_succ, List.filter_append] at h
    cases hn : p n with
    | true =>
      obtain rfl : n = i := by simpa [hn] using h
      exact ⟨Nat.lt_succ_self _, hn, fun j hj hij => by omega⟩
    | false =>
      obtain ⟨hi, hp, hj⟩ := ih (by simpa [hn] using h)
      refine ⟨Nat.lt_succ_of_lt hi, hp, fun j hjn hij => ?_⟩
      obtain rfl | hjn := Nat.lt_succ_iff_lt_or_eq.mp hjn |>.symm
      · exact hn
      · exact hj j hjn hij

/-- The zeros above the highest set bit. -/
theorem bitCount_leading {width : Nat} (hw : width ≤ 64) (a : Dword) :
    (bitCount 1 width a).toNat ≤ width
    ∧ (∀ i < width, width - (bitCount 1 width a).toNat ≤ i → a.getLsbD i = false)
    ∧ ((bitCount 1 width a).toNat < width → a.getLsbD (width - 1 - (bitCount 1 width a).toNat) = true) := by
  have hb : bitCount 1 width a = BitVec.ofNat 64 (match (onesOf width a).getLast? with | none => width | some i => width - 1 - i) := rfl
  cases h : (onesOf width a).getLast? with
  | none =>
    simp only [h] at hb
    rw [hb, toNat_ofNat_of_le hw]
    refine ⟨Nat.le_refl _, fun i hi _ => ?_, fun hlt => absurd hlt (Nat.lt_irrefl _)⟩
    rw [← Bool.not_eq_true]
    exact fun ha => List.not_mem_nil (List.getLast?_eq_none_iff.mp h ▸ mem_onesOf.mpr ⟨hi, ha⟩)
  | some i =>
    obtain ⟨hi, ha, hj⟩ := getLast?_filter_range h
    simp only [h] at hb
    rw [hb, toNat_ofNat_of_le (by omega)]
    refine ⟨by omega, fun j hjw hij => hj j hjw (by omega), fun _ => ?_⟩
    rwa [show width - 1 - (width - 1 - i) = i by omega]

/-- The zeros below the lowest set bit. -/
theorem bitCount_trailing {width : Nat} (hw : width ≤ 64) (a : Dword) :
    (bitCount 2 width a).toNat ≤ width
    ∧ (∀ i < (bitCount 2 width a).toNat, a.getLsbD i = false)
    ∧ ((bitCount 2 width a).toNat < width → a.getLsbD (bitCount 2 width a).toNat = true) := by
  have hb : bitCount 2 width a = BitVec.ofNat 64 (((List.range width).find? fun i => a.getLsbD i).getD width) := by
    rw [← List.head?_filter, ← List.headD_eq_head?_getD]; rfl
  cases h : (List.range width).find? fun i => a.getLsbD i with
  | none =>
    rw [hb, h, Option.getD_none, toNat_ofNat_of_le hw]
    refine ⟨Nat.le_refl _, fun i hi => ?_, fun hlt => absurd hlt (Nat.lt_irrefl _)⟩
    exact Bool.not_eq_true _ ▸ List.find?_eq_none.mp h i (List.mem_range.mpr hi)
  | some i =>
    obtain ⟨ha, hi, hj⟩ := List.find?_range_eq_some.mp h
    have hi := List.mem_range.mp hi
    rw [hb, h, Option.getD_some, toNat_ofNat_of_le (by omega)]
    exact ⟨Nat.le_of_lt hi, fun j hji => by simpa [-BitVec.getLsbD_eq_getElem] using hj j hji, fun _ => ha⟩

theorem getLsbD_ofNat_two_pow (n i : Nat) : (BitVec.ofNat 64 (2 ^ n)).getLsbD i = (decide (i < 64) && decide (n = i)) := by
  rw [BitVec.getLsbD_ofNat, Nat.testBit_two_pow]

/-- The bits of a sum of different powers of two: no two of them meet in a bit, so the sum is their OR. -/
theorem getLsbD_sum_two_pow {xs : List Nat} (h : xs.Nodup) (i : Nat) :
    (BitVec.ofNat 64 (xs.map (2 ^ ·)).sum).getLsbD i = (decide (i < 64) && decide (i ∈ xs)) := by
  induction xs generalizing i with
  | nil => simp
  | cons n rest ih =>
    obtain ⟨hn, hrest⟩ := List.nodup_cons.mp h
    have hand : BitVec.ofNat 64 (2 ^ n) &&& BitVec.ofNat 64 (rest.map (2 ^ ·)).sum = 0#64 := by
      refine BitVec.eq_of_getLsbD_eq fun k _ => ?_
      rw [BitVec.getLsbD_and, getLsbD_ofNat_two_pow, ih hrest, BitVec.getLsbD_zero]
      by_cases hk : n = k
      · simp [← hk, hn]
      · simp [hk]
    rw [List.map_cons, List.sum_cons, BitVec.ofNat_add, BitVec.add_eq_or_of_and_eq_zero _ _ hand, BitVec.getLsbD_or,
      getLsbD_ofNat_two_pow, ih hrest, ← Bool.and_or_distrib_left, ← Bool.decide_or]
    congr 2
    exact propext (by rw [List.mem_cons, eq_comm (a := n)])

theorem bitsResult_sum_two_pow {width : Nat} (hw : width ≤ 64) {xs : List Nat} (h : xs.Nodup) {b : Nat → Bool}
    (hb : ∀ i, i ∈ xs ↔ i < width ∧ b i = true) : BitsResult width b (BitVec.ofNat 64 (xs.map (2 ^ ·)).sum) := by
  intro i
  rw [getLsbD_sum_two_pow h]
  by_cases hi : i < width
  · simp [hb, hi, Nat.lt_of_lt_of_le hi hw]
  · simp [hb, hi]

theorem foldl_add_eq_sum (f : Nat → Nat) (xs : List Nat) : xs.foldl (fun v x => v + f x) 0 = (xs.map f).sum := by
  rw [List.sum_eq_foldl, List.foldl_map]

theorem bitsResult_reversed {width : Nat} (hw : width ≤ 64) (a : Dword) :
    BitsResult width (fun i => a.getLsbD (width - 1 - i)) (bitCount 3 width a) := by
  have hb : bitCount 3 width a = BitVec.ofNat 64 (((onesOf width a).map (width - 1 - ·)).map (2 ^ ·)).sum := by
    rw [List.map_map]
    exact congrArg (BitVec.ofNat 64) (foldl_add_eq_sum ..)
  rw [hb]
  refine bitsResult_sum_two_pow hw (List.pairwise_map.mpr ?_) fun i => ?_
  · refine (nodup_onesOf width a).imp_of_mem fun hx hy hne => ?_
    have := (mem_onesOf.mp hx).1
    have := (mem_onesOf.mp hy).1
    omega
  · rw [List.mem_map]
    constructor
    · rintro ⟨j, hj, rfl⟩
      obtain ⟨hjw, ha⟩ := mem_onesOf.mp hj
      refine ⟨by omega, ?_⟩
      rwa [show width - 1 - (width - 1 - j) = j by omega]
    · exact fun ⟨hi, ha⟩ => ⟨width - 1 - i, mem_onesOf.mpr ⟨by omega, ha⟩, by omega⟩

/-! ### Permutation of bytes (R99) -/

/-- The four bytes of a low word. -/
theorem byteOf_append (b0 b1 b2 b3 : Byte) :
    byteOf ((0 : Word) ++ (b3 ++ b2 ++ b1 ++ b0)) 0 = b0 ∧ byteOf ((0 : Word) ++ (b3 ++ b2 ++ b1 ++ b0)) 1 = b1
    ∧ byteOf ((0 : Word) ++ (b3 ++ b2 ++ b1 ++ b0)) 2 = b2 ∧ byteOf ((0 : Word) ++ (b3 ++ b2 ++ b1 ++ b0)) 3 = b3 := by
  refine ⟨?_, ?_, ?_, ?_⟩ <;>
    simp (disch := omega) only [byteOf, BitVec.extractLsb'_append_eq_of_add_le, BitVec.extractLsb'_append_eq_of_le,
      Nat.reduceMul, Nat.reduceSub, BitVec.extractLsb'_eq_self]

theorem byteOf_appendLow (x : Word) (v : Dword) : byteOf (x ++ v.extractLsb' 0 32 : Dword) 0 = byteOf v 0 := by
  rw [byteOf, BitVec.extractLsb'_append_eq_of_add_le (by decide)]
  exact BitVec.eq_of_getLsbD_eq fun i hi => by simp [byteOf, hi]

/-- Byte `i` of the result of `prmt` with the selectors of `imm` on the eight bytes of `x`. -/
def permuted (imm : BitVec 16) (x : Dword) : Nat → Byte
  | 0 => prmtByte (imm.extractLsb' 12 4).toNat x (byteOf x 0)
  | i + 1 => prmtByte (imm.extractLsb' (12 - 4 * (i + 1)) 4).toNat x (permuted imm x i)

/-- The result of `prmt`. -/
def permute (imm : BitVec 16) (x : Dword) : Dword :=
  (0 : Word) ++ (permuted imm x 3 ++ permuted imm x 2 ++ permuted imm x 1 ++ permuted imm x 0)

theorem exec_prmt (w : LaneShort) (e : EA) (s : State) : exec (.prmt w e) s =
    laneOp (regsD w ++ regsA w ++ regsB w false) w e.gn false 8 s fun l =>
      permute e.imm ((s.grp.srcB w false l).extractLsb' 0 32 ++ (s.grp.srcA w false l).extractLsb' 0 32) := rfl

theorem byteOf_permute (imm : BitVec 16) (x : Dword) {i : Nat} (hi : i < 4) : byteOf (permute imm x) i = permuted imm x i := by
  obtain ⟨h0, h1, h2, h3⟩ := byteOf_append (permuted imm x 0) (permuted imm x 1) (permuted imm x 2) (permuted imm x 3)
  obtain rfl | rfl | rfl | rfl : i = 0 ∨ i = 1 ∨ i = 2 ∨ i = 3 := by omega
  · exact h0
  · exact h1
  · exact h2
  · exact h3

/-- Each byte is chosen by its selector, and the sign selector copies the byte before. -/
theorem byteOf_permute_eq (imm : BitVec 16) (x : Dword) {i : Nat} (hi : i < 4) :
    byteOf (permute imm x) i =
      prmtByte (imm.extractLsb' (12 - 4 * i) 4).toNat x (if i = 0 then byteOf x 0 else byteOf (permute imm x) (i - 1)) := by
  rw [byteOf_permute imm x hi]
  cases i with
  | zero => rfl
  | succ i => rw [if_neg (Nat.succ_ne_zero i), Nat.add_sub_cancel, byteOf_permute imm x (by omega), permuted]

/-! ### Moves (R101) and packed predicates (R104) -/

theorem cutTo_b32 (v : Dword) : cutTo .b32 v = (v.extractLsb' 0 32 : Word).setWidth 64 := by
  refine BitVec.eq_of_getLsbD_eq fun i hi => ?_
  rw [cutTo, if_neg (by decide), BitVec.getLsbD_and, getLsbD_lowWord, BitVec.getLsbD_setWidth, BitVec.getLsbD_extractLsb']
  simp [-BitVec.getLsbD_eq_getElem, hi, Bool.and_comm]

/-- A sum over those powers of two that a condition picks. -/
theorem bitsResult_foldl_two_pow (p : Nat → Bool) {n : Nat} (hn : n ≤ 64) :
    BitsResult n p (BitVec.ofNat 64 ((List.range n).foldl (fun v i => v + (if p i then 2 ^ i else 0)) 0)) := by
  have hf : (List.range n).foldl (fun v i => v + (if p i then 2 ^ i else 0)) 0 = (((List.range n).filter p).map (2 ^ ·)).sum := by
    rw [← foldl_add_eq_sum, List.foldl_filter]
    exact congrArg (fun f => List.foldl f 0 _) (funext fun v => funext fun i => by split <;> rfl)
  rw [hf]
  exact bitsResult_sum_two_pow hn (List.nodup_range.filter _) fun i => by simp

/-! ### Predicates written (R102 to R104) -/

/-- `t` is `s` with the predicates that `ns` holds of written with `f` in the lanes of `m`, and with writes pending. -/
structure PredsWritten (ns : Nat → Bool) (m : Mask) (f : Nat → Nat → Bool) (s t : State) : Prop where
  pred : ∀ n l, l < 32 → t.grp.predGet n l = if n ≠ 0 ∧ ns n = true ∧ m.getLsbD l = true then f n l else s.grp.predGet n l
  uni : ∀ n, t.grp.uniGet n = s.grp.uniGet n
  upred : ∀ n, t.grp.qGet n = s.grp.qGet n
  rest : t = { s with grp := { s.grp with preds := t.grp.preds, pend := t.grp.pend } }

theorem PredsWritten.none (m : Mask) (f : Nat → Nat → Bool) (s : State) : PredsWritten (fun _ => false) m f s s :=
  ⟨fun _ _ _ => by simp, fun _ => rfl, fun _ => rfl, rfl⟩

/-- One predicate more. -/
theorem PredsWritten.lanePred {ns : Nat → Bool} {m v : Mask} {f : Nat → Nat → Bool} {s t : State} (h : PredsWritten ns m f s t)
    (n : Nat) (hv : ∀ l < 32, m.getLsbD l = true → v.getLsbD l = f n l) :
    PredsWritten (fun k => ns k || k == n) m f s (t.lanePred n m v) := by
  obtain ⟨ps, p, e, hu, hq, hp⟩ := lanePred_rest t n m v
  refine ⟨fun k l hl => ?_, fun k => (hu k).trans (h.uni k), fun k => (hq k).trans (h.upred k), ?_⟩
  · rw [hp k l hl, h.pred k l hl]
    by_cases hk : k = n
    · subst hk
      by_cases hc : k ≠ 0 ∧ m.getLsbD l = true
      · simp [-BitVec.getLsbD_eq_getElem, hc, hv l hl hc.2]
      · rw [if_neg (fun hh => hc hh.2), if_neg (fun hh => hc ⟨hh.1, hh.2.2⟩), if_neg (fun hh => hc ⟨hh.1, hh.2.2⟩)]
    · simp [-BitVec.getLsbD_eq_getElem, hk]
  · rw [e, h.rest]

/-- What a lane instruction that has written predicates does when it pushes a zero latch and goes on. -/
theorem PredsWritten.completes {ns : Nat → Bool} {m : Mask} {f : Nat → Nat → Bool} {s t : State} (h : PredsWritten ns m f s t)
    {i : Instr} {len : Nat} (hi : exec i s = t.pushZero.done len) : Completes i s (PredEffect ns m len f s) := by
  obtain ⟨hp, hu, hq, hr⟩ := h
  have hspl : t.grp.spl = s.grp.spl := congrArg (·.grp.spl) hr
  have hlat : t.grp.latches = s.grp.latches := congrArg (·.grp.latches) hr
  refine ⟨t.pushZero.advance len, hi, ?_⟩
  constructor
  · exact fun n l hl h0 hn hm => (hp n l hl).trans (if_pos ⟨h0, hn, hm⟩)
  · refine fun n l hl hk => (hp n l hl).trans (if_neg ?_)
    rintro ⟨h0, hn, hm⟩
    rcases hk with hk | hk | hk
    · exact h0 hk
    · exact Bool.false_ne_true (hk.symm.trans hn)
    · exact Bool.false_ne_true (hk.symm.trans hm)
  · exact latchGet_pushLatch_zero t.grp []
  · intro j l hj
    refine (latchGet_pushLatch_succ t.grp [] j l hj).trans ?_
    rw [Group.latchGet, Group.latchGet, hlat]
  · exact hu
  · exact hq
  · show t.grp.spl.past len = s.grp.spl.past len
    rw [hspl]
  · rw [hr]; rfl

/-- Numbers up to n + 1 that a condition picks, where it picks n + 1. -/
theorem upTo_succ_of_true {c : Nat → Bool} {n : Nat} (h : c (n + 1) = true) :
    (fun k => decide (1 ≤ k) && decide (k ≤ n + 1) && c k) = fun k => (decide (1 ≤ k) && decide (k ≤ n) && c k) || k == n + 1 := by
  funext k
  by_cases hk : k = n + 1
  · simp [hk, h]
  · simp [hk, show k ≤ n + 1 ↔ k ≤ n by omega]

theorem upTo_succ_of_false {c : Nat → Bool} {n : Nat} (h : c (n + 1) = false) :
    (fun k => decide (1 ≤ k) && decide (k ≤ n + 1) && c k) = fun k => decide (1 ≤ k) && decide (k ≤ n) && c k := by
  funext k
  by_cases hk : k = n + 1
  · simp [hk, h]
  · simp [show k ≤ n + 1 ↔ k ≤ n by omega]

/-- The writes of `pmov.pred`: for each number up to `n` that the condition `c` picks, the predicate of that number. -/
theorem predsWritten_foldl (c : Nat → Bool) (m : Mask) (f : Nat → Nat → Bool) (s : State) (n : Nat) :
    PredsWritten (fun k => decide (1 ≤ k) && decide (k ≤ n) && c k) m f s
      ((List.range n).foldl (fun t i => if c (i + 1) then t.lanePred (i + 1) m (maskWhere m (f (i + 1))) else t) s) := by
  induction n with
  | zero =>
    have h0 : (fun k => decide (1 ≤ k) && decide (k ≤ 0) && c k) = fun _ => false := by
      funext k
      cases k <;> simp
    rw [h0]
    exact PredsWritten.none m f s
  | succ n ih =>
    rw [List.range_succ, List.foldl_append, List.foldl_cons, List.foldl_nil]
    cases hc : c (n + 1) with
    | true =>
      rw [upTo_succ_of_true hc]
      exact ih.lanePred (n + 1) fun l hl hm => by rw [getLsbD_maskWhere _ _ _ hl, hm, Bool.true_and]
    | false =>
      rw [upTo_succ_of_false hc]
      exact ih

/-- The predicate operations of R103 on bits. -/
def predBit (minor : Nat) (x y : Bool) : Bool :=
  match minor with
  | 0 => x && y
  | 1 => x || y
  | 2 => x ^^ y
  | _ => x && !y

theorem getLsbD_predOp (minor : Nat) (x y : Mask) {l : Nat} (hl : l < 32) :
    (predOp minor x y).getLsbD l = predBit minor (x.getLsbD l) (y.getLsbD l) := by
  unfold predOp predBit
  split <;> simp [-BitVec.getLsbD_eq_getElem, hl]

/-- A predicate, negated on request. -/
theorem getLsbD_predMask_xor (g : Group) (n : Nat) (neg : Bool) {l : Nat} (hl : l < 32) :
    (g.predMask n ^^^ (if neg then 0xFFFFFFFF#32 else 0)).getLsbD l = (g.predGet n l ^^ neg) := by
  have h1 : (0xFFFFFFFF#32).getLsbD l = true := by
    rw [show 0xFFFFFFFF#32 = BitVec.allOnes 32 from rfl, BitVec.getLsbD_allOnes, decide_eq_true hl]
  cases neg
  · simp [-BitVec.getLsbD_eq_getElem, Group.predGet]
  · rw [if_pos rfl, BitVec.getLsbD_xor, h1]; rfl

/-- A bit of what `pset` writes. -/
theorem getLsbD_predOp_negated (g : Group) (minor a b : Nat) (na nb : Bool) {l : Nat} (hl : l < 32) :
    (predOp minor (g.predMask a ^^^ (if na then 0xFFFFFFFF#32 else 0)) (g.predMask b ^^^ (if nb then 0xFFFFFFFF#32 else 0))).getLsbD l =
      predBit minor (g.predGet a l ^^ na) (g.predGet b l ^^ nb) := by
  rw [getLsbD_predOp _ _ _ hl, getLsbD_predMask_xor _ _ _ hl, getLsbD_predMask_xor _ _ _ hl]

/-- The element of a scalar source is the source. -/
theorem intElem_zero (t : Ty) (v : Dword) : intElem t v 0 = intSource t v := by
  simp [intElem, intSource, intOf, elemOf]

/-! ### Legal fields (R40, R61) -/

theorem firstIllegal_eq_none {rs : List (Option Illegal)} : firstIllegal rs = none ↔ ∀ r ∈ rs, r = none := by
  induction rs with
  | nil => simp [firstIllegal]
  | cons r rest ih => cases r <;> simp [firstIllegal, ih]

theorem req_eq_none {b : Bool} {r : Illegal} : req b r = none ↔ b = true := by cases b <;> simp [req]

theorem wellFormed_iff (i : Instr) : i.wellFormed = true ↔ i.illegal = none := beq_iff_eq

theorem gnOk_eq_none {g : BitVec 3} {gn : Bool} : WellFormed.gnOk g gn = none ↔ (g = 0 → gn = false) := by
  rw [WellFormed.gnOk, req_eq_none]
  cases gn <;> simp

/-- The upper half of a register field is zero below 8. -/
theorem extractUpper_eq_zero (r : BitVec 6) : r.extractLsb' 3 3 = 0 ↔ r.toNat < 8 := by
  rw [← BitVec.toNat_inj, BitVec.extractLsb'_toNat, Nat.shiftRight_eq_div_pow]
  have := r.isLt
  show r.toNat / 2 ^ 3 % 2 ^ 3 = 0 ↔ _
  omega

theorem predDst_eq_none {w : LaneShort} : WellFormed.predDst w = none ↔ 1 ≤ w.d.toNat ∧ w.d.toNat ≤ 7 ∧ w.nw = false := by
  have h0 : w.d = 0 ↔ w.d.toNat = 0 := by rw [← BitVec.toNat_inj]; rfl
  have hd : (¬ w.d.toNat = 0 ∧ w.d.toNat < 8) ↔ (1 ≤ w.d.toNat ∧ w.d.toNat ≤ 7) := by omega
  simp only [WellFormed.predDst, firstIllegal_eq_none, List.forall_mem_cons, List.not_mem_nil, false_implies, implies_true, and_true,
    req_eq_none, Bool.and_eq_true, bne_iff_ne, ne_eq, beq_iff_eq, extractUpper_eq_zero, h0, hd, Bool.not_eq_true', and_assoc]

/-- Which `pset` is an instruction (R103). -/
theorem wellFormed_pset (w : LaneShort) (e : EA) : (Instr.pset w e).wellFormed = true ↔
    e.t = .b32 ∧ e.rnd = .mode ∧ e.sat = false ∧ (w.g = 0 → e.gn = false) ∧ e.c = 0 ∧ e.xc = false ∧ w.sk = 0 ∧ w.nw = false
    ∧ (WellFormed.minorOf e).toNat ≤ 3 ∧ e.imm.extractLsb' 2 10 = 0 ∧ w.a.toNat < 8 ∧ w.b.toNat < 8
    ∧ 1 ≤ w.d.toNat ∧ w.d.toNat ≤ 7 := by
  simp only [wellFormed_iff, Instr.illegal, firstIllegal_eq_none, List.forall_mem_cons, List.not_mem_nil, false_implies, implies_true,
    and_true, gnOk_eq_none, predDst_eq_none, WellFormed.noRnd, WellFormed.noSat, WellFormed.noC, req_eq_none, beq_iff_eq,
    Bool.and_eq_true, Bool.not_eq_true', decide_eq_true_eq, extractUpper_eq_zero]
  constructor
  · rintro ⟨hg, ht, hr, hs, ⟨hc, hx⟩, hk, hm, hi, ⟨hd1, hd7, hn⟩, ha, hb⟩
    exact ⟨ht, hr, hs, hg, hc, hx, hk, hn, hm, hi, ha, hb, hd1, hd7⟩
  · rintro ⟨ht, hr, hs, hg, hc, hx, hk, hn, hm, hi, ha, hb, hd1, hd7⟩
    exact ⟨hg, ht, hr, hs, ⟨hc, hx⟩, hk, hm, hi, ⟨hd1, hd7, hn⟩, ha, hb⟩

theorem uniSrc_eq_none {w : UniShort} : WellFormed.uniSrc w = none ↔ w.sk ≠ 3 ∧ (w.sk = 2 → w.a.toNat ≤ 15) := by
  simp only [WellFormed.uniSrc, WellFormed.special, firstIllegal_eq_none, List.forall_mem_cons, List.not_mem_nil, false_implies,
    implies_true, and_true, req_eq_none, bne_iff_ne, ne_eq, beq_iff_eq]
  by_cases h : w.sk = 2 <;> simp [h, req_eq_none]

/-- Which `umad` is an instruction (R106). -/
theorem wellFormed_umad (w : UniShort) (e : EA) : (Instr.umad w e).wellFormed = true ↔
    (e.t = .i64 ∨ e.t = .u64) ∧ e.rnd = .mode ∧ (w.g = 0 → e.gn = false) ∧ w.sk ≠ 3 ∧ (w.sk = 2 → w.a.toNat ≤ 15)
    ∧ e.xc = false ∧ e.imm = 0 := by
  simp only [wellFormed_iff, Instr.illegal, firstIllegal_eq_none, List.forall_mem_cons, List.not_mem_nil, false_implies, implies_true,
    and_true, gnOk_eq_none, uniSrc_eq_none, WellFormed.noRnd, req_eq_none, beq_iff_eq, Bool.or_eq_true, Bool.and_eq_true,
    Bool.not_eq_true']
  constructor
  · rintro ⟨hg, ht, hr, ⟨hk3, hk2⟩, hx, hi⟩
    exact ⟨ht, hr, hg, hk3, hk2, hx, hi⟩
  · rintro ⟨ht, hr, hg, hk3, hk2, hx, hi⟩
    exact ⟨hg, ht, hr, ⟨hk3, hk2⟩, hx, hi⟩

/-! ### Uniform results (R105, R106) -/

theorem slt_eq_sle_of_ne {a b : Dword} (h : a ≠ b) : a.slt b = a.sle b := by
  rw [Bool.eq_iff_iff, BitVec.slt_iff_toInt_lt, BitVec.sle_iff_toInt_le]
  have := mt BitVec.toInt_inj.mp h
  omega

theorem signedMin_eq (a b : Dword) : signedMin a b = uniformResult 3 a b := by
  by_cases h : a = b
  · simp [signedMin, uniformResult, h]
  · rw [signedMin, slt_eq_sle_of_ne h]; rfl

theorem signedMax_eq (a b : Dword) : signedMax a b = uniformResult 4 a b := by
  by_cases h : a = b
  · simp [signedMax, uniformResult, h]
  · rw [signedMax, slt_eq_sle_of_ne h]; rfl

theorem uniShl_eq (a b : Dword) : uniShl a b = uniformResult 8 a b := by
  show shiftLeft 64 a b.toNat = if b.toNat < 64 then a <<< b.toNat else 0
  unfold shiftLeft
  split
  · exact BitVec.eq_of_toNat_eq (by simp [Nat.shiftLeft_eq])
  · rfl

theorem uniShr_eq (a b : Dword) : uniShr a b = uniformResult 9 a b := by
  show shiftRight 64 a b.toNat = if b.toNat < 64 then a >>> b.toNat else 0
  unfold shiftRight
  split
  · refine BitVec.eq_of_toNat_eq ?_
    rw [Nat.mod_eq_of_lt a.isLt, BitVec.toNat_ofNat, BitVec.toNat_ushiftRight, Nat.shiftRight_eq_div_pow]
    exact Nat.mod_eq_of_lt (Nat.lt_of_le_of_lt (Nat.div_le_self ..) a.isLt)
  · rfl

theorem uniSha_eq (a b : Dword) : uniSha a b = uniformResult 10 a b := by
  show shiftArith 64 a b.toNat = a.sshiftRight (min b.toNat 63)
  refine BitVec.eq_of_getLsbD_eq fun i hi => ?_
  rw [bitsResult_shiftArith 64 a 0 b.toNat (by decide) (Nat.le_refl _) i, BitVec.getLsbD_sshiftRight, BitVec.msb_eq_getLsbD_last,
    decide_eq_true hi, decide_eq_false (Nat.not_le.mpr hi), Bool.not_false]
  show (true && a.getLsbD (min (i + b.toNat) 63)) = _
  congr 1
  by_cases hc : i + b.toNat < 64
  · rw [if_pos (by omega), show min b.toNat 63 + i = min (i + b.toNat) 63 by omega]
  · split
    · rw [show min b.toNat 63 + i = min (i + b.toNat) 63 by omega]
    · rw [show min (i + b.toNat) 63 = 64 - 1 by omega]

theorem completes_uni2 {op : Dword → Dword → Dword} {n : Nat} (hop : ∀ a b, op a b = uniformResult n a b) {i : Instr} {w : UniShort}
    {s : State} (hi : exec i s = uni2 op w s) (h : s.uniReady w.g false = true) :
    Completes i s (UniEffect w.d.toNat 4 (uniformResult n (s.uniA w) (s.uniB w)) s) := by
  rw [← hop]
  exact completes_uniOp hi h

theorem completes_uniImm {op : Dword → Dword → Dword} {n : Nat} (hop : ∀ a b, op a b = uniformResult n a b) {i : Instr} {w : UniShort}
    {e : EI} {s : State} (hi : exec i s = uniImm op w e s) (h : s.uniReady w.g false = true) :
    Completes i s (UniEffect w.d.toNat 8 (uniformResult n (s.uniA w) (e.imm.signExtend 64)) s) := by
  rw [← hop]
  exact completes_uniOp hi h

/-! ### A uniform predicate written (R92, R102) -/

@[simp] theorem uniGet_addPend_upred (g : Group) (k n : Nat) (m : Mask) (v : Dword) (w : Bool) (o : Sparse Word) :
    (g.addPend (.upred k) m v w o).uniGet n = g.uniGet n := by
  simp [Group.uniGet, pendOld_append]

@[simp] theorem uniGet_qSet (g : Group) (n k : Nat) (b : Bool) : (g.qSet n b).uniGet k = g.uniGet k := by
  unfold Group.qSet
  split
  · rfl
  · exact uniGet_addPend_upred ..

theorem qSet_eq (g : Group) (n : Nat) (b : Bool) : ∃ q p, g.qSet n b = { g with q := q, pend := p } := by
  unfold Group.qSet
  split
  · exact ⟨g.q, g.pend, rfl⟩
  · exact ⟨_, _, rfl⟩

theorem qGet_addPend_upred (g : Group) (n k : Nat) (m : Mask) (v : Dword) (w : Bool) (o : Sparse Word) (h : k ≠ n) :
    (g.addPend (.upred n) m v w o).qGet k = g.qGet k := by
  have hd : PendDest.upred n ≠ PendDest.upred k := fun e => h (PendDest.upred.inj e).symm
  simp [Group.qGet, pendOld_append, hd]

/-- A write to a predicate that does not exist leaves every predicate as it is. -/
theorem qGet_qSet_of_ge (g : Group) (n k : Nat) (b : Bool) (hn : 8 ≤ n) (hk : k < 8) : (g.qSet n b).qGet k = g.qGet k := by
  have hone : BitVec.ofNat 8 (2 ^ n) = 0 := by
    refine BitVec.eq_of_toNat_eq ?_
    rw [BitVec.toNat_ofNat, Nat.mod_eq_zero_of_dvd (Nat.pow_dvd_pow 2 hn)]
    rfl
  have hq : (if b then g.q ||| BitVec.ofNat 8 (2 ^ n) else g.q &&& ~~~BitVec.ofNat 8 (2 ^ n)) = g.q := by
    rw [hone]
    cases b
    · exact BitVec.and_allOnes
    · exact BitVec.or_zero
  rw [Group.qSet, if_neg (by omega)]
  dsimp only
  rw [hq]
  exact qGet_addPend_upred g n k _ _ _ _ (by omega)

/-- A uniform predicate is the value where it was written, and what it was elsewhere; q0 is never written. -/
theorem qGet_qSet_kept (g : Group) (n k : Nat) (b : Bool) (hk : k < 8) (h : k ≠ n ∨ k = 0) : (g.qSet n b).qGet k = g.qGet k := by
  by_cases hn : n < 8
  · rw [qGet_qSet g n k b hn hk, if_neg (by omega)]
  · exact qGet_qSet_of_ge g n k b (by omega) hk

/-- A uniform instruction that writes a predicate: the whole effect. -/
theorem qSet_effect (s : State) (n len : Nat) (b : Bool) :
    ∃ t, (s.onGrp fun g => g.qSet n b).done len = .next t ∧ UpredEffect n len b s t := by
  obtain ⟨q, p, e⟩ := qSet_eq s.grp n b
  refine ⟨_, rfl, ?_⟩
  constructor
  · intro h0 h8
    exact (qGet_qSet s.grp n n b h8 h8).trans (if_pos ⟨rfl, h0⟩)
  · exact fun k hk h => qGet_qSet_kept s.grp n k b hk h
  · exact fun k => uniGet_qSet s.grp n k b
  · show (s.grp.qSet n b).spl.past len = _
    rw [e]
  · show State.advance { s with grp := s.grp.qSet n b } len = _
    rw [State.onGrp, e]
    rfl


end Sys2Proof.Machine

section
open Sys2Proof Sys2Proof.Machine

/-- Settles O1: a packed result gives back each exact element, clamped or wrapped (`integerResult_intElems`). -/
theorem integerArithmetic : Obligations.IntegerArithmetic := by
  refine ⟨?_, fun w e s h => ⟨_, completes_laneOp rfl (regsD_subset_regs3S w e) h, fun _ => integerResult_intElems _ _ _⟩⟩
  intro io hio w e s h
  simp only [List.mem_cons, List.not_mem_nil, or_false] at hio
  rcases hio with rfl | rfl | rfl | rfl | rfl <;> exact completes_int2S _ rfl h

/-- Settles O2: of type b32 the exact signed operation, wrapped, is the operation on words (`intElems_b32`). -/
theorem integerArithmeticShort : Obligations.IntegerArithmeticShort := by
  intro io hio w s h
  simp only [List.mem_cons, List.not_mem_nil, or_false] at hio
  rcases hio with rfl | rfl | rfl | rfl | rfl
  · exact completes_int2S_short (op := (· + ·)) (by simp [BitVec.ofInt_add]) rfl h
  · exact completes_int2S_short ofInt_toInt_sub rfl h
  · exact completes_int2S_short (op := (· * ·)) (by simp [BitVec.ofInt_mul]) rfl h
  · exact completes_int2S_short ofInt_toInt_min rfl h
  · exact completes_int2S_short ofInt_toInt_max rfl h

/-- Settles O3: each operation bit by bit, on the W bits that the type keeps. -/
theorem logicAndShifts : Obligations.LogicAndShifts := by
  constructor
  · intro io hio w e s ht h
    simp only [List.mem_cons, List.not_mem_nil, or_false] at hio
    rcases hio with rfl | rfl | rfl | rfl | rfl | rfl
    · exact completes_logic2S getLsbD_and_logicBit rfl ht h
    · exact completes_logic2S getLsbD_or_logicBit rfl ht h
    · exact completes_logic2S getLsbD_xor_logicBit rfl ht h
    · exact completes_shift2S bitsResult_shiftLeft rfl h
    · exact completes_shift2S bitsResult_shiftRight rfl h
    · exact completes_shift2S bitsResult_shiftArith rfl h
  · intro io hio w s h
    have ht : (defaultEA .b32).t ∈ [Ty.b32, .u32, .i64, .u64] := by decide
    simp only [List.mem_cons, List.not_mem_nil, or_false] at hio
    rcases hio with rfl | rfl | rfl | rfl | rfl | rfl
    · exact completes_logic2S getLsbD_and_logicBit rfl ht h
    · exact completes_logic2S getLsbD_or_logicBit rfl ht h
    · exact completes_logic2S getLsbD_xor_logicBit rfl ht h
    · exact completes_shift2S bitsResult_shiftLeft rfl h
    · exact completes_shift2S bitsResult_shiftRight rfl h
    · exact completes_shift2S bitsResult_shiftArith rfl h

/-- Settles O4: the wide result is one element of 64 bits; of the eight minterms of `lop3` each bit position lies in one. -/
theorem wideMultiplyAndTables : Obligations.WideMultiplyAndTables := by
  intro w e s
  refine ⟨fun h => ⟨_, completes_laneOp rfl (regsD_subset_regs3S w e) h, fun _ => integerResult_ofNat _ _ _⟩, fun ht h => ?_⟩
  have ht : e.t ∈ [Ty.b32, .u32, .i64, .u64] := by rcases ht with ht | ht <;> simp [ht]
  exact ⟨_, completes_laneOp rfl (regsD_subset_regs3S w e) h, fun _ => bitsResult_lop3 ht _ _ _ _⟩

/-- Settles O5: a field is a word of its own width, extended; the counts are read off the ascending list of set bits; the reversal
is a sum of different powers of two; the bytes of `prmt` follow one another. -/
theorem bitFields : Obligations.BitFields := by
  intro w e s
  have hd : regsD w ⊆ regsD w ++ regsA w := List.subset_append_left ..
  refine ⟨fun ht h1 _ => ⟨fun h => ?_, fun h => ?_⟩, fun _ h => ?_, fun h => ?_⟩
  · exact ⟨_, completes_laneOp rfl hd h, fun _ => bitsResult_fieldOf _ h1 _⟩
  · exact ⟨_, completes_laneOp (exec_bfi w e s) (regsD_subset_append ..) h,
      fun _ => (bitsResult_cutTo ht _).congr fun i hi => getLsbD_insertField _ _ _ i (Nat.lt_of_lt_of_le hi (elemBits_le _))⟩
  · refine ⟨_, completes_laneOp rfl hd h, fun l => ⟨fun hm => ?_, fun hm => ?_, fun hm => ?_, fun hm => ?_⟩⟩ <;> rw [hm]
    · exact bitCount_population (elemBits_le _) _
    · exact bitCount_leading (elemBits_le _) _
    · exact bitCount_trailing (elemBits_le _) _
    · exact bitsResult_reversed (elemBits_le _) _
  · refine ⟨_, completes_laneOp (exec_prmt w e s) (regsD_subset_append ..) h, fun l i hi => ?_⟩
    rw [← byteOf_appendLow ((s.grp.srcB w false l).extractLsb' 0 32)]
    exact byteOf_permute_eq e.imm _ hi

/-- Settles O6: the results are the model's own, cut to the type; `pmov.reg` adds different powers of two. -/
theorem selectionAndMoves : Obligations.SelectionAndMoves := by
  intro w s
  refine ⟨fun e ht h => ?_, fun h => ?_, fun e h => ?_, fun h => ?_, fun e h => ?_⟩
  · exact ⟨_, completes_laneOp rfl (regsD_subset_append ..) h, fun _ => bitsResult_cutTo ht _⟩
  · have hv : ∀ l, cutTo .b32 (if w.sk = 3 then s.grp.uniGet w.b.toNat else s.grp.srcA w false l) =
        ((if w.sk = 3 then s.grp.uniGet w.b.toNat else if w.sk = 1 then s.grp.latchGet (w.a.toNat % 4) l
          else (s.grp.laneGet w.a.toNat l).setWidth 64).extractLsb' 0 32 : Word).setWidth 64 := fun l => cutTo_b32 _
    rw [← funext hv]
    exact completes_laneOp rfl (List.subset_append_left ..) h
  · exact completes_laneOp rfl (List.Subset.refl _) h
  · exact completes_laneOp rfl (List.Subset.refl _) h
  · exact ⟨_, completes_laneOp rfl (List.Subset.refl _) h, fun l => bitsResult_foldl_two_pow (s.grp.predGet · l) (by decide)⟩

/-- Settles O7: the predicates written one after another, each in the effective mask (`PredsWritten`). -/
theorem predicates : Obligations.Predicates := by
  refine ⟨fun w e => ⟨rfl, wellFormed_pset w e⟩, fun w e s hm => ⟨fun h => ⟨?_, ?_⟩, ?_, fun h => ?_⟩⟩
  · simp only [intElem_zero]
    exact predInstr_effect _ w e.gn 8 s _ h hm
  · exact predInstr_effect _ w e.gn 8 s _ h hm
  · show ∃ t, execPset w e s = .next t ∧ _
    rw [execPset, lanes_ready [] _ _ _ _ _ _ rfl (Or.inl hm)]
    exact lanePred_effect s _ _ _ 8 _ fun l hl _ => getLsbD_predOp_negated s.grp _ _ _ _ _ hl
  · refine (predsWritten_foldl e.imm.getLsbD (s.grp.effMask w.g e.gn) (fun n l => (s.grp.srcA w false l).getLsbD n) s 7).completes ?_
    show execPmovPred w e s = _
    rw [execPmovPred, lanes_ready _ _ _ _ _ _ _ h (Or.inl hm)]

/-- Settles O11: each operation of the model is the numbered one on 64-bit words. -/
theorem uniformArithmetic : Obligations.UniformArithmetic := by
  refine ⟨fun io hio w s h => ?_, fun io hio w e s h => ?_, fun w e s h => ⟨completes_uniOp rfl h, completes_uniOp rfl h⟩⟩
  · simp only [List.mem_cons, List.not_mem_nil, or_false] at hio
    rcases hio with rfl | rfl | rfl | rfl | rfl | rfl | rfl | rfl | rfl | rfl | rfl
    · exact completes_uni2 (fun _ _ => rfl) rfl h
    · exact completes_uni2 (fun _ _ => rfl) rfl h
    · exact completes_uni2 (fun _ _ => rfl) rfl h
    · exact completes_uni2 signedMin_eq rfl h
    · exact completes_uni2 signedMax_eq rfl h
    · exact completes_uni2 (fun _ _ => rfl) rfl h
    · exact completes_uni2 (fun _ _ => rfl) rfl h
    · exact completes_uni2 (fun _ _ => rfl) rfl h
    · exact completes_uni2 uniShl_eq rfl h
    · exact completes_uni2 uniShr_eq rfl h
    · exact completes_uni2 uniSha_eq rfl h
  · simp only [List.mem_cons, List.not_mem_nil, or_false] at hio
    rcases hio with rfl | rfl | rfl | rfl | rfl | rfl | rfl | rfl | rfl | rfl | rfl
    · exact completes_uniImm (fun _ _ => rfl) rfl h
    · exact completes_uniImm (fun _ _ => rfl) rfl h
    · exact completes_uniImm (fun _ _ => rfl) rfl h
    · exact completes_uniImm signedMin_eq rfl h
    · exact completes_uniImm signedMax_eq rfl h
    · exact completes_uniImm (fun _ _ => rfl) rfl h
    · exact completes_uniImm (fun _ _ => rfl) rfl h
    · exact completes_uniImm (fun _ _ => rfl) rfl h
    · exact completes_uniImm uniShl_eq rfl h
    · exact completes_uniImm uniShr_eq rfl h
    · exact completes_uniImm uniSha_eq rfl h

/-- Settles O12: the wide multiply-add and the field as in the lane set, and the rule of a uniform predicate (`qSet_effect`). -/
theorem uniformSelection : Obligations.UniformSelection := by
  refine ⟨fun w e => ⟨rfl, wellFormed_umad w e⟩, fun w e s h => ⟨?_, fun _ h1 _ => ?_, ?_, ?_⟩⟩
  · exact ⟨_, completes_uniOp rfl h, integerResult_ofNat _ _ _⟩
  · exact ⟨_, completes_uniOp rfl h, bitsResult_fieldOf _ h1 _⟩
  · exact completes_uniOp rfl h
  · show ∃ t, execUcmp w e s = .next t ∧ _
    rw [execUcmp, uniform_ready _ _ _ _ _ h]
    exact qSet_effect s _ 8 _

end

/-! # Floating-point and cross-lane instructions

Most of these instructions are lane operations (`laneOp_effect`), and their statements say the model's value in the spec's words.
Three things are new: the draws of an instruction that rounds, which touch the LFSRs alone; a result for s(d), which leaves zero in
the latch; and the scan, whose list of results is each lane's own function of the lanes below it. -/

namespace Sys2Proof.Machine

/-! ### Draws (R78, R79) -/

/-- Draws touch the LFSRs alone. -/
theorem foldl_drawLane_eq (n : Nat) (ls : List Nat) (g : Group) :
    ls.foldl (fun g l => g.drawLane n l) g = { g with lfsr := (ls.foldl (fun g l => g.drawLane n l) g).lfsr } := by
  induction ls generalizing g with
  | nil => rfl
  | cons l rest ih => exact ih (g.drawLane n l)

theorem lfsrGet_drawLane (g : Group) (n l k : Nat) :
    (g.drawLane n l).lfsrGet k = if k = l then (draws n (g.lfsrGet l)).getLastD (g.lfsrGet l) else g.lfsrGet k :=
  Sparse.get_set ..

/-- Each of some different lanes takes its draws once. -/
theorem lfsrGet_foldl_drawLane (n : Nat) {ls : List Nat} (hls : ls.Nodup) (g : Group) (k : Nat) :
    (ls.foldl (fun g l => g.drawLane n l) g).lfsrGet k =
      if k ∈ ls then (draws n (g.lfsrGet k)).getLastD (g.lfsrGet k) else g.lfsrGet k := by
  induction ls generalizing g with
  | nil => rfl
  | cons l rest ih =>
    obtain ⟨hl, hrest⟩ := List.nodup_cons.mp hls
    rw [List.foldl_cons, ih hrest, lfsrGet_drawLane]
    by_cases hk : k = l
    · subst hk
      simp [hl]
    · simp [hk]

theorem rounded_eq (g : Group) (e : EA) (n : Nat) : g.rounded e n = { g with lfsr := (g.rounded e n).lfsr } := by
  unfold Group.rounded
  split
  · exact foldl_drawLane_eq n _ g
  · rfl

/-- Under RS every active lane takes `n` draws; no draw is none. -/
theorem lfsrGet_rounded (g : Group) (e : EA) (n : Nat) {l : Nat} (hl : l < 32) :
    (g.rounded e n).lfsrGet l =
      if g.stochastic e = true ∧ g.spl.mask.getLsbD l = true then (draws n (g.lfsrGet l)).getLastD (g.lfsrGet l)
      else g.lfsrGet l := by
  unfold Group.rounded
  by_cases hn : n = 0
  · simp [hn, draws]
  · by_cases hs : g.stochastic e = true
    · rw [if_pos ⟨hn, hs⟩, Group.drawLanes, lfsrGet_foldl_drawLane n (nodup_lanesOf _)]
      simp only [mem_lanesOf, hl, hs, true_and]
    · rw [if_neg (fun h => hs h.2), if_neg (fun h => hs h.1)]

/-! ### Completion of the rounding shape -/

theorem reads_of_laneReady {s : State} {w : LaneShort} {gn wide : Bool} {regs : List Nat} (h : s.laneReady w gn wide regs = true) :
    s.reads regs = true := by
  simp only [State.laneReady, Bool.and_eq_true] at h
  obtain ⟨⟨hreads, -⟩, -⟩ := h
  exact hreads

theorem effMask_ne_zero_of_laneReady {s : State} {w : LaneShort} {gn wide : Bool} {regs : List Nat}
    (h : s.laneReady w gn wide regs = true) : s.grp.effMask w.g gn ≠ 0 := by
  simp only [State.laneReady, Bool.and_eq_true, bne_iff_ne] at h
  obtain ⟨⟨-, hmask⟩, -⟩ := h
  exact hmask

/-- The group after the results of a lane instruction. -/
def Group.withResults (g : Group) (w : LaneShort) (gn wide : Bool) (f : Nat → Dword) : Group :=
  g.laneResult w.d.toNat w.nw wide false ((lanesOf (g.effMask w.g gn)).map fun l => (l, f l))

/-- The results of a lane instruction touch registers and latches alone. -/
theorem withResults_eq (g : Group) (w : LaneShort) (gn wide : Bool) (f : Nat → Dword) :
    ∃ fs ls p, g.withResults w gn wide f = { g with frames := fs, latches := ls, pend := p } := by
  obtain ⟨⟨fs, p, e⟩, -⟩ := laneWrite_spec g w.d.toNat w.nw wide false (g.effMask w.g gn) f
  exact ⟨fs, _, p, by rw [Group.withResults, Group.laneResult, e]; rfl⟩

theorem laneOp_ready {s : State} {regs : List Nat} {w : LaneShort} {gn wide : Bool} (h : s.laneReady w gn wide regs = true)
    (len : Nat) (f : Nat → Dword) :
    laneOp regs w gn wide len s f = .next ((s.onGrp fun g => g.withResults w gn wide f).advance len) :=
  lanes_ready _ _ _ _ _ _ _ (reads_of_laneReady h) (Or.inl (effMask_ne_zero_of_laneReady h))

theorem roundOp_ready {s : State} {regs : List Nat} {w : LaneShort} {e : EA} {wide : Bool} (h : s.laneReady w e.gn wide regs = true)
    (len n : Nat) (f : Nat → Dword) :
    roundOp regs w e wide len n s f = .next ((s.onGrp fun g => (g.withResults w e.gn wide f).rounded e n).advance len) :=
  lanes_ready _ _ _ _ _ _ _ (reads_of_laneReady h) (Or.inl (effMask_ne_zero_of_laneReady h))

/-- An instruction that rounds completes, where it can execute, with the effect of its results and its draws. -/
theorem completes_roundOp {i : Instr} {s : State} {regs : List Nat} {w : LaneShort} {e : EA} {wide : Bool} {len n : Nat}
    {f : Nat → Dword} (hi : exec i s = roundOp regs w e wide len n s f) (hd : regsD w ⊆ regs)
    (h : s.laneReady w e.gn wide regs = true) : Completes i s (RoundEffect w e wide len n f s) := by
  obtain ⟨t, ht, hlane⟩ := laneOp_effect regs w e.gn wide len s f (fun hnw => hd (by simp [regsD, hnw])) h
  rw [laneOp_ready h] at ht
  obtain ⟨fs, ls, p, hg⟩ := withResults_eq s.grp w e.gn wide f
  refine ⟨_, hi.trans (roundOp_ready h len n f), ?_, fun l hl => ?_⟩
  · have hdrawn : ({ (s.onGrp fun g => (g.withResults w e.gn wide f).rounded e n).advance len with
        grp := { ((s.onGrp fun g => (g.withResults w e.gn wide f).rounded e n).advance len).grp with lfsr := s.grp.lfsr } } : State) =
        (s.onGrp fun g => g.withResults w e.gn wide f).advance len := by
      simp only [State.onGrp]
      rw [rounded_eq, hg]
      rfl
    rw [hdrawn, Host.Outcome.next.inj ht]
    exact hlane
  · show ((s.grp.withResults w e.gn wide f).rounded e n).lfsrGet l = _
    rw [lfsrGet_rounded _ _ _ hl, hg]
    rfl

/-! ### Float results (R111 to R113) -/

theorem floatResult_floatElems (t : Ty) (x : Nat → Nat) : FloatResult t x (floatElems t x) := by
  intro j hj
  rw [floatElems, elemOf_packElems t _ j hj (by simpa using hj), List.getElem_map, List.getElem_range]

/-- A float instruction that rounds each element. -/
theorem completes_roundElems {i : Instr} {s : State} {regs : List Nat} {w : LaneShort} {e : EA} {wide : Bool} {len n : Nat}
    {x : Nat → Nat → Nat} (hi : exec i s = roundOp regs w e wide len n s fun l => floatElems e.t (x l)) (hd : regsD w ⊆ regs)
    (h : s.laneReady w e.gn wide regs = true) :
    ∃ r, Completes i s (RoundEffect w e wide len n r s) ∧ ∀ l, FloatResult e.t (x l) (r l) :=
  ⟨_, completes_roundOp hi hd h, fun _ => floatResult_floatElems _ _⟩

/-- A float instruction with an exact result in each element. -/
theorem completes_exactElems {i : Instr} {s : State} {regs : List Nat} {w : LaneShort} {gn wide : Bool} {len : Nat} {t : Ty}
    {x : Nat → Nat → Nat} (hi : exec i s = laneOp regs w gn wide len s fun l => floatElems t (x l)) (hd : regsD w ⊆ regs)
    (h : s.laneReady w gn wide regs = true) :
    ∃ r, Completes i s (LaneEffect w gn wide len r s) ∧ ∀ l, FloatResult t (x l) (r l) :=
  ⟨_, completes_laneOp hi hd h, fun _ => floatResult_floatElems _ _⟩

/-! ### Special functions, conversions and dot products (R115, R119, R120) -/

theorem special_rcp (g : Group) (w : LaneShort) (e : EA) (l : Nat) (hm : WellFormed.minorOf e = 0) :
    g.special w e l =
      (kindOf e.t).round (g.env e e.sat l 0) (FVal.div (.fin false 1 0) (g.floatElem e.t (g.srcA w false l) 0)) := by
  rw [Group.special, hm]
  rfl

theorem special_sqrt (g : Group) (w : LaneShort) (e : EA) (l : Nat) (hm : WellFormed.minorOf e = 2) :
    g.special w e l = (kindOf e.t).round (g.env e e.sat l 0) (g.floatElem e.t (g.srcA w false l) 0).sqrt := by
  rw [Group.special, hm]
  rfl

/-- The result of `cvt` in lane `l`. -/
def Group.converted (g : Group) (w : LaneShort) (e : EA) (l : Nat) : Dword :=
  let ts := WellFormed.tyOfBits (e.imm.extractLsb' 0 4)
  let sel := (e.imm.extractLsb' 4 3).toNat
  let conv (i x : Nat) : Nat := convert (g.env e (g.cvtSat e) l i) ts e.t x
  let a := g.srcA w ts.wide l
  match WellFormed.cvtForm ts e.t with
  | some .pack =>
    floatElems e.t fun i =>
      if i = 2 * sel then conv 0 (elemOf ts a 0)
      else if i = 2 * sel + 1 then conv 1 (elemOf ts (g.srcB w false l) 0)
      else elemOf e.t (g.reg false w.d.toNat l) i
  | some .unpack => BitVec.ofNat 64 (conv 0 (elemOf ts a sel))
  | some .repack => floatElems e.t fun i => conv i (elemOf ts a i)
  | _ => BitVec.ofNat 64 (conv 0 (elemOf ts a 0))

/-- The lane registers that `cvt` names. -/
def cvtRegs (w : LaneShort) (e : EA) : List Nat :=
  (if WellFormed.cvtForm (WellFormed.tyOfBits (e.imm.extractLsb' 0 4)) e.t = some .pack then [w.d.toNat] ++ regsB w false
    else regsD w) ++ regsA w

theorem regsD_subset_cvtRegs (w : LaneShort) (e : EA) : regsD w ⊆ cvtRegs w e := by
  unfold cvtRegs regsD
  split <;> split <;> simp

theorem exec_cvt (w : LaneShort) (e : EA) (s : State) :
    exec (.cvt w e) s =
      (let ts := WellFormed.tyOfBits (e.imm.extractLsb' 0 4)
      roundOp (cvtRegs w e) w e e.t.wide 8 (if cvtRounds ts e.t then cvtCount (WellFormed.cvtForm ts e.t) e.t else 0) s
        fun l => s.grp.converted w e l) := rfl

theorem exec_dot_of_float (w : LaneShort) (e : EA) (s : State) (h : floatTy e.t = true) :
    exec (.dot w e) s = roundOp (regs3S w e) w e false 8 1 s fun l =>
      BitVec.ofNat 64 (FKind.f32.round (s.grp.env e e.sat l 0)
        (dotValue (s.grp.rndOf e.rnd == .rd)
          ((List.range (elemCount e.t)).map fun i => s.grp.floatElem e.t (s.grp.srcA w false l) i)
          ((List.range (elemCount e.t)).map fun i => s.grp.floatElem e.t (s.grp.srcB w false l) i)
          (s.grp.floatElem .f32 (s.grp.srcC e false l) 0))) :=
  if_pos h

theorem exec_dot_of_integer (w : LaneShort) (e : EA) (s : State) (h : floatTy e.t = false) :
    exec (.dot w e) s = laneOp (regs3S w e) w e.gn false 8 s fun l =>
      BitVec.ofNat 64 (intResult 32 true e.sat
        (((List.range (elemCount e.t)).map fun i =>
            intElem e.t (s.grp.srcA w false l) i * intElem e.t (s.grp.srcB w false l) i).sum
          + intOf 32 true (s.grp.srcC e false l).toNat)) := by
  simp only [List.sum_eq_foldl, List.foldl_map]
  exact if_neg (by simp [h])

/-- A 32-bit signed integer result. -/
theorem integerResult_b32 (sat : Bool) (x : Int) :
    IntegerResult .b32 sat (fun _ => x) (BitVec.ofNat 64 (intResult 32 true sat x)) := by
  intro j hj
  obtain rfl : j = 0 := Nat.lt_one_iff.mp hj
  rw [elemOf_ofNat _ _ 0 hj, Nat.mul_zero, Nat.pow_zero, Nat.div_one, show elemBits .b32 = 32 from rfl,
    Nat.mod_eq_of_lt (intResult_lt ..), natCast_intResult]
  rfl

/-! ### Results for a uniform register (R122) -/

/-- A cross-lane result written after draws: s(d) and the latches change, and the LFSRs are those left by the draws. -/
theorem putUniform_effect (s : State) (x : Sparse Word) (d : Nat) (v : Dword) :
    ∃ t, (State.putUniform { s with grp := { s.grp with lfsr := x } } d v).done 8 = .next t ∧ CrossEffect d v s t ∧ t.grp.lfsr = x := by
  let g : Group := { s.grp with lfsr := x }
  refine ⟨_, rfl, ?_, rfl⟩
  constructor
  · exact (uniGet_uniSet g d d v).trans (if_pos rfl)
  · exact fun k hk => (uniGet_uniSet g d k v).trans (if_neg hk)
  · exact fun k => qGet_uniSet g d k v
  · exact fun l => latchGet_pushLatch_zero _ [] l
  · exact fun j l hj => latchGet_pushLatch_succ _ [] j l hj
  · rfl
  · rfl

/-- A cross-lane instruction that takes no draws. -/
theorem completes_putUniform {i : Instr} {s : State} {d : Nat} {v : Dword} (hi : exec i s = (s.putUniform d v).done 8) :
    Completes i s fun t => CrossEffect d v s t ∧ t.grp.lfsr = s.grp.lfsr := by
  rw [Completes, hi]
  exact putUniform_effect s s.grp.lfsr d v

/-! ### Votes (R124) -/

/-- The lanes of an effective mask in which a predicate holds, negated on request. -/
def Group.votes (g : Group) (n : Nat) (neg : Bool) (m : Mask) : Mask :=
  m &&& (g.predMask n ^^^ (if neg then 0xFFFFFFFF#32 else 0))

theorem getLsbD_votes (g : Group) (n : Nat) (neg : Bool) (m : Mask) {l : Nat} (hl : l < 32) :
    (g.votes n neg m).getLsbD l = (m.getLsbD l && (g.predGet n l ^^ neg)) := by
  rw [Group.votes, BitVec.getLsbD_and, getLsbD_predMask_xor _ _ _ hl]

/-- A mask is not zero where some lane is in it. -/
theorem mask_eq_zero_iff {m : Mask} {p : Nat → Bool} (h : ∀ l < 32, m.getLsbD l = p l) :
    m = 0 ↔ (List.range 32).any p = false := by
  rw [BitVec.eq_of_getLsbD_eq_iff, List.any_eq_false]
  refine ⟨fun h0 l hl => ?_, fun h0 l hl => ?_⟩
  · have hl := List.mem_range.mp hl
    rw [← h l hl, h0 l hl]
    simp
  · rw [h l hl, eq_false_of_ne_true (h0 l (List.mem_range.mpr hl))]
    exact BitVec.getLsbD_zero.symm

/-- Every lane of a mask votes yes where the votes are the mask. -/
theorem votes_eq_mask_iff {m v : Mask} {p : Nat → Bool} (h : ∀ l < 32, v.getLsbD l = (m.getLsbD l && p l)) :
    v = m ↔ (List.range 32).all (fun l => !m.getLsbD l || (m.getLsbD l && p l)) = true := by
  rw [BitVec.eq_of_getLsbD_eq_iff, List.all_eq_true]
  simp only [List.mem_range]
  refine forall₂_congr fun l hl => ?_
  rw [h l hl]
  cases m.getLsbD l <;> simp

/-- A flag that is 0 where there are no votes. -/
theorem anyVote_eq {m : Mask} {p : Nat → Bool} (h : ∀ l < 32, m.getLsbD l = p l) :
    (if m = 0 then 0 else 1 : Dword) = if (List.range 32).any p then 1 else 0 := by
  cases hp : (List.range 32).any p
  · rw [if_pos ((mask_eq_zero_iff h).mpr hp), if_neg Bool.false_ne_true]
  · rw [if_neg (mt (mask_eq_zero_iff h).mp (by simp [hp])), if_pos rfl]

theorem length_lanesOf_le (m : Mask) : (lanesOf m).length ≤ 32 :=
  Nat.le_trans (List.length_filter_le ..) (Nat.le_of_eq List.length_range)

theorem lanesOf_eq_filter {m : Mask} {p : Nat → Bool} (h : ∀ l < 32, m.getLsbD l = p l) : lanesOf m = (List.range 32).filter p :=
  List.filter_congr fun l hl => h l (List.mem_range.mp hl)

/-- The lowest lane of a mask that is not zero is in it, and no lower lane is. -/
theorem lowestLane_spec {m : Mask} (h : m ≠ 0) :
    lowestLane m < 32 ∧ m.getLsbD (lowestLane m) = true ∧ ∀ k < lowestLane m, m.getLsbD k = false := by
  cases hf : (List.range 32).find? fun l => m.getLsbD l with
  | none =>
    refine absurd ((mask_eq_zero_iff (p := m.getLsbD) fun _ _ => rfl).mpr ?_) h
    rw [List.any_eq_false]
    exact List.find?_eq_none.mp hf
  | some i =>
    obtain ⟨hm, hi, hk⟩ := List.find?_range_eq_some.mp hf
    rw [lowestLane, hf, Option.getD_some]
    exact ⟨List.mem_range.mp hi, hm, fun k hki => by simpa [-BitVec.getLsbD_eq_getElem] using hk k hki⟩

theorem exec_vote (w : LaneShort) (e : EA) (s : State) (hm : s.grp.effMask w.g e.gn ≠ 0)
    (h : s.reads (if WellFormed.minorOf e = 4 then regsA w else []) = true) :
    exec (.vote w e) s = (s.putUniform w.d.toNat (s.grp.vote w e (s.grp.effMask w.g e.gn))).done 8 := by
  show execVote w e s = _
  rw [execVote, lanes_ready _ _ _ _ _ _ _ h (Or.inl hm)]

/-! ### Reductions (R125) -/

/-- A level of the tree of `redux.add.f32` touches the LFSRs alone. -/
theorem sumLevel_eq (e : EA) (size i : Nat) (g : Group) (ls : List (Option Nat)) :
    ∃ x, (sumLevel e size i g ls).1 = { g with lfsr := x } := by
  fun_induction sumLevel e size i g ls with
  | case1 i g a b rest under draw env f v g' h vs heq ih =>
    obtain ⟨x, hx⟩ := ih
    have hg : ∃ y, g' = { g with lfsr := y } := by
      clear_value under
      cases under with
      | none => exact ⟨_, rfl⟩
      | some k =>
        by_cases hs : g.stochastic e = true
        · exact ⟨_, if_pos hs⟩
        · exact ⟨_, if_neg hs⟩
    obtain ⟨y, hy⟩ := hg
    rw [heq, hy] at hx
    exact ⟨x, hx⟩
  | case2 => exact ⟨_, rfl⟩

theorem foldl_sumLevel_eq (e : EA) (sizes : List Nat) (acc : Group × List (Option Nat)) :
    ∃ x, (sizes.foldl (fun (acc : Group × List (Option Nat)) size => sumLevel e size 0 acc.1 acc.2) acc).1 = { acc.1 with lfsr := x } := by
  induction sizes generalizing acc with
  | nil => exact ⟨_, rfl⟩
  | cons size rest ih =>
    obtain ⟨x, hx⟩ := ih (sumLevel e size 0 acc.1 acc.2)
    obtain ⟨y, hy⟩ := sumLevel_eq e size 0 acc.1 acc.2
    exact ⟨x, by rw [List.foldl_cons, hx, hy]⟩

theorem sumTree_eq (g : Group) (e : EA) (leaves : List (Option Nat)) : ∃ x, (g.sumTree e leaves).1 = { g with lfsr := x } :=
  foldl_sumLevel_eq e _ (g, leaves)

theorem exec_redux_of_integer (w : LaneShort) (e : EA) (s : State) (hm : s.grp.effMask w.g e.gn ≠ 0)
    (h : s.reads (regsA w) = true) (ht : e.t ≠ .f32) :
    exec (.redux w e) s =
      (s.putUniform w.d.toNat (reduceExtend e.t (WellFormed.minorOf e).toNat (reduceInt e.t e.sat (WellFormed.minorOf e).toNat
        ((lanesOf (s.grp.effMask w.g e.gn)).map fun l => elemOf e.t (s.grp.srcA w e.t.wide l) 0)))).done 8 := by
  show execRedux w e s = _
  rw [execRedux, lanes_ready _ _ _ _ _ _ _ h (Or.inl hm)]
  exact if_neg ht

/-- The leaves of the sum: the sources of the lanes of a mask. -/
def Group.sumLeaves (g : Group) (w : LaneShort) (m : Mask) : List (Option Nat) :=
  (List.range 32).map fun l => if m.getLsbD l then some (elemOf .f32 (g.srcA w false l) 0) else none

/-- A float reduction: the sum takes draws, the minimum and the maximum take none. -/
theorem exec_redux_of_float (w : LaneShort) (e : EA) (s : State) (hm : s.grp.effMask w.g e.gn ≠ 0)
    (h : s.reads (regsA w) = true) (ht : e.t = .f32) :
    ∃ x v, exec (.redux w e) s = (State.putUniform { s with grp := { s.grp with lfsr := x } } w.d.toNat v).done 8 := by
  show ∃ x v, execRedux w e s = _
  rw [execRedux, lanes_ready _ _ _ _ _ _ _ h (Or.inl hm)]
  by_cases hop : (WellFormed.minorOf e).toNat = 0
  · let leaves := s.grp.sumLeaves w (s.grp.effMask w.g e.gn)
    obtain ⟨x, hx⟩ := sumTree_eq s.grp e leaves
    refine ⟨x, BitVec.ofNat 64 (s.grp.sumTree e leaves).2, ?_⟩
    rw [← hx]
    exact (if_pos ht).trans (if_pos hop)
  · exact ⟨s.grp.lfsr, _, (if_pos ht).trans (if_neg hop)⟩

/-! ### Scans (R126) -/

/-- What the lanes of a list that lie below lane `l` have combined to. -/
def scanBelow (t : Ty) (sat : Bool) (op start : Nat) (x : Nat → Nat) (ls : List Nat) (l : Nat) : Nat :=
  ((ls.filter fun k => decide (k < l)).map x).foldl (combine t sat op) start

/-- What a scan gives lane `l`. -/
def scanValue (t : Ty) (sat incl : Bool) (op start : Nat) (x : Nat → Nat) (ls : List Nat) (l : Nat) : Dword :=
  let acc := scanBelow t sat op start x ls l
  BitVec.ofNat 64 (if incl then combine t sat op acc (x l) else acc)

theorem scanBelow_head (t : Ty) (sat : Bool) (op start : Nat) (x : Nat → Nat) {l : Nat} {rest : List Nat} (h : ∀ k ∈ rest, l < k) :
    scanBelow t sat op start x (l :: rest) l = start := by
  have hf : (l :: rest).filter (fun k => decide (k < l)) = [] := by
    rw [List.filter_eq_nil_iff]
    intro k hk
    rcases List.mem_cons.mp hk with rfl | hk
    · simp
    · simpa using Nat.le_of_lt (h k hk)
  rw [scanBelow, hf]
  rfl

theorem scanBelow_tail (t : Ty) (sat : Bool) (op start : Nat) (x : Nat → Nat) {l k : Nat} (rest : List Nat) (h : l < k) :
    scanBelow t sat op start x (l :: rest) k = scanBelow t sat op (combine t sat op start (x l)) x rest k := by
  simp [scanBelow, h]

/-- Over ascending lanes the accumulator that a scan hands on is what the lanes below have combined to. -/
theorem scanFrom_eq (t : Ty) (sat incl : Bool) (op start : Nat) (x : Nat → Nat) {ls : List Nat} (h : ls.Pairwise (· < ·)) :
    scanFrom t sat incl op start (ls.map fun l => (l, x l)) = ls.map fun l => (l, scanValue t sat incl op start x ls l) := by
  induction ls generalizing start with
  | nil => rfl
  | cons l rest ih =>
    obtain ⟨hl, hrest⟩ := List.pairwise_cons.mp h
    rw [List.map_cons, scanFrom, ih _ hrest, List.map_cons]
    refine List.cons_eq_cons.mpr ⟨?_, List.map_congr_left fun k hk => ?_⟩
    · rw [scanValue, scanBelow_head t sat op start x hl]
    · rw [scanValue, scanValue, scanBelow_tail t sat op start x rest (hl k hk)]

theorem pairwise_lanesOf (m : Mask) : (lanesOf m).Pairwise (· < ·) := List.pairwise_lt_range.filter _

/-- `scan` is a lane operation: each lane's result is its own function of the lanes below it. -/
theorem exec_scan (w : LaneShort) (e : EA) (s : State) :
    exec (.scan w e) s =
      (let op := (e.imm.extractLsb' 8 4).toNat
      laneOp (regsD w ++ regsA w) w e.gn e.t.wide 8 s fun l =>
        scanValue e.t e.sat (WellFormed.minorOf e == 0) op
          (if w.sk = 3 then elemOf e.t (s.grp.uniGet w.b.toNat) 0 else scanIdentity e.t op)
          (fun l => elemOf e.t (s.grp.srcA w e.t.wide l) 0) (lanesOf (s.grp.effMask w.g e.gn)) l) := by
  show execScan w e s = _
  simp only [execScan, laneOp, lanes, scanFrom_eq _ _ _ _ _ _ (pairwise_lanesOf _)]

end Sys2Proof.Machine

section
open Sys2Proof Sys2Proof.Machine

/-- Settles O8: each element is packed as it was rounded (`floatResult_floatElems`), and the draws touch the LFSRs alone
(`completes_roundOp`). -/
theorem floatArithmetic : Obligations.FloatArithmetic := by
  refine ⟨fun io hio w e s h => ?_, fun io hio w s h => ?_, fun w e s h => ?_, fun io hio w e s h => ?_, fun io hio w s h => ?_,
    fun w e s h => ?_, fun w s h => ?_⟩
  · simp only [List.mem_cons, List.not_mem_nil, or_false] at hio
    rcases hio with rfl | rfl | rfl <;> exact completes_roundElems rfl (regsD_subset_regs2S w e) h
  · simp only [List.mem_cons, List.not_mem_nil, or_false] at hio
    rcases hio with rfl | rfl | rfl <;> exact completes_roundElems (e := defaultEA .f32) rfl (regsD_subset_regs2S w _) h
  · exact completes_roundElems rfl (regsD_subset_regs3S w e) h
  · simp only [List.mem_cons, List.not_mem_nil, or_false] at hio
    rcases hio with rfl | rfl <;> exact completes_exactElems rfl (regsD_subset_regs2S w e) h
  · simp only [List.mem_cons, List.not_mem_nil, or_false] at hio
    rcases hio with rfl | rfl <;> exact completes_exactElems rfl (regsD_subset_regs2S w (defaultEA .f32)) h
  · exact completes_roundElems rfl (regsD_subset_regs2S w e) h
  · exact completes_roundElems (e := defaultEA .f32) rfl (regsD_subset_regs2S w _) h

/-- Settles O9: the exact functions of `fsf` by their minors, the result of `cvt` by its form (`Group.converted`), and the integer
`dot` as one clamped or wrapped word. -/
theorem specialFunctionsAndConversions : Obligations.SpecialFunctionsAndConversions := by
  intro w e s
  refine ⟨fun h => ?_, fun h => ?_, fun ht h => ?_, fun ht h => ?_⟩
  · refine ⟨_, completes_roundOp rfl (List.subset_append_left ..) h, fun l => ⟨fun hm => ?_, fun hm => ?_⟩⟩
    · rw [special_rcp _ _ _ _ hm, BitVec.toNat_ofNat]
    · rw [special_sqrt _ _ _ _ hm, BitVec.toNat_ofNat]
  · refine ⟨_, completes_roundOp (exec_cvt w e s) (regsD_subset_cvtRegs w e) h,
      fun l => ⟨fun hf => ?_, fun hf => ?_, fun hf => ?_, fun hf => ?_⟩⟩
      <;> simp only [Group.converted, hf]
    · exact BitVec.toNat_ofNat ..
    · exact BitVec.toNat_ofNat ..
    · exact floatResult_floatElems _ _
    · exact floatResult_floatElems _ _
  · exact completes_roundOp (exec_dot_of_float w e s ht) (regsD_subset_regs3S w e) h
  · exact ⟨_, completes_laneOp (exec_dot_of_integer w e s ht) (regsD_subset_regs3S w e) h, fun _ => integerResult_b32 _ _⟩

/-- Settles O10: `shfl` is a lane operation as it stands; a vote is read off the mask of the lanes that vote yes; a reduction
leaves all but s(d), the latches and the LFSRs; each lane's part of a scan is its own (`scanFrom_eq`). -/
theorem crossLane : Obligations.CrossLane := by
  intro w e s m
  refine ⟨fun h => completes_laneOp rfl (regsD_subset_append ..) h, fun hm h => ?_, fun hm h => ?_, fun h => ?_⟩
  · have hp := fun l (hl : l < 32) => getLsbD_votes s.grp w.a.toNat (e.imm.getLsbD 0) m hl
    refine ⟨s.grp.vote w e m, completes_putUniform (exec_vote w e s hm h), fun hv => ?_, fun hv => ?_, fun hv => ?_, fun hv => ?_,
      fun hv => ?_⟩
      <;> rw [Group.vote, hv]
    · exact (bitsResult_setWidth (by decide) _).congr hp
    · exact anyVote_eq hp
    · exact ite_congr (propext (votes_eq_mask_iff hp)) (fun _ => rfl) fun _ => rfl
    · rw [← lanesOf_eq_filter hp]
      exact toNat_ofNat_of_le (Nat.le_trans (length_lanesOf_le _) (by decide))
    · obtain ⟨hl, hml, hk⟩ := lowestLane_spec hm
      exact ⟨lowestLane m, hl, hml, hk, rfl⟩
  · by_cases ht : e.t = .f32
    · obtain ⟨x, v, hx⟩ := exec_redux_of_float w e s hm h ht
      obtain ⟨t, hnext, ht', -⟩ := putUniform_effect s x w.d.toNat v
      exact ⟨v, ⟨t, hx.trans hnext, ht', fun hne => absurd ht hne⟩, fun hne => absurd ht hne⟩
    · obtain ⟨t, hnext, ht', hlfsr⟩ := completes_putUniform (exec_redux_of_integer w e s hm h ht)
      exact ⟨_, ⟨t, hnext, ht', fun _ => hlfsr⟩, fun _ => rfl⟩
  · refine ⟨_, completes_laneOp (exec_scan w e s) (List.subset_append_left ..) h, fun l hl hml => ?_⟩
    simp only [scanValue, BitVec.toNat_ofNat, beq_iff_eq]
    rfl

end
